-- ==== Sys2Proof/Word.lean ====
section
/-! DEFINITION. Word types of the CSK-7720: the value cell (32 bits), the 64-bit value of two cells (R28), the byte, the
128-byte line of the caches (R10, R93) and its byte mask (R151). -/

namespace Sys2Proof

/-- A byte of memory (R3: little-endian everywhere). -/
abbrev Byte := BitVec 8

/-- One 32-bit value cell (R26, R170). -/
abbrev W32 := BitVec 32

/-- A 64-bit value: two cells under one name (R28); also one instruction word or header (R53, R61). -/
abbrev W64 := BitVec 64

/-- The 128 bytes of one line (R10, R93), byte 0 in the least significant bits (R3). -/
abbrev Line := BitVec 1024

/-- One bit per byte of a line (R151). -/
abbrev LineMask := BitVec 128

end Sys2Proof
end

