-- ==== Sys2Proof/Config.lean ====
section
/-! DEFINITION. What an implementation fixes: the figures of this part (R5, R10, R385), the fuses (R428, R429), and the free
values that the spec leaves open. A figure marked (stepping) in the spec is this part's figure here (log entry 4). The opaque
constants have no body: no proof can see their values. -/

namespace Sys2Proof.Config

/-- Lanes per core, W (R10, GEOM.W; 64 on this part). -/
def W : Nat := 64
/-- Thread slots per lane (R10, GEOM.SPL). -/
def slots : Nat := 32
/-- Value cells per lane (R10, R170, GEOM.CPLN). -/
def cellsPerLane : Nat := 2048
/-- Compute dies (R9). -/
def dies : Nat := 8
/-- Cores per compute die (R9). -/
def coresPerDie : Nat := 48
/-- Cores of the device (R9). -/
def cores : Nat := 384
/-- Fixed A latency in clk (R69). -/
def latA : Nat := 4
/-- Fixed X latency in clk (R69). -/
def latX : Nat := 6
/-- ARBWAIT in clk (R181, GEOM.ARBW). -/
def arbWait : Nat := 256
/-- Lease length LL (R277, GEOM.LL). -/
def lease : Nat := 32
/-- Contexts of the device (R10). -/
def contexts : Nat := 64
/-- Copy command queue entries (R126). -/
def cpqLen : Nat := 32
/-- Bulk or looping copy commands that run at once (R126). -/
def cpRun : Nat := 4
/-- Entries of mxo per thread (R235: 64 x c with c = 64 / W when W is below 64, else 64). -/
def mxoLen : Nat := 64
/-- Entries of mxa per row (R235, R238). -/
def mxaLen : Nat := 8
/-- Entries of cps per thread (R133). -/
def cpsLen : Nat := 4
/-- Lines of one footprint unit Q per die: 14 lines x W x 48 cores (R96; 43,008 on this part). -/
def quotaLines : Nat := 43008
/-- Lines that can be locked on a die without quarantined frames: 16 x 32,768 (R96). -/
def lockLimit : Nat := 524288
/-- GEOM as this part reads it (R385). -/
def geom : W64 := 0x2010083068002040#64
/-- STEPPING as this part reads it (R385). -/
def stepping : W64 := 0x0000000077200100#64
/-- Power transition times to RUN in clk (R432): from IDLE, RETAIN, OFF. -/
def idleToRun : Nat := 2000
def retainToRun : Nat := 30000
def offToRun : Nat := 300000
/-- The default schedule performs no operation of a thread sooner than this many clk after its issue (log entry 1). -/
def scheduleDelay : Nat := 8
/-- Event ring records of the debug window (R400). -/
def ringRecords : Nat := 1920

/-- A value that the spec leaves open, numbered by the counter freeCtr of State (log entry 5). -/
opaque freeValue : Nat → W64
/-- Fused identifier DEVID (R429). -/
opaque fuseDevid : W64
/-- Fused identity key: the Ed448 public key, 57 bytes as a little-endian number (R429). -/
opaque fuseIdkey : BitVec 512
/-- Fused Ed448 vendor key (R428). -/
opaque fuseVendorKey : BitVec 456
/-- The lifecycle state that the fuses hold: true = RETIRED, false = SECURED (R429, R431). -/
opaque fuseRetired : Bool
/-- Whether a recovery image in the staging area passes the check of R428: the layout of an image is not given. -/
opaque imageGood : List Host.Cell → Bool
/-- The firmware image held on package (R428). -/
opaque firmwareImage : List Byte
/-- Whether the firmware image's signature is good under the vendor key (R428). -/
opaque firmwareGood : Bool
/-- Ed448 signature check: key, message, signature (R415, R428, R431; log entry 6). -/
opaque ed448Verify : List Byte → List Byte → List Byte → Bool
/-- Ed448 signature by the fused identity key (R429; log entry 6). -/
opaque ed448SignIdentity : List Byte → List Byte
/-- What a line reads as when it was written to the stack under one pair of AES-256-XTS keys (none: plain) and is read
under another (R430): the tweak is the line's PA[51:7]. Read under the keys it was written with, it reads as written. -/
opaque xtsMix : Option (BitVec 512) → Option (BitVec 512) → Nat → Line → Line
/-- The scope level of peer p as link training finds it, 0 when unreachable (R426, R428). -/
opaque trainedLevel : Nat → Nat
/-- Whether firmware has placed a locked line of the spill quota that it numbered `n` at device line `line` (R96: it chooses the addresses itself). -/
opaque lockedLine (n line : Nat) : Bool
/-- The set of a Vale slice in which a line stands (R93: set indexing is not architectural). -/
opaque valeSet : Nat → Nat
/-- How many ways of a set of a Vale slice lines of the spill quota that firmware numbered `n` take (R96: it chooses the addresses itself). -/
opaque lockedWays (n set : Nat) : Nat
/-- The set of an L1 in which a line stands (R10: 1,024 sets; their indexing is not architectural). -/
opaque l1Set : Nat → Nat
/-- How the error log names a line frame, given the line and the way (R99, R424). -/
opaque frameWord : Nat → Nat → W64
/-- This device's peer number (R426). -/
opaque selfPeer : Nat

end Sys2Proof.Config
end

