-- ==== Sys2Proof/Syntax.lean ====
section
/-! DEFINITION. The syntax of the CSK-7720: element types (R26), names (R65), guards (R62), operand forms, and Instr, with one
constructor for each row of the table of operations and events: 151 instruction words and 90 device and host events. -/

namespace Sys2Proof

/-- The element types of R26, in the order of their TY codes. -/
inductive ElemTy where
  | s32 | n32 | s64 | n64 | f32 | f16 | bf16 | e4m3 | e5m2 | s16 | n16 | s8 | n8 | i4s | bfp | b32
deriving DecidableEq, Repr

/-- A guard or predicate operand (R62, R198): `neg` negates predicate `p`. -/
structure Pred where
  neg : Bool
  p : Fin 8
deriving DecidableEq, Repr

/-- The guards GA and GB and the yield hint Y that every instruction word carries (R61). -/
structure Hd where
  ga : Pred
  gb : Pred
  y : Bool
deriving DecidableEq, Repr

/-- A value name v0 to v111 (R65). -/
abbrev VName := Fin 112

/-- A predicate destination (R198). -/
abbrev PName := Fin 8

/-- The special source names of R65. -/
inductive Special where
  | zero | lane | tid | rank | tsize | gang | item
deriving DecidableEq, Repr

/-- The queue names that a source field pops (R65, R68). -/
inductive PopQ where
  | mxo | cps | hof | st0 | st1
deriving DecidableEq, Repr

/-- The queue names that a destination field pushes onto (R65). -/
inductive PushQ where
  | mxa | mxc | cpc
deriving DecidableEq, Repr

/-- A source operand (R65). -/
inductive Src where
  | val (n : VName)
  | pop (q : PopQ)
  | spec (x : Special)
deriving DecidableEq, Repr

/-- A source operand or IMM16 in its place (R64). -/
inductive SrcI where
  | reg (a : Src)
  | imm (v : BitVec 16)
deriving DecidableEq, Repr

/-- A value destination (R63, R65): a name with its read count (1 to 14, or 15 sticky), a queue, or nul. -/
inductive Dst where
  | val (n : VName) (k : BitVec 4)
  | push (q : PushQ)
  | nul
deriving DecidableEq, Repr

/-- The rounding modes of R37. -/
inductive Rnd where
  | rne | rz | rup | rdn
deriving DecidableEq, Repr

/-- The integer comparisons of R208. -/
inductive ICmp where
  | eq | ne | lt | le | gt | ge
deriving DecidableEq, Repr

/-- The float comparisons of R208; the second of each pair holds for unordered operands too. -/
inductive FCmp where
  | eq | ne | lt | le | gt | ge | num | equ | neu | ltu | leu | gtu | geu | nan
deriving DecidableEq, Repr

/-- The combine of ISETP and FSETP with the SC predicate (R208). -/
inductive Combine where
  | none
  | and (p : Pred)
  | or (p : Pred)
  | xor (p : Pred)
deriving DecidableEq, Repr

/-- ISETP's second operand: register with combine, or IMM16 with a comparison and no combine (R208). -/
inductive IsetpForm where
  | reg (b : Src) (c : ICmp) (m : Combine)
  | imm (v : BitVec 16) (c : ICmp)
deriving DecidableEq, Repr

/-- LEA's second operand (R204): an index with shift and sign extension, or IMM16. -/
inductive LeaForm where
  | reg (i : Src) (sh : Fin 8) (sx : Bool)
  | imm (v : BitVec 16)
deriving DecidableEq, Repr

/-- The conversion literal of R225. -/
structure CvtLit where
  sel : Fin 4
  sat : Bool
  sty : ElemTy
deriving DecidableEq, Repr

/-- XSHF's modes (R213). -/
inductive XMode where
  | idx | up | down
deriving DecidableEq, Repr

/-- The op literal of REDX and SCANX (R212). -/
inductive RedOp where
  | add | min | max | and | or | xor
deriving DecidableEq, Repr

/-- VOTE's forms (R215). -/
inductive VoteForm where
  | all (d : PName)
  | any (d : PName)
  | uni (d : PName)
  | ballot (d : Dst) (hi : Bool)
deriving DecidableEq, Repr

/-- XCOUNT's forms (R215). -/
inductive XcountForm where
  | exec
  | below
  | pred (p : Pred)
  | predBelow (p : Pred)
deriving DecidableEq, Repr

/-- CELLQ's forms (R196). -/
inductive CellqForm where
  | state (n : VName)
  | pcl (n : VName)
  | pch (n : VName)
  | lane
deriving DecidableEq, Repr

/-- The hint of a memory access (R130, R148). -/
inductive Hint where
  | plain | stream | keep | counted
deriving DecidableEq, Repr

/-- The address operands of the MEM group (R146): base and index with the SCL bit, or base and IMM16. -/
inductive MemAddr where
  | reg (base idx : Src) (scl : Bool)
  | imm (base : Src) (v : BitVec 16)
deriving DecidableEq, Repr

/-- The operations of ATOM and ARED (R159). -/
inductive AtomOp where
  | add | min | max | and | or | xor | exch | fadd
deriving DecidableEq, Repr

/-- AWAIT's conditions (R165). -/
inductive AwaitCond where
  | eq | ne | ge | lt | any | none
deriving DecidableEq, Repr

/-- FENCE's kinds (R169). -/
inductive FenceKind where
  | acq | rel | full
deriving DecidableEq, Repr

/-- CPY's size (R136). -/
inductive CpySize where
  | b4 | b8 | b16
deriving DecidableEq, Repr

/-- The kinds of store that a core soft error can hit (R383). -/
inductive CoreStore where
  | cell | parityStore | l1Clean | l1Dirty | glen | queue
deriving DecidableEq, Repr

/-- What a peer asks of this device (R427). -/
inductive PeerAcc where
  | read | write (v : BitVec 128) | atomic (op : AtomOp) (ty : ElemTy) (v : W64) | cas (old new : W64) | decrement (n : W32)
  | bararv (n : W32) | barwt (phase limit : W32) | await (ty : ElemTy) (c : AwaitCond) (v : W64) (limit : W32)
deriving DecidableEq, Repr

/-- One constructor for each row of the table of operations and events. The first argument of an instruction word holds its
guards and Y bit. An event's arguments say where it happens. -/
inductive Instr where
  -- CTL (R308)
  | nop (h : Hd)
  | bra (h : Hd) (off : BitVec 16)
  | brx (h : Hd) (a : Src)
  | call (h : Hd) (d : VName) (k : BitVec 4) (off : BitVec 16)
  | callx (h : Hd) (d : VName) (k : BitVec 4) (a : Src)
  | ret (h : Hd) (a : Src)
  | exit (h : Hd)
  | waitf (h : Hd) (mask : BitVec 12)
  | nap (h : Hd) (n : BitVec 16)
  -- INT (R200)
  | iadd (h : Hd) (ty : ElemTy) (d : Dst) (a : Src) (b : SrcI)
  | isub (h : Hd) (ty : ElemTy) (d : Dst) (a : Src) (b : SrcI)
  | imul (h : Hd) (ty : ElemTy) (d : Dst) (a : Src) (b : SrcI)
  | imulhi (h : Hd) (ty : ElemTy) (d : Dst) (a : Src) (b : SrcI)
  | imad (h : Hd) (ty : ElemTy) (d : Dst) (a b c : Src)
  | imadw (h : Hd) (ty : ElemTy) (d : Dst) (a b c : Src)
  | iaddc (h : Hd) (ty : ElemTy) (d : Dst) (a b : Src) (cin : Pred) (cout : PName)
  | isubb (h : Hd) (ty : ElemTy) (d : Dst) (a b : Src) (bin : Pred) (bout : PName)
  | imin (h : Hd) (ty : ElemTy) (d : Dst) (a : Src) (b : SrcI)
  | imax (h : Hd) (ty : ElemTy) (d : Dst) (a : Src) (b : SrcI)
  | iabs (h : Hd) (ty : ElemTy) (d : Dst) (a : Src)
  | ineg (h : Hd) (ty : ElemTy) (d : Dst) (a : Src)
  | isad (h : Hd) (ty : ElemTy) (d : Dst) (a b c : Src)
  | idot4 (h : Hd) (sa sb : Bool) (d : Dst) (a b c : Src)
  | idot8 (h : Hd) (sa sb : Bool) (d : Dst) (a b c : Src)
  | lea (h : Hd) (d : Dst) (a : Src) (b : LeaForm)
  | iclamp (h : Hd) (ty : ElemTy) (d : Dst) (a lo hi : Src)
  -- BIT (R205)
  | and (h : Hd) (ty : ElemTy) (d : Dst) (a : Src) (b : SrcI)
  | or (h : Hd) (ty : ElemTy) (d : Dst) (a : Src) (b : SrcI)
  | xor (h : Hd) (ty : ElemTy) (d : Dst) (a : Src) (b : SrcI)
  | lop3 (h : Hd) (ty : ElemTy) (d : Dst) (a b c : Src) (lut : BitVec 8)
  | shl (h : Hd) (ty : ElemTy) (d : Dst) (a : Src) (b : SrcI)
  | shr (h : Hd) (ty : ElemTy) (d : Dst) (a : Src) (b : SrcI)
  | sar (h : Hd) (ty : ElemTy) (d : Dst) (a : Src) (b : SrcI)
  | rotl (h : Hd) (ty : ElemTy) (d : Dst) (a : Src) (b : SrcI)
  | fshf (h : Hd) (ty : ElemTy) (clamp right : Bool) (d : Dst) (hi lo amt : Src)
  | popc (h : Hd) (ty : ElemTy) (d : Dst) (a : Src)
  | clz (h : Hd) (ty : ElemTy) (d : Dst) (a : Src)
  | ctz (h : Hd) (ty : ElemTy) (d : Dst) (a : Src)
  | brev (h : Hd) (ty : ElemTy) (d : Dst) (a : Src)
  | bfx (h : Hd) (ty : ElemTy) (d : Dst) (a : Src) (pl : SrcI)
  | bfi (h : Hd) (ty : ElemTy) (d : Dst) (a pl c : Src)
  | perm (h : Hd) (d : Dst) (a b c : Src)
  -- PRD (R207)
  | isetp (h : Hd) (ty : ElemTy) (d : PName) (a : Src) (f : IsetpForm)
  | fsetp (h : Hd) (ty : ElemTy) (d : PName) (a b : Src) (c : FCmp) (m : Combine)
  | plop (h : Hd) (d : PName) (pa pb pc : Pred) (lut : BitVec 8)
  | sel (h : Hd) (ty : ElemTy) (d : Dst) (a b : Src) (p : Pred)
  | p2v (h : Hd) (d : Dst)
  | v2p (h : Hd) (a : Src) (m : SrcI)
  -- FLT (R218)
  | fadd (h : Hd) (ty : ElemTy) (r : Rnd) (d : Dst) (a : Src) (b : SrcI)
  | fsub (h : Hd) (ty : ElemTy) (r : Rnd) (d : Dst) (a : Src) (b : SrcI)
  | fmul (h : Hd) (ty : ElemTy) (r : Rnd) (d : Dst) (a : Src) (b : SrcI)
  | ffma (h : Hd) (ty : ElemTy) (r : Rnd) (d : Dst) (a b c : Src)
  | fmin (h : Hd) (ty : ElemTy) (nan : Bool) (d : Dst) (a : Src) (b : SrcI)
  | fmax (h : Hd) (ty : ElemTy) (nan : Bool) (d : Dst) (a : Src) (b : SrcI)
  | frnd (h : Hd) (ty : ElemTy) (r : Rnd) (d : Dst) (a : Src)
  | fscale (h : Hd) (ty : ElemTy) (r : Rnd) (d : Dst) (a n : Src)
  | fclass (h : Hd) (ty : ElemTy) (d : Dst) (a : Src)
  | fdot2 (h : Hd) (ty : ElemTy) (r : Rnd) (d : Dst) (a b c : Src)
  -- CVT (R224)
  | cvt (h : Hd) (ty : ElemTy) (r : Rnd) (d : Dst) (a : Src) (l : CvtLit)
  | cvtpk (h : Hd) (ty : ElemTy) (r : Rnd) (d : Dst) (a b : Src) (l : CvtLit)
  | cvt8pk (h : Hd) (ty : ElemTy) (r : Rnd) (d : Dst) (a b : Src) (c : Option Src) (l : CvtLit)
  | cvtupk (h : Hd) (ty : ElemTy) (r : Rnd) (d : Dst) (a : Src) (l : CvtLit)
  | qblk (h : Hd) (ty : ElemTy) (r : Rnd) (d : Dst) (a b c : Src) (wm : Fin 8)
  | dqblk (h : Hd) (ty : ElemTy) (r : Rnd) (d : Dst) (a b : Src) (wm : Fin 8)
  -- SFU (R230)
  | rcp (h : Hd) (d : Dst) (a : Src)
  | rsq (h : Hd) (d : Dst) (a : Src)
  | sqrt (h : Hd) (d : Dst) (a : Src)
  | exp2 (h : Hd) (d : Dst) (a : Src)
  | log2 (h : Hd) (d : Dst) (a : Src)
  | sinpi (h : Hd) (d : Dst) (a : Src)
  | cospi (h : Hd) (d : Dst) (a : Src)
  | tanh (h : Hd) (d : Dst) (a : Src)
  | rnd (h : Hd) (d : Dst)
  | rndf (h : Hd) (d : Dst)
  -- XLN (R212)
  | xshf (h : Hd) (ty : ElemTy) (m : XMode) (d : Dst) (a : Src) (b : SrcI)
  | xbfly (h : Hd) (ty : ElemTy) (d : Dst) (a : Src) (b : SrcI)
  | xbcast (h : Hd) (ty : ElemTy) (d : Dst) (a : Src) (b : SrcI)
  | redx (h : Hd) (ty : ElemTy) (d : Dst) (a : Src) (op : RedOp)
  | scanx (h : Hd) (ty : ElemTy) (d : Dst) (a : Src) (op : RedOp) (excl : Bool)
  | vote (h : Hd) (f : VoteForm) (p : Pred)
  | xmatch (h : Hd) (wide : Bool) (d : Dst) (a : Src) (hi : Bool)
  | elect (h : Hd) (d : PName)
  | xcount (h : Hd) (d : Dst) (f : XcountForm)
  -- CEL (R188)
  | mov (h : Hd) (ty : ElemTy) (d : Dst) (a : SrcI)
  | drop (h : Hd) (a : VName) (n : BitVec 4)
  | keep (h : Hd) (a : VName) (n : BitVec 4)
  | free (h : Hd) (a : VName)
  | pair (h : Hd) (ty : ElemTy) (d : Dst) (lo hi : Src)
  | split (h : Hd) (ty : ElemTy) (d : VName) (k : BitVec 4) (a : Src)
  | cellq (h : Hd) (d : Dst) (f : CellqForm)
  -- MEM (R145)
  | ld (h : Hd) (ty : ElemTy) (hint : Hint) (d : Dst) (m : MemAddr) (cnt : Fin 64)
  | st (h : Hd) (ty : ElemTy) (hint : Hint) (base idx : Src) (scl : Bool) (c : Src)
  | lds (h : Hd) (ty : ElemTy) (counted : Bool) (d : Dst) (m : MemAddr)
  | sts (h : Hd) (ty : ElemTy) (base idx : Src) (scl : Bool) (c : Src)
  | ldp (h : Hd) (ty : ElemTy) (d : Dst) (m : MemAddr)
  | ldv (h : Hd) (hint : Hint) (d : VName) (k : BitVec 4) (m : MemAddr) (cnt : Fin 64)
  | stv (h : Hd) (hint : Hint) (base idx : Src) (scl : Bool) (c : VName)
  | pfl (h : Hd) (hint : Hint) (m : MemAddr) (cnt : Option Src)
  -- ATM (R158)
  | atom (h : Hd) (ty : ElemTy) (d : Dst) (a b : Src) (op : AtomOp) (sc : Fin 8)
  | ared (h : Hd) (ty : ElemTy) (a b : Src) (op : AtomOp) (sc : Fin 8)
  | acas (h : Hd) (ty : ElemTy) (d : Dst) (a b c : Src) (sc : Fin 8)
  | await (h : Hd) (ty : ElemTy) (d : Dst) (a b lim : Src) (cond : AwaitCond) (sc : Fin 8)
  | fence (h : Hd) (k : FenceKind) (sc : Fin 8)
  | cntdec (h : Hd) (a b : Src) (sc : Fin 8)
  | bararv (h : Hd) (d : Dst) (a b : Src) (sc : Fin 8)
  | barwt (h : Hd) (d : Dst) (a b lim : Src) (sc : Fin 8)
  -- CPY (R135)
  | cpy (h : Hd) (hint : Hint) (a b : Src) (size : CpySize) (ssp dsp : Bool)
  | cpyb (h : Hd) (a b c : Src) (ctr : Option Src)
  | cploop (h : Hd) (a b c : Src) (ctr : Option Src)
  | cpstat (h : Hd) (wait : Bool) (d : Dst) (sel : SrcI)
  | gmap (h : Hd) (a b c : Src)
  | gunmap (h : Hd) (w : SrcI)
  | gflush (h : Hd) (w : SrcI)
  | ginv (h : Hd) (w : SrcI)
  | ringcfg (h : Hd) (w : SrcI)
  | ringcfgOff (h : Hd) (w : SrcI)
  | rrel (h : Hd) (w : SrcI)
  | stbind (h : Hd) (w : SrcI)
  -- MTX (R253)
  | mwld (h : Hd) (ty : ElemTy) (glen : Bool) (a : Src) (wm : Fin 8)
  | mwswap (h : Hd)
  | mloop (h : Hd) (ty : ElemTy) (a b c e : Src)
  | mloopResume (h : Hd)
  | mloopAbort (h : Hd)
  | maccld (h : Hd) (a m : Src)
  | maccst (h : Hd) (a m : Src)
  | mdrain (h : Hd) (a stride m : Src)
  | mepi (h : Hd) (w scale bias : Src)
  | mwait (h : Hd)
  | mzero (h : Hd)
  | mstat (h : Hd) (d : Dst) (sel : Fin 3)
  -- TSK (R319, R344, R364)
  | tjoin (h : Hd) (id : SrcI)
  | tleave (h : Hd) (id : SrcI)
  | tbar (h : Hd) (id : SrcI)
  | gbar (h : Hd)
  | tsubmit (h : Hd) (a : Src)
  | tdepadd (h : Hd) (d : Dst) (a b : Src)
  | tsignal (h : Hd) (a b c : Src)
  | tself (h : Hd) (d : Dst) (sel : Fin 5)
  | cvswap (h : Hd) (d : Dst) (a b : Src)
  | lstart (h : Hd) (a b : Src)
  | lesc (h : Hd) (a : Src) (s : Option VName)
  | lres (h : Hd) (a : Src)
  | lframe (h : Hd) (d : Dst) (i : Fin 32)
  | lstat (h : Hd) (d : Dst) (sel : Fin 7)
  -- SYS (R387, R395)
  | trap (h : Hd) (code : BitVec 16)
  | eret (h : Hd)
  | sysrd (h : Hd) (wide : Bool) (d : Dst) (i : SrcI)
  | syswr (h : Hd) (wide : Bool) (a : Src) (i : SrcI)
  | icinv (h : Hd) (r : Option (Src × Src))
  | ppoll (h : Hd) (d : Dst)
  | bkpt (h : Hd) (tag : BitVec 16)
  -- events: issue, binding and cells
  | clauseStart (core uid : Nat) (merge : Bool)
  | rowRendezvous (core uid : Nat)
  | groupOverdue (core uid : Nat)
  | yieldSpanEnd (core uid : Nat)
  | fixedLatencyBind (tid tok : Nat)
  | valueArrival (op : Nat)
  | allocationArbiter (core lane : Nat)
  | threadEviction (tid : Nat)
  | threadReload (tid : Nat)
  -- events: memory
  | storePerformed (op : Nat)
  | l1LineWriteBack (core line : Nat)
  | tlbMissWalk (die ctx page : Nat)
  | homeWordOperation (op : Nat)
  | awaitLimitExpiry (op : Nat)
  | valeFill (line ctx : Nat)
  | colViewFill (line ctx : Nat)
  | colWriteBackSplit (line : Nat)
  | valeCorrectableError (line : Nat)
  | valeCleanUncorrectable (line : Nat)
  | valeDirtyUncorrectable (line way : Nat)
  | stackReadUncorrectable (line ctx : Nat)
  | coreSoftError (core ctx : Nat) (store : CoreStore) (uncorrectable : Bool)
  | arrayParityError (core : Nat)
  | pageVerify (ctx page : Nat)
  -- events: copy engine and windows
  | copyCommandStart (core : Nat)
  | copyLineOp (core cmd : Nat)
  | ringFillStart (core cmd : Nat)
  | copyPerformed (op : Nat)
  | counterDecrementSend (core cmd : Nat)
  | gmapCompletion (core win : Nat)
  | windowFill (core win granule : Nat)
  | windowWriteBackDone (core win : Nat)
  -- events: matrix array
  | mtxCommandBegin (core : Nat)
  | mtxCommandComplete (core : Nat)
  | tileFetchComplete (core : Nat)
  | loopStep (core : Nat)
  | drainDelivery (core : Nat)
  | engineFailure (core : Nat)
  -- events: tasks and ladders
  | taskDispatch (task : Nat)
  | gangPlacement (task base : Nat)
  | gangRetirement (gang : Nat)
  | edgeWriteBackLine (task : Nat)
  | successorDecrement (task : Nat)
  | signalWrite (task : Nat)
  | ladderDispatch (task : Nat)
  | ladderArrival (task wr : Nat)
  | starvationLimitExpiry (task rung : Nat)
  | rungLaunchPlacement (task core : Nat)
  | resultEntryWrite (task wr : Nat)
  | watermarkWrite (task : Nat)
  | ladderWriteFailure (task wr : Nat)
  -- events: pre-emption and sampling
  | notchStop (tid : Nat)
  | contextSave (ctx : Nat)
  | notchlimExpiry (ctx : Nat)
  | sliceExpiry (ctx : Nat)
  | napExpiry (tid : Nat)
  | stallSample (ctx core : Nat)
  -- events: context commands
  | ctxCreate (ctx : Nat)
  | ctxPreempt (ctx : Nat)
  | ctxRestore (ctx : Nat)
  | ctxTerminate (ctx : Nat)
  | ctxTlbinv (ctx : Nat)
  | ctxDestroy (ctx : Nat)
  | ctxCmdLostClear (ctx : Nat)
  -- events: host, peers, windows, security, power
  | queueSubmissionWrite (ctx queue : Nat) (v : W64)
  | hostMemoryAccess (write : Bool) (pa size : Nat) (v : W64)
  | peerAccess (peer : Nat) (acc : PeerAcc) (pa size : Nat)
  | linkChange (levels : List (Nat × Nat))
  | frwEnable (n : Nat) (v : W64)
  | frwDisable (n : Nat) (v : W64)
  | frwFlush (n : Nat) (v : W64)
  | frwFlushComplete (n : Nat)
  | frwRsvClear (n : Nat) (v : W64)
  | registerWrite (off : Nat) (v : W64)
  | kmapWrite (off : Nat) (v : W64)
  | lcOpen
  | lcRetire
  | attcmdSign
  | bootcmdGo
  | perstDeassert
  | powerReqRun (die : Nat)
  | powerReqIdle (die : Nat)
  | powerReqRetain (die : Nat)
  | powerReqOff (die : Nat)
  | powerStateReached (die : Nat)
  -- events: debug
  | debugHaltall (ctx : Nat) (on : Bool)
  | debugRun (ctx core slot lane : Nat)
  | debugStep (ctx core slot lane : Nat)
  | debugWindowAccess (agent ctx off : Nat) (write : Bool) (v : W64)
  | attestationSignatureDone
deriving DecidableEq, Repr

/-- The instruction words have an encoding (R61); the events, rows of the same table, have none. -/
def Instr.isEvent : Instr → Bool
  | .nop _ | .bra _ _ | .brx _ _ | .call _ _ _ _ | .callx _ _ _ _ | .ret _ _ | .exit _ | .waitf _ _ | .nap _ _
  | .iadd _ _ _ _ _ | .isub _ _ _ _ _ | .imul _ _ _ _ _ | .imulhi _ _ _ _ _ | .imad _ _ _ _ _ _ | .imadw _ _ _ _ _ _
  | .iaddc _ _ _ _ _ _ _ | .isubb _ _ _ _ _ _ _ | .imin _ _ _ _ _ | .imax _ _ _ _ _ | .iabs _ _ _ _ | .ineg _ _ _ _
  | .isad _ _ _ _ _ _ | .idot4 _ _ _ _ _ _ _ | .idot8 _ _ _ _ _ _ _ | .lea _ _ _ _ | .iclamp _ _ _ _ _ _
  | .and _ _ _ _ _ | .or _ _ _ _ _ | .xor _ _ _ _ _ | .lop3 _ _ _ _ _ _ _ | .shl _ _ _ _ _ | .shr _ _ _ _ _
  | .sar _ _ _ _ _ | .rotl _ _ _ _ _ | .fshf _ _ _ _ _ _ _ _ | .popc _ _ _ _ | .clz _ _ _ _ | .ctz _ _ _ _
  | .brev _ _ _ _ | .bfx _ _ _ _ _ | .bfi _ _ _ _ _ _ | .perm _ _ _ _ _ | .isetp _ _ _ _ _ | .fsetp _ _ _ _ _ _ _
  | .plop _ _ _ _ _ _ | .sel _ _ _ _ _ _ | .p2v _ _ | .v2p _ _ _ | .fadd _ _ _ _ _ _ | .fsub _ _ _ _ _ _
  | .fmul _ _ _ _ _ _ | .ffma _ _ _ _ _ _ _ | .fmin _ _ _ _ _ _ | .fmax _ _ _ _ _ _ | .frnd _ _ _ _ _
  | .fscale _ _ _ _ _ _ | .fclass _ _ _ _ | .fdot2 _ _ _ _ _ _ _ | .cvt _ _ _ _ _ _ | .cvtpk _ _ _ _ _ _ _
  | .cvt8pk _ _ _ _ _ _ _ _ | .cvtupk _ _ _ _ _ _ | .qblk _ _ _ _ _ _ _ _ | .dqblk _ _ _ _ _ _ _ | .rcp _ _ _
  | .rsq _ _ _ | .sqrt _ _ _ | .exp2 _ _ _ | .log2 _ _ _ | .sinpi _ _ _ | .cospi _ _ _ | .tanh _ _ _ | .rnd _ _
  | .rndf _ _ | .xshf _ _ _ _ _ _ | .xbfly _ _ _ _ _ | .xbcast _ _ _ _ _ | .redx _ _ _ _ _ | .scanx _ _ _ _ _ _
  | .vote _ _ _ | .xmatch _ _ _ _ _ | .elect _ _ | .xcount _ _ _ | .mov _ _ _ _ | .drop _ _ _ | .keep _ _ _
  | .free _ _ | .pair _ _ _ _ _ | .split _ _ _ _ _ | .cellq _ _ _ | .ld _ _ _ _ _ _ | .st _ _ _ _ _ _ _
  | .lds _ _ _ _ _ | .sts _ _ _ _ _ _ | .ldp _ _ _ _ | .ldv _ _ _ _ _ _ | .stv _ _ _ _ _ _ | .pfl _ _ _ _
  | .atom _ _ _ _ _ _ _ | .ared _ _ _ _ _ _ | .acas _ _ _ _ _ _ _ | .await _ _ _ _ _ _ _ _ | .fence _ _ _
  | .cntdec _ _ _ _ | .bararv _ _ _ _ _ | .barwt _ _ _ _ _ _ | .cpy _ _ _ _ _ _ _ | .cpyb _ _ _ _ _
  | .cploop _ _ _ _ _ | .cpstat _ _ _ _ | .gmap _ _ _ _ | .gunmap _ _ | .gflush _ _ | .ginv _ _ | .ringcfg _ _
  | .ringcfgOff _ _ | .rrel _ _ | .stbind _ _ | .mwld _ _ _ _ _ | .mwswap _ | .mloop _ _ _ _ _ _ | .mloopResume _
  | .mloopAbort _ | .maccld _ _ _ | .maccst _ _ _ | .mdrain _ _ _ _ | .mepi _ _ _ _ | .mwait _ | .mzero _
  | .mstat _ _ _ | .tjoin _ _ | .tleave _ _ | .tbar _ _ | .gbar _ | .tsubmit _ _ | .tdepadd _ _ _ _ | .tsignal _ _ _ _
  | .tself _ _ _ | .cvswap _ _ _ _ | .lstart _ _ _ | .lesc _ _ _ | .lres _ _ | .lframe _ _ _ | .lstat _ _ _
  | .trap _ _ | .eret _ | .sysrd _ _ _ _ | .syswr _ _ _ _ | .icinv _ _ | .ppoll _ _ | .bkpt _ _ => false
  | .clauseStart _ _ _ | .rowRendezvous _ _ | .groupOverdue _ _ | .yieldSpanEnd _ _ | .fixedLatencyBind _ _
  | .valueArrival _ | .allocationArbiter _ _ | .threadEviction _ | .threadReload _ | .storePerformed _
  | .l1LineWriteBack _ _ | .tlbMissWalk _ _ _ | .homeWordOperation _ | .awaitLimitExpiry _ | .valeFill _ _
  | .colViewFill _ _ | .colWriteBackSplit _ | .valeCorrectableError _ | .valeCleanUncorrectable _
  | .valeDirtyUncorrectable _ _ | .stackReadUncorrectable _ _ | .coreSoftError _ _ _ _ | .arrayParityError _
  | .pageVerify _ _ | .copyCommandStart _ | .copyLineOp _ _ | .ringFillStart _ _ | .copyPerformed _
  | .counterDecrementSend _ _ | .gmapCompletion _ _ | .windowFill _ _ _ | .windowWriteBackDone _ _
  | .mtxCommandBegin _ | .mtxCommandComplete _ | .tileFetchComplete _ | .loopStep _ | .drainDelivery _
  | .engineFailure _ | .taskDispatch _ | .gangPlacement _ _ | .gangRetirement _ | .edgeWriteBackLine _
  | .successorDecrement _ | .signalWrite _ | .ladderDispatch _ | .ladderArrival _ _ | .starvationLimitExpiry _ _
  | .rungLaunchPlacement _ _ | .resultEntryWrite _ _ | .watermarkWrite _ | .ladderWriteFailure _ _ | .notchStop _
  | .contextSave _ | .notchlimExpiry _ | .sliceExpiry _ | .napExpiry _ | .stallSample _ _ | .ctxCreate _
  | .ctxPreempt _ | .ctxRestore _ | .ctxTerminate _ | .ctxTlbinv _ | .ctxDestroy _ | .ctxCmdLostClear _
  | .queueSubmissionWrite _ _ _ | .hostMemoryAccess _ _ _ _ | .peerAccess _ _ _ _ | .linkChange _ | .frwEnable _ _
  | .frwDisable _ _ | .frwFlush _ _ | .frwFlushComplete _ | .frwRsvClear _ _ | .registerWrite _ _ | .kmapWrite _ _
  | .lcOpen | .lcRetire | .attcmdSign | .bootcmdGo | .perstDeassert | .powerReqRun _ | .powerReqIdle _
  | .powerReqRetain _ | .powerReqOff _ | .powerStateReached _ | .debugHaltall _ _ | .debugRun _ _ _ _
  | .debugStep _ _ _ _ | .debugWindowAccess _ _ _ _ _ | .attestationSignatureDone => true

/-- One move of the device (log entry 1): an event of the table, the issue of the next word of group `uid` of core `core`, a
restored context taking its seats (R379), or one clk passing. -/
inductive Move where
  | event (e : Instr)
  | issue (core uid : Nat)
  | seat (ctx : Nat)
  /-- the loader writes NOTCHLIM of a context (R412, R417) -/
  | loadLimit (ctx : Nat) (v : W32)
  | tick
deriving DecidableEq, Repr

end Sys2Proof
end

