-- ==== Sys2Proof/WellFormed.lean ====
section
/-! DEFINITION. Which terms of Instr are instruction words of the spec: the type sets of R197, R217, R224, R230, R145, R158, R253,
the read counts of R63, the literals of R199, and the names each field admits. Every word that Decode accepts is well formed.
An event of the table has no encoding and no check. -/

namespace Sys2Proof

namespace ElemTy

/-- Type set I of R197. -/
def inI : ElemTy → Bool
  | s8 | n8 | s16 | n16 | s32 | n32 | s64 | n64 => true
  | _ => false
/-- Type set IB of R197. -/
def inIB (t : ElemTy) : Bool := t.inI || t == b32
/-- Type set B of R197. -/
def inB : ElemTy → Bool
  | b32 | s32 | n32 | s64 | n64 => true
  | _ => false
/-- Type set I32 of R197. -/
def inI32 : ElemTy → Bool
  | s32 | n32 | s64 | n64 => true
  | _ => false
/-- Type set FT of R217. -/
def inFT : ElemTy → Bool
  | f32 | f16 | bf16 => true
  | _ => false
/-- Any type but bfp. -/
def notBfp (t : ElemTy) : Bool := t != bfp
/-- The 64-bit integer types. -/
def in64 (t : ElemTy) : Bool := t == s64 || t == n64
/-- IADDC and ISUBB (R200). -/
def inN (t : ElemTy) : Bool := t == n32 || t == n64
/-- ISAD (R200). -/
def inSad : ElemTy → Bool
  | s8 | n8 | s16 | n16 | s32 | n32 => true
  | _ => false
/-- CVT destinations (R224). -/
def inCvt (t : ElemTy) : Bool := t != bfp && t != b32
/-- CVTPK and CVTUPK destinations (R224). -/
def inPk : ElemTy → Bool
  | f16 | bf16 | s16 | n16 => true
  | _ => false
/-- CVT8PK destinations (R224). -/
def inPk8 : ElemTy → Bool
  | e4m3 | e5m2 | s8 | n8 => true
  | _ => false
/-- REDX and SCANX (R212). -/
def inRed : ElemTy → Bool
  | s32 | n32 | s64 | n64 | f32 => true
  | _ => false
/-- LDP: the 1-, 2- and 4-byte types (R147). -/
def inLdp (t : ElemTy) : Bool := t != bfp && !t.in64
/-- ACAS and AWAIT (R158). -/
def inCas : ElemTy → Bool
  | s32 | n32 | s64 | n64 | b32 => true
  | _ => false
/-- Weight types (R253). -/
def inWeight : ElemTy → Bool
  | e4m3 | e5m2 | s8 | i4s | bfp | bf16 | f16 => true
  | _ => false
/-- Activation types (R239). -/
def inAct : ElemTy → Bool
  | e4m3 | e5m2 | s8 | i4s | bf16 | f16 => true
  | _ => false

/-- Bits of one element (R26); bfp counts 0 (its width is the block's). -/
def bits : ElemTy → Nat
  | s32 | n32 | f32 | b32 => 32
  | s64 | n64 => 64
  | f16 | bf16 | s16 | n16 => 16
  | e4m3 | e5m2 | s8 | n8 => 8
  | i4s => 4
  | bfp => 0

end ElemTy

/-- ATOM and ARED: the types each operation accepts (R159). -/
def AtomOp.accepts : AtomOp → ElemTy → Bool
  | .add, t | .min, t | .max, t => t.inI32
  | .and, t | .or, t | .xor, t => t.inI32 || t == .b32
  | .exch, t => t.inI32 || t == .f32 || t == .b32
  | .fadd, t => t == .f32 || t == .f16 || t == .bf16

/-- AWAIT: `.ge` and `.lt` need an ordered type (R165). -/
def AwaitCond.accepts : AwaitCond → ElemTy → Bool
  | .ge, t | .lt, t => t.inI32
  | _, t => t.inCas

/-- The op literal of REDX and SCANX against the type (R212). -/
def RedOp.accepts : RedOp → ElemTy → Bool
  | .and, t | .or, t | .xor, t => t.inI32
  | _, t => t.inRed

/-- R63: a value name carries a count of 1 to 15. -/
def Dst.wf : Dst → Bool
  | .val _ k => k != 0#4
  | _ => true

/-- A value name or nul (QBLK, BARARV, TDEPADD). -/
def Dst.valNul : Dst → Bool
  | .val _ k => k != 0#4
  | .nul => true
  | .push _ => false

/-- A value name (PAIR, CELLQ, CPSTAT, MSTAT, TSELF, CVSWAP, LFRAME, LSTAT, SYSRD, PPOLL). -/
def Dst.isVal : Dst → Bool
  | .val _ k => k != 0#4
  | _ => false

/-- A value name or a push queue (LD, LDS, LDP, ATOM, ACAS, AWAIT, BARWT). -/
def Dst.valPush : Dst → Bool
  | .val _ k => k != 0#4
  | .nul => false
  | .push _ => true

/-- The source is no queue name. -/
def Src.noQueue : Src → Bool
  | .pop _ => false
  | _ => true

def SrcI.noQueue : SrcI → Bool
  | .reg a => a.noQueue
  | .imm _ => true

/-- R64: the immediate is one that the type admits. -/
def immOk (t : ElemTy) (v : BitVec 16) : Bool :=
  match t with
  | .i4s => v.toNat < 16 && v != 8#16
  | .bfp => false
  | _ => true

def SrcI.wf (t : ElemTy) : SrcI → Bool
  | .reg _ => true
  | .imm v => immOk t v

/-- R225: the conversion literal of CVT and CVTPK. -/
def CvtLit.wfCvt (l : CvtLit) : Bool :=
  l.sty.inCvt && decide (l.sel.val < (if l.sty.bits ≥ 32 then 1 else min 4 (32 / l.sty.bits)))

/-- R225: the conversion literal of CVT8PK, with the merge source present exactly for a 32-bit STY. -/
def CvtLit.wfPk8 (l : CvtLit) (merge : Bool) : Bool :=
  match l.sty with
  | .f32 | .s32 | .n32 => decide (l.sel.val < 2) && merge
  | .f16 | .bf16 | .s16 | .n16 => l.sel == 0 && !merge
  | _ => false

/-- R225: the conversion literal of CVTUPK. -/
def CvtLit.wfUpk (l : CvtLit) : Bool :=
  match l.sty with
  | .e4m3 | .e5m2 | .s8 | .n8 => decide (l.sel.val < 2)
  | .i4s => true
  | _ => false

/-- R147: CNT only in the register form of a counted load. -/
def cntOk (hint : Hint) (m : MemAddr) (cnt : Fin 64) : Bool :=
  match m with
  | .reg _ _ _ => hint == .counted || cnt == 0
  | .imm _ _ => cnt == 0

/-- Whether the word is a control transfer (R56). -/
def Instr.isTransfer : Instr → Bool
  | .bra .. | .brx .. | .call .. | .callx .. | .ret .. | .exit .. | .eret .. | .lesc .. | .lres .. => true
  | _ => false

/-- The well-formed terms of Instr. -/
def Instr.wf : Instr → Bool
  | .nop _ | .bra _ _ | .brx _ _ | .ret _ _ | .exit _ | .waitf _ _ | .nap _ _ => true
  | .call _ d k _ | .callx _ d k _ => decide (d.val ≤ 110) && k != 0#4
  | .iadd _ ty d _ b | .isub _ ty d _ b | .imul _ ty d _ b | .imulhi _ ty d _ b | .imin _ ty d _ b | .imax _ ty d _ b =>
    ty.inI && d.wf && b.wf ty
  | .imad _ ty d _ _ _ | .iclamp _ ty d _ _ _ => ty.inI && d.wf
  | .imadw _ ty d _ _ _ => ty.in64 && d.wf
  | .iaddc _ ty d _ _ _ _ | .isubb _ ty d _ _ _ _ => ty.inN && d.wf
  | .iabs _ ty d _ | .ineg _ ty d _ => ty.inI && d.wf
  | .isad _ ty d _ _ _ => ty.inSad && d.wf
  | .idot4 _ _ _ d _ _ _ | .idot8 _ _ _ d _ _ _ => d.wf
  | .lea _ d _ _ => d.wf
  | .and _ ty d _ b | .or _ ty d _ b | .xor _ ty d _ b | .bfx _ ty d _ b => ty.inB && d.wf && b.wf ty
  | .lop3 _ ty d _ _ _ _ => ty.inB && d.wf
  | .shl _ ty d _ b | .shr _ ty d _ b | .sar _ ty d _ b | .rotl _ ty d _ b => ty.inIB && d.wf && b.wf ty
  | .fshf _ ty _ _ d _ _ _ => (ty == .b32 || ty == .n32) && d.wf
  | .popc _ ty d _ | .clz _ ty d _ | .ctz _ ty d _ | .brev _ ty d _ => ty.inB && d.wf
  | .bfi _ ty d _ _ _ => ty.inB && d.wf
  | .perm _ d _ _ _ => d.wf
  | .isetp _ ty _ _ f => ty.inI32 && (match f with
      | .reg _ _ _ => true
      | .imm _ c => c == .eq || c == .ne || c == .lt || c == .ge)
  | .fsetp _ ty _ _ _ _ _ => ty.inFT
  | .plop _ _ _ _ _ _ => true
  | .sel _ ty d _ _ _ => ty.notBfp && d.wf
  | .p2v _ d => d.wf
  | .v2p _ _ m => (match m with
      | .reg _ => true
      | .imm v => decide (v.toNat < 128))
  | .fadd _ ty _ d _ b | .fsub _ ty _ d _ b | .fmul _ ty _ d _ b | .fmin _ ty _ d _ b | .fmax _ ty _ d _ b =>
    ty.inFT && d.wf && b.wf ty
  | .ffma _ ty _ d _ _ _ => ty.inFT && d.wf
  | .frnd _ ty _ d _ | .fscale _ ty _ d _ _ => ty.inFT && d.wf
  | .fclass _ ty d _ => ty.inFT && d.wf
  | .fdot2 _ ty _ d _ _ _ => (ty == .f16 || ty == .bf16) && d.wf
  | .cvt _ ty _ d _ l => ty.inCvt && d.wf && l.wfCvt
  | .cvtpk _ ty _ d _ _ l => ty.inPk && d.wf && l.wfCvt
  | .cvt8pk _ ty _ d _ _ c l => ty.inPk8 && d.wf && l.wfPk8 c.isSome
  | .cvtupk _ ty _ d _ l => ty.inPk && d.wf && l.wfUpk
  | .qblk _ ty _ d _ _ _ wm => ty.inFT && d.valNul && wm != 0
  | .dqblk _ ty _ d _ _ wm => ty.inFT && d.wf && wm != 0
  | .rcp _ d _ | .rsq _ d _ | .sqrt _ d _ | .exp2 _ d _ | .log2 _ d _ | .sinpi _ d _ | .cospi _ d _ | .tanh _ d _ => d.wf
  | .rnd _ d | .rndf _ d => d.wf
  | .xshf _ ty _ d a b | .xbfly _ ty d a b | .xbcast _ ty d a b =>
    ty.notBfp && d.wf && a.noQueue && b.noQueue
  | .redx _ ty d a op | .scanx _ ty d a op _ => op.accepts ty && d.wf && a.noQueue
  | .vote _ f _ => (match f with
      | .ballot d _ => d.wf
      | _ => true)
  | .xmatch _ _ d a _ => d.wf && a.noQueue
  | .elect _ _ => true
  | .xcount _ d _ => d.wf
  | .mov _ ty d a => ty.notBfp && d.wf && a.wf ty
  | .drop _ _ n => decide (n.toNat ≤ 14)
  | .keep _ _ n => decide (1 ≤ n.toNat) && decide (n.toNat ≤ 14)
  | .free _ _ => true
  | .pair _ ty d _ _ => ty.in64 && d.isVal
  | .split _ ty d k _ => ty.in64 && decide (d.val ≤ 110) && k != 0#4
  | .cellq _ d _ => d.isVal
  | .ld _ ty hint d m cnt => ty.notBfp && d.valPush && cntOk hint m cnt
  | .st _ ty hint _ _ _ _ => ty.notBfp && hint != .counted
  | .lds _ ty _ d _ => ty.notBfp && d.valPush
  | .sts _ ty _ _ _ _ => ty.notBfp
  | .ldp _ ty d _ => ty.inLdp && d.valPush
  | .ldv _ hint d k m cnt => decide (d.val % 2 = 0) && k != 0#4 && cntOk hint m cnt
  | .stv _ hint _ _ _ c => hint != .counted && decide (c.val % 2 = 0)
  | .pfl _ _ m cnt => (match m with
      | .reg _ _ _ => true
      | .imm _ _ => cnt.isNone)
  | .atom _ ty d _ _ op _ => op.accepts ty && d.valPush
  | .ared _ ty _ _ op _ => op.accepts ty
  | .acas _ ty d _ _ _ _ => ty.inCas && d.valPush
  | .await _ ty d _ _ _ cond _ => ty.inCas && cond.accepts ty && d.valPush
  | .fence _ _ _ => true
  | .cntdec _ _ _ _ => true
  | .bararv _ d _ _ _ => d.valNul
  | .barwt _ d _ _ _ _ => d.valPush
  | .cpy _ _ _ _ _ _ _ => true
  | .cpyb _ _ _ _ _ | .cploop _ _ _ _ _ => true
  | .cpstat _ _ d i => d.isVal && (match i with
      | .reg _ => true
      | .imm v => v == 0#16 || (decide (0x10 ≤ v.toNat) && decide (v.toNat < 0x30)))
  | .gmap _ _ _ _ => true
  | .gunmap _ w | .gflush _ w | .ginv _ w | .rrel _ w => (match w with
      | .reg _ => true
      | .imm v => decide (v.toNat < 16))
  | .ringcfg _ _ | .ringcfgOff _ _ => true
  | .stbind _ w => (match w with
      | .reg _ => true
      | .imm v => v &&& 0x7EF0#16 == 0#16)
  | .mwld _ ty _ a wm => a.noQueue && ty.inWeight && ((ty == .bfp) == (wm != 0))
  | .mwswap _ => true
  | .mloop _ ty a b c e => ty.inAct && a.noQueue && b.noQueue && c.noQueue && e.noQueue
  | .mloopResume _ | .mloopAbort _ => true
  | .maccld _ a m | .maccst _ a m => a.noQueue && m.noQueue
  | .mdrain _ a b m | .mepi _ a b m => a.noQueue && b.noQueue && m.noQueue
  | .mwait _ | .mzero _ => true
  | .mstat _ d _ => d.isVal
  | .tjoin _ id | .tleave _ id | .tbar _ id => (match id with
      | .reg _ => true
      | .imm v => decide (v.toNat < 64))
  | .gbar _ | .tsubmit _ _ | .tsignal _ _ _ _ => true
  | .tdepadd _ d _ _ => d.valNul
  | .tself _ d _ | .cvswap _ d _ _ => d.isVal
  | .lstart _ _ _ | .lesc _ _ _ | .lres _ _ => true
  | .lframe _ d _ | .lstat _ d _ => d.isVal
  | .trap _ _ | .eret _ => true
  | .sysrd _ _ d i => d.isVal && (match i with
      | .reg _ => true
      | .imm v => decide (v.toNat ≤ 0x1B))
  | .syswr _ _ _ i => (match i with
      | .reg _ => true
      | .imm v => decide (v.toNat ≤ 0x1B))
  | .icinv _ _ => true
  | .ppoll _ d => d.isVal
  | .bkpt _ _ => true
  | _ => true

end Sys2Proof
end

