-- ==== Sys2Proof/Machine/Bits.lean ====
section
/-! DEFINITION. Packed elements (R26, R27), immediates (R64), and the results of the INT, BIT, PRD and XLN arithmetic as functions of
values: operands become integers, the result is computed exactly and narrowed at the end (R29, R201 to R209, R214). A 32-bit value
stands in the low half of a 64-bit word. -/

namespace Sys2Proof.Machine

/-- Signed integer types (R26). -/
def ElemTy.signed : ElemTy → Bool
  | .s8 | .s16 | .s32 | .s64 | .i4s => true
  | _ => false

/-- Whether a value of the type occupies two cells (R28). -/
def ElemTy.wide (t : ElemTy) : Bool := t.in64

/-- Elements in one operand: packed per cell, or one value of 32 or 64 bits (R26). -/
def ElemTy.elems (t : ElemTy) : Nat := if t.bits < 32 then 32 / t.bits else 1

/-- Element `i` of width `w` as a natural (R27). -/
def elemAt (w i : Nat) (x : W64) : Nat := (x.toNat >>> (w * i)) % 2 ^ w

/-- The integer that a w-bit pattern stands for. -/
def asInt (signed : Bool) (w v : Nat) : Int := if signed && decide (2 ^ (w - 1) ≤ v) then (v : Int) - 2 ^ w else v

/-- A result modulo 2^w (R29). -/
def wrapNat (w : Nat) (z : Int) : Nat := (z % (2 ^ w : Int)).toNat

/-- Elements packed, element 0 lowest (R27). -/
def packElems (w : Nat) (l : List Nat) : W64 :=
  BitVec.ofNat 64 (l.foldr (fun v acc => acc * 2 ^ w + v % 2 ^ w) 0)

/-- An element of type `t` as an integer. -/
def intElem (t : ElemTy) (i : Nat) (x : W64) : Int := asInt (ElemTy.signed t) t.bits (elemAt t.bits i x)

/-- The operation on every packed element (R197). -/
def map1 (t : ElemTy) (f : Int → Int) (a : W64) : W64 :=
  packElems t.bits ((List.range (ElemTy.elems t)).map (fun i => wrapNat t.bits (f (intElem t i a))))

def map2 (t : ElemTy) (f : Int → Int → Int) (a b : W64) : W64 :=
  packElems t.bits ((List.range (ElemTy.elems t)).map (fun i => wrapNat t.bits (f (intElem t i a) (intElem t i b))))

def map3 (t : ElemTy) (f : Int → Int → Int → Int) (a b c : W64) : W64 :=
  packElems t.bits ((List.range (ElemTy.elems t)).map
    (fun i => wrapNat t.bits (f (intElem t i a) (intElem t i b) (intElem t i c))))

/-- The low cell of a value, zero-extended (R172). -/
def lowCell (x : W64) : W64 := (x.extractLsb' 0 32).zeroExtend 64

def word32 (x : W64) : W32 := x.extractLsb' 0 32

/-- IMM16 read as an operand of type `t` (R64). -/
def immAs (t : ElemTy) (v : BitVec 16) : W64 :=
  match t with
  | .s8 | .s16 | .s32 => packElems t.bits (List.replicate (ElemTy.elems t) (wrapNat t.bits v.toInt))
  | .s64 => v.signExtend 64
  | .n8 | .n16 | .n32 | .b32 => packElems t.bits (List.replicate (ElemTy.elems t) (v.toNat % 2 ^ t.bits))
  | .n64 => v.zeroExtend 64
  | .f32 => (v.zeroExtend 64) <<< 16
  | .f16 | .bf16 => packElems 16 [v.toNat, v.toNat]
  | .e4m3 | .e5m2 => packElems 8 [v.toNat % 256, v.toNat / 256, v.toNat % 256, v.toNat / 256]
  | .i4s => packElems 4 (List.replicate 8 (v.toNat % 16))
  | .bfp => 0#64

/-! ## INT (R201 to R204) -/

def iadd (t : ElemTy) : W64 → W64 → W64 := map2 t (fun a b => a + b)
def isub (t : ElemTy) : W64 → W64 → W64 := map2 t (fun a b => a - b)
def imul (t : ElemTy) : W64 → W64 → W64 := map2 t (fun a b => a * b)
/-- Bits [2w-1:w] of the exact product; the division rounds toward minus infinity. -/
def imulhi (t : ElemTy) : W64 → W64 → W64 := map2 t (fun a b => (a * b) / (2 ^ t.bits : Int))
def imad (t : ElemTy) : W64 → W64 → W64 → W64 := map3 t (fun a b c => a * b + c)
def imin (t : ElemTy) : W64 → W64 → W64 := map2 t min
def imax (t : ElemTy) : W64 → W64 → W64 := map2 t max
def iabs (t : ElemTy) : W64 → W64 := map1 t (fun a => a.natAbs)
def ineg (t : ElemTy) : W64 → W64 := map1 t (fun a => 0 - a)
def iclamp (t : ElemTy) : W64 → W64 → W64 → W64 := map3 t (fun a lo hi => min (max a lo) hi)

/-- IMADW: first cells extended by TY, 64-bit accumulate (R201). -/
def imadw (t : ElemTy) (a b c : W64) : W64 :=
  let s := ElemTy.signed t
  BitVec.ofNat 64 (wrapNat 64 (asInt s 32 (elemAt 32 0 a) * asInt s 32 (elemAt 32 0 b) + c.toNat))

/-- ISAD (R201). -/
def isad (t : ElemTy) (a b c : W64) : W64 :=
  let d := (List.range (ElemTy.elems t)).foldl (fun acc i => acc + ((intElem t i a) - (intElem t i b)).natAbs) 0
  BitVec.ofNat 64 ((elemAt 32 0 c + d) % 2 ^ 32)

/-- IADDC: the sum and the carry-out (R202). -/
def iaddc (t : ElemTy) (a b : W64) (cin : Bool) : W64 × Bool :=
  let w := t.bits
  let s := elemAt w 0 a + elemAt w 0 b + cin.toNat
  (BitVec.ofNat 64 (s % 2 ^ w), decide (2 ^ w ≤ s))

/-- ISUBB: the difference and the borrow-out (R202). -/
def isubb (t : ElemTy) (a b : W64) (bin : Bool) : W64 × Bool :=
  let w := t.bits
  let d : Int := elemAt w 0 a - elemAt w 0 b - bin.toNat
  (BitVec.ofNat 64 (wrapNat w d), decide (d < 0))

/-- IDOT4 (R203). -/
def idot4 (sa sb : Bool) (a b c : W64) : W64 :=
  let s := (List.range 4).foldl (fun acc i => acc + asInt sa 8 (elemAt 8 i a) * asInt sb 8 (elemAt 8 i b)) (0 : Int)
  BitVec.ofNat 64 (wrapNat 32 (asInt true 32 (elemAt 32 0 c) + s))

/-- The value of an i4s code: 0x8 is decoded as 0 (R30). -/
def i4sVal (v : Nat) : Int := if v = 8 then 0 else asInt true 4 v

/-- A nibble of IDOT8: i4s when signed, n4 otherwise (R203). -/
def nib (s : Bool) (v : Nat) : Int := if s then i4sVal v else v

/-- IDOT8, and whether a signed nibble 0x8 was decoded (R203, R30). -/
def idot8 (sa sb : Bool) (a b c : W64) : W64 × Bool :=
  let s := (List.range 8).foldl (fun acc i => acc + nib sa (elemAt 4 i a) * nib sb (elemAt 4 i b)) (0 : Int)
  (BitVec.ofNat 64 (wrapNat 32 (asInt true 32 (elemAt 32 0 c) + s)),
   (List.range 8).any (fun i => (sa && elemAt 4 i a == 8) || (sb && elemAt 4 i b == 8)))

/-- LEA's register form (R204). -/
def lea (base idx : W64) (sh : Nat) (sx : Bool) : W64 :=
  base + ((if sx then (word32 idx).signExtend 64 else (word32 idx).zeroExtend 64) <<< sh)

/-! ## BIT (R206) -/

/-- A value kept to the width of `t`. -/
def clip (t : ElemTy) (x : W64) : W64 := if ElemTy.wide t then x else lowCell x

/-- LOP3: bit j is LUT[4a + 2b + c]. -/
def lop3 (t : ElemTy) (lut : BitVec 8) (a b c : W64) : W64 :=
  let m (i : Nat) : W64 := if lut.getLsbD i then BitVec.allOnes 64 else 0#64
  let pick (i : Nat) : W64 :=
    (if i &&& 4 != 0 then a else ~~~ a) &&& (if i &&& 2 != 0 then b else ~~~ b) &&& (if i &&& 1 != 0 then c else ~~~ c) &&& m i
  clip t (pick 0 ||| pick 1 ||| pick 2 ||| pick 3 ||| pick 4 ||| pick 5 ||| pick 6 ||| pick 7)

/-- A shift per element by the amount's element read as natural (R206). -/
def shiftMap (t : ElemTy) (f : Nat → Nat → Nat) (a s : W64) : W64 :=
  packElems t.bits ((List.range (ElemTy.elems t)).map (fun i => f (elemAt t.bits i a) (elemAt t.bits i s)))

/-- The amounts are capped at the width so that the powers stay small. -/
def shl (t : ElemTy) : W64 → W64 → W64 := shiftMap t (fun v s => v * 2 ^ min s t.bits)
def shr (t : ElemTy) : W64 → W64 → W64 := shiftMap t (fun v s => v / 2 ^ min s t.bits)
/-- SAR (R206): arithmetic, but for the natural types, in which it is SHR. -/
def sar (t : ElemTy) : W64 → W64 → W64 :=
  shiftMap t (fun v s => wrapNat t.bits (asInt (t == .b32 || ElemTy.signed t) t.bits v / (2 ^ min s t.bits : Int)))
def rotl (t : ElemTy) : W64 → W64 → W64 :=
  shiftMap t (fun v s => v * 2 ^ (s % t.bits) + v / 2 ^ (t.bits - s % t.bits))

/-- FSHF: a funnel shift of hi:lo (R206). -/
def fshf (cl right : Bool) (hi lo amt : W64) : W64 :=
  let t := elemAt 32 0 hi * 2 ^ 32 + elemAt 32 0 lo
  let n := elemAt 32 0 amt
  let s := if cl then min n 32 else n % 32
  BitVec.ofNat 64 (if right then (t / 2 ^ s) % 2 ^ 32 else (t * 2 ^ s / 2 ^ 32) % 2 ^ 32)

/-- The bits of a value of width `w`, lowest first. -/
def bitsOf (w : Nat) (x : W64) : List Bool := (List.range w).map (fun i => x.getLsbD i)

def popc (t : ElemTy) (a : W64) : W64 := BitVec.ofNat 64 ((bitsOf t.bits a).filter (fun b => b)).length
def ctz (t : ElemTy) (a : W64) : W64 := BitVec.ofNat 64 ((bitsOf t.bits a).takeWhile (fun b => !b)).length
def clz (t : ElemTy) (a : W64) : W64 := BitVec.ofNat 64 ((bitsOf t.bits a).reverse.takeWhile (fun b => !b)).length

/-- The number whose bits are given, lowest first. -/
def ofBits (l : List Bool) : W64 := BitVec.ofNat 64 (l.foldr (fun b acc => 2 * acc + b.toNat) 0)

def brev (t : ElemTy) (a : W64) : W64 := ofBits (bitsOf t.bits a).reverse

/-- BFX (R206): beyond `len` the result repeats its last extracted bit for a signed type. -/
def bfx (t : ElemTy) (a pl : W64) : W64 :=
  let w := t.bits
  let pos := elemAt 8 0 pl
  let len := elemAt 8 1 pl
  let sg := ElemTy.signed t
  let abit (k : Nat) : Bool := if k < w then a.getLsbD k else sg && a.getLsbD (w - 1)
  ofBits ((List.range w).map (fun j =>
    if j < len then abit (pos + j) else sg && decide (0 < len) && abit (pos + len - 1)))

/-- BFI (R206). -/
def bfi (t : ElemTy) (a pl c : W64) : W64 :=
  let pos := elemAt 8 0 pl
  let len := elemAt 8 1 pl
  ofBits ((List.range t.bits).map (fun j =>
    if decide (pos ≤ j) && decide (j < pos + len) then c.getLsbD (j - pos) else a.getLsbD j))

/-- PERM (R206). -/
def perm (a b c : W64) : W64 :=
  let byteOf (k : Nat) : Nat := if k < 4 then elemAt 8 k a else elemAt 8 (k - 4) b
  packElems 8 ((List.range 4).map (fun i =>
    let q := elemAt 4 i c
    let v := byteOf (q % 8)
    if 8 ≤ q then (if 128 ≤ v then 255 else 0) else v))

/-! ## PRD (R208, R209) -/

/-- ISETP's comparison. -/
def icompare (t : ElemTy) (c : ICmp) (a b : W64) : Bool :=
  let x := intElem t 0 a
  let y := intElem t 0 b
  match c with
  | .eq => decide (x = y) | .ne => decide (x ≠ y) | .lt => decide (x < y)
  | .le => decide (x ≤ y) | .gt => decide (x > y) | .ge => decide (x ≥ y)

def plop (lut : BitVec 8) (p q r : Bool) : Bool := lut.getLsbD (4 * p.toNat + 2 * q.toNat + r.toNat)

/-! ## Integer reductions (R214, R50) -/

def redInt (t : ElemTy) (op : RedOp) (a b : W64) : W64 :=
  match op with
  | .add => iadd t a b
  | .min => imin t a b
  | .max => imax t a b
  | .and => a &&& b
  | .or => a ||| b
  | .xor => a ^^^ b

/-- The identity of an integer reduction (R214). -/
def redIntId (t : ElemTy) (op : RedOp) : W64 :=
  let w := t.bits
  let sg := ElemTy.signed t
  match op with
  | .add | .or | .xor => 0#64
  | .min => BitVec.ofNat 64 (if sg then 2 ^ (w - 1) - 1 else 2 ^ w - 1)
  | .max => BitVec.ofNat 64 (if sg then 2 ^ (w - 1) else 0)
  | .and => BitVec.ofNat 64 (2 ^ w - 1)

/-- REDX over the W positions: log steps with offsets W/2 to 1 (R50). -/
def redSteps (op : W64 → W64 → W64) : List Nat → List W64 → List W64
  | [], x => x
  | d :: ds, x =>
    redSteps op ds ((List.range x.length).map (fun i =>
      op (x.getD (min i (i ^^^ d)) 0#64) (x.getD (max i (i ^^^ d)) 0#64)))

/-- SCANX: the inclusive scan with offsets 1 to W/2 (R50). -/
def scanSteps (op : W64 → W64 → W64) : List Nat → List W64 → List W64
  | [], x => x
  | d :: ds, x =>
    scanSteps op ds ((List.range x.length).map (fun i =>
      if i < d then x.getD i 0#64 else op (x.getD (i - d) 0#64) (x.getD i 0#64)))

/-- The offsets 1, 2, 4 … below W. -/
def offsets : List Nat := (List.range 7).map (fun k => 2 ^ k) |>.filter (fun d => decide (d < Config.W))

end Sys2Proof.Machine
end

