-- ==== Sys2Proof/Machine/Floats.lean ====
section
/-! DEFINITION. The float formats of R32 to R36 and block floating point (R41 to R43): decoding to exact values, rounding (R37 to
R40), and the arithmetic, comparison and conversion functions of R219 to R227, R248 and R46 to R50. Every operation is computed
exactly and rounded once. -/

namespace Sys2Proof.Machine

/-- A float format: fraction bits, the exponent of its smallest quantum (R34), the pattern of its largest finite magnitude, its canonical
NaN, and whether it has infinities. -/
structure Fmt where
  frac : Nat
  qmin : Int
  width : Nat
  maxFin : Nat
  nan : Nat
  hasInf : Bool
deriving DecidableEq, Repr

def Fmt.f32 : Fmt := { frac := 23, qmin := -149, width := 32, maxFin := 0x7F7FFFFF, nan := 0x7FC00000, hasInf := true }
def Fmt.f16 : Fmt := { frac := 10, qmin := -24, width := 16, maxFin := 0x7BFF, nan := 0x7E00, hasInf := true }
def Fmt.bf16 : Fmt := { frac := 7, qmin := -133, width := 16, maxFin := 0x7F7F, nan := 0x7FC0, hasInf := true }
def Fmt.e4m3 : Fmt := { frac := 3, qmin := -9, width := 8, maxFin := 0x7E, nan := 0x7F, hasInf := false }
def Fmt.e5m2 : Fmt := { frac := 2, qmin := -16, width := 8, maxFin := 0x7B, nan := 0x7E, hasInf := true }

/-- The format of a float type (R26). -/
def fmtOf : ElemTy → Option Fmt
  | .f32 => some .f32
  | .f16 => some .f16
  | .bf16 => some .bf16
  | .e4m3 => some .e4m3
  | .e5m2 => some .e5m2
  | _ => none

/-- A decoded value: NaN, an infinity, or ± m × 2^e (a zero keeps its sign). -/
inductive FVal where
  | nan
  | inf (neg : Bool)
  | fin (neg : Bool) (m : Nat) (e : Int)
deriving DecidableEq, Repr

namespace Fmt

/-- The value of a pattern (R34 to R36). -/
def decode (f : Fmt) (x : Nat) : FVal :=
  let neg := x.testBit (f.width - 1)
  let a := x % 2 ^ (f.width - 1)
  if a ≤ f.maxFin then
    let ex := a / 2 ^ f.frac
    let fr := a % 2 ^ f.frac
    if ex = 0 then .fin neg fr f.qmin else .fin neg (2 ^ f.frac + fr) (f.qmin + ex - 1)
  else if f.hasInf && a == f.maxFin + 1 then .inf neg
  else .nan

/-- A magnitude with its sign bit. -/
def signed (f : Fmt) (neg : Bool) (a : Nat) : Nat := if neg then 2 ^ (f.width - 1) + a else a

/-- The infinite result of R38: ±∞, NaN in e4m3, or the largest finite with `.sat`. -/
def infinity (f : Fmt) (sat neg : Bool) : Nat :=
  if sat then f.signed neg f.maxFin
  else if f.hasInf then f.signed neg (f.maxFin + 1)
  else f.nan

/-- Whether an overflow in the mode is infinite (R38). -/
def overInf (r : Rnd) (neg : Bool) : Bool :=
  match r with
  | .rne => true
  | .rz => false
  | .rup => !neg
  | .rdn => neg

/-- A quotient n / 2^k rounded to an integer in the mode, for a magnitude of the given sign (R37). -/
def roundShift (r : Rnd) (neg : Bool) (n k : Nat) : Nat :=
  let q := n / 2 ^ k
  let rem := n % 2 ^ k
  let half := 2 ^ k / 2
  let up : Bool := match r with
    | .rne => decide (rem > half) || (decide (rem = half) && decide (0 < rem) && q % 2 == 1)
    | .rz => false
    | .rup => decide (0 < rem) && !neg
    | .rdn => decide (0 < rem) && neg
  if up then q + 1 else q

/-- ± m × 2^e rounded once into the format (R37 to R40). -/
def round (f : Fmt) (r : Rnd) (sat neg : Bool) (m : Nat) (e : Int) : Nat :=
  if m = 0 then f.signed neg 0
  else
    let len : Nat := Nat.log2 m + 1
    let q : Int := max (e + len - (f.frac + 1 : Int)) f.qmin
    let n := if q ≤ e then m * 2 ^ (e - q).toNat else roundShift r neg m (q - e).toNat
    let a : Nat := if n < 2 ^ f.frac then n else ((q - f.qmin + 1) * (2 ^ f.frac : Int) + n - (2 ^ f.frac : Int)).toNat
    if a ≤ f.maxFin then f.signed neg a
    else if overInf r neg then f.infinity sat neg
    else f.signed neg f.maxFin

/-- A value encoded in the format: NaN canonical (R33), infinities by R38, finite values rounded once. -/
def encode (f : Fmt) (r : Rnd) (sat : Bool) : FVal → Nat
  | .nan => f.nan
  | .inf neg => f.infinity sat neg
  | .fin neg m e => f.round r sat neg m e

end Fmt

namespace FVal

def neg : FVal → FVal
  | nan => nan
  | inf s => inf (!s)
  | fin s m e => fin (!s) m e

def isNan : FVal → Bool
  | nan => true
  | _ => false

def isInf : FVal → Bool
  | inf _ => true
  | _ => false

def isNeg : FVal → Bool
  | inf s => s
  | fin s _ _ => s
  | nan => false

def isZero : FVal → Bool
  | fin _ 0 _ => true
  | _ => false

/-- The signed mantissa over a common exponent. -/
def atExp (e : Int) : FVal → Int
  | fin s m e' => (if s then -1 else 1) * (m : Int) * 2 ^ (e' - e).toNat
  | _ => 0

def exp : FVal → Int
  | fin _ _ e => e
  | _ => 0

/-- A signed integer over an exponent; an exact zero takes the given sign. -/
def ofInt (zeroNeg : Bool) (z : Int) (e : Int) : FVal :=
  if z = 0 then fin zeroNeg 0 e else fin (decide (z < 0)) z.natAbs e

/-- The exact sum (R219); an exactly zero sum takes its sign from R39. -/
def add (r : Rnd) : FVal → FVal → FVal
  | nan, _ | _, nan => nan
  | inf a, inf b => if a == b then inf a else nan
  | inf a, _ => inf a
  | _, inf b => inf b
  | fin a ma ea, fin b mb eb =>
    let e := min ea eb
    let zn := if a == b then a else r == .rdn
    ofInt zn (atExp e (fin a ma ea) + atExp e (fin b mb eb)) e

/-- The exact product (R219). -/
def mul : FVal → FVal → FVal
  | nan, _ | _, nan => nan
  | inf a, inf b => inf (a != b)
  | inf a, fin b m _ => if m = 0 then nan else inf (a != b)
  | fin a m _, inf b => if m = 0 then nan else inf (a != b)
  | fin a ma ea, fin b mb eb => fin (a != b) (ma * mb) (ea + eb)

/-- The exact a × b + c (R219, R48). -/
def fma (r : Rnd) (a b c : FVal) : FVal := add r (mul a b) c

/-- Comparison as real numbers of two values that are not NaN. -/
def lt : FVal → FVal → Bool
  | inf a, inf b => a && !b
  | inf a, _ => a
  | _, inf b => !b
  | x, y => let e := min x.exp y.exp
            decide (atExp e x < atExp e y)

def eq (x y : FVal) : Bool := !lt x y && !lt y x

end FVal

/-- A packed float operation on every element (R32). -/
def fmap (t : ElemTy) (g : Fmt → List Nat → Nat) (l : List W64) : W64 :=
  match fmtOf t with
  | some f => packElems f.width ((List.range (32 / f.width)).map (fun i => g f (l.map (elemAt f.width i))))
  | none => 0#64

def fbin (t : ElemTy) (r : Rnd) (op : FVal → FVal → FVal) (a b : W64) : W64 :=
  fmap t (fun f l => f.encode r false (op (f.decode (l.getD 0 0)) (f.decode (l.getD 1 0)))) [a, b]

def fadd (t : ElemTy) (r : Rnd) : W64 → W64 → W64 := fbin t r (FVal.add r)
def fsub (t : ElemTy) (r : Rnd) : W64 → W64 → W64 := fbin t r (fun x y => FVal.add r x y.neg)
def fmul (t : ElemTy) (r : Rnd) : W64 → W64 → W64 := fbin t r FVal.mul
def ffma (t : ElemTy) (r : Rnd) (a b c : W64) : W64 :=
  fmap t (fun f l => f.encode r false
    (FVal.fma r (f.decode (l.getD 0 0)) (f.decode (l.getD 1 0)) (f.decode (l.getD 2 0)))) [a, b, c]

/-- Whether the pattern `x` orders below `y` with −0 below +0 (R220). -/
def below (f : Fmt) (x y : Nat) : Bool :=
  let a := f.decode x
  let b := f.decode y
  FVal.lt a b || (FVal.eq a b && a.isNeg && !b.isNeg)

/-- FMIN and FMAX on one element (R220): `nanForm` is HN = 01. -/
def fminmax (mx nanForm : Bool) (f : Fmt) (x y : Nat) : Nat :=
  let xn := (f.decode x).isNan
  let yn := (f.decode y).isNan
  if xn && yn then f.nan
  else if xn then (if nanForm then f.nan else y)
  else if yn then (if nanForm then f.nan else x)
  else if (if mx then below f x y else below f y x) then y else x

def fmin (t : ElemTy) (n : Bool) (a b : W64) : W64 := fmap t (fun f l => fminmax false n f (l.getD 0 0) (l.getD 1 0)) [a, b]
def fmax (t : ElemTy) (n : Bool) (a b : W64) : W64 := fmap t (fun f l => fminmax true n f (l.getD 0 0) (l.getD 1 0)) [a, b]

/-- The magnitude m × 2^e rounded to an integer in the mode (R221, R226). -/
def roundInt (r : Rnd) (neg : Bool) (m : Nat) (e : Int) : Nat :=
  if 0 ≤ e then m * 2 ^ e.toNat else Fmt.roundShift r neg m (-e).toNat

/-- FRND on one element (R221). -/
def frndElem (f : Fmt) (r : Rnd) (x : Nat) : Nat :=
  match f.decode x with
  | .nan => f.nan
  | .inf _ => x
  | .fin neg m e => if m = 0 then x else f.round r false neg (roundInt r neg m e) 0

def frnd (t : ElemTy) (r : Rnd) (a : W64) : W64 := fmap t (fun f l => frndElem f r (l.getD 0 0)) [a]

/-- FSCALE on one element (R221); a scale beyond ±600 acts as ±600, past every format's range. -/
def fscaleElem (f : Fmt) (r : Rnd) (n : Int) (x : Nat) : Nat :=
  match f.decode x with
  | .nan => f.nan
  | .inf _ => x
  | .fin neg m e => if m = 0 then x else f.round r false neg m (e + max (-600) (min 600 n))

def fscale (t : ElemTy) (r : Rnd) (a n : W64) : W64 :=
  fmap t (fun f l => fscaleElem f r (word32 n).toInt (l.getD 0 0)) [a]

/-- FCLASS's bit for one element (R222). -/
def fclassElem (f : Fmt) (x : Nat) : Nat :=
  match f.decode x with
  | .nan => if x.testBit (f.frac - 1) then 2 ^ 9 else 2 ^ 8
  | .inf neg => if neg then 2 ^ 0 else 2 ^ 7
  | .fin neg m _ =>
    if m = 0 then (if neg then 2 ^ 3 else 2 ^ 4)
    else if m < 2 ^ f.frac then (if neg then 2 ^ 2 else 2 ^ 5)
    else (if neg then 2 ^ 1 else 2 ^ 6)

def fclass (t : ElemTy) (a : W64) : W64 :=
  match fmtOf t with
  | some f => if f.width = 32 then BitVec.ofNat 64 (fclassElem f (elemAt 32 0 a))
              else BitVec.ofNat 64 (fclassElem f (elemAt 16 0 a) + 2 ^ 16 * fclassElem f (elemAt 16 1 a))
  | none => 0#64

/-- The exact sum of a list of values with no sign rule for zero: NaN, infinities, else a signed integer over the least exponent (R47, R223). -/
def sumExact (l : List FVal) : FVal :=
  if l.any FVal.isNan || (l.any (fun v => v.isInf && v.isNeg) && l.any (fun v => v.isInf && !v.isNeg)) then .nan
  else if l.any (fun v => v.isInf) then .inf (l.any (fun v => v.isInf && v.isNeg))
  else
    let e := l.foldl (fun acc v => min acc v.exp) 0
    FVal.ofInt false (l.foldl (fun acc v => acc + FVal.atExp e v) 0) e

/-- FDOT2 (R223). -/
def fdot2 (t : ElemTy) (r : Rnd) (a b c : W64) : W64 :=
  match fmtOf t with
  | none => 0#64
  | some f =>
    let p (i : Nat) := FVal.mul (f.decode (elemAt 16 i a)) (f.decode (elemAt 16 i b))
    let terms := [p 0, p 1, Fmt.f32.decode (elemAt 32 0 c)]
    let s := sumExact terms
    let s := if s.isZero then
        FVal.fin (if terms.all FVal.isZero && terms.all FVal.isNeg then true
                  else if terms.all FVal.isZero && terms.all (fun v => !v.isNeg) then false
                  else r == .rdn) 0 0
      else s
    BitVec.ofNat 64 (Fmt.f32.encode r false s)

/-- FSETP's comparison of element 0 (R208). -/
def fcompare (t : ElemTy) (c : FCmp) (a b : W64) : Bool :=
  match fmtOf t with
  | none => false
  | some f =>
    let x := f.decode (elemAt f.width 0 a)
    let y := f.decode (elemAt f.width 0 b)
    let un := x.isNan || y.isNan
    let lt := !un && FVal.lt x y
    let gt := !un && FVal.lt y x
    let eq := !un && FVal.eq x y
    match c with
    | .eq => eq | .ne => !un && !eq | .lt => lt | .le => lt || eq | .gt => gt | .ge => gt || eq
    | .num => !un | .nan => un
    | .equ => un || eq | .neu => un || !eq | .ltu => un || lt | .leu => un || lt || eq
    | .gtu => un || gt | .geu => un || gt || eq

/-! ## Conversions (R226, R227) -/

/-- A source element as an exact value; an i4s code 0x8 is 0 and marks the conversion (R30). -/
def cvtDecode (sty : ElemTy) (x : Nat) : FVal × Bool :=
  match fmtOf sty with
  | some f => (f.decode x, false)
  | none =>
    if sty == .i4s then (FVal.ofInt false (i4sVal x) 0, x == 8)
    else (FVal.ofInt false (asInt (ElemTy.signed sty) sty.bits x) 0, false)

/-- The range of an integer destination; i4s is −7 to 7 (R30). -/
def intRange (t : ElemTy) : Int × Int :=
  if t == .i4s then (-7, 7)
  else if ElemTy.signed t then (-(2 ^ (t.bits - 1) : Int), 2 ^ (t.bits - 1) - 1)
  else (0, 2 ^ t.bits - 1)

/-- A value converted to the destination type (R226). With .sat an infinity gives the largest finite value (R38), on a pair that is always exact as well (DESIGN CHOICE, log
entry 69). -/
def cvtEncode (t : ElemTy) (r : Rnd) (sat : Bool) (v : FVal) : Nat :=
  match fmtOf t with
  | some f => f.encode r sat v
  | none =>
    let (lo, hi) := intRange t
    let cl := sat || t == .i4s
    match v with
    | .nan => 0
    | .inf neg => if cl then wrapNat t.bits (if neg then lo else hi) else 0
    | .fin neg m e =>
      let n := roundInt r neg m e
      let z : Int := if neg then -(n : Int) else n
      wrapNat t.bits (if cl then max lo (min hi z) else z)

/-- R226: a conversion that is exact on every value: between one type, to f32 from a narrower float type, to f16 or bf16 from an 8-bit one. It ignores `.sat`, so that it
keeps an infinity (DEDUCED, log entry 69). -/
def cvtExact (sty t : ElemTy) : Bool :=
  sty == t || (match t, sty with
    | .f32, .e4m3 | .f32, .e5m2 | .f32, .f16 | .f32, .bf16 | .f16, .e4m3 | .f16, .e5m2 | .bf16, .e4m3 | .bf16, .e5m2 => true
    | _, _ => false)

/-- One element converted, with the mark of R30. -/
def cvtElem (t sty : ElemTy) (r : Rnd) (sat : Bool) (x : Nat) : Nat × Bool :=
  let (v, m) := cvtDecode sty x
  (cvtEncode t r (sat && !cvtExact sty t) v, m)

/-- CVT: source element SEL into element 0 (R227). -/
def cvt (t : ElemTy) (r : Rnd) (l : CvtLit) (a : W64) : W64 × Bool :=
  let (v, m) := cvtElem t l.sty r l.sat (elemAt l.sty.bits l.sel.val a)
  (BitVec.ofNat 64 v, m)

def cvtpk (t : ElemTy) (r : Rnd) (l : CvtLit) (a b : W64) : W64 × Bool :=
  let (u, m) := cvtElem t l.sty r l.sat (elemAt l.sty.bits l.sel.val a)
  let (v, n) := cvtElem t l.sty r l.sat (elemAt l.sty.bits l.sel.val b)
  (packElems t.bits [u, v], m || n)

/-- CVT8PK: a 16-bit STY packs four; a 32-bit STY packs two beside two of SC (R227). -/
def cvt8pk (t : ElemTy) (r : Rnd) (l : CvtLit) (a b c : W64) : W64 :=
  let g (x : Nat) := (cvtElem t l.sty r l.sat x).1
  if l.sty.bits = 16 then
    packElems 8 [g (elemAt 16 0 a), g (elemAt 16 1 a), g (elemAt 16 0 b), g (elemAt 16 1 b)]
  else if l.sel.val = 0 then
    packElems 8 [g (elemAt 32 0 a), g (elemAt 32 0 b), elemAt 8 2 c, elemAt 8 3 c]
  else packElems 8 [elemAt 8 0 c, elemAt 8 1 c, g (elemAt 32 0 a), g (elemAt 32 0 b)]

def cvtupk (t : ElemTy) (r : Rnd) (l : CvtLit) (a : W64) : W64 × Bool :=
  let (u, m) := cvtElem t l.sty r l.sat (elemAt l.sty.bits (2 * l.sel.val) a)
  let (v, n) := cvtElem t l.sty r l.sat (elemAt l.sty.bits (2 * l.sel.val + 1) a)
  (packElems t.bits [u, v], m || n)

/-! ## Block floating point (R41 to R43, R228) -/

/-- The effective scale of a finite block: (256 + M) × 2^(E − 135 − (w − 1)) (R41). -/
def bfpScale (scale w : Nat) : FVal := .fin false (256 + scale % 256) ((scale / 256 : Nat) - 135 - (w - 1 : Int))

/-- The scale of a block as it enters a product: NaN block, zero block or finite (R42). -/
inductive BlockKind where
  | nan | zero
  | fin (s : FVal)
deriving DecidableEq, Repr

def blockKind (scale w : Nat) : BlockKind :=
  if scale / 256 = 255 then .nan else if scale = 0 then .zero else .fin (bfpScale scale w)

/-- One element of a block (R41, R42). -/
def bfpElem (scale w m : Nat) : FVal :=
  match blockKind scale w with
  | .nan => .nan
  | .zero => .fin false 0 0
  | .fin s => FVal.mul (FVal.ofInt false (asInt true w m) 0) s

/-- m × 2^e ≤ n × 2^f. -/
def leDy (m : Nat) (e : Int) (n : Nat) (f : Int) : Bool :=
  let g := min e f
  decide (m * 2 ^ (e - g).toNat ≤ n * 2 ^ (f - g).toNat)

/-- Whether scale pattern `s` has P × scale ≥ the magnitude (R228). -/
def scaleCovers (w m : Nat) (e : Int) (s : Nat) : Bool :=
  match bfpScale s w with
  | .fin _ k x => leDy m e ((2 ^ (w - 1) - 1) * k) x
  | _ => false

/-- The least pattern in [lo, hi] that covers, by halving the interval `fuel` times; the effective scale rises with the pattern (R228). -/
def leastScale (w m : Nat) (e : Int) : Nat → Nat → Nat → Nat
  | 0, lo, _ => lo
  | fuel + 1, lo, hi =>
    if lo ≥ hi then lo
    else
      let mid := (lo + hi) / 2
      if scaleCovers w m e mid then leastScale w m e fuel lo mid else leastScale w m e fuel (mid + 1) hi

/-- x / s rounded to an integer magnitude in the mode, for a nonzero finite scale (R228). -/
def divRound (r : Rnd) (neg : Bool) (m : Nat) (e : Int) (n : Nat) (f : Int) : Nat :=
  let g := min e f
  let a := m * 2 ^ (e - g).toNat
  let b := n * 2 ^ (f - g).toNat
  let q := a / b
  let rem := a % b
  let up : Bool := match r with
    | .rne => decide (2 * rem > b) || (decide (2 * rem = b) && q % 2 == 1)
    | .rz => false
    | .rup => decide (0 < rem) && !neg
    | .rdn => decide (0 < rem) && neg
  if up then q + 1 else q

/-- QBLK's block: the scale and the 32 mantissas as w-bit patterns (R228). -/
def qblock (w : Nat) (r : Rnd) (xs : List FVal) : Nat × List Nat :=
  if xs.any (fun v => v.isNan || v.isInf) then (0xFF00, List.replicate 32 0)
  else if xs.all FVal.isZero then (0, List.replicate 32 0)
  else
    let mx := xs.foldl (fun acc v => match acc, v with
      | FVal.fin _ m e, FVal.fin _ n f => if leDy m e n f then FVal.fin false n f else acc
      | _, _ => acc) (FVal.fin false 0 0)
    match mx with
    | .fin _ am ae =>
      let scale := leastScale w am ae 17 1 0xFEFF
      match bfpScale scale w with
      | .fin _ k x =>
        (scale, xs.map (fun v => match v with
          | .fin neg m e =>
            let p := 2 ^ (w - 1) - 1
            let q := min p (divRound r neg m e k x)
            wrapNat w (if neg then -(q : Int) else q)
          | _ => 0))
      | _ => (scale, [])
    | _ => (0, [])

/-- Blocks per line of width w (R44). -/
def blocksPerLine (w : Nat) : Nat := 1024 / (32 * w)

end Sys2Proof.Machine
end

