-- ==== Sys2Proof/Machine/Memory.lean ====
section
/-! DEFINITION. Byte stores as sorted lists of (address, byte) with no zero entry: an unlisted address reads 0 (log entry 3), and writing 0
removes the entry, so that equal stores are equal lists. Lines of 128 bytes and their masks. -/

namespace Sys2Proof.Machine

namespace Memory

/-- What an unlisted address reads as (log entry 3). -/
def unlisted : Byte := 0#8

/-- The byte at an address. -/
def read : List Host.Cell → Nat → Byte
  | [], _ => unlisted
  | (k, b) :: rest, a => if k = a then b else if a < k then unlisted else read rest a

/-- Writes a byte, keeping the list sorted and without zero entries. -/
def write : List Host.Cell → Nat → Byte → List Host.Cell
  | [], a, v => if v = unlisted then [] else [(a, v)]
  | (k, b) :: rest, a, v =>
    if a = k then (if v = unlisted then rest else (a, v) :: rest)
    else if a < k then (if v = unlisted then (k, b) :: rest else (a, v) :: (k, b) :: rest)
    else (k, b) :: write rest a v

/-- Every address is above `lo`, the addresses rise, and no byte is the unlisted one. -/
def above : Nat → List Host.Cell → Bool
  | _, [] => true
  | lo, (k, b) :: rest => decide (lo ≤ k) && (b != unlisted) && above (k + 1) rest

/-- The canonical form. -/
def wf (m : List Host.Cell) : Bool := above 0 m

/-- `n` bytes from `a`, lowest address first. -/
def readN (m : List Host.Cell) (a : Nat) : Nat → List Byte
  | 0 => []
  | n + 1 => read m a :: readN m (a + 1) n

/-- Writes bytes from `a` upward. -/
def writeN (m : List Host.Cell) (a : Nat) : List Byte → List Host.Cell
  | [] => m
  | b :: bs => writeN (write m a b) (a + 1) bs

/-- Drops every entry in [a, a + n). -/
def clear (m : List Host.Cell) (a n : Nat) : List Host.Cell := m.filter (fun c => decide (c.1 < a) || decide (a + n ≤ c.1))

/-- The entries in [a, a + n). -/
def slice (m : List Host.Cell) (a n : Nat) : List Host.Cell := m.filter (fun c => decide (a ≤ c.1) && decide (c.1 < a + n))

end Memory

/-- The little-endian number of a list of bytes (R3). -/
def leNat (l : List Byte) : Nat := l.foldr (fun b acc => acc * 256 + b.toNat) 0

/-- `n` little-endian bytes of a number (R3). -/
def leBytes (v n : Nat) : List Byte := (List.range n).map (fun i => BitVec.ofNat 8 (v / 256 ^ i))

namespace LineOps

/-- The bytes [off, off + n) of a line as a number. -/
def get (l : Line) (off n : Nat) : Nat := (l.toNat / 2 ^ (8 * off)) % 2 ^ (8 * n)

/-- The mask of the bytes [off, off + n). -/
def mask (off n : Nat) : LineMask := BitVec.ofNat 128 ((2 ^ n - 1) * 2 ^ off)

/-- The bits of the bytes that a mask selects. -/
def spread (m : LineMask) : Line :=
  BitVec.ofNat 1024 ((List.range 128).foldr (fun i acc => acc * 256 + (if m.getLsbD i then 255 else 0)) 0)

/-- `new` where the mask is set, `old` elsewhere (R151). -/
def merge (m : LineMask) (old new : Line) : Line := (new &&& spread m) ||| (old &&& ~~~ (spread m))

/-- Replaces the bytes [off, off + n) by a number. -/
def set (l : Line) (off n v : Nat) : Line :=
  let w : Line := BitVec.ofNat 1024 ((2 ^ (8 * n) - 1) * 2 ^ (8 * off))
  (l &&& ~~~ w) ||| (BitVec.ofNat 1024 (v % 2 ^ (8 * n) * 2 ^ (8 * off)))

/-- The 128 bytes of a line in a byte store. -/
def ofCells (m : List Host.Cell) (line : Nat) : Line :=
  BitVec.ofNat 1024 (leNat (Memory.readN m (128 * line) 128))

/-- Writes the 128 bytes of a line to a byte store. -/
def toCells (m : List Host.Cell) (line : Nat) (l : Line) : List Host.Cell :=
  Memory.writeN m (128 * line) (leBytes l.toNat 128)

end LineOps

end Sys2Proof.Machine
end

