-- ==== Sys2Proof/Decode.lean ====
section
/-! DEFINITION. The instruction word and the clause header to the bit (R53, R61), the decoder (R63, R64, R67, R75, R76 and each
group's field table) and, after it, an encoder written from the same tables. The decoder is total: a word that breaks a check is
rejected with the fault and sub-code that R372 gives. -/

namespace Sys2Proof

/-- Why a word does not decode: ILLOP or OPERAND with its sub-code (R67, R372). -/
inductive DecodeError where
  | illop (sub : Nat)
  | operand (sub : Nat)
deriving DecidableEq, Repr

/-- The fields of an instruction word (R61); `low` holds SB, SC, SD, or bits [20:16] and IMM16 (R64). -/
structure Fields where
  opc : BitVec 9
  f : Bool
  ga : BitVec 4
  gb : BitVec 4
  ty : BitVec 4
  hn : BitVec 2
  y : Bool
  dst : BitVec 7
  rdc : BitVec 4
  sa : BitVec 7
  low : BitVec 21
deriving DecidableEq, Repr

namespace Fields

def sb (w : Fields) : BitVec 7 := w.low.extractLsb' 14 7
def sc (w : Fields) : BitVec 7 := w.low.extractLsb' 7 7
def sd (w : Fields) : BitVec 7 := w.low.extractLsb' 0 7
def mid (w : Fields) : BitVec 5 := w.low.extractLsb' 16 5
def imm (w : Fields) : BitVec 16 := w.low.extractLsb' 0 16

/-- The word of the fields, most significant field first (R61). -/
def pack (w : Fields) : W64 :=
  w.opc ++ BitVec.ofBool w.f ++ w.ga ++ w.gb ++ w.ty ++ w.hn ++ BitVec.ofBool w.y ++ w.dst ++ w.rdc ++ w.sa ++ w.low

/-- The fields of a word (R61). -/
def unpack (x : W64) : Fields where
  opc := x.extractLsb' 55 9
  f := x.getLsbD 54
  ga := x.extractLsb' 50 4
  gb := x.extractLsb' 46 4
  ty := x.extractLsb' 42 4
  hn := x.extractLsb' 40 2
  y := x.getLsbD 39
  dst := x.extractLsb' 32 7
  rdc := x.extractLsb' 28 4
  sa := x.extractLsb' 21 7
  low := x.extractLsb' 0 21

end Fields

/-- The TY codes of R26. -/
def ElemTy.ofCode : BitVec 4 → ElemTy := fun c =>
  match c.toNat with
  | 0 => .s32 | 1 => .n32 | 2 => .s64 | 3 => .n64 | 4 => .f32 | 5 => .f16 | 6 => .bf16 | 7 => .e4m3
  | 8 => .e5m2 | 9 => .s16 | 10 => .n16 | 11 => .s8 | 12 => .n8 | 13 => .i4s | 14 => .bfp | _ => .b32

def ElemTy.code : ElemTy → BitVec 4
  | .s32 => 0 | .n32 => 1 | .s64 => 2 | .n64 => 3 | .f32 => 4 | .f16 => 5 | .bf16 => 6 | .e4m3 => 7
  | .e5m2 => 8 | .s16 => 9 | .n16 => 10 | .s8 => 11 | .n8 => 12 | .i4s => 13 | .bfp => 14 | .b32 => 15

def Rnd.ofCode (c : BitVec 2) : Rnd :=
  match c.toNat with
  | 0 => .rne | 1 => .rz | 2 => .rup | _ => .rdn

def Rnd.code : Rnd → BitVec 2
  | .rne => 0 | .rz => 1 | .rup => 2 | .rdn => 3

def Hint.ofCode (c : BitVec 2) : Hint :=
  match c.toNat with
  | 0 => .plain | 1 => .stream | 2 => .keep | _ => .counted

def Hint.code : Hint → BitVec 2
  | .plain => 0 | .stream => 1 | .keep => 2 | .counted => 3

/-- A guard or a predicate operand from its four bits (R61, R198). -/
def Pred.ofBits (b : BitVec 4) : Pred := { neg := b.getLsbD 3, p := (b.extractLsb' 0 3).toFin }

def Pred.toBits (q : Pred) : BitVec 4 := BitVec.ofBool q.neg ++ (BitVec.ofFin q.p : BitVec 3)

/-- The number of assigned functions of each group (R75). -/
def groupSize (g : Nat) : Nat :=
  match g with
  | 0 => 9 | 1 => 17 | 2 => 16 | 3 => 6 | 4 => 10 | 5 => 6 | 6 => 10 | 7 => 9
  | 8 => 7 | 9 => 8 | 10 => 8 | 11 => 11 | 12 => 10 | 13 => 14 | 14 => 7 | _ => 0

/-- R75, R76: the OPC is assigned. -/
def opcAssigned (opc : BitVec 9) : Bool := decide (opc.toNat % 32 < groupSize (opc.toNat / 32))

/-- R55: the groups each engine admits, NOP in any clause, and the transfers that may end a clause of any engine. -/
def engAdmits (eng : Nat) (opc : BitVec 9) (last : Bool) : Bool :=
  let g := opc.toNat / 32
  let n := opc.toNat
  (match eng with
   | 0 => [1, 2, 3, 4, 5, 7, 8].contains g
   | 1 => g == 9 || g == 10
   | 2 => g == 12
   | 3 => g == 11
   | 4 => g == 0 || g == 13
   | 5 => g == 6 || g == 8
   | 6 => g == 14
   | _ => false)
  || n == 0 || (last && decide (1 ≤ n) && decide (n ≤ 6))

/-- R56: the OPC is a control transfer: BRA, BRX, CALL, CALLX, RET, EXIT, LESC, LRES, ERET. -/
def opcTransfer (opc : BitVec 9) : Bool :=
  let n := opc.toNat
  (decide (1 ≤ n) && decide (n ≤ 6)) || n == 0x1AA || n == 0x1AB || n == 0x1C1

namespace Dec

/-- A check of R63 with the error it raises. -/
def need (ok : Bool) (e : DecodeError) : Except DecodeError Unit := if ok then .ok () else .error e

def row (ok : Bool) : Except DecodeError Unit := need ok (.illop 3)
def lit (ok : Bool) : Except DecodeError Unit := need ok (.illop 6)
def rsv (ok : Bool) : Except DecodeError Unit := need ok (.illop 2)

/-- F = 0 only. -/
def formR (w : Fields) : Except DecodeError Unit := row (!w.f)
/-- F = 1 only; word bits [20:16] are zero (R63). -/
def formI (w : Fields) : Except DecodeError Unit := do row w.f; rsv (w.mid == 0#5)
/-- F = 0 or 1. -/
def formRI (w : Fields) : Except DecodeError Unit := rsv (!w.f || w.mid == 0#5)

def tyIn (w : Fields) (p : ElemTy → Bool) : Except DecodeError ElemTy := do
  let t := ElemTy.ofCode w.ty
  row (p t)
  return t

def tyIs (w : Fields) (t : ElemTy) : Except DecodeError Unit := row (ElemTy.ofCode w.ty == t)
def hn0 (w : Fields) : Except DecodeError Unit := row (w.hn == 0#2)
def nul (x : BitVec 7) : Except DecodeError Unit := rsv (x == 127#7)

/-- R63: an instruction without a destination. -/
def dstNone (w : Fields) : Except DecodeError Unit := row (w.dst == 127#7 && w.rdc == 0#4)

/-- R63: the RDC that the DST needs. A special or a pop queue as DST is an OPERAND fault, found later. -/
def dstRow (w : Fields) : Except DecodeError Unit :=
  let n := w.dst.toNat
  row (if n < 112 then w.rdc != 0#4 else if n == 127 then w.rdc == 0#4
       else if n == 112 || n == 113 || n == 115 then w.rdc == 1#4 else true)

/-- The DST as an operand (R65, R67). -/
def dstOp (w : Fields) : Except DecodeError Dst :=
  let n := w.dst.toNat
  if h : n < 112 then .ok (.val ⟨n, h⟩ w.rdc)
  else if n == 127 then .ok .nul
  else if n == 112 then .ok (.push .mxa)
  else if n == 113 then .ok (.push .mxc)
  else if n == 115 then .ok (.push .cpc)
  else if n < 120 then .error (.operand 1)
  else .error (.operand 2)

/-- A DST that is a value name or nul (QBLK, BARARV, TDEPADD); a push queue is outside the row. -/
def dstRowVN (w : Fields) : Except DecodeError Unit := do
  dstRow w
  row (w.dst.toNat != 112 && w.dst.toNat != 113 && w.dst.toNat != 115)

/-- A DST that is a value name, or a push queue as R149 describes it, in the rows of the memory and atomic groups that say "value, 1–15" (R145, R158): nul is outside the
row. -/
def dstRowVQ (w : Fields) : Except DecodeError Unit := do
  dstRow w
  row (w.dst.toNat != 127)

/-- A DST that is a value name only, the rows that say no more than "value, 1–15" outside the memory groups (PAIR, CELLQ, CPSTAT,
MSTAT, TSELF, CVSWAP, LFRAME, LSTAT, SYSRD, PPOLL): nul and the push queues are outside the row. -/
def dstRowV (w : Fields) : Except DecodeError Unit := do
  dstRowVN w
  row (w.dst.toNat != 127)

/-- A predicate destination (R198). -/
def dstPred (w : Fields) : Except DecodeError PName := do
  row (w.dst.toNat < 8 && w.rdc == 0#4)
  return (w.dst.extractLsb' 0 3).toFin

/-- A value name v0 to v110 as DST (R195, R308). -/
def dstName (w : Fields) : Except DecodeError VName :=
  let n := w.dst.toNat
  if h : n ≤ 110 then (if w.rdc != 0#4 then .ok ⟨n, by omega⟩ else .error (.illop 3)) else .error (.illop 3)

/-- A push queue as the fixed DST, with RDC = 1 (R135, R253). -/
def dstQueue (w : Fields) (code : Nat) : Except DecodeError Unit := row (w.dst.toNat == code && w.rdc == 1#4)

/-- A source name (R65, R67). -/
def src (x : BitVec 7) : Except DecodeError Src :=
  let n := x.toNat
  if h : n < 112 then .ok (.val ⟨n, h⟩)
  else match n with
    | 114 => .ok (.pop .mxo)
    | 116 => .ok (.pop .cps)
    | 117 => .ok (.pop .hof)
    | 118 => .ok (.pop .st0)
    | 119 => .ok (.pop .st1)
    | 120 => .ok (.spec .zero)
    | 121 => .ok (.spec .lane)
    | 122 => .ok (.spec .tid)
    | 123 => .ok (.spec .rank)
    | 124 => .ok (.spec .tsize)
    | 125 => .ok (.spec .gang)
    | 126 => .ok (.spec .item)
    | 127 => .error (.operand 3)
    | _ => .error (.operand 1)

/-- A source that may be no queue name (R253). -/
def srcNoQ (x : BitVec 7) : Except DecodeError Src := do
  let a ← src x
  need (decide (x.toNat < 112) || decide (120 ≤ x.toNat)) (.operand 1)
  return a

/-- A source that may be nul. -/
def srcOpt (x : BitVec 7) : Except DecodeError (Option Src) := do
  if x == 127#7 then return none
  let a ← src x
  return some a

/-- SA in the register form or IMM16 with SA nul. -/
def saI (w : Fields) : Except DecodeError SrcI := do
  if w.f then return .imm w.imm
  let a ← src w.sa
  return .reg a

/-- SB in the register form or IMM16. -/
def sbI (w : Fields) : Except DecodeError SrcI := do
  if w.f then return .imm w.imm
  let a ← src w.sb
  return .reg a

/-- A predicate operand in a 7-bit field (R198). -/
def predRow (x : BitVec 7) : Except DecodeError Pred := do
  rsv (x.extractLsb' 4 3 == 0#3)
  return Pred.ofBits (x.extractLsb' 0 4)

/-- R188: the name of a binding. A queue or a special takes OPERAND 5, nul OPERAND 3. -/
def bindName (x : BitVec 7) : Except DecodeError VName :=
  let n := x.toNat
  if h : n < 112 then .ok ⟨n, h⟩ else if n == 127 then .error (.operand 3) else .error (.operand 5)

/-- R145, R364: a field that must hold a value name, or the word is ILLOP (LDV's DST, STV's SC, LESC's SB).
No line of R63 or R372 names the sub-code of a source field: 3, the row's, is the model's choice (log entry 64). -/
def nameRow (x : BitVec 7) : Except DecodeError VName :=
  let n := x.toNat
  if h : n < 112 then .ok ⟨n, h⟩ else .error (.illop 3)

/-- XLN sources hold no queue name (R211). The sub-code 3 is the model's choice (log entry 64). -/
def noQueue (x : BitVec 7) : Except DecodeError Unit := row (!(decide (112 ≤ x.toNat) && decide (x.toNat ≤ 119)))

def hd (w : Fields) : Hd := { ga := Pred.ofBits w.ga, gb := Pred.ofBits w.gb, y := w.y }

/-- The memory address operands (R146). -/
def maddr (w : Fields) : Except DecodeError MemAddr := do
  let a ← src w.sa
  if w.f then return .imm a w.imm
  let b ← src w.sb
  return .reg a b (w.sd.getLsbD 6)

/-- R63 for the fields SB, SC and SD that the register form does not read. -/
def nulSC (w : Fields) : Except DecodeError Unit := if w.f then .ok () else nul w.sc
def nulSD (w : Fields) : Except DecodeError Unit := if w.f then .ok () else nul w.sd
def nulSB (w : Fields) : Except DecodeError Unit := if w.f then .ok () else nul w.sb

/-- Two sources, the second with an immediate form, HN = 00. -/
def rI2 (w : Fields) (p : ElemTy → Bool) (mk : Hd → ElemTy → Dst → Src → SrcI → Instr) : Except DecodeError Instr := do
  formRI w
  let t ← tyIn w p
  hn0 w; dstRow w; nulSC w; nulSD w
  lit (!w.f || immOk t w.imm)
  let d ← dstOp w
  let a ← src w.sa
  let b ← sbI w
  return mk (hd w) t d a b

/-- One source. -/
def r1 (w : Fields) (p : ElemTy → Bool) (mk : Hd → ElemTy → Dst → Src → Instr) : Except DecodeError Instr := do
  formR w
  let t ← tyIn w p
  hn0 w; dstRow w; nul w.sb; nul w.sc; nul w.sd
  let d ← dstOp w
  let a ← src w.sa
  return mk (hd w) t d a

/-- Three sources. -/
def r3 (w : Fields) (p : ElemTy → Bool) (mk : Hd → ElemTy → Dst → Src → Src → Src → Instr) : Except DecodeError Instr := do
  formR w
  let t ← tyIn w p
  hn0 w; dstRow w; nul w.sd
  let d ← dstOp w
  let a ← src w.sa
  let b ← src w.sb
  let c ← src w.sc
  return mk (hd w) t d a b c

/-- Two sources and a rounding mode, the second with an immediate form (R218). -/
def f2 (w : Fields) (mk : Hd → ElemTy → Rnd → Dst → Src → SrcI → Instr) : Except DecodeError Instr := do
  formRI w
  let t ← tyIn w ElemTy.inFT
  dstRow w; nulSC w; nulSD w
  let d ← dstOp w
  let a ← src w.sa
  let b ← sbI w
  return mk (hd w) t (Rnd.ofCode w.hn) d a b

/-- FMIN and FMAX (R218): HN is 00 or 01. -/
def fmm (w : Fields) (mk : Hd → ElemTy → Bool → Dst → Src → SrcI → Instr) : Except DecodeError Instr := do
  formRI w
  let t ← tyIn w ElemTy.inFT
  row (!w.hn.getLsbD 1)
  dstRow w; nulSC w; nulSD w
  let d ← dstOp w
  let a ← src w.sa
  let b ← sbI w
  return mk (hd w) t (w.hn.getLsbD 0) d a b

/-- SFU functions of one f32 operand (R230). -/
def sfu (w : Fields) (mk : Hd → Dst → Src → Instr) : Except DecodeError Instr := do
  formR w; tyIs w .f32; hn0 w; dstRow w; nul w.sb; nul w.sc; nul w.sd
  let d ← dstOp w
  let a ← src w.sa
  return mk (hd w) d a

/-- Words without operands or destination. -/
def bare (w : Fields) (t : ElemTy) (mk : Hd → Instr) : Except DecodeError Instr := do
  formR w; tyIs w t; hn0 w; dstNone w; nul w.sa; nul w.sb; nul w.sc; nul w.sd
  return mk (hd w)

/-- Words with only SA. -/
def only1 (w : Fields) (t : ElemTy) (mk : Hd → Src → Instr) : Except DecodeError Instr := do
  formR w; tyIs w t; hn0 w; dstNone w; nul w.sb; nul w.sc; nul w.sd
  let a ← src w.sa
  return mk (hd w) a

/-- Words with SA in either form and no destination: SA value or IMM16. -/
def only1I (w : Fields) (t : ElemTy) (ok : BitVec 16 → Bool) (mk : Hd → SrcI → Instr) : Except DecodeError Instr := do
  formRI w; tyIs w t; hn0 w; dstNone w
  (if w.f then nul w.sa else (do nul w.sb; nul w.sc; nul w.sd))
  lit (!w.f || ok w.imm)
  let a ← saI w
  return mk (hd w) a

/-- Matrix commands on mxc with SA to SC in the given use (R253). -/
def mtx (w : Fields) (mk : Hd → Instr) : Except DecodeError Instr := do
  formR w; tyIs w .b32; hn0 w; dstQueue w 113; nul w.sa; nul w.sb; nul w.sc; nul w.sd
  return mk (hd w)

/-- The combine of ISETP and FSETP: SC is a predicate when HN is not 00, else nul. -/
def combine (w : Fields) : Except DecodeError Combine := do
  if w.hn == 0#2 then nul w.sc; return .none
  let p ← predRow w.sc
  match w.hn.toNat with
  | 1 => return .and p
  | 2 => return .or p
  | _ => return .xor p

def icmp (n : Nat) : Except DecodeError ICmp :=
  match n with
  | 0 => .ok .eq | 1 => .ok .ne | 2 => .ok .lt | 3 => .ok .le | 4 => .ok .gt | 5 => .ok .ge
  | _ => .error (.illop 6)

def fcmp (n : Nat) : Except DecodeError FCmp :=
  match n with
  | 0 => .ok .eq | 1 => .ok .ne | 2 => .ok .lt | 3 => .ok .le | 4 => .ok .gt | 5 => .ok .ge | 6 => .ok .num
  | 8 => .ok .equ | 9 => .ok .neu | 10 => .ok .ltu | 11 => .ok .leu | 12 => .ok .gtu | 13 => .ok .geu | 14 => .ok .nan
  | _ => .error (.illop 6)

/-- CTL group (R308). -/
def ctl (w : Fields) (fn : Nat) : Except DecodeError Instr := do
  match fn with
  | 0 => bare w .b32 .nop
  | 1 => do formI w; tyIs w .b32; hn0 w; dstNone w; nul w.sa; return .bra (hd w) w.imm
  | 2 => only1 w .n64 .brx
  | 3 => do
    formI w; tyIs w .n64; hn0 w
    let d ← dstName w
    nul w.sa
    return .call (hd w) d w.rdc w.imm
  | 4 => do
    formR w; tyIs w .n64; hn0 w
    let d ← dstName w
    nul w.sb; nul w.sc; nul w.sd
    let a ← src w.sa
    return .callx (hd w) d w.rdc a
  | 5 => only1 w .n64 .ret
  | 6 => bare w .b32 .exit
  | 7 => do
    formI w; tyIs w .b32; hn0 w; dstNone w; nul w.sa
    lit (w.imm.toNat < 4096)
    return .waitf (hd w) (w.imm.extractLsb' 0 12)
  | _ => do formI w; tyIs w .b32; hn0 w; dstNone w; nul w.sa; return .nap (hd w) w.imm

/-- IADDC and ISUBB (R202). -/
def carry (w : Fields) (mk : Hd → ElemTy → Dst → Src → Src → Pred → PName → Instr) : Except DecodeError Instr := do
  formR w
  let t ← tyIn w ElemTy.inN
  hn0 w; dstRow w
  let cin ← predRow w.sc
  rsv (w.sd.extractLsb' 3 4 == 0#4)
  let d ← dstOp w
  let a ← src w.sa
  let b ← src w.sb
  return mk (hd w) t d a b cin (w.sd.extractLsb' 0 3).toFin

/-- IDOT4 and IDOT8 (R203): HN gives the signedness. -/
def idot (w : Fields) (mk : Hd → Bool → Bool → Dst → Src → Src → Src → Instr) : Except DecodeError Instr := do
  formR w; tyIs w .s32; dstRow w; nul w.sd
  let d ← dstOp w
  let a ← src w.sa
  let b ← src w.sb
  let c ← src w.sc
  return mk (hd w) (w.hn.getLsbD 1) (w.hn.getLsbD 0) d a b c

/-- INT group (R200). -/
def int (w : Fields) (fn : Nat) : Except DecodeError Instr := do
  match fn with
  | 0 => rI2 w ElemTy.inI .iadd
  | 1 => rI2 w ElemTy.inI .isub
  | 2 => rI2 w ElemTy.inI .imul
  | 3 => rI2 w ElemTy.inI .imulhi
  | 4 => r3 w ElemTy.inI .imad
  | 5 => r3 w ElemTy.in64 .imadw
  | 6 => carry w .iaddc
  | 7 => carry w .isubb
  | 8 => rI2 w ElemTy.inI .imin
  | 9 => rI2 w ElemTy.inI .imax
  | 10 => r1 w ElemTy.inI .iabs
  | 11 => r1 w ElemTy.inI .ineg
  | 12 => r3 w ElemTy.inSad .isad
  | 13 => idot w .idot4
  | 14 => idot w .idot8
  | 15 => do
    formRI w; tyIs w .n64; hn0 w; dstRow w; nulSC w
    rsv (w.f || w.sd.extractLsb' 4 3 == 0#3)
    let d ← dstOp w
    let a ← src w.sa
    if w.f then return .lea (hd w) d a (.imm w.imm)
    let b ← src w.sb
    return .lea (hd w) d a (.reg b (w.sd.extractLsb' 0 3).toFin (w.sd.getLsbD 3))
  | _ => r3 w ElemTy.inI .iclamp

/-- BIT group (R205). -/
def bit (w : Fields) (fn : Nat) : Except DecodeError Instr := do
  match fn with
  | 0 => rI2 w ElemTy.inB .and
  | 1 => rI2 w ElemTy.inB .or
  | 2 => rI2 w ElemTy.inB .xor
  | 3 => do
    formR w
    let t ← tyIn w ElemTy.inB
    row (!w.hn.getLsbD 1)
    dstRow w
    let d ← dstOp w
    let a ← src w.sa
    let b ← src w.sb
    let c ← src w.sc
    return .lop3 (hd w) t d a b c (BitVec.ofBool (w.hn.getLsbD 0) ++ w.sd)
  | 4 => rI2 w ElemTy.inIB .shl
  | 5 => rI2 w ElemTy.inIB .shr
  | 6 => rI2 w ElemTy.inIB .sar
  | 7 => rI2 w ElemTy.inIB .rotl
  | 8 => do
    formR w
    let t ← tyIn w (fun t => t == .b32 || t == .n32)
    dstRow w; nul w.sd
    let d ← dstOp w
    let a ← src w.sa
    let b ← src w.sb
    let c ← src w.sc
    return .fshf (hd w) t (w.hn.getLsbD 1) (w.hn.getLsbD 0) d a b c
  | 9 => r1 w ElemTy.inB .popc
  | 10 => r1 w ElemTy.inB .clz
  | 11 => r1 w ElemTy.inB .ctz
  | 12 => r1 w ElemTy.inB .brev
  | 13 => rI2 w ElemTy.inB .bfx
  | 14 => r3 w ElemTy.inB .bfi
  | _ => r3 w (fun t => t == .b32) (fun h _ d a b c => .perm h d a b c)

/-- PRD group (R207). -/
def prd (w : Fields) (fn : Nat) : Except DecodeError Instr := do
  match fn with
  | 0 => do
    formRI w
    let t ← tyIn w ElemTy.inI32
    let d ← dstPred w
    if w.f then
      let c := match w.hn.toNat with
        | 0 => ICmp.eq | 1 => ICmp.ne | 2 => ICmp.lt | _ => ICmp.ge
      let a ← src w.sa
      return .isetp (hd w) t d a (.imm w.imm c)
    let m ← combine w
    rsv (w.sd.extractLsb' 3 4 == 0#4)
    let c ← icmp (w.sd.extractLsb' 0 3).toNat
    let a ← src w.sa
    let b ← src w.sb
    return .isetp (hd w) t d a (.reg b c m)
  | 1 => do
    formR w
    let t ← tyIn w ElemTy.inFT
    let d ← dstPred w
    let m ← combine w
    rsv (w.sd.extractLsb' 4 3 == 0#3)
    let c ← fcmp (w.sd.extractLsb' 0 4).toNat
    let a ← src w.sa
    let b ← src w.sb
    return .fsetp (hd w) t d a b c m
  | 2 => do
    formR w; tyIs w .b32
    row (!w.hn.getLsbD 1)
    let d ← dstPred w
    let pa ← predRow w.sa
    let pb ← predRow w.sb
    let pc ← predRow w.sc
    return .plop (hd w) d pa pb pc (BitVec.ofBool (w.hn.getLsbD 0) ++ w.sd)
  | 3 => do
    formR w
    let t ← tyIn w ElemTy.notBfp
    hn0 w; dstRow w
    let p ← predRow w.sc
    nul w.sd
    let d ← dstOp w
    let a ← src w.sa
    let b ← src w.sb
    return .sel (hd w) t d a b p
  | 4 => do
    formR w; tyIs w .n32; hn0 w; dstRow w; nul w.sa; nul w.sb; nul w.sc; nul w.sd
    let d ← dstOp w
    return .p2v (hd w) d
  | _ => do
    formRI w; tyIs w .b32; hn0 w; dstNone w; nulSC w; nulSD w
    lit (!w.f || decide (w.imm.toNat < 128))
    let a ← src w.sa
    let m ← sbI w
    return .v2p (hd w) a m

/-- FLT group (R218). -/
def flt (w : Fields) (fn : Nat) : Except DecodeError Instr := do
  match fn with
  | 0 => f2 w .fadd
  | 1 => f2 w .fsub
  | 2 => f2 w .fmul
  | 3 => do
    formR w
    let t ← tyIn w ElemTy.inFT
    dstRow w; nul w.sd
    let d ← dstOp w
    let a ← src w.sa
    let b ← src w.sb
    let c ← src w.sc
    return .ffma (hd w) t (Rnd.ofCode w.hn) d a b c
  | 4 => fmm w .fmin
  | 5 => fmm w .fmax
  | 6 => do
    formR w
    let t ← tyIn w ElemTy.inFT
    dstRow w; nul w.sb; nul w.sc; nul w.sd
    let d ← dstOp w
    let a ← src w.sa
    return .frnd (hd w) t (Rnd.ofCode w.hn) d a
  | 7 => do
    formR w
    let t ← tyIn w ElemTy.inFT
    dstRow w; nul w.sc; nul w.sd
    let d ← dstOp w
    let a ← src w.sa
    let n ← src w.sb
    return .fscale (hd w) t (Rnd.ofCode w.hn) d a n
  | 8 => r1 w ElemTy.inFT .fclass
  | _ => do
    formR w
    let t ← tyIn w (fun t => t == .f16 || t == .bf16)
    dstRow w; nul w.sd
    let d ← dstOp w
    let a ← src w.sa
    let b ← src w.sb
    let c ← src w.sc
    return .fdot2 (hd w) t (Rnd.ofCode w.hn) d a b c

/-- The conversion literal (R225). -/
def cvtLit (w : Fields) : CvtLit :=
  { sel := (w.sd.extractLsb' 5 2).toFin, sat := w.sd.getLsbD 4, sty := ElemTy.ofCode (w.sd.extractLsb' 0 4) }

/-- CVT group (R224). An STY that CVT8PK does not take, and an SC that does not agree with it (R225), have sub-code 6, as limits of the literal (DESIGN CHOICE,
log entry 64). -/
def cvtG (w : Fields) (fn : Nat) : Except DecodeError Instr := do
  match fn with
  | 0 => do
    formR w
    let t ← tyIn w ElemTy.inCvt
    dstRow w; nul w.sb; nul w.sc
    lit (cvtLit w).wfCvt
    let d ← dstOp w
    let a ← src w.sa
    return .cvt (hd w) t (Rnd.ofCode w.hn) d a (cvtLit w)
  | 1 => do
    formR w
    let t ← tyIn w ElemTy.inPk
    dstRow w; nul w.sc
    lit (cvtLit w).wfCvt
    let d ← dstOp w
    let a ← src w.sa
    let b ← src w.sb
    return .cvtpk (hd w) t (Rnd.ofCode w.hn) d a b (cvtLit w)
  | 2 => do
    formR w
    let t ← tyIn w ElemTy.inPk8
    dstRow w
    rsv (w.sc == 127#7 || !(cvtLit w).sty.inPk)
    rsv (!w.sd.getLsbD 6)
    lit ((cvtLit w).wfPk8 (w.sc != 127#7))
    let d ← dstOp w
    let a ← src w.sa
    let b ← src w.sb
    let c ← srcOpt w.sc
    return .cvt8pk (hd w) t (Rnd.ofCode w.hn) d a b c (cvtLit w)
  | 3 => do
    formR w
    let t ← tyIn w ElemTy.inPk
    dstRow w; nul w.sb; nul w.sc
    lit (cvtLit w).wfUpk
    let d ← dstOp w
    let a ← src w.sa
    return .cvtupk (hd w) t (Rnd.ofCode w.hn) d a (cvtLit w)
  | 4 => do
    formR w
    let t ← tyIn w ElemTy.inFT
    dstRowVN w
    rsv (w.sd.extractLsb' 3 4 == 0#4)
    lit (w.sd.extractLsb' 0 3 != 0#3)
    let d ← dstOp w
    let a ← src w.sa
    let b ← src w.sb
    let c ← src w.sc
    return .qblk (hd w) t (Rnd.ofCode w.hn) d a b c (w.sd.extractLsb' 0 3).toFin
  | _ => do
    formR w
    let t ← tyIn w ElemTy.inFT
    dstRow w; nul w.sc
    rsv (w.sd.extractLsb' 3 4 == 0#4)
    lit (w.sd.extractLsb' 0 3 != 0#3)
    let d ← dstOp w
    let a ← src w.sa
    let b ← src w.sb
    return .dqblk (hd w) t (Rnd.ofCode w.hn) d a b (w.sd.extractLsb' 0 3).toFin

/-- SFU group (R230). -/
def sfuG (w : Fields) (fn : Nat) : Except DecodeError Instr := do
  match fn with
  | 0 => sfu w .rcp
  | 1 => sfu w .rsq
  | 2 => sfu w .sqrt
  | 3 => sfu w .exp2
  | 4 => sfu w .log2
  | 5 => sfu w .sinpi
  | 6 => sfu w .cospi
  | 7 => sfu w .tanh
  | 8 => do
    formR w; tyIs w .n32; hn0 w; dstRow w; nul w.sa; nul w.sb; nul w.sc; nul w.sd
    let d ← dstOp w
    return .rnd (hd w) d
  | _ => do
    formR w; tyIs w .f32; hn0 w; dstRow w; nul w.sa; nul w.sb; nul w.sc; nul w.sd
    let d ← dstOp w
    return .rndf (hd w) d

/-- XBFLY and XBCAST (R212). -/
def xmove (w : Fields) (mk : Hd → ElemTy → Dst → Src → SrcI → Instr) : Except DecodeError Instr := do
  formRI w
  let t ← tyIn w ElemTy.notBfp
  hn0 w; dstRow w; noQueue w.sa
  (if w.f then row true else noQueue w.sb)
  nulSC w; nulSD w
  let d ← dstOp w
  let a ← src w.sa
  let b ← sbI w
  return mk (hd w) t d a b

def redOp (n : Nat) : Except DecodeError RedOp :=
  match n with
  | 0 => .ok .add | 1 => .ok .min | 2 => .ok .max | 3 => .ok .and | 4 => .ok .or | 5 => .ok .xor
  | _ => .error (.illop 6)

/-- XLN group (R212). -/
def xln (w : Fields) (fn : Nat) : Except DecodeError Instr := do
  match fn with
  | 0 => do
    formRI w
    let t ← tyIn w ElemTy.notBfp
    row (w.hn != 3#2)
    dstRow w; noQueue w.sa
    (if w.f then row true else noQueue w.sb)
    nulSC w; nulSD w
    let d ← dstOp w
    let a ← src w.sa
    let b ← sbI w
    let m := match w.hn.toNat with
      | 0 => XMode.idx | 1 => XMode.up | _ => XMode.down
    return .xshf (hd w) t m d a b
  | 1 => xmove w .xbfly
  | 2 => xmove w .xbcast
  | 3 => do
    formR w
    let t ← tyIn w ElemTy.inRed
    hn0 w; dstRow w; noQueue w.sa; nul w.sb; nul w.sc
    rsv (w.sd.extractLsb' 4 3 == 0#3)
    lit (!w.sd.getLsbD 3)
    let op ← redOp (w.sd.extractLsb' 0 3).toNat
    lit (op.accepts t)
    let d ← dstOp w
    let a ← src w.sa
    return .redx (hd w) t d a op
  | 4 => do
    formR w
    let t ← tyIn w ElemTy.inRed
    hn0 w; dstRow w; noQueue w.sa; nul w.sb; nul w.sc
    rsv (w.sd.extractLsb' 4 3 == 0#3)
    let op ← redOp (w.sd.extractLsb' 0 3).toNat
    lit (op.accepts t)
    let d ← dstOp w
    let a ← src w.sa
    return .scanx (hd w) t d a op (w.sd.getLsbD 3)
  | 5 => do
    formR w
    if w.hn == 3#2 then
      tyIs w .n64; dstRow w; nul w.sb; nul w.sc
      let p ← predRow w.sa
      rsv (w.sd.extractLsb' 1 6 == 0#6)
      let d ← dstOp w
      return .vote (hd w) (.ballot d (w.sd.getLsbD 0)) p
    tyIs w .b32
    let d ← dstPred w
    nul w.sb; nul w.sc; nul w.sd
    let p ← predRow w.sa
    match w.hn.toNat with
    | 0 => return .vote (hd w) (.all d) p
    | 1 => return .vote (hd w) (.any d) p
    | _ => return .vote (hd w) (.uni d) p
  | 6 => do
    formR w
    let t ← tyIn w (fun t => t == .b32 || t == .n64)
    hn0 w; dstRow w; noQueue w.sa; nul w.sb; nul w.sc
    rsv (w.sd.extractLsb' 1 6 == 0#6)
    let d ← dstOp w
    let a ← src w.sa
    return .xmatch (hd w) (t == .n64) d a (w.sd.getLsbD 0)
  | 7 => do
    formR w; tyIs w .b32; hn0 w
    let d ← dstPred w
    nul w.sa; nul w.sb; nul w.sc; nul w.sd
    return .elect (hd w) d
  | _ => do
    formR w; tyIs w .n32; dstRow w
    if w.hn.getLsbD 1 then
      nul w.sb; nul w.sc; nul w.sd
      let p ← predRow w.sa
      let d ← dstOp w
      return .xcount (hd w) d (if w.hn.getLsbD 0 then .predBelow p else .pred p)
    nul w.sa; nul w.sb; nul w.sc; nul w.sd
    let d ← dstOp w
    return .xcount (hd w) d (if w.hn.getLsbD 0 then .below else .exec)

/-- CEL group (R188). -/
def cel (w : Fields) (fn : Nat) : Except DecodeError Instr := do
  match fn with
  | 0 => do
    formRI w
    let t ← tyIn w ElemTy.notBfp
    hn0 w; dstRow w
    (if w.f then nul w.sa else (do nul w.sb; nul w.sc; nul w.sd))
    lit (!w.f || immOk t w.imm)
    let d ← dstOp w
    let a ← saI w
    return .mov (hd w) t d a
  | 1 => do
    formI w; tyIs w .b32; hn0 w; dstNone w
    lit (decide (w.imm.toNat ≤ 14))
    let a ← bindName w.sa
    return .drop (hd w) a (w.imm.extractLsb' 0 4)
  | 2 => do
    formI w; tyIs w .b32; hn0 w; dstNone w
    lit (decide (1 ≤ w.imm.toNat) && decide (w.imm.toNat ≤ 14))
    let a ← bindName w.sa
    return .keep (hd w) a (w.imm.extractLsb' 0 4)
  | 3 => do
    formR w; tyIs w .b32; hn0 w; dstNone w; nul w.sb; nul w.sc; nul w.sd
    let a ← bindName w.sa
    return .free (hd w) a
  | 4 => do
    formR w
    let t ← tyIn w ElemTy.in64
    hn0 w; dstRowV w; nul w.sc; nul w.sd
    let d ← dstOp w
    let a ← src w.sa
    let b ← src w.sb
    return .pair (hd w) t d a b
  | 5 => do
    formR w
    let t ← tyIn w ElemTy.in64
    hn0 w
    let d ← dstName w
    nul w.sb; nul w.sc; nul w.sd
    let a ← src w.sa
    return .split (hd w) t d w.rdc a
  | _ => do
    formR w; tyIs w .b32; dstRowV w
    nul w.sb; nul w.sc; nul w.sd
    if w.hn == 3#2 then
      nul w.sa
      let d ← dstOp w
      return .cellq (hd w) d .lane
    let d ← dstOp w
    let a ← bindName w.sa
    match w.hn.toNat with
    | 0 => return .cellq (hd w) d (.state a)
    | 1 => return .cellq (hd w) d (.pcl a)
    | _ => return .cellq (hd w) d (.pch a)

/-- R147: the register form's literal, CNT nonzero only where R147 admits it. -/
def cntLit (w : Fields) (counted : Bool) : Except DecodeError Unit :=
  lit (w.f || counted || w.sd.extractLsb' 0 6 == 0#6)

def cntOf (w : Fields) : Fin 64 := if w.f then 0 else (w.sd.extractLsb' 0 6).toFin

/-- MEM group (R145). PFL's SC is a count or nul: in the register form it may name any source, with every HN (log entry 60). -/
def mem (w : Fields) (fn : Nat) : Except DecodeError Instr := do
  match fn with
  | 0 => do
    formRI w
    let t ← tyIn w ElemTy.notBfp
    dstRowVQ w; nulSC w
    cntLit w (w.hn == 3#2)
    let d ← dstOp w
    let m ← maddr w
    return .ld (hd w) t (Hint.ofCode w.hn) d m (cntOf w)
  | 1 => do
    formR w
    let t ← tyIn w ElemTy.notBfp
    row (w.hn != 3#2)
    dstNone w; cntLit w false
    let a ← src w.sa
    let b ← src w.sb
    let c ← src w.sc
    return .st (hd w) t (Hint.ofCode w.hn) a b (w.sd.getLsbD 6) c
  | 2 => do
    formRI w
    let t ← tyIn w ElemTy.notBfp
    row (w.hn == 0#2 || w.hn == 3#2)
    dstRowVQ w; nulSC w; cntLit w false
    let d ← dstOp w
    let m ← maddr w
    return .lds (hd w) t (w.hn == 3#2) d m
  | 3 => do
    formR w
    let t ← tyIn w ElemTy.notBfp
    hn0 w; dstNone w; cntLit w false
    let a ← src w.sa
    let b ← src w.sb
    let c ← src w.sc
    return .sts (hd w) t a b (w.sd.getLsbD 6) c
  | 4 => do
    formRI w
    let t ← tyIn w ElemTy.inLdp
    hn0 w; dstRowVQ w; nulSC w; cntLit w false
    let d ← dstOp w
    let m ← maddr w
    return .ldp (hd w) t d m
  | 5 => do
    formRI w; tyIs w .b32
    let d ← nameRow w.dst
    row (d.val % 2 == 0 && w.rdc != 0#4)
    nulSC w; cntLit w (w.hn == 3#2)
    let m ← maddr w
    return .ldv (hd w) (Hint.ofCode w.hn) d w.rdc m (cntOf w)
  | 6 => do
    formR w; tyIs w .b32
    row (w.hn != 3#2)
    dstNone w
    let c ← nameRow w.sc
    row (c.val % 2 == 0)
    cntLit w false
    let a ← src w.sa
    let b ← src w.sb
    return .stv (hd w) (Hint.ofCode w.hn) a b (w.sd.getLsbD 6) c
  | _ => do
    formRI w; tyIs w .b32; dstNone w
    cntLit w false
    let m ← maddr w
    if w.f then return .pfl (hd w) (Hint.ofCode w.hn) m none
    let c ← srcOpt w.sc
    return .pfl (hd w) (Hint.ofCode w.hn) m c

def atomOp (n : Nat) : Except DecodeError AtomOp :=
  match n with
  | 0 => .ok .add | 1 => .ok .min | 2 => .ok .max | 3 => .ok .and | 4 => .ok .or | 5 => .ok .xor
  | 6 => .ok .exch | 7 => .ok .fadd | _ => .error (.illop 6)

def awaitCond (n : Nat) : Except DecodeError AwaitCond :=
  match n with
  | 0 => .ok .eq | 1 => .ok .ne | 2 => .ok .ge | 3 => .ok .lt | 4 => .ok .any | 5 => .ok .none
  | _ => .error (.illop 6)

/-- TY of ATOM and ARED (R159): those of the operation that SD names, or of any operation where it names none, which is a later check (R63). -/
def atomTy (w : Fields) : Except DecodeError ElemTy :=
  match atomOp (w.sd.extractLsb' 0 4).toNat with
  | .ok op => tyIn w op.accepts
  | .error _ => tyIn w (fun t => [AtomOp.add, .min, .max, .and, .or, .xor, .exch, .fadd].any (fun op => op.accepts t))

def scope (w : Fields) : Fin 8 := (w.sd.extractLsb' 4 3).toFin

/-- ATM group (R158). The limit that AWAIT and BARWT name in SC may be any source: R165 gives a value name or zero, and names no fault for another special or a pop
queue, which the model reads as its value (DESIGN CHOICE, log entry 58). -/
def atm (w : Fields) (fn : Nat) : Except DecodeError Instr := do
  match fn with
  | 0 => do
    formR w
    let t ← atomTy w
    hn0 w; dstRowVQ w; nul w.sc
    let op ← atomOp (w.sd.extractLsb' 0 4).toNat
    let d ← dstOp w
    let a ← src w.sa
    let b ← src w.sb
    return .atom (hd w) t d a b op (scope w)
  | 1 => do
    formR w
    let t ← atomTy w
    hn0 w; dstNone w; nul w.sc
    let op ← atomOp (w.sd.extractLsb' 0 4).toNat
    let a ← src w.sa
    let b ← src w.sb
    return .ared (hd w) t a b op (scope w)
  | 2 => do
    formR w
    let t ← tyIn w ElemTy.inCas
    hn0 w; dstRowVQ w
    lit (w.sd.extractLsb' 0 4 == 0#4)
    let d ← dstOp w
    let a ← src w.sa
    let b ← src w.sb
    let c ← src w.sc
    return .acas (hd w) t d a b c (scope w)
  | 3 => do
    formR w
    let t ← tyIn w ElemTy.inCas
    hn0 w; dstRowVQ w
    let cond ← awaitCond (w.sd.extractLsb' 0 4).toNat
    lit (cond.accepts t)
    let d ← dstOp w
    let a ← src w.sa
    let b ← src w.sb
    let c ← src w.sc
    return .await (hd w) t d a b c cond (scope w)
  | 4 => do
    formI w; tyIs w .b32; hn0 w; dstNone w; nul w.sa
    lit (w.imm.toNat < 32)
    let k ← match w.imm.toNat % 4 with
      | 1 => Except.ok FenceKind.acq
      | 2 => .ok .rel
      | 3 => .ok .full
      | _ => .error (.illop 6)
    return .fence (hd w) k (w.imm.extractLsb' 2 3).toFin
  | 5 => do
    formR w; tyIs w .n32; hn0 w; dstNone w; nul w.sc
    lit (w.sd.extractLsb' 0 4 == 0#4)
    let a ← src w.sa
    let b ← src w.sb
    return .cntdec (hd w) a b (scope w)
  | 6 => do
    formR w; tyIs w .n32; hn0 w; dstRowVN w; nul w.sc
    lit (w.sd.extractLsb' 0 4 == 0#4)
    let d ← dstOp w
    let a ← src w.sa
    let b ← src w.sb
    return .bararv (hd w) d a b (scope w)
  | _ => do
    formR w; tyIs w .n32; hn0 w; dstRowVQ w
    lit (w.sd.extractLsb' 0 4 == 0#4)
    let d ← dstOp w
    let a ← src w.sa
    let b ← src w.sb
    let c ← src w.sc
    return .barwt (hd w) d a b c (scope w)

def winOk (v : BitVec 16) : Bool := decide (v.toNat < 16)

/-- CPY group (R135). -/
def cpyG (w : Fields) (fn : Nat) : Except DecodeError Instr := do
  match fn with
  | 0 => do
    formR w; tyIs w .b32; dstNone w; nul w.sd
    rsv (w.sc.extractLsb' 0 3 == 0#3)
    let z ← match (w.sc.extractLsb' 5 2).toNat with
      | 0 => Except.ok CpySize.b4
      | 1 => .ok .b8
      | 2 => .ok .b16
      | _ => .error (.illop 6)
    let a ← src w.sa
    let b ← src w.sb
    return .cpy (hd w) (Hint.ofCode w.hn) a b z (w.sc.getLsbD 4) (w.sc.getLsbD 3)
  | 1 => do
    formR w; tyIs w .b32; hn0 w; dstQueue w 115
    let a ← src w.sa
    let b ← src w.sb
    let c ← src w.sc
    let e ← srcOpt w.sd
    return .cpyb (hd w) a b c e
  | 2 => do
    formR w; tyIs w .b32; hn0 w; dstQueue w 115
    let a ← src w.sa
    let b ← src w.sb
    let c ← src w.sc
    let e ← srcOpt w.sd
    return .cploop (hd w) a b c e
  | 3 => do
    formRI w; tyIs w .n32
    row (!w.hn.getLsbD 1)
    dstRowV w
    (if w.f then nul w.sa else (do nul w.sb; nul w.sc; nul w.sd))
    lit (!w.f || w.imm == 0#16 || (decide (0x10 ≤ w.imm.toNat) && decide (w.imm.toNat < 0x30)))
    let d ← dstOp w
    let a ← saI w
    return .cpstat (hd w) (w.hn.getLsbD 0) d a
  | 4 => do
    formR w; tyIs w .b32; hn0 w; dstNone w; nul w.sd
    let a ← src w.sa
    let b ← src w.sb
    let c ← src w.sc
    return .gmap (hd w) a b c
  | 5 => only1I w .b32 winOk .gunmap
  | 6 => only1I w .b32 winOk .gflush
  | 7 => only1I w .b32 winOk .ginv
  | 8 => do
    formRI w; tyIs w .b32
    row (!w.hn.getLsbD 1)
    dstNone w
    (if w.f then nul w.sa else (do nul w.sb; nul w.sc; nul w.sd))
    let a ← saI w
    return (if w.hn.getLsbD 0 then .ringcfgOff (hd w) a else .ringcfg (hd w) a)
  | 9 => only1I w .b32 winOk .rrel
  | _ => only1I w .b32 (fun v => v &&& 0x7EF0#16 == 0#16) .stbind

/-- MTX group (R253). -/
def mtxG (w : Fields) (fn : Nat) : Except DecodeError Instr := do
  match fn with
  | 0 => do
    formR w
    let t ← tyIn w ElemTy.inWeight
    row (!w.hn.getLsbD 1)
    dstQueue w 113; nul w.sb; nul w.sc
    rsv (w.sd.extractLsb' 3 4 == 0#4)
    lit ((t == .bfp) == ((w.sd.extractLsb' 0 3).toFin != 0))
    let a ← srcNoQ w.sa
    return .mwld (hd w) t (w.hn.getLsbD 0) a (w.sd.extractLsb' 0 3).toFin
  | 1 => mtx w .mwswap
  | 2 => do
    formR w
    match w.hn.toNat with
    | 0 => do
      let t ← tyIn w ElemTy.inAct
      dstQueue w 113
      let a ← srcNoQ w.sa
      let b ← srcNoQ w.sb
      let c ← srcNoQ w.sc
      let e ← srcNoQ w.sd
      return .mloop (hd w) t a b c e
    | 1 => do tyIs w .b32; dstNone w; nul w.sa; nul w.sb; nul w.sc; nul w.sd; return .mloopResume (hd w)
    | 2 => do tyIs w .b32; dstNone w; nul w.sa; nul w.sb; nul w.sc; nul w.sd; return .mloopAbort (hd w)
    | _ => .error (.illop 3)
  | 3 => do
    formR w; tyIs w .b32; hn0 w; dstQueue w 113; nul w.sc; nul w.sd
    let a ← srcNoQ w.sa
    let b ← srcNoQ w.sb
    return .maccld (hd w) a b
  | 4 => do
    formR w; tyIs w .b32; hn0 w; dstQueue w 113; nul w.sc; nul w.sd
    let a ← srcNoQ w.sa
    let b ← srcNoQ w.sb
    return .maccst (hd w) a b
  | 5 => do
    formR w; tyIs w .b32; hn0 w; dstQueue w 113; nul w.sd
    let a ← srcNoQ w.sa
    let b ← srcNoQ w.sb
    let c ← srcNoQ w.sc
    return .mdrain (hd w) a b c
  | 6 => do
    formR w; tyIs w .b32; hn0 w; dstQueue w 113; nul w.sd
    let a ← srcNoQ w.sa
    let b ← srcNoQ w.sb
    let c ← srcNoQ w.sc
    return .mepi (hd w) a b c
  | 7 => bare w .b32 .mwait
  | 8 => mtx w .mzero
  | _ => do
    formI w; tyIs w .n32; hn0 w; dstRowV w; nul w.sa
    if h : w.imm.toNat < 3 then
      let d ← dstOp w
      return .mstat (hd w) d ⟨w.imm.toNat, h⟩
    .error (.illop 6)

def idOk (v : BitVec 16) : Bool := decide (v.toNat < 64)

/-- TSK group (R319, R344, R364). -/
def tsk (w : Fields) (fn : Nat) : Except DecodeError Instr := do
  match fn with
  | 0 => only1I w .n32 idOk .tjoin
  | 1 => only1I w .n32 idOk .tleave
  | 2 => only1I w .n32 idOk .tbar
  | 3 => bare w .b32 .gbar
  | 4 => only1 w .b32 .tsubmit
  | 5 => do
    formR w; tyIs w .n32; hn0 w; dstRowVN w; nul w.sc; nul w.sd
    let d ← dstOp w
    let a ← src w.sa
    let b ← src w.sb
    return .tdepadd (hd w) d a b
  | 6 => do
    formR w; tyIs w .n64; hn0 w; dstNone w; nul w.sd
    let a ← src w.sa
    let b ← src w.sb
    let c ← src w.sc
    return .tsignal (hd w) a b c
  | 7 => do
    formI w; tyIs w .n64; hn0 w; dstRowV w; nul w.sa
    if h : w.imm.toNat < 5 then
      let d ← dstOp w
      return .tself (hd w) d ⟨w.imm.toNat, h⟩
    .error (.illop 6)
  | 8 => do
    formR w; tyIs w .n64; hn0 w; dstRowV w; nul w.sc; nul w.sd
    let d ← dstOp w
    let a ← src w.sa
    let b ← src w.sb
    return .cvswap (hd w) d a b
  | 9 => do
    formR w; tyIs w .b32; hn0 w; dstNone w; nul w.sc; nul w.sd
    let a ← src w.sa
    let b ← src w.sb
    return .lstart (hd w) a b
  | 10 => do
    formR w; tyIs w .n32; hn0 w; dstNone w; nul w.sc; nul w.sd
    if w.sb == 127#7 then
      let a ← src w.sa
      return .lesc (hd w) a none
    let s ← nameRow w.sb
    let a ← src w.sa
    return .lesc (hd w) a (some s)
  | 11 => only1 w .n32 .lres
  | 12 => do
    formI w; tyIs w .n32; hn0 w; dstRowV w; nul w.sa
    if h : w.imm.toNat < 32 then
      let d ← dstOp w
      return .lframe (hd w) d ⟨w.imm.toNat, h⟩
    .error (.illop 6)
  | _ => do
    formI w; tyIs w .n64; hn0 w; dstRowV w; nul w.sa
    if h : w.imm.toNat < 7 then
      let d ← dstOp w
      return .lstat (hd w) d ⟨w.imm.toNat, h⟩
    .error (.illop 6)

/-- SYS group (R387, R395). -/
def sys (w : Fields) (fn : Nat) : Except DecodeError Instr := do
  match fn with
  | 0 => do formI w; tyIs w .b32; hn0 w; dstNone w; nul w.sa; return .trap (hd w) w.imm
  | 1 => bare w .b32 .eret
  | 2 => do
    formRI w
    let t ← tyIn w ElemTy.inN
    hn0 w; dstRowV w
    (if w.f then nul w.sa else (do nul w.sb; nul w.sc; nul w.sd))
    lit (!w.f || decide (w.imm.toNat ≤ 0x1B))
    let d ← dstOp w
    let i ← saI w
    return .sysrd (hd w) (t == .n64) d i
  | 3 => do
    formRI w
    let t ← tyIn w ElemTy.inN
    hn0 w; dstNone w; nulSC w; nulSD w
    lit (!w.f || decide (w.imm.toNat ≤ 0x1B))
    let a ← src w.sa
    let i ← sbI w
    return .syswr (hd w) (t == .n64) a i
  | 4 => do
    formR w; tyIs w .b32
    row (!w.hn.getLsbD 1)
    dstNone w; nul w.sc; nul w.sd
    if w.hn.getLsbD 0 then
      nul w.sa; nul w.sb
      return .icinv (hd w) none
    let a ← src w.sa
    let b ← src w.sb
    return .icinv (hd w) (some (a, b))
  | 5 => do
    formR w; tyIs w .n32; hn0 w; dstRowV w; nul w.sa; nul w.sb; nul w.sc; nul w.sd
    let d ← dstOp w
    return .ppoll (hd w) d
  | _ => do formI w; tyIs w .b32; hn0 w; dstNone w; nul w.sa; return .bkpt (hd w) w.imm

/-- The fields of an assigned word as an instruction. -/
def fields (w : Fields) : Except DecodeError Instr :=
  let fn := w.opc.toNat % 32
  if !opcAssigned w.opc then .error (.illop 1)
  else match w.opc.toNat / 32 with
    | 0 => ctl w fn
    | 1 => int w fn
    | 2 => bit w fn
    | 3 => prd w fn
    | 4 => flt w fn
    | 5 => cvtG w fn
    | 6 => sfuG w fn
    | 7 => xln w fn
    | 8 => cel w fn
    | 9 => mem w fn
    | 10 => atm w fn
    | 11 => cpyG w fn
    | 12 => mtxG w fn
    | 13 => tsk w fn
    | _ => sys w fn

end Dec

/-- The instruction a 64-bit word encodes, or the decode fault it takes (R63, R67). The checks that need the clause (R55, R56)
are made by `decodeIn`. -/
def decode (x : W64) : Except DecodeError Instr := Dec.fields (Fields.unpack x)

/-- R63: the word in a clause of engine `eng`, with `last` set for the clause's last word; the checks in R63's order. -/
def decodeIn (eng : Nat) (last : Bool) (x : W64) : Except DecodeError Instr :=
  let w := Fields.unpack x
  if !opcAssigned w.opc then .error (.illop 1)
  else if !engAdmits eng w.opc last then .error (.illop 4)
  else if opcTransfer w.opc && !last then .error (.illop 5)
  else decode x


/-! ## The clause header (R52, R53, R54) -/

/-- The fields of a clause header (R53). -/
structure Header where
  eng : Nat
  cnt : Nat
  wait : BitVec 12
  seta : Nat
  setb : Nat
  dist : Nat
  notch : Bool
  spo : BitVec 16
  live : Nat
deriving DecidableEq, Repr

namespace Header

/-- XOR of the nibbles of the top `n` nibbles above bit 3 (R53, CHK). -/
def xorNibbles (x : W64) : Nat → BitVec 4
  | 0 => 0#4
  | n + 1 => x.extractLsb' (4 * (n + 1)) 4 ^^^ xorNibbles x n

def chkOf (x : W64) : BitVec 4 := xorNibbles x 15

/-- The header in a word, unchecked. -/
def unpack (x : W64) : Header where
  eng := (x.extractLsb' 57 3).toNat
  cnt := (x.extractLsb' 53 4).toNat
  wait := x.extractLsb' 41 12
  seta := (x.extractLsb' 37 4).toNat
  setb := (x.extractLsb' 33 4).toNat
  dist := (x.extractLsb' 29 4).toNat
  notch := x.getLsbD 28
  spo := x.extractLsb' 12 16
  live := (x.extractLsb' 8 4).toNat

/-- The checks of R53 in the order of its table; an error is the sub-code of CHK (R54, R372). -/
def check (x : W64) : Option Nat :=
  let h := unpack x
  if x.extractLsb' 60 4 != 0xA#4 then some 1
  else if h.eng == 7 then some 2
  else if (decide (12 ≤ h.seta) && decide (h.seta ≤ 14)) || (decide (12 ≤ h.setb) && decide (h.setb ≤ 14)) then some 3
  else if !h.notch && (h.spo != 0#16 || h.live != 0) then some 4
  else if x.extractLsb' 4 4 != 0#4 then some 5
  else if x.extractLsb' 0 4 != chkOf x then some 6
  else none

/-- The word of a header, with its KIND and its CHK (R53). -/
def pack (h : Header) : W64 :=
  let up : BitVec 60 := 0xA#4 ++ BitVec.ofNat 3 h.eng ++ BitVec.ofNat 4 h.cnt ++ h.wait ++ BitVec.ofNat 4 h.seta
    ++ BitVec.ofNat 4 h.setb ++ BitVec.ofNat 4 h.dist ++ BitVec.ofBool h.notch ++ h.spo ++ BitVec.ofNat 4 h.live ++ 0#4
  let x : W64 := up ++ 0#4
  x ||| (chkOf x).zeroExtend 64

end Header

/-! ## The encoder (R61, R64, R65, R75) -/

namespace Src

def code : Src → BitVec 7
  | .val n => BitVec.ofNat 7 n.val
  | .pop .mxo => 114 | .pop .cps => 116 | .pop .hof => 117 | .pop .st0 => 118 | .pop .st1 => 119
  | .spec .zero => 120 | .spec .lane => 121 | .spec .tid => 122 | .spec .rank => 123 | .spec .tsize => 124
  | .spec .gang => 125 | .spec .item => 126

end Src

namespace Enc

/-- DST and RDC of a word (R63, R65). -/
def dst : Dst → BitVec 7 × BitVec 4
  | .val n k => (BitVec.ofNat 7 n.val, k)
  | .push .mxa => (112, 1)
  | .push .mxc => (113, 1)
  | .push .cpc => (115, 1)
  | .nul => (127, 0)

def nd : BitVec 7 × BitVec 4 := (127, 0)
def name (n : VName) (k : BitVec 4) : BitVec 7 × BitVec 4 := (BitVec.ofNat 7 n.val, k)
def pname (p : PName) : BitVec 7 × BitVec 4 := (BitVec.ofNat 7 p.val, 0)
def nulF : BitVec 7 := 127
def opt : Option Src → BitVec 7
  | none => 127
  | some a => a.code
def pr (p : Pred) : BitVec 7 := (0 : BitVec 3) ++ p.toBits
def b1 (b : Bool) : BitVec 2 := (0 : BitVec 1) ++ BitVec.ofBool b
def b2 (hi lo : Bool) : BitVec 2 := BitVec.ofBool hi ++ BitVec.ofBool lo
def f7 (n : Nat) : BitVec 7 := BitVec.ofNat 7 n

/-- A word in the register form. -/
def rf (opc : BitVec 9) (h : Hd) (ty : ElemTy) (hn : BitVec 2) (d : BitVec 7 × BitVec 4) (sa sb sc sd : BitVec 7) : W64 :=
  Fields.pack { opc := opc, f := false, ga := h.ga.toBits, gb := h.gb.toBits, ty := ty.code, hn := hn, y := h.y,
                dst := d.1, rdc := d.2, sa := sa, low := sb ++ sc ++ sd }

/-- A word in the immediate form: bits [20:16] zero (R63, R64). -/
def im (opc : BitVec 9) (h : Hd) (ty : ElemTy) (hn : BitVec 2) (d : BitVec 7 × BitVec 4) (sa : BitVec 7) (v : BitVec 16) : W64 :=
  Fields.pack { opc := opc, f := true, ga := h.ga.toBits, gb := h.gb.toBits, ty := ty.code, hn := hn, y := h.y,
                dst := d.1, rdc := d.2, sa := sa, low := (0 : BitVec 5) ++ v }

/-- SA, and SB or IMM16. -/
def rIm (opc : BitVec 9) (h : Hd) (ty : ElemTy) (hn : BitVec 2) (d : BitVec 7 × BitVec 4) (a : Src) : SrcI → W64
  | .reg b => rf opc h ty hn d a.code b.code nulF nulF
  | .imm v => im opc h ty hn d a.code v

/-- SA or IMM16 alone. -/
def sIm (opc : BitVec 9) (h : Hd) (ty : ElemTy) (hn : BitVec 2) (d : BitVec 7 × BitVec 4) : SrcI → W64
  | .reg a => rf opc h ty hn d a.code nulF nulF nulF
  | .imm v => im opc h ty hn d nulF v

/-- Register form with one, two or three sources. -/
def s0 (opc : BitVec 9) (h : Hd) (ty : ElemTy) (d : BitVec 7 × BitVec 4) : W64 := rf opc h ty 0 d nulF nulF nulF nulF
def s1 (opc : BitVec 9) (h : Hd) (ty : ElemTy) (hn : BitVec 2) (d : BitVec 7 × BitVec 4) (a : Src) : W64 :=
  rf opc h ty hn d a.code nulF nulF nulF
def s2 (opc : BitVec 9) (h : Hd) (ty : ElemTy) (hn : BitVec 2) (d : BitVec 7 × BitVec 4) (a b : Src) : W64 :=
  rf opc h ty hn d a.code b.code nulF nulF
def s3 (opc : BitVec 9) (h : Hd) (ty : ElemTy) (hn : BitVec 2) (d : BitVec 7 × BitVec 4) (a b c : Src) : W64 :=
  rf opc h ty hn d a.code b.code c.code nulF

/-- The memory operand with its literal (R146, R147). -/
def mem (opc : BitVec 9) (h : Hd) (ty : ElemTy) (hn : BitVec 2) (d : BitVec 7 × BitVec 4) (m : MemAddr) (sc : BitVec 7)
    (cnt : Fin 64) : W64 :=
  match m with
  | .reg a b scl => rf opc h ty hn d a.code b.code sc (BitVec.ofBool scl ++ (BitVec.ofFin cnt : BitVec 6))
  | .imm a v => im opc h ty hn d a.code v

/-- A store's register form (R145). -/
def store (opc : BitVec 9) (h : Hd) (ty : ElemTy) (hn : BitVec 2) (a b : Src) (scl : Bool) (sc : BitVec 7) : W64 :=
  rf opc h ty hn nd a.code b.code sc (BitVec.ofBool scl ++ (0 : BitVec 6))

/-- The ATM literal (R158). -/
def atm (sc : Fin 8) (op : Nat) : BitVec 7 := (BitVec.ofFin sc : BitVec 3) ++ BitVec.ofNat 4 op

def icmp : ICmp → Nat
  | .eq => 0 | .ne => 1 | .lt => 2 | .le => 3 | .gt => 4 | .ge => 5
/-- The comparison of ISETP's immediate form stands in HN. -/
def icmpHn : ICmp → BitVec 2
  | .eq => 0 | .ne => 1 | .lt => 2 | _ => 3
def fcmp : FCmp → Nat
  | .eq => 0 | .ne => 1 | .lt => 2 | .le => 3 | .gt => 4 | .ge => 5 | .num => 6
  | .equ => 8 | .neu => 9 | .ltu => 10 | .leu => 11 | .gtu => 12 | .geu => 13 | .nan => 14
def combHn : Combine → BitVec 2
  | .none => 0 | .and _ => 1 | .or _ => 2 | .xor _ => 3
def combSc : Combine → BitVec 7
  | .none => nulF
  | .and p | .or p | .xor p => pr p
def cvt (l : CvtLit) : BitVec 7 := (BitVec.ofFin l.sel : BitVec 2) ++ BitVec.ofBool l.sat ++ l.sty.code
def redOp : RedOp → Nat
  | .add => 0 | .min => 1 | .max => 2 | .and => 3 | .or => 4 | .xor => 5
def xmode : XMode → BitVec 2
  | .idx => 0 | .up => 1 | .down => 2
def atomOp : AtomOp → Nat
  | .add => 0 | .min => 1 | .max => 2 | .and => 3 | .or => 4 | .xor => 5 | .exch => 6 | .fadd => 7
def awaitCond : AwaitCond → Nat
  | .eq => 0 | .ne => 1 | .ge => 2 | .lt => 3 | .any => 4 | .none => 5
def fenceKind : FenceKind → BitVec 2
  | .acq => 1 | .rel => 2 | .full => 3
def cpySize : CpySize → BitVec 2
  | .b4 => 0 | .b8 => 1 | .b16 => 2

end Enc


open Enc in
/-- The word of an instruction, written from the same tables as the decoder (R75 and each group's field table); none for an event,
which has no encoding. -/
def encode : Instr → Option W64
  | .nop h => some (s0 0x000 h .b32 nd)
  | .bra h off => some (im 0x001 h .b32 0 nd nulF off)
  | .brx h a => some (s1 0x002 h .n64 0 nd a)
  | .call h d k off => some (im 0x003 h .n64 0 (name d k) nulF off)
  | .callx h d k a => some (s1 0x004 h .n64 0 (name d k) a)
  | .ret h a => some (s1 0x005 h .n64 0 nd a)
  | .exit h => some (s0 0x006 h .b32 nd)
  | .waitf h m => some (im 0x007 h .b32 0 nd nulF ((0 : BitVec 4) ++ m))
  | .nap h n => some (im 0x008 h .b32 0 nd nulF n)
  | .iadd h t d a b => some (rIm 0x020 h t 0 (dst d) a b)
  | .isub h t d a b => some (rIm 0x021 h t 0 (dst d) a b)
  | .imul h t d a b => some (rIm 0x022 h t 0 (dst d) a b)
  | .imulhi h t d a b => some (rIm 0x023 h t 0 (dst d) a b)
  | .imad h t d a b c => some (s3 0x024 h t 0 (dst d) a b c)
  | .imadw h t d a b c => some (s3 0x025 h t 0 (dst d) a b c)
  | .iaddc h t d a b ci co => some (rf 0x026 h t 0 (dst d) a.code b.code (pr ci) (f7 co.val))
  | .isubb h t d a b ci co => some (rf 0x027 h t 0 (dst d) a.code b.code (pr ci) (f7 co.val))
  | .imin h t d a b => some (rIm 0x028 h t 0 (dst d) a b)
  | .imax h t d a b => some (rIm 0x029 h t 0 (dst d) a b)
  | .iabs h t d a => some (s1 0x02A h t 0 (dst d) a)
  | .ineg h t d a => some (s1 0x02B h t 0 (dst d) a)
  | .isad h t d a b c => some (s3 0x02C h t 0 (dst d) a b c)
  | .idot4 h x y d a b c => some (s3 0x02D h .s32 (b2 x y) (dst d) a b c)
  | .idot8 h x y d a b c => some (s3 0x02E h .s32 (b2 x y) (dst d) a b c)
  | .lea h d a (.reg i sh sx) =>
    some (rf 0x02F h .n64 0 (dst d) a.code i.code nulF ((0 : BitVec 3) ++ BitVec.ofBool sx ++ (BitVec.ofFin sh : BitVec 3)))
  | .lea h d a (.imm v) => some (im 0x02F h .n64 0 (dst d) a.code v)
  | .iclamp h t d a b c => some (s3 0x030 h t 0 (dst d) a b c)
  | .and h t d a b => some (rIm 0x040 h t 0 (dst d) a b)
  | .or h t d a b => some (rIm 0x041 h t 0 (dst d) a b)
  | .xor h t d a b => some (rIm 0x042 h t 0 (dst d) a b)
  | .lop3 h t d a b c l =>
    some (rf 0x043 h t (b1 (l.getLsbD 7)) (dst d) a.code b.code c.code (l.extractLsb' 0 7))
  | .shl h t d a b => some (rIm 0x044 h t 0 (dst d) a b)
  | .shr h t d a b => some (rIm 0x045 h t 0 (dst d) a b)
  | .sar h t d a b => some (rIm 0x046 h t 0 (dst d) a b)
  | .rotl h t d a b => some (rIm 0x047 h t 0 (dst d) a b)
  | .fshf h t c r d a b m => some (s3 0x048 h t (b2 c r) (dst d) a b m)
  | .popc h t d a => some (s1 0x049 h t 0 (dst d) a)
  | .clz h t d a => some (s1 0x04A h t 0 (dst d) a)
  | .ctz h t d a => some (s1 0x04B h t 0 (dst d) a)
  | .brev h t d a => some (s1 0x04C h t 0 (dst d) a)
  | .bfx h t d a b => some (rIm 0x04D h t 0 (dst d) a b)
  | .bfi h t d a b c => some (s3 0x04E h t 0 (dst d) a b c)
  | .perm h d a b c => some (s3 0x04F h .b32 0 (dst d) a b c)
  | .isetp h t d a (.reg b c m) =>
    some (rf 0x060 h t (combHn m) (pname d) a.code b.code (combSc m) (f7 (icmp c)))
  | .isetp h t d a (.imm v c) => some (im 0x060 h t (icmpHn c) (pname d) a.code v)
  | .fsetp h t d a b c m =>
    some (rf 0x061 h t (combHn m) (pname d) a.code b.code (combSc m) (f7 (fcmp c)))
  | .plop h d p q r l => some (rf 0x062 h .b32 (b1 (l.getLsbD 7)) (pname d) (pr p) (pr q) (pr r) (l.extractLsb' 0 7))
  | .sel h t d a b p => some (rf 0x063 h t 0 (dst d) a.code b.code (pr p) nulF)
  | .p2v h d => some (s0 0x064 h .n32 (dst d))
  | .v2p h a m => some (rIm 0x065 h .b32 0 nd a m)
  | .fadd h t r d a b => some (rIm 0x080 h t r.code (dst d) a b)
  | .fsub h t r d a b => some (rIm 0x081 h t r.code (dst d) a b)
  | .fmul h t r d a b => some (rIm 0x082 h t r.code (dst d) a b)
  | .ffma h t r d a b c => some (s3 0x083 h t r.code (dst d) a b c)
  | .fmin h t n d a b => some (rIm 0x084 h t (b1 n) (dst d) a b)
  | .fmax h t n d a b => some (rIm 0x085 h t (b1 n) (dst d) a b)
  | .frnd h t r d a => some (s1 0x086 h t r.code (dst d) a)
  | .fscale h t r d a n => some (s2 0x087 h t r.code (dst d) a n)
  | .fclass h t d a => some (s1 0x088 h t 0 (dst d) a)
  | .fdot2 h t r d a b c => some (s3 0x089 h t r.code (dst d) a b c)
  | .cvt h t r d a l => some (rf 0x0A0 h t r.code (dst d) a.code nulF nulF (cvt l))
  | .cvtpk h t r d a b l => some (rf 0x0A1 h t r.code (dst d) a.code b.code nulF (cvt l))
  | .cvt8pk h t r d a b c l => some (rf 0x0A2 h t r.code (dst d) a.code b.code (opt c) (cvt l))
  | .cvtupk h t r d a l => some (rf 0x0A3 h t r.code (dst d) a.code nulF nulF (cvt l))
  | .qblk h t r d a b c w => some (rf 0x0A4 h t r.code (dst d) a.code b.code c.code (f7 w.val))
  | .dqblk h t r d a b w => some (rf 0x0A5 h t r.code (dst d) a.code b.code nulF (f7 w.val))
  | .rcp h d a => some (s1 0x0C0 h .f32 0 (dst d) a)
  | .rsq h d a => some (s1 0x0C1 h .f32 0 (dst d) a)
  | .sqrt h d a => some (s1 0x0C2 h .f32 0 (dst d) a)
  | .exp2 h d a => some (s1 0x0C3 h .f32 0 (dst d) a)
  | .log2 h d a => some (s1 0x0C4 h .f32 0 (dst d) a)
  | .sinpi h d a => some (s1 0x0C5 h .f32 0 (dst d) a)
  | .cospi h d a => some (s1 0x0C6 h .f32 0 (dst d) a)
  | .tanh h d a => some (s1 0x0C7 h .f32 0 (dst d) a)
  | .rnd h d => some (s0 0x0C8 h .n32 (dst d))
  | .rndf h d => some (s0 0x0C9 h .f32 (dst d))
  | .xshf h t m d a b => some (rIm 0x0E0 h t (xmode m) (dst d) a b)
  | .xbfly h t d a b => some (rIm 0x0E1 h t 0 (dst d) a b)
  | .xbcast h t d a b => some (rIm 0x0E2 h t 0 (dst d) a b)
  | .redx h t d a op => some (rf 0x0E3 h t 0 (dst d) a.code nulF nulF (f7 (redOp op)))
  | .scanx h t d a op e =>
    some (rf 0x0E4 h t 0 (dst d) a.code nulF nulF ((0 : BitVec 3) ++ BitVec.ofBool e ++ BitVec.ofNat 3 (redOp op)))
  | .vote h (.all d) p => some (rf 0x0E5 h .b32 0 (pname d) (pr p) nulF nulF nulF)
  | .vote h (.any d) p => some (rf 0x0E5 h .b32 1 (pname d) (pr p) nulF nulF nulF)
  | .vote h (.uni d) p => some (rf 0x0E5 h .b32 2 (pname d) (pr p) nulF nulF nulF)
  | .vote h (.ballot d hi) p => some (rf 0x0E5 h .n64 3 (dst d) (pr p) nulF nulF ((0 : BitVec 6) ++ BitVec.ofBool hi))
  | .xmatch h w d a hi =>
    some (rf 0x0E6 h (if w then .n64 else .b32) 0 (dst d) a.code nulF nulF ((0 : BitVec 6) ++ BitVec.ofBool hi))
  | .elect h d => some (rf 0x0E7 h .b32 0 (pname d) nulF nulF nulF nulF)
  | .xcount h d .exec => some (rf 0x0E8 h .n32 0 (dst d) nulF nulF nulF nulF)
  | .xcount h d .below => some (rf 0x0E8 h .n32 1 (dst d) nulF nulF nulF nulF)
  | .xcount h d (.pred p) => some (rf 0x0E8 h .n32 2 (dst d) (pr p) nulF nulF nulF)
  | .xcount h d (.predBelow p) => some (rf 0x0E8 h .n32 3 (dst d) (pr p) nulF nulF nulF)
  | .mov h t d a => some (sIm 0x100 h t 0 (dst d) a)
  | .drop h a n => some (im 0x101 h .b32 0 nd (f7 a.val) ((0 : BitVec 12) ++ n))
  | .keep h a n => some (im 0x102 h .b32 0 nd (f7 a.val) ((0 : BitVec 12) ++ n))
  | .free h a => some (rf 0x103 h .b32 0 nd (f7 a.val) nulF nulF nulF)
  | .pair h t d a b => some (s2 0x104 h t 0 (dst d) a b)
  | .split h t d k a => some (s1 0x105 h t 0 (name d k) a)
  | .cellq h d (.state a) => some (rf 0x106 h .b32 0 (dst d) (f7 a.val) nulF nulF nulF)
  | .cellq h d (.pcl a) => some (rf 0x106 h .b32 1 (dst d) (f7 a.val) nulF nulF nulF)
  | .cellq h d (.pch a) => some (rf 0x106 h .b32 2 (dst d) (f7 a.val) nulF nulF nulF)
  | .cellq h d .lane => some (rf 0x106 h .b32 3 (dst d) nulF nulF nulF nulF)
  | .ld h t hint d m c => some (mem 0x120 h t hint.code (dst d) m nulF c)
  | .st h t hint a b scl c => some (store 0x121 h t hint.code a b scl c.code)
  | .lds h t k d m => some (mem 0x122 h t (b2 k k) (dst d) m nulF 0)
  | .sts h t a b scl c => some (store 0x123 h t 0 a b scl c.code)
  | .ldp h t d m => some (mem 0x124 h t 0 (dst d) m nulF 0)
  | .ldv h hint d k m c => some (mem 0x125 h .b32 hint.code (name d k) m nulF c)
  | .stv h hint a b scl c => some (store 0x126 h .b32 hint.code a b scl (f7 c.val))
  | .pfl h hint m c => some (mem 0x127 h .b32 hint.code nd m (opt c) 0)
  | .atom h t d a b op sc => some (rf 0x140 h t 0 (dst d) a.code b.code nulF (atm sc (atomOp op)))
  | .ared h t a b op sc => some (rf 0x141 h t 0 nd a.code b.code nulF (atm sc (atomOp op)))
  | .acas h t d a b c sc => some (rf 0x142 h t 0 (dst d) a.code b.code c.code (atm sc 0))
  | .await h t d a b c k sc => some (rf 0x143 h t 0 (dst d) a.code b.code c.code (atm sc (awaitCond k)))
  | .fence h k sc =>
    some (im 0x144 h .b32 0 nd nulF ((0 : BitVec 11) ++ (BitVec.ofFin sc : BitVec 3) ++ fenceKind k))
  | .cntdec h a b sc => some (rf 0x145 h .n32 0 nd a.code b.code nulF (atm sc 0))
  | .bararv h d a b sc => some (rf 0x146 h .n32 0 (dst d) a.code b.code nulF (atm sc 0))
  | .barwt h d a b c sc => some (rf 0x147 h .n32 0 (dst d) a.code b.code c.code (atm sc 0))
  | .cpy h hint a b z ss ds =>
    some (rf 0x160 h .b32 hint.code nd a.code b.code (cpySize z ++ BitVec.ofBool ss ++ BitVec.ofBool ds ++ (0 : BitVec 3)) nulF)
  | .cpyb h a b c e => some (rf 0x161 h .b32 0 (dst (.push .cpc)) a.code b.code c.code (opt e))
  | .cploop h a b c e => some (rf 0x162 h .b32 0 (dst (.push .cpc)) a.code b.code c.code (opt e))
  | .cpstat h w d i => some (sIm 0x163 h .n32 (b1 w) (dst d) i)
  | .gmap h a b c => some (s3 0x164 h .b32 0 nd a b c)
  | .gunmap h w => some (sIm 0x165 h .b32 0 nd w)
  | .gflush h w => some (sIm 0x166 h .b32 0 nd w)
  | .ginv h w => some (sIm 0x167 h .b32 0 nd w)
  | .ringcfg h w => some (sIm 0x168 h .b32 0 nd w)
  | .ringcfgOff h w => some (sIm 0x168 h .b32 1 nd w)
  | .rrel h w => some (sIm 0x169 h .b32 0 nd w)
  | .stbind h w => some (sIm 0x16A h .b32 0 nd w)
  | .mwld h t g a w => some (rf 0x180 h t (b1 g) (dst (.push .mxc)) a.code nulF nulF (f7 w.val))
  | .mwswap h => some (s0 0x181 h .b32 (dst (.push .mxc)))
  | .mloop h t a b c e => some (rf 0x182 h t 0 (dst (.push .mxc)) a.code b.code c.code e.code)
  | .mloopResume h => some (rf 0x182 h .b32 1 nd nulF nulF nulF nulF)
  | .mloopAbort h => some (rf 0x182 h .b32 2 nd nulF nulF nulF nulF)
  | .maccld h a m => some (s2 0x183 h .b32 0 (dst (.push .mxc)) a m)
  | .maccst h a m => some (s2 0x184 h .b32 0 (dst (.push .mxc)) a m)
  | .mdrain h a b m => some (s3 0x185 h .b32 0 (dst (.push .mxc)) a b m)
  | .mepi h a b c => some (s3 0x186 h .b32 0 (dst (.push .mxc)) a b c)
  | .mwait h => some (s0 0x187 h .b32 nd)
  | .mzero h => some (s0 0x188 h .b32 (dst (.push .mxc)))
  | .mstat h d i => some (im 0x189 h .n32 0 (dst d) nulF (BitVec.ofNat 16 i.val))
  | .tjoin h i => some (sIm 0x1A0 h .n32 0 nd i)
  | .tleave h i => some (sIm 0x1A1 h .n32 0 nd i)
  | .tbar h i => some (sIm 0x1A2 h .n32 0 nd i)
  | .gbar h => some (s0 0x1A3 h .b32 nd)
  | .tsubmit h a => some (s1 0x1A4 h .b32 0 nd a)
  | .tdepadd h d a b => some (s2 0x1A5 h .n32 0 (dst d) a b)
  | .tsignal h a b c => some (s3 0x1A6 h .n64 0 nd a b c)
  | .tself h d i => some (im 0x1A7 h .n64 0 (dst d) nulF (BitVec.ofNat 16 i.val))
  | .cvswap h d a b => some (s2 0x1A8 h .n64 0 (dst d) a b)
  | .lstart h a b => some (s2 0x1A9 h .b32 0 nd a b)
  | .lesc h a none => some (rf 0x1AA h .n32 0 nd a.code nulF nulF nulF)
  | .lesc h a (some n) => some (rf 0x1AA h .n32 0 nd a.code (f7 n.val) nulF nulF)
  | .lres h a => some (s1 0x1AB h .n32 0 nd a)
  | .lframe h d i => some (im 0x1AC h .n32 0 (dst d) nulF (BitVec.ofNat 16 i.val))
  | .lstat h d i => some (im 0x1AD h .n64 0 (dst d) nulF (BitVec.ofNat 16 i.val))
  | .trap h c => some (im 0x1C0 h .b32 0 nd nulF c)
  | .eret h => some (s0 0x1C1 h .b32 nd)
  | .sysrd h w d i => some (sIm 0x1C2 h (if w then .n64 else .n32) 0 (dst d) i)
  | .syswr h w a i => some (rIm 0x1C3 h (if w then .n64 else .n32) 0 nd a i)
  | .icinv h none => some (rf 0x1C4 h .b32 1 nd nulF nulF nulF nulF)
  | .icinv h (some (a, b)) => some (s2 0x1C4 h .b32 0 nd a b)
  | .ppoll h d => some (s0 0x1C5 h .n32 (dst d))
  | .bkpt h t => some (im 0x1C6 h .b32 0 nd nulF t)
  | _ => none

/-- The eight bytes of a word, lowest address first (R3, R52). -/
def wordBytes (x : W64) : List Byte :=
  (List.range 8).map (fun i => x.extractLsb' (8 * i) 8)

/-- The word of the first eight bytes, lowest address first (R3, R52). -/
def wordOfBytes (l : List Byte) : W64 :=
  l.foldr (fun b acc => (acc <<< 8) ||| b.zeroExtend 64) 0#64

/-- The instruction that the decoder reads from a word whose bits are `w` (numbered with bit 0 the least significant bit of the
64-bit word, R61); none where it is rejected. -/
def decodeTableWord (nbits w : Nat) : Option Instr :=
  match decode (wordOfBytes (wordBytes (BitVec.ofNat 64 (w % 2 ^ nbits)))) with
  | .ok i => some i
  | .error _ => none

end Sys2Proof
end

