-- ==== Sys2Proof/Machine/State.lean ====
section
/-! DEFINITION. The state of the device, all of it plain data: threads, rows, gangs and teams, cores with their caches, Glen, copy
engine and matrix array, contexts, tasks and ladders, memory, format windows, and the registers of the control window. Machine.State.reset is the
device right after PERST# (R428): every field at the value that its rule gives, and the rest as log entry 5 names. -/

namespace Sys2Proof.Machine

/-- The reasons for which a step stops. -/
inductive Fault where
  /-- Raised by the meaning of an instruction word when no issue group is in progress for it to act for (`State.focus` is none or
  names no running clause). A word issues only for a group (R293), so the spec gives it no effect then. Safe. -/
  | noGroup
deriving DecidableEq, Repr

/-- The refusals. -/
inductive Refusal where
  /-- Answered by an arm of exec whose instruction has no meaning yet. Safe. -/
  | notModelled (mnemonic : String)
deriving DecidableEq, Repr

/-! ## Threads -/

/-- One binding of a name (R170): its value (the first cell in [31:0]), width, remaining count (15 = sticky), the token of the
result it waits for (the pending mark, R71), and the producer tag (R70). -/
structure Binding where
  value : W64
  wide : Bool
  count : BitVec 4
  pend : Option Nat
  prod : W64
deriving DecidableEq, Repr

/-- A fixed-latency result in flight (R72, R73): due at clk `due`. `late` is trusted mode: the names are bound and the predicates
written at that clk; in interlocked mode the pending bindings receive their values then. `cvt` sets FMTRSV.CVT (R31). -/
structure InFlight where
  tok : Nat
  due : Nat
  late : Bool
  names : List (Nat × Binding)
  preds : List (Nat × Bool)
  cvt : Bool
deriving DecidableEq, Repr

/-- Where a fault of a thread resumes and what it says (R374, R386). -/
structure TrapRegs where
  epc : W64
  code : Nat
  sub : Nat
  inmask : Bool
  defer : Bool
  rpl : Bool
  hdr : Bool
  th : Bool
  src : Nat
  ord : BitVec 16
  addr : W64
  lanes : W64
  lanesH : W64
deriving DecidableEq, Repr

/-- The words of a clause in progress (R52): the header's address, its fields, the words as fetched, the next word's index. -/
structure Clause where
  addr : W64
  hdr : Header
  words : List W64
  idx : Nat
deriving DecidableEq, Repr

/-- A replay set (R375): the values the word read and popped, in the order it read them, and its guard outcome. -/
structure Replay where
  vals : List W64
  guard : Bool
deriving DecidableEq, Repr

/-- Where a pending deferred fault is taken (R373): the next CPY word, the next MTX word or word that names an array queue, or the next
MEM or ATM word; each also at the next notch. -/
inductive Due where
  | cpy | mtx | mem
deriving DecidableEq, Repr

/-- A pending deferred fault (R373). -/
structure Deferred where
  code : Nat
  sub : Nat
  addr : W64
  src : Nat
  due : Due
  /-- the clk at which it arose -/
  since : Nat
  /-- its address is virtual, not a stash address (R424) -/
  va : Bool
deriving DecidableEq, Repr

/-- A barrier at which a thread has arrived and waits (R316, R317). -/
inductive Bar where
  | team (id : Nat)
  | gang
deriving DecidableEq, Repr

/-- A thread blocked on allocation (R180): since which clk, whether the cap refuses it, how many cells it needs, and whether the arbiter has begun to act for
it (R181). -/
structure Blocked where
  since : Nat
  cap : Bool
  need : Nat
  arb : Bool
deriving DecidableEq, Repr

/-- A rung thread's place in its ladder (R353 to R356). -/
structure Rung where
  task : Nat
  rung : Nat
  item : W32
  seq : W32
  frame : List W32
deriving DecidableEq, Repr

/-- The record of a halted thread as a debugger sees and edits it (R401, R403), with the CMD that it has written and the device has not yet taken. -/
structure Edit where
  cmd : Nat
  names : List (Nat × Binding)
  preds : BitVec 8
  draw : W64
  pc : W64
deriving DecidableEq, Repr

/-- One thread, from launch to the end of its last effect (R288). -/
structure Thread where
  /-- launch sequence (R178) -/
  id : Nat
  core : Nat
  slot : Nat
  lane : Nat
  ctx : Nat
  task : Nat
  gang : Nat
  tid : Nat
  pc : W64
  /-- the clause and word at which the thread stopped, and whether that word has issued (R183, R307, R381) -/
  resume : Option (Clause × Bool)
  names : List (Nat × Binding)
  flight : List InFlight
  /-- cells of pending bindings freed before their value arrived: (token, cells) (R173) -/
  zombies : List (Nat × Nat)
  preds : BitVec 8
  /-- predicates that wait for a result: (predicate, token) -/
  predPend : List (Nat × Nat)
  flags : List Nat
  draw : W64
  /-- logical clock and leased loads in a row (R277, R279) -/
  lclock : Nat
  leased : Nat
  /-- the latest time that its acquires have handed to it (R272; log entry 56) -/
  floor : Nat
  teams : BitVec 64
  curTeam : Option Nat
  rank : W32
  tsize : W32
  trap : TrapRegs
  /-- the clause and word that EPC names, where HDR = 0 (R374, R381) -/
  faultAt : Option Clause
  replay : Option Replay
  deferred : List Deferred
  /-- pending stop reasons (R393) -/
  stops : BitVec 8
  tag : BitVec 16
  /-- halted for debug with its recorded reasons and the ordinal of the notch (R393, R401) -/
  halted : Option (BitVec 8 × BitVec 16)
  /-- a stop is due at the notch where the thread stands, and it waits for its values first (R393, R166) -/
  halting : Bool
  /-- the next header is passed without stop or breakpoint (R403) -/
  passHdr : Bool
  edit : Option Edit
  lastOrd : BitVec 16
  parked : Bool
  /-- parked into a footprint of the spill quota (R182) -/
  spilled : Bool
  /-- stopped at a notch or a word for a pre-emption (R307) -/
  stopped : Bool
  /-- the thread has exited and waits for its accesses (R310) -/
  exited : Bool
  nap : Option Nat
  bar : Option (Bar × Bool)
  blocked : Option Blocked
  quotaDue : Bool
  /-- cells that evictions hold for this thread's blocked word (R181) -/
  heldFor : Nat
  /-- the arbiter has chosen this thread as a victim for the blocked thread named; it waits for its values (R182) -/
  victimOf : Option Nat
  /-- windows on which a waiting stream read stands: (register, window) (R144) -/
  streamWait : List (Nat × Nat)
  mxo : List W32
  cps : List W64
  cpsLost : Bool
  /-- hof cells not yet popped (R354) -/
  hof : List W32
  rung : Option Rung
  /-- clk and address of the last word of its previous clause (R57) -/
  prevEnd : Option (Nat × W64)
deriving DecidableEq, Repr

/-- One cell of a queue entry (R149, R238): its lane, its value, and the token it still waits for. -/
structure QCell where
  lane : Nat
  val : W32
  pend : Option Nat
deriving DecidableEq, Repr

/-- A row with a live thread (R14): its mxa entries (R238) and stream bindings (R123, R144). -/
structure Row where
  core : Nat
  slot : Nat
  gang : Nat
  mxa : List (List QCell)
  st0 : Option Nat
  st1 : Option Nat
deriving DecidableEq, Repr

/-! ## Gangs, teams and windows -/

/-- A team (R313): members, arrivals of the phase, urgency, the clks of the phase's first and last arrivals (R301), and the member count at its last
completion (R291). -/
structure Team where
  id : Nat
  size : Nat
  members : List Nat
  arrived : List Nat
  urgency : Nat
  firstAt : Nat
  lastAt : Nat
deriving DecidableEq, Repr

/-- The state of a ring stage (R121), with its counted reads left (R120). -/
inductive Stage where
  | free | filling | filled
  | used (left : Nat)
  | done
deriving DecidableEq, Repr

/-- A ring (R121, R125). -/
structure Ring where
  rc : Nat
  ss : Nat
  stages : List Stage
  fptr : Nat
  pptr : Nat
  rptr : Nat
  /-- the copy command that holds the producer side (R122) -/
  holder : Option Nat
deriving DecidableEq, Repr

/-- A slot of a mapped window (R115, R116): the granule it holds with its physical address, and its dirty bytes. -/
structure MapSlot where
  granule : Option (Nat × Nat)
  dirty : BitVec 256
deriving DecidableEq, Repr

/-- A mapped window (R115): base address, granules, slots. -/
structure Mapping where
  base : W64
  ext : Nat
  slots : List MapSlot
deriving DecidableEq, Repr

/-- The kind of a window (R112). -/
inductive WinKind where
  | absent | plain
  | mapped (m : Mapping)
  | ring (r : Ring)
deriving DecidableEq, Repr

/-- A window of a gang on one core: first slot, slot count, kind (R112). -/
structure Window where
  fs : Nat
  s : Nat
  kind : WinKind
deriving DecidableEq, Repr

/-- A GMAP in progress (R117): the core that issued it, the threads of its group, the window and the range. -/
structure GmapReq where
  core : Nat
  win : Nat
  tids : List Nat
  base : W64
  ext : Nat
deriving DecidableEq, Repr

/-! ## Outstanding operations -/

/-- Where an access is performed, fixed when it issues (R263). -/
inductive Target where
  /-- through the L1 of the issuing core -/
  | l1 (pa : Nat)
  /-- at the home Vale: coupled data and word operations -/
  | home (pa : Nat)
  /-- in the mapped window of gang core `c` -/
  | window (c win : Nat) (va : W64) (pa : Nat)
  /-- at the Glen of a core, byte `off` -/
  | glen (core off : Nat)
  /-- at a peer; `cpl`: the region of the access is coupled (R264) -/
  | peer (pa : Nat) (cpl : Bool)
deriving DecidableEq, Repr

/-- An operation performed by the atomic unit of a home Vale (R94). -/
inductive WordOp where
  /-- ATOM, and ARED when `red` -/
  | atom (red : Bool) (op : AtomOp) (ty : ElemTy) (v : W64)
  | cas (wide : Bool) (old new : W64)
  | await (ty : ElemTy) (c : AwaitCond) (v : W64)
  | cntdec (n : W32)
  | bararv (n : W32)
  | barwt (phase : W32)
  | submit (queue : Option Nat) (lobj : Option W64)
  | depadd (n : W32)
  | signal (v : W64) (vec : W32)
  | swap (v : W64)
deriving DecidableEq, Repr

/-- One lane of a per-lane copy (R127). -/
structure CopyLane where
  tid : Nat
  size : Nat
  sva : W64
  src : Target
  dva : W64
  dst : Target
deriving DecidableEq, Repr

/-- An operation on its way to its home: the word, its bytes, the scope of its literal, whether its line is coupled, the clk at which an AWAIT or BARWT
returns early, whether one has arrived and waits there (R165), and the clk at which a wait at a peer was last looked at (log entry 7). -/
structure WordReq where
  pa : Nat
  op : WordOp
  size : Nat
  scope : Nat
  cpl : Bool
  limit : Option Nat
  here : Bool
  tried : Option Nat
deriving DecidableEq, Repr

/-- What an outstanding operation does when it is performed. -/
inductive OpKind where
  /-- a variable-latency value known at issue -/
  | value (v : W64)
  /-- a load: bytes, the width of a sign extension (0: none), hint, count of a counted fill (R149) -/
  | load (t : Target) (size : Nat) (sx : Nat) (hint : Hint) (cnt : Nat)
  /-- a store of the low `size` bytes -/
  | store (t : Target) (size : Nat) (hint : Hint) (data : BitVec 128)
  | word (w : WordReq)
  /-- the lanes of one CPY (R127) -/
  | copy (hint : Hint) (lanes : List CopyLane)
  /-- QBLK (R228): source and slot as (core, byte), element type, width, mode, block index -/
  | qblk (src slot : Nat × Nat) (ty : ElemTy) (w : Nat) (r : Rnd) (j : Nat)
  /-- DQBLK (R228): slot, result type, width, mode, element index -/
  | dqblk (slot : Nat × Nat) (ty : ElemTy) (w : Nat) (r : Rnd) (e : Nat)
  /-- the write-back of GUNMAP or GFLUSH (R141), counted by the threads `tids` -/
  | winWb (core win : Nat) (unmap : Bool) (tids : List Nat)
  /-- CPSTAT's wait for the thread's commands and copies (R139) -/
  | cpwait
deriving DecidableEq, Repr

/-- An outstanding operation of a thread. `toks` are the tokens its values fill, 64 bits each; `seta` and `setb` the flags it
counts down (R58); `done` is set when it has been performed and only its value is still to arrive. -/
structure Op where
  id : Nat
  /-- the operations of one issue share its number -/
  issue : Nat
  tid : Nat
  core : Nat
  ctx : Nat
  pc : W64
  va : W64
  kind : OpKind
  toks : List Nat
  seta : Option Nat
  setb : Option Nat
  result : Option Nat
  /-- the clk of issue -/
  issuedAt : Nat
deriving DecidableEq, Repr

/-! ## Cores -/

/-- A group's clause in progress on its pipe, with the word in progress. `released` is set while the group waits with the pipe released (R21); `stall` is the
stall sampler's class and blamed PC at its last attempt (R407). -/
structure Run where
  clause : Clause
  released : Bool
  /-- the current word has issued and the group waits for its completion (TBAR, GBAR, NAP, GMAP) -/
  issued : Bool
  stall : Option (Nat × W64)
deriving DecidableEq, Repr

/-- An entry of the convergence table (R292). -/
structure Entry where
  uid : Nat
  index : Option Nat
  ctx : Nat
  pc : W64
  members : List Nat
  ready : Nat
  yieldEnd : Nat
  overdueAt : Option Nat
  /-- waiting at a rendezvous (R296) -/
  rdv : Bool
  /-- a group that resumed in the middle of a clause and stands beside the table (R183, R381) -/
  own : Bool
  run : Option Run
  /-- the clk of its last issue (R407) -/
  lastIssue : Option Nat
  /-- at a header whose first word could not have issued in the last clk: its stall class and blamed PC (R298, R407) -/
  first : Option (Nat × W64)
deriving DecidableEq, Repr

/-- A line of an L1 (R151, R119, R277). -/
structure L1Line where
  line : Nat
  ctx : Nat
  data : Line
  dirty : LineMask
  count : Option Nat
  lease : Option (Nat × Nat)
  /-- of a leased copy: what the releases of its value carry (R272; log entry 56) -/
  carry : Nat := 0
deriving DecidableEq, Repr

/-- A line of an instruction cache (R284), under the context and the virtual address for which it was fetched. -/
structure ILine where
  ctx : Nat
  va : Nat
  line : Nat
  data : Line
deriving DecidableEq, Repr

/-- The outcome of a table walk (R103, R109): a leaf, an XLATE sub-code, or an error of a memory read. -/
inductive Walk where
  | leaf (pa : Nat) (r w x : Bool)
  | xlate (sub : Nat)
  | ras (sub pa : Nat)
  | hole (pa : Nat)
deriving DecidableEq, Repr

/-- A TLB entry (R104): the context, the page's first address and its log2 size. -/
structure TlbEntry where
  ctx : Nat
  va : Nat
  bits : Nat
  walk : Walk
deriving DecidableEq, Repr

/-- A bulk or looping command of the copy engine (R137, R138). -/
structure CopyCmd where
  id : Nat
  tid : Nat
  ctx : Nat
  gang : Nat
  task : Nat
  loop : Bool
  src : W64
  dst : W64
  stride : W64
  len : Nat
  iters : Nat
  ssp : Bool
  dsp : Bool
  stat : Bool
  tag : Nat
  ring : Option Nat
  shn : Hint
  dhn : Hint
  ctr : Option W64
  setb : Option Nat
  pc : W64
  /-- the commands of one word share its number (R119, R120) -/
  issue : Nat
deriving DecidableEq, Repr

/-- A slot of the copy command queue: a command, or a raw entry pushed by a word that is no command (log entry 14). -/
inductive CpEntry where
  | cmd (c : CopyCmd)
  | raw (ctx : Nat) (cell : QCell)
deriving DecidableEq, Repr

/-- A running command: bytes done of the iteration, iteration, the stage being filled, whether all bytes are done and the counter is due, and
whether it waits on a full ring without a run slot (R122, R126). -/
structure CopyRun where
  cmd : CopyCmd
  prog : Nat
  iter : Nat
  stage : Option Nat
  atEnd : Bool
  waits : Bool
  /-- physical lines written so far, to be written to the Vale before the counter (R131) -/
  lines : List Nat
deriving DecidableEq, Repr

/-- A weight plane (R235): status as MSTATE gives it, element type, WM, bytes of the tile in 128-byte lines. -/
structure Plane where
  status : Nat
  ty : ElemTy
  wm : Nat
  data : List Line
deriving DecidableEq, Repr

/-- The epilogue state (R260). -/
structure Epi where
  word : W32
  scale : W32
  bias : List W32
deriving DecidableEq, Repr

/-- The commands of the array (R240). -/
inductive MtxKind where
  | wld (ty : ElemTy) (wm : Nat) (glen : Bool) (base : W64)
  | wswap
  | loop (ty : ElemTy) (a b : W64) (word stride : W32)
  | accld (addr : W64) (m : Nat)
  | accst (addr : W64) (m : Nat)
  | drain (addr : W64) (stride : Nat) (m : Nat)
  | epi (word scale : W32) (addr : W64)
  | zero
  | raw
deriving DecidableEq, Repr

/-- A pushed command with its row and its pushers (thread, SETB flag) (R240). -/
structure MtxCmd where
  id : Nat
  kind : MtxKind
  slot : Nat
  gang : Nat
  task : Nat
  ctx : Nat
  pushers : List (Nat × Option Nat)
  pend : List Nat
  pc : W64
deriving DecidableEq, Repr

/-- The live loop (R244, R249): running or stopped, the stage it holds (window, stage), its decode mark, its failure code, the epilogue it captured, the
accumulator kind, the tiles that the active plane holds and that the shadow plane holds or is fetching, and the drain entries still to be delivered (clk,
thread, value). -/
structure Loop where
  cmd : MtxCmd
  stopped : Bool
  fcode : Nat
  hold : Option (Nat × Nat)
  mark : Bool
  epi : Epi
  kind32 : Bool
  tileFor : Option Nat
  shadowFor : Option Nat
  drain : List (Nat × Nat × W32)
  /-- the window on which a stage pop of its stream stands (R144) -/
  waitOn : Option Nat
  /-- the rows of the step's panel that it has taken from mxa so far (R246) -/
  part : List Nat
deriving DecidableEq, Repr

/-- The matrix array of a core (R235). -/
structure MtxArray where
  gang : Option Nat
  active : Plane
  shadow : Plane
  acc : List (BitVec 2048)
  s32acc : Bool
  queue : List MtxCmd
  /-- commands begun and not complete, besides a loop, with the epilogue they captured (R241) -/
  flight : List (MtxCmd × Epi)
  loop : Option Loop
  mprog : Nat
  epi : Epi
deriving DecidableEq, Repr

/-- One core (R9). -/
structure Core where
  entries : List Entry
  /-- the group that holds pipe A or pipe B, by uid (R21) -/
  pipeA : Option Nat
  pipeB : Option Nat
  /-- clk of the last attempt of each pipe -/
  issuedA : Option Nat
  issuedB : Option Nat
  l1 : List L1Line
  icache : List ILine
  tlb : List TlbEntry
  glen : List Host.Cell
  cpq : List CpEntry
  /-- restored commands that wait for room in the queue (R134) -/
  cpback : List CpEntry
  cprun : List CopyRun
  array : MtxArray
  /-- for each context that samples the core: its number, the last sampled entry index and the clk of the last sample (R407) -/
  samples : List (Nat × Nat × Nat)
deriving DecidableEq, Repr

/-- A failure of the array whose pushers have not all exited (R243): the error log records it when they have. -/
structure Blame where
  pushers : List Nat
  ctx : Nat
  core : Nat
  code : Nat
  addr : W64
  va : Bool
deriving DecidableEq, Repr

/-- A counted read that an issue of a copy word owes: it has touched a line or a stage (`lo`, `len`: its bytes) and is to be counted once, when nothing of the
issue still reads there (R119, R120). -/
structure Owed where
  core : Nat
  ctx : Nat
  gang : Nat
  issue : Nat
  lo : Nat
  len : Nat
  tg : Target
deriving DecidableEq, Repr

/-- The state of a gang that a pre-emption saves off its cores (R378): window bytes per gang core, the array of each core, and the
copy commands of each core. -/
structure SavedGang where
  glen : List (Nat × List Host.Cell)
  arrays : List (Nat × MtxArray)
  /-- each with its place in the queue of its core (R134) -/
  queued : List (Nat × List (CpEntry × Nat))
  running : List (Nat × List CopyRun)
deriving DecidableEq, Repr

/-- A placed gang (R286). -/
structure Gang where
  id : Nat
  task : Nat
  ctx : Nat
  /-- its index in its task, or the rung and launch of R356 -/
  index : W32
  base : Nat
  cores : Nat
  threads : Nat
  rpc : Nat
  slots : List (List Nat)
  arr : Bool
  windows : List (List Window)
  teams : List Team
  gbar : List Nat
  gmaps : List GmapReq
  saved : Option SavedGang
deriving DecidableEq, Repr

/-! ## Tasks and ladders -/

/-- A region record as read at the append (R322, R323). -/
structure Region where
  base : Nat
  ext : Nat
  mode : Nat
  scope : Nat
  act : Nat
deriving DecidableEq, Repr

/-- A gang record as read at dispatch (R324). `wins` holds, for each window, first slot, slots, MREG, MEXT + 1 and PF. -/
structure GangRec where
  threads : Nat
  cores : Nat
  arr : Bool
  wins : List (Option (Nat × Nat × Nat × Nat × Bool))
deriving DecidableEq, Repr

/-- A rung of a running ladder (R350). -/
structure RungState where
  entry : W64
  escOnly : Bool
  grec : GangRec
  nst : Nat
  frames : W64
  /-- LESC operations numbered, arrivals counted, arrivals launched (R358) -/
  numbered : Nat
  arr : Nat
  taken : Nat
  /-- arrivals performed and not yet launched: number, frame, age in resident clk -/
  pending : List (Nat × List W32 × Nat)
  launches : Nat
deriving DecidableEq, Repr

/-- A write of the ladder unit in flight (R358, R359): a frame of an LESC or a result entry. -/
inductive LadderWrite where
  | frame (wr rung j : Nat) (cells : List W32) (tid : Option Nat)
  | result (wr item : Nat) (v : W64) (tid : Option Nat)
deriving DecidableEq, Repr

/-- A launch that is due (R357, R358): rung and frames. -/
structure Launch where
  rung : Nat
  index : Nat
  frames : List (List W32)
deriving DecidableEq, Repr

/-- A running ladder (R350 to R363). -/
structure Ladder where
  obj : W64
  n : Nat
  fsz : Nat
  slim : Nat
  res : W64
  wma : W64
  user : W64
  rungs : List RungState
  /-- result entries and watermark zeroed so far (R357) -/
  zeroed : Bool
  due : List Launch
  writes : List LadderWrite
  nextWr : Nat
  finished : List Nat
  watermark : Nat
  /-- watermark values decided and not yet written (R360) -/
  wmDue : List Nat
  retired : Nat
  placed : Nat
deriving DecidableEq, Repr

/-- Phase and position of the edge actions (R320, R340). -/
structure Cursor where
  ph : Nat
  rix : Nat
  six : Nat
  off : Nat
deriving DecidableEq, Repr

/-- A submitted task. `state` is STATE of R321; `pred` the queue predecessor (R327). -/
structure Task where
  id : Nat
  ctx : Nat
  recAddr : W64
  /-- physical address of the record's first line -/
  recPa : Nat
  queue : Nat
  state : Nat
  ctl : W64
  regionWords : List W64
  regions : List Region
  /-- CTL and the region records keep their limits (R322, R333) -/
  reason : Nat
  seq : Nat
  pred : Option Nat
  used : W64
  grec : Option GangRec
  placed : Nat
  retired : Nat
  /-- cores on which a gang of the task was placed, ascending -/
  cores : List Nat
  cursor : Cursor
  succDone : Bool
  /-- failing code, 0 when it does not fail (R341) -/
  fail : Nat
  dispatched : Bool
  ladder : Option Ladder
  /-- FWD regions, as base and bytes, of tasks with an edge to this one (R334) -/
  fwd : List (Nat × Nat)
  /-- the ladder object that LSTART named, none for an ordinary task (R351) -/
  lobj : Option W64
  /-- SUCCL as read when phase 2 began (R322) -/
  succl : Option W64
deriving DecidableEq, Repr

/-! ## Contexts and the device -/

/-- One context: its table entry (R422) and its registers (R384). -/
structure Context where
  cfg : W64
  root : W64
  qtab : W64
  digt : W64
  dbg : W64
  keys : W64
  slice : W64
  /-- ST of CMD: 0 FREE, 1 RESIDENT, 2 SAVING, 3 SAVED, 4 RESTORING, 5 DEAD -/
  st : Nat
  busy : Bool
  fail : Bool
  lost : Bool
  /-- the first task has been dispatched -/
  dispatched : Bool
  promise : BitVec 3
  fairlim : BitVec 16
  yieldspan : BitVec 16
  notchlim : W32
  cellcap : Nat
  spillcnt : W64
  dropleak : W64
  fmtrsv : BitVec 2
  /-- the bits of FMTRSV that were set in a clk, each with the thread that set it (none: the array), and that clk (R31) -/
  fmtrsvSet : List (Option Nat × BitVec 2) × Nat
  seed : W64
  watch : List W64
  trapvec : W64
  nextSeq : Nat
  /-- tail of each queue that is not empty: (queue, task id) (R327) -/
  tails : List (Nat × Nat)
  /-- verified code pages, each with the physical addresses of the words of its table entry (R382) -/
  verified : List (Nat × List Nat)
  /-- page checks asked for by fetches (R382) -/
  verifying : List Nat
  /-- clk of the pre-emption request (R377) -/
  preempt : Option Nat
  /-- a RESTORE is owed by firmware, or is being carried out (BUSY) (R379, R422) -/
  restore : Bool
  /-- clk at which the time slice began (R422) -/
  sliceAt : Nat
  /-- the number under which firmware placed the spill quota (R96) -/
  quotaId : Nat
  /-- debug control block (R400) -/
  dbgCtl : W64
  dbgRange : W64
  dbgHead : W32
  dbgTail : W32
  dbgLost : W32
  dbgBrk : List (W64 × W64)
deriving DecidableEq, Repr

/-- A format range window (R89). -/
structure Frw where
  en : Bool
  flush : Bool
  /-- the value of a write of EN = 0 that waits for the flush (R90) -/
  closing : Option W64
  rsv : BitVec 8
  cfgerr : Bool
  fmt : BitVec 4
  w : BitVec 4
  view : W64
  lines : W64
  mpl : W64
  spl : W64
deriving DecidableEq, Repr

/-- A wait of a peer on a word of this device (R94, R165): its number, the context of its grant, the word, and the clk at which it returns early. -/
structure PeerWait where
  id : Nat
  ctx : Nat
  pa : Nat
  op : WordOp
  size : Nat
  limit : Option Nat
deriving DecidableEq, Repr

/-- A line of a last-level cache slice (R93, R95). -/
structure ValeLine where
  line : Nat
  data : Line
  owner : Nat
  dirty : Bool
deriving DecidableEq, Repr

/-- The times of a coupled line at its home (R277). -/
structure Lease where
  line : Nat
  wts : Nat
  rts : Nat
  /-- the latest time that the releases of the line's words carry to what acquires them (R272; log entry 56) -/
  carry : Nat := 0
deriving DecidableEq, Repr

/-- A page walk asked for by cores of one die (R104). -/
structure WalkReq where
  die : Nat
  ctx : Nat
  page : Nat
  cores : List Nat
deriving DecidableEq, Repr

/-- Power of a compute die (R432): REQ, ST, the target in progress with the clk at which it is reached, and a request made meanwhile. -/
structure Power where
  req : Nat
  st : Nat
  goal : Option (Nat × Nat)
  next : Option Nat
deriving DecidableEq, Repr

/-- An entry of the error log (R424). -/
structure LogEntry where
  kind : Nat
  code : Nat
  sub : Nat
  agent : Nat
  ctx : Nat
  va : Bool
  core : Nat
  addr : W64
  clk : Nat
  word3 : W64
deriving DecidableEq, Repr

/-- A peer grant (R427). -/
structure Grant where
  w0 : W64
  w1 : W64
deriving DecidableEq, Repr

/-- A tenant key slot: two AES keys for XTS (R429). -/
abbrev Keys := BitVec 512

/-- The identity block and lifecycle (R429, R431). -/
structure Identity where
  /-- bring-up has run its steps 1 to 3 (R428) -/
  started : Bool
  recov : Bool
  ready : Bool
  state : Nat
  lcres : Nat
  meas : List Byte
  tokbuf : List Byte
  nonce : List Byte
  attBusy : Bool
  attsig : List Byte
  keyslots : List Keys
  kmap : List (Nat × BitVec 8)
  debugPort : Bool
  retiredFuse : Bool
  fwDigest : List Byte
deriving DecidableEq, Repr

/-- The state of the device. -/
structure State where
  clk : Nat
  /-- moves still to be made (log entry 1) -/
  agenda : List Move
  /-- the core and group for which the current word issues -/
  focus : Option (Nat × Nat)
  freeCtr : Nat
  nextUid : Nat
  nextSeq : Nat
  mem : List Host.Cell
  /-- the keys under which each line of the stacks was last written, where not plain (R430) -/
  enc : List (Nat × Keys)
  vale : List ValeLine
  leases : List Lease
  retired : List Nat
  /-- quarantined frames: set with its die, and way (R99) -/
  quarantined : List (Nat × Nat)
  walks : List WalkReq
  frw : List Frw
  cores : List Core
  threads : List Thread
  rows : List Row
  gangs : List Gang
  ops : List Op
  tasks : List Task
  /-- FWD regions that a decrement carries to the record at a physical address: record, base, bytes (R334) -/
  fwdEdges : List (Nat × Nat × Nat)
  contexts : List Context
  /-- error log: entries written, consumed, dropped, corrected errors, notifications (R424) -/
  elhead : Nat
  eltail : Nat
  ellost : Nat
  cecnt : Nat
  elring : List LogEntry
  nhead : Nat
  notif : List (W64 × W64)
  levels : List (Nat × Nat)
  grants : List Grant
  ident : Identity
  staging : List Host.Cell
  power : List Power
  /-- the last value returned to the host, a peer or a debugger (log entry 1) -/
  lastRead : BitVec 128
  /-- the latest time that the agents without a logical clock have used (R277, R278; log entry 56) -/
  agentClock : Nat
  /-- waits of peers that stand at the homes of their words (R94) -/
  peerWaits : List PeerWait
  /-- counted reads that are owed (R119, R120) -/
  owed : List Owed
  /-- failures of arrays with a pusher left (R243) -/
  blames : List Blame
deriving DecidableEq, Repr

/-! ## Reset -/

def TrapRegs.reset : TrapRegs :=
  { epc := 0#64, code := 0, sub := 0, inmask := false, defer := false, rpl := false, hdr := false, th := false, src := 0,
    ord := 0#16, addr := 0#64, lanes := 0#64, lanesH := 0#64 }

def Plane.empty : Plane := { status := 0, ty := .s32, wm := 0, data := [] }

def Epi.none : Epi := { word := 0#32, scale := 0#32, bias := List.replicate 64 0#32 }

/-- The array as a placement finds it (R235). -/
def MtxArray.reset : MtxArray :=
  { gang := none, active := Plane.empty, shadow := Plane.empty, acc := List.replicate 64 0#2048, s32acc := false, queue := [],
    flight := [], loop := none, mprog := 0, epi := Epi.none }

def Core.reset : Core :=
  { entries := [], pipeA := none, pipeB := none, issuedA := none, issuedB := none, l1 := [], icache := [], tlb := [], glen := [],
    cpq := [], cpback := [], cprun := [], array := MtxArray.reset, samples := [] }

/-- A FREE context with the reset values of its registers (R304, R187, R31, R233, R396, R386, R422). -/
def Context.reset : Context :=
  { cfg := 0x0800000000000000#64, root := 0#64, qtab := 0#64, digt := 0#64, dbg := 0#64, keys := 0#64, slice := 0#64, st := 0, busy := false,
    fail := false, lost := false, dispatched := false, promise := 7#3, fairlim := 1024#16, yieldspan := 64#16,
    notchlim := 262144#32, cellcap := 2048, spillcnt := 0#64, dropleak := 0#64, fmtrsv := 0#2, fmtrsvSet := ([], 0), seed := 0#64,
    watch := List.replicate 4 0#64, trapvec := 0#64, nextSeq := 0, tails := [], verified := [], verifying := [],
    preempt := none, restore := false, sliceAt := 0, quotaId := 0, dbgCtl := 0#64, dbgRange := 0#64, dbgHead := 0#32, dbgTail := 0#32,
    dbgLost := 0#32, dbgBrk := List.replicate 16 (0#64, 0#64) }

def Frw.reset : Frw :=
  { en := false, flush := false, closing := none, rsv := 0#8, cfgerr := false, fmt := 0#4, w := 0#4, view := 0#64, lines := 0#64, mpl := 0#64,
    spl := 0#64 }

def Identity.reset : Identity :=
  { started := false, recov := false, ready := false, state := if Config.fuseRetired then 3 else 1, lcres := 0,
    meas := List.replicate 64 0#8, tokbuf := List.replicate 144 0#8, nonce := List.replicate 32 0#8, attBusy := false,
    attsig := List.replicate 114 0#8, keyslots := List.replicate 64 0#512, kmap := [], debugPort := false,
    retiredFuse := Config.fuseRetired, fwDigest := List.replicate 64 0#8 }

/-- The device right after reset (R428, R385, R422, R432). -/
def State.reset : State :=
  { clk := 0, agenda := [], focus := none, freeCtr := 0, nextUid := 1, nextSeq := 0, mem := [], enc := [], vale := [], leases := [],
    retired := [], quarantined := [], walks := [], frw := List.replicate 16 Frw.reset, cores := List.replicate Config.cores Core.reset,
    threads := [], rows := [], gangs := [], ops := [], tasks := [], fwdEdges := [], contexts := List.replicate Config.contexts Context.reset,
    elhead := 0, eltail := 0, ellost := 0, cecnt := 0, elring := [], nhead := 0, notif := [], levels := [],
    grants := List.replicate 64 { w0 := 0#64, w1 := 0#64 }, ident := Identity.reset, staging := [],
    power := List.replicate 8 { req := 0, st := 0, goal := none, next := none }, lastRead := 0#128, agentClock := 0, peerWaits := [], owed := [], blames := [] }

end Sys2Proof.Machine
end

