-- ==== Sys2Proof/Machine/Access.lean ====
section
/-! DEFINITION. Reading and updating the records of State: cores, threads, rows, gangs, tasks and contexts by number, and the small facts that every
unit asks of them (cells held, pool, current team, error log). -/

namespace Sys2Proof.Machine

namespace State

def core (s : State) (c : Nat) : Core := s.cores.getD c Core.reset
def setCore (s : State) (c : Nat) (k : Core) : State := { s with cores := s.cores.set c k }
def updCore (s : State) (c : Nat) (f : Core → Core) : State := s.setCore c (f (s.core c))

def ctx (s : State) (c : Nat) : Context := s.contexts.getD c Context.reset
def setCtx (s : State) (c : Nat) (k : Context) : State := { s with contexts := s.contexts.set c k }
def updCtx (s : State) (c : Nat) (f : Context → Context) : State := s.setCtx c (f (s.ctx c))

def thread (s : State) (id : Nat) : Option Thread := s.threads.find? (fun t => t.id == id)
def updThread (s : State) (id : Nat) (f : Thread → Thread) : State :=
  { s with threads := s.threads.map (fun t => if t.id = id then f t else t) }

def gang (s : State) (id : Nat) : Option Gang := s.gangs.find? (fun g => g.id == id)

/-- The row stands on its seats: its gang is not saved (R378). -/
def rowSeated (s : State) (r : Row) : Bool := (s.gang r.gang).all (fun g => g.saved.isNone)

/-- The row that holds a slot of a core. -/
def row (s : State) (core slot : Nat) : Option Row := s.rows.find? (fun r => r.core == core && r.slot == slot && s.rowSeated r)
def updRow (s : State) (core slot : Nat) (f : Row → Row) : State :=
  { s with rows := s.rows.map (fun r => if r.core = core ∧ r.slot = slot ∧ s.rowSeated r = true then f r else r) }

def updGang (s : State) (id : Nat) (f : Gang → Gang) : State :=
  { s with gangs := s.gangs.map (fun g => if g.id = id then f g else g) }

def task (s : State) (id : Nat) : Option Task := s.tasks.find? (fun t => t.id == id)
def updTask (s : State) (id : Nat) (f : Task → Task) : State :=
  { s with tasks := s.tasks.map (fun t => if t.id = id then f t else t) }

def op (s : State) (id : Nat) : Option Op := s.ops.find? (fun o => o.id == id)
def updOp (s : State) (id : Nat) (f : Op → Op) : State :=
  { s with ops := s.ops.map (fun o => if o.id = id then f o else o) }
def dropOp (s : State) (id : Nat) : State := { s with ops := s.ops.filter (fun o => o.id != id) }

def entry (s : State) (core uid : Nat) : Option Entry := (s.core core).entries.find? (fun e => e.uid == uid)
def updEntry (s : State) (core uid : Nat) (f : Entry → Entry) : State :=
  s.updCore core (fun k => { k with entries := k.entries.map (fun e => if e.uid = uid then f e else e) })

/-- The context is in interlocked mode (R22, R73, CFG.ILK). -/
def ilk (s : State) (c : Nat) : Bool := (s.ctx c).cfg.getLsbD 62
/-- CTXID.PRIV (R385). -/
def priv (s : State) (c : Nat) : Bool := (s.ctx c).cfg.getLsbD 63

/-- A fresh number for an operation, token, group, gang or command. -/
def fresh (s : State) : Nat × State := (s.nextUid, { s with nextUid := s.nextUid + 1 })

/-- The next free value (log entry 5): a value that the spec leaves open. -/
def free (s : State) : W64 × State := (Config.freeValue s.freeCtr, { s with freeCtr := s.freeCtr + 1 })

/-- `n` free words (a peer's memory, R264; log entry 7). -/
def freeWords (s : State) : Nat → State × List W64
  | 0 => (s, [])
  | n + 1 =>
    let (v, s) := s.free
    let (s, l) := s.freeWords n
    (s, v :: l)

/-- `n` bytes of a peer's memory as a number. -/
def peerRead (s : State) (n : Nat) : State × Nat :=
  let (s, l) := s.freeWords ((n + 7) / 8)
  (s, l.foldr (fun v acc => acc * 2 ^ 64 + v.toNat) 0 % 2 ^ (8 * n))

end State

/-- Compute die of a core (R9). -/
def dieOf (core : Nat) : Nat := core / Config.coresPerDie

/-- Home die of a physical address (R10). -/
def homeDie (pa : Nat) : Nat := (pa / 2 ^ 12 % 8) ^^^ (pa / 2 ^ 15 % 8) ^^^ (pa / 2 ^ 18 % 8)

/-- The threads of an operation: those of a copy's lanes, else the one that issued it. -/
def Op.tids (o : Op) : List Nat :=
  match o.kind with
  | .copy _ lanes => lanes.map CopyLane.tid
  | .winWb _ _ _ tids => tids
  | _ => [o.tid]

def CpEntry.ctx : CpEntry → Nat
  | .cmd c => c.ctx
  | .raw c _ => c

/-- AWAIT and BARWT (R165). -/
def WordOp.waits : WordOp → Bool
  | .await .. | .barwt _ => true
  | _ => false

/-- AWAIT, the one word operation that a debug window admits (R402). -/
def WordOp.isAwait : WordOp → Bool
  | .await .. => true
  | _ => false

/-! ## Kinds of operations (R169, R271) -/

/-- A coupled access (R264, R277): at the home Vale of this device, or at a peer for a coupled region. -/
def Target.coupled : Target → Bool
  | .home _ => true
  | .peer _ cpl => cpl
  | _ => false

def Target.isGlen : Target → Bool
  | .glen .. | .window .. => true
  | _ => false

/-- Coupled accesses and word operations, which take their times in program order (R271, R277). -/
def Op.timed (o : Op) : Bool :=
  match o.kind with
  | .load t .. => t.coupled
  | .store t .. => t.coupled
  | .word .. => true
  | _ => false

/-- The classes that FENCE orders: coupled, word and Glen accesses (R169). -/
def Op.ordered (o : Op) : Bool :=
  o.timed || (match o.kind with
    | .load t .. => t.isGlen
    | .store t .. => t.isGlen
    | .qblk .. | .dqblk .. => true
    | _ => false)

/-- Operations that act as a release (R167, R271, R328, R347, R349). TDEPADD is none (R346). -/
def Op.release (o : Op) : Bool :=
  match o.kind with
  | .store t .. => t.coupled
  | .word w => (match w.op with
    | .await .. | .barwt _ | .depadd _ => false
    | _ => true)
  | _ => false

/-- Word operations that act as an acquire until their value is bound (R167, R349). -/
def WordOp.acquires : WordOp → Bool
  | .atom red .. => !red
  | .cas .. | .await .. | .barwt _ | .swap _ => true
  | _ => false

/-- Operations that act as an acquire until their value is bound (R167, R271). -/
def Op.acquire (o : Op) : Bool :=
  match o.kind with
  | .load t .. => t.coupled
  | .word w => w.op.acquires
  | _ => false

/-- The operation has still to be performed. -/
def Op.open (o : Op) : Bool := o.result.isNone

def Op.isCopy (o : Op) : Bool :=
  match o.kind with
  | .copy .. | .winWb .. => true
  | _ => false

/-- A wait at the home (R165). -/
def Op.waitsWord (o : Op) : Bool :=
  match o.kind with
  | .word w => w.op.waits
  | _ => false

/-- Every ordered access of the thread is performed: what a release waits for (R169, R318). -/
def State.released (s : State) (t : Thread) : Bool := s.ops.all (fun o => !(o.tid == t.id && o.ordered && o.open))

/-! ## Error log (R424) -/

/-- Appends an entry, or drops it when the ring of 1,024 is full. -/
def State.log (s : State) (e : LogEntry) : State :=
  if s.elhead - s.eltail ≥ 1024 then { s with ellost := s.ellost + 1 }
  else { s with elhead := s.elhead + 1, elring := s.elring ++ [e] }

/-- An access that was refused (R110). -/
def State.logRefused (s : State) (agent ctx core : Nat) (va : Bool) (addr : W64) (code sub : Nat) (lanes : W64) : State :=
  s.log { kind := 1, code := code, sub := sub, agent := agent, ctx := ctx, va := va, core := core, addr := addr, clk := s.clk,
          word3 := lanes }

/-- A host notification (R425): the ring keeps the last 256. -/
def State.notify (s : State) (vec : Nat) (ctx : Nat) : State :=
  { s with
    nhead := s.nhead + 1
    notif := (s.notif ++ [(BitVec.ofNat 64 (vec % 65536 + ctx % 64 * 65536), BitVec.ofNat 64 s.clk)]).drop
      ((s.notif.length + 1) - 256) }

/-! ## Cells (R170, R171, R173) -/

def Binding.cells (b : Binding) : Nat := if b.wide then 2 else 1

/-- The cells a thread holds: bindings, reservations of results in flight, and freed bindings whose value has not arrived. -/
def Thread.cells (t : Thread) : Nat :=
  (t.names.map (fun p => p.2.cells)).sum
  + (t.flight.map (fun f => if f.late then (f.names.map (fun p => p.2.cells)).sum else 0)).sum
  + (t.zombies.map (fun z => z.2)).sum

/-- The thread stands in its seat (R290): its context is resident or being saved or restored. -/
def State.seated (s : State) (t : Thread) : Bool :=
  let st := (s.ctx t.ctx).st
  st == 1 || st == 2

/-- The thread's cells are in its lane's pool. -/
def State.holdsCells (s : State) (t : Thread) : Bool := s.seated t && !t.parked

/-- Threads in a lane. -/
def State.laneThreads (s : State) (core lane : Nat) : List Thread :=
  s.threads.filter (fun t => t.core == core && t.lane == lane && s.seated t)

/-- Cells taken from a lane's pool (R170): those held, and those that evictions keep for a blocked word (R181). -/
def State.poolUsed (s : State) (core lane : Nat) : Nat :=
  ((s.laneThreads core lane).map (fun t => (if t.parked then 0 else t.cells) + t.heldFor)).sum

def State.poolFree (s : State) (core lane : Nat) : Nat := Config.cellsPerLane - s.poolUsed core lane

/-- Cells that a context holds in a lane (R179). -/
def State.ctxCells (s : State) (core lane ctx : Nat) : Nat :=
  (((s.laneThreads core lane).filter (fun t => t.ctx == ctx)).map (fun t => if t.parked then 0 else t.cells)).sum

/-- The lane anchor and the context anchors (R178): the oldest unfinished threads. -/
def State.anchor (s : State) (core lane : Nat) (ctx : Option Nat) : Option Nat :=
  let l := (s.laneThreads core lane).filter (fun t => !t.exited && (match ctx with
    | none => true
    | some c => t.ctx == c))
  (l.map Thread.id).min?

def State.isAnchor (s : State) (t : Thread) : Bool :=
  s.anchor t.core t.lane none == some t.id || s.anchor t.core t.lane (some t.ctx) == some t.id

/-! ## Small records -/

/-- The lane mask of threads (R372): lanes 0 to 63 and 64 to 127. -/
def maskOf (l : List Thread) : W64 × W64 :=
  (l.foldl (fun m t => if t.lane < 64 then m ||| ((1#64) <<< t.lane) else m) 0#64,
   l.foldl (fun m t => if 64 ≤ t.lane then m ||| ((1#64) <<< (t.lane - 64)) else m) 0#64)

/-- The lane mask of one thread, as the error log holds it (R424). -/
def State.laneMask (s : State) (tid : Nat) : W64 :=
  match s.thread tid with
  | some t => (maskOf [t]).1
  | none => 0#64

/-- Threads in ascending lane order (R6). -/
def insertLane (t : Thread) : List Thread → List Thread
  | [] => [t]
  | u :: us => if t.lane ≤ u.lane then t :: u :: us else u :: insertLane t us

def sortLanes (l : List Thread) : List Thread := l.foldr insertLane []

/-- Numbers in ascending order. -/
def insertNat (n : Nat) : List Nat → List Nat
  | [] => [n]
  | m :: ms => if n ≤ m then n :: m :: ms else m :: insertNat n ms

def sortNats (l : List Nat) : List Nat := l.foldr insertNat []

/-- A list without repeats, first occurrences kept. -/
def dedupNats (l : List Nat) : List Nat := l.foldl (fun acc n => if acc.contains n then acc else acc ++ [n]) []

def lookupName (t : Thread) (n : Nat) : Option Binding := (t.names.find? (fun p => p.1 == n)).map Prod.snd

def eraseName (t : Thread) (n : Nat) : Thread := { t with names := t.names.filter (fun p => p.1 != n) }

/-- Names are kept in ascending order, so that equal name tables are equal lists. -/
def insertName (n : Nat) (b : Binding) : List (Nat × Binding) → List (Nat × Binding)
  | [] => [(n, b)]
  | (m, c) :: rest => if n = m then (n, b) :: rest else if n < m then (n, b) :: (m, c) :: rest else (m, c) :: insertName n b rest

def setName (t : Thread) (n : Nat) (b : Binding) : Thread := { t with names := insertName n b t.names }

/-- Frees a binding: a pending one keeps its cells until its value arrives (R173). -/
def freeName (t : Thread) (n : Nat) : Thread :=
  match lookupName t n with
  | none => t
  | some b =>
    let t := eraseName t n
    match b.pend with
    | none => t
    | some tok => { t with zombies := t.zombies ++ [(tok, b.cells)] }

/-- The value of predicate p (R13, R198): p7 is true. -/
def predVal (t : Thread) (p : Nat) : Bool := p == 7 || t.preds.getLsbD p

def evalPred (t : Thread) (q : Pred) : Bool := (predVal t q.p.val) != q.neg

/-- Writes a predicate; a write to p7 is discarded (R198). -/
def setPred (t : Thread) (p : Nat) (v : Bool) : Thread :=
  if p = 7 then t
  else
    let m : BitVec 8 := (1#8) <<< p
    { t with preds := if v then t.preds ||| m else t.preds &&& ~~~ m }

/-- Both guards hold (R62). -/
def guardsHold (t : Thread) (h : Hd) : Bool := evalPred t h.ga && evalPred t h.gb

def flagOf (t : Thread) (f : Nat) : Nat := t.flags.getD f 0

/-- Counts a flag up or down (R58). -/
def flagUp (t : Thread) (f : Nat) : Thread := { t with flags := t.flags.set f (flagOf t f + 1) }
def flagDown (t : Thread) (f : Nat) : Thread := { t with flags := t.flags.set f (flagOf t f - 1) }

end Sys2Proof.Machine
end

