-- ==== Sys2Proof/Machine/DebugWin.lean ====
section
/-! DEFINITION. The debug window (R398 to R403): the grant, the control block, and the thread records that a debugger reads and edits while a thread is halted. -/

namespace Sys2Proof.Machine

/-- The context holds an active debug grant (R399, DBG.EN). -/
def grantActive (s : State) (c : Nat) : Bool := (s.ctx c).dbg.getLsbD 63

def haltAll (s : State) (c : Nat) : Bool := (s.ctx c).dbgCtl.getLsbD 0
def traceOn (s : State) (c : Nat) : Bool := (s.ctx c).dbgCtl.getLsbD 1
def sampleOn (s : State) (c : Nat) : Bool := (s.ctx c).dbgCtl.getLsbD 2

/-- Fields of DBG (R422): debugger context, first observed core, observed cores. -/
def debuggerOf (s : State) (c : Nat) : Nat := ((s.ctx c).dbg.extractLsb' 57 6).toNat
def firstObserved (s : State) (c : Nat) : Nat := ((s.ctx c).dbg.extractLsb' 7 9).toNat
def observedCores (s : State) (c : Nat) : Nat := ((s.ctx c).dbg.extractLsb' 48 9).toNat + 1

namespace State

/-- The window's first physical address and its bytes (R399). -/
def dbgBase (s : State) (c : Nat) : Nat := ((s.ctx c).dbg.extractLsb' 16 24).toNat * 65536
def dbgSpan (s : State) (c : Nat) : Nat := 65536 + observedCores s c * (Config.slots * Config.W * 2048)

/-- The context in whose window an address lies. -/
def dbgWindow (s : State) (pa : Nat) : Option Nat :=
  (List.range Config.contexts).find? (fun c => grantActive s c && decide (s.dbgBase c ≤ pa) && decide (pa < s.dbgBase c + s.dbgSpan c))

/-- A range of physical addresses meets an active window: an agent that is neither its debugger nor the host may not reach it (R399). -/
def dbgMeets (s : State) (p : Nat × Nat) : Bool :=
  p.2 != 0 && (List.range Config.contexts).any (fun c => grantActive s c && decide (s.dbgBase c < p.1 + p.2) && decide (p.1 < s.dbgBase c + s.dbgSpan c))

/-- Offsets at which the window holds the control block or a thread record; the rest, the event ring among it, is memory. -/
def dbgHeld (off : Nat) : Bool := decide (off < 0x80) || (decide (0x100 ≤ off) && decide (off < 0x200)) || decide (0x10000 ≤ off)

/-- The context whose window holds the words of a line itself. -/
def dbgOwner (s : State) (line : Nat) : Option Nat :=
  match s.dbgWindow (128 * line) with
  | some c => if dbgHeld (128 * line - s.dbgBase c) then some c else none
  | none => none

/-- Thread records are refused while the seat's die is in RETAIN or OFF, and the whole window in RETIRED (R433). -/
def dbgShut (s : State) (c off : Nat) : Bool :=
  s.ident.state == 3
  || (decide (0x10000 ≤ off) && s.power[dieOf (firstObserved s c + (off - 0x10000) / 2048 / (Config.slots * Config.W))]?.any (fun p => decide (2 ≤ p.st)))

/-- The target's thread in the seat of a record. -/
def dbgSeat (s : State) (c off : Nat) : Option Thread :=
  let i := (off - 0x10000) / 2048
  let core := firstObserved s c + i / (Config.slots * Config.W)
  s.threads.find? (fun t => t.ctx == c && !t.exited && t.core == core && t.slot == i / Config.W % Config.slots && t.lane == i % Config.W)

/-- Word 0x000 of a thread record (R401, R402). -/
def haltWord (t : Thread) : Nat :=
  match t.halted with
  | some (r, ord) => 2 ^ 63 + r.toNat * 2 ^ 48 + ord.toNat * 2 ^ 32 + t.tag.toNat * 2 ^ 16
  | none => 0

/-- The record that may be accessed beyond its word 0x000: of a halted thread of a resident context (R402). -/
def dbgOpen (s : State) (c off : Nat) : Option (Thread × Edit) :=
  match s.dbgSeat c off with
  | none => none
  | some t => if (s.ctx c).st = 1 && t.halted.isSome then t.edit.map (fun e => (t, e)) else none

/-- FLAGS of R401. -/
def flagWord (t : Thread) : Nat := (t.flags.zipIdx).foldl (fun a p => a + p.1 % 8 * 2 ^ (3 * p.2)) 0

/-- A word of an open record (R401). -/
def recordWord (t : Thread) (e : Edit) (ro : Nat) : Nat :=
  if ro = 0x08 then e.pc.toNat
  else if ro = 0x10 then e.cmd
  else if ro = 0x18 then (e.preds ||| 0x80#8).toNat
  else if ro = 0x20 then flagWord t
  else if ro = 0x28 then e.draw.toNat
  else if ro < 0x40 then 0
  else match e.names.find? (fun p => p.1 == (ro - 0x40) / 16) with
    | none => 0
    | some (_, b) =>
      if ro % 16 = 0 then b.value.toNat else b.count.toNat * 2 ^ 60 + (if b.wide then 2 ^ 59 else 0) + b.prod.toNat % 2 ^ 48

/-- A word of the control block (R400). -/
def controlWord (x : Context) (off : Nat) : Nat :=
  if off = 0 then x.dbgCtl.toNat
  else if off = 8 then x.dbgRange.toNat
  else if off = 0x10 then x.dbgHead.toNat
  else if off = 0x18 then x.dbgTail.toNat
  else if off = 0x20 then x.dbgLost.toNat
  else if off < 0x100 then 0
  else
    let b := x.dbgBrk.getD ((off - 0x100) / 16) (0#64, 0#64)
    if off % 16 = 0 then b.1.toNat else b.2.toNat

/-- A read of a held word, or none where it gets an error response (R402). -/
def dbgRead (s : State) (c off : Nat) : Option Nat :=
  if s.dbgShut c off then none
  else if off < 0x10000 then some (controlWord (s.ctx c) off)
  else
    let ro := (off - 0x10000) % 2048
    if ro = 0 then some (match s.dbgSeat c off with
      | some t => haltWord t
      | none => 0)
    else (s.dbgOpen c off).map (fun p => recordWord p.1 p.2 ro)

/-- A write of a word of the control block (R400). -/
def controlWrite (x : Context) (off v : Nat) : Option Context :=
  if off = 0 then (if 2 ^ 32 ≤ v then none else some { x with dbgCtl := BitVec.ofNat 64 v &&& 0xFFFF0007#64 })
  else if off = 8 then some { x with dbgRange := BitVec.ofNat 64 v &&& 0xFFFFFFFF#64 }
  else if off = 0x10 || off = 0x20 then none
  else if off = 0x18 then some { x with dbgTail := BitVec.ofNat 32 v }
  else if off < 0x100 then some x
  else
    let i := (off - 0x100) / 16
    let b := x.dbgBrk.getD i (0#64, 0#64)
    let w := BitVec.ofNat 64 v
    some { x with dbgBrk := x.dbgBrk.set i (if off % 16 = 0 then (w &&& 0x800000000000FFFF#64, b.2) else (b.1, w &&& 0xFFFFFFFFFFF8#64)) }

/-- A binding entry of the record, unbound where none stands. -/
def editName (e : Edit) (i : Nat) : Binding :=
  match e.names.find? (fun p => p.1 == i) with
  | some (_, b) => b
  | none => { value := 0#64, wide := false, count := 0#4, pend := none, prod := 0#64 }

/-- A write of a word of an open record (R401): none where it puts a nonzero value into a zero field or the word holds no writable field. -/
def recordWrite (e : Edit) (ro v : Nat) : Option Edit :=
  let w := BitVec.ofNat 64 v
  if ro = 0x08 then (if w &&& 0xFFFF000000000007#64 = 0#64 then some { e with pc := w } else none)
  else if ro = 0x10 then (if v < 4 then some { e with cmd := if v = 1 || v = 2 then v else 0 } else none)
  else if ro = 0x18 then (if v < 256 then some { e with preds := BitVec.ofNat 8 v &&& 0x7F#8 } else none)
  else if ro = 0x28 then some { e with draw := w }
  else if ro < 0x40 || 0x40 + 16 * 112 ≤ ro then none
  else
    let i := (ro - 0x40) / 16
    let b := editName e i
    if ro % 16 = 0 then some { e with names := insertName i { b with value := w } e.names }
    else if w.extractLsb' 48 11 != 0#11 then none
    else some { e with names := insertName i { b with count := w.extractLsb' 60 4, wide := w.getLsbD 59, prod := w &&& 0xFFFFFFFFFFFF#64 } e.names }

/-- A write of a held word, or none where it gets an error response. -/
def dbgWrite (s : State) (c off v : Nat) : Option State :=
  if s.dbgShut c off then none
  else if off < 0x10000 then (controlWrite (s.ctx c) off v).map (fun x => s.setCtx c x)
  else
    let ro := (off - 0x10000) % 2048
    if ro = 0 then none
    else match s.dbgOpen c off with
      | none => none
      | some (t, e) => (recordWrite e ro v).map (fun e => s.updThread t.id (fun t => { t with edit := some e }))

/-- The 128 bytes of a held line; a word that gets an error response reads all ones (R110). -/
def dbgLine (s : State) (c line : Nat) : Line :=
  let off := 128 * line - s.dbgBase c
  (List.range 16).foldl (fun d i => LineOps.set d (8 * i) 8 ((s.dbgRead c (off + 8 * i)).getD (2 ^ 64 - 1))) 0#1024

/-- The value that a write of masked bytes to a held line gives word `i` of it. -/
def dbgMerged (s : State) (c line : Nat) (m : LineMask) (d : Line) (i : Nat) : Nat :=
  let old := LineOps.set 0#1024 (8 * i) 8 ((s.dbgRead c (128 * line - s.dbgBase c + 8 * i)).getD 0)
  LineOps.get (LineOps.merge m old d) (8 * i) 8

/-- The words of a line of which a write gives bytes. -/
def wordsOf (m : LineMask) : List Nat := (List.range 16).filter (fun i => (m >>> (8 * i)) &&& 0xFF#128 != 0#128)

/-- The window refuses a write of `n` bytes for its value (R400, R401: a nonzero value in a zero field). -/
def dbgValueRefused (s : State) (pa n v : Nat) : Bool :=
  match s.dbgOwner (pa / 128) with
  | none => false
  | some c =>
    let m := LineOps.mask (pa % 128) n
    (wordsOf m).any (fun i =>
      (s.dbgWrite c (128 * (pa / 128) - s.dbgBase c + 8 * i) (s.dbgMerged c (pa / 128) m (LineOps.set 0#1024 (pa % 128) n v) i)).isNone)

/-- A refused access to the window (R110). -/
def dbgRefused (s : State) (c pa : Nat) : State := s.logRefused 7 c 0 false (BitVec.ofNat 64 pa) 0x07 2 0#64

/-- A write of masked bytes to a held line, word by word in ascending order; a word that gets an error response keeps its value and is logged. -/
def dbgStore (s : State) (c line : Nat) (m : LineMask) (d : Line) : State :=
  let base := 128 * line - s.dbgBase c
  (wordsOf m).foldl (fun s i => match s.dbgWrite c (base + 8 * i) (s.dbgMerged c line m d i) with
    | some s => s
    | none => s.dbgRefused c (128 * line + 8 * i)) s

/-- An access by an agent of context `a` to bytes of a window is refused (R399, R402). -/
def dbgRefuses (s : State) (a pa n : Nat) (write : Bool) : Bool :=
  match s.dbgWindow pa with
  | none => false
  | some c =>
    let off := pa - s.dbgBase c
    let words := (List.range ((off % 8 + n + 7) / 8)).map (fun i => off / 8 * 8 + 8 * i)
    debuggerOf s c != a || s.dbgShut c 0 || words.any (fun o => dbgHeld o && (if write then
        s.dbgShut c o || (if o < 0x10000 then o == 0x10 || o == 0x20
         else (o - 0x10000) % 2048 == 0 || (o - 0x10000) % 2048 == 0x20 || (o - 0x10000) % 2048 == 0x30 || (o - 0x10000) % 2048 == 0x38
              || (s.dbgOpen c o).isNone)
      else (s.dbgRead c o).isNone))

end State

end Sys2Proof.Machine
end

