-- ==== Sys2Proof/Machine/Vale.lean ====
section
/-! DEFINITION. Physical memory: the address map (R81), the stacks with their encryption (R430), the format decode (R84 to R92), and the
last-level cache slices (R93, R95), with the times of coupled lines (R277). -/

namespace Sys2Proof.Machine

/-- The ranges of R81. -/
inductive PaKind where
  | device | hole
  | view (n : Nat)
  | peer | control
deriving DecidableEq, Repr

namespace Frw

/-- Bytes of the view range (R85). -/
def viewBytes (w : Frw) : Nat := (if w.fmt == 0#4 then 256 else 128) * w.lines.toNat
def holds (w : Frw) (pa : Nat) : Bool := w.en && decide (w.view.toNat ≤ pa) && decide (pa < w.view.toNat + w.viewBytes)
/-- Bytes of the mantissa plane and of the scale plane (R86). -/
def manBytes (w : Frw) : Nat :=
  if w.fmt == 0#4 then w.lines.toNat * blocksPerLine w.w.toNat * (4 * w.w.toNat) else 128 * w.lines.toNat
def scaleBytes (w : Frw) : Nat := if w.fmt == 0#4 then w.lines.toNat * blocksPerLine w.w.toNat * 2 else 0

end Frw

/-- The set of a slice in which a line stands, numbered over all slices (R93, R99). -/
def valeKey (line : Nat) : Nat := homeDie (128 * line) * 32768 + Config.valeSet line % 32768

namespace State

/-- The enabled window whose view range holds the address (R84). -/
def viewOf (s : State) (pa : Nat) : Option Nat := (List.range 16).find? (fun n => (s.frw.getD n Frw.reset).holds pa)

def paKind (s : State) (pa : Nat) : PaKind :=
  if pa < 0x00C000000000 then .device
  else if pa < 0x010000000000 then .hole
  else if pa < 0x020000000000 then (match s.viewOf pa with
    | some n => .view n
    | none => .hole)
  else if pa < 0x4000000000000 then .hole
  else if pa < 0x8000000000000 then .peer
  else if pa < 0x8000100000000 then .control
  else .hole

/-- The peer that an aperture address names, and whether it is reachable (R81, R426). -/
def peerReach (s : State) (pa : Nat) : Bool :=
  match s.levels.find? (fun p => p.1 == pa / 2 ^ 40 % 1024) with
  | some p => p.2 != 0
  | none => false

def pageRetired (s : State) (pa : Nat) : Bool := s.retired.contains (pa / 65536)

/-- The bytes of the planes, as first byte and length, from which a fill builds a view line: both lines of a pair (R87). -/
def planeBytes (s : State) (n line : Nat) : List (Nat × Nat) :=
  let w := s.frw.getD n Frw.reset
  let off := 128 * line - w.view.toNat
  if w.fmt == 0#4 then
    let b := blocksPerLine w.w.toNat
    let l := off / 256
    [(w.mpl.toNat + l * b * (4 * w.w.toNat), b * (4 * w.w.toNat)), (w.spl.toNat + l * b * 2, 2 * b)]
  else [(w.mpl.toNat + off, 128)]

/-- A byte range touches a retired page. -/
def rangeRetired (s : State) (p : Nat × Nat) : Bool := p.2 != 0 && (s.pageRetired p.1 || s.pageRetired (p.1 + p.2 - 1))

/-- Why the Col may not reach plane bytes: a page of them is retired (R99), or they stand in a debug window (R399). -/
def planeFault (s : State) (p : Nat × Nat) : Option (Nat × Nat) :=
  if s.rangeRetired p then some (0x0C, 3) else if s.dbgMeets p then some (7, 2) else none

/-- Why the home refuses an access that reaches it (R81, R99): code and sub-code. A view line that the Vale does not hold cannot be built from plane bytes that the Col
may not reach. -/
def homeFault (s : State) (pa : Nat) : Option (Nat × Nat) :=
  match s.paKind pa with
  | .device => if s.pageRetired pa then some (0x0C, 3) else none
  | .view n =>
    if s.pageRetired pa then some (0x0C, 3)
    else if s.vale.any (fun v => v.line == pa / 128) then none
    else (s.planeBytes n (pa / 128)).findSome? s.planeFault
  | .peer => none
  | .hole | .control => some (7, 2)

/-! ## Stacks -/

/-- The keys under which a line is written and read now (R430). -/
def keysFor (s : State) (line : Nat) : Option Keys :=
  match s.ident.kmap.find? (fun p => p.1 == line / 2 ^ 23) with
  | some (_, k) => if k.getLsbD 7 then some (s.ident.keyslots.getD (k.toNat % 64) 0#512) else none
  | none => none

def encOf (s : State) (line : Nat) : Option Keys := (s.enc.find? (fun p => p.1 == line)).map Prod.snd

def stackRead (s : State) (line : Nat) : Line :=
  let d := LineOps.ofCells s.mem line
  let was := s.encOf line
  let now := s.keysFor line
  if was = now then d else Config.xtsMix was now line d

def stackWrite (s : State) (line : Nat) (d : Line) : State :=
  let rest := s.enc.filter (fun p => p.1 != line)
  { s with
    mem := LineOps.toCells s.mem line d
    enc := match s.keysFor line with
      | none => rest
      | some k => rest ++ [(line, k)] }

/-! ## Times of coupled lines (R277) -/

def lease (s : State) (line : Nat) : Lease :=
  (s.leases.find? (fun l => l.line == line)).getD { line := line, wts := 0, rts := 0 }

def setLease (s : State) (l : Lease) : State := { s with leases := s.leases.filter (fun k => k.line != l.line) ++ [l] }

/-- A write or word operation of an agent without a logical clock: it takes time rts + 1 (R277). It carries the times of the agents' earlier accesses to what
acquires it (R278, R360; log entry 56). -/
def stampWrite (s : State) (line : Nat) : State :=
  let l := s.lease line
  let t := max s.agentClock (l.rts + 1)
  { s.setLease { line := line, wts := l.rts + 1, rts := l.rts + 1, carry := max l.carry t } with agentClock := t }

/-- A read by such an agent takes time wts (R277), and what it acquires goes before the agents' later writes (R278; log entry 56). -/
def stampRead (s : State) (line : Nat) : State :=
  let l := s.lease line
  { s with agentClock := max s.agentClock (max l.wts l.carry) }

/-- A thread's clock rises: its count of leased loads returns to zero (R279). -/
def setClock (s : State) (tid c : Nat) : State := s.updThread tid (fun t => { t with lclock := c, leased := 0 })

/-- A write at the home by a thread with its clock: coupled stores and word operations (R277). -/
def timedWrite (s : State) (tid line : Nat) : State :=
  let c := match s.thread tid with
    | some t => t.lclock
    | none => 0
  let l := s.lease line
  let t := max c l.rts + 1
  (s.setLease { line := line, wts := t, rts := t, carry := max l.carry t }).setClock tid t

/-- A release carries the times of what its issuer has done and acquired, up to `time`, to the acquires that read the word (R271, R272; log entry 56). -/
def releaseAt (s : State) (line time : Nat) : State :=
  let l := s.lease line
  if time ≤ l.carry then s else s.setLease { l with carry := time }

/-- The start of a task's clocks: above every time that has been assigned, so that every lease of a copy has ended (R273, R277). -/
def startClock (s : State) : Nat := s.leases.foldl (fun m l => max m l.rts) 0 + 1

/-- The latest time that a thread's own accesses have taken or that its acquires have handed to it. -/
def threadTime (s : State) (tid : Nat) : Nat :=
  match s.thread tid with
  | some t => max t.lclock t.floor
  | none => s.startClock

/-! ## Words that wait at the home (R165, R168) -/

/-- AWAIT's condition on the word's value (R165). -/
def awaitHolds (ty : ElemTy) (c : AwaitCond) (x v : Nat) : Bool :=
  let a := asInt (ElemTy.signed ty) ty.bits x
  let b := asInt (ElemTy.signed ty) ty.bits (v % 2 ^ ty.bits)
  match c with
  | .eq => x == v % 2 ^ ty.bits
  | .ne => x != v % 2 ^ ty.bits
  | .ge => decide (b ≤ a)
  | .lt => decide (a < b)
  | .any => x &&& v != 0
  | .none => x &&& v == 0

/-- A counter or barrier word that refuses every operation (R162, R168): nonzero reserved bits, or T = 1 at a wrong address. -/
def wordBad (w : W64) (pa : Nat) : Bool :=
  if w.getLsbD 63 then w.extractLsb' 48 14 != 0#14
  else w.extractLsb' 32 29 != 0#29 || (w.getLsbD 62 && pa % 128 != 8)

/-- An operation has been performed at its home with a value; a coupled line takes its time (R277). -/
def wordDone (s : State) (o : Op) (w : WordReq) (v : Nat) : State :=
  let s := if w.cpl then s.timedWrite o.tid (w.pa / 128) else s
  s.updOp o.id (fun p => { p with result := some v })

/-- A refusal at the home of an access that a thread has issued: logged, and a deferred fault for the thread (R168; log entry 52). -/
def accessRefused (s : State) (o : Op) (tid code sub : Nat) (va addr : W64) : State :=
  let s := s.logRefused 0 o.ctx o.core true va code sub (s.laneMask tid)
  s.updThread tid (fun t => if t.exited then t else
    { t with deferred := t.deferred ++ [{ code := code, sub := sub, addr := addr, src := 0, due := .mem, since := s.clk, va := true }] })

/-- A refusal of a word operation (R168): a deferred PROT; the value stands for the destination. -/
def wordRefused (s : State) (o : Op) (v : Nat) : State :=
  (s.accessRefused o o.tid 7 6 o.va o.va).updOp o.id (fun p => { p with result := some v })

/-- A wait on a word that reads `x` is refused (R165, R168): BARWT on a word that is no barrier word. -/
def waitRefused (op : WordOp) (pa x : Nat) : Bool :=
  match op with
  | .barwt _ => wordBad (BitVec.ofNat 64 x) pa || !x.testBit 63
  | _ => false

/-- The test of a waiting word against the bytes of its line (R165): answered, refused, or still waiting. -/
def wordTest (s : State) (o : Op) (w : WordReq) (d : Line) (early : Bool) : State :=
  let x := LineOps.get d (w.pa % 128) w.size
  if waitRefused w.op w.pa x then s.wordRefused o (x % 2 ^ 32)
  else match w.op with
  | .await ty c v => if early || awaitHolds ty c x v.toNat then s.wordDone o w x else s
  | .barwt phase =>
    let ph := x / 2 ^ 32 % 2 ^ 16
    if early || ph != phase.toNat % 2 ^ 16 then s.wordDone o w ph else s
  | _ => s

/-- A peer's wait ends: the peer receives the value. -/
def peerAnswer (s : State) (w : PeerWait) (v : Nat) : State :=
  { s with peerWaits := s.peerWaits.filter (fun x => x.id != w.id), lastRead := BitVec.ofNat 128 v }

/-- A peer's access is refused: logged, and an error completion, which reads as all ones (R110). -/
def peerRefused (s : State) (c pa code sub : Nat) : State :=
  { s.logRefused 6 c 0 false (BitVec.ofNat 64 pa) code sub 0#64 with lastRead := BitVec.allOnes 128 }

/-- The test of a peer's wait against the bytes of its line (R94, R165). -/
def peerTest (s : State) (w : PeerWait) (d : Line) (early : Bool) : State :=
  let x := LineOps.get d (w.pa % 128) w.size
  if waitRefused w.op w.pa x then (s.peerAnswer w 0).peerRefused w.ctx w.pa 7 6
  else match w.op with
  | .await ty c v => if early || awaitHolds ty c x v.toNat then s.peerAnswer w x else s
  | .barwt phase =>
    let ph := x / 2 ^ 32 % 2 ^ 16
    if early || ph != phase.toNat % 2 ^ 16 then s.peerAnswer w ph else s
  | _ => s

/-- A debug window refuses a wait that stands on one of its words: the record has closed since, or the context is not the debugger (R399, R402). -/
def waitClosed (s : State) (o : Op) (w : WordReq) : Bool := s.dbgRefuses o.ctx w.pa w.size false

/-- Such a wait ends with a refusal (log entry 52); the bytes that it answers are open. -/
def waitShut (s : State) (o : Op) (w : WordReq) : State :=
  let (s, v) := s.peerRead w.size
  (s.accessRefused o o.tid 7 2 o.va o.va).updOp o.id (fun p => { p with result := some v })

/-- A peer's wait on a word that has come to stand in a debug window is refused (R399). -/
def peerShut (s : State) (w : PeerWait) : State := (s.peerAnswer w 0).peerRefused w.ctx w.pa 7 2

/-- After a write to a line, the home tests every word that waits on it again (R165). -/
def retest (s : State) (line : Nat) (d : Line) : State :=
  let s := s.ops.foldl (fun s o => match o.kind with
    | .word w => if w.here && o.result.isNone && w.pa / 128 == line then (if s.waitClosed o w then s.waitShut o w else s.wordTest o w d false) else s
    | _ => s) s
  s.peerWaits.foldl (fun s w => if w.pa / 128 == line then (if (s.dbgWindow w.pa).isSome then s.peerShut w else s.peerTest w d false) else s) s

/-! ## Vale lines -/

def valeFind (s : State) (line : Nat) : Option ValeLine := s.vale.find? (fun v => v.line == line)

def setVale (s : State) (v : ValeLine) : State := { s with vale := s.vale.filter (fun u => u.line != v.line) ++ [v] }

def dropVale (s : State) (line : Nat) : State := { s with vale := s.vale.filter (fun u => u.line != line) }

/-- A line of device memory as the Vale holds it, or as its stack does. -/
def devLine (s : State) (line : Nat) : Line :=
  match s.valeFind line with
  | some v => v.data
  | none => s.stackRead line

/-- Fills a line of device memory into the Vale, owned by `ctx` (R95). -/
def fillDev (s : State) (line ctx : Nat) : State :=
  match s.valeFind line with
  | some _ => s
  | none => s.setVale { line := line, data := s.stackRead line, owner := ctx, dirty := false }

/-- Writes back a dirty line of device memory, so that it is clean. -/
def cleanDev (s : State) (line : Nat) : State :=
  match s.valeFind line with
  | some v => if v.dirty then (s.stackWrite line v.data).setVale { v with dirty := false } else s
  | none => s

/-- A write of masked bytes to a line: a code page whose table entry it rewrites is verified no longer (R382). -/
def unverify (s : State) (line : Nat) (m : LineMask) : State :=
  { s with contexts := s.contexts.map (fun (x : Context) => { x with
      verified := x.verified.filter (fun p => !p.2.any (fun a => a / 128 == line && m.extractLsb' (a % 128) 8 != 0#8)) }) }

/-- A write of the masked bytes by context `ctx` (R95): a line dirty under another owner is written back first. -/
def writeDev (s : State) (line ctx : Nat) (m : LineMask) (d : Line) : State :=
  let s := s.fillDev line ctx
  let s := match s.valeFind line with
    | some v => if v.dirty && v.owner != ctx then s.cleanDev line else s
    | none => s
  match s.valeFind line with
  | some v =>
    let n := LineOps.merge m v.data d
    ((s.unverify line m).setVale { line := line, data := n, owner := ctx, dirty := true }).retest line n
  | none => s

/-- Bytes of device memory through the Vale, for the planes (R84, R86). -/
def devBytes (s : State) (pa n : Nat) : List Byte :=
  (List.range n).map (fun i => BitVec.ofNat 8 (LineOps.get (s.devLine ((pa + i) / 128)) ((pa + i) % 128) 1))

def devWriteBytes (s : State) (ctx pa : Nat) (l : List Byte) : State :=
  (l.zipIdx).foldl (fun s p =>
    let a := pa + p.2
    s.writeDev (a / 128) ctx (LineOps.mask (a % 128) 1) (LineOps.set 0#1024 (a % 128) 1 p.1.toNat)) s

/-! ## The format decode -/

/-- A view line built from the planes (R85, R87), and whether an I4S nibble 0x8 was replaced. -/
def colBuild (s : State) (n line : Nat) : Line × Bool :=
  let w := s.frw.getD n Frw.reset
  let off := 128 * line - w.view.toNat
  if w.fmt == 0#4 then
    let b := blocksPerLine w.w.toNat
    let l := off / 256
    let bytes := if off % 256 < 128
      then s.devBytes (w.mpl.toNat + l * b * (4 * w.w.toNat)) (b * (4 * w.w.toNat))
      else s.devBytes (w.spl.toNat + l * b * 2) (2 * b)
    (BitVec.ofNat 1024 (leNat bytes), false)
  else
    let bytes := s.devBytes (w.mpl.toNat + off) 128
    let nibs := bytes.flatMap (fun x => [x.toNat % 16, x.toNat / 16])
    (BitVec.ofNat 1024 ((nibs.map (fun v => if v = 8 then 0 else v)).foldr (fun v acc => acc * 16 + v) 0),
     nibs.any (fun v => v == 8))

/-- A write of plane bytes by the Col; one to a retired page or into a debug window is discarded and logged (R99, R110, R399). -/
def planeWrite (s : State) (ctx pa : Nat) (l : List Byte) : State :=
  match s.planeFault (pa, l.length) with
  | some (code, sub) => s.logRefused 8 ctx 0 false (BitVec.ofNat 64 pa) code sub 0#64
  | none => s.devWriteBytes ctx pa l

/-- Splits a view line into the planes (R88). -/
def colSplit (s : State) (n line ctx : Nat) (d : Line) : State :=
  let w := s.frw.getD n Frw.reset
  let off := 128 * line - w.view.toNat
  if w.fmt == 0#4 then
    let b := blocksPerLine w.w.toNat
    let l := off / 256
    if off % 256 < 128
    then s.planeWrite ctx (w.mpl.toNat + l * b * (4 * w.w.toNat)) (leBytes d.toNat (b * (4 * w.w.toNat)))
    else s.planeWrite ctx (w.spl.toNat + l * b * 2) (leBytes d.toNat (2 * b))
  else s.planeWrite ctx (w.mpl.toNat + off) (leBytes d.toNat 128)

/-- Marks RSV of window `n` in the copy of a die (R87, R89). -/
def markRsv (s : State) (n die : Nat) : State :=
  { s with frw := s.frw.set n (let w := s.frw.getD n Frw.reset
                               { w with rsv := w.rsv ||| ((1#8) <<< die) }) }

/-- Fills one view line (R87). A line of a pair that the Vale already holds stays as it is, and one of which the Col may not reach the plane is not
built: the model's choices (log entries 65 and 52). -/
def fillViewOne (s : State) (n line ctx : Nat) : State :=
  match s.valeFind line with
  | some _ => s
  | none =>
    if (s.planeBytes n line).any (fun p => (s.planeFault p).isSome) then s else
    let (d, r) := s.colBuild n line
    let s := s.setVale { line := line, data := d, owner := ctx, dirty := false }
    if r then s.markRsv n (homeDie (128 * line)) else s

/-- Fills a view line; a BFP window fills both lines of the pair (R87). -/
def fillView (s : State) (n line ctx : Nat) : State :=
  let w := s.frw.getD n Frw.reset
  if w.fmt == 0#4 then
    let first := line - line % 2
    (s.fillViewOne n first ctx).fillViewOne n (first + 1) ctx
  else s.fillViewOne n line ctx

/-- Writes a dirty line back to its stack, or through the Col to the planes (R88, R95); the line stays, clean. -/
def cleanLine (s : State) (line : Nat) : State :=
  match s.valeFind line with
  | none => s
  | some v =>
    if !v.dirty then s
    else match s.paKind (128 * line) with
      | .view n => (s.colSplit n line v.owner v.data).setVale { v with dirty := false }
      | _ => s.cleanDev line

/-- The bit fields that a write of CTL sets while a window is disabled (R89). -/
def frwFields (w : Frw) (v : W64) : Frw := { w with fmt := v.extractLsb' 16 4, w := v.extractLsb' 8 4 }

/-- A flush is complete (R90, R91): dirty view lines go back through the Col, no view line of the window is left, FLUSH reads 0, and a write of EN = 0 that
waited for it takes effect. -/
def flushView (s : State) (n : Nat) : State :=
  let w := s.frw.getD n Frw.reset
  let mine := (s.vale.filter (fun l => w.holds (128 * l.line))).map ValeLine.line
  let s := mine.foldl (fun s l => (s.cleanLine l).dropVale l) s
  let w := s.frw.getD n Frw.reset
  { s with frw := s.frw.set n (match w.closing with
    | some v => frwFields { w with en := false, flush := false, closing := none } v
    | none => { w with flush := false }) }

/-- An access that reaches a view line of a window being flushed waits at the Vale and proceeds after the flush (R91): the flush is complete first. -/
def settleView (s : State) (pa : Nat) : State :=
  match s.paKind pa with
  | .view n => if (s.frw.getD n Frw.reset).flush then s.flushView n else s
  | _ => s

/-- Makes sure that the home Vale holds the line (R93). -/
def fillHome (s : State) (line ctx : Nat) : State :=
  match s.paKind (128 * line) with
  | .view n =>
    let s := s.settleView (128 * line)
    if (s.frw.getD n Frw.reset).en then s.fillView n line ctx else s
  | .device => s.fillDev line ctx
  | _ => s

/-- The line as its home holds it after a fill. -/
def homeLine (s : State) (line : Nat) : Line :=
  match s.valeFind line with
  | some v => v.data
  | none => 0#1024

/-- A read of a line at its home by `ctx`; the words of a debug window that the device itself holds stand in no cache line (R402). -/
def homeRead (s : State) (line ctx : Nat) : State × Line :=
  match s.dbgOwner line with
  | some c => (s, s.dbgLine c line)
  | none =>
    let s := s.fillHome line ctx
    (s, s.homeLine line)

/-- A write of masked bytes to a line of memory at its home (R95). -/
def memWrite (s : State) (line ctx : Nat) (m : LineMask) (d : Line) : State :=
  let s := s.fillHome line ctx
  let s := match s.valeFind line with
    | some v => if v.dirty && v.owner != ctx then s.cleanLine line else s
    | none => s
  let s := s.fillHome line ctx
  let n := LineOps.merge m (s.homeLine line) d
  ((s.unverify line m).setVale { line := line, data := n, owner := ctx, dirty := true }).retest line n

/-- A write of masked bytes at the home by `ctx` (R95, R402). One that the home refuses is discarded and logged (R99, R110). -/
def homeWrite (s : State) (line ctx : Nat) (m : LineMask) (d : Line) : State :=
  match s.dbgOwner line with
  | some c =>
    let s := s.dbgStore c line m d
    s.retest line (s.dbgLine c line)
  | none =>
    let s := s.settleView (128 * line)
    match s.homeFault (128 * line) with
    | some (code, sub) => s.logRefused 8 ctx 0 false (BitVec.ofNat 64 (128 * line)) code sub 0#64
    | none => s.memWrite line ctx m d

/-- The device has changed a word of a window that it holds: it takes a time, and the words that wait on its line are tested (R165, R402). -/
def dbgTouch (s : State) (c off : Nat) : State :=
  if !grantActive s c then s
  else
    let line := (s.dbgBase c + off) / 128
    (s.stampWrite line).retest line (s.dbgLine c line)

/-- A naturally aligned number of `n` bytes at its home. -/
def homeReadN (s : State) (pa n ctx : Nat) : State × Nat :=
  let (s, l) := s.homeRead (pa / 128) ctx
  (s, LineOps.get l (pa % 128) n)

def homeWriteN (s : State) (pa n ctx v : Nat) : State :=
  s.homeWrite (pa / 128) ctx (LineOps.mask (pa % 128) n) (LineOps.set 0#1024 (pa % 128) n v)

/-- Accesses to the view lines of a window being flushed wait at the Vale (R91). -/
def viewBusy (s : State) (pa : Nat) : Bool :=
  match s.paKind pa with
  | .view n => (s.frw.getD n Frw.reset).flush
  | _ => false

/-- A write at the home by the device or the host: the bytes and their time (R277, R283). -/
def agentWriteN (s : State) (pa n ctx v : Nat) : State := (s.stampWrite (pa / 128)).homeWriteN pa n ctx v

end State

end Sys2Proof.Machine
end

