-- ==== Sys2Proof/Machine/Translate.lean ====
section
/-! DEFINITION. Translation (R102 to R105, R109), stash addresses (R111), declared regions (R335) and the checks of one lane's access in the
order of R107. -/

namespace Sys2Proof.Machine

/-! ## The walk -/

/-- The index of a level (R102). -/
def levelIndex (level va : Nat) : Nat :=
  match level with
  | 1 => va / 2 ^ 39 % 512
  | 2 => va / 2 ^ 30 % 512
  | 3 => va / 2 ^ 21 % 512
  | _ => va / 2 ^ 16 % 32

/-- log2 of the page that a leaf of the level maps (R102). -/
def levelBits (level : Nat) : Nat :=
  match level with
  | 2 => 30
  | 3 => 21
  | _ => 16

/-- The checks of one table entry in the order of R103; an error is the sub-code of XLATE. -/
def entryError (level : Nat) (e : W64) : Option Nat :=
  let pa := (e.extractLsb' 8 44).toNat * 256
  let leaf := e.getLsbD 1
  if !e.getLsbD 0 then some 1
  else if e.extractLsb' 60 4 != 0#4 || e.extractLsb' 52 4 != 0#4 || e.extractLsb' 5 3 != 0#3 then some 2
  else if (leaf && level == 1) || (!leaf && level == 4) then some 3
  else if leaf && pa % 2 ^ (levelBits level) != 0 then some 3
  else if !leaf && pa % (if level == 3 then 256 else 4096) != 0 then some 3
  else none

/-- A walk of context `c` from a table at `tbl`, through the levels left (R102, R103, R109), with the page size of its leaf. A table in a debug window is open to the
debugger alone (R399). -/
def walkFrom (s : State) (c va tbl : Nat) : List Nat → Walk × Nat
  | [] => (.xlate 3, 16)
  | level :: rest =>
    let pa := tbl + 8 * levelIndex level va
    match s.paKind pa with
    | .device =>
      if s.pageRetired pa then (.ras 4 pa, 16)
      else if s.dbgRefuses c pa 8 false then (.hole pa, 16)
      else
        let line := match s.dbgOwner (pa / 128) with
          | some d => s.dbgLine d (pa / 128)
          | none => s.devLine (pa / 128)
        let e := BitVec.ofNat 64 (LineOps.get line (pa % 128) 8)
        match entryError level e with
        | some sub => (.xlate sub, levelBits level)
        | none =>
          let base := (e.extractLsb' 8 44).toNat * 256
          if e.getLsbD 1 then (.leaf base (e.getLsbD 2) (e.getLsbD 3) (e.getLsbD 4), levelBits level)
          else walkFrom s c va base rest
    | _ => (.hole pa, 16)

/-- A walk for a context and a page number (R102). -/
def walkPage (s : State) (c page : Nat) : TlbEntry :=
  let va := page * 65536
  let (w, b) := walkFrom s c va (s.ctx c).root.toNat [1, 2, 3, 4]
  { ctx := c, va := va / 2 ^ b * 2 ^ b, bits := b, walk := w }

/-- The TLB entry of a core for an address (R104). -/
def tlbFind (s : State) (core c va : Nat) : Option TlbEntry :=
  (s.core core).tlb.find? (fun e => e.ctx == c && decide (e.va ≤ va) && decide (va < e.va + 2 ^ e.bits))

/-- What an access asks of its leaf. -/
structure Rights where
  r : Bool
  w : Bool
  x : Bool
deriving DecidableEq, Repr

/-- The outcome of a translation: a physical address, a missing TLB entry, or a fault with the virtual address (stage in the order of R107: 3 XLATE, 4 PROT, 5
RAS). -/
inductive Xlat where
  | ok (pa : Nat)
  | miss (page : Nat)
  | bad (stage code sub : Nat) (addr : W64)
deriving DecidableEq, Repr

/-- The fault of a translated address (R81, R99, R103, R426). Control space is for the firmware context alone, and the spec gives that context no number: in the
model no context is it, so that each of them takes PROT there (DESIGN CHOICE, log entry 53). -/
def paFault (s : State) (pa : Nat) (va : W64) : Option (Nat × Nat × Nat × W64) :=
  match s.paKind pa, s.homeFault pa with
  | .peer, _ => if s.peerReach pa then none else some (4, 0x07, 2, va)
  | _, some (0x0C, sub) => some (5, 0x0C, sub, va)
  | _, some (code, sub) => some (4, code, sub, va)
  | _, none => none

/-- The leaf's rights and the physical range (R103). -/
def useWalk (s : State) (e : TlbEntry) (va : W64) (rt : Rights) : Xlat :=
  match e.walk with
  | .xlate sub => .bad 3 0x06 sub va
  | .ras sub _ => .bad 5 0x0C sub va
  | .hole _ => .bad 4 0x07 2 va
  | .leaf base r w x =>
    if (rt.r && !r) || (rt.w && !w) || (rt.x && !x) then .bad 4 0x07 1 va
    else
      let pa := base + (va.toNat - e.va)
      match paFault s pa va with
      | some (st, c, sub, a) => .bad st c sub a
      | none => .ok pa

/-- A core's translation through its TLB. -/
def translate (s : State) (core c : Nat) (va : W64) (rt : Rights) : Xlat :=
  match tlbFind s core c va.toNat with
  | none => .miss (va.toNat / 65536)
  | some e => useWalk s e va rt

/-- FLTADDR of an access that fails its checks (R372): the virtual address, and for RAS the physical one that its translation names. -/
def fltAddr (s : State) (core c code : Nat) (va : W64) : W64 :=
  if code != 0x0C then va
  else match tlbFind s core c va.toNat with
    | none => va
    | some e => match e.walk with
      | .ras _ pa => BitVec.ofNat 64 pa
      | .leaf base _ _ _ => BitVec.ofNat 64 (base + (va.toNat - e.va))
      | _ => va

/-- A translation of a unit that walks by itself (task engine, ladder unit, home). -/
def translateDirect (s : State) (c : Nat) (va : W64) (rt : Rights) : Xlat :=
  if va.extractLsb' 48 16 != 0#16 then .bad 3 0x06 4 va
  else useWalk s (walkPage s c (va.toNat / 65536)) va rt

/-! ## Regions (R335) -/

def Region.bytes (r : Region) : Nat := 256 * r.ext
def Region.holds (r : Region) (va n : Nat) : Bool := r.mode != 0 && decide (r.base ≤ va) && decide (va + n ≤ r.base + r.bytes)

/-- The region of a task that holds all the bytes. -/
def regionOf (k : Task) (va n : Nat) : Option Region := k.regions.find? (fun r => r.holds va n)

/-- Modes: 1 R, 2 W, 3 RW, 4 CPL, 5 SCR, 6 X (R323). -/
def regionOk (k : Task) (va n : Nat) (modes : List Nat) : Bool :=
  match regionOf k va n with
  | some r => modes.contains r.mode
  | none => false

def isCoupled (k : Task) (va n : Nat) : Bool :=
  match regionOf k va n with
  | some r => r.mode == 4
  | none => false

/-! ## Windows -/

def Gang.window (g : Gang) (c w : Nat) : Option Window :=
  match g.windows[c]? with
  | some l => l[w]?
  | none => none

/-- The mapped window of a gang whose range holds the address: gang core and window (R116). -/
def mappedAt (g : Gang) (va : Nat) : Option (Nat × Nat) :=
  (List.range g.cores).findSome? (fun c =>
    (List.range 16).findSome? (fun w =>
      match g.window c w with
      | some { kind := .mapped m, .. } =>
        if m.base.toNat ≤ va ∧ va < m.base.toNat + 256 * m.ext then some (c, w) else none
      | _ => none))

/-- The window that holds a slot on a gang core. -/
def slotWindow (g : Gang) (c slot : Nat) : Option (Nat × Window) :=
  (List.range 16).findSome? (fun w =>
    match g.window c w with
    | some x => if x.kind != .absent ∧ x.fs ≤ slot ∧ slot < x.fs + x.s then some (w, x) else none
    | none => none)

/-- A stash address as (gang core, byte offset), or none where R111 refuses it; `hi` are the bits [63:32] of a 64-bit operand. -/
def stashAt (g : Gang) (addr : W64) : Option (Nat × Nat) :=
  let a := addr.toNat
  if a ≥ 2 ^ 24 then none
  else
    let c := a / 2 ^ 20
    let off := a % 2 ^ 20
    if c ≥ g.cores then none
    else match slotWindow g c (off / 256) with
      | some (_, { kind := .mapped _, .. }) => none
      | some _ => some (c, off)
      | none => none

/-- All the bytes of a stash access lie in windows that admit it (R111). -/
def stashRange (g : Gang) (addr : W64) (n : Nat) : Option (Nat × Nat) :=
  match stashAt g addr with
  | none => none
  | some (c, off) =>
    if (List.range (n / 256 + 2)).all (fun i =>
          let o := min (off + 256 * i) (off + n - 1)
          decide (o < 2 ^ 20) && (stashAt g (BitVec.ofNat 64 (c * 2 ^ 20 + o))).isSome)
    then some (c, off) else none

/-! ## One lane's check -/

/-- An access to check: address, bytes, alignment, rights, modes admitted, and whether it is a word operation (R107, R157, R335). -/
structure Acc where
  va : W64
  size : Nat
  align : Nat
  rt : Rights
  modes : List Nat
  word : Bool
  /-- an AWAIT, which only reads where the debug window is concerned (R402) -/
  await : Bool := false
deriving DecidableEq, Repr

/-- The outcome of a lane's check: where the access is performed, a missing TLB entry, or its failing check. Stages: 0 ALIGN, 1 address form,
2 UNDECL, 3 XLATE, 4 PROT, 5 RAS. -/
inductive LaneRes where
  | ok (t : Target)
  | miss (page : Nat)
  | bad (stage code sub : Nat) (addr : W64)
deriving DecidableEq, Repr

/-- The checks of one lane's global access in the order of R107. An access to a debug window is performed at its home, whatever its region (R402). -/
def checkGlobal (s : State) (core : Nat) (g : Gang) (k : Task) (a : Acc) : LaneRes :=
  if a.va.toNat % a.align != 0 then .bad 0 0x05 1 a.va
  else if a.va.extractLsb' 48 16 != 0#16 then .bad 1 0x06 4 a.va
  else if !regionOk k a.va.toNat a.size a.modes then .bad 2 0x08 1 a.va
  else match translate s core g.ctx a.va a.rt with
    | .miss p => .miss p
    | .bad st c sub x => .bad st c sub x
    | .ok pa =>
      if s.dbgRefuses g.ctx pa a.size (a.rt.w && !a.await) then .bad 4 0x07 2 a.va else
      let cpl := isCoupled k a.va.toNat a.size
      match mappedAt g a.va.toNat with
      | some (c, w) => if a.word || cpl then .bad 4 0x07 4 a.va else .ok (.window c w a.va pa)
      | none =>
        if s.paKind pa == .peer then .ok (.peer pa cpl)
        else if a.word || cpl || (s.dbgWindow pa).isSome then .ok (.home pa)
        else .ok (.l1 pa)

/-- The checks of one lane's stash access (R154): ALIGN, then PROT. -/
def checkStash (g : Gang) (addr : W64) (size align : Nat) : LaneRes :=
  if addr.toNat % align != 0 then .bad 0 0x05 1 addr
  else match stashRange g addr size with
    | some (c, off) => .ok (.glen (g.base + c) off)
    | none => .bad 4 0x07 3 addr

def rightsR : Rights := { r := true, w := false, x := false }
def rightsW : Rights := { r := false, w := true, x := false }
def rightsRW : Rights := { r := true, w := true, x := false }
def rightsX : Rights := { r := false, w := false, x := true }

def modesLoad : List Nat := [1, 3, 4, 5]
def modesStore : List Nat := [2, 3, 4, 5]
def modesCopySrc : List Nat := [1, 3, 5]
def modesCopyDst : List Nat := [2, 3, 5]
def modesWord : List Nat := [3, 4, 5]

end Sys2Proof.Machine
end

