-- ==== Sys2Proof/Machine/Cache.lean ====
section
/-! DEFINITION. Data paths of a core: its L1 (R119, R148, R151), coupled loads and stores by logical time (R277 to R280), the Glen (R113), mapped windows
(R115, R116), ring stages (R121 to R124), and the reads and writes of one access at its target. -/

namespace Sys2Proof.Machine

/-! ## L1 -/

def l1Find (s : State) (core line : Nat) : Option L1Line := (s.core core).l1.find? (fun l => l.line == line)

def l1Set (s : State) (core : Nat) (l : L1Line) : State :=
  s.updCore core (fun k => { k with l1 := k.l1.filter (fun m => m.line != l.line) ++ [l] })

def l1Drop (s : State) (core line : Nat) : State :=
  s.updCore core (fun k => { k with l1 := k.l1.filter (fun m => m.line != line) })

/-- Dirty bytes that a core of context `ctx` holds go to their home. In a debug window of which the context is not the debugger they are refused and logged (R110, R399). -/
def cacheWrite (s : State) (core line ctx : Nat) (m : LineMask) (d : Line) : State :=
  match s.dbgWindow (128 * line) with
  | some c => if debuggerOf s c = ctx then s.homeWrite line ctx m d else s.logRefused 0 ctx core false (BitVec.ofNat 64 (128 * line)) 0x07 2 0#64
  | none => s.homeWrite line ctx m d

/-- Writes the dirty bytes of an L1 line to its home; the line stays, clean (R151). -/
def l1Clean (s : State) (core line : Nat) : State :=
  match l1Find s core line with
  | none => s
  | some l =>
    if l.dirty = 0#128 then s
    else l1Set (cacheWrite s core line l.ctx l.dirty l.data) core { l with dirty := 0#128 }

/-- Writes back and invalidates (R157). -/
def l1Flush (s : State) (core line : Nat) : State := l1Drop (l1Clean s core line) core line

/-- Fills a line into the L1 from its home, with an expected read count or none (R119, R148). -/
def l1Fill (s : State) (core line ctx : Nat) (count : Option Nat) : State :=
  match l1Find s core line with
  | some _ => s
  | none =>
    let (s, d) := s.homeRead line ctx
    l1Set s core { line := line, ctx := ctx, data := d, dirty := 0#128, count := count, lease := none }

/-- One counted read of a line that is present: at zero the line is invalidated without write-back (R119). -/
def l1Count (s : State) (core line : Nat) : State :=
  match l1Find s core line with
  | some l =>
    match l.count with
    | some k => if k ≤ 1 then l1Drop s core line else l1Set s core { l with count := some (k - 1) }
    | none => s
  | none => s

/-- The bytes that a load of ordinary data returns, and the L1 afterwards (R148, R149). `now`: this access is the one that counts its issue's read. -/
def l1Load (s : State) (core ctx pa n : Nat) (hint : Hint) (cnt : Nat) (now : Bool) : State × Nat :=
  let line := pa / 128
  match l1Find s core line with
  | some l =>
    let v := LineOps.get l.data (pa % 128) n
    if hint == .counted && now then (l1Count s core line, v) else (s, v)
  | none =>
    match hint with
    | .stream => s.homeReadN pa n ctx
    | _ =>
      let s := l1Fill s core line ctx (if hint == .counted then some (max cnt 1) else none)
      let v := match l1Find s core line with
        | some l => LineOps.get l.data (pa % 128) n
        | none => 0
      if hint == .counted && now then (l1Count s core line, v) else (s, v)

/-- A store of ordinary data (R148, R150): the line loses its count (R119), and a leased copy its lease: a coupled load of it takes a new one (R277). -/
def l1Store (s : State) (core ctx pa n v : Nat) (hint : Hint) : State :=
  let line := pa / 128
  if hint == .stream && (l1Find s core line).isNone then s.homeWriteN pa n ctx v
  else
    let s := match l1Find s core line with
      | some l => if l.ctx != ctx then l1Clean s core line else s
      | none => s
    let s := l1Fill s core line ctx none
    match l1Find s core line with
    | some l =>
      l1Set s core { l with ctx := ctx, data := LineOps.set l.data (pa % 128) n v, dirty := l.dirty ||| LineOps.mask (pa % 128) n,
                            count := none, lease := none }
    | none => s

/-- Writes back, and with `inv` also invalidates, the L1 lines of a core that overlap [lo, lo + n) of physical addresses. -/
def l1Range (s : State) (core : Nat) (hit : Nat → Bool) (inv : Bool) : State :=
  ((s.core core).l1.filter (fun l => hit l.line)).foldl
    (fun s l => if inv then l1Flush s core l.line else l1Clean s core l.line) s

/-! ## Coupled data (R277 to R280) -/

/-- A leased copy of a coupled line enters the L1 with an access at time `time` (R277): dirty bytes of an ordinary copy go home first. -/
def leaseFill (s : State) (core ctx line time : Nat) : State :=
  let (s, d) := (l1Flush s core line).homeRead line ctx
  let l := s.lease line
  let rts := max l.rts (time + Config.lease)
  l1Set (s.setLease { l with rts := rts }) core
    { line := line, ctx := ctx, data := d, dirty := 0#128, count := none, lease := some (l.wts, rts), carry := l.carry }

/-- Leased copies of a core that their homes have overtaken and whose leases end before `time` are dropped, as an eviction may drop any copy: later coupled loads
must not return what an acquire with that time orders before (R273, R360; log entry 56). -/
def dropStale (s : State) (core time : Nat) : State :=
  s.updCore core (fun k => { k with l1 := k.l1.filter (fun l => match l.lease with
    | some (wts, fin) => decide (time ≤ fin) || decide ((s.lease l.line).wts ≤ wts)
    | none => true) })

/-- A thread's acquire has read a word whose releases carry `time` (R272). Its clock alone keeps it from copies whose leases ended before the clock; only a later
time needs copies to go (log entry 56). -/
def acquired (s : State) (tid time : Nat) : State :=
  match s.thread tid with
  | none => s
  | some t => if time ≤ t.lclock then s else dropStale (s.updThread tid (fun t => { t with floor := max t.floor time })) t.core time

/-- A coupled load of a thread (R277, R279), which is an acquire (R271). A copy that raises the clock by its write time is served from a lease and counts as the first of
the 15; loads made while PROMISE.LEASE is 0 count too; and the times order accesses whose issuers are outside each other's scope as well, which R281 leaves open (DESIGN
CHOICE, log entry 56). A debug window is read at its home, and leaves no copy (R402). -/
def coupledLoad (s : State) (core ctx tid pa n : Nat) : State × Nat :=
  let line := pa / 128
  let t := s.thread tid
  let c := match t with
    | some t => t.lclock
    | none => 0
  let leased := match t with
    | some t => t.leased
    | none => 0
  let renew (c : Nat) : State × Nat :=
    let time := max c (s.lease line).wts
    let s := leaseFill s core ctx line time
    (acquired (s.setClock tid time) tid (s.lease line).carry, match l1Find s core line with
      | some l => LineOps.get l.data (pa % 128) n
      | none => 0)
  if (s.dbgWindow pa).isSome then
    let (s, v) := s.homeReadN pa n ctx
    (acquired (s.setClock tid (max c (s.lease line).wts)) tid (s.lease line).carry, v)
  else match l1Find s core line with
  | some l =>
    match l.lease with
    | some (wts, fin) =>
      if c ≤ fin then
        if (s.ctx ctx).promise.getLsbD 2 && decide (15 ≤ leased) then renew (fin + 1)
        else
          (acquired (s.updThread tid (fun t => { t with lclock := max c wts, leased := if c < wts then 1 else t.leased + 1 })) tid l.carry,
            LineOps.get l.data (pa % 128) n)
      else renew c
    | none => renew c
  | none => renew c

def coupledStore (s : State) (core ctx tid pa n v : Nat) : State :=
  let s := match l1Find s core (pa / 128) with
    | some l => if l.lease.isNone then l1Flush s core (pa / 128) else s
    | none => s
  ((s.timedWrite tid (pa / 128)).releaseAt (pa / 128) (s.threadTime tid)).homeWriteN pa n ctx v

/-! ## Glen and windows -/

def glenReadN (s : State) (core off n : Nat) : Nat := leNat (Memory.readN (s.core core).glen off n)

def glenWriteN (s : State) (core off n v : Nat) : State :=
  s.updCore core (fun k => { k with glen := Memory.writeN k.glen off (leBytes v n) })

def glenWriteBytes (s : State) (core off : Nat) (l : List Byte) : State :=
  s.updCore core (fun k => { k with glen := Memory.writeN k.glen off l })

/-- Updates one window of a gang. -/
def updWindow (s : State) (gid c w : Nat) (f : Window → Window) : State :=
  s.updGang gid (fun g => { g with windows := g.windows.set c (let l := g.windows.getD c []
                                                              match l[w]? with
                                                              | some x => l.set w (f x)
                                                              | none => l) })

/-- 256 bytes of the home's memory at a physical address. -/
def granuleRead (s : State) (pa ctx : Nat) : State × List Byte :=
  if s.paKind pa == .peer then
    let (s, v) := s.peerRead 256
    (s, leBytes v 256)
  else
    let (s, a) := s.homeRead (pa / 128) ctx
    let (s, b) := s.homeRead (pa / 128 + 1) ctx
    (s, leBytes a.toNat 128 ++ leBytes b.toNat 128)

/-- Writes a granule's dirty bytes to the home (R116, R118). -/
def granuleWrite (s : State) (core pa ctx : Nat) (dirty : BitVec 256) (bytes : List Byte) : State :=
  if dirty = 0#256 || s.paKind pa == .peer then s
  else
    let lo : LineMask := dirty.extractLsb' 0 128
    let hi : LineMask := dirty.extractLsb' 128 128
    let s := if lo = 0#128 then s else cacheWrite s core (pa / 128) ctx lo (BitVec.ofNat 1024 (leNat (bytes.take 128)))
    if hi = 0#128 then s else cacheWrite s core (pa / 128 + 1) ctx hi (BitVec.ofNat 1024 (leNat (bytes.drop 128)))

/-- Writes back the dirty bytes of one slot of a mapped window that a mask selects; the slot stays, with those bytes clean. -/
def slotCleanPart (s : State) (g : Gang) (c w i : Nat) (part : BitVec 256) : State :=
  match g.window c w with
  | some { fs := fs, kind := .mapped m, .. } =>
    match m.slots[i]? with
    | some { granule := some (_, pa), dirty := d } =>
      let s := granuleWrite s (g.base + c) pa g.ctx (d &&& part) (Memory.readN (s.core (g.base + c)).glen (256 * (fs + i)) 256)
      updWindow s g.id c w (fun x => match x.kind with
        | .mapped m => { x with kind := .mapped { m with slots := m.slots.set i { granule := (m.slots.getD i ⟨none, 0#256⟩).granule, dirty := d &&& ~~~ part } } }
        | _ => x)
    | _ => s
  | _ => s

/-- Writes back one slot of a mapped window; the slot stays, clean. -/
def slotClean (s : State) (g : Gang) (c w i : Nat) : State := slotCleanPart s g c w i (BitVec.allOnes 256)

/-- Writes back every slot of a mapped window (R141). -/
def windowClean (s : State) (g : Gang) (c w : Nat) : State :=
  match g.window c w with
  | some { kind := .mapped m, .. } => (List.range m.slots.length).foldl (fun s i => slotClean s g c w i) s
  | _ => s

/-- Fills the granule of an address into its slot on first touch (R115, R116), and answers the byte offset in the Glen. -/
def windowTouch (s : State) (gid c w : Nat) (va : W64) (pa : Nat) : State × Nat :=
  match s.gang gid with
  | none => (s, 0)
  | some g =>
    match g.window c w with
    | some { fs := fs, s := n, kind := .mapped m } =>
      let gr := (va.toNat - m.base.toNat) / 256
      let i := gr % n
      let off := 256 * (fs + i) + va.toNat % 256
      match (m.slots.getD i ⟨none, 0#256⟩).granule with
      | some (h, _) =>
        if h = gr then (s, off)
        else
          let s := slotClean s g c w i
          let p := pa - pa % 256
          let (s, b) := granuleRead s p g.ctx
          let s := glenWriteBytes s (g.base + c) (256 * (fs + i)) b
          (updWindow s gid c w (fun x => match x.kind with
            | .mapped m => { x with kind := .mapped { m with slots := m.slots.set i ⟨some (gr, p), 0#256⟩ } }
            | _ => x), off)
      | none =>
        let p := pa - pa % 256
        let (s, b) := granuleRead s p g.ctx
        let s := glenWriteBytes s (g.base + c) (256 * (fs + i)) b
        (updWindow s gid c w (fun x => match x.kind with
          | .mapped m => { x with kind := .mapped { m with slots := m.slots.set i ⟨some (gr, p), 0#256⟩ } }
          | _ => x), off)
    | _ => (s, 0)

/-- Marks bytes of a slot dirty (R116). -/
def slotDirty (s : State) (gid c w : Nat) (va : W64) (n : Nat) : State :=
  updWindow s gid c w (fun x => match x.kind with
    | .mapped m =>
      let i := (va.toNat - m.base.toNat) / 256 % x.s
      let sl := m.slots.getD i ⟨none, 0#256⟩
      { x with kind := .mapped { m with slots := m.slots.set i { sl with dirty := sl.dirty ||| BitVec.ofNat 256 ((2 ^ n - 1) * 2 ^ (va.toNat % 256)) } } }
    | _ => x)

/-- A GUNMAP or GFLUSH of a gang's window, issued before operation `id`, is outstanding: accesses to its range wait (R141). -/
def windowBusy (s : State) (g : Gang) (c w id : Nat) : Bool :=
  s.ops.any (fun o => decide (o.id < id) && (match o.kind with
    | .winWb core win _ tids => core == g.base + c && win == w && tids.any (fun t => (s.thread t).any (fun x => x.gang == g.id))
    | _ => false))

/-! ## Ring stages -/

def Ring.ns (r : Ring) : Nat := r.stages.length
def Ring.free (r : Ring) : Nat := (r.stages.filter (fun x => x == .free)).length
def Ring.filled (r : Ring) : Nat := (r.stages.filter (fun x => x == .filled)).length
def Ring.inuse (r : Ring) : Nat := (r.stages.filter (fun x => match x with
  | .used _ | .done => true
  | _ => false)).length

/-- Done stages at RPTR become free, one after the other (R124). -/
def Ring.sweep (r : Ring) : Nat → Ring
  | 0 => r
  | n + 1 =>
    match r.stages.getD r.rptr .free with
    | .done => ({ r with stages := r.stages.set r.rptr .free, rptr := (r.rptr + 1) % max 1 r.ns } : Ring).sweep n
    | _ => r

/-- One counted read of stage `i` (R120): at zero the stage is done. RC = 0 is released only by RREL. -/
def Ring.count (r : Ring) (i : Nat) : Ring :=
  match r.stages.getD i .free with
  | .used left =>
    if r.rc = 0 then r
    else if left ≤ 1 then ({ r with stages := r.stages.set i .done } : Ring).sweep r.ns
    else { r with stages := r.stages.set i (.used (left - 1)) }
  | _ => r

/-- Releases the stage at RPTR (R124, R143). -/
def Ring.release (r : Ring) : Ring :=
  match r.stages.getD r.rptr .free with
  | .used _ => ({ r with stages := r.stages.set r.rptr .done } : Ring).sweep r.ns
  | _ => r

/-- Releases one stage wherever it stands (R250). -/
def Ring.releaseAt (r : Ring) (i : Nat) : Ring :=
  match r.stages.getD i .free with
  | .used _ => ({ r with stages := r.stages.set i .done } : Ring).sweep r.ns
  | _ => r

/-- The pop of R123: the stage's index. -/
def Ring.pop (r : Ring) : Option (Nat × Ring) :=
  if r.stages.getD r.pptr .free == .filled then
    some (r.pptr, { r with stages := r.stages.set r.pptr (.used r.rc), pptr := (r.pptr + 1) % max 1 r.ns })
  else none

def ringOf (g : Gang) (c w : Nat) : Option Ring :=
  match g.window c w with
  | some { kind := .ring r, .. } => some r
  | _ => none

def updRing (s : State) (gid c w : Nat) (f : Ring → Ring) : State :=
  updWindow s gid c w (fun x => match x.kind with
    | .ring r => { x with kind := .ring (f r) }
    | _ => x)

/-- The ring stage that holds a Glen byte of a core: window and stage (R120). -/
def stageAt (g : Gang) (c off : Nat) : Option (Nat × Nat) :=
  match slotWindow g c (off / 256) with
  | some (w, { fs := fs, kind := .ring r, .. }) =>
    let i := (off / 256 - fs) / max 1 r.ss
    if i < r.ns then some (w, i) else none
  | _ => none

/-- One counted Glen read (R120). -/
def glenCount (s : State) (gid core off : Nat) : State :=
  match s.gang gid with
  | none => s
  | some g => match stageAt g (core - g.base) off with
    | some (w, i) => updRing s gid (core - g.base) w (fun r => r.count i)
    | none => s

/-! ## One access at its target -/

/-- A read of `n` bytes by a thread (R149, R154). -/
def readTarget (s : State) (t : Thread) (tg : Target) (n : Nat) (hint : Hint) (cnt : Nat) (now : Bool) : State × Nat :=
  match tg with
  | .l1 pa => l1Load s t.core t.ctx pa n hint cnt now
  | .home pa => coupledLoad s t.core t.ctx t.id pa n
  | .window c w va pa =>
    let (s, off) := windowTouch s t.gang c w va pa
    match s.gang t.gang with
    | some g => (s, glenReadN s (g.base + c) off n)
    | none => (s, 0)
  | .glen core off =>
    let v := glenReadN s core off n
    (if hint == .counted && now then glenCount s t.gang core off else s, v)
  | .peer .. => s.peerRead n

/-- A write of `n` bytes by a thread (R150, R154). -/
def writeTarget (s : State) (t : Thread) (tg : Target) (n v : Nat) (hint : Hint) : State :=
  match tg with
  | .l1 pa => l1Store s t.core t.ctx pa n v hint
  | .home pa => coupledStore s t.core t.ctx t.id pa n v
  | .window c w va pa =>
    let (s, off) := windowTouch s t.gang c w va pa
    match s.gang t.gang with
    | some g => slotDirty (glenWriteN s (g.base + c) off n v) t.gang c w va n
    | none => s
  | .glen core off => glenWriteN s core off n v
  | .peer .. => s

end Sys2Proof.Machine
end

