-- ==== Sys2Proof/Machine/Table.lean ====
section
/-! DEFINITION. The convergence table (R292 to R296): its indices and overflow list, entering and leaving it, and what the end of a clause does to an
entry (R294). -/

namespace Sys2Proof.Machine

/-- The lanes of an entry's threads. -/
def lanesOf (s : State) (e : Entry) : List Nat := e.members.filterMap (fun id => (s.thread id).map Thread.lane)

/-- R292: the lowest free index above `above`, else the lowest free index, else none. -/
def freeIndex (es : List Entry) (above : Option Nat) : Option Nat :=
  let used := es.filterMap Entry.index
  let pick (lo : Nat) := (List.range 256).find? (fun i => decide (lo ≤ i) && !used.contains i)
  match above with
  | some a => (match pick (a + 1) with
    | some i => some i
    | none => pick 0)
  | none => pick 0

/-- R292: the oldest overflow entries take the lowest free indices. -/
def promote (done : List Entry) : List Entry → List Entry
  | [] => done
  | e :: es =>
    if e.index.isNone && !e.own then promote (done ++ [{ e with index := freeIndex (done ++ e :: es) none }]) es
    else promote (done ++ [e]) es

/-- Entries without threads free their indices and the pipes they hold (R292, R21). -/
def settleTable (k : Core) : Core :=
  let es := k.entries.filter (fun e => !e.members.isEmpty)
  let keep (p : Option Nat) : Option Nat :=
    match p with
    | some u => if es.any (fun e => e.uid == u) then some u else none
    | none => none
  { k with entries := promote [] es, pipeA := keep k.pipeA, pipeB := keep k.pipeB }

/-- A thread leaves the entry that holds it. -/
def leaveTable (s : State) (core tid : Nat) : State :=
  s.updCore core (fun k =>
    settleTable { k with entries := k.entries.map (fun e => { e with members := e.members.filter (fun m => m != tid) }) })

/-- A new entry for threads that stand at a header; `issued`: the clk of their last issue. -/
def newEntry (s : State) (core ctx : Nat) (pc : W64) (ms : List Nat) (above : Option Nat) (ready yield : Nat)
    (issued : Option Nat) : State :=
  let (uid, s) := s.fresh
  s.updCore core (fun k =>
    { k with entries := k.entries ++ [{ uid := uid, index := freeIndex k.entries above, ctx := ctx, pc := pc, members := ms, ready := ready,
                                        yieldEnd := yield, overdueAt := none, rdv := false, own := false, run := none, lastIssue := issued, first := none }] })

/-- A thread enters the table at its PC (R295): it joins an entry of its context that stands at that header and has its lane free (one that
waits at a rendezvous only when it is of its row), or creates one. `issued`: the clk in which it last issued in the group that it comes from (R407). -/
def enterTable (s : State) (tid : Nat) (pc : W64) (issued : Option Nat := none) : State :=
  match s.thread tid with
  | none => s
  | some t =>
    let s := s.updThread tid (fun t => { t with pc := pc, resume := none })
    match (s.core t.core).entries.find? (fun e =>
      e.ctx == t.ctx && e.pc == pc && e.run.isNone && !e.own && !(lanesOf s e).contains t.lane
        && (!e.rdv || e.members.all (fun m => (s.thread m).all (fun u => u.slot == t.slot)))) with
    | some e => s.updEntry t.core e.uid (fun e =>
        { e with members := e.members ++ [tid], lastIssue := if issued = some s.clk then issued else e.lastIssue })
    | none => newEntry s t.core t.ctx pc [tid] none 0 0 issued

/-- Threads that resume at one word in the middle of a clause form a group of their own (R183, R381); `last`: the clk of their last issue. -/
def resumeAt (s : State) (core ctx : Nat) (ms : List Nat) (c : Clause) (issued : Bool) (last : Option Nat := none) : State :=
  let (uid, s) := s.fresh
  let s := ms.foldl (fun s id => s.updThread id (fun t => { t with pc := c.addr, resume := none })) s
  s.updCore core (fun k =>
    { k with entries := k.entries ++ [{ uid := uid, index := none, ctx := ctx, pc := c.addr, members := ms, ready := 0, yieldEnd := 0,
                                        overdueAt := none, rdv := false, own := true,
                                        run := some { clause := c, released := true, issued := issued, stall := none }, lastIssue := last, first := none }] })

/-- A thread leaves its group where it stands: at its word in the middle of a clause, or at a header (R182, R307). -/
def detach (s : State) (tid : Nat) : State :=
  match s.thread tid with
  | none => s
  | some t =>
    let s := match (s.core t.core).entries.find? (fun e => e.members.contains tid) with
      | some e => (match e.run with
        | some r => s.updThread tid (fun t => { t with resume := some (r.clause, r.issued) })
        | none => s.updThread tid (fun t => { t with pc := e.pc, resume := none }))
      | none => s
    leaveTable s t.core tid

/-- A thread takes up its work again where it stopped (R183, R295, R379). -/
def reenter (s : State) (tid : Nat) : State :=
  match s.thread tid with
  | none => s
  | some t => match t.resume with
    | some (c, issued) => resumeAt s t.core t.ctx [tid] c issued
    | none => enterTable s tid t.pc

/-- The pipe of an engine (R20): true is A. -/
def onA (eng : Nat) : Bool := eng == 0 || eng == 5

def Core.pipe (k : Core) (a : Bool) : Option Nat := if a then k.pipeA else k.pipeB
def Core.setPipe (k : Core) (a : Bool) (p : Option Nat) : Core := if a then { k with pipeA := p } else { k with pipeB := p }

/-- The group gives up its pipe if it holds it (R21). -/
def releasePipe (s : State) (core uid : Nat) (a : Bool) : State :=
  s.updCore core (fun k => if k.pipe a = some uid then k.setPipe a none else k)

/-- Targets other than the kept one in ascending order (R294). -/
def otherTargets (l : List W64) (keep : W64) : List W64 :=
  ((sortNats (dedupNats (l.map BitVec.toNat))).map (BitVec.ofNat 64)).filter (fun p => p != keep)

/-- The previous clause of the members, which DIST counts from (R57): the clk in which its last word issued, at address `last`. -/
def clauseLeft (s : State) (last : W64) (ids : List Nat) : State :=
  ids.foldl (fun s id => s.updThread id (fun t => { t with prevEnd := some (s.clk, last) })) s

/-- The end of a clause (R294): the members left, each with its next PC. `fall` is the next clause in memory, `last` the address of the last
word. A last word that issued earlier and waited for its completion (NAP, TBAR, GBAR, GMAP) left the clause for DIST when it issued (R57). -/
def endClause (s : State) (core uid : Nat) (fall last : W64) (next : List (Nat × W64)) : State :=
  match s.entry core uid with
  | none => s
  | some e =>
    let s := next.foldl (fun s p => s.updThread p.1 (fun t => { t with pc := p.2, resume := none })) s
    let s := if e.run.any Run.issued then s else clauseLeft s last (next.map Prod.fst)
    let s := match e.run with
      | some r => releasePipe s core uid (onA r.clause.hdr.eng)
      | none => s
    if e.own then
      let s := s.updCore core (fun k => { k with entries := k.entries.filter (fun x => x.uid != uid) })
      next.foldl (fun s p => enterTable s p.1 p.2 e.lastIssue) s
    else
      let pcs := next.map Prod.snd
      let keep := if pcs.contains fall then fall
        else (pcs.foldl (fun (m : Option W64) p => match m with
          | none => some p
          | some q => some (if p.toNat < q.toNat then p else q)) none).getD fall
      let at' (p : W64) := (next.filter (fun q => q.2 == p)).map Prod.fst
      let s := s.updEntry core uid (fun e => { e with pc := keep, members := at' keep, run := none, rdv := false })
      let s := (otherTargets pcs keep).foldl (fun s p => newEntry s core e.ctx p (at' p) e.index e.ready e.yieldEnd e.lastIssue) s
      s.updCore core settleTable

end Sys2Proof.Machine
end

