-- ==== Sys2Proof/Machine/Threads.lean ====
section
/-! DEFINITION. The end of threads, tasks and contexts: team and gang barriers (R313 to R317), what EXIT does to a thread (R310), the failing of a
task (R341) and the termination of a context (R342). -/

namespace Sys2Proof.Machine

/-! ## Barriers -/

/-- The urgency of a completed phase (R301). -/
def urgencyOf (d : Nat) : Nat := if d < 256 then 0 else if d < 1024 then 1 else if d < 4096 then 2 else 3

/-- Members are released from a barrier that they wait at; its completion is an acquire by each of them of what all have done (R318; log entry 56). -/
def releaseBar (s : State) (b : Bar) (ids : List Nat) : State :=
  let time := ids.foldl (fun m id => if (s.thread id).isSome then max m (s.threadTime id) else m) 0
  let s := ids.foldl (fun s id => s.updThread id (fun t => if t.bar = some (b, false) then { t with bar := some (b, true) } else t)) s
  ids.foldl (fun s id => acquired s id time) s

/-- R316: completes the phase of a team when every member has arrived; a team without members is dissolved (R313). -/
def settleTeam (s : State) (gid id : Nat) : State :=
  match s.gang gid with
  | none => s
  | some g =>
    match g.teams.find? (fun m => m.id == id) with
    | none => s
    | some m =>
      if m.members.isEmpty then s.updGang gid (fun g => { g with teams := g.teams.filter (fun x => x.id != id) })
      else if m.members.all (fun t => m.arrived.contains t) then
        let order := sortNats m.members
        let s := (order.zipIdx).foldl (fun s p =>
          s.updThread p.1 (fun t => { t with rank := BitVec.ofNat 32 p.2, tsize := BitVec.ofNat 32 m.members.length })) s
        let s := releaseBar s (.team id) order
        s.updGang gid (fun g => { g with teams := g.teams.map (fun x =>
          if x.id = id then { x with arrived := [], urgency := urgencyOf (x.lastAt - x.firstAt), size := x.members.length } else x) })
      else s

/-- R317: completes GBAR when every unexited thread of the gang has arrived. -/
def settleGbar (s : State) (gid : Nat) : State :=
  match s.gang gid with
  | none => s
  | some g =>
    let live := (s.threads.filter (fun t => t.gang == gid && !t.exited)).map Thread.id
    if !g.gbar.isEmpty && live.all (fun t => g.gbar.contains t) then
      (releaseBar s .gang g.gbar).updGang gid (fun g => { g with gbar := [] })
    else s

/-- A thread leaves every team of its gang and its GBAR (R310). -/
def leaveTeams (s : State) (gid tid : Nat) : State :=
  match s.gang gid with
  | none => s
  | some g =>
    let ids := (g.teams.filter (fun m => m.members.contains tid)).map Team.id
    let s := s.updGang gid (fun g => { g with
      teams := g.teams.map (fun m => { m with members := m.members.filter (fun t => t != tid), arrived := m.arrived.filter (fun t => t != tid) })
      gbar := g.gbar.filter (fun t => t != tid) })
    settleGbar (ids.foldl (fun s id => settleTeam s gid id) s) gid

/-! ## The end of a thread -/

/-- The array of the core still has a command of the row (R240). -/
def rowInArray (s : State) (core slot gid : Nat) : Bool :=
  let a := (s.core core).array
  let hit (c : MtxCmd) := c.slot == slot && c.gang == gid
  a.queue.any hit || a.flight.any (fun p => hit p.1) || (match a.loop with
    | some l => hit l.cmd
    | none => false)

/-- Removes a row without threads (R14). -/
def sweepRow (s : State) (core slot gid : Nat) : State :=
  if s.threads.any (fun t => t.core == core && t.slot == slot && t.gang == gid) || rowInArray s core slot gid then s
  else { s with rows := s.rows.filter (fun r => !(r.core == core && r.slot == slot && r.gang == gid)) }

def LadderWrite.tid : LadderWrite → Option Nat
  | .frame _ _ _ _ t => t
  | .result _ _ _ t => t

/-- A frame or result write of the thread is still on its way (R366). -/
def ladderWriting (s : State) (t : Thread) : Bool :=
  match s.task t.task with
  | some k => (match k.ladder with
    | some l => l.writes.any (fun w => w.tid == some t.id)
    | none => false)
  | none => false

/-- Frees the slot of an exited thread once its accesses are performed (R310, R366). -/
def sweepThread (s : State) (tid : Nat) : State :=
  match s.thread tid with
  | none => s
  | some t =>
    if t.exited && t.flight.isEmpty && !(s.ops.any (fun o => o.tids.contains tid)) && !ladderWriting s t then
      sweepRow { s with threads := s.threads.filter (fun u => u.id != tid) } t.core t.slot t.gang
    else s

/-- Failures of the array of which this thread is the last pusher to exit: the error log records them (R243; log entry 62). -/
def logBlames (s : State) (t : Thread) : State :=
  let last (b : Blame) : Bool := b.pushers.contains t.id && !s.threads.any (fun u => u.id != t.id && !u.exited && b.pushers.contains u.id)
  (s.blames.filter last).foldl (fun s b =>
    s.log { kind := 5, code := b.code, sub := 0, agent := 2, ctx := b.ctx, va := b.va, core := b.core, addr := b.addr, clk := s.clk, word3 := 0#64 })
    { s with blames := s.blames.filter (fun b => !last b) }

/-- The end of a thread as EXIT ends it (R310, R174). Its pending cells return when their values arrive (R173); its AWAIT and BARWT operations
may return early (R166). -/
def exitThread (s : State) (tid : Nat) : State :=
  match s.thread tid with
  | none => s
  | some t =>
    if t.exited then s
    else
      let s := leaveTable (logBlames s t) t.core tid
      let pending := t.names.filterMap (fun p => p.2.pend.map (fun tok => (tok, p.2.cells)))
      let s := s.updThread tid (fun t => { t with
        names := [], zombies := t.zombies ++ pending, predPend := [], resume := none, faultAt := none, replay := none, deferred := [], parked := false,
        spilled := false, stopped := false, exited := true, nap := none, bar := none, blocked := none, quotaDue := false,
        heldFor := 0, victimOf := none, streamWait := [], mxo := [], cps := [], hof := [], halted := none, halting := false, edit := none, stops := 0#8, teams := 0#64,
        curTeam := none })
      sweepThread (leaveTeams s t.gang tid) tid

/-! ## Task records -/

/-- A record as its submission finds it. -/
def Task.atSubmit (id ctx : Nat) (rec : W64) (pa queue state : Nat) : Task :=
  { id := id, ctx := ctx, recAddr := rec, recPa := pa, queue := queue, state := state, ctl := 0#64, regionWords := [], regions := [], reason := 0, seq := 0,
    pred := none, used := 0#64, grec := none, placed := 0, retired := 0, cores := [], cursor := { ph := 0, rix := 0, six := 0, off := 0 },
    succDone := false, fail := 0, dispatched := false, ladder := none, fwd := [], lobj := none, succl := none }

/-- An access by a unit that reaches a view being flushed proceeds after the flush (R91): the flush is complete first, and what refuses the address is asked anew. -/
def afterFlush (s : State) (pa : Nat) (va : W64) : Except (Nat × Nat × W64) State :=
  let s := s.settleView pa
  match paFault s pa va with
  | some (_, code, sub, a) => .error (code, sub, a)
  | none => .ok s

/-- A write by a unit of the device into a context's memory (R339, R448); one that is not performed answers its fault. A debug window is open to its debugger
alone (R399). -/
def unitWrite (s : State) (c : Nat) (va : W64) (n v : Nat) : Except (Nat × Nat × W64) State :=
  match translateDirect s c va rightsW with
  | .ok pa =>
    if s.paKind pa == .peer then .ok s
    else if s.dbgRefuses c pa n true || s.dbgValueRefused pa n v then .error (0x07, 2, va)
    else match afterFlush s pa va with
      | .ok s => .ok (s.agentWriteN pa n c v)
      | .error f => .error f
  | .bad _ code sub a => .error (code, sub, a)
  | .miss _ => .ok s

/-- Reads of a unit that were refused, in the error log (R110). -/
def readsRefused (s : State) (agent c : Nat) (fs : List (Nat × Nat × W64)) : State :=
  fs.foldl (fun s f => s.logRefused agent c 0 true f.2.2 f.1 f.2.1 0#64) s

/-- A read by a unit of the device; a peer's bytes are free values (R264). -/
def unitRead (s : State) (c : Nat) (va : W64) (n : Nat) : Except (Nat × Nat × W64) (State × Nat) :=
  match translateDirect s c va rightsR with
  | .ok pa =>
    if s.paKind pa == .peer then .ok (s.peerRead n)
    else if s.dbgRefuses c pa n false then .error (0x07, 2, va)
    else match afterFlush s pa va with
      | .ok s => .ok (s.homeReadN pa n c)
      | .error f => .error f
  | .bad _ code sub a => .error (code, sub, a)
  | .miss _ => .ok (s, 0)

/-- An 8-byte word operation by a unit of the device (R339, R360), which carries what the unit orders before it, up to
`time`: a format view and a debug window refuse it (R94, R399), and a peer may (R264; log entry 7). -/
def unitWord (s : State) (c : Nat) (va : W64) (v : Nat) (time : Nat := 0) : State × Option (Nat × Nat × W64) :=
  match translateDirect s c va rightsW with
  | .ok pa => (match s.paKind pa with
    | .view _ => (s, some (0x07, 6, va))
    | .peer => let (r, s) := s.free; (s, if r.getLsbD 0 then some (0x07, 6, va) else none)
    | _ => if (s.dbgWindow pa).isSome then (s, some (0x07, 6, va)) else ((s.agentWriteN pa 8 c v).releaseAt (pa / 128) time, none))
  | .bad _ code sub a => (s, some (code, sub, a))
  | .miss _ => (s, none)

/-- A write of a device-written field of a record; one that is refused is logged (R110). -/
def recWrite (s : State) (c : Nat) (va : W64) (n v : Nat) : State :=
  match unitWrite s c va n v with
  | .ok s => s
  | .error (code, sub, a) => s.logRefused 3 c 0 true a code sub 0#64

/-- The STATUS word of a task (R320): REASON is zero but in a task that is refused. -/
def Task.status (k : Task) : Nat := k.retired % 2 ^ 32 * 2 ^ 32 + (if k.state = 8 then k.reason else 0) * 2 ^ 16 + k.fail * 2 ^ 8 + k.state

/-- The CURSOR word of a task (R320). -/
def Task.cursorWord (k : Task) : Nat := k.cursor.ph * 2 ^ 60 + k.cursor.rix * 2 ^ 56 + k.cursor.six * 2 ^ 48 + k.cursor.off

/-- Writes STATUS as the task now stands. -/
def publish (s : State) (task : Nat) : State :=
  match s.task task with
  | some k => recWrite s k.ctx k.recAddr 8 k.status
  | none => s

def publishCursor (s : State) (task : Nat) : State :=
  match s.task task with
  | some k => recWrite s k.ctx (k.recAddr + 0x50#64) 8 k.cursorWord
  | none => s

/-- STATE = EDGE with CURSOR at the first region (R338, R341). -/
def enterEdge (s : State) (task : Nat) : State :=
  let s := s.updTask task (fun k => { k with state := 4, cursor := { ph := 1, rix := 0, six := 0, off := 0 } })
  publishCursor (publish s task) task

/-- The object words that the ladder unit writes (R361, R362): RESOLVED, and each rung's ARR and TAKEN. -/
def objectWords (l : Ladder) : List (W64 × Nat) :=
  (l.obj + 0x28#64, l.finished.length % 2 ^ 32)
    :: (l.rungs.zipIdx).map (fun p => (l.obj + BitVec.ofNat 64 (0x58 + 32 * p.2), p.1.arr * 2 ^ 32 + p.1.taken))

/-- One object word is written; one that fails is logged, and the first code is kept (R448). -/
def objectWrite (c : Nat) (p : State × Option Nat) (w : W64 × Nat) : State × Option Nat :=
  match unitWrite p.1 c w.1 8 w.2 with
  | .ok s => (s, p.2)
  | .error (code, sub, a) => (p.1.logRefused 4 c 0 true a code sub 0#64, p.2 <|> some code)

/-- The object words of a task's ladder are written, each on its own; the code of the first that fails. -/
def writeObject (s : State) (k : Task) : State × Option Nat :=
  match k.ladder with
  | none => (s, none)
  | some l => (objectWords l).foldl (objectWrite k.ctx) (s, none)

/-- A task enters EDGE, a ladder task after its object words (R361); one of them that fails makes the task a failing one (R448). -/
def toEdge (s : State) (task : Nat) : State :=
  match s.task task with
  | none => s
  | some k => match writeObject s k with
    | (s, none) => enterEdge s task
    | (s, some code) => enterEdge (s.updTask task (fun k => { k with fail := if k.fail = 0 then code else k.fail })) task

/-- R341: CODE is written and the task's threads end; with no gang placed it enters EDGE at once. -/
def failTask (s : State) (task code : Nat) : State :=
  match s.task task with
  | none => s
  | some k =>
    if k.fail != 0 || k.state != 3 then s
    else
      let s := s.updTask task (fun k => { k with fail := code, ladder := k.ladder.map (fun l => { l with due := [], wmDue := [] }) })
      let s := publish s task
      let s := (s.threads.filter (fun t => t.task == task)).foldl (fun s t => exitThread s t.id) s
      if s.gangs.any (fun g => g.task == task) then s else toEdge s task

/-! ## The end of a context -/

/-- Everything of a context leaves a core. -/
def Core.without (k : Core) (c : Nat) (gangs : List Nat) : Core :=
  let k := settleTable { k with entries := k.entries.filter (fun e => e.ctx != c) }
  { k with
    l1 := k.l1.filter (fun l => l.ctx != c)
    icache := k.icache.filter (fun l => l.ctx != c)
    cpback := k.cpback.filter (fun e => e.ctx != c)
    cpq := k.cpq.filter (fun e => match e with
      | .cmd m => m.ctx != c
      | .raw x _ => x != c)
    cprun := k.cprun.filter (fun r => r.cmd.ctx != c)
    array := match k.array.gang with
      | some g => if gangs.contains g then MtxArray.reset else k.array
      | none => k.array }

/-- R342: the context's records that have not ended become KILLED with the code, and nothing of it runs any more. -/
def terminate (s : State) (c code : Nat) : State :=
  let s := (s.tasks.filter (fun k => k.ctx == c && decide (1 ≤ k.state) && decide (k.state ≤ 4))).foldl (fun s k =>
    publish (s.updTask k.id (fun k => { k with state := 7, fail := code, ladder := none })) k.id) s
  let gs := (s.gangs.filter (fun g => g.ctx == c)).map Gang.id
  let s := { s with
    threads := s.threads.filter (fun t => t.ctx != c)
    rows := s.rows.filter (fun r => !gs.contains r.gang)
    gangs := s.gangs.filter (fun g => g.ctx != c)
    ops := s.ops.filter (fun o => o.ctx != c)
    walks := s.walks.filter (fun w => w.ctx != c)
    owed := s.owed.filter (fun o => o.ctx != c)
    blames := s.blames.filter (fun b => b.ctx != c)
    cores := s.cores.map (fun (k : Core) => k.without c gs) }
  s.updCtx c (fun x => { x with st := 5, busy := false, preempt := none, restore := false, verifying := [] })

end Sys2Proof.Machine
end

