-- ==== Sys2Proof/Machine/Ops.lean ====
section
/-! DEFINITION. The operations that every meaning shares: the group for which a word issues, stalls (R21), the end of a word and of a clause, binding of
results (R71 to R73, R176), taking a fault (R374) and the return from one (R381). -/

namespace Sys2Proof.Machine

/-- What a meaning answers. -/
abbrev Out := Host.Outcome State Fault Refusal

/-- The group for which a word issues (R293): its entry, its clause in progress, and its members in ascending lane order. -/
structure Grp where
  core : Nat
  uid : Nat
  entry : Entry
  run : Run
  mem : List Thread
deriving DecidableEq, Repr

def Clause.at' (c : Clause) (i : Nat) : W64 := c.addr + BitVec.ofNat 64 (8 * (i + 1))
/-- The address of the word in progress. -/
def Clause.pc (c : Clause) : W64 := c.at' c.idx
/-- The next clause in memory (R52). -/
def Clause.fall (c : Clause) : W64 := c.at' c.words.length
def Clause.isLast (c : Clause) : Bool := decide (c.words.length ≤ c.idx + 1)
def Clause.next (c : Clause) : Clause := { c with idx := c.idx + 1 }

namespace Grp
def clause (g : Grp) : Clause := g.run.clause
def pc (g : Grp) : W64 := g.run.clause.pc
def ctx (g : Grp) : Nat := g.entry.ctx
def a (g : Grp) : Bool := onA g.run.clause.hdr.eng
end Grp

def State.members (s : State) (e : Entry) : List Thread := sortLanes (e.members.filterMap (fun id => s.thread id))

/-- The group in focus. -/
def State.grp (s : State) : Option Grp :=
  match s.focus with
  | none => none
  | some (core, uid) =>
    match s.entry core uid with
    | none => none
    | some e =>
      match e.run with
      | none => none
      | some r => some { core := core, uid := uid, entry := e, run := r, mem := s.members e }

/-- A word acts for the group in focus; without one it has no effect to give. -/
def withGrp (s : State) (f : Grp → State) : Out :=
  match s.grp with
  | none => .fault .noGroup
  | some g => .next (f g)

/-! ## Stalls (R21) -/

/-- The group stalls at its word and holds its pipe; class and blamed PC as R407 names them. -/
def stallHold (s : State) (g : Grp) (cls : Nat) (blame : W64) : State :=
  s.updEntry g.core g.uid (fun e => { e with run := e.run.map (fun r => { r with released := false, stall := some (cls, blame) }) })

/-- The group waits at its word with the pipe released. -/
def stallFree (s : State) (g : Grp) (cls : Nat) (blame : W64) : State :=
  releasePipe (s.updEntry g.core g.uid (fun e =>
    { e with run := e.run.map (fun r => { r with released := true, stall := some (cls, blame) }) })) g.core g.uid g.a

/-! ## The end of a word -/

/-- What an issued word clears in every member of its group. The words of a handler keep the replay set of the word that trapped (R375, R376). -/
def Thread.issuedWord (t : Thread) : Thread :=
  { t with replay := if t.trap.th then t.replay else none, blocked := none, heldFor := 0, streamWait := [], bar := none, nap := none }

/-- The Y bit takes effect in the context: not without YIELD (R300), not in strict order (R302), not with a span of 0 (R304). -/
def yields (x : Context) : Bool := x.promise.getLsbD 0 && x.promise.getLsbD 1 && x.yieldspan != 0#16

/-- A word issues: its group's clk of issue (R407), and, with Y = 1, the yield end of the group (R300). A word that issued earlier and is now complete marks nothing. -/
def issueMark (s : State) (g : Grp) (h : Hd) : State :=
  if g.run.issued then s
  else s.updEntry g.core g.uid (fun e => { e with
    lastIssue := some s.clk
    yieldEnd := if h.y && yields (s.ctx g.ctx) then s.clk + (s.ctx g.ctx).yieldspan.toNat else e.yieldEnd })

/-- The current word has issued, and the group waits for its completion. A last word leaves its clause for DIST here (R57). -/
def markIssued (s : State) (g : Grp) (h : Hd) : State :=
  let s := (issueMark s g h).updEntry g.core g.uid (fun e => { e with run := e.run.map (fun r => { r with issued := true }) })
  if g.clause.isLast then clauseLeft s g.pc (g.mem.map Thread.id) else s

/-- The end of a clause with the next PC of each member that is left. -/
def finishWith (s : State) (g : Grp) (h : Hd) (nx : Nat → W64) : State :=
  let s := issueMark s g h
  let s := g.mem.foldl (fun s t => s.updThread t.id Thread.issuedWord) s
  match s.entry g.core g.uid with
  | none => s
  | some e => endClause s g.core g.uid g.clause.fall g.pc (e.members.map (fun id => (id, nx id)))

/-- The end of a word: the next word of the clause, or the next clause in memory (R52, R294). -/
def finishWord (s : State) (g : Grp) (h : Hd) : State :=
  if g.clause.isLast then finishWith s g h (fun _ => g.clause.fall)
  else
    let s := issueMark s g h
    let s := g.mem.foldl (fun s t => s.updThread t.id Thread.issuedWord) s
    s.updEntry g.core g.uid (fun e => { e with run := some { clause := g.clause.next, released := false, issued := false, stall := none } })

/-! ## Binding -/

/-- R176: a rebind of a live binding counts one DROPLEAK and releases its cells. -/
def bindName (s : State) (tid n : Nat) (b : Binding) : State :=
  match s.thread tid with
  | none => s
  | some t =>
    let s := if (lookupName t n).isSome then s.updCtx t.ctx (fun c => { c with dropleak := c.dropleak + 1#64 }) else s
    s.updThread tid (fun t => setName (freeName t n) n b)

/-- The value of a token arrives: it is bound without a pending mark, or discarded with its cells (R71, R173), and fills its queue
entries (R149). `v` is the first 64 bits, one per token. -/
def fillToken (s : State) (tid tok : Nat) (v : W64) : State :=
  let fix (b : Binding) : Binding :=
    if b.pend = some tok then { b with value := if b.wide then v else lowCell v, pend := none } else b
  s.updThread tid (fun t => { t with
    names := t.names.map (fun p => (p.1, fix p.2))
    zombies := t.zombies.filter (fun z => z.1 != tok) })

/-- Fills the queue cells that wait for a token (R149, R238). The token of a second cell is the first one's with its upper half. -/
def fillQueues (s : State) (tok : Nat) (v : W64) (core : Nat) : State :=
  let cell (q : QCell) : QCell := if q.pend = some tok then { q with val := word32 v, pend := none } else q
  let s : State := { s with rows := s.rows.map (fun (r : Row) => { r with mxa := r.mxa.map (fun e => e.map cell) }) }
  s.updCore core (fun (k : Core) => { k with
    cpq := k.cpq.map (fun (e : CpEntry) => match e with
      | .raw c q => CpEntry.raw c (cell q)
      | x => x)
    array := { k.array with queue := k.array.queue.map (fun m => { m with pend := m.pend.filter (fun t => t != tok) }) } })

/-- Bits of FMTRSV are set by a thread or by the array; those set in one clk are kept, since such a set beats another thread's clear of that clk (R31). -/
def setFmtrsv (s : State) (c : Nat) (who : Option Nat) (bits : BitVec 2) : State :=
  s.updCtx c (fun x => { x with fmtrsv := x.fmtrsv ||| bits
                                fmtrsvSet := ((if x.fmtrsvSet.2 = s.clk then x.fmtrsvSet.1 else []) ++ [(who, bits)], s.clk) })

/-- The bits of FMTRSV that a clear by thread `tid` leaves in this clk: those set in it by another thread or by the array (R31). -/
def fmtrsvKept (s : State) (c tid : Nat) : BitVec 2 :=
  let x := (s.ctx c).fmtrsvSet
  if x.2 = s.clk then (x.1.filter (fun p => p.1 != some tid)).foldl (fun m p => m ||| p.2) 0#2 else 0#2

/-- A thread clears bits of FMTRSV. Its own sets of this clk that it so clears are over: they hold no other thread's clear back (R31). -/
def clearFmtrsv (s : State) (c tid : Nat) (bits : BitVec 2) : State :=
  s.updCtx c (fun x => { x with fmtrsv := x.fmtrsv &&& ~~~ (bits &&& ~~~ fmtrsvKept s c tid)
                                fmtrsvSet := (x.fmtrsvSet.1.map (fun p => if p.1 = some tid then (p.1, p.2 &&& ~~~ bits) else p), x.fmtrsvSet.2) })

/-- A fixed-latency result becomes due (R72, R73). -/
def bindDue (s : State) (tid : Nat) (f : InFlight) : State :=
  let s := s.updThread tid (fun t => { t with flight := t.flight.filter (fun g => g.tok != f.tok) })
  match s.thread tid with
  | none => s
  | some t =>
    let s := if f.cvt then setFmtrsv s t.ctx (some tid) 2#2 else s
    let s := if t.exited then s.updThread tid (fun t => { t with zombies := t.zombies.filter (fun z => z.1 != f.tok) })
      else if f.late then f.names.foldl (fun s p => bindName s tid p.1 p.2) s
      else s.updThread tid (fun t => { t with
        names := t.names.map (fun p => match (f.names.find? (fun q => q.1 == p.1)) with
          | some q => if p.2.pend = some f.tok then (p.1, { p.2 with value := q.2.value, pend := none }) else p
          | none => p)
        zombies := t.zombies.filter (fun z => z.1 != f.tok) })
    let s := s.updThread tid (fun t =>
      f.preds.foldl (fun t p =>
        if f.late || t.predPend.contains (p.1, f.tok) then { setPred t p.1 p.2 with predPend := t.predPend.filter (fun q => q.1 != p.1) } else t) t)
    sweepThread s tid

/-! ## Faults -/

/-- A fault (R372): code, sub-code, address, the ids of the threads in the mask, where it resumes (EPC, with its clause when it is a word), and
whether it was deferred. -/
structure Flt where
  code : Nat
  sub : Nat
  addr : W64
  mask : List Nat
  epc : W64
  back : Option Clause
  defer : Bool
  src : Nat
deriving DecidableEq, Repr

/-- R372: the codes that terminate the context. -/
def Flt.kills (f : Flt) : Bool := (f.code == 0x0C && f.sub != 3) || f.code == 0x0E
/-- R372: the codes that fail the task. -/
def Flt.fails (f : Flt) : Bool := f.code == 0x09 || f.code == 0x0D

/-- The trap registers of one member (R374, R386). A replay set given now, or still held for the word, sets RPL (R375). -/
def trapThread (f : Flt) (mask : W64 × W64) (rp : Option Replay) (t : Thread) : Thread :=
  let rp := if f.back.isNone then none else (match rp with
    | some r => some r
    | none => t.replay)
  { t with
    trap := { epc := f.epc, code := f.code, sub := f.sub, inmask := f.mask.contains t.id, defer := f.defer, rpl := rp.isSome,
              hdr := f.back.isNone, th := t.trap.th, src := f.src, ord := t.lastOrd, addr := f.addr, lanes := mask.1, lanesH := mask.2 }
    faultAt := f.back, replay := rp, resume := none, blocked := none, heldFor := 0, victimOf := none, streamWait := [], nap := none, bar := none, halting := false
    passHdr := false }

/-- What a trap does with one member after its registers are set (R374); a member whose task has failed meanwhile has exited. -/
def trapGoes (s : State) (f : Flt) (tid : Nat) : State :=
  match s.thread tid with
  | none => s
  | some t =>
    let vec := (s.ctx t.ctx).trapvec
    if t.exited then s
    else if t.trap.th then failTask s t.task f.code
    else if f.kills then terminate s t.ctx f.code
    else if f.fails || vec == 0#64 then failTask s t.task f.code
    else enterTable (s.updThread tid (fun t => { t with trap := { t.trap with th := true } })) tid vec

/-- TAKING A FAULT (R374): the whole group takes it at the word or header where it arises. Every member's trap registers are set; the members
leave their entry; then a double fault or disposition F fails the task, disposition K terminates the context, and otherwise each member enters the
table at TRAPVEC with TH set. `rps` are the replay sets of the members whose word read or popped (R375). -/
def takeTrap (s : State) (core : Nat) (ms : List Thread) (f : Flt) (rps : List (Nat × Replay)) : State :=
  let mask := maskOf (ms.filter (fun t => f.mask.contains t.id))
  let s := ms.foldl (fun s t => s.updThread t.id (trapThread f mask ((rps.find? (fun p => p.1 == t.id)).map Prod.snd))) s
  let s := ms.foldl (fun s t => leaveTable s core t.id) s
  ms.foldl (fun s t => trapGoes s f t.id) s

/-- A fault at the word in progress, with the lanes of the threads `ids`. -/
def wordTrap (s : State) (g : Grp) (code sub : Nat) (addr : W64) (ids : List Nat) (rps : List (Nat × Replay)) : State :=
  takeTrap s g.core g.mem { code := code, sub := sub, addr := addr, mask := ids, epc := g.pc, back := some g.clause, defer := false, src := 0 } rps

/-- A fault at the header that an entry's members stand at. -/
def headerTrap (s : State) (core : Nat) (ms : List Thread) (code sub : Nat) (addr hdr : W64) (ids : List Nat) : State :=
  takeTrap s core ms { code := code, sub := sub, addr := addr, mask := ids, epc := hdr, back := none, defer := false, src := 0 } []

/-- THE RETURN FROM A FAULT (R381) of the threads `ids` that execute ERET: TH is cleared; a thread whose EPC names a header enters the table there; the
others resume at their word, together with those that resume at the same one. -/
def returnFrom (s : State) (core ctx : Nat) (ids : List Nat) : State :=
  let s := ids.foldl (fun s id => s.updThread id (fun t => { t with trap := { t.trap with th := false } })) s
  let ts := ids.filterMap (fun id => s.thread id)
  let hd := ts.filter (fun t => t.faultAt.isNone)
  let s := hd.foldl (fun s t => enterTable (s.updThread t.id (fun t => { t with replay := none })) t.id t.trap.epc (some s.clk)) s
  let spots := (ts.filterMap Thread.faultAt).foldl (fun l c => if l.contains c then l else l ++ [c]) []
  spots.foldl (fun s c =>
    let ms := (ts.filter (fun t => t.faultAt = some c)).map Thread.id
    let s := ms.foldl (fun s id => s.updThread id (fun t => { t with faultAt := none })) s
    resumeAt s core ctx ms c false (some s.clk)) s

end Sys2Proof.Machine
end

