-- ==== Sys2Proof/Machine/Flags.lean ====
section
/-! DEFINITION. Completion flags (R58 to R60): which flags a word counts, saturation, and counting down; predicates that wait for a result (R71,
R73). -/

namespace Sys2Proof.Machine

/-- The flag that a header code names: none for 15, and none in interlocked mode (R73). -/
def flagCode (s : State) (ctx code : Nat) : Option Nat := if s.ilk ctx || code = 15 then none else some code

/-- The flags that a word of the group counts up, SETA first (R58). -/
def flagsOf (s : State) (g : Grp) (a b : Bool) : Option Nat × Option Nat :=
  (if a then flagCode s g.ctx g.clause.hdr.seta else none, if b then flagCode s g.ctx g.clause.hdr.setb else none)

/-- Every count fits (R59). Where SETA and SETB name one flag, a word that counts both needs room for two: it stalls until the flag is 5 or below (DESIGN CHOICE,
log entry 55: R59 says 6). -/
def flagsFit (t : Thread) (f : Option Nat × Option Nat) : Bool :=
  match f with
  | (none, none) => true
  | (some x, none) | (none, some x) => flagOf t x + 1 ≤ 7
  | (some x, some y) => if x = y then flagOf t x + 2 ≤ 7 else flagOf t x + 1 ≤ 7 && flagOf t y + 1 ≤ 7

/-- Counts up the flags of one thread at issue (R58). -/
def countUp (s : State) (tid : Nat) (f : Option Nat × Option Nat) : State :=
  let up (t : Thread) (x : Option Nat) : Thread := match x with
    | some n => flagUp t n
    | none => t
  s.updThread tid (fun t => up (up t f.1) f.2)

/-- Delivers one count-down (R58); an exited thread receives nothing (R242). -/
def countDown (s : State) (tid : Nat) (f : Option Nat) : State :=
  match f with
  | none => s
  | some n => s.updThread tid (fun t => if t.exited then t else flagDown t n)

/-- The producers outstanding on a flag of a thread, each with its number and its PC. -/
def producersOf (s : State) (t : Thread) (f : Nat) : List (Nat × W64) :=
  let k := s.core t.core
  let cmds : List CopyCmd := k.cprun.map CopyRun.cmd ++ (k.cpq ++ k.cpback).filterMap (fun e => match e with
    | .cmd c => some c
    | .raw _ _ => none)
  let mtx : List MtxCmd := (match k.array.loop with
    | some l => [l.cmd]
    | none => []) ++ k.array.flight.map Prod.fst ++ k.array.queue
  (s.ops.filter (fun o => o.tids.contains t.id && (o.seta == some f || o.setb == some f))).map (fun o => (o.id, o.pc))
  ++ (cmds.filter (fun c => c.tid == t.id && c.setb == some f)).map (fun c => (c.id, c.pc))
  ++ (mtx.filter (fun m => m.pushers.any (fun p => p.1 == t.id && p.2 == some f))).map (fun m => (m.id, m.pc))

/-- The oldest outstanding producer on a flag of a thread (R59, R407): numbers rise in the order of issue. -/
def flagProducer (s : State) (t : Thread) (f : Nat) : W64 :=
  (((producersOf s t f).foldl (fun (m : Option (Nat × W64)) p => match m with
    | none => some p
    | some q => some (if p.1 < q.1 then p else q)) none).map Prod.snd).getD 0#64

/-- The lowest flag of the mask that is not zero in some thread, with that thread (R407). -/
def busyFlag (ts : List Thread) (mask : BitVec 12) : Option (Thread × Nat) :=
  (List.range 12).findSome? (fun f =>
    if mask.getLsbD f then (ts.find? (fun t => flagOf t f != 0)).map (fun t => (t, f)) else none)

/-- A predicate waits for a result (R71, R73). -/
def predWaits (t : Thread) (q : Pred) : Option Nat := (t.predPend.find? (fun p => p.1 == q.p.val && p.1 != 7)).map Prod.snd

end Sys2Proof.Machine
end

