-- ==== Sys2Proof/Machine/Operands.lean ====
section
/-! DEFINITION. Operands of a word (R62, R65 to R68, R71 to R73, R171): what it reads and writes, the stalls before its issue, the faults of its
operands, the reading and counting of its sources, and the binding of its results. -/

namespace Sys2Proof.Machine

/-- An operand: a source field with whether it is read as a 64-bit operand, or an immediate. -/
inductive Opnd where
  | src (a : Src) (wide : Bool)
  | const (v : W64)
deriving DecidableEq, Repr

def Opnd.ofI (t : ElemTy) : SrcI → Opnd
  | .reg a => .src a (ElemTy.wide t)
  | .imm v => .const (immAs t v)

/-- An operand read as n32: IMM16 zero-extended, or SA. -/
def Opnd.index : SrcI → Opnd
  | .reg a => .src a false
  | .imm v => .const (v.zeroExtend 64)

/-- What a word writes: value names with their widths, a read count, a queue with the cells pushed per thread, predicates. -/
structure Dest where
  names : List (Nat × Bool)
  rdc : BitVec 4
  push : Option (PushQ × Nat)
  preds : List Nat
deriving DecidableEq, Repr

namespace Dest
def none : Dest := { names := [], rdc := 0#4, push := Option.none, preds := [] }
def ofDst (d : Dst) (wide : Bool) : Dest :=
  match d with
  | .val n k => { none with names := [(n.val, wide)], rdc := k }
  | .push q => { none with push := some (q, if wide then 2 else 1) }
  | .nul => none
/-- The destination takes a value: it is not nul. -/
def taken (d : Dst) : Bool :=
  match d with
  | .nul => false
  | _ => true
/-- The destination binds a value: it is neither nul nor a push queue. -/
def binds (d : Dst) : Bool :=
  match d with
  | .val _ _ => true
  | _ => false
def pred (p : PName) : Dest := { none with preds := [p.val] }
def queue (q : PushQ) : Dest := { none with push := some (q, 1) }
end Dest

/-- A word as the issue sees it: guards, sources in field order, predicate operands, destination, the flags it counts, and the checks that its
description places before EXHAUST (R67). -/
structure Spec where
  h : Hd
  srcs : List Opnd := []
  ps : List Pred := []
  dst : Dest := Dest.none
  a : Bool := false
  b : Bool := false
  /-- a word of the MTX group, which needs the array (R234) -/
  mtx : Bool := false
  pre : Thread → Option (Nat × Nat × W64) := fun _ => none
  /-- sources that differ from thread to thread, read after the others: the state cells of LESC (R366) -/
  extra : Thread → List Opnd := fun _ => []

/-- The sources of one thread. -/
def Spec.of (w : Spec) (t : Thread) : List Opnd := w.srcs ++ w.extra t

/-- An executing lane with its operand values in field order; `took` is set when it counted a read or popped (R375). -/
structure Lane where
  t : Thread
  vals : List W64
  took : Bool
deriving DecidableEq, Repr

def Lane.v (l : Lane) (i : Nat) : W64 := l.vals.getD i 0#64

/-- The outcome of the operand stage: the word did not issue (it stalled or faulted), or it issues for these lanes. -/
inductive Prep where
  | done (s : State)
  | go (lanes : List Lane) (s : State)

/-- The replay sets that a fault after the reads records (R375). -/
def replaysOf (ls : List Lane) : List (Nat × Replay) :=
  (ls.filter (fun l => l.took)).map (fun l => (l.t.id, { vals := l.vals, guard := true }))

/-- The thread re-issues its word from its replay set (R375, R381). -/
def Thread.replaying (t : Thread) : Option Replay := if t.trap.th then Option.none else t.replay

/-- The members that execute the word (R62); a recorded guard outcome stands (R375). -/
def executing (g : Grp) (h : Hd) : List Thread :=
  g.mem.filter (fun t => match t.replaying with
    | some r => r.guard
    | none => guardsHold t h)

/-! ## Field lists -/

/-- Value names among the operands, one entry per field. -/
def valNames (l : List Opnd) : List Nat := l.filterMap (fun o => match o with
  | .src (.val n) _ => some n.val
  | _ => none)

def countOf (n : Nat) (l : List Nat) : Nat := (l.filter (fun m => m == n)).length

/-- Entries that the fields pop from mxo, cps and hof (R68). -/
def popCount (q : PopQ) (l : List Opnd) : Nat := (l.map (fun o => match o with
  | .src (.pop p) w => if p = q then (if w && (q == .mxo || q == .hof) then 2 else 1) else 0
  | _ => 0)).sum

def streamFields (l : List Opnd) : List PopQ := l.filterMap (fun o => match o with
  | .src (.pop .st0) _ => some .st0
  | .src (.pop .st1) _ => some .st1
  | _ => none)

/-- A word of the MTX group, or one that names mxa, mxc or mxo (R234). -/
def namesArray (w : Spec) : Bool :=
  w.mtx || popCount .mxo w.srcs != 0 || (match w.dst.push with
    | some (.mxa, _) | some (.mxc, _) => true
    | _ => false)

def holdsArray (s : State) (t : Thread) : Bool := (s.core t.core).array.gang == some t.gang

/-! ## Streams (R123, R144) -/

/-- The window on which a stream read of a thread stands: the one it already waits on, else its row's binding. -/
def streamWin (s : State) (t : Thread) (q : PopQ) : Option Nat :=
  let code := if q == .st1 then 1 else 0
  match t.streamWait.find? (fun p => p.1 == code) with
  | some (_, w) => some w
  | none => match s.row t.core t.slot with
    | some r => if q == .st1 then r.st1 else r.st0
    | none => none

/-- The ring of a thread's gang on its core. -/
def ringAt (s : State) (t : Thread) (w : Nat) : Option (Ring × Nat × Nat) :=
  match s.gang t.gang with
  | none => none
  | some g => match g.window (t.core - g.base) w with
    | some { fs := fs, kind := .ring r, .. } => some (r, fs, t.core - g.base)
    | _ => none

/-- The pops of one row in field order (R123): the stage addresses, or none where a ring has no filled stage. -/
def popStreams (s : State) (t : Thread) : List PopQ → Option (List W64 × State)
  | [] => some ([], s)
  | q :: qs =>
    match streamWin s t q with
    | none => none
    | some w =>
      match ringAt s t w with
      | none => none
      | some (r, fs, gc) =>
        match r.pop with
        | none => none
        | some (i, r') =>
          let s := updRing s t.gang gc w (fun _ => r')
          match popStreams s t qs with
          | none => none
          | some (l, s) => some (BitVec.ofNat 64 (gc * 2 ^ 20 + 256 * (fs + r.ss * i)) :: l, s)

/-- The first executing thread of each row, in ascending slot order. -/
def rowHeads (ts : List Thread) : List Thread :=
  (sortNats (dedupNats (ts.map Thread.slot))).filterMap (fun sl => ts.find? (fun t => t.slot == sl))

def streamUnbound (s : State) (t : Thread) (l : List Opnd) : Bool :=
  (streamFields l).any (fun q => match streamWin s t q with
    | none => true
    | some w => (ringAt s t w).isNone)

/-- Every row of the executing threads can take its pops, one row after the other (R123): two rows bound to one ring need a filled stage each. -/
def streamsReady (s : State) (ts : List Thread) (l : List Opnd) : Bool :=
  ((rowHeads ts).foldl (fun (acc : Option State) t => acc.bind (fun u =>
    if streamUnbound u t l then some u else (popStreams u t (streamFields l)).map Prod.snd)) (some s)).isSome

/-! ## Room in queues and pools -/

/-- A push fits for every executing thread (R68, R126, R238, R240). -/
def pushFits (s : State) (g : Grp) (ts : List Thread) : Option (PushQ × Nat) → Bool
  | none => true
  | some (.cpc, n) => !(s.core g.core).cpback.any (fun e => e.ctx == g.ctx) && (s.core g.core).cpq.length + n * ts.length ≤ Config.cpqLen
  | some (.mxc, n) => (s.core g.core).array.queue.length + n * (rowHeads ts).length ≤ 4
  | some (.mxa, n) => (rowHeads ts).all (fun t => match s.row t.core t.slot with
    | some r => r.mxa.length + n ≤ Config.mxaLen
    | none => true)

def popsReady (s : State) (t : Thread) (l : List Opnd) : Bool :=
  (popCount .mxo l ≤ t.mxo.length || !holdsArray s t) && popCount .cps l ≤ t.cps.length

/-- Cells that the word's own last reads free (R66, R171). -/
def freedCells (t : Thread) (l : List Opnd) : Nat :=
  let ns := valNames l
  ((dedupNats ns).map (fun n => match lookupName t n with
    | some b => if b.count != 15#4 && b.count.toNat == countOf n ns then b.cells else 0
    | none => 0)).sum

def destCells (d : Dest) : Nat := (d.names.map (fun p => if p.2 then 2 else 1)).sum

def needCells (t : Thread) (w : Spec) : Nat :=
  destCells w.dst - (if t.replaying.isSome then 0 else freedCells t (w.of t))

/-- Cells that evictions hold for the blocked words of other threads of the context in the lane: no other reservation takes them, under the cap as in the pool (R181, R184).
Under the cap they count up to the reservation, in the pool all of them do (DESIGN CHOICE, log entry 73). -/
def State.keptFor (s : State) (t : Thread) : Nat :=
  ((s.laneThreads t.core t.lane).map (fun u =>
    if u.ctx == t.ctx && u.id != t.id then min u.heldFor ((u.blocked.map Blocked.need).getD 0) else 0)).sum

/-- Why a reservation is refused (R180): none, or whether the cap refuses it. -/
def refusal (s : State) (t : Thread) (need : Nat) : Option Bool :=
  if need = 0 then none
  else if (s.ctx t.ctx).cellcap < s.ctxCells t.core t.lane t.ctx + s.keptFor t + need then some true
  else if s.poolFree t.core t.lane + t.heldFor < need then some false
  else none

/-- A thread is blocked on allocation (R180); a first refusal starts its time, and a new reason does unless the arbiter acts already. -/
def blockedOn (clk : Nat) (cap : Bool) (need : Nat) (t : Thread) : Thread :=
  let (since, arb) := match t.blocked with
    | some b => if b.cap = cap || b.arb then (b.since, b.arb) else (clk, false)
    | none => (clk, false)
  { t with blocked := some { since := since, cap := cap, need := need, arb := arb } }

/-! ## Faults of the operands -/

/-- EXHAUST of one thread (R66, R173): sub-code and name. -/
def exhaust (t : Thread) (l : List Opnd) : Option (Nat × Nat) :=
  let ns := valNames l
  ns.findSome? (fun n => match lookupName t n with
    | none => some (1, n)
    | some b => if b.count != 15#4 && b.count.toNat < countOf n ns then some (2, n) else none)

def itemOf (t : Thread) : W64 := match t.rung with
  | some r => r.item.zeroExtend 64
  | none => 0xFFFFFFFF#64

/-- Faults of queue names, after EXHAUST: LADDER for hof (R354), PROT 9 in every executing lane for the array (R234), PROT 8 for an unbound stream register (R123). -/
def queueFault (s : State) (w : Spec) (ts : List Thread) (t : Thread) : Option (Nat × Nat × W64) :=
  if popCount .hof w.srcs != 0 && t.rung.isNone then some (0x10, 1, itemOf t)
  else if t.hof.length < popCount .hof w.srcs then some (0x10, 6, itemOf t)
  else if namesArray w && ts.any (fun u => !holdsArray s u) then some (0x07, 9, 0#64)
  else if streamUnbound s t w.srcs then some (0x07, 8, 0#64)
  else none

/-- One fault of several lanes (R107): the sub-code and address of the lowest lane; `f` answers a lane's failing check. -/
def laneTrap (s : State) (g : Grp) (ts : List Thread) (f : Thread → Option (Nat × Nat × W64)) (rps : List (Nat × Replay)) : Option State :=
  match ts.findSome? f with
  | none => none
  | some (code, sub, addr) =>
    let ids := (ts.filter (fun t => match f t with
      | some (c, _, _) => c == code
      | none => false)).map Thread.id
    some (wordTrap s g code sub addr ids rps)

/-! ## Reading -/

/-- Counts k reads of a binding; the last read frees it (R66, R173). -/
def countReads (t : Thread) (n k : Nat) : Thread :=
  match lookupName t n with
  | none => t
  | some b =>
    if b.count = 15#4 then t
    else if b.count.toNat ≤ k then freeName t n
    else setName t n { b with count := b.count - BitVec.ofNat 4 k }

def special (s : State) (t : Thread) : Special → W64
  | .zero => 0#64
  | .lane => BitVec.ofNat 64 t.lane
  | .tid => BitVec.ofNat 64 t.tid
  | .rank => t.rank.zeroExtend 64
  | .tsize => t.tsize.zeroExtend 64
  | .gang => match s.gang t.gang with
    | some g => g.index.zeroExtend 64
    | none => 0#64
  | .item => itemOf t

/-- A cell popped from a list of 32-bit entries, two for a 64-bit operand (R68). -/
def popCells (l : List W32) (wide : Bool) : W64 × List W32 :=
  if wide then ((l.getD 1 0#32 ++ l.getD 0 0#32 : BitVec 64), l.drop 2) else ((l.getD 0 0#32).zeroExtend 64, l.drop 1)

/-- Reads the fields in order; counts are applied afterwards, since all reads are together (R66, R68). -/
def readFields (s : State) (before : Thread) : List Opnd → List W64 → Thread → List W64 × Thread
  | [], _, t => ([], t)
  | o :: os, st, t =>
    let (v, st, t) : W64 × List W64 × Thread := match o with
      | .const v => (v, st, t)
      | .src (.val n) w => (match lookupName before n.val with
        | some b => (if b.wide && w then b.value else lowCell b.value)
        | none => 0#64, st, t)
      | .src (.spec x) _ => (special s before x, st, t)
      | .src (.pop .mxo) w => let (v, l) := popCells t.mxo w; (v, st, { t with mxo := l })
      | .src (.pop .hof) w => let (v, l) := popCells t.hof w; (v, st, { t with hof := l })
      | .src (.pop .cps) w => (let v := t.cps.getD 0 0#64; (if w then v else lowCell v), st, { t with cps := t.cps.drop 1 })
      | .src (.pop .st0) _ | .src (.pop .st1) _ => (st.getD 0 0#64, st.drop 1, t)
    let (vs, t) := readFields s before os st t
    (v :: vs, t)

/-- The reads of one executing thread, from its replay set where it holds one. -/
def readThread (s : State) (l : List Opnd) (streams : List W64) (t : Thread) : Lane × Thread :=
  match t.replaying with
  | some r => ({ t := t, vals := r.vals, took := true }, t)
  | none =>
    let ns := valNames l
    let (vs, t') := readFields s t l streams t
    let t' := (dedupNats ns).foldl (fun u n => countReads u n (countOf n ns)) t'
    let took := ns.any (fun n => match lookupName t n with
      | some b => b.count != 15#4
      | none => false) || l.any (fun o => match o with
        | .src (.pop _) _ => true
        | _ => false)
    ({ t := t', vals := vs, took := took }, t')

/-- The pops of every row, with the addresses each row's threads receive. -/
def popRows (s : State) (ts : List Thread) (l : List Opnd) : List (Nat × List W64) × State :=
  (rowHeads (ts.filter (fun t => t.replaying.isNone))).foldl (fun (acc : List (Nat × List W64) × State) t =>
    match popStreams acc.2 t (streamFields l) with
    | some (v, s) => (acc.1 ++ [(t.slot, v)], s)
    | none => acc) ([], s)

/-- Reads the operands of every executing thread, in ascending lane order. -/
def readLanes (s : State) (w : Spec) (ts : List Thread) : List Lane × State :=
  let (rows, s) := popRows s ts w.srcs
  ts.foldl (fun (acc : List Lane × State) t =>
    let st := ((rows.find? (fun p => p.1 == t.slot)).map Prod.snd).getD []
    let (ln, t') := readThread acc.2 (w.of t) st t
    (acc.1 ++ [ln], acc.2.updThread t.id (fun _ => t'))) ([], s)

/-! ## The operand stage -/

/-- The PC of the word that a token's result comes from (R70). A pending predicate whose word binds no name is in no cell, and R70 tags cells only: its PC is 0
(DESIGN CHOICE, log entry 72). -/
def tokenPc (s : State) (t : Thread) (tok : Nat) : W64 :=
  match s.ops.find? (fun o => o.toks.contains tok) with
  | some o => o.pc
  | none => match (t.names.find? (fun p => p.2.pend == some tok)) with
    | some p => p.2.prod
    | none => 0#64

/-- A stall on a pending predicate or cell (R71, R73): the blamed PC. -/
def pendingOf (s : State) (w : Spec) (g : Grp) (ex : List Thread) : Option W64 :=
  let guard (t : Thread) : Option W64 :=
    if t.replaying.isSome then none
    else ([w.h.ga, w.h.gb].findSome? (fun q => predWaits t q)).map (tokenPc s t)
  let oper (t : Thread) : Option W64 :=
    match (w.ps.findSome? (fun q => predWaits t q)).map (tokenPc s t) with
    | some p => some p
    | none => if t.replaying.isSome then none
      else (valNames (w.of t)).findSome? (fun n => match lookupName t n with
        | some b => if b.pend.isSome then some b.prod else none
        | none => none)
  match g.mem.findSome? guard with
  | some p => some p
  | none => ex.findSome? oper

/-- A member that no longer executes the word at which its group waits reserves nothing there: it is blocked on allocation no longer (R180). -/
def unblocked (s : State) (g : Grp) (ex : List Thread) : State :=
  (g.mem.filter (fun t => t.blocked.isSome && !ex.any (fun u => u.id == t.id))).foldl
    (fun s t => s.updThread t.id (fun t => { t with blocked := none, heldFor := 0 })) s

/-- The stage from the guards to the operand values: stalls in the order of log entry 13, then the faults of R67, then the reads. -/
def prepare (w : Spec) (g : Grp) (s : State) : Prep :=
  let ex := executing g w.h
  let fl := flagsOf s g w.a w.b
  let fresh := ex.filter (fun t => t.replaying.isNone)
  let still := unblocked s g ex
  match pendingOf s w g ex with
  | some p => .done (stallHold still g 1 p)
  | none =>
    match ex.find? (fun t => !flagsFit t fl) with
    | some t => .done (stallHold still g 2 (flagProducer s t ((match fl.1 with
        | some a => if 7 ≤ flagOf t a + (if fl.2 = fl.1 then 1 else 0) then fl.1 else fl.2
        | none => fl.2).getD 0)))
    | none =>
      if !(pushFits s g (ex.filter (fun t => !namesArray w || holdsArray s t)) w.dst.push && fresh.all (fun t => popsReady s t w.srcs) && streamsReady s fresh w.srcs) then
        let s := fresh.foldl (fun s t =>
          let ws := (dedupNats ((streamFields w.srcs).map (fun q => if q == .st1 then 1 else 0))).filterMap (fun c =>
            (streamWin s t (if c == 1 then .st1 else .st0)).map (fun x => (c, x)))
          s.updThread t.id (fun t => { t with streamWait := ws })) still
        .done (stallFree s g 5 0#64)
      else
        let refused := ex.filterMap (fun t => (refusal s t (needCells t w)).map (fun c => (t, c)))
        if !refused.isEmpty then
          let s := refused.foldl (fun s p => s.updThread p.1.id (blockedOn s.clk p.2 (needCells p.1 w))) still
          .done (stallFree s g 6 0#64)
        else
          match laneTrap s g ex w.pre [] with
          | some s => .done s
          | none =>
            match laneTrap s g fresh (fun t => (exhaust t (w.of t)).map (fun p => (0x04, p.1, BitVec.ofNat 64 p.2))) [] with
            | some s => .done s
            | none =>
              match laneTrap s g fresh (queueFault s w fresh) [] with
              | some s => .done s
              | none => let (ls, s) := readLanes s w ex; .go ls s

/-! ## Results -/

/-- The results of one lane: one value per name (or the pushed value), predicates, and whether FMTRSV.CVT is set (R31). -/
structure Res where
  vals : List W64
  preds : List Bool
  cvt : Bool
deriving DecidableEq, Repr

def Res.val (v : W64) : Res := { vals := [v], preds := [], cvt := false }
def Res.pred (b : Bool) : Res := { vals := [], preds := [b], cvt := false }

/-- The binding of a name that waits for a token, or that already has its value. -/
def mkBinding (d : Dest) (pc : W64) (wide : Bool) (v : W64) (pend : Option Nat) : Binding :=
  { value := if wide then v else lowCell v, wide := wide, count := d.rdc, pend := pend, prod := pc }

/-- Pushes one cell onto a queue for one thread or, for mxa and mxc, one entry for its row (R68, R238). `cells` are the cells of the row's
executing lanes. -/
def pushCells (s : State) (g : Grp) (q : PushQ) (cells : List (Thread × QCell)) : State :=
  match q with
  | .cpc => s.updCore g.core (fun k => { k with cpq := k.cpq ++ cells.map (fun p => CpEntry.raw p.1.ctx p.2) })
  | .mxa => (rowHeads (cells.map Prod.fst)).foldl (fun s t =>
      s.updRow t.core t.slot (fun r => { r with mxa := r.mxa ++ [(cells.filter (fun p => p.1.slot == t.slot)).map Prod.snd] })) s
  | .mxc => (rowHeads (cells.map Prod.fst)).foldl (fun s t =>
      let (id, s) := s.fresh
      let cmd : MtxCmd := { id := id, kind := .raw, slot := t.slot, gang := t.gang, task := t.task, ctx := t.ctx, pushers := [],
                            pend := (cells.filter (fun p => p.1.slot == t.slot)).filterMap (fun p => p.2.pend), pc := g.pc }
      s.updCore g.core (fun k => { k with array := { k.array with queue := k.array.queue ++ [cmd] } })) s

/-- The cells that a lane pushes: low cell first (R189). Token `i` belongs to cell `i`. -/
def cellOf (l : Lane) (v : W64) (i : Nat) (toks : List Nat) : Thread × QCell :=
  (l.t, { lane := l.t.lane, val := v.extractLsb' (32 * i) 32, pend := toks[i]? })

/-- Binds the fixed-latency results of a word (R72, R73): at issue + L in trusted mode; at issue with a pending mark in interlocked mode. -/
def bindFixed (s : State) (g : Grp) (d : Dest) (lat : Nat) (rs : List (Lane × Res)) : State :=
  let s := match d.push with
    | some (q, n) => (List.range n).foldl (fun s i =>
        pushCells s g q (rs.map (fun p => cellOf p.1 (p.2.vals.getD 0 0#64) i []))) s
    | none => s
  rs.foldl (fun s p =>
    if d.names.isEmpty && d.preds.isEmpty && !p.2.cvt then s
    else
      let (tok, s) := s.fresh
      let late := !s.ilk g.ctx
      let names := (d.names.zip p.2.vals).map (fun x => (x.1.1, mkBinding d g.pc x.1.2 x.2 none))
      let f : InFlight := { tok := tok, due := s.clk + lat, late := late, names := names, preds := d.preds.zip p.2.preds, cvt := p.2.cvt }
      let s := if late then s
        else
          let s := d.names.foldl (fun s x => bindName s p.1.t.id x.1 (mkBinding d g.pc x.2 0#64 (some tok))) s
          s.updThread p.1.t.id (fun t => { t with
            predPend := t.predPend.filter (fun q => !d.preds.contains q.1) ++ (d.preds.filter (fun q => q != 7)).map (fun q => (q, tok)) })
      s.updThread p.1.t.id (fun t => { t with flight := t.flight ++ [f] })) s

/-- The tokens of a variable-latency result: one per name, or one per cell pushed. -/
def tokensFor (s : State) (d : Dest) : List Nat × State :=
  let n := match d.push with
    | some (_, k) => k
    | none => d.names.length
  ((List.range n).map (fun i => s.nextUid + i), { s with nextUid := s.nextUid + n })

/-- Binds the destination of one lane pending on its tokens (R71); queue entries are pushed by `pushPending`. -/
def bindPending (s : State) (g : Grp) (d : Dest) (l : Lane) (toks : List Nat) : State :=
  (d.names.zip toks).foldl (fun s x => bindName s l.t.id x.1.1 (mkBinding d g.pc x.1.2 0#64 (some x.2))) s

/-- Pushes the entries of a variable-latency word, which take their places at issue (R149, R238). -/
def pushPending (s : State) (g : Grp) (d : Dest) (ls : List (Lane × List Nat)) : State :=
  match d.push with
  | some (q, n) => (List.range n).foldl (fun s i => pushCells s g q (ls.map (fun p => cellOf p.1 0#64 i p.2))) s
  | none => s

/-! ## The two shapes of a word -/

/-- A fixed-latency word: `f` gives a lane's result from all executing lanes and its own values. -/
def fixedWord (w : Spec) (lat : Nat) (f : List Lane → Lane → Res) (s : State) : Out :=
  withGrp s (fun g => match prepare w g s with
    | .done s => s
    | .go ls s => finishWord (bindFixed s g w.dst lat (ls.map (fun l => (l, f ls l)))) g w.h)

/-- An outstanding operation of a lane: its kind and address (R149). -/
structure NewOp where
  kind : OpKind
  va : W64
deriving DecidableEq, Repr

/-- Issues one operation per lane: flags count up, the destination is bound pending, and the operations become outstanding (R58, R71). -/
def issueOps (s : State) (g : Grp) (w : Spec) (ops : List (Lane × NewOp)) : State :=
  let (issue, s) := s.fresh
  let fl := flagsOf s g w.a w.b
  let (toks, s) := ops.foldl (fun (acc : List (Lane × List Nat) × State) p =>
    let (k, s) := tokensFor acc.2 w.dst
    (acc.1 ++ [(p.1, k)], s)) ([], s)
  let s := (ops.zip toks).foldl (fun s p =>
    let (o, k) := (p.1, p.2.2)
    let s := countUp s o.1.t.id fl
    let s := bindPending s g w.dst o.1 k
    let (id, s) := s.fresh
    { s with ops := s.ops ++ [{ id := id, issue := issue, tid := o.1.t.id, core := g.core, ctx := g.ctx, pc := g.pc, va := o.2.va,
                                kind := o.2.kind, toks := k, seta := fl.1, setb := fl.2, result := none, issuedAt := s.clk }] }) s
  pushPending s g w.dst toks

/-- A variable-latency word whose value is known at issue and arrives later (R71). -/
def variableWord (w : Spec) (f : State → List Lane → Lane → W64 × State) (s : State) : Out :=
  withGrp s (fun g => match prepare w g s with
    | .done s => s
    | .go ls s =>
      let (ops, s) := ls.foldl (fun (acc : List (Lane × NewOp) × State) l =>
        let (v, s) := f acc.2 ls l
        (acc.1 ++ [(l, { kind := .value v, va := 0#64 })], s)) ([], s)
      finishWord (issueOps s g w ops) g w.h)

/-- A word that acts at its issue and writes no name. -/
def actWord (w : Spec) (f : Grp → List Lane → State → State) (s : State) : Out :=
  withGrp s (fun g => match prepare w g s with
    | .done s => s
    | .go ls s => f g ls s)

end Sys2Proof.Machine
end

