-- ==== Sys2Proof/Machine/Watch.lean ====
section
/-! DEFINITION. The debug grant (R399), the event ring (R404, R405), trace and stop records (R406), and watchpoints (R396, R397). -/

namespace Sys2Proof.Machine

/-- Appends a record, or counts it lost when the ring is full (R404). The ring stands in the window's memory. -/
def dbgRecord (s : State) (c : Nat) (r : List W64) : State :=
  let x := s.ctx c
  let s : State := if (x.dbgHead - x.dbgTail).toNat = Config.ringRecords then s.updCtx c (fun x => { x with dbgLost := x.dbgLost + 1#32 })
    else
      let pa := s.dbgBase c + 0x1000 + 32 * (x.dbgHead.toNat % Config.ringRecords)
      let s := (r.zipIdx).foldl (fun s p => s.agentWriteN (pa + 8 * p.2) 8 c p.1.toNat) s
      s.updCtx c (fun x => { x with dbgHead := x.dbgHead + 1#32 })
  s.dbgTouch c 0x10

/-- The words of a record (R405). -/
def recordWords (s : State) (kind cls : Nat) (ord : BitVec 16) (pc : W64) (core slot : Nat) (addr lanes : W64) : List W64 :=
  [ BitVec.ofNat 64 (kind * 2 ^ 56 + cls * 2 ^ 48 + s.clk % 2 ^ 48),
    BitVec.ofNat 64 (ord.toNat * 2 ^ 48 + pc.toNat % 2 ^ 48),
    BitVec.ofNat 64 (core * 2 ^ 55 + slot * 2 ^ 50 + addr.toNat % 2 ^ 48), lanes ]

/-- R406: a trace record of a group that starts a notch clause. -/
def traceRecord (s : State) (core c : Nat) (ms : List Thread) (hdr : Header) (pc : W64) : State :=
  let x := s.ctx c
  let lo := x.dbgRange.extractLsb' 0 16
  let hi := x.dbgRange.extractLsb' 16 16
  match ms with
  | [] => s
  | t :: _ =>
    if grantActive s c && traceOn s c && hdr.notch && decide (lo.toNat ≤ hdr.spo.toNat) && decide (hdr.spo.toNat ≤ hi.toNat) then
      dbgRecord s c (recordWords s 1 0 hdr.spo pc core t.slot 0#64 (maskOf ms).1)
    else s

/-- R406: the stop record of the threads `stop` of a group `ms` that halt together; SLOT is the group's lowest (R405). -/
def stopRecord (s : State) (core c : Nat) (ms stop : List Thread) (reason : BitVec 8) (ord : BitVec 16) (pc : W64) : State :=
  match ms with
  | [] => s
  | t :: _ => dbgRecord s c (recordWords s 4 reason.toNat ord pc core t.slot 0#64 (maskOf stop).1)

/-! ## Watchpoints -/

/-- One byte range that a lane of a word accesses (R397). -/
structure Touch where
  addr : W64
  size : Nat
  stash : Bool
  load : Bool
  store : Bool
deriving DecidableEq, Repr

/-- A watch register admits and covers a byte of the access (R396, R397). -/
def watchCovers (w : W64) (a : Touch) : Bool :=
  let lsz := (w.extractLsb' 54 6).toNat
  let base := (w.extractLsb' 0 48).toNat / 2 ^ lsz * 2 ^ lsz
  let base := if a.stash then base % 2 ^ 32 / 2 ^ lsz * 2 ^ lsz else base
  w.getLsbD 63 && (w.getLsbD 60 == a.stash) && ((w.getLsbD 61 && a.load) || (w.getLsbD 62 && a.store))
    && decide (a.addr.toNat < base + 2 ^ lsz) && decide (base < a.addr.toNat + a.size)

/-- The watched accesses of one word (R397): a record for each register that is hit, in the order A to D, and stop reason 2 in the hitting
threads. -/
def watchHits (s : State) (g : Grp) (ls : List (Thread × List Touch)) : State :=
  if !grantActive s g.ctx then s
  else (List.range 4).foldl (fun s i =>
    let w := (s.ctx g.ctx).watch.getD i 0#64
    let hit := ls.filter (fun p => p.2.any (watchCovers w))
    match hit with
    | [] => s
    | p :: _ =>
      let addr := match p.2.find? (watchCovers w) with
        | some a => a.addr
        | none => 0#64
      let s := dbgRecord s g.ctx (recordWords s 3 i p.1.lastOrd g.pc g.core ((g.mem.map Thread.slot).head?.getD 0) addr (maskOf (hit.map Prod.fst)).1)
      hit.foldl (fun s q => s.updThread q.1.id (fun t => { t with stops := t.stops ||| 4#8 })) s) s

end Sys2Proof.Machine
end

