-- ==== Sys2Proof/Machine/Issue.lean ====
section
/-! DEFINITION. From a header to an issued word: fetch (R52, R284, R337, R382), the notch (R305, R393), the start of a clause (R57, R60, R73, R293),
the row rendezvous (R296), deferred faults (R373), and the word that a group issues next (R63, R67). -/

namespace Sys2Proof.Machine

/-! ## Fetch -/

/-- The digest that the context's table lists for a page (R415): unlisted, unreadable with the refusal of the read, or the first entry's 64 bytes as a number, with the
entry's address. -/
inductive Digest where
  | unlisted
  | unreadable (f : Nat × Nat × W64)
  | listed (d : Nat) (entry : W64)
deriving DecidableEq, Repr

/-- Bytes of a context's memory read by the core for the digest table, 8 at a time, or the refusal of one of the reads. -/
def tableRead (s : State) (c : Nat) (va : W64) : Nat → Except (Nat × Nat × W64) Nat
  | 0 => .ok 0
  | n + 1 =>
    match unitRead s c va 8 with
    | .ok (_, v) => (match tableRead s c (va + 8#64) n with
      | .ok r => .ok (v + 2 ^ 64 * r)
      | .error f => .error f)
    | .error f => .error f

def digestScan (s : State) (c page : Nat) (va : W64) : Nat → Digest
  | 0 => .unlisted
  | n + 1 =>
    match tableRead s c va 1 with
    | .error f => .unreadable f
    | .ok a =>
      if a = page * 65536 then (match tableRead s c (va + 8#64) 8 with
        | .ok d => .listed d va
        | .error f => .unreadable f)
      else digestScan s c page (va + 72#64) n

def digestOf (s : State) (c page : Nat) : Digest :=
  let t := (s.ctx c).digt
  if t = 0#64 then .unlisted
  else match tableRead s c t 1 with
    | .error f => .unreadable f
    | .ok h => digestScan s c page (t + 16#64) (h % 2 ^ 32)

/-- The page needs no check before words of it run (R382): it is verified, or unlisted. -/
def pageClear (s : State) (c page : Nat) : Bool := (s.ctx c).verified.any (fun p => p.1 == page) || digestOf s c page == .unlisted

/-- The outcome of a fetch: the value, a missing TLB entry, a page to be verified, or a fault. -/
inductive Fetch (α : Type) where
  | ok (v : α) (s : State)
  | miss (page : Nat)
  | verify (page : Nat)
  | wait
  | bad (code sub : Nat) (addr : W64)

/-- A line of the instruction cache holds bytes of a range of the context (R284, R390). -/
def ILine.within (x : ILine) (c lo n : Nat) : Bool := x.ctx == c && decide (128 * x.va < lo + n) && decide (lo < 128 * x.va + 128)

/-- The line of the instruction cache that holds an address of a context. -/
def icacheFind (s : State) (core ctx : Nat) (va : W64) : Option ILine :=
  (s.core core).icache.find? (fun l => l.ctx == ctx && l.va == va.toNat / 128)

/-- The L1's copy of a line where it is no older than its home's (R284: the code that a core has stored is reached after an ICINV). -/
def l1Current (s : State) (core line : Nat) : Option L1Line :=
  (l1Find s core line).filter (fun l => match l.lease with
    | some (wts, _) => decide ((s.lease line).wts ≤ wts)
    | none => true)

/-- A word through the instruction cache (R284): a line that is missing comes from the core's L1, from its home, or from a peer, whose bytes are free values
(R264; log entry 7). -/
def icacheRead (s : State) (core ctx : Nat) (va : W64) (pa : Nat) : W64 × State :=
  let line := pa / 128
  match icacheFind s core ctx va with
  | some l => (BitVec.ofNat 64 (LineOps.get l.data (pa % 128) 8), s)
  | none =>
    let (s, d) := match l1Current s core line with
      | some l => (s, l.data)
      | none =>
        if s.paKind pa == PaKind.peer then (let (s, v) := s.peerRead 128; (s, (BitVec.ofNat 1024 v : Line)))
        else s.homeRead line ctx
    (BitVec.ofNat 64 (LineOps.get d (pa % 128) 8),
     s.updCore core (fun k => { k with icache := k.icache ++ [{ ctx := ctx, va := va.toNat / 128, line := line, data := d }] }))

/-- A fetch that misses waits at the Vale for a view that is being flushed (R91). -/
def fetchWaits (s : State) (core c : Nat) (va : W64) (pa : Nat) : Bool :=
  (icacheFind s core c va).isNone && (l1Current s core (pa / 128)).isNone && s.viewBusy pa

/-- R337: the fetch checks of one word: UNDECL, XLATE, PROT, then the integrity of its page. -/
def fetchWord (s : State) (core c : Nat) (ms : List Thread) (va : W64) : Fetch W64 :=
  if ms.any (fun t => match s.task t.task with
      | some k => !regionOk k va.toNat 8 [6]
      | none => true) then .bad 0x08 2 va
  else match translate s core c va rightsX with
    | .miss p => .miss p
    | .bad _ code sub a => .bad code sub a
    | .ok pa =>
      if s.dbgRefuses c pa 8 false then .bad 0x07 2 va
      else if !pageClear s c (va.toNat / 65536) then .verify (va.toNat / 65536)
      else if fetchWaits s core c va pa then .wait
      else let (w, s) := icacheRead s core c va pa; .ok w s

def fetchWords (s : State) (core c : Nat) (ms : List Thread) (va : W64) : Nat → Fetch (List W64)
  | 0 => .ok [] s
  | n + 1 =>
    match fetchWord s core c ms va with
    | .ok w s => (match fetchWords s core c ms (va + 8#64) n with
      | .ok ws s => .ok (w :: ws) s
      | .miss p => .miss p
      | .verify p => .verify p
      | .wait => .wait
      | .bad code sub a => .bad code sub a)
    | .miss p => .miss p
    | .verify p => .verify p
    | .wait => .wait
    | .bad code sub a => .bad code sub a

/-- A clause fetched and checked whole (R52, R54, R337). -/
def fetchClause (s : State) (core c : Nat) (ms : List Thread) (va : W64) : Fetch Clause :=
  match fetchWord s core c ms va with
  | .miss p => .miss p
  | .verify p => .verify p
  | .wait => .wait
  | .bad code sub a => .bad code sub a
  | .ok h s =>
    match Header.check h with
    | some sub => .bad 0x02 sub va
    | none =>
      let hdr := Header.unpack h
      match fetchWords s core c ms (va + 8#64) (hdr.cnt + 1) with
      | .ok ws s => .ok { addr := va, hdr := hdr, words := ws, idx := 0 } s
      | .miss p => .miss p
      | .verify p => .verify p
      | .wait => .wait
      | .bad code sub a => .bad code sub a

/-- A core of a die asks for a walk; overlapping misses share it, and a die makes 64 walks at a time (R104). -/
def requestWalk (s : State) (core c page : Nat) : State :=
  match s.walks.find? (fun w => w.die == dieOf core && w.ctx == c && w.page == page) with
  | some w =>
    if w.cores.contains core then s
    else { s with walks := s.walks.map (fun x => if x = w then { x with cores := x.cores ++ [core] } else x) }
  | none =>
    if 64 ≤ (s.walks.filter (fun w => w.die == dieOf core)).length then s
    else { s with walks := s.walks ++ [{ die := dieOf core, ctx := c, page := page, cores := [core] }] }

def requestVerify (s : State) (c page : Nat) : State :=
  s.updCtx c (fun x => if x.verifying.contains page then x else { x with verifying := x.verifying ++ [page] })

/-- A cached failing translation is dropped when its fault is taken, so that a later access walks again (R105; log entry 10). -/
def dropBadTlb (s : State) (core c : Nat) (va : W64) : State :=
  s.updCore core (fun k => { k with tlb := k.tlb.filter (fun e =>
    !(e.ctx == c && decide (e.va ≤ va.toNat) && decide (va.toNat < e.va + 2 ^ e.bits))) })

/-! ## Deferred faults (R373) -/

/-- The oldest pending deferred fault of a thread that is due at the point; none in its handler. -/
def dueFault (due : Deferred → Bool) (t : Thread) : Option Deferred := if t.trap.th then none else t.deferred.find? due

def removeFirst (d : Deferred) : List Deferred → List Deferred
  | [] => []
  | e :: es => if e = d then es else e :: removeFirst d es

/-- The oldest of the faults that are due in some threads; the lowest lane's where several are as old (R373). -/
def oldestDue (due : Deferred → Bool) (ms : List Thread) : Option (Thread × Deferred) :=
  (ms.filterMap (fun t => (dueFault due t).map (fun d => (t, d)))).foldl (fun (m : Option (Thread × Deferred)) p => match m with
    | none => some p
    | some q => some (if p.2.since < q.2.since then p else q)) none

/-- Takes the oldest fault that is due; an array's fault is taken by every member that holds the same one (R243), any other by its
lane alone (R132, R168). -/
def takeDeferred (s : State) (core : Nat) (ms : List Thread) (due : Deferred → Bool) (epc : W64) (back : Option Clause) : Option State :=
  match oldestDue due ms with
  | none => none
  | some (t, d) =>
    let hit := if d.src = 2 then (ms.filter (fun u => dueFault due u = some d)).map Thread.id else [t.id]
    let s := hit.foldl (fun s id => s.updThread id (fun u => { u with deferred := removeFirst d u.deferred })) s
    some (takeTrap s core ms { code := d.code, sub := d.sub, addr := d.addr, mask := hit, epc := epc, back := back, defer := true, src := d.src } [])

/-- The delivery points of a word, whatever its guards (R132, R168, R243). SD is a name in CPYB and CPLOOP alone: elsewhere it holds a literal (R63). -/
def wordDue (x : W64) (d : Deferred) : Bool :=
  let w := Fields.unpack x
  let g := (w.opc.extractLsb' 5 4).toNat
  let fn := (w.opc.extractLsb' 0 5).toNat
  let names := if w.f then [w.dst, w.sa] else [w.dst, w.sa, w.sb, w.sc] ++ (if g == 11 && (fn == 1 || fn == 2) then [w.sd] else [])
  match d.due with
  | .cpy => g == 11
  | .mtx => g == 12 || names.any (fun n => n == 112#7 || n == 113#7 || n == 114#7)
  | .mem => g == 9 || g == 10

/-! ## The notch -/

/-- Names a thread has bound; results in flight are bound later (R305). -/
def boundNames (t : Thread) : Nat := t.names.length

/-- An enabled breakpoint matches the notch (R400). -/
def breakHit (s : State) (c : Nat) (spo : BitVec 16) (hdr : W64) : Bool :=
  (s.ctx c).dbgBrk.any (fun b => b.1.getLsbD 63 && b.1.extractLsb' 0 16 == spo
    && (b.2.extractLsb' 3 45 == 0#45 || b.2.extractLsb' 3 45 == hdr.extractLsb' 3 45))

/-- The stop reasons with which a thread halts at a notch header (R393, R400, R403). -/
def stopReasons (s : State) (c : Nat) (t : Thread) (h : Header) (hdr : W64) : BitVec 8 :=
  if !grantActive s c || t.passHdr then 0#8
  else
    let r := if haltAll s c then t.stops ||| 8#8 else t.stops
    if breakHit s c h.spo hdr then r ||| 1#8 else r

def holdsPending (t : Thread) : Bool := t.names.any (fun p => p.2.pend.isSome) || !t.flight.isEmpty

/-- The offset of a thread's record in the window of its context (R399). -/
def recordOff (s : State) (t : Thread) : Nat :=
  0x10000 + ((t.core - firstObserved s t.ctx) * (Config.slots * Config.W) + t.slot * Config.W + t.lane) * 2048

/-- The thread's seat is observed (R399). -/
def observed (s : State) (t : Thread) : Bool :=
  decide (firstObserved s t.ctx ≤ t.core) && decide (t.core < firstObserved s t.ctx + observedCores s t.ctx)

/-- A thread halts (R393, R394): it keeps its cells and leaves the table; its record is written, then HALT (R402). -/
def haltThread (s : State) (t : Thread) (r : BitVec 8) (ord : BitVec 16) (hdr : W64) : State :=
  let s := (leaveTable s t.core t.id).updThread t.id (fun t => { t with
    halted := some (r, ord), halting := false, stops := 0#8, pc := hdr, resume := none
    edit := some { cmd := 0, names := t.names, preds := t.preds, draw := t.draw, pc := hdr } })
  if observed s t then s.dbgTouch t.ctx (recordOff s t) else s

/-- What happens to threads that stand at a notch's header before its WAIT is tested: the LIVE test (R305), deferred faults (R373), and halting
(R393). None when the clause may go on; `some none` while a thread waits for its values before it halts. -/
def notchStage (s : State) (core c : Nat) (ms : List Thread) (h : Header) (hdr : W64) : Option (Option State) :=
  if !h.notch then none
  else
    let many := ms.filter (fun t => decide (h.live < boundNames t))
    if !many.isEmpty then some (some (headerTrap s core ms 0x03 4 hdr hdr (many.map Thread.id)))
    else match takeDeferred s core ms (fun _ => true) hdr none with
      | some s => some (some s)
      | none =>
        let stop := ms.filter (fun t => stopReasons s c t h hdr != 0#8)
        if stop.isEmpty then none
        else if stop.any holdsPending then
          if stop.all (fun t => t.halting) then some none
          else some (some (stop.foldl (fun s t => s.updThread t.id (fun t => { t with halting := true })) s))
        else
          let reason := stop.foldl (fun r t => r ||| stopReasons s c t h hdr) 0#8
          let s' := stop.foldl (fun s' t => haltThread s' t (stopReasons s c t h hdr) h.spo hdr) s
          some (some (stopRecord s' core c ms stop reason h.spo hdr))

/-! ## The start of a clause -/

/-- The clause holds a word of the XLN group (R296). -/
def hasXln (c : Clause) : Bool := c.words.any (fun w => w.extractLsb' 60 4 == 7#4)

/-- An operation that R73 and R311 wait for in interlocked mode: a store, an atomic or a per-lane copy. -/
def Op.effect (o : Op) : Bool :=
  match o.kind with
  | .store .. | .copy .. => true
  | .qblk .. => o.result.isNone
  | .word w => !w.op.waits && o.result.isNone
  | _ => false

def effectsOut (s : State) (t : Thread) : Bool := s.ops.any (fun o => o.tids.contains t.id && o.effect)

/-- WAIT in trusted mode (R60), outstanding effects in interlocked mode (R73). -/
def waitHolds (s : State) (c : Nat) (ms : List Thread) (h : Header) : Bool :=
  if s.ilk c then !(ms.any (effectsOut s)) else (busyFlag ms h.wait).isNone

/-- DIST (R57); interlocked mode ignores it (R73), but no group issues two words in one clk, whatever their pipes (R21). -/
def distHolds (s : State) (c : Nat) (ms : List Thread) (h : Header) : Bool :=
  ms.all (fun t => match t.prevEnd with
    | some (k, _) => decide (k + 1 + (if s.ilk c then 0 else h.dist) ≤ s.clk)
    | none => true)

/-- Threads of the context may issue: it is resident, or it is being saved and they go on to their notches (R307). -/
def running (s : State) (c : Nat) : Bool := (s.ctx c).st == 1 || (s.ctx c).st == 2

/-- The unexited threads of a row. -/
def rowThreads (s : State) (core slot : Nat) : List Thread :=
  s.threads.filter (fun t => t.core == core && t.slot == slot && !t.exited && s.seated t)

/-- The entries of one row that stand at a header (R296). -/
def rowEntries (s : State) (core slot c : Nat) (pc : W64) : List Entry :=
  (s.core core).entries.filter (fun e => e.ctx == c && e.pc == pc && e.run.isNone && !e.own
    && (s.members e).all (fun t => t.slot == slot) && !(s.members e).isEmpty)

/-- Every unexited thread of the row stands at the header, in entries of the row alone. -/
def rowComplete (s : State) (core slot c : Nat) (pc : W64) : Bool :=
  let ids := (rowEntries s core slot c pc).flatMap Entry.members
  (rowThreads s core slot).all (fun t => ids.contains t.id)

/-- R296: splits an entry by row; the part of the lowest slot keeps it, and every part waits at the rendezvous. -/
def splitRows (s : State) (core uid : Nat) (e : Entry) : State :=
  let ms := s.members e
  let slots := sortNats (dedupNats (ms.map Thread.slot))
  let part (sl : Nat) := (ms.filter (fun t => t.slot == sl)).map Thread.id
  match slots with
  | [] => s
  | sl :: rest =>
    let s := s.updEntry core uid (fun e => { e with members := part sl, rdv := true })
    rest.foldl (fun s r =>
      let s := newEntry s core e.ctx e.pc (part r) e.index e.ready e.yieldEnd e.lastIssue
      s.updCore core (fun k => { k with entries := k.entries.map (fun x => if x.members = part r then { x with rdv := true } else x) })) s

/-- An index order in which an entry without index comes last. -/
def indexKey (e : Entry) : Nat := e.index.getD 1000000

/-- Merges `others` into the entry with the lowest index among them all (R293, R296): counts and yield ends take the largest. -/
def mergeEntries (s : State) (core : Nat) (es : List Entry) : State × Option Nat :=
  match es with
  | [] => (s, none)
  | e0 :: rest =>
    let lead := rest.foldl (fun a b => if indexKey b < indexKey a then b else a) e0
    let all := es.flatMap Entry.members
    let ready := es.foldl (fun m e => max m e.ready) 0
    let yield := es.foldl (fun m e => max m e.yieldEnd) 0
    let late := es.foldl (fun (m : Option Nat) e => match m, e.overdueAt with
      | none, x => x
      | x, none => x
      | some a, some b => some (min a b)) none
    let last := if es.any (fun e => e.lastIssue == some s.clk) then some s.clk else lead.lastIssue
    let uids := es.map Entry.uid
    let put (e : Entry) : Entry :=
      if e.uid = lead.uid then { e with members := all, ready := ready, yieldEnd := yield, overdueAt := late, rdv := false, lastIssue := last } else e
    let kept (k : Core) : List Entry := (k.entries.filter (fun e => e.uid == lead.uid || !uids.contains e.uid)).map put
    (s.updCore core (fun k => settleTable { k with entries := kept k }), some lead.uid)

/-- The clause at an entry's header can be fetched for its members (R337). -/
def fetches (s : State) (core : Nat) (e : Entry) : Bool :=
  match fetchClause s core e.ctx (s.members e) e.pc with
  | .ok .. => true
  | _ => false

/-- R293: the entries that an entry absorbs: same context and header, ascending index, disjoint lanes. One whose own fetch of the clause does not succeed is left
to itself (R337). -/
def absorbed (s : State) (core : Nat) (e : Entry) : List Entry :=
  let cand := ((s.core core).entries.filter (fun x => x.uid != e.uid && x.ctx == e.ctx && x.pc == e.pc && x.run.isNone && !x.own && !x.rdv && fetches s core x))
  let sorted := (sortNats (cand.map indexKey)).filterMap (fun i => cand.find? (fun x => indexKey x == i))
  (sorted.foldl (fun (acc : List Entry × List Nat) x =>
    if (lanesOf s x).any (fun l => acc.2.contains l) then acc else (acc.1 ++ [x], acc.2 ++ lanesOf s x)) ([], lanesOf s e)).1

/-- The clause starts on its pipe (R21, R293, R298). -/
def beginClause (s : State) (core uid : Nat) (ms : List Thread) (c : Clause) (ctx : Nat) : State :=
  let s := s.updEntry core uid (fun e => { e with ready := 0, overdueAt := none, rdv := false, first := none,
                                                  run := some { clause := c, released := false, issued := false, stall := none } })
  let s := s.updCore core (fun k => k.setPipe (onA c.hdr.eng) (some uid))
  let s := ms.foldl (fun s t => s.updThread t.id (fun t =>
    { t with passHdr := false, halting := false, lastOrd := if c.hdr.notch then c.hdr.spo else t.lastOrd })) s
  traceRecord s core ctx ms c.hdr c.addr

/-- What a selected entry does at its header; none when nothing can happen now. An entry is split by row when its clause is selected, which needs its WAIT and its DIST
met and its pipe free (R296, R299). -/
def startEntry (s0 : State) (core uid : Nat) (merge : Bool) : Option State :=
  match s0.entry core uid with
  | none => none
  | some e0 =>
    if e0.run.isSome || e0.own || !running s0 e0.ctx then none
    else
      let ms0 := s0.members e0
      match fetchClause s0 core e0.ctx ms0 e0.pc with
      | .miss p => let s' := requestWalk s0 core e0.ctx p; if s'.walks = s0.walks then none else some s'
      | .wait => none
      | .verify p => if (s0.ctx e0.ctx).verifying.contains p then none else some (requestVerify s0 e0.ctx p)
      | .bad code sub a =>
        let s := if code = 0x06 || code = 0x07 || code = 0x08 || code = 0x0C then s0.logRefused 0 e0.ctx core true a code sub (maskOf ms0).1 else s0
        some (dropBadTlb (headerTrap s core ms0 code sub (fltAddr s0 core e0.ctx code a) e0.pc (ms0.map Thread.id)) core e0.ctx a)
      | .ok c s =>
        match notchStage s core e0.ctx ms0 c.hdr e0.pc with
        | some r => r
        | none =>
          if (s.ctx e0.ctx).preempt.isSome && c.hdr.notch then none
          else
            let slots := dedupNats (ms0.map Thread.slot)
            if hasXln c && (2 ≤ slots.length || !(rowComplete s core (slots.headD 0) e0.ctx e0.pc && (rowEntries s core (slots.headD 0) e0.ctx e0.pc).length == 1)) then
              if (e0.rdv && slots.length ≤ 1) || !(waitHolds s e0.ctx ms0 c.hdr && distHolds s e0.ctx ms0 c.hdr && ((s.core core).pipe (onA c.hdr.eng)).isNone)
              then none else some (splitRows s core uid e0)
            else
              let (s, lead) := if merge && !hasXln c then mergeEntries s core (e0 :: absorbed s core e0) else (s, some uid)
              match lead with
              | none => none
              | some uid =>
                match s.entry core uid with
                | none => none
                | some e =>
                  let ms := s.members e
                  match (if ms.length = ms0.length then none else notchStage s core e.ctx ms c.hdr e.pc) with
                  | some r => r
                  | none =>
                  if waitHolds s e.ctx ms c.hdr && distHolds s e.ctx ms c.hdr && ((s.core core).pipe (onA c.hdr.eng)).isNone then
                    some (beginClause s core uid ms c e.ctx)
                  else none

/-! ## The word that a group issues -/

/-- The outcome of an attempt to issue: not possible now, a state without an issue (a fault of the point or of the decode), or an instruction
to execute with the group in focus. -/
inductive Attempt where
  | no
  | stop (s : State)
  | run (i : Instr) (s : State)

/-- The pipe may issue for the group in this clk: it holds the pipe or finds it free, the pipe has not issued in this clk, and the group has not issued on either (R21). -/
def pipeOpen (s : State) (core uid : Nat) (a : Bool) : Bool :=
  let k := s.core core
  (k.pipe a == some uid || (k.pipe a).isNone) && (if a then k.issuedA else k.issuedB) != some s.clk
    && !((s.entry core uid).any (fun e => e.lastIssue == some s.clk))

def takePipe (s : State) (core uid : Nat) (a : Bool) : State :=
  s.updCore core (fun k =>
    let k := k.setPipe a (some uid)
    if a then { k with issuedA := some s.clk } else { k with issuedB := some s.clk })

/-- A decode error as a fault of the word, whatever the guards (R67). -/
def decodeTrap (s : State) (g : Grp) : DecodeError → State
  | .illop sub => wordTrap s g 0x01 sub g.pc (g.mem.map Thread.id) []
  | .operand sub => wordTrap s g 0x03 sub g.pc (g.mem.map Thread.id) []

/-- A guard of the word waits for its predicate in the thread (R73). -/
def guardWaits (t : Thread) (h : Hd) : Bool := t.replaying.isNone && [h.ga, h.gb].any (fun q => (predWaits t q).isSome)

/-- R181: a thread that owes QUOTA takes it at the next word that it executes (R62), with its lane alone in the mask. R67 gives this fault no place in its order; the model
takes it before the decode faults of the word (DESIGN CHOICE, log entry 37). -/
def quotaTrap (s : State) (g : Grp) : Option State :=
  let h := Dec.hd (Fields.unpack (g.clause.words.getD g.clause.idx 0#64))
  ((executing g h).find? (fun t => t.quotaDue && !guardWaits t h)).map (fun t => wordTrap s g 0x0D 1 0#64 [t.id] [])

/-- The attempt of a group at its word (R21, R63, R67, R373). -/
def issueWord (s : State) (core uid : Nat) : Attempt :=
  let s := { s with focus := some (core, uid) }
  match s.grp with
  | none => .no
  | some g =>
    if !running s g.ctx || !pipeOpen s core uid g.a || g.mem.isEmpty then .no
    else
      let s := takePipe s core uid g.a
      let x := g.clause.words.getD g.clause.idx 0#64
      if g.run.issued then (match decodeIn g.clause.hdr.eng g.clause.isLast x with
        | .ok i => .run i s
        | .error _ => .no)
      else match takeDeferred s core g.mem (wordDue x) g.pc (some g.clause) with
        | some s => .stop s
        | none =>
          match quotaTrap s g with
          | some s => .stop s
          | none =>
            match decodeIn g.clause.hdr.eng g.clause.isLast x with
            | .ok i => .run i s
            | .error e => .stop (decodeTrap s g e)

end Sys2Proof.Machine
end

