-- ==== Sys2Proof/Machine/Perform.lean ====
section
/-! DEFINITION. When an outstanding access may be performed (R160, R167, R169, R267, R269 to R274, R277), loads, stores and block conversions as they
are performed (R149 to R154, R229), and the arrival of values (R58, R71). -/

namespace Sys2Proof.Machine

/-! ## Where an operation acts -/

/-- A byte range: space 0 is physical memory, space c + 1 the Glen of core c. -/
structure Span where
  space : Nat
  lo : Nat
  n : Nat
deriving DecidableEq, Repr

def Span.meets (a b : Span) : Bool := a.space == b.space && decide (a.lo < b.lo + b.n) && decide (b.lo < a.lo + a.n)

def Target.span (t : Target) (n : Nat) : Span :=
  match t with
  | .l1 pa | .home pa | .peer pa _ => ⟨0, pa, n⟩
  | .window _ _ _ pa => ⟨0, pa, n⟩
  | .glen c off => ⟨c + 1, off, n⟩

/-- The bytes that an operation of thread `tid` touches. -/
def Op.spans (o : Op) (tid : Nat) : List Span :=
  match o.kind with
  | .load t n _ _ _ => [t.span n]
  | .store t n _ _ => [t.span n]
  | .word w => [⟨0, w.pa, w.size⟩]
  | .copy _ lanes => (lanes.filter (fun l => l.tid == tid)).flatMap (fun l => [l.src.span l.size, l.dst.span l.size])
  | .qblk src slot ty w _ j => [⟨src.1 + 1, src.2, if ty == .f32 then 128 else 64⟩, ⟨slot.1 + 1, slot.2 + 4 * w * j, 4 * w⟩, ⟨slot.1 + 1, slot.2 + 128 + 2 * j, 2⟩]
  | .dqblk slot _ _ _ _ => [⟨slot.1 + 1, slot.2, 160⟩]
  | .value _ | .winWb .. | .cpwait => []

def Op.meets (a b : Op) (tid : Nat) : Bool := (a.spans tid).any (fun x => (b.spans tid).any x.meets)

/-! ## Order (R271) -/

/-- An access that an earlier acquire of its thread holds back: one of the classes of R169; and one of ordinary data where another thread is on the core, whose stores
a release there orders before it (R274; log entry 56). -/
def heldByAcquire (s : State) (o : Op) : Bool :=
  o.ordered || (match o.kind with
    | .load .. | .store .. | .copy .. => s.threads.any (fun u => u.core == o.core && u.id != o.tid)
    | _ => false)

/-- The order of a thread's accesses lets the operation be performed now (log entry 9). An access of a word on which an earlier AWAIT or BARWT of the thread stands
is not performed before that wait's value has arrived; lanes of one issue that name one word act in ascending order (R160), but their waits do not hold one
another (R165, R166). -/
def orderAllows (s : State) (o : Op) : Bool :=
  o.tids.all (fun tid =>
    let before := s.ops.filter (fun p => decide (p.id < o.id) && p.tids.contains tid)
    before.all (fun p =>
      !((p.open || p.waitsWord) && !p.isCopy && p.meets o tid)
      && !(o.timed && p.open && p.timed)
      && !(o.release && p.open && p.ordered)
      && !(heldByAcquire s o && p.acquire)))
  && s.ops.all (fun p =>
    !(p.issue == o.issue && decide (p.id < o.id) && p.open && !p.waitsWord && (p.spans p.tid).any (fun x => (o.spans o.tid).any x.meets)))

/-- An ordinary global access is served by the mapped window that holds its address when it is performed (R116, R117, R141). -/
def settled (s : State) (t : Thread) (va : W64) (tg : Target) : Target :=
  let go (pa : Nat) : Target := match s.gang t.gang with
    | some g => (match mappedAt g va.toNat with
      | some (c, w) => .window c w va pa
      | none => .l1 pa)
    | none => .l1 pa
  match tg with
  | .l1 pa => go pa
  | .window _ _ _ pa => go pa
  | x => x

/-- A window of the gang has been mapped: the gang's open loads and stores of its range are served by it from now on, and are Glen accesses, which fences and releases
order (R117, R169, R263). -/
def retarget (s : State) (gid : Nat) : State :=
  { s with ops := s.ops.map (fun o => match s.thread o.tid, o.kind with
      | some t, .load tg n sx h c => if t.gang = gid then { o with kind := .load (settled s t o.va tg) n sx h c } else o
      | some t, .store tg n h d => if t.gang = gid then { o with kind := .store (settled s t o.va tg) n h d } else o
      | _, _ => o) }

/-- An access waits at a window with an outstanding write-back (R141) or at a view that is being flushed (R91). -/
def targetWaits (s : State) (t : Thread) (id : Nat) (tg : Target) : Bool :=
  match tg with
  | .window c w _ pa => (s.gang t.gang).any (fun g => windowBusy s g c w id) || s.viewBusy pa
  | .l1 pa => s.viewBusy pa && (l1Find s t.core (pa / 128)).isNone
  | .home pa => s.viewBusy pa
  | _ => false

/-! ## Refusals at the home (R99, R101) -/

/-- Why an access is refused that passed its checks when it issued (R99; log entry 52): its page has been retired, or its view has been closed, since. -/
def lateFault (s : State) (core : Nat) (tg : Target) : Option (Nat × Nat) :=
  match tg with
  | .l1 pa => if (l1Find s core (pa / 128)).isSome then (if s.pageRetired pa then some (0x0C, 3) else none) else s.homeFault pa
  | .home pa | .window _ _ _ pa => s.homeFault pa
  | .glen .. | .peer .. => none

/-- Why a window refuses an access that passed its check when it issued (R400 to R402; log entry 52): its record has closed since, or the value that a store writes
is refused. `v`: the value of a store. -/
def windowLate (s : State) (ctx : Nat) (tg : Target) (n : Nat) (v : Option Nat) : Option (Nat × Nat) :=
  match tg with
  | .home pa | .l1 pa | .window _ _ _ pa => if s.dbgRefuses ctx pa n v.isSome || v.any (s.dbgValueRefused pa n) then some (7, 2) else none
  | .glen .. | .peer .. => none

/-- Why an access is refused as it is performed, if it is. -/
def accessLate (s : State) (o : Op) (tg : Target) (n : Nat) (v : Option Nat) : Option (Nat × Nat) :=
  (lateFault s o.core tg).orElse (fun _ => windowLate s o.ctx tg n v)

/-- The physical address of a target. -/
def Target.pa : Target → Nat
  | .l1 pa | .home pa | .peer pa _ => pa
  | .window _ _ _ pa => pa
  | .glen _ off => off

/-- Such a refusal (log entry 52): FLTADDR is physical for RAS, else virtual (R372). -/
def lateRefused (s : State) (o : Op) (tid : Nat) (f : Nat × Nat) (va : W64) (pa : Nat) : State :=
  s.accessRefused o tid f.1 f.2 va (if f.1 = 0x0C then BitVec.ofNat 64 pa else va)

/-! ## Values arrive -/

/-- Delivers a value of `bytes` bytes: one equal part per token, the lowest first (R28, R149, R152). -/
def deliver (s : State) (o : Op) (v bytes : Nat) : State :=
  let w := 8 * bytes / max 1 o.toks.length
  (o.toks.zipIdx).foldl (fun s p =>
    let x := BitVec.ofNat 64 (if o.toks.length ≤ 1 then v else v / 2 ^ (w * p.2) % 2 ^ w)
    fillQueues (fillToken s o.tid p.1 x) p.1 x o.core) s

/-- The end of an operation: SETA counts down, and the thread's slot may be freed (R58, R310). -/
def endOp (s : State) (o : Op) : State :=
  sweepThread ((countDown s o.tid o.seta).dropOp o.id) o.tid

/-- The value of a load: bytes as read, sign-extended to a cell where the type is signed and narrow (R147). -/
def extended (sx v : Nat) : Nat := if sx = 0 then v else wrapNat 32 (asInt true sx v)

/-- The last access of an issue on a line or stage counts the issue's one read (R119, R120). -/
def countsNow (s : State) (t : Thread) (o : Op) (tg : Target) : Bool :=
  let stage (c off : Nat) : Option (Nat × Nat) := match s.gang t.gang with
    | some g => stageAt g (c - g.base) off
    | none => none
  s.ops.all (fun p => p.id == o.id || p.issue != o.issue || (match p.kind, tg with
    | .load (.l1 a) .., .l1 b => a / 128 != b / 128
    | .load (.glen c a) .., .glen d b => c != d || stage c a != stage d b
    | _, _ => true))

/-- DQBLK's value (R228). -/
def dqblkValue (s : State) (slot : Nat × Nat) (ty : ElemTy) (w : Nat) (r : Rnd) (e : Nat) : Nat :=
  let m := leNat (Memory.readN (s.core slot.1).glen slot.2 128) / 2 ^ (w * e) % 2 ^ w
  let sc := glenReadN s slot.1 (slot.2 + 128 + 2 * (e / 32)) 2
  cvtEncode ty r false (bfpElem sc w m)

/-- A word operation that is an acquire has its value: it takes what the releases of its word carry (R272, R273; log entry 56). -/
def takesOver (s : State) (o : Op) : State :=
  match o.kind with
  | .word w => if w.op.acquires then acquired s o.tid (s.lease (w.pa / 128)).carry else s
  | _ => s

/-- The value of a word operation reaches its core: the core's copy of the line gives way to what the home holds (R157, R269), and an acquire is complete. -/
def wordArrives (s : State) (o : Op) : State :=
  match o.kind with
  | .word w => takesOver (l1Flush s o.core (w.pa / 128)) o
  | _ => s

/-- VALUE_ARRIVAL (R71): a load is performed and its value bound; an operation already performed delivers its value. -/
def arrive (s : State) (id : Nat) : Option State :=
  match s.op id with
  | none => none
  | some o =>
    match o.result with
    | some v => some (endOp (deliver (wordArrives s o) o v 8) o)
    | none =>
      match s.thread o.tid with
      | none => none
      | some t =>
        match o.kind with
        | .value v => some (endOp (deliver s o v.toNat 8) o)
        | .load tg n sx hint cnt =>
          let tg := settled s t o.va tg
          if !orderAllows s o || targetWaits s t o.id tg then none
          else if let some f := accessLate s o tg n none then
            let (s, v) := s.peerRead n
            some (endOp (deliver (lateRefused s o o.tid f o.va tg.pa) o (extended sx v) (if n = 16 then 16 else 8)) o)
          else
            let (s', v) := readTarget s t tg n hint cnt (countsNow s t o tg)
            some (endOp (deliver s' o (extended sx v) (if n = 16 then 16 else 8)) o)
        | .dqblk slot ty w r e =>
          if !orderAllows s o then none
          else some (endOp (deliver s o (dqblkValue s slot ty w r e) 8) o)
        | _ => none

/-! ## Stores are performed -/

/-- An earlier store that reaches the L1 after a later operation of its thread on the line has left the core is written back before that operation
is performed (R157, R271). -/
def pushedOut (s : State) (t : Thread) (o : Op) (tg : Target) : State :=
  match tg with
  | .l1 pa =>
    if s.ops.any (fun p => p.tid == t.id && decide (o.id < p.id) && (match p.kind with
      | .word w => w.pa / 128 == pa / 128
      | _ => false)) then l1Flush s t.core (pa / 128) else s
  | _ => s

/-- QBLK's block at the time it is performed (R228): the bytes written at the slot, and the scale. -/
def qblkDo (s : State) (src slot : Nat × Nat) (ty : ElemTy) (w : Nat) (r : Rnd) (j : Nat) : State × Nat :=
  let n := if ty == .f32 then 4 else 2
  let xs := (List.range 32).map (fun i => (cvtDecode ty (glenReadN s src.1 (src.2 + n * i) n)).1)
  let (scale, ms) := qblock w r xs
  let s := glenWriteN s slot.1 (slot.2 + 4 * w * j) (4 * w) (ms.foldr (fun m acc => acc * 2 ^ w + m % 2 ^ w) 0)
  (glenWriteN s slot.1 (slot.2 + 128 + 2 * j) 2 scale, scale)

/-- STORE_PERFORMED (R150, R154, R229): the bytes are written and SETB counts down. -/
def storeDone (s : State) (id : Nat) : Option State :=
  match s.op id with
  | none => none
  | some o =>
    match s.thread o.tid with
    | none => none
    | some t =>
      match o.kind with
      | .store tg n hint data =>
        let tg := settled s t o.va tg
        if !orderAllows s o || targetWaits s t o.id tg then none
        else
          let s := match accessLate s o tg n (some (data.toNat % 2 ^ (8 * n))) with
            | some f => lateRefused s o o.tid f o.va tg.pa
            | none => pushedOut (writeTarget s t tg n (data.toNat % 2 ^ (8 * n)) hint) t o tg
          some (sweepThread ((countDown s o.tid o.setb).dropOp o.id) o.tid)
      | .qblk src slot ty w r j =>
        if !orderAllows s o || o.result.isSome then none
        else
          let (s, scale) := qblkDo s src slot ty w r j
          let s := countDown s o.tid o.setb
          if o.toks.isEmpty then some (sweepThread (s.dropOp o.id) o.tid)
          else some (s.updOp o.id (fun p => { p with result := some (scale : Nat), setb := none }))
      | _ => none

end Sys2Proof.Machine
end

