-- ==== Sys2Proof/Machine/Home.lean ====
section
/-! DEFINITION. The atomic units of the home Vales (R94, R157 to R168): atomics, counter and barrier words, the submission of task records with the append to
their queues (R320 to R328, R345 to R349, R365), and the waits of AWAIT and BARWT. -/

namespace Sys2Proof.Machine

/-! ## Ranges of a context's memory -/

/-- The physical pieces of [base, base + len) of a context, page by page; a page that does not translate has none. -/
def rangePas (s : State) (c base len : Nat) : List (Nat × Nat) :=
  if len = 0 then []
  else (List.range ((base + len - 1) / 65536 - base / 65536 + 1)).filterMap (fun i =>
    let lo := max base ((base / 65536 + i) * 65536)
    let hi := min (base + len) ((base / 65536 + i + 1) * 65536)
    match translateDirect s c (BitVec.ofNat 64 lo) { r := false, w := false, x := false } with
    | .ok pa => some (pa, hi - lo)
    | _ => none)

def piecesHit (l : List (Nat × Nat)) (line : Nat) : Bool :=
  l.any (fun p => decide (p.1 < 128 * line + 128) && decide (128 * line < p.1 + p.2))

/-- Writes back, and with `inv` invalidates, a core's L1 lines that hold bytes of a range. A core without lines asks for no translation. -/
def l1RangeVa (s : State) (core c base len : Nat) (inv : Bool) : State :=
  if (s.core core).l1.isEmpty then s
  else
    let ps := rangePas s c base len
    l1Range s core (piecesHit ps) inv

/-! ## Task records -/

/-- `n` 8-byte words of a context's memory. -/
def unitWords (s : State) (c : Nat) (va : W64) : Nat → Except (Nat × Nat × W64) (State × List Nat)
  | 0 => .ok (s, [])
  | n + 1 =>
    match unitRead s c va 8 with
    | .error e => .error e
    | .ok (s, v) => match unitWords s c (va + 8#64) n with
      | .error e => .error e
      | .ok (s, l) => .ok (s, v :: l)

/-- A field [hi:lo] of a word. -/
def bitsAt (w hi lo : Nat) : Nat := w / 2 ^ lo % 2 ^ (hi + 1 - lo)

/-- The limits of CTL (R320). -/
def ctlOk (c : Nat) : Bool :=
  bitsAt c 55 48 == 0 && bitsAt c 47 32 != 0 && decide (bitsAt c 23 20 ≤ 12) && bitsAt c 19 16 == 0 && bitsAt c 14 11 == 0 && bitsAt c 7 6 == 0

def ctlGangs (c : Nat) : Nat := bitsAt c 47 32
def ctlPrio (c : Nat) : Nat := bitsAt c 10 8
def ctlQueue (c : Nat) : Nat := bitsAt c 5 0
def ctlOvl (c : Nat) : Bool := c.testBit 15
def ctlRegs (c : Nat) : Nat := bitsAt c 23 20

/-- A region record (R323), or none where it is malformed; `used`: its index is below NREG. -/
def parseRegion (w0 w1 : Nat) (used : Bool) : Option Region :=
  let mode := bitsAt w1 51 48
  let r : Region := { base := bitsAt w0 47 8 * 256, ext := bitsAt w1 39 0, mode := mode, scope := bitsAt w1 47 45, act := bitsAt w1 41 40 }
  if mode = 0 || !used then (if w0 = 0 ∧ w1 = 0 then some r else none)
  else if bitsAt w0 63 48 != 0 || bitsAt w0 7 0 != 0 || bitsAt w1 63 52 != 0 || bitsAt w1 44 42 != 0 || decide (6 < mode) then none
  else if (mode != 4 && r.scope != 0) || r.act == 3 || (mode != 2 && mode != 3 && r.act != 0) || r.ext == 0 then none
  else if 2 ^ 48 < r.base + 256 * r.ext then none
  else some r

/-- The twelve region records, or none where one is malformed. -/
def parseRegions (ws : List Nat) (nreg : Nat) : Option (List Region) :=
  (List.range 12).foldr (fun i acc => match acc, parseRegion (ws.getD (2 * i) 0) (ws.getD (2 * i + 1) 0) (decide (i < nreg)) with
    | some l, some r => some (r :: l)
    | _, _ => none) (some [])

def Region.overlaps (a b : Region) : Bool :=
  a.mode != 0 && b.mode != 0 && decide (a.base < b.base + b.bytes) && decide (b.base < a.base + a.bytes)

def regionsOverlap : List Region → Bool
  | [] => false
  | r :: rs => rs.any r.overlaps || regionsOverlap rs

/-- The refusal reason that CTL and the region records give (R333), 0 for none. -/
def ctlReason (ctl : Nat) (ws : List Nat) : Nat × List Region :=
  if !ctlOk ctl then (1, [])
  else match parseRegions ws (ctlRegs ctl) with
    | none => (2, [])
    | some rs => if regionsOverlap rs then (3, []) else (0, rs)

/-- STATE has ended (R322): DONE, FAILED, KILLED or REFUSED. -/
def Task.ended (k : Task) : Bool := decide (5 ≤ k.state)

/-- APPEND (R327): CTL and the region records are read, each where it can be read, SEQ is stamped, the record becomes its queue's tail, and the former tail's NEXT names it. -/
def appendTask (s : State) (id : Nat) : State :=
  match s.task id with
  | none => s
  | some k =>
    let x := s.ctx k.ctx
    let (reason, ctl, ws, s) := match unitRead s k.ctx (k.recAddr + 0x18#64) 8 with
      | .error f => (5, 0, [], readsRefused s 3 k.ctx [f])
      | .ok (s, c) => (match unitWords s k.ctx (k.recAddr + 0x80#64) 24 with
        | .error f => if ctlOk c then (5, c, [], readsRefused s 3 k.ctx [f]) else (1, c, [], s)
        | .ok (s, ws) => ((ctlReason c ws).1, c, ws, s))
    let queue := ctlQueue ctl
    let pred := match x.tails.find? (fun p => p.1 == queue) with
      | some (_, p) => (match s.task p with
        | some q => if q.ended then none else some q
        | none => none)
      | none => none
    let s := s.updCtx k.ctx (fun x => { x with nextSeq := x.nextSeq + 1, tails := x.tails.filter (fun p => p.1 != queue) ++ [(queue, id)] })
    let s := s.updTask id (fun k => { k with
      state := 2, queue := queue, ctl := BitVec.ofNat 64 ctl, regionWords := ws.map (BitVec.ofNat 64), regions := (ctlReason ctl ws).2, reason := reason
      seq := x.nextSeq, pred := pred.map Task.id })
    let s := recWrite s k.ctx (k.recAddr + 0x60#64) 8 x.nextSeq
    let s := recWrite s k.ctx (k.recAddr + 0x10#64) 8 0
    let s := match pred with
      | some q => recWrite s q.ctx (q.recAddr + 0x10#64) 8 k.recAddr.toNat
      | none => s
    recWrite s k.ctx k.recAddr 8 2

/-- The 8-byte word at a physical address as the home holds it. -/
def homeWord (s : State) (pa ctx : Nat) : State × W64 :=
  let (s, v) := s.homeReadN pa 8 ctx
  (s, BitVec.ofNat 64 v)

/-! ## The operations -/

/-- The outcome of an operation at the home: the value for the destination, and whether it was refused. -/
structure WordOut where
  s : State
  val : Nat
  ok : Bool

/-- A dependence counter has become zero (R163, R326): a HELD record is appended. -/
def fire (s : State) (c : Nat) (va : W64) (pa : Nat) : State :=
  let (s, st) := homeWord s (pa - 8) c
  if st.extractLsb' 0 4 != 1#4 then s
  else match s.tasks.find? (fun k => k.recPa == pa - 8 && k.state == 1) with
    | some k => appendTask s k.id
    | none =>
      let (id, s) := s.fresh
      appendTask { s with tasks := s.tasks ++ [Task.atSubmit id c (va - 8#64) (pa - 8) 0 1] } id

/-- An arrival of `n` on a barrier word (R164): the new word and the result. -/
def arrival (w : W64) (n : Nat) : W64 × Nat :=
  let phase := (w.extractLsb' 32 16).toNat
  let expect := (w.extractLsb' 16 16).toNat
  let arrived := (w.extractLsb' 0 16).toNat
  if (expect ≤ arrived + n ∧ 0 < n) ∨ expect = 0 then
    let ovr := if expect < arrived + n then 2 ^ 62 else 0
    (BitVec.ofNat 64 (2 ^ 63 + (if w.getLsbD 62 then 2 ^ 62 else ovr) + (phase + 1) % 2 ^ 16 * 2 ^ 32 + expect * 2 ^ 16), 2 ^ 31 + phase)
  else (w + BitVec.ofNat 64 n, phase)

/-- BARARV at the home (R164). -/
def barrierArrives (s : State) (c pa : Nat) (n : W32) : WordOut :=
  let (s, x) := homeWord s pa c
  if State.wordBad x pa || !x.getLsbD 63 then ⟨s, x.toNat % 2 ^ 32, false⟩
  else
    let (x', r) := arrival x n.toNat
    ⟨s.homeWriteN pa 8 c x'.toNat, r, true⟩

/-- A decrement by `n` (R163). -/
def decrement (s : State) (c : Nat) (va : W64) (pa n : Nat) : WordOut :=
  let (s, w) := homeWord s pa c
  if State.wordBad w pa then ⟨s, w.toNat % 2 ^ 32, false⟩
  else if w.getLsbD 63 then
    let (w', r) := arrival w n
    ⟨s.homeWriteN pa 8 c w'.toNat, r, true⟩
  else
    let count := (w.extractLsb' 0 32).toNat
    if n = 0 then ⟨s, count, true⟩
    else if n ≤ count then
      let s := s.homeWriteN pa 8 c (w.toNat - n)
      ⟨if w.getLsbD 62 && decide (n = count) then fire s c va pa else s, count, true⟩
    else
      let s := s.homeWriteN pa 8 c (if w.getLsbD 61 then w.toNat - count else w.toNat - count + 2 ^ 61)
      ⟨if w.getLsbD 62 && decide (0 < count) then fire s c va pa else s, count, true⟩

/-- The new value of ATOM and ARED (R159). -/
def atomNew (op : AtomOp) (ty : ElemTy) (old v : W64) : W64 :=
  match op with
  | .add => iadd ty old v
  | .min => imin ty old v
  | .max => imax ty old v
  | .and => old &&& v
  | .or => old ||| v
  | .xor => old ^^^ v
  | .exch => v
  | .fadd => fadd ty .rne old v

/-- A submission (R326, R345, R365, R423): refused unless the record is NEW, its DEP is a task counter, and word 0x68 is zero. -/
def submit (s : State) (c : Nat) (va : W64) (pa : Nat) (queue : Option Nat) (lobj : Option W64) : WordOut :=
  let (s, st) := homeWord s pa c
  let (s, dep) := homeWord s (pa + 8) c
  let (s, ctl) := homeWord s (pa + 0x18) c
  let (s, lo) := homeWord s (pa + 0x68) c
  let wrongQueue := match queue with
    | some q => ctlQueue ctl.toNat != q
    | none => false
  if st.extractLsb' 0 4 != 0#4 || State.wordBad dep (pa + 8) || dep.getLsbD 63 || !dep.getLsbD 62 || lo != 0#64 || wrongQueue then
    ⟨s, st.toNat % 2 ^ 32, false⟩
  else
    let s := match lobj with
      | none => s
      | some a => s.homeWriteN (pa + 0x68) 8 c (a.toNat + 1)
    let (id, s) := s.fresh
    let s := { s with tasks := s.tasks ++ [{ Task.atSubmit id c va pa 0 1 with lobj := lobj }] }
    ⟨if dep.extractLsb' 0 32 = 0#32 then appendTask s id else s.homeWriteN pa 8 c 1, st.toNat % 2 ^ 32, true⟩

/-- TDEPADD at the home (R346). -/
def depAdd (s : State) (c pa n : Nat) : WordOut :=
  let (s, w) := homeWord s pa c
  let count := (w.extractLsb' 0 32).toNat
  let (s, st) := homeWord s (pa - 8) c
  if State.wordBad w pa || w.getLsbD 63 || (w.getLsbD 62 && decide (2 ≤ (st.extractLsb' 0 4).toNat)) || decide (2 ^ 32 ≤ count + n) then
    ⟨s, count, false⟩
  else ⟨if n = 0 then s else s.homeWriteN pa 8 c (w.toNat + n), count, true⟩

/-- What an operation does at its home (R159 to R164, R326, R346 to R349). -/
def wordDo (s : State) (o : Op) (w : WordReq) : WordOut :=
  let c := o.ctx
  match w.op with
  | .atom _ op ty v =>
    let (s, x) := s.homeReadN w.pa w.size c
    ⟨s.homeWriteN w.pa w.size c (atomNew op ty (BitVec.ofNat 64 x) v).toNat, x, true⟩
  | .cas _ old new =>
    let (s, x) := s.homeReadN w.pa w.size c
    ⟨if x = old.toNat % 2 ^ (8 * w.size) then s.homeWriteN w.pa w.size c new.toNat else s, x, true⟩
  | .cntdec n => decrement s c o.va w.pa n.toNat
  | .bararv n => barrierArrives s c w.pa n
  | .submit q lobj => submit s c o.va w.pa q lobj
  | .depadd n => depAdd s c w.pa n.toNat
  | .signal v vec =>
    let s := s.homeWriteN w.pa 8 c v.toNat
    ⟨if vec = 0#32 then s else s.notify vec.toNat c, 0, true⟩
  | .swap v =>
    let (s, x) := s.homeReadN w.pa 8 c
    ⟨s.homeWriteN w.pa 8 c v.toNat, x, true⟩
  | .await .. | .barwt _ => ⟨s, 0, true⟩

/-- A word of a record as the submitting core finds it, none where it cannot be read. -/
def unitPeek (s : State) (c : Nat) (va : W64) : Option Nat :=
  match unitRead s c va 8 with
  | .ok (_, v) => some v
  | .error _ => none

/-- The regions that a record declares, each whose own words can be read and are well formed (R320, R323, R328). -/
def declaredRegions (s : State) (c : Nat) (rec : W64) : List Region :=
  let n := match unitPeek s c (rec + 0x18#64) with
    | some ctl => min 12 (ctlRegs ctl)
    | none => 12
  (List.range n).filterMap (fun i =>
    match unitPeek s c (rec + BitVec.ofNat 64 (0x80 + 16 * i)), unitPeek s c (rec + BitVec.ofNat 64 (0x88 + 16 * i)) with
    | some a, some b => parseRegion a b true
    | _, _ => none)

/-- The lines that a submission writes back from the issuing core's L1 first (R328, R365): the record, its gang record, its successor list, its R, RW
and X regions, and a ladder object; each that the record names, whatever else in the record cannot be read or is malformed. -/
def submitFlush (s : State) (o : Op) (lobj : Option W64) : State :=
  let flush (s : State) (base len : Nat) : State := l1RangeVa s o.core o.ctx base len false
  if (s.core o.core).l1.isEmpty then s
  else
    let s := flush s o.va.toNat 320
    let s := match lobj with
      | none => s
      | some a => flush s a.toNat 320
    let word (off : W64) : Option Nat := unitPeek s o.ctx (o.va + off)
    let rs := declaredRegions s o.ctx o.va
    let (ctl, grec, succ) := (word 0x18#64, word 0x30#64, word 0x38#64)
    let s := match grec with
      | some g => flush s (g % 2 ^ 48) 136
      | none => s
    let s := match succ, ctl with
      | some l, some c => flush s (l % 2 ^ 48) (8 * bitsAt c 63 56)
      | some l, none => flush s (l % 2 ^ 48) (8 * 255)
      | none, _ => s
    (rs.filter (fun r => r.mode == 1 || r.mode == 3 || r.mode == 6)).foldl (fun s r => flush s r.base r.bytes) s

/-- Nothing of the thread that a submission writes back is still on its way (R328). -/
def submitReady (s : State) (o : Op) (w : WordReq) : Bool :=
  match w.op with
  | .submit .. => !(s.ops.any (fun p => decide (p.id < o.id) && p.tids.contains o.tid && (match p.kind with
      | .store .. | .copy .. => true
      | _ => false)))
  | _ => true

/-! ## Arrival at the home -/

/-- A waiting operation returns early (R166, R182): its limit has expired, pre-emption of its context is requested, or its thread is halted, is to be evicted or has ended. -/
def awaitEarly (s : State) (o : Op) (w : WordReq) : Bool :=
  (match w.limit with
  | some k => decide (k ≤ s.clk)
  | none => false)
  || (s.ctx o.ctx).preempt.isSome
  || (match s.thread o.tid with
    | some t => t.halted.isSome || t.halting || t.exited || t.victimOf.isSome
    | none => true)

/-- What follows an operation performed at its home: SETB counts down, and an operation without a value to bind ends. -/
def wordEnd (s : State) (id : Nat) : State :=
  match s.op id with
  | none => s
  | some o =>
    if o.result.isNone then s
    else
      let s := countDown s o.tid o.setb
      let s := if o.toks.isEmpty then takesOver s o else s
      if o.toks.isEmpty && o.seta.isNone then sweepThread (s.dropOp id) o.tid else s.updOp id (fun p => { p with setb := none })

/-- A value that a word at a peer answers: the fields that the operation's result defines, and free bits in them (R164, R165, R264; log entry 7). -/
def peerField (op : WordOp) (v : Nat) : Nat :=
  match op with
  | .bararv _ => (BitVec.ofNat 32 v &&& 0x8000FFFF#32).toNat
  | .barwt _ => v % 2 ^ 16
  | _ => v

/-- The answer of a wait at a peer whose word reads `v` now: given, or none while it waits on (R165, R166). -/
def peerWaitEnds (op : WordOp) (v : Nat) (early : Bool) : Bool :=
  match op with
  | .await ty c x => early || State.awaitHolds ty c v x.toNat
  | .barwt phase => early || v != phase.toNat % 2 ^ 16
  | _ => true

/-- An operation whose home is a peer (R157, R264): the peer may refuse it (R168), and a wait looks at the word once in each clk until its condition holds. -/
def peerOp (s : State) (o : Op) (w : WordReq) (early : Bool) : State :=
  let (r, s) := s.free
  let (s, v) := s.peerRead w.size
  if r.getLsbD 0 then wordEnd (s.wordRefused o v) o.id
  else if peerWaitEnds w.op (peerField w.op v) early then wordEnd (s.wordDone o { w with cpl := false } (peerField w.op v)) o.id
  else s.updOp o.id (fun p => { p with kind := .word { w with here := true, tried := some s.clk } })

/-- A home refuses an operation as it stands there (R94, R99, R168, R399): the fault, and the word's bytes where they can be read. -/
def homeRefuses (s : State) (o : Op) (w : WordReq) : Option State :=
  match s.paKind w.pa, s.homeFault w.pa with
  | .view _, f =>
    if s.pageRetired w.pa then f.map (fun f => let (s, v) := s.peerRead w.size
                                               (lateRefused s o o.tid f o.va w.pa).updOp o.id (fun p => { p with result := some v }))
    else some (s.wordRefused o (s.homeReadN w.pa w.size o.ctx).2)
  | _, some f =>
    let (s, v) := s.peerRead w.size
    some ((lateRefused s o o.tid f o.va w.pa).updOp o.id (fun p => { p with result := some v }))
  | _, none =>
    if (s.dbgWindow w.pa).isSome && !w.op.isAwait then some (s.wordRefused o (s.homeReadN w.pa w.size o.ctx).2)
    else if s.waitClosed o w then some (s.waitShut o w) else none

/-- An operation is performed at its home, in which the issuing core's copy of the line gives way first (R157, R269). -/
def homeDoes (s : State) (o : Op) (w : WordReq) : State :=
  let s := l1Flush s o.core (w.pa / 128)
  if w.op.waits then
    let (s', d) := s.homeRead (w.pa / 128) o.ctx
    let x := LineOps.get d (w.pa % 128) w.size
    if State.waitRefused w.op w.pa x then s.wordRefused o (x % 2 ^ 32)
    else (s'.updOp o.id (fun p => { p with kind := .word { w with here := true } })).wordTest o { w with here := true } d (awaitEarly s o w)
  else
    let s := match w.op with
      | .submit _ l => submitFlush s o l
      | _ => s
    let s' := if w.cpl then s.timedWrite o.tid (w.pa / 128) else s
    let r := wordDo (if o.release then s'.releaseAt (w.pa / 128) (s.threadTime o.tid) else s') o w
    wordEnd (if r.ok then r.s.updOp o.id (fun p => { p with result := some r.val }) else s.wordRefused o r.val) o.id

/-- HOME_WORD_OPERATION (R94): an operation reaches its home. -/
def homeOp (s : State) (id : Nat) : Option State :=
  match s.op id with
  | none => none
  | some o =>
    match o.kind with
    | .word w =>
      if o.result.isSome || !orderAllows s o || !submitReady s o w || s.viewBusy w.pa then none
      else if s.paKind w.pa = .peer then (if w.tried = some s.clk then none else some (peerOp s o w (awaitEarly s o w)))
      else if w.here then none
      else match homeRefuses s o w with
        | some s => some (wordEnd s id)
        | none => some (homeDoes s o w)
    | _ => none

/-- A peer's wait returns early (R94, R166). -/
def peerExpire (s : State) (id : Nat) : Option State :=
  match s.peerWaits.find? (fun w => w.id == id) with
  | none => none
  | some w =>
    if let some f := s.homeFault w.pa then some ((s.peerAnswer w 0).peerRefused w.ctx w.pa f.1 f.2)
    else if (s.dbgWindow w.pa).isSome then some (s.peerShut w)
    else if w.limit.any (fun k => decide (k ≤ s.clk)) then
      let (s, d) := s.homeRead (w.pa / 128) w.ctx
      some (s.peerTest w d true)
    else none

/-- AWAIT_LIMIT_EXPIRY (R166): a waiting operation is answered with the word as it stands. One on a line whose page is retired, or on a word of a record
that has closed, is refused as if it arrived now (R101, R402). -/
def awaitExpire (s : State) (id : Nat) : Option State :=
  match s.op id with
  | none => peerExpire s id
  | some o =>
    match o.kind with
    | .word w =>
      if !w.here || o.result.isSome then none
      else if s.paKind w.pa = .peer then (if awaitEarly s o w then some (peerOp s o w true) else none)
      else if (s.homeFault w.pa).isSome || s.waitClosed o w then (homeRefuses s o w).map (fun s => wordEnd s id)
      else if awaitEarly s o w then
        let (s, d) := s.homeRead (w.pa / 128) o.ctx
        some (s.wordTest o w d true)
      else none
    | _ => none

end Sys2Proof.Machine
end

