-- ==== Sys2Proof/Machine/CtlOps.lean ====
section
/-! DEFINITION. The CTL group (R308 to R312) and the team instructions of the TSK group (R313 to R319). -/

namespace Sys2Proof.Machine

/-- The failing check of each lane as (stage, code, sub-code, address): the fault that R107 reports. -/
def reported (l : List (Nat × Option (Nat × Nat × Nat × W64))) : Option (Nat × Nat × W64 × List Nat) :=
  let bad := l.filterMap (fun p => p.2.map (fun f => (p.1, f)))
  match bad with
  | [] => none
  | _ =>
    let st := bad.foldl (fun m p => min m p.2.1) 1000
    let hit := bad.filter (fun p => p.2.1 == st)
    match hit with
    | [] => none
    | p :: _ => some (p.2.2.1, p.2.2.2.1, p.2.2.2.2, (hit.filter (fun q => q.2.2.1 == p.2.2.1)).map Prod.fst)

/-- Takes the reported fault of a word that has read its operands, or goes on. -/
def checked (s : State) (g : Grp) (ls : List Lane) (f : Lane → Option (Nat × Nat × Nat × W64)) (k : State) : State :=
  match reported (ls.map (fun l => (l.t.id, f l))) with
  | some (code, sub, addr, ids) => wordTrap s g code sub addr ids (replaysOf ls)
  | none => k

/-- NOP. -/
def execNop (h : Hd) (s : State) : Out := actWord { h := h } (fun g _ s => finishWord s g h) s

/-! ## Transfers (R309) -/

/-- The target of BRA and CALL (R309). -/
def relTarget (pc : W64) (off : BitVec 16) : W64 := pc + 8#64 * off.signExtend 64

/-- The check of a register target: ALIGN, then the address form (R309). -/
def targetFault (x : W64) : Option (Nat × Nat × Nat × W64) :=
  if x.extractLsb' 0 3 != 0#3 then some (0, 0x05, 2, x)
  else if x.extractLsb' 48 16 != 0#16 then some (1, 0x06, 4, x)
  else none

/-- Executing threads go to their targets, the others to the next clause in memory (R294). -/
def transfer (s : State) (g : Grp) (h : Hd) (ls : List Lane) (tgt : Lane → W64) : State :=
  finishWith s g h (fun id => match ls.find? (fun l => l.t.id == id) with
    | some l => tgt l
    | none => g.clause.fall)

/-- BRA (R309). -/
def execBra (h : Hd) (off : BitVec 16) (s : State) : Out :=
  actWord { h := h } (fun g ls s => transfer s g h ls (fun _ => relTarget g.pc off)) s

/-- A transfer to the value of SA. -/
def jumpWord (h : Hd) (a : Src) (s : State) : Out :=
  actWord { h := h, srcs := [.src a true] } (fun g ls s =>
    checked s g ls (fun l => targetFault (l.v 0)) (transfer s g h ls (fun l => l.v 0))) s

/-- BRX (R309). -/
def execBrx (h : Hd) (a : Src) (s : State) : Out := jumpWord h a s

/-- RET (R309). -/
def execRet (h : Hd) (a : Src) (s : State) : Out := jumpWord h a s

/-- The destination of CALL and CALLX: the return address, two cells. -/
def linkDest (d : VName) (k : BitVec 4) : Dest := { Dest.none with names := [(d.val, true)], rdc := k }

/-- Binds the return address as a fixed-latency A result (R69, R309). -/
def linkBind (s : State) (g : Grp) (d : VName) (k : BitVec 4) (ls : List Lane) : State :=
  bindFixed s g (linkDest d k) Config.latA (ls.map (fun l => (l, Res.val (g.pc + 8#64))))

/-- CALL (R309). -/
def execCall (h : Hd) (d : VName) (k : BitVec 4) (off : BitVec 16) (s : State) : Out :=
  actWord { h := h, dst := linkDest d k } (fun g ls s =>
    transfer (linkBind s g d k ls) g h ls (fun _ => relTarget g.pc off)) s

/-- CALLX (R309). -/
def execCallx (h : Hd) (d : VName) (k : BitVec 4) (a : Src) (s : State) : Out :=
  actWord { h := h, srcs := [.src a true], dst := linkDest d k } (fun g ls s =>
    checked s g ls (fun l => targetFault (l.v 0)) (transfer (linkBind s g d k ls) g h ls (fun l => l.v 0))) s

/-- EXIT: a rung thread takes LADDER instead (R310, R363). -/
def execExit (h : Hd) (s : State) : Out :=
  actWord { h := h } (fun g ls s =>
    checked s g ls (fun l => if l.t.rung.isSome then some (0, 0x10, 5, itemOf l.t) else none)
      (let s' := ls.foldl (fun s l => exitThread s l.t.id) s
       finishWith s' g h (fun _ => g.clause.fall))) s

/-- WAITF: it issues when every named flag of every executing member is zero, or, in interlocked mode, when their effects are performed (R311,
R73). -/
def execWaitf (h : Hd) (mask : BitVec 12) (s : State) : Out :=
  actWord { h := h } (fun g ls s =>
    let ts := ls.map Lane.t
    if s.ilk g.ctx then
      if ts.any (effectsOut s) then stallFree s g 3 0#64 else finishWord s g h
    else match busyFlag ts mask with
      | some (t, f) => stallFree s g 3 (flagProducer s t f)
      | none => finishWord s g h) s

/-- NAP: the executing members sleep from issue; NAP_EXPIRY wakes them (R312). -/
def execNap (h : Hd) (n : BitVec 16) (s : State) : Out :=
  withGrp s (fun g =>
    if g.run.issued then
      if g.mem.any (fun t => t.nap.isSome) then stallFree s g 3 0#64 else finishWord s g h
    else match prepare { h := h } g s with
      | .done s => s
      | .go ls s =>
        if n = 0#16 || ls.isEmpty then finishWord s g h
        else
          let s := ls.foldl (fun s l => s.updThread l.t.id (fun t => { t with nap := some (s.clk + n.toNat) })) s
          stallFree (markIssued s g h) g 3 0#64)

/-! ## Teams (R313 to R319) -/

/-- The checks of a team word: the id in the register form (PROT), then membership (R315, R316, R319). -/
def teamFault (sub : Nat) (member : Bool) (l : Lane) : Option (Nat × Nat × Nat × W64) :=
  if decide (63 < elemAt 32 0 (l.v 0)) then some (0, 0x07, 5, 0#64)
  else if l.t.teams.getLsbD (elemAt 32 0 (l.v 0)) == member then some (1, 0x0F, sub, lowCell (l.v 0))
  else none

def teamOf (s : State) (gid id : Nat) : Option Team :=
  match s.gang gid with
  | some g => g.teams.find? (fun m => m.id == id)
  | none => none

/-- A join is performed at the gang's team state (R315). -/
def joinTeam (s : State) (t : Thread) (id : Nat) : State :=
  let size := match teamOf s t.gang id with
    | some m => m.size
    | none => 0
  let join (l : List Team) : List Team :=
    if l.any (fun m => m.id == id) then l.map (fun m => if m.id = id then { m with members := m.members ++ [t.id] } else m)
    else l ++ [{ id := id, size := 0, members := [t.id], arrived := [], urgency := 0, firstAt := 0, lastAt := 0 }]
  let s := s.updGang t.gang (fun g => { g with teams := join g.teams })
  s.updThread t.id (fun t => { t with teams := t.teams ||| ((1#64) <<< id), curTeam := some id, rank := 0xFFFFFFFF#32,
                                      tsize := BitVec.ofNat 32 size })

/-- A leave is performed at the gang's team state (R315, R316). -/
def leaveTeam (s : State) (t : Thread) (id : Nat) : State :=
  let s := s.updThread t.id (fun t =>
    let t := { t with teams := t.teams &&& ~~~ ((1#64) <<< id) }
    if t.curTeam = some id then { t with curTeam := none, rank := 0xFFFFFFFF#32, tsize := 0#32 } else t)
  let s := s.updGang t.gang (fun g => { g with teams := g.teams.map (fun m =>
    if m.id = id then { m with members := m.members.filter (fun x => x != t.id), arrived := m.arrived.filter (fun x => x != t.id) } else m) })
  settleTeam s t.gang id

/-- An arrival at a team barrier (R316). -/
def arriveTeam (s : State) (t : Thread) (id : Nat) : State :=
  let s := s.updGang t.gang (fun g => { g with teams := g.teams.map (fun m =>
    if m.id = id then { m with arrived := m.arrived ++ [t.id], firstAt := if m.arrived.isEmpty then s.clk else m.firstAt, lastAt := s.clk } else m) })
  let s := s.updThread t.id (fun t => { t with curTeam := some id, bar := some (.team id, false) })
  settleTeam s t.gang id

/-- An arrival at GBAR (R317). -/
def arriveGang (s : State) (t : Thread) : State :=
  let s := s.updGang t.gang (fun g => { g with gbar := g.gbar ++ [t.id] })
  settleGbar (s.updThread t.id (fun t => { t with bar := some (.gang, false) })) t.gang

/-- A group that has arrived waits until every arrival of its members is released (R316, R317). -/
def barrierWait (s : State) (g : Grp) (h : Hd) : State :=
  if g.mem.any (fun t => match s.thread t.id with
      | some t => (match t.bar with
        | some (_, false) => true
        | _ => false)
      | none => false) then stallFree (markIssued s g h) g 7 0#64
  else finishWord s g h

/-- TJOIN (R315). -/
def execTjoin (h : Hd) (id : SrcI) (s : State) : Out :=
  actWord { h := h, srcs := [Opnd.index id] } (fun g ls s =>
    checked s g ls (teamFault 1 true)
      (finishWord (ls.foldl (fun s l => joinTeam s l.t (elemAt 32 0 (l.v 0))) s) g h)) s

/-- TLEAVE (R315). -/
def execTleave (h : Hd) (id : SrcI) (s : State) : Out :=
  actWord { h := h, srcs := [Opnd.index id] } (fun g ls s =>
    checked s g ls (teamFault 2 false)
      (finishWord (ls.foldl (fun s l => leaveTeam s l.t (elemAt 32 0 (l.v 0))) s) g h)) s

/-- An arrival is a release (R318): the accesses that it orders are performed first, and the group waits at its word until then. -/
def arrivals (s0 s : State) (g : Grp) (ls : List Lane) (k : State) : State :=
  if ls.all (fun l => s.released l.t) then k else stallFree s0 g 7 0#64

/-- TBAR (R316). -/
def execTbar (h : Hd) (id : SrcI) (s : State) : Out :=
  withGrp s (fun g =>
    if g.run.issued then barrierWait s g h
    else match prepare { h := h, srcs := [Opnd.index id] } g s with
      | .done s' => s'
      | .go ls s' =>
        checked s' g ls (teamFault 3 false)
          (arrivals s s' g ls (barrierWait (ls.foldl (fun s l => arriveTeam s l.t (elemAt 32 0 (l.v 0))) s') g h)))

/-- GBAR (R317). -/
def execGbar (h : Hd) (s : State) : Out :=
  withGrp s (fun g =>
    if g.run.issued then barrierWait s g h
    else match prepare { h := h } g s with
      | .done s' => s'
      | .go ls s' => arrivals s s' g ls (barrierWait (ls.foldl (fun s l => arriveGang s l.t) s') g h))

end Sys2Proof.Machine
end

