-- ==== Sys2Proof/Machine/MemOps.lean ====
section
/-! DEFINITION. The MEM group (R145 to R156), QBLK and DQBLK (R228): operands, addresses, the checks of all lanes before any access (R107), and the
operations that they issue. -/

namespace Sys2Proof.Machine

/-! ## Checks of all lanes (R107) -/

/-- A lane with the checks of its accesses, in the order in which they are made. -/
abbrev LaneChecks := Lane × List LaneRes

/-- The failing check of a lane: the first in the order of R107. -/
def failing : List LaneRes → Option (Nat × Nat × Nat × W64)
  | [] => none
  | .bad st c sub a :: rest =>
    (match failing rest with
    | some (st', c', sub', a') => if st' < st then some (st', c', sub', a') else some (st, c, sub, a)
    | none => some (st, c, sub, a))
  | _ :: rest => failing rest

def missing : List LaneRes → Option Nat
  | [] => none
  | .miss p :: _ => some p
  | _ :: rest => missing rest

/-- The word waits for walks (R104): pages asked for, and the group holds its pipe (class 9). -/
def awaitWalks (s : State) (g : Grp) (pages : List Nat) : State :=
  stallHold (pages.foldl (fun s p => requestWalk s g.core g.ctx p) s) g 9 0#64

/-- A refused access (R107, R110): logged with its virtual address and its lanes, and the fault taken. -/
def refuseWord (s : State) (g : Grp) (ls : List Lane) (code sub : Nat) (addr : W64) (ids : List Nat) : State :=
  let mask := maskOf (g.mem.filter (fun t => ids.contains t.id))
  let flt := fltAddr s g.core g.ctx code addr
  let s := dropBadTlb s g.core g.ctx addr
  let s := s.logRefused 0 g.ctx g.core true addr code sub mask.1
  wordTrap s g code sub flt ids (replaysOf ls)

/-- The lanes' checks together: a failure before translation, then walks to be waited for, then any other failure, else the accesses go on. `s0` is the state
before the operands were read: a word that waits reads them again. -/
def checkLanes (s0 s : State) (g : Grp) (rs : List LaneChecks) (k : State) : State :=
  let bad := rs.map (fun p => (p.1.t.id, failing p.2))
  let early := bad.map (fun p => (p.1, match p.2 with
    | some (st, c, sub, a) => if st ≤ 2 then some (st, c, sub, a) else none
    | none => none))
  let ls := rs.map Prod.fst
  match reported early with
  | some (code, sub, addr, ids) => refuseWord s g ls code sub addr ids
  | none =>
    match rs.filterMap (fun p => missing p.2) with
    | p :: ps => awaitWalks s0 g (p :: ps)
    | [] =>
      match reported bad with
      | some (code, sub, addr, ids) => refuseWord s g ls code sub addr ids
      | none => k

/-- Where a lane's access goes after its checks. -/
def okTarget : List LaneRes → Target
  | .ok t :: _ => t
  | _ => .l1 0

/-- The check of a lane's global access under its own task and gang. -/
def laneGlobal (s : State) (core : Nat) (t : Thread) (a : Acc) : LaneRes :=
  match s.gang t.gang, s.task t.task with
  | some g, some k => checkGlobal s core g k a
  | _, _ => .bad 2 0x08 1 a.va

/-- The check of a lane's stash access. -/
def laneStash (s : State) (t : Thread) (addr : W64) (size align : Nat) : LaneRes :=
  match s.gang t.gang with
  | some g => checkStash g addr size align
  | none => .bad 4 0x07 3 addr

/-! ## Operands (R146, R147) -/

/-- The access width in bytes. -/
def memWidth : ElemTy → Nat
  | .s8 | .n8 => 1
  | .s16 | .n16 => 2
  | .s64 | .n64 => 8
  | _ => 4

/-- The width from which a load sign-extends, or 0. -/
def memSign : ElemTy → Nat
  | .s8 => 8
  | .s16 => 16
  | _ => 0

/-- The address fields: the base of 64 or 32 bits, and the index read as s32. -/
def memOpnds (m : MemAddr) (wide : Bool) : List Opnd :=
  match m with
  | .reg b i _ => [.src b wide, .src i false]
  | .imm b _ => [.src b wide]

/-- The effective address (R146). -/
def memEa (m : MemAddr) (size : Nat) (l : Lane) : W64 :=
  match m with
  | .reg _ _ scl => l.v 0 + (word32 (l.v 1)).signExtend 64 * BitVec.ofNat 64 (if scl then size else 1)
  | .imm _ v => l.v 0 + v.signExtend 64

def loadAcc (va : W64) (n : Nat) : Acc := { va := va, size := n, align := n, rt := rightsR, modes := modesLoad, word := false }
def storeAcc (va : W64) (n : Nat) : Acc := { va := va, size := n, align := n, rt := rightsW, modes := modesStore, word := false }

/-- The watched accesses of a word's lanes, each with one address (R397). -/
def watched (s : State) (g : Grp) (ls : List (Lane × W64)) (n : Nat) (stash load store : Bool) : State :=
  watchHits s g (ls.map (fun p => (p.1.t, [{ addr := p.2, size := n, stash := stash, load := load, store := store }])))

/-! ## Loads and stores -/

/-- A load of `n` bytes per lane: `chk` checks one lane's address (R149, R152, R154). -/
def loadWord (w : Spec) (m : MemAddr) (n sx : Nat) (hint : Hint) (cnt : Nat) (stash : Bool) (chk : State → Lane → W64 → LaneRes) (s : State) : Out :=
  withGrp s (fun g => match prepare w g s with
    | .done s' => s'
    | .go ls s' =>
      let es := ls.map (fun l => (l, memEa m n l))
      let rs := es.map (fun p => (p.1, [chk s' p.1 p.2]))
      checkLanes s s' g rs
        (let ops := (rs.zip es).map (fun p => (p.1.1, ({ kind := .load (okTarget p.1.2) n sx hint cnt, va := p.2.2 } : NewOp)))
         finishWord (watched (issueOps s' g w ops) g es n stash true false) g w.h))

/-- LD (R149). -/
def execLd (h : Hd) (ty : ElemTy) (hint : Hint) (d : Dst) (m : MemAddr) (cnt : Fin 64) (s : State) : Out :=
  let n := memWidth ty
  loadWord { h := h, srcs := memOpnds m true, dst := Dest.ofDst d (ElemTy.wide ty), a := true } m n (memSign ty) hint cnt.val false
    (fun s l va => laneGlobal s l.t.core l.t (loadAcc va n)) s

/-- LDS (R154). -/
def execLds (h : Hd) (ty : ElemTy) (counted : Bool) (d : Dst) (m : MemAddr) (s : State) : Out :=
  let n := memWidth ty
  loadWord { h := h, srcs := memOpnds m false, dst := Dest.ofDst d (ElemTy.wide ty), a := true } m n (memSign ty)
    (if counted then .counted else .plain) 0 true (fun s l va => laneStash s l.t va n n) s

/-- LDV: sixteen bytes into DST and DST + 1 (R152). -/
def execLdv (h : Hd) (hint : Hint) (d : VName) (k : BitVec 4) (m : MemAddr) (cnt : Fin 64) (s : State) : Out :=
  loadWord { h := h, srcs := memOpnds m true, dst := { Dest.none with names := [(d.val, true), (d.val + 1, true)], rdc := k }, a := true } m 16 0 hint
    cnt.val false (fun s l va => laneGlobal s l.t.core l.t (loadAcc va 16)) s

/-- A store of `n` bytes per lane; `data` gives a lane's bytes. -/
def storeWord (w : Spec) (m : MemAddr) (n : Nat) (hint : Hint) (stash : Bool) (data : Lane → BitVec 128) (chk : State → Lane → W64 → LaneRes)
    (s : State) : Out :=
  withGrp s (fun g => match prepare w g s with
    | .done s' => s'
    | .go ls s' =>
      let es := ls.map (fun l => (l, memEa m n l))
      let rs := es.map (fun p => (p.1, [chk s' p.1 p.2]))
      checkLanes s s' g rs
        (let ops := (rs.zip es).map (fun p => (p.1.1, ({ kind := .store (okTarget p.1.2) n hint (data p.1.1), va := p.2.2 } : NewOp)))
         finishWord (watched (issueOps s' g w ops) g es n stash false true) g w.h))

/-- ST (R150). -/
def execSt (h : Hd) (ty : ElemTy) (hint : Hint) (base idx : Src) (scl : Bool) (c : Src) (s : State) : Out :=
  let n := memWidth ty
  let m := MemAddr.reg base idx scl
  storeWord { h := h, srcs := memOpnds m true ++ [.src c (ElemTy.wide ty)], b := true } m n hint false (fun l => (l.v 2).zeroExtend 128)
    (fun s l va => laneGlobal s l.t.core l.t (storeAcc va n)) s

/-- STS (R154). -/
def execSts (h : Hd) (ty : ElemTy) (base idx : Src) (scl : Bool) (c : Src) (s : State) : Out :=
  let n := memWidth ty
  let m := MemAddr.reg base idx scl
  storeWord { h := h, srcs := memOpnds m false ++ [.src c (ElemTy.wide ty)], b := true } m n .plain true (fun l => (l.v 2).zeroExtend 128)
    (fun s l va => laneStash s l.t va n n) s

/-- The name that follows a name. -/
def nameAfter (n : VName) : VName := ⟨min (n.val + 1) 111, by omega⟩

/-- STV: SC and SC + 1 (R152). -/
def execStv (h : Hd) (hint : Hint) (base idx : Src) (scl : Bool) (c : VName) (s : State) : Out :=
  let m := MemAddr.reg base idx scl
  storeWord { h := h, srcs := memOpnds m true ++ [.src (.val c) true, .src (.val (nameAfter c)) true], b := true } m 16 hint false (fun l => l.v 3 ++ l.v 2)
    (fun s l va => laneGlobal s l.t.core l.t (storeAcc va 16)) s

/-- LDP's check of one lane (R156): an XLATE or PROT of its walk or leaf becomes the lane's status. R156 does not say what a PROT of another origin does (a coupled access in
a mapped range, R116; a debug window, R399): the model makes it the lane's status as well (DESIGN CHOICE, log entry 61). -/
def probeCheck : LaneRes → Option Nat × LaneRes
  | .bad st c sub a => if st = 3 ∨ st = 4 then (some c, .ok (.l1 0)) else (none, .bad st c sub a)
  | r => (none, r)

/-- LDP (R156). -/
def execLdp (h : Hd) (ty : ElemTy) (d : Dst) (m : MemAddr) (s : State) : Out :=
  let n := memWidth ty
  let w : Spec := { h := h, srcs := memOpnds m true, dst := Dest.ofDst d true, a := true }
  withGrp s (fun g => match prepare w g s with
    | .done s' => s'
    | .go ls s' =>
      let es := ls.map (fun l => (l, memEa m n l))
      let ps := es.map (fun p => (p, probeCheck (laneGlobal s' p.1.t.core p.1.t (loadAcc p.2 n))))
      checkLanes s s' g (ps.map (fun p => (p.1.1, [p.2.2])))
        (let ops := ps.map (fun p => (p.1.1, match p.2.1 with
           | some code => ({ kind := .value (BitVec.ofNat 64 (code * 2 ^ 32)), va := p.1.2 } : NewOp)
           | none => { kind := .load (okTarget [p.2.2]) n (memSign ty) .plain 0, va := p.1.2 }))
         let hit := (ps.filter (fun p => p.2.1.isNone)).map Prod.fst
         let s' := (ps.filter (fun p => p.2.1.isSome)).foldl (fun s p => dropBadTlb s g.core g.ctx p.1.2) s'
         finishWord (watched (issueOps s' g w ops) g hit n false true false) g h))

/-- One lane of PFL (R155): its line, where no check fails. The table of R335 has no row for PFL: the region check asks for one byte and the modes of LD (DESIGN CHOICE,
log entry 60). -/
def pflLine (s : State) (t : Thread) (va : W64) : LaneRes :=
  laneGlobal s t.core t { va := va, size := 1, align := 1, rt := rightsR, modes := modesLoad, word := false }

/-- The fill that PFL asks for (R155): into the home Vale with HN = 01; else into the L1, where a line of a coupled region is a leased copy (R277) that moves no clock, and a
line in a mapped range, in a debug window or at a peer has none (R116, R264, R402). A lane whose page is retired, or whose walk ends in RAS, is dropped like one
whose translation fails (DESIGN CHOICE, log entry 60). -/
def pflFill (s : State) (t : Thread) (hint : Hint) (k : Nat) (r : LaneRes) : State :=
  match r with
  | .ok (.l1 pa) =>
    if s.viewBusy pa then s
    else if hint == .stream then s.fillHome (pa / 128) t.ctx
    else l1Fill s t.core (pa / 128) t.ctx (if hint == .counted then some (min (max k 1) 255) else none)
  | .ok (.home pa) =>
    if s.viewBusy pa || (s.dbgWindow pa).isSome then s
    else if hint == .stream then s.fillHome (pa / 128) t.ctx
    else if (l1Find s t.core (pa / 128)).isSome then s
    else leaseFill s t.core t.ctx (pa / 128) t.lclock
  | .ok (.window _ _ _ pa) => if hint == .stream && !s.viewBusy pa then s.fillHome (pa / 128) t.ctx else s
  | _ => s

/-- PFL (R155). In the register form with HN = 11, SC = nul names no count: the model takes c = 1, as in the immediate form;
with another HN any source may stand in SC, and it is read and not used (DESIGN CHOICE, log entry 60). -/
def execPfl (h : Hd) (hint : Hint) (m : MemAddr) (cnt : Option Src) (s : State) : Out :=
  let w : Spec := { h := h, srcs := memOpnds m true ++ (match cnt with
    | some c => [.src c false]
    | none => []) }
  withGrp s (fun g => match prepare w g s with
    | .done s' => s'
    | .go ls s' =>
      let k (l : Lane) : Nat := match cnt with
        | some _ => elemAt 32 0 (l.v 2)
        | none => 1
      let rs := ls.map (fun l => (l, pflLine s' l.t (memEa m 4 l)))
      match rs.filterMap (fun p => missing [p.2]) with
      | p :: ps => awaitWalks s g (p :: ps)
      | [] => finishWord (rs.foldl (fun s p => pflFill s p.1.t hint (k p.1) p.2) s') g h)

/-! ## Block conversions (R228, R229) -/

/-- QBLK's checks of one lane: ALIGN of both addresses, then PROT of every byte and of the index. -/
def qblkChecks (s : State) (ty : ElemTy) (w : Nat) (l : Lane) : List LaneRes :=
  let src := lowCell (l.v 0)
  let slot := lowCell (l.v 1)
  let j := elemAt 32 0 (l.v 2)
  if src.toNat % 16 != 0 then [.bad 0 0x05 1 src]
  else if slot.toNat % 256 != 0 then [.bad 0 0x05 1 slot]
  else [laneStash s l.t src (if ty == .f32 then 128 else 64) 1, laneStash s l.t slot 160 1,
        if blocksPerLine w ≤ j then .bad 4 0x07 5 slot else .ok (.l1 0)]

/-- DQBLK's checks of one lane. -/
def dqblkChecks (s : State) (w : Nat) (l : Lane) : List LaneRes :=
  let slot := lowCell (l.v 0)
  if slot.toNat % 256 != 0 then [.bad 0 0x05 1 slot]
  else [laneStash s l.t slot 160 1, if 32 * blocksPerLine w ≤ elemAt 32 0 (l.v 1) then .bad 4 0x07 5 slot else .ok (.l1 0)]

def glenSpot : List LaneRes → Nat → Nat × Nat
  | rs, i => match rs[i]? with
    | some (.ok (.glen c off)) => (c, off)
    | _ => (0, 0)

/-- QBLK (R228). -/
def execQblk (h : Hd) (ty : ElemTy) (r : Rnd) (d : Dst) (a b c : Src) (wm : Fin 8) (s : State) : Out :=
  let width := wm.val + 1
  let w : Spec := { h := h, srcs := [.src a false, .src b false, .src c false], dst := Dest.ofDst d false, a := Dest.binds d, b := true }
  withGrp s (fun g => match prepare w g s with
    | .done s' => s'
    | .go ls s' =>
      let rs := ls.map (fun l => (l, qblkChecks s' ty width l))
      checkLanes s s' g rs
        (let ops := rs.map (fun p => (p.1, ({ kind := .qblk (glenSpot p.2 0) (glenSpot p.2 1) ty width r (elemAt 32 0 (p.1.v 2)), va := lowCell (p.1.v 1) } : NewOp)))
         let touch (l : Lane) : List Touch :=
           [{ addr := lowCell (l.v 0), size := if ty == .f32 then 128 else 64, stash := true, load := true, store := false },
            { addr := lowCell (l.v 1) + BitVec.ofNat 64 (4 * width * elemAt 32 0 (l.v 2)), size := 4 * width, stash := true, load := false, store := true },
            { addr := lowCell (l.v 1) + BitVec.ofNat 64 (128 + 2 * elemAt 32 0 (l.v 2)), size := 2, stash := true, load := false, store := true }]
         finishWord (watchHits (issueOps s' g w ops) g (ls.map (fun l => (l.t, touch l)))) g h))

/-- DQBLK (R228). -/
def execDqblk (h : Hd) (ty : ElemTy) (r : Rnd) (d : Dst) (a b : Src) (wm : Fin 8) (s : State) : Out :=
  let width := wm.val + 1
  let w : Spec := { h := h, srcs := [.src a false, .src b false], dst := Dest.ofDst d false, a := true }
  withGrp s (fun g => match prepare w g s with
    | .done s' => s'
    | .go ls s' =>
      let rs := ls.map (fun l => (l, dqblkChecks s' width l))
      checkLanes s s' g rs
        (let ops := rs.map (fun p => (p.1, ({ kind := .dqblk (glenSpot p.2 0) ty width r (elemAt 32 0 (p.1.v 1)), va := lowCell (p.1.v 0) } : NewOp)))
         let touch (l : Lane) : List Touch :=
           let e := elemAt 32 0 (l.v 1)
           [{ addr := lowCell (l.v 0) + BitVec.ofNat 64 (width * e / 8), size := (width * e % 8 + width + 7) / 8, stash := true, load := true, store := false },
            { addr := lowCell (l.v 0) + BitVec.ofNat 64 (128 + 2 * (e / 32)), size := 2, stash := true, load := true, store := false }]
         finishWord (watchHits (issueOps s' g w ops) g (ls.map (fun l => (l.t, touch l)))) g h))

end Sys2Proof.Machine
end

