-- ==== Sys2Proof/Machine/AtmOps.lean ====
section
/-! DEFINITION. The ATM group (R157 to R169), and the task instructions of the TSK group (R344 to R349): operations that travel to the home of their word. -/

namespace Sys2Proof.Machine

/-- The access of a word operation: both R and W, and a region of mode RW, CPL or SCR (R157, R335). -/
def wordAcc (va : W64) (size align : Nat) : Acc := { va := va, size := size, align := align, rt := rightsRW, modes := modesWord, word := true }

/-- One operation of a lane on its way to the home. The issuing core writes back and invalidates its own L1 copy of the line first (R157, R344). -/
def sendWord (s : State) (g : Grp) (w : Spec) (size scope : Nat) (rs : List LaneChecks) (op : Lane → WordOp) (limit : Lane → Option Nat) : State :=
  let s := rs.foldl (fun s p => l1Flush s g.core ((okTarget p.2).pa / 128)) s
  let cpl (l : Lane) : Bool := match s.task l.t.task with
    | some k => isCoupled k (l.v 0).toNat size
    | none => false
  let req (p : LaneChecks) : WordReq :=
    { pa := (okTarget p.2).pa, op := op p.1, size := size, scope := scope, cpl := cpl p.1, limit := limit p.1, here := false, tried := none }
  issueOps s g w (rs.map (fun p => (p.1, { kind := .word (req p), va := p.1.v 0 })))

/-- A word of the ATM group: checks of all lanes, then one operation per lane in ascending lane order (R159, R160). -/
def atmWord (w : Spec) (size scope : Nat) (op : Lane → WordOp) (limit : State → Lane → Option Nat) (s : State) : Out :=
  withGrp s (fun g => match prepare w g s with
    | .done s' => s'
    | .go ls s' =>
      let rs := ls.map (fun l => (l, [laneGlobal s' l.t.core l.t { wordAcc (l.v 0) size size with await := (op l).isAwait }]))
      checkLanes s s' g rs
        (finishWord (watched (sendWord s' g w size scope rs op (limit s')) g (ls.map (fun l => (l, l.v 0))) size false true true) g w.h))

def atmSize (ty : ElemTy) : Nat := if ElemTy.wide ty then 8 else 4

def noLimit (_ : State) (_ : Lane) : Option Nat := none

/-- The limit operand in clk from issue; 0 is no limit (R165). -/
def limitAt (i : Nat) (s : State) (l : Lane) : Option Nat := if elemAt 32 0 (l.v i) = 0 then none else some (s.clk + elemAt 32 0 (l.v i))

/-- The value of an operand of the type's width. -/
def ofTy (ty : ElemTy) (v : W64) : W64 := if ElemTy.wide ty then v else lowCell v

/-- ATOM (R159, R160). -/
def execAtom (h : Hd) (ty : ElemTy) (d : Dst) (a b : Src) (op : AtomOp) (sc : Fin 8) (s : State) : Out :=
  atmWord { h := h, srcs := [.src a true, .src b (ElemTy.wide ty)], dst := Dest.ofDst d (ElemTy.wide ty), a := true, b := true } (atmSize ty) sc.val
    (fun l => .atom false op ty (ofTy ty (l.v 1))) noLimit s

/-- ARED (R159). -/
def execAred (h : Hd) (ty : ElemTy) (a b : Src) (op : AtomOp) (sc : Fin 8) (s : State) : Out :=
  atmWord { h := h, srcs := [.src a true, .src b (ElemTy.wide ty)], b := true } (atmSize ty) sc.val
    (fun l => .atom true op ty (ofTy ty (l.v 1))) noLimit s

/-- ACAS (R161). -/
def execAcas (h : Hd) (ty : ElemTy) (d : Dst) (a b c : Src) (sc : Fin 8) (s : State) : Out :=
  let wide := ElemTy.wide ty
  atmWord { h := h, srcs := [.src a true, .src b wide, .src c wide], dst := Dest.ofDst d wide, a := true, b := true } (atmSize ty) sc.val
    (fun l => .cas wide (l.v 1) (l.v 2)) noLimit s

/-- AWAIT (R165). -/
def execAwait (h : Hd) (ty : ElemTy) (d : Dst) (a b lim : Src) (cond : AwaitCond) (sc : Fin 8) (s : State) : Out :=
  let wide := ElemTy.wide ty
  atmWord { h := h, srcs := [.src a true, .src b wide, .src lim false], dst := Dest.ofDst d wide, a := true } (atmSize ty) sc.val
    (fun l => .await ty cond (ofTy ty (l.v 1))) (limitAt 2) s

/-- CNTDEC (R163). -/
def execCntdec (h : Hd) (a b : Src) (sc : Fin 8) (s : State) : Out :=
  atmWord { h := h, srcs := [.src a true, .src b false], b := true } 8 sc.val (fun l => .cntdec (word32 (l.v 1))) noLimit s

/-- BARARV (R164). -/
def execBararv (h : Hd) (d : Dst) (a b : Src) (sc : Fin 8) (s : State) : Out :=
  atmWord { h := h, srcs := [.src a true, .src b false], dst := Dest.ofDst d false, a := Dest.taken d, b := true } 8 sc.val
    (fun l => .bararv (word32 (l.v 1))) noLimit s

/-- BARWT (R165). -/
def execBarwt (h : Hd) (d : Dst) (a b lim : Src) (sc : Fin 8) (s : State) : Out :=
  atmWord { h := h, srcs := [.src a true, .src b false, .src lim false], dst := Dest.ofDst d false, a := true } 8 sc.val
    (fun l => .barwt (word32 (l.v 1))) (limitAt 2) s

/-- FENCE's conditions for one thread (R169): for a release, its accesses are performed; for an acquire, its acquiring operations have bound their values. -/
def fenceHolds (s : State) (k : FenceKind) (t : Thread) : Bool :=
  let mine := s.ops.filter (fun o => o.tid == t.id)
  let rel := s.released t
  let acq := mine.all (fun o => !o.acquire)
  match k with
  | .rel => rel
  | .acq => acq
  | .full => rel && acq

/-- FENCE (R169): it issues once its conditions hold in every executing member, and holds its pipe until then. -/
def execFence (h : Hd) (k : FenceKind) (_sc : Fin 8) (s : State) : Out :=
  withGrp s (fun g => match prepare { h := h } g s with
    | .done s' => s'
    | .go ls s' => if ls.all (fun l => fenceHolds s' k l.t) then finishWord s' g h else stallHold s g 9 0#64)

/-! ## Task instructions (R344 to R349) -/

/-- A word of the task instructions: ALIGN and the checks of the word, then the operand limits, then one operation per lane. -/
def taskWord (w : Spec) (align : Nat) (pre : Lane → Option (Nat × Nat × Nat × W64)) (op : Lane → WordOp) (s : State) : Out :=
  withGrp s (fun g => match prepare w g s with
    | .done s' => s'
    | .go ls s' =>
      let size := if align = 128 then 128 else 8
      let lim (l : Lane) : LaneRes := match pre l with
        | some (st, c, sub, a) => .bad st c sub a
        | none => .ok (.l1 0)
      let rs := ls.map (fun l => (l, [laneGlobal s' l.t.core l.t (wordAcc (l.v 0) size align), lim l]))
      checkLanes s s' g rs (finishWord (sendWord s' g w 8 2 rs op (fun _ => none)) g w.h))

/-- TSUBMIT (R345). -/
def execTsubmit (h : Hd) (a : Src) (s : State) : Out :=
  taskWord { h := h, srcs := [.src a true], b := true } 128 (fun _ => none) (fun _ => .submit none none) s

/-- TDEPADD (R346). -/
def execTdepadd (h : Hd) (d : Dst) (a b : Src) (s : State) : Out :=
  taskWord { h := h, srcs := [.src a true, .src b false], dst := Dest.ofDst d false, a := Dest.taken d, b := true } 8 (fun _ => none)
    (fun l => .depadd (word32 (l.v 1))) s

/-- TSIGNAL (R347); a vector above 65,535 takes PROT. -/
def execTsignal (h : Hd) (a b c : Src) (s : State) : Out :=
  taskWord { h := h, srcs := [.src a true, .src b true, .src c false], b := true } 8
    (fun l => if 65535 < elemAt 32 0 (l.v 2) then some (4, 0x07, 5, l.v 0) else none)
    (fun l => .signal (l.v 1) (word32 (l.v 2))) s

/-- CVSWAP (R349); a new entry with nonzero bits [2:0] or [63:48] takes PROT. -/
def execCvswap (h : Hd) (d : Dst) (a b : Src) (s : State) : Out :=
  taskWord { h := h, srcs := [.src a true, .src b true], dst := Dest.ofDst d true, a := true, b := true } 8
    (fun l => if (l.v 1).extractLsb' 0 3 != 0#3 || (l.v 1).extractLsb' 48 16 != 0#16 then some (4, 0x07, 5, l.v 0) else none)
    (fun l => .swap (l.v 1)) s

/-- TSELF's value (R348). -/
def tselfValue (s : State) (t : Thread) (sel : Nat) : W64 :=
  match s.task t.task with
  | none => 0#64
  | some k =>
    match sel with
    | 0 => k.recAddr
    | 1 => BitVec.ofNat 64 (ctlGangs k.ctl.toNat)
    | 2 => BitVec.ofNat 64 (ctlPrio k.ctl.toNat * 256 + ctlQueue k.ctl.toNat)
    | 3 => k.used
    | _ => BitVec.ofNat 64 k.seq

/-- TSELF (R348). -/
def execTself (h : Hd) (d : Dst) (sel : Fin 5) (s : State) : Out :=
  variableWord { h := h, dst := Dest.ofDst d true, a := true } (fun s _ l => (tselfValue s l.t sel.val, s)) s

end Sys2Proof.Machine
end

