-- ==== Sys2Proof/Machine/IntOps.lean ====
section
/-! DEFINITION. The INT, BIT and PRD groups (R197 to R209): fixed-latency A words. -/

namespace Sys2Proof.Machine

/-- A word with sources of its type and one destination of its type. -/
def typedSpec (h : Hd) (ty : ElemTy) (d : Dst) (srcs : List Opnd) : Spec := { h := h, srcs := srcs, dst := Dest.ofDst d (ElemTy.wide ty) }

/-- A source field read at the width of the type. -/
def Opnd.of (ty : ElemTy) (a : Src) : Opnd := .src a (ElemTy.wide ty)

/-- A source field read as one cell. -/
def Opnd.cell (a : Src) : Opnd := .src a false

def op2 (h : Hd) (ty : ElemTy) (d : Dst) (a : Src) (b : SrcI) (f : W64 → W64 → W64) (s : State) : Out :=
  fixedWord (typedSpec h ty d [Opnd.of ty a, Opnd.ofI ty b]) Config.latA (fun _ l => Res.val (f (l.v 0) (l.v 1))) s

def op1 (h : Hd) (ty : ElemTy) (d : Dst) (a : Src) (f : W64 → W64) (s : State) : Out :=
  fixedWord (typedSpec h ty d [Opnd.of ty a]) Config.latA (fun _ l => Res.val (f (l.v 0))) s

def op3 (h : Hd) (ty : ElemTy) (d : Dst) (a b c : Src) (f : W64 → W64 → W64 → W64) (s : State) : Out :=
  fixedWord (typedSpec h ty d [Opnd.of ty a, Opnd.of ty b, Opnd.of ty c]) Config.latA (fun _ l => Res.val (f (l.v 0) (l.v 1) (l.v 2))) s

/-- IADD (R201). -/
def execIadd (h : Hd) (ty : ElemTy) (d : Dst) (a : Src) (b : SrcI) (s : State) : Out := op2 h ty d a b (iadd ty) s

/-- ISUB (R201). -/
def execIsub (h : Hd) (ty : ElemTy) (d : Dst) (a : Src) (b : SrcI) (s : State) : Out := op2 h ty d a b (isub ty) s

/-- IMUL (R201). -/
def execImul (h : Hd) (ty : ElemTy) (d : Dst) (a : Src) (b : SrcI) (s : State) : Out := op2 h ty d a b (imul ty) s

/-- IMULHI (R201). -/
def execImulhi (h : Hd) (ty : ElemTy) (d : Dst) (a : Src) (b : SrcI) (s : State) : Out := op2 h ty d a b (imulhi ty) s

/-- IMIN (R201). -/
def execImin (h : Hd) (ty : ElemTy) (d : Dst) (a : Src) (b : SrcI) (s : State) : Out := op2 h ty d a b (imin ty) s

/-- IMAX (R201). -/
def execImax (h : Hd) (ty : ElemTy) (d : Dst) (a : Src) (b : SrcI) (s : State) : Out := op2 h ty d a b (imax ty) s

/-- IMAD (R201). -/
def execImad (h : Hd) (ty : ElemTy) (d : Dst) (a b c : Src) (s : State) : Out := op3 h ty d a b c (imad ty) s

/-- ICLAMP (R201). -/
def execIclamp (h : Hd) (ty : ElemTy) (d : Dst) (a lo hi : Src) (s : State) : Out := op3 h ty d a lo hi (iclamp ty) s

/-- IMADW: a and b are first cells, c is the 64-bit addend (R201). -/
def execImadw (h : Hd) (ty : ElemTy) (d : Dst) (a b c : Src) (s : State) : Out :=
  fixedWord (typedSpec h ty d [Opnd.cell a, Opnd.cell b, Opnd.of ty c]) Config.latA (fun _ l => Res.val (imadw ty (l.v 0) (l.v 1) (l.v 2))) s

/-- The value and the predicate of a carry word bind together (R202). -/
def carryWord (h : Hd) (ty : ElemTy) (d : Dst) (a b : Src) (cin : Pred) (cout : PName) (f : W64 → W64 → Bool → W64 × Bool) (s : State) : Out :=
  fixedWord { h := h, srcs := [Opnd.of ty a, Opnd.of ty b], ps := [cin], dst := { Dest.ofDst d (ElemTy.wide ty) with preds := [cout.val] } }
    Config.latA (fun _ l =>
      let r := f (l.v 0) (l.v 1) (evalPred l.t cin)
      { vals := [r.1], preds := [r.2], cvt := false }) s

/-- IADDC (R202). -/
def execIaddc (h : Hd) (ty : ElemTy) (d : Dst) (a b : Src) (cin : Pred) (cout : PName) (s : State) : Out :=
  carryWord h ty d a b cin cout (iaddc ty) s

/-- ISUBB (R202). -/
def execIsubb (h : Hd) (ty : ElemTy) (d : Dst) (a b : Src) (bin : Pred) (bout : PName) (s : State) : Out :=
  carryWord h ty d a b bin bout (isubb ty) s

/-- IABS (R201). -/
def execIabs (h : Hd) (ty : ElemTy) (d : Dst) (a : Src) (s : State) : Out := op1 h ty d a (iabs ty) s

/-- INEG (R201). -/
def execIneg (h : Hd) (ty : ElemTy) (d : Dst) (a : Src) (s : State) : Out := op1 h ty d a (ineg ty) s

/-- ISAD (R201). -/
def execIsad (h : Hd) (ty : ElemTy) (d : Dst) (a b c : Src) (s : State) : Out := op3 h ty d a b c (isad ty) s

/-- IDOT4 (R203). -/
def execIdot4 (h : Hd) (sa sb : Bool) (d : Dst) (a b c : Src) (s : State) : Out := op3 h .s32 d a b c (idot4 sa sb) s

/-- IDOT8: a signed nibble 0x8 sets FMTRSV.CVT at write-back (R203, R31). -/
def execIdot8 (h : Hd) (sa sb : Bool) (d : Dst) (a b c : Src) (s : State) : Out :=
  fixedWord (typedSpec h .s32 d [Opnd.cell a, Opnd.cell b, Opnd.cell c]) Config.latA (fun _ l =>
    let r := idot8 sa sb (l.v 0) (l.v 1) (l.v 2)
    { vals := [r.1], preds := [], cvt := r.2 }) s

/-- LEA (R204). -/
def execLea (h : Hd) (d : Dst) (a : Src) (b : LeaForm) (s : State) : Out :=
  match b with
  | .reg i sh sx =>
    fixedWord (typedSpec h .n64 d [Opnd.of .n64 a, Opnd.cell i]) Config.latA (fun _ l => Res.val (lea (l.v 0) (l.v 1) sh.val sx)) s
  | .imm v => fixedWord (typedSpec h .n64 d [Opnd.of .n64 a]) Config.latA (fun _ l => Res.val (l.v 0 + v.signExtend 64)) s

/-- AND (R206). -/
def execAnd (h : Hd) (ty : ElemTy) (d : Dst) (a : Src) (b : SrcI) (s : State) : Out := op2 h ty d a b (fun x y => x &&& y) s

/-- OR (R206). -/
def execOr (h : Hd) (ty : ElemTy) (d : Dst) (a : Src) (b : SrcI) (s : State) : Out := op2 h ty d a b (fun x y => x ||| y) s

/-- XOR (R206). -/
def execXor (h : Hd) (ty : ElemTy) (d : Dst) (a : Src) (b : SrcI) (s : State) : Out := op2 h ty d a b (fun x y => x ^^^ y) s

/-- SHL (R206). -/
def execShl (h : Hd) (ty : ElemTy) (d : Dst) (a : Src) (b : SrcI) (s : State) : Out := op2 h ty d a b (shl ty) s

/-- SHR (R206). -/
def execShr (h : Hd) (ty : ElemTy) (d : Dst) (a : Src) (b : SrcI) (s : State) : Out := op2 h ty d a b (shr ty) s

/-- SAR (R206). -/
def execSar (h : Hd) (ty : ElemTy) (d : Dst) (a : Src) (b : SrcI) (s : State) : Out := op2 h ty d a b (sar ty) s

/-- ROTL (R206). -/
def execRotl (h : Hd) (ty : ElemTy) (d : Dst) (a : Src) (b : SrcI) (s : State) : Out := op2 h ty d a b (rotl ty) s

/-- LOP3 (R206). -/
def execLop3 (h : Hd) (ty : ElemTy) (d : Dst) (a b c : Src) (lut : BitVec 8) (s : State) : Out := op3 h ty d a b c (lop3 ty lut) s

/-- FSHF (R206). -/
def execFshf (h : Hd) (ty : ElemTy) (clamp right : Bool) (d : Dst) (hi lo amt : Src) (s : State) : Out :=
  op3 h ty d hi lo amt (fshf clamp right) s

/-- A count, bound as one n32 cell (R206). -/
def countWord (h : Hd) (ty : ElemTy) (d : Dst) (a : Src) (f : W64 → W64) (s : State) : Out :=
  fixedWord { h := h, srcs := [Opnd.of ty a], dst := Dest.ofDst d false } Config.latA (fun _ l => Res.val (f (l.v 0))) s

/-- POPC (R206). -/
def execPopc (h : Hd) (ty : ElemTy) (d : Dst) (a : Src) (s : State) : Out := countWord h ty d a (popc ty) s

/-- CLZ (R206). -/
def execClz (h : Hd) (ty : ElemTy) (d : Dst) (a : Src) (s : State) : Out := countWord h ty d a (clz ty) s

/-- CTZ (R206). -/
def execCtz (h : Hd) (ty : ElemTy) (d : Dst) (a : Src) (s : State) : Out := countWord h ty d a (ctz ty) s

/-- BREV (R206). -/
def execBrev (h : Hd) (ty : ElemTy) (d : Dst) (a : Src) (s : State) : Out := op1 h ty d a (brev ty) s

/-- BFX: pos and len stand in the first cell of SB, or in IMM16 (R206). -/
def execBfx (h : Hd) (ty : ElemTy) (d : Dst) (a : Src) (pl : SrcI) (s : State) : Out :=
  let o : Opnd := match pl with
    | .reg r => Opnd.cell r
    | .imm v => .const (v.zeroExtend 64)
  fixedWord (typedSpec h ty d [Opnd.of ty a, o]) Config.latA (fun _ l => Res.val (bfx ty (l.v 0) (l.v 1))) s

/-- BFI (R206). -/
def execBfi (h : Hd) (ty : ElemTy) (d : Dst) (a pl c : Src) (s : State) : Out :=
  fixedWord (typedSpec h ty d [Opnd.of ty a, Opnd.cell pl, Opnd.of ty c]) Config.latA (fun _ l => Res.val (bfi ty (l.v 0) (l.v 1) (l.v 2))) s

/-- PERM (R206). -/
def execPerm (h : Hd) (d : Dst) (a b c : Src) (s : State) : Out := op3 h .b32 d a b c perm s

/-! ## PRD -/

/-- The combine of a comparison with SC (R208). -/
def combineWith (t : Thread) (r : Bool) : Combine → Bool
  | .none => r
  | .and p => r && evalPred t p
  | .or p => r || evalPred t p
  | .xor p => r != evalPred t p

def combinePreds : Combine → List Pred
  | .none => []
  | .and p | .or p | .xor p => [p]

/-- ISETP (R208). -/
def execIsetp (h : Hd) (ty : ElemTy) (d : PName) (a : Src) (f : IsetpForm) (s : State) : Out :=
  match f with
  | .reg b c m =>
    fixedWord { h := h, srcs := [Opnd.of ty a, Opnd.of ty b], ps := combinePreds m, dst := Dest.pred d } Config.latA
      (fun _ l => Res.pred (combineWith l.t (icompare ty c (l.v 0) (l.v 1)) m)) s
  | .imm v c =>
    fixedWord { h := h, srcs := [Opnd.of ty a, .const (immAs ty v)], dst := Dest.pred d } Config.latA
      (fun _ l => Res.pred (icompare ty c (l.v 0) (l.v 1))) s

/-- FSETP (R208). -/
def execFsetp (h : Hd) (ty : ElemTy) (d : PName) (a b : Src) (c : FCmp) (m : Combine) (s : State) : Out :=
  fixedWord { h := h, srcs := [Opnd.of ty a, Opnd.of ty b], ps := combinePreds m, dst := Dest.pred d } Config.latA
    (fun _ l => Res.pred (combineWith l.t (fcompare ty c (l.v 0) (l.v 1)) m)) s

/-- PLOP (R209). -/
def execPlop (h : Hd) (d : PName) (pa pb pc : Pred) (lut : BitVec 8) (s : State) : Out :=
  fixedWord { h := h, ps := [pa, pb, pc], dst := Dest.pred d } Config.latA
    (fun _ l => Res.pred (plop lut (evalPred l.t pa) (evalPred l.t pb) (evalPred l.t pc))) s

/-- SEL: both sources are read and counted (R209). -/
def execSel (h : Hd) (ty : ElemTy) (d : Dst) (a b : Src) (p : Pred) (s : State) : Out :=
  fixedWord { typedSpec h ty d [Opnd.of ty a, Opnd.of ty b] with ps := [p] } Config.latA
    (fun _ l => Res.val (if evalPred l.t p then l.v 0 else l.v 1)) s

/-- The eight predicates, p7 true (R209). -/
def predByte (t : Thread) : W64 := ofBits ((List.range 8).map (predVal t))

/-- P2V (R209). -/
def execP2v (h : Hd) (d : Dst) (s : State) : Out :=
  fixedWord { h := h, ps := (List.finRange 8).map (fun p => { neg := false, p := p }), dst := Dest.ofDst d false } Config.latA
    (fun _ l => Res.val (predByte l.t)) s

/-- V2P: each predicate that the mask selects, in one write per predicate (R209). -/
def execV2p (h : Hd) (a : Src) (m : SrcI) (s : State) : Out :=
  let o : Opnd := match m with
    | .reg r => Opnd.cell r
    | .imm v => .const (v.zeroExtend 64)
  withGrp s (fun g =>
    let w : Spec := { h := h, srcs := [Opnd.cell a, o] }
    match prepare w g s with
    | .done s => s
    | .go ls s =>
      let s := ls.foldl (fun s l =>
        let ps := (List.range 7).filter (fun i => (l.v 1).getLsbD i)
        bindFixed s g { Dest.none with preds := ps } Config.latA [(l, { vals := [], preds := ps.map (fun i => (l.v 0).getLsbD i), cvt := false })]) s
      finishWord s g h)

end Sys2Proof.Machine
end

