-- ==== Sys2Proof/Machine/CelOps.lean ====
section
/-! DEFINITION. The CEL group (R188 to R196): values and bindings. -/

namespace Sys2Proof.Machine

/-- MOV: TY decides only the width (R189). -/
def execMov (h : Hd) (ty : ElemTy) (d : Dst) (a : SrcI) (s : State) : Out :=
  fixedWord (typedSpec h ty d [Opnd.ofI ty a]) Config.latA (fun _ l => Res.val (l.v 0)) s

/-- A lane in which a word that changes the binding of SA fails (R190). -/
def bindFails (a : VName) (ok : Binding → Bool) (l : Lane) : Bool :=
  match lookupName l.t a.val with
  | some b => !ok b
  | none => true

/-- The change of the binding of SA in one thread. -/
def onBinding (a : VName) (f : Thread → Binding → Thread) (t : Thread) : Thread :=
  match lookupName t a.val with
  | some b => f t b
  | none => t

/-- A word that changes the binding of SA at issue, in no lane when it fails in one (R190). -/
def bindingWord (h : Hd) (a : VName) (ok : Binding → Bool) (f : Thread → Binding → Thread) (s : State) : Out :=
  actWord { h := h } (fun g ls s =>
    let bad := ls.filter (bindFails a ok)
    if !bad.isEmpty then wordTrap s g 0x04 3 (BitVec.ofNat 64 a.val) (bad.map (fun l => l.t.id)) (replaysOf ls)
    else finishWord (ls.foldl (fun s l => s.updThread l.t.id (onBinding a f)) s) g h) s

/-- DROP: n = 0 frees the binding whatever count remains (R191). -/
def execDrop (h : Hd) (a : VName) (n : BitVec 4) (s : State) : Out :=
  bindingWord h a (fun b => b.count != 15#4 && decide (n.toNat ≤ b.count.toNat))
    (fun t b => if n = 0#4 ∨ n = b.count then freeName t a.val else setName t a.val { b with count := b.count - n }) s

/-- KEEP (R192). -/
def execKeep (h : Hd) (a : VName) (n : BitVec 4) (s : State) : Out :=
  bindingWord h a (fun b => b.count != 15#4 && decide (b.count.toNat + n.toNat ≤ 14))
    (fun t b => setName t a.val { b with count := b.count + n }) s

/-- FREE (R193). -/
def execFree (h : Hd) (a : VName) (s : State) : Out :=
  bindingWord h a (fun b => b.count == 15#4) (fun t _ => freeName t a.val) s

/-- PAIR (R194). -/
def execPair (h : Hd) (ty : ElemTy) (d : Dst) (lo hi : Src) (s : State) : Out :=
  fixedWord (typedSpec h ty d [Opnd.cell lo, Opnd.cell hi]) Config.latA (fun _ l => Res.val (word32 (l.v 1) ++ word32 (l.v 0))) s

/-- SPLIT (R195). -/
def execSplit (h : Hd) (ty : ElemTy) (d : VName) (k : BitVec 4) (a : Src) (s : State) : Out :=
  fixedWord { h := h, srcs := [Opnd.of ty a], dst := { Dest.none with names := [(d.val, false), (d.val + 1, false)], rdc := k } } Config.latA
    (fun _ l => { vals := [lowCell (l.v 0), (l.v 0) >>> 32], preds := [], cvt := false }) s

/-- CELLQ's word about a binding (R196). -/
def cellWord (b : Binding) : W64 :=
  BitVec.ofNat 64 (b.count.toNat * 2 ^ 28 + (if b.pend.isSome then 2 ^ 27 else 0) + (if b.wide then 2 ^ 26 else 0))

/-- CELLQ (R196). Neither part of CELLQ.lane counts the cell that the word itself reserves for its result (DESIGN CHOICE, log entry 31). -/
def execCellq (h : Hd) (d : Dst) (f : CellqForm) (s : State) : Out :=
  let about (n : VName) (g : Binding → W64) (l : Lane) : Res := Res.val (match lookupName l.t n.val with
    | some b => g b
    | none => 0#64)
  let w : Spec := { h := h, dst := Dest.ofDst d false }
  match f with
  | .state n => fixedWord w Config.latA (fun _ l => about n cellWord l) s
  | .pcl n => fixedWord w Config.latA (fun _ l => about n (fun b => lowCell b.prod) l) s
  | .pch n => fixedWord w Config.latA (fun _ l => about n (fun b => (b.prod.extractLsb' 32 16).zeroExtend 64) l) s
  | .lane => fixedWord w Config.latA (fun _ l =>
      Res.val (BitVec.ofNat 64 (l.t.cells * 2 ^ 16 + s.poolFree l.t.core l.t.lane))) s

end Sys2Proof.Machine
end

