-- ==== Sys2Proof/Machine/CpyOps.lean ====
section
/-! DEFINITION. The CPY group (R126 to R144): per-lane copies, commands of the copy engine, and the window instructions. -/

namespace Sys2Proof.Machine

/-! ## CPY (R127, R128, R136) -/

def cpyBytes : CpySize → Nat
  | .b4 => 4
  | .b8 => 8
  | .b16 => 16

/-- The check of one side of a copy of `n` bytes. -/
def copySide (s : State) (t : Thread) (addr : W64) (n align : Nat) (stash write : Bool) : LaneRes :=
  if stash then laneStash s t addr n align
  else laneGlobal s t.core t { va := addr, size := n, align := align, rt := if write then rightsW else rightsR
                               modes := if write then modesCopyDst else modesCopySrc, word := false }

/-- The checks of one lane of CPY: source, destination, and a counted hint on a global destination (R130). -/
def cpyChecks (s : State) (hint : Hint) (n : Nat) (ssp dsp : Bool) (l : Lane) : List LaneRes :=
  [copySide s l.t (l.v 0) n n ssp false, copySide s l.t (l.v 1) n n dsp true,
   if hint == .counted && !dsp then .bad 4 0x07 5 (l.v 1) else .ok (.l1 0)]

def okAt (rs : List LaneRes) (i : Nat) : Target :=
  match rs[i]? with
  | some (.ok t) => t
  | _ => .l1 0

/-- One outstanding copy for the lanes of an issue; SETB counts up in each (R127, R136). -/
def issueCopy (s : State) (g : Grp) (hint : Hint) (lanes : List CopyLane) : State :=
  match lanes with
  | [] => s
  | l0 :: _ =>
    let fl := flagsOf s g false true
    let s := lanes.foldl (fun s l => countUp s l.tid fl) s
    let (issue, s) := s.fresh
    let (id, s) := s.fresh
    { s with ops := s.ops ++ [{ id := id, issue := issue, tid := l0.tid, core := g.core, ctx := g.ctx, pc := g.pc, va := l0.dva,
                                kind := .copy hint lanes, toks := [], seta := none, setb := fl.2, result := none, issuedAt := s.clk }] }

/-- CPY (R136). -/
def execCpy (h : Hd) (hint : Hint) (a b : Src) (size : CpySize) (ssp dsp : Bool) (s : State) : Out :=
  let n := cpyBytes size
  withGrp s (fun g => match prepare { h := h, srcs := [.src a true, .src b true], b := true } g s with
    | .done s' => s'
    | .go ls s' =>
      let rs := ls.map (fun l => (l, cpyChecks s' hint n ssp dsp l))
      checkLanes s s' g rs
        (let lane (p : LaneChecks) : CopyLane :=
           { tid := p.1.t.id, size := n, sva := p.1.v 0, src := okAt p.2 0, dva := p.1.v 1, dst := okAt p.2 1 }
         let touch (l : Lane) : List Touch :=
           [{ addr := l.v 0, size := n, stash := ssp, load := true, store := false }, { addr := l.v 1, size := n, stash := dsp, load := false, store := true }]
         finishWord (watchHits (issueCopy s' g hint (rs.map lane)) g (ls.map (fun l => (l.t, touch l)))) g h))

/-! ## Commands (R137, R138) -/

/-- The ring of a window of a thread's core. -/
def ringWin (s : State) (t : Thread) (w : Nat) : Option Ring := (ringAt s t w).map (fun p => p.1)

def hintOf (n : Nat) : Hint :=
  match n with
  | 0 => .plain
  | 1 => .stream
  | 2 => .keep
  | _ => .counted

/-- A command with what both kinds share. -/
def cmdBase (s : State) (g : Grp) (l : Lane) (ctr : Option W64) : CopyCmd :=
  { id := 0, tid := l.t.id, ctx := g.ctx, gang := l.t.gang, task := l.t.task, loop := false, src := l.v 0, dst := 0#64, stride := 0#64, len := 0,
    iters := 1, ssp := false, dsp := true, stat := false, tag := 0, ring := none, shn := .plain, dhn := .plain, ctr := ctr,
    setb := (flagsOf s g false true).2, pc := g.pc, issue := s.nextUid }

/-- CPYB's command, or none where a limit of R137 fails. -/
def cpybCmd (s : State) (g : Grp) (l : Lane) (ctr : Option W64) : Option CopyCmd :=
  let b := l.v 1
  let cw := elemAt 32 0 (l.v 2)
  let len := 16 * bitsAt cw 19 0
  let ssp := cw.testBit 27
  let dsp := cw.testBit 26
  let toRing := cw.testBit 24
  let win := bitsAt b.toNat 3 0
  let ok := (l.v 0).extractLsb' 0 4 == 0#4 && (match ctr with
    | some a => a.extractLsb' 0 3 == 0#3
    | none => true) && bitsAt cw 21 20 != 3
    && (if toRing then dsp && (match ringWin s l.t win with
        | some r => len == 256 * r.ss
        | none => false)
      else b.extractLsb' 0 4 == 0#4)
  if ok then
    let c := cmdBase s g l ctr
    let into : W64 := if toRing then 0#64 else b
    let ring : Option Nat := if toRing then some win else none
    some { c with dst := into, len := len, ssp := ssp, dsp := dsp, stat := cw.testBit 25, tag := bitsAt cw 31 28, ring := ring, shn := hintOf (bitsAt cw 23 22), dhn := hintOf (bitsAt cw 21 20) }
  else none

/-- CPLOOP's command, or none where a limit of R138 fails. -/
def cploopCmd (s : State) (g : Grp) (l : Lane) (ctr : Option W64) : Option CopyCmd :=
  let lw := elemAt 32 0 (l.v 1)
  let stride := (word32 (l.v 2)).signExtend 64
  let win := bitsAt lw 3 0
  match ringWin s l.t win with
  | none => none
  | some r =>
    if (l.v 0).extractLsb' 0 4 == 0#4 && (match ctr with
        | some a => a.extractLsb' 0 3 == 0#3
        | none => true) && bitsAt lw 31 16 != 0 && bitsAt lw 8 4 == 0 && stride.extractLsb' 0 4 == 0#4 then
      let c := cmdBase s g l ctr
      some { c with loop := true, stride := stride, len := 256 * r.ss, iters := bitsAt lw 31 16, stat := lw.testBit 11, tag := bitsAt lw 15 12, ring := some win, shn := hintOf (bitsAt lw 10 9) }
    else none

/-- A command whose bytes have all been performed, or that has none (R131, R137). -/
def CopyCmd.atEnd (c : CopyCmd) : CopyRun :=
  { cmd := c, prog := c.len, iter := c.iters - 1, stage := none, atEnd := true, waits := false, lines := [] }

/-- A command enters the queue, or is complete at once where it has no bytes (R126, R137). -/
def pushCmd (s : State) (core : Nat) (c : CopyCmd) : State :=
  let (id, s) := s.fresh
  let c := { c with id := id }
  s.updCore core (fun k => if c.len = 0 then { k with cprun := k.cprun ++ [c.atEnd] } else { k with cpq := k.cpq ++ [.cmd c] })

/-- A word that pushes commands: every limit is checked in every executing lane before any command is pushed. -/
def commandWord (h : Hd) (srcs : List Opnd) (ctr : Option Src) (mk : State → Grp → Lane → Option W64 → Option CopyCmd) (s : State) : Out :=
  let more : List Opnd := match ctr with
    | some c => [.src c true]
    | none => []
  let w : Spec := { h := h, srcs := srcs ++ more, dst := Dest.queue .cpc, b := true }
  withGrp s (fun g => match prepare w g s with
    | .done s' => s'
    | .go ls s' =>
      let cs := ls.map (fun l => (l, mk s' g l (ctr.map (fun _ => l.v 3))))
      checked s' g ls (fun l => if (cs.any (fun p => p.1.t.id == l.t.id && p.2.isNone)) then some (0, 0x07, 5, 0#64) else none)
        (finishWord ((cs.filterMap Prod.snd).foldl (fun s c => pushCmd (countUp s c.tid (none, c.setb)) g.core c) s') g h))

/-- CPYB (R137). -/
def execCpyb (h : Hd) (a b c : Src) (ctr : Option Src) (s : State) : Out :=
  commandWord h [.src a true, .src b true, .src c false] ctr cpybCmd s

/-- CPLOOP (R138). -/
def execCploop (h : Hd) (a b c : Src) (ctr : Option Src) (s : State) : Out :=
  commandWord h [.src a true, .src b false, .src c false] ctr cploopCmd s

/-! ## CPSTAT (R139) -/

/-- The commands of a thread that its core's engine holds. -/
def State.commandsOf (s : State) (t : Thread) : Nat :=
  let k := s.core t.core
  let mine (e : CpEntry) : Bool := match e with
    | .cmd c => c.tid == t.id
    | .raw .. => false
  (k.cpq.filter mine).length + (k.cpback.filter mine).length + (k.cprun.filter (fun r => r.cmd.tid == t.id)).length

def State.copiesOf (s : State) (t : Thread) : Bool := s.ops.any (fun o => o.tids.contains t.id && (match o.kind with
  | .copy .. => true
  | _ => false))

/-- The kind code of a window (R139). -/
def WinKind.code : WinKind → Nat
  | .absent => 0
  | .plain => 1
  | .mapped _ => 2
  | .ring _ => 3

/-- CPSTAT's word (R139). -/
def cpstatWord (s : State) (t : Thread) (sel : Nat) : Nat :=
  if sel = 0 then
    (if t.deferred.any (fun d => d.code == 0x0A) then 2 ^ 31 else 0) + t.cps.length * 2 ^ 16 + s.commandsOf t
  else if 0x10 ≤ sel ∧ sel < 0x20 then
    match ringWin s t (sel - 0x10) with
    | some r => r.filled * 2 ^ 24 + r.inuse * 2 ^ 16 + r.free * 2 ^ 8 + r.ns
    | none => 0
  else if 0x20 ≤ sel ∧ sel < 0x30 then
    match (s.gang t.gang).bind (fun g => g.window (t.core - g.base) (sel - 0x20)) with
    | some w => if w.kind == .absent then 0 else w.kind.code * 2 ^ 30 + w.fs * 2 ^ 16 + w.s
    | none => 0
  else 0

/-- CPSTAT (R139): with HN = 01 and selector 0 the value waits for the thread's commands and copies. -/
def execCpstat (h : Hd) (wait : Bool) (d : Dst) (sel : SrcI) (s : State) : Out :=
  let w : Spec := { h := h, srcs := [Opnd.index sel], dst := Dest.ofDst d false, a := true }
  withGrp s (fun g => match prepare w g s with
    | .done s' => s'
    | .go ls s' =>
      let kind (l : Lane) : OpKind :=
        if wait && elemAt 32 0 (l.v 0) == 0 then .cpwait else .value (BitVec.ofNat 64 (cpstatWord s' l.t (elemAt 32 0 (l.v 0))))
      finishWord (issueOps s' g w (ls.map (fun l => (l, { kind := kind l, va := 0#64 })))) g h)

/-! ## Windows (R114 to R125, R140 to R144) -/

/-- A window instruction (R114): it acts once, with the values of the lowest executing lane. The spec does not give the lane mask of its fault: every executing
lane is in it, since the word acts for all of them (DESIGN CHOICE, log entry 35). -/
def windowWord (w : Spec) (chk : State → Grp → Lane → Option (Nat × Nat × W64)) (act : State → Grp → Lane → List Lane → State) (s : State) : Out :=
  withGrp s (fun g => match prepare w g s with
    | .done s' => s'
    | .go [] s' => finishWord s' g w.h
    | .go (l :: ls) s' =>
      match chk s' g l with
      | some (code, sub, addr) => wordTrap s' g code sub addr ((l :: ls).map (fun l => l.t.id)) (replaysOf (l :: ls))
      | none => finishWord (act s' g l (l :: ls)) g w.h)

def prot5 : Option (Nat × Nat × W64) := some (0x07, 5, 0#64)

/-- The window of a lane's gang on its own core. -/
def ownWindow (s : State) (l : Lane) (w : Nat) : Option Window := (s.gang l.t.gang).bind (fun g => g.window (l.t.core - g.base) w)

/-- Ranges that a gang maps, and those of GMAPs in progress. -/
def mappedRanges (g : Gang) : List (Nat × Nat) :=
  g.windows.flatMap (fun l => l.filterMap (fun w => match w.kind with
    | .mapped m => some (m.base.toNat, 256 * m.ext)
    | _ => none)) ++ g.gmaps.map (fun r => (r.base.toNat, 256 * r.ext))

/-- GMAP's checks in the order of R140. -/
def gmapFault (s : State) (l : Lane) : Option (Nat × Nat × W64) :=
  let base := l.v 0
  let win := bitsAt (l.v 1).toNat 3 0
  let e := elemAt 32 0 (l.v 2)
  match s.gang l.t.gang, s.task l.t.task with
  | some g, some k =>
    if base.toNat % 256 != 0 then some (0x05, 3, base)
    else if e = 0 ∨ 2 ^ 24 < e then prot5
    else match g.window (l.t.core - g.base) win with
      | some { kind := .plain, .. } =>
        if g.gmaps.any (fun r => r.core == l.t.core && r.win == win) then prot5
        else if !regionOk k base.toNat (256 * e) [1, 2, 3, 5] then some (0x08, 3, base)
        else if (mappedRanges g).any (fun r => decide (r.1 < base.toNat + 256 * e) && decide (base.toNat < r.1 + r.2)) then some (0x07, 4, base)
        else none
      | _ => prot5
  | _, _ => prot5

/-- GMAP (R117, R140): checked at issue; the group waits at the word until GMAP_COMPLETION. -/
def execGmap (h : Hd) (a b c : Src) (s : State) : Out :=
  withGrp s (fun g =>
    if g.run.issued then
      if s.gangs.any (fun x => x.gmaps.any (fun r => r.core == g.core && g.mem.any (fun t => r.tids.contains t.id))) then stallHold s g 9 0#64 else finishWord s g h
    else match prepare { h := h, srcs := [.src a true, .src b false, .src c false] } g s with
      | .done s' => s'
      | .go [] s' => finishWord s' g h
      | .go (l :: ls) s' =>
        match gmapFault s' l with
        | some (code, sub, addr) => wordTrap s' g code sub addr ((l :: ls).map (fun l => l.t.id)) (replaysOf (l :: ls))
        | none =>
          let r : GmapReq := { core := g.core, win := bitsAt (l.v 1).toNat 3 0, tids := g.mem.map Thread.id, base := l.v 0, ext := elemAt 32 0 (l.v 2) }
          stallHold (markIssued (s'.updGang l.t.gang (fun x => { x with gmaps := x.gmaps ++ [r] })) g h) g 9 0#64)

/-- A window that must be mapped (R141), and a register value beyond the window numbers (R135). -/
def mappedFault (s : State) (l : Lane) : Option (Nat × Nat × W64) :=
  let v := elemAt 32 0 (l.v 0)
  if 15 < v then prot5
  else match ownWindow s l v with
    | some { kind := .mapped _, .. } => none
    | _ => prot5

/-- The write-back of a window becomes outstanding; SETB counts up in every executing lane (R141). -/
def issueWinWb (s : State) (g : Grp) (win : Nat) (unmap : Bool) (ls : List Lane) : State :=
  let fl := flagsOf s g false true
  let s := ls.foldl (fun s l => countUp s l.t.id fl) s
  let (id, s) := s.fresh
  let tids := ls.map (fun l => l.t.id)
  { s with ops := s.ops ++ [{ id := id, issue := id, tid := tids.headD 0, core := g.core, ctx := g.ctx, pc := g.pc, va := 0#64,
                              kind := .winWb g.core win unmap tids, toks := [], seta := none, setb := fl.2, result := none, issuedAt := s.clk }] }

/-- GUNMAP (R141). -/
def execGunmap (h : Hd) (w : SrcI) (s : State) : Out :=
  windowWord { h := h, srcs := [Opnd.index w], b := true } (fun s _ l => mappedFault s l)
    (fun s g l ls => issueWinWb s g (elemAt 32 0 (l.v 0)) true ls) s

/-- GFLUSH (R141). -/
def execGflush (h : Hd) (w : SrcI) (s : State) : Out :=
  windowWord { h := h, srcs := [Opnd.index w], b := true } (fun s _ l => mappedFault s l)
    (fun s g l ls => issueWinWb s g (elemAt 32 0 (l.v 0)) false ls) s

/-- GINV: every slot is invalidated and its dirty bytes are lost (R141), those too that an outstanding GFLUSH or GUNMAP has still to write (DESIGN CHOICE, log entry
67). -/
def execGinv (h : Hd) (w : SrcI) (s : State) : Out :=
  windowWord { h := h, srcs := [Opnd.index w] } (fun s _ l => mappedFault s l)
    (fun s g l _ => match s.gang l.t.gang with
      | none => s
      | some x => updWindow s x.id (g.core - x.base) (elemAt 32 0 (l.v 0)) (fun w => match w.kind with
        | .mapped m => { w with kind := .mapped { m with slots := m.slots.map (fun _ => { granule := none, dirty := 0#256 }) } }
        | _ => w)) s

/-- Rings of a core, over all gangs with seats on it (R142). The rings of a gang that is saved count as well, so that its restore finds room for them (DESIGN
CHOICE, log entry 35). -/
def ringsOn (s : State) (core : Nat) : Nat :=
  (s.gangs.map (fun g => if g.base ≤ core ∧ core < g.base + g.cores then ((g.windows.getD (core - g.base) []).filter (fun w => match w.kind with
    | .ring _ => true
    | _ => false)).length else 0)).sum

/-- A new ring (R121, R125): every stage is free and the pointers are zero. -/
def Ring.fresh (rc ss ns : Nat) : Ring := { rc := rc, ss := ss, stages := List.replicate ns .free, fptr := 0, pptr := 0, rptr := 0, holder := none }

/-- The stage count of a ring of `s` slots with stages of `ss` slots (R121). -/
def stageCount (s ss : Nat) : Nat := min 255 (s / ss)

/-- A GMAP of the window is in progress on the lane's core (R117). -/
def gmapOn (s : State) (l : Lane) (w : Nat) : Bool :=
  (s.gang l.t.gang).any (fun g => g.gmaps.any (fun r => r.core == l.t.core && r.win == w))

/-- RINGCFG's checks (R125, R135, R142). A window that a GMAP is making mapped is no longer free to become a ring: PROT, as a second GMAP of it takes
(DESIGN CHOICE, log entry 35). -/
def ringcfgFault (s : State) (l : Lane) : Option (Nat × Nat × W64) :=
  let v := elemAt 32 0 (l.v 0)
  if 65535 < v then prot5
  else match ownWindow s l (v % 16) with
    | some { kind := .plain, s := n, .. } => if stageCount n (bitsAt v 7 4 + 1) < 2 ∨ 8 ≤ ringsOn s l.t.core ∨ gmapOn s l (v % 16) then prot5 else none
    | _ => prot5

/-- Updates a window of a lane's own core. -/
def updOwn (s : State) (l : Lane) (w : Nat) (f : Window → Window) : State :=
  match s.gang l.t.gang with
  | none => s
  | some g => updWindow s g.id (l.t.core - g.base) w f

/-- RINGCFG (R142). -/
def execRingcfg (h : Hd) (w : SrcI) (s : State) : Out :=
  windowWord { h := h, srcs := [Opnd.index w] } (fun s _ l => ringcfgFault s l)
    (fun s _ l _ =>
      let v := elemAt 32 0 (l.v 0)
      updOwn s l (v % 16) (fun w => { w with kind := .ring (Ring.fresh (bitsAt v 15 8) (bitsAt v 7 4 + 1) (stageCount w.s (bitsAt v 7 4 + 1))) })) s

/-- A command of the engine fills the ring or waits on it (R129); one whose last fill is done does neither. -/
def ringNamed (s : State) (core gid win : Nat) : Bool :=
  let k := s.core core
  let hit (c : CopyCmd) : Bool := c.gang == gid && c.ring == some win
  let entry (e : CpEntry) : Bool := match e with
    | .cmd c => hit c
    | .raw .. => false
  k.cpq.any entry || k.cpback.any entry || k.cprun.any (fun r => hit r.cmd && !r.atEnd)

/-! ## The loop word (R256) -/

namespace LoopWord
def steps (w : W32) : Nat := bitsAt w.toNat 31 24 + 1
def rows (w : W32) : Nat := bitsAt w.toNat 23 18 + 1
def asrc (w : W32) : Nat := bitsAt w.toNat 17 16
def wsrc (w : W32) : Nat := bitsAt w.toNat 15 14
def wty (w : W32) : ElemTy := ElemTy.ofCode (w.extractLsb' 10 4)
def wm (w : W32) : Nat := bitsAt w.toNat 9 7
def za (w : W32) : Bool := w.getLsbD 2
def out (w : W32) : Bool := w.getLsbD 1
end LoopWord

/-- The unexited threads of the issuing row that receive a column (R247). -/
def drainThreads (s : State) (core : Nat) (l : Loop) : List Thread :=
  sortLanes ((rowThreads s core l.cmd.slot).filter (fun t => t.gang == l.cmd.gang && decide (t.lane < 64)))

/-- The last step of a draining loop begins only with room for every entry (R247). -/
def drainRoom (s : State) (core : Nat) (l : Loop) (word : W32) (mprog : Nat) : Bool :=
  !LoopWord.out word || decide (mprog + 1 < LoopWord.steps word)
    || (drainThreads s core l).all (fun t => decide (t.mxo.length + LoopWord.rows word ≤ Config.mxoLen))

/-- A thread's word or the array's loop waits to pop the ring (R129). A loop pops for a step only once the step's tile is whole in the active plane (R246), and for the last
step of a draining loop only with room in every mxo (R247). -/
def popWaits (s : State) (core gid win : Nat) : Bool :=
  s.threads.any (fun t => t.core == core && t.gang == gid && t.streamWait.any (fun p => p.2 == win))
  || (match (s.core core).array.loop with
    | some l =>
      l.cmd.gang == gid && !l.stopped && l.hold.isNone && (match l.cmd.kind with
        | .loop _ _ _ word _ =>
          let src := LoopWord.asrc word
          let a := (s.core core).array
          decide (a.mprog < LoopWord.steps word) && (match l.waitOn with
          | some w => w == win
          | none => drainRoom s core l word a.mprog && (if LoopWord.wsrc word = 0 then a.active.status == 2 else l.tileFor == some a.mprog) && (match s.row core l.cmd.slot with
            | some r => (src == 1 && r.st0 == some win) || (src == 2 && r.st1 == some win)
            | none => false))
        | _ => false)
    | none => false)

/-- An idle ring (R129). -/
def ringIdle (s : State) (core gid win : Nat) (r : Ring) : Bool :=
  r.stages.all (fun x => x == .free) && !ringNamed s core gid win && !popWaits s core gid win

/-- RINGCFG.off's checks (R135, R142). -/
def ringoffFault (s : State) (l : Lane) : Option (Nat × Nat × W64) :=
  let v := elemAt 32 0 (l.v 0)
  if 65535 < v then prot5
  else match ringWin s l.t (v % 16) with
    | some r => if ringIdle s l.t.core l.t.gang (v % 16) r then none else prot5
    | none => prot5

/-- RINGCFG.off: the window becomes plain and every stream binding to the ring is removed (R129, R142). -/
def execRingcfgOff (h : Hd) (w : SrcI) (s : State) : Out :=
  windowWord { h := h, srcs := [Opnd.index w] } (fun s _ l => ringoffFault s l)
    (fun s _ l _ =>
      let win := elemAt 32 0 (l.v 0) % 16
      let s := updOwn s l win (fun w => { w with kind := .plain })
      let unbind (o : Option Nat) : Option Nat := if o = some win then none else o
      let upd (r : Row) : Row := if r.core = l.t.core ∧ r.gang = l.t.gang then { r with st0 := unbind r.st0, st1 := unbind r.st1 } else r
      { s with rows := s.rows.map upd }) s

/-- RREL's checks (R143). -/
def rrelFault (s : State) (l : Lane) : Option (Nat × Nat × W64) :=
  let v := elemAt 32 0 (l.v 0)
  if 15 < v then prot5
  else match ringWin s l.t v with
    | some r => if r.inuse = 0 then prot5 else none
    | none => prot5

/-- RREL (R143). -/
def execRrel (h : Hd) (w : SrcI) (s : State) : Out :=
  windowWord { h := h, srcs := [Opnd.index w] } (fun s _ l => rrelFault s l)
    (fun s _ l _ => match s.gang l.t.gang with
      | none => s
      | some g => updRing s g.id (l.t.core - g.base) (elemAt 32 0 (l.v 0)) Ring.release) s

/-- The check of a row's bind word (R144): bits [31:16] of a register are none of its fields, and take PROT when they are not zero (DESIGN CHOICE, log entry 67). -/
def bindFault (s : State) (l : Lane) : Bool :=
  let v := elemAt 32 0 (l.v 0)
  decide (65535 < v) || bitsAt v 14 9 != 0 || bitsAt v 7 4 != 0 || (!v.testBit 15 && (ringWin s l.t (v % 16)).isNone)

/-- The lowest executing lane of each row. -/
def rowLeads (ls : List Lane) : List Lane :=
  (sortNats (dedupNats (ls.map (fun l => l.t.slot)))).filterMap (fun sl => ls.find? (fun l => l.t.slot == sl))

/-- STBIND (R144): once for each row with an executing member. -/
def execStbind (h : Hd) (w : SrcI) (s : State) : Out :=
  withGrp s (fun g => match prepare { h := h, srcs := [Opnd.index w] } g s with
    | .done s' => s'
    | .go ls s' =>
      let leads := rowLeads ls
      let badSlots := (leads.filter (bindFault s')).map (fun l => l.t.slot)
      checked s' g ls (fun l => if badSlots.contains l.t.slot then some (0, 0x07, 5, 0#64) else none)
        (finishWord (leads.foldl (fun s l =>
          let v := elemAt 32 0 (l.v 0)
          let b : Option Nat := if v.testBit 15 then none else some (v % 16)
          s.updRow l.t.core l.t.slot (fun r => if v.testBit 8 then { r with st1 := b } else { r with st0 := b })) s') g h))

end Sys2Proof.Machine
end

