-- ==== Sys2Proof/Machine/LadOps.lean ====
section
/-! DEFINITION. The ladder instructions of the TSK group (R364 to R369). -/

namespace Sys2Proof.Machine

/-- The ladder of a rung thread, with its place in it. -/
def ladderOf (s : State) (t : Thread) : Option (Ladder × Rung) :=
  match t.rung with
  | none => none
  | some r => match s.task r.task with
    | some k => k.ladder.map (fun l => (l, r))
    | none => none

def updLadder (s : State) (task : Nat) (f : Ladder → Ladder) : State := s.updTask task (fun k => { k with ladder := k.ladder.map f })

/-! ## LSTART (R365) -/

/-- The object's access: mode R, RW or SCR. -/
def objAcc (va : W64) : Acc := { va := va, size := 320, align := 128, rt := rightsR, modes := [1, 3, 5], word := false }

/-- The object's check. A mapped range and coupling do not change where the ladder unit reads it. -/
def objCheck (s : State) (l : Lane) : LaneRes := laneGlobal s l.t.core l.t (objAcc (l.v 1))

/-- LSTART (R365): both addresses are checked, the record with all its 320 bytes; the submission at the record's home writes LOBJ with L = 1. -/
def execLstart (h : Hd) (a b : Src) (s : State) : Out :=
  let w : Spec := { h := h, srcs := [.src a true, .src b true], b := true }
  withGrp s (fun g => match prepare w g s with
    | .done s' => s'
    | .go ls s' =>
      let rs := ls.map (fun l => (l, [laneGlobal s' l.t.core l.t (wordAcc (l.v 0) 320 128), objCheck s' l]))
      checkLanes s s' g rs (finishWord (sendWord s' g w 8 2 rs (fun l => .submit none (some (l.v 1))) (fun _ => none)) g h))

/-! ## LESC (R366) -/

/-- State cells that an escalation of a rung thread carries. -/
def escCells (s : State) (t : Thread) : Nat :=
  match ladderOf s t with
  | none => 0
  | some (l, r) => if r.rung + 1 < l.rungs.length then (match l.rungs[r.rung + 1]? with
      | some x => x.nst
      | none => 0) else 0

/-- Sub-code 1 in any executing thread comes before sub-code 3; the mask holds the lanes that fail that check. -/
def lescPre (s : State) (ex : List Thread) (sb : Option VName) (t : Thread) : Option (Nat × Nat × W64) :=
  if ex.any (fun u => u.rung.isNone) then (if t.rung.isNone then some (0x10, 1, itemOf t) else none)
  else
    let n := escCells s t
    if n = 0 then none
    else match sb with
      | none => some (0x10, 3, itemOf t)
      | some v => if 112 < v.val + n then some (0x10, 3, itemOf t) else none

/-- The state names that a thread reads, the first cell of each. -/
def lescNames (s : State) (sb : Option VName) (t : Thread) : List Opnd :=
  match sb with
  | none => []
  | some v => (List.range (escCells s t)).filterMap (fun i =>
      if hi : v.val + i < 112 then some (.src (.val ⟨v.val + i, hi⟩) false) else none)

/-- A hand-over frame (R353). -/
def frameCells (size : Nat) (item : W32) (from' flags conf : Nat) (seq : W32) (st : List W32) : List W32 :=
  let head : List W32 := [item, BitVec.ofNat 32 (from' * 2 ^ 24 + flags * 2 ^ 16 + conf), seq, BitVec.ofNat 32 st.length]
  (head ++ st ++ List.replicate size 0#32).take size

/-- One escalation: the next arrival number and its frame write, or the unresolved result at the top rung. -/
def escalate (s : State) (l : Lane) : State :=
  match ladderOf s l.t with
  | none => s
  | some (ld, r) =>
    let w := elemAt 32 0 (l.v 0)
    if r.rung + 1 < ld.rungs.length then
      let k := r.rung + 1
      let j := match ld.rungs[k]? with
        | some x => x.numbered
        | none => 0
      let cells := frameCells (ld.fsz / 4) r.item r.rung (bitsAt w 23 16) (bitsAt w 15 0) (BitVec.ofNat 32 j) ((l.vals.drop 1).map word32)
      updLadder s r.task (fun x => { x with
        rungs := x.rungs.modify k (fun u => { u with numbered := u.numbered + 1 })
        writes := x.writes ++ [.frame x.nextWr k j cells (some l.t.id)]
        nextWr := x.nextWr + 1 })
    else
      let v : W64 := BitVec.ofNat 64 (2 ^ 63 + 2 ^ 62 + r.rung * 2 ^ 59 + w)
      updLadder s r.task (fun x => { x with
        writes := x.writes ++ [.result x.nextWr r.item.toNat v (some l.t.id)], nextWr := x.nextWr + 1 })

/-- LESC (R366). -/
def execLesc (h : Hd) (a : Src) (sb : Option VName) (s : State) : Out :=
  withGrp s (fun g =>
    let ex := executing g h
    match prepare { h := h, srcs := [.src a false], pre := lescPre s ex sb, extra := lescNames s sb } g s with
    | .done s' => s'
    | .go ls s' =>
      checked s' g ls (fun l => if bitsAt (elemAt 32 0 (l.v 0)) 31 24 != 0 then some (0, 0x10, 2, itemOf l.t) else none)
        (let s' := ls.foldl escalate s'
         finishWith (ls.foldl (fun s l => exitThread s l.t.id) s') g h (fun _ => g.clause.fall)))

/-! ## LRES (R367) -/

def lresPre (s : State) (t : Thread) : Option (Nat × Nat × W64) :=
  match ladderOf s t with
  | none => some (0x10, 1, itemOf t)
  | some (l, r) => if (match l.rungs[r.rung]? with
      | some x => x.escOnly
      | none => false) then some (0x10, 4, itemOf t) else none

def resolve (s : State) (l : Lane) : State :=
  match l.t.rung with
  | none => s
  | some r =>
    let v : W64 := BitVec.ofNat 64 (2 ^ 63 + r.rung * 2 ^ 59 + elemAt 32 0 (l.v 0))
    updLadder s r.task (fun x => { x with
      writes := x.writes ++ [.result x.nextWr r.item.toNat v (some l.t.id)], nextWr := x.nextWr + 1 })

/-- LRES (R367). -/
def execLres (h : Hd) (a : Src) (s : State) : Out :=
  withGrp s (fun g => match prepare { h := h, srcs := [.src a false], pre := lresPre s } g s with
    | .done s' => s'
    | .go ls s' =>
      let s' := ls.foldl resolve s'
      finishWith (ls.foldl (fun s l => exitThread s l.t.id) s') g h (fun _ => g.clause.fall))

/-! ## LFRAME and LSTAT (R368, R369) -/

/-- A cell of the hand-over frame of a rung thread (R368). -/
def frameCell (t : Thread) (i : Nat) : W64 :=
  match t.rung with
  | some r => (r.frame.getD i 0#32).zeroExtend 64
  | none => 0#64

/-- LFRAME's checks: a rung thread, and a cell below FSZ / 4. -/
def lframePre (i : Nat) (t : Thread) : Option (Nat × Nat × W64) :=
  match t.rung with
  | none => some (0x10, 1, itemOf t)
  | some r => if r.frame.length ≤ i then some (0x10, 7, itemOf t) else none

/-- LFRAME (R368). -/
def execLframe (h : Hd) (d : Dst) (i : Fin 32) (s : State) : Out :=
  variableWord { h := h, dst := Dest.ofDst d false, a := true, pre := lframePre i.val }
    (fun s _ l => (frameCell l.t i.val, s)) s

/-- LSTAT's value (R369). -/
def lstatValue (s : State) (t : Thread) (sel : Nat) : W64 :=
  match ladderOf s t with
  | none => 0#64
  | some (l, r) =>
    match sel with
    | 0 => l.obj
    | 1 => BitVec.ofNat 64 (l.rungs.length * 256 + r.rung)
    | 2 => BitVec.ofNat 64 l.n
    | 3 => l.user
    | 4 => BitVec.ofNat 64 l.watermark
    | 5 => r.seq.zeroExtend 64
    | _ => match l.rungs[r.rung]? with
      | some x => BitVec.ofNat 64 (x.arr * 2 ^ 32 + x.taken)
      | none => 0#64

def lstatPre (t : Thread) : Option (Nat × Nat × W64) := if t.rung.isNone then some (0x10, 1, itemOf t) else none

/-- LSTAT (R369). -/
def execLstat (h : Hd) (d : Dst) (sel : Fin 7) (s : State) : Out :=
  variableWord { h := h, dst := Dest.ofDst d true, a := true, pre := lstatPre } (fun s _ l => (lstatValue s l.t sel.val, s)) s

end Sys2Proof.Machine
end

