-- ==== Sys2Proof/Machine/MtxMath.lean ====
section
/-! DEFINITION. The arithmetic of the matrix array: pairings (R239), weight tiles and activation rows (R236, R237), the sums of a K-step (R46 to R49), and the
epilogue (R248). -/

namespace Sys2Proof.Machine

/-! ## Pairings (R239) -/

def narrowAct (a : ElemTy) : Bool := a == .e4m3 || a == .e5m2 || a == .s8 || a == .i4s

/-- Whether weights `w` and activations `a` pair: none, or whether the accumulators are s32. -/
def pairing (w a : ElemTy) : Option Bool :=
  match w with
  | .e4m3 | .e5m2 | .bfp => if narrowAct a then some false else none
  | .s8 | .i4s => if narrowAct a then some (a == .s8 || a == .i4s) else none
  | .bf16 => if a == .bf16 then some false else none
  | .f16 => if a == .f16 then some false else none
  | _ => none

/-- The offset at which activation row `m` enters (R239). -/
def entryOff (w : ElemTy) (wm m : Nat) : Nat :=
  match w with
  | .bf16 | .f16 => 4 * m
  | .i4s => m / 2
  | .bfp => if wm = 1 then m / 4 else if wm ≤ 3 then m / 2 else m
  | _ => m

/-! ## Tiles and panels -/

/-- Bytes of a weight tile (R236). -/
def tileBytes (w : ElemTy) (wm : Nat) : Nat :=
  match w with
  | .bf16 | .f16 => 24576
  | .i4s => 6144
  | .bfp => (384 + blocksPerLine (wm + 1) - 1) / blocksPerLine (wm + 1) * 256
  | _ => 12288

/-- Bytes of one activation row (R237). -/
def rowBytes (a : ElemTy) : Nat :=
  match a with
  | .i4s => 96
  | .bf16 | .f16 => 384
  | _ => 192

def lineAt (l : List Line) (i : Nat) : Line := l.getD i 0#1024

/-- The raw bits of weight (k, n): a code of the type, or a mantissa of width w for bfp (R236, R44). -/
def weightBits (p : Plane) (k n : Nat) : Nat :=
  let i := k * 64 + n
  match p.ty with
  | .bf16 | .f16 => LineOps.get (lineAt p.data (i / 64)) (2 * i % 128) 2
  | .i4s => LineOps.get (lineAt p.data (i / 256)) (i / 2 % 128) 1 / 16 ^ (i % 2) % 16
  | .bfp =>
    let w := p.wm + 1
    let g := 6 * n + k / 32
    (lineAt p.data (2 * (g / blocksPerLine w))).toNat / 2 ^ (32 * w * (g % blocksPerLine w) + w * (k % 32)) % 2 ^ w
  | _ => LineOps.get (lineAt p.data (i / 128)) (i % 128) 1

/-- The scale pattern of block b of column n of a bfp tile (R236, R45). -/
def weightScale (p : Plane) (b n : Nat) : Nat :=
  let w := p.wm + 1
  let g := 6 * n + b
  LineOps.get (lineAt p.data (2 * (g / blocksPerLine w) + 1)) (2 * (g % blocksPerLine w)) 2

/-- The raw bits of element k of an activation row, given as a number (R237). -/
def actBits (a : ElemTy) (row k : Nat) : Nat := row / 2 ^ (a.bits * k) % 2 ^ a.bits

/-- The value of an element of a narrow or 16-bit type. -/
def elemVal (t : ElemTy) (v : Nat) : FVal := (cvtDecode t v).1

/-- The value of a weight as it enters the sum: for bfp its mantissa (R46), and +0 in a zero block, whatever its mantissa bits (R42). -/
def weightVal (p : Plane) (k n : Nat) : FVal :=
  if p.ty == .bfp then (match blockKind (weightScale p (k / 32) n) (p.wm + 1) with
    | .zero => .fin false 0 0
    | _ => FVal.ofInt false (asInt true (p.wm + 1) (weightBits p k n)) 0)
  else elemVal p.ty (weightBits p k n)

def toF32 (v : FVal) : Nat := Fmt.f32.encode .rne false v
def ofF32 (v : Nat) : FVal := Fmt.f32.decode v

/-- One block of R46: rows 32b to 32b + 31 of column n. Where the activations of a zero bfp block hold a NaN, or an infinity, R47 gives NaN in its first bullet and +0 in
its last, with no order between them: the model takes NaN (DESIGN CHOICE, log entry 54). -/
def blockSum (p : Plane) (a : ElemTy) (row b n : Nat) : Nat :=
  let t := toF32 (sumExact ((List.range 32).map (fun i => FVal.mul (elemVal a (actBits a row (32 * b + i))) (weightVal p (32 * b + i) n))))
  if p.ty == .bfp then
    match blockKind (weightScale p b n) (p.wm + 1) with
    | .nan => Fmt.f32.nan
    | .zero => if (ofF32 t).isNan then Fmt.f32.nan else 0
    | .fin s => toF32 (FVal.mul (ofF32 t) s)
  else t

def accAdd (acc t : Nat) : Nat := toF32 (FVal.add .rne (ofF32 acc) (ofF32 t))

/-- The new accumulator word (m, n) after one K-step (R46, R48, R49). -/
def stepWord (p : Plane) (a : ElemTy) (kind32 : Bool) (row n acc : Nat) : Nat :=
  if a == .bf16 || a == .f16 then
    (List.range 192).foldl (fun acc k => toF32 (FVal.fma .rne (elemVal a (actBits a row k)) (weightVal p k n) (ofF32 acc))) acc
  else if kind32 then
    let int (t : ElemTy) (v : Nat) : Int := if t == .i4s then i4sVal v else asInt true 8 v
    let sum := (List.range 192).foldl (fun z k => z + int a (actBits a row k) * int p.ty (weightBits p k n)) (0 : Int)
    wrapNat 32 (acc + sum)
  else (List.range 6).foldl (fun acc b => accAdd acc (blockSum p a row b n)) acc

/-- A row of accumulators after one K-step. -/
def stepRow (p : Plane) (a : ElemTy) (kind32 : Bool) (row : Nat) (acc : BitVec 2048) : BitVec 2048 :=
  BitVec.ofNat 2048 ((List.range 64).foldr (fun n r => r * 2 ^ 32 + stepWord p a kind32 row n (acc.toNat / 2 ^ (32 * n) % 2 ^ 32)) 0)

/-- An i4s code 0x8 among the weights or the activations of a step (R239). -/
def stepMarks (p : Plane) (a : ElemTy) (rows : List Nat) : Bool :=
  (a == .i4s && rows.any (fun r => (List.range 192).any (fun k => actBits .i4s r k == 8)))
  || (p.ty == .i4s && (List.range 12288).any (fun i => weightBits p (i / 64) (i % 64) == 8))

/-! ## Epilogue (R248, R260) -/

def Epi.oty (e : Epi) : ElemTy := ElemTy.ofCode (e.word.extractLsb' 24 4)

/-- The result of accumulator word (m, n) as an f32 pattern, or raw s32 bits where `raw`. -/
def epiWord (e : Epi) (kind32 : Bool) (n acc : Nat) : Nat × Bool :=
  let scl := e.word.getLsbD 3
  let bias := e.word.getLsbD 4
  let act := e.word.extractLsb' 0 3 != 0#3
  let any := scl || bias || act
  if kind32 && !any then (acc, true)
  else
    let y := if kind32 then toF32 (FVal.ofInt false (asInt true 32 acc) 0) else acc
    let y := if scl then toF32 (FVal.mul (ofF32 y) (ofF32 e.scale.toNat)) else y
    let y := if bias then toF32 (FVal.add .rne (ofF32 y) (ofF32 (e.bias.getD n 0#32).toNat)) else y
    let y := if act then fminmax true true Fmt.f32 y 0 else y
    (y, false)

/-- MDRAIN's result in the output type (R248). -/
def drainWord (e : Epi) (kind32 : Bool) (n acc : Nat) : Nat :=
  let (y, raw) := epiWord e kind32 n acc
  cvtEncode e.oty .rne (e.word.getLsbD 8 && !cvtExact (if raw then .s32 else .f32) e.oty) (if raw then FVal.ofInt false (asInt true 32 y) 0 else ofF32 y)

def accWord (row : BitVec 2048) (n : Nat) : Nat := row.toNat / 2 ^ (32 * n) % 2 ^ 32

end Sys2Proof.Machine
end

