-- ==== Sys2Proof/Machine/SysOps.lean ====
section
/-! DEFINITION. The SYS group (R384 to R391, R395): system registers, TRAP and ERET, ICINV, PPOLL and BKPT. -/

namespace Sys2Proof.Machine

/-- TRAP: the group traps even when no lane executes; EPC names the next word, or the next clause's header (R388). -/
def execTrap (h : Hd) (code : BitVec 16) (s : State) : Out :=
  actWord { h := h } (fun g ls s =>
    takeTrap s g.core g.mem
      { code := 0x0B, sub := code.toNat % 256, addr := code.zeroExtend 64, mask := ls.map (fun l => l.t.id)
        epc := if g.clause.isLast then g.clause.fall else g.clause.next.pc
        back := if g.clause.isLast then none else some g.clause.next
        defer := false, src := 0 } []) s

/-- ERET (R381): PROT outside a handler; the executing threads return, the others go on at the next clause. -/
def execEret (h : Hd) (s : State) : Out :=
  actWord { h := h } (fun g ls s =>
    checked s g ls (fun l => if l.t.trap.th then none else some (0, 0x07, 10, 0#64))
      (let ids := ls.map (fun l => l.t.id)
       let s := ids.foldl (fun s id => (leaveTable s g.core id).updThread id (fun t => { t with prevEnd := some (s.clk, g.pc) })) s
       let s := finishWith s g h (fun _ => g.clause.fall)
       returnFrom s g.core g.ctx ids)) s

/-! ## System registers -/

/-- FLTINFO (R386). -/
def TrapRegs.info (r : TrapRegs) : W64 :=
  0#16 ++ r.ord ++ 0#8 ++ BitVec.ofNat 3 r.src ++ BitVec.ofBool r.th ++ BitVec.ofBool r.hdr ++ BitVec.ofBool r.rpl ++ BitVec.ofBool r.defer
    ++ BitVec.ofBool r.inmask ++ BitVec.ofNat 8 r.sub ++ BitVec.ofNat 8 r.code

/-- MSTATE (R252). -/
def MtxArray.state (a : MtxArray) : W64 :=
  let (fcode, arr, rsv) := match a.loop with
    | some l => (l.fcode, if l.stopped then 2 else 1, l.mark)
    | none => (0, 0, false)
  let plane (p : Plane) : BitVec 9 := BitVec.ofNat 2 p.status ++ (if p.status = 0 then 0#7 else p.ty.code ++ BitVec.ofNat 3 p.wm)
  0#24 ++ BitVec.ofNat 8 fcode ++ BitVec.ofNat 2 arr ++ BitVec.ofBool a.s32acc ++ BitVec.ofBool rsv ++ plane a.active ++ plane a.shadow
    ++ BitVec.ofNat 3 a.queue.length ++ 0#7

/-- A system register as a thread reads it (R384). -/
def sysRead (s : State) (t : Thread) (i : Nat) : W64 :=
  let c := s.ctx t.ctx
  let a := (s.core t.core).array
  let held := a.gang == some t.gang
  match i with
  | 0x00 => Config.geom
  | 0x01 => Config.stepping
  | 0x02 => BitVec.ofNat 64 s.clk
  | 0x03 => c.promise.zeroExtend 64
  | 0x04 => c.fairlim.zeroExtend 64
  | 0x05 => c.yieldspan.zeroExtend 64
  | 0x06 => (BitVec.ofNat 12 c.cellcap).zeroExtend 64
  | 0x07 => 0#32 ++ BitVec.ofNat 16 (c.cellcap - s.ctxCells t.core t.lane t.ctx) ++ BitVec.ofNat 16 (s.poolFree t.core t.lane)
  | 0x08 => c.spillcnt
  | 0x09 => if held then (BitVec.ofNat 9 a.mprog).zeroExtend 64 else 0#64
  | 0x0A => if held then a.state else 0#64
  | 0x0B => t.trap.info
  | 0x0C => t.trap.addr
  | 0x0D => t.trap.lanes
  | 0x0E => 0#57 ++ BitVec.ofBool (s.priv t.ctx) ++ BitVec.ofNat 6 t.ctx
  | 0x0F => if s.ilk t.ctx then 1#64 else 0#64
  | 0x10 => c.seed
  | 0x11 => t.draw
  | 0x12 => c.dropleak
  | 0x13 => c.fmtrsv.zeroExtend 64
  | 0x14 | 0x15 | 0x16 | 0x17 => c.watch.getD (i - 0x14) 0#64
  | 0x18 => c.notchlim.zeroExtend 64
  | 0x19 => t.trap.epc
  | 0x1A => c.trapvec
  | 0x1B => t.trap.lanesH
  | _ => 0#64

/-- The registers whose SYSWR is privileged (R384). -/
def sysPrivileged (i : Nat) : Bool := i == 0x03 || i == 0x04 || i == 0x05 || i == 0x06 || i == 0x18

/-- A write of one lane (R389); the limits of each field are those of its register (R187, R304, R31, R396, R386). -/
def sysWrite (s : State) (t : Thread) (i : Nat) (v : W64) : State :=
  let upd (f : Context → Context) : State := s.updCtx t.ctx f
  match i with
  | 0x03 => upd (fun c => { c with promise := v.extractLsb' 0 3 })
  | 0x04 => upd (fun c => { c with fairlim := BitVec.ofNat 16 (max 16 (v.extractLsb' 0 16).toNat) })
  | 0x05 => upd (fun c => { c with yieldspan := v.extractLsb' 0 16 })
  | 0x06 => upd (fun c => { c with cellcap := min Config.cellsPerLane (max 8 (v.extractLsb' 0 12).toNat) })
  | 0x08 => upd (fun c => { c with spillcnt := v })
  | 0x10 => upd (fun c => { c with seed := v })
  | 0x11 => s.updThread t.id (fun t => { t with draw := v })
  | 0x12 => upd (fun c => { c with dropleak := v })
  | 0x13 => clearFmtrsv s t.ctx t.id (v.extractLsb' 0 2)
  | 0x14 | 0x15 | 0x16 | 0x17 => upd (fun c => { c with watch := (List.range 4).map (fun k =>
      if k + 0x14 = i then v &&& 0xFFC0FFFFFFFFFFFF#64 else c.watch.getD k 0#64) })
  | 0x18 => upd (fun c => { c with notchlim := v.extractLsb' 0 32 })
  | 0x19 => s.updThread t.id (fun t => { t with trap := { t.trap with epc := v, hdr := true, rpl := false }, faultAt := none, replay := none })
  | 0x1A => upd (fun c => { c with trapvec := v })
  | _ => s

/-- R31: an access to FMTRSV waits for the write-back of the thread's decoding conversions. -/
def convWaits (ls : List Lane) (i : Nat) : Bool :=
  ls.any (fun l => elemAt 32 0 (l.v i) == 0x13 && l.t.flight.any (fun f => f.cvt))

/-- SYSRD (R389). CELLFREE is read before the cells of the word's own results are taken (DESIGN CHOICE, log entry 31). -/
def execSysrd (h : Hd) (wide : Bool) (d : Dst) (i : SrcI) (s : State) : Out :=
  withGrp s (fun g =>
    let w : Spec := { h := h, srcs := [Opnd.index i], dst := Dest.ofDst d wide, a := true }
    match prepare w g s with
    | .done s => s
    | .go ls s' =>
      if convWaits ls 0 then stallHold s g 1 0#64
      else checked s' g ls (fun l => if 0x1B < elemAt 32 0 (l.v 0) then some (0, 0x07, 5, 0#64) else none)
        (finishWord (issueOps s' g w (ls.map (fun l => (l, { kind := .value (sysRead s' l.t (elemAt 32 0 (l.v 0))), va := 0#64 })))) g h))

/-- The checks of SYSWR, one PROT for all lanes with the sub-code of the lowest failing lane (R386, R389). -/
def sysFault (s : State) (l : Lane) : Option (Nat × Nat × Nat × W64) :=
  let i := elemAt 32 0 (l.v 1)
  if 0x1B < i then some (0, 0x07, 5, 0#64)
  else if sysPrivileged i && !s.priv l.t.ctx then some (0, 0x07, 7, 0#64)
  else if (i == 0x19 || i == 0x1A) && ((l.v 0).extractLsb' 48 16 != 0#16 || (l.v 0).extractLsb' 0 3 != 0#3) then some (0, 0x07, 5, 0#64)
  else none

/-- SYSWR (R389). -/
def execSyswr (h : Hd) (wide : Bool) (a : Src) (i : SrcI) (s : State) : Out :=
  withGrp s (fun g =>
    match prepare { h := h, srcs := [.src a wide, Opnd.index i] } g s with
    | .done s => s
    | .go ls s' =>
      if convWaits ls 1 then stallHold s g 1 0#64
      else checked s' g ls (sysFault s')
        (finishWord (ls.foldl (fun s l => sysWrite s l.t (elemAt 32 0 (l.v 1)) (if wide then l.v 0 else lowCell (l.v 0))) s') g h))

/-- ICINV (R390). -/
def execIcinv (h : Hd) (r : Option (Src × Src)) (s : State) : Out :=
  match r with
  | none => actWord { h := h } (fun g ls s =>
      let s := if ls.isEmpty then s else s.updCore g.core (fun k => { k with icache := [] })
      finishWord s g h) s
  | some (a, b) => actWord { h := h, srcs := [.src a true, .src b false] } (fun g ls s =>
      let hit (x : ILine) : Bool := ls.any (fun l =>
        let n := elemAt 32 0 (l.v 1)
        n != 0 && x.within g.ctx (l.v 0).toNat n)
      let s' := s.updCore g.core (fun k => { k with icache := k.icache.filter (fun x => !hit x) })
      finishWord s' g h) s

/-- PPOLL's word (R391). -/
def ppollWord (s : State) (c : Nat) : W64 :=
  let x := s.ctx c
  match x.preempt with
  | none => 0xFFFFFF00#64
  | some k =>
    let lim := x.notchlim.toNat
    let left := (k + lim - s.clk) / 256
    BitVec.ofNat 64 ((if lim = 0 then 0xFFFFFF else min left 0xFFFFFF) * 256 + 1)

/-- PPOLL (R391). -/
def execPpoll (h : Hd) (d : Dst) (s : State) : Out :=
  variableWord { h := h, dst := Dest.ofDst d false, a := true } (fun s _ l => (ppollWord s l.t.ctx, s)) s

/-- BKPT: pending stop reason 1 and the tag, while the context holds a debug grant (R393, R395). -/
def execBkpt (h : Hd) (tag : BitVec 16) (s : State) : Out :=
  actWord { h := h } (fun g ls s =>
    let s' := if grantActive s g.ctx then
        ls.foldl (fun s l => s.updThread l.t.id (fun t => { t with stops := t.stops ||| 2#8, tag := tag })) s
      else s
    finishWord s' g h) s

end Sys2Proof.Machine
end

