-- ==== Sys2Proof/Machine/MtxOps.lean ====
section
/-! DEFINITION. The MTX group (R240, R253 to R262): the words that push commands, the two words that act on a stopped loop, MWAIT and MSTAT. -/

namespace Sys2Proof.Machine

/-! ## Pushing a command (R240) -/

/-- The pushers of a row's command. -/
def pushersOf (ls : List Lane) (slot : Nat) : List Lane := ls.filter (fun l => l.t.slot == slot)

/-- One command enters the queue for the row of `lead`; each pusher counts SETB up. -/
def pushMtx (s : State) (g : Grp) (lead : Lane) (ps : List Lane) (kind : MtxKind) : State :=
  let fl := flagsOf s g false true
  let s := ps.foldl (fun s l => countUp s l.t.id fl) s
  let (id, s) := s.fresh
  let cmd : MtxCmd := { id := id, kind := kind, slot := lead.t.slot, gang := lead.t.gang, task := lead.t.task, ctx := lead.t.ctx,
                        pushers := ps.map (fun l => (l.t.id, fl.2)), pend := [], pc := g.pc }
  s.updCore g.core (fun k => { k with array := { k.array with queue := k.array.queue ++ [cmd] } })

/-- A command word: the checks of every row's command, ALIGN before PROT, then one command per row in ascending slot order. -/
def pushWord (w : Spec) (chk : Lane → Option (Nat × Nat × Nat × W64)) (mk : Lane → MtxKind) (s : State) : Out :=
  withGrp s (fun g => match prepare w g s with
    | .done s' => s'
    | .go ls s' =>
      let leads := rowLeads ls
      let row (l : Lane) : Option (Nat × Nat × Nat × W64) := (leads.find? (fun x => x.t.slot == l.t.slot)).bind chk
      checked s' g ls row (finishWord (leads.foldl (fun s l => pushMtx s g l (pushersOf ls l.t.slot) (mk l)) s') g w.h))

def mtxSpec (h : Hd) (srcs : List Opnd) : Spec := { h := h, srcs := srcs, dst := Dest.queue .mxc, b := true, mtx := true }

/-- ALIGN of an address operand (R372, sub-code 3). -/
def alignFault (a : W64) (n : Nat) : Option (Nat × Nat × Nat × W64) := if a.toNat % n = 0 then none else some (0, 0x05, 3, a)

/-- PROT of an operand limit (R372, sub-code 5). -/
def limitFault (ok : Bool) : Option (Nat × Nat × Nat × W64) := if ok then none else some (4, 0x07, 5, 0#64)

def rowsOk (m : Nat) : Bool := decide (1 ≤ m) && decide (m ≤ 64)

/-- MWLD (R254). -/
def execMwld (h : Hd) (ty : ElemTy) (glen : Bool) (a : Src) (wm : Fin 8) (s : State) : Out :=
  pushWord (mtxSpec h [.src a true]) (fun l => alignFault (l.v 0) 256) (fun l => .wld ty wm.val glen (l.v 0)) s

/-- MWSWAP (R255). -/
def execMwswap (h : Hd) (s : State) : Out := pushWord (mtxSpec h []) (fun _ => none) (fun _ => .wswap) s

namespace LoopWord

/-- The limits of R256 and, where the word names the weight type, the pairing of R239. -/
def ok (w : W32) (act : ElemTy) : Bool :=
  bitsAt w.toNat 6 3 == 0 && !w.getLsbD 0 && wsrc w != 3
  && (if wsrc w = 0 then w.extractLsb' 7 7 == 0#7
      else (pairing (wty w) act).isSome && (if wty w == .bfp then wm w != 0 else wm w == 0))
end LoopWord

/-- MLOOP's checks of one row. Where SA and SB are both misaligned FLTADDR holds SA (DESIGN CHOICE, log entry 74). -/
def mloopFault (ty : ElemTy) (l : Lane) : Option (Nat × Nat × Nat × W64) :=
  let w := word32 (l.v 2)
  let a := if LoopWord.asrc w = 0 then alignFault (l.v 0) 16 else none
  let b := if LoopWord.wsrc w = 1 ∨ LoopWord.wsrc w = 2 then alignFault (l.v 1) 256 else none
  match a, b with
  | some f, _ => some f
  | none, some f => some f
  | none, none => limitFault (LoopWord.ok w ty)

/-- MLOOP, start form (R256). -/
def execMloop (h : Hd) (ty : ElemTy) (a b c e : Src) (s : State) : Out :=
  pushWord (mtxSpec h [.src a true, .src b true, .src c false, .src e false]) (mloopFault ty)
    (fun l => .loop ty (l.v 0) (l.v 1) (word32 (l.v 2)) (word32 (l.v 3))) s

/-! ## The stopped loop (R250, R257) -/

/-- The SETB count-down of a command for each pusher (R242). -/
def deliverPushers (s : State) (c : MtxCmd) : State := c.pushers.foldl (fun s p => countDown s p.1 p.2) s

/-- A loop of a row has ended: FMTRSV.MTX is set where it was marked, and each pusher receives its count-down (R244, R250). -/
def loopEnds (s : State) (core : Nat) (l : Loop) : State :=
  let s := if l.mark then setFmtrsv s l.cmd.ctx none 1#2 else s
  let s := s.updCore core (fun k => { k with array := { k.array with loop := none } })
  sweepRow (deliverPushers s l.cmd) core l.cmd.slot l.cmd.gang

/-- The stage that a loop holds is released (R124, R250). -/
def releaseHeld (s : State) (core : Nat) (l : Loop) : State :=
  match l.hold, s.gang l.cmd.gang with
  | some (w, i), some g => updRing s g.id (core - g.base) w (fun r => r.releaseAt i)
  | _, _ => s

/-- MLOOP.abort's effect on the loop (R250). -/
def abortLoop (s : State) (core : Nat) (l : Loop) : State := loopEnds (releaseHeld s core l) core l

/-- A running loop that fetches weights starts the next fetch into an empty shadow plane: its current tile, or the one after it (R244, R245). -/
def startFetch (a : MtxArray) : MtxArray :=
  match a.loop with
  | none => a
  | some l => match l.cmd.kind with
    | .loop _ _ _ word _ =>
      let next := if l.tileFor = some a.mprog then a.mprog + 1 else a.mprog
      if l.stopped || LoopWord.wsrc word == 0 || a.shadow.status != 0 || decide (LoopWord.steps word ≤ next) then a
      else { a with
        shadow := { status := 1, ty := LoopWord.wty word, wm := LoopWord.wm word, data := [] }
        loop := some { l with shadowFor := some next } }
    | _ => a

/-- The planes are exchanged at the step boundary before the step whose tile the shadow plane holds (R245). -/
def exchange (a : MtxArray) : MtxArray :=
  match a.loop with
  | some l =>
    if l.shadowFor = some a.mprog && a.shadow.status == 2 then
      startFetch { a with active := a.shadow, shadow := Plane.empty, loop := some { l with tileFor := some a.mprog, shadowFor := none } }
    else startFetch a
  | none => a

def updArray (s : State) (core : Nat) (f : MtxArray → MtxArray) : State := s.updCore core (fun k => { k with array := f k.array })

/-- A stopped loop goes on from MPROG (R250). -/
def resumeLoop (s : State) (core : Nat) : State :=
  updArray s core (fun a => exchange { a with loop := a.loop.map (fun l => { l with stopped := false, fcode := 0 }) })

/-- The pending ENGINE faults of the array in the threads of a row are cleared (R250). -/
def clearEngine (s : State) (core slot gid : Nat) : State :=
  (s.threads.filter (fun t => t.core == core && t.slot == slot && t.gang == gid)).foldl (fun s t =>
    s.updThread t.id (fun t => { t with deferred := t.deferred.filter (fun d => d.src != 2) })) s

/-- The stopped loop that a row pushed. -/
def stoppedBy (s : State) (t : Thread) : Option Loop :=
  match (s.core t.core).array.loop with
  | some l => if l.stopped && l.cmd.slot == t.slot && l.cmd.gang == t.gang then some l else none
  | none => none

/-- A word that acts on the stopped loop of a row, once for each row with an executing member. -/
def stoppedWord (h : Hd) (act : State → Nat → Loop → State) (s : State) : Out :=
  withGrp s (fun g => match prepare { h := h, mtx := true } g s with
    | .done s' => s'
    | .go ls s' =>
      checked s' g ls (fun l => if (stoppedBy s' l.t).isNone then some (0, 0x07, 5, 0#64) else none)
        (finishWord ((rowLeads ls).foldl (fun s l => match stoppedBy s l.t with
          | some x => clearEngine (act s g.core x) g.core l.t.slot l.t.gang
          | none => s) s') g h))

/-- MLOOP.resume (R257). -/
def execMloopResume (h : Hd) (s : State) : Out := stoppedWord h (fun s core _ => resumeLoop s core) s

/-- MLOOP.abort (R257). -/
def execMloopAbort (h : Hd) (s : State) : Out := stoppedWord h abortLoop s

/-! ## Accumulators, drain and epilogue (R258 to R260) -/

/-- The checks of a stash address and a row count. -/
def accFault (l : Lane) : Option (Nat × Nat × Nat × W64) :=
  match alignFault (l.v 0) 16 with
  | some f => some f
  | none => limitFault (rowsOk (elemAt 32 0 (l.v 1)))

/-- MACCLD (R258). -/
def execMaccld (h : Hd) (a m : Src) (s : State) : Out :=
  pushWord (mtxSpec h [.src a true, .src m false]) accFault (fun l => .accld (l.v 0) (elemAt 32 0 (l.v 1))) s

/-- MACCST (R258). -/
def execMaccst (h : Hd) (a m : Src) (s : State) : Out :=
  pushWord (mtxSpec h [.src a true, .src m false]) accFault (fun l => .accst (l.v 0) (elemAt 32 0 (l.v 1))) s

/-- MDRAIN's checks (R259): the address and the stride, then the row count. -/
def drainFault (l : Lane) : Option (Nat × Nat × Nat × W64) :=
  if (l.v 0).toNat % 16 != 0 || elemAt 32 0 (l.v 1) % 16 != 0 then some (0, 0x05, 3, l.v 0)
  else limitFault (rowsOk (elemAt 32 0 (l.v 2)))

/-- MDRAIN (R259). -/
def execMdrain (h : Hd) (a stride m : Src) (s : State) : Out :=
  pushWord (mtxSpec h [.src a true, .src stride false, .src m false]) drainFault
    (fun l => .drain (l.v 0) (elemAt 32 0 (l.v 1)) (elemAt 32 0 (l.v 2))) s

/-- The limits of the epilogue word (R260). -/
def epiOk (w : W32) : Bool :=
  let oty := (w.extractLsb' 24 4).toNat
  bitsAt w.toNat 31 28 == 0 && bitsAt w.toNat 23 9 == 0 && bitsAt w.toNat 7 5 == 0 && decide (bitsAt w.toNat 2 0 ≤ 1)
    && (oty == 0 || (decide (4 ≤ oty) && decide (oty ≤ 8)))

def mepiFault (l : Lane) : Option (Nat × Nat × Nat × W64) :=
  match alignFault (l.v 2) 16 with
  | some f => some f
  | none => limitFault (epiOk (word32 (l.v 0)))

/-- MEPI (R260). -/
def execMepi (h : Hd) (w scale bias : Src) (s : State) : Out :=
  pushWord (mtxSpec h [.src w false, .src scale false, .src bias true]) mepiFault (fun l => .epi (word32 (l.v 0)) (word32 (l.v 1)) (l.v 2)) s

/-- MZERO (R258). -/
def execMzero (h : Hd) (s : State) : Out := pushWord (mtxSpec h []) (fun _ => none) (fun _ => .zero) s

/-! ## MWAIT and MSTAT (R261, R262) -/

/-- The commands of an array that are not complete. -/
def MtxArray.commands (a : MtxArray) : List MtxCmd :=
  (match a.loop with
  | some l => [l.cmd]
  | none => []) ++ a.flight.map Prod.fst ++ a.queue

/-- MWAIT (R261): it issues once no command is left of which an executing member is a pusher. -/
def execMwait (h : Hd) (s : State) : Out :=
  withGrp s (fun g => match prepare { h := h, mtx := true } g s with
    | .done s' => s'
    | .go ls s' =>
      match (s.core g.core).array.commands.find? (fun c => c.pushers.any (fun p => ls.any (fun l => l.t.id == p.1))) with
      | some c => stallFree s g 3 c.pc
      | none => finishWord s' g h)

/-- MSTAT's word (R262). -/
def mstatWord (s : State) (t : Thread) (sel : Nat) : W64 :=
  let a := (s.core t.core).array
  match sel with
  | 0 => lowCell a.state
  | 1 => BitVec.ofNat 64 a.mprog
  | _ =>
    let mxa := match s.row t.core t.slot with
      | some r => r.mxa.length
      | none => 0
    BitVec.ofNat 64 (mxa * 2 ^ 16 + t.mxo.length * 2 ^ 8 + a.queue.length)

/-- MSTAT (R262). -/
def execMstat (h : Hd) (d : Dst) (sel : Fin 3) (s : State) : Out :=
  variableWord { h := h, dst := Dest.ofDst d false, a := true, mtx := true } (fun s _ l => (mstatWord s l.t sel.val, s)) s

end Sys2Proof.Machine
end

