-- ==== Sys2Proof/Machine/EvIssue.lean ====
section
/-! DEFINITION. Events of issue, binding and cells: the start of a clause (R293, R296), selection (R299, R300), the arrival of results (R71, R72), the lane arbiter,
eviction and reload (R180 to R184), and the end of a NAP (R312). -/

namespace Sys2Proof.Machine

/-- An event takes place, or leaves the device unchanged where it cannot take place now (log entry 1). -/
def happens (s : State) (r : Option State) : Out := .next (r.getD s)

/-! ## Selection (R298 to R302) -/

def fair (s : State) (c : Nat) : Bool := (s.ctx c).promise.getLsbD 0

/-- The urgency of a group: the largest among its members' teams (R301). -/
def groupUrgency (s : State) (e : Entry) : Nat :=
  (s.members e).foldl (fun m t => match s.gang t.gang with
    | some g => (g.teams.filter (fun x => x.members.contains t.id)).foldl (fun m x => max m x.urgency) m
    | none => m) 0

/-- Lower entry index, then the entries without one in their order of creation. -/
def lowerEntry (a b : Entry) : Bool :=
  decide (indexKey a < indexKey b) || (indexKey a == indexKey b && decide (a.uid < b.uid))

/-- Strict order (R302). -/
def strictBefore (s : State) (a b : Entry) : Bool :=
  decide (groupUrgency s b < groupUrgency s a) || (groupUrgency s a == groupUrgency s b && lowerEntry a b)

/-- The pipe of a group's next word: true is A. -/
def nextPipe (s : State) (core : Nat) (e : Entry) : Option Bool :=
  match e.run with
  | some r => some (onA r.clause.hdr.eng)
  | none => match fetchClause s core e.ctx (s.members e) e.pc with
    | .ok c _ => some (onA c.hdr.eng)
    | _ => none

/-- The pipe that a group holds with its clause (R21). -/
def heldPipe (s : State) (core : Nat) (e : Entry) : Option Bool :=
  match e.run with
  | some r => if (s.core core).pipe (onA r.clause.hdr.eng) = some e.uid then some (onA r.clause.hdr.eng) else none
  | none => none

def inYield (s : State) (e : Entry) : Bool := fair s e.ctx && decide (s.clk < e.yieldEnd)

/-- A pipe chooses `a` before `b` (R21, R299): overdue groups first, then a group that continues its clause, then those outside a yield span, then by urgency; what ties
then goes by index (log entry 59). -/
def chosenBefore (s : State) (a b : Entry) : Bool :=
  let late (e : Entry) : Option Nat := if fair s e.ctx then e.overdueAt else none
  match late a, late b with
  | some x, some y => decide (x < y) || (x == y && lowerEntry a b)
  | some _, none => true
  | none, some _ => false
  | none, none =>
    if a.run.isSome != b.run.isSome then a.run.isSome
    else if inYield s a != inYield s b then !inYield s a
    else decide (groupUrgency s b < groupUrgency s a) || (groupUrgency s a == groupUrgency s b && lowerEntry a b)

/-- CLAUSE_START (R293): an entry is selected; with `merge` it absorbs the entries that it may absorb. -/
def execClauseStart (core uid : Nat) (merge : Bool) (s : State) : Out := happens s (startEntry s core uid merge)

/-- ROW_RENDEZVOUS (R296): every unexited thread of the row stands at the header: its entries merge into one that waits no longer. -/
def rendezvous (s : State) (core uid : Nat) : Option State :=
  match s.entry core uid with
  | none => none
  | some e =>
    if !e.rdv || e.run.isSome then none
    else
      let slot := ((s.members e).map Thread.slot).headD 0
      if rowComplete s core slot e.ctx e.pc then some (mergeEntries s core (rowEntries s core slot e.ctx e.pc)).1 else none

def execRowRendezvous (core uid : Nat) (s : State) : Out := happens s (rendezvous s core uid)

/-- GROUP_OVERDUE (R299). -/
def overdue (s : State) (core uid : Nat) : Option State :=
  match s.entry core uid with
  | none => none
  | some e =>
    if fair s e.ctx && e.overdueAt.isNone && decide ((s.ctx e.ctx).fairlim.toNat ≤ e.ready) then
      some (s.updEntry core uid (fun e => { e with overdueAt := some s.clk }))
    else none

def execGroupOverdue (core uid : Nat) (s : State) : Out := happens s (overdue s core uid)

/-- YIELD_SPAN_END (R300). -/
def yieldEnds (s : State) (core uid : Nat) : Option State :=
  match s.entry core uid with
  | none => none
  | some e => if e.yieldEnd != 0 && decide (e.yieldEnd ≤ s.clk) then some (s.updEntry core uid (fun e => { e with yieldEnd := 0 })) else none

def execYieldSpanEnd (core uid : Nat) (s : State) : Out := happens s (yieldEnds s core uid)

/-- FIXED_LATENCY_BIND (R72, R73). -/
def fixedBind (s : State) (tid tok : Nat) : Option State :=
  match s.thread tid with
  | none => none
  | some t => match t.flight.find? (fun f => f.tok == tok) with
    | some f => if f.due ≤ s.clk then some (bindDue s tid f) else none
    | none => none

def execFixedLatencyBind (tid tok : Nat) (s : State) : Out := happens s (fixedBind s tid tok)

/-- VALUE_ARRIVAL (R71), and CPSTAT's wait for the thread's commands and copies (R139). -/
def valueArrives (s : State) (id : Nat) : Option State :=
  match s.op id with
  | none => none
  | some o =>
    match o.kind, s.thread o.tid with
    | .cpwait, some t => if s.commandsOf t = 0 && !s.copiesOf t then some (endOp (deliver s o (cpstatWord s t 0) 8) o) else none
    | .cpwait, none => none
    | _, _ => arrive s id

def execValueArrival (op : Nat) (s : State) : Out := happens s (valueArrives s op)

/-- A sleep ends early (R312): pre-emption of the context is requested (R307), a stop is pending for the thread (R393), or a fault, deferred or owed to the arbiter (R181). -/
def napEarly (s : State) (t : Thread) : Bool :=
  (s.ctx t.ctx).preempt.isSome || (grantActive s t.ctx && (haltAll s t.ctx || t.stops != 0#8)) || t.quotaDue || !t.deferred.isEmpty

/-- NAP_EXPIRY (R312): the sleep ends after its clk, or early. -/
def napEnds (s : State) (tid : Nat) : Option State :=
  match s.thread tid with
  | none => none
  | some t => match t.nap with
    | some k => if decide (k ≤ s.clk) || napEarly s t then some (s.updThread tid (fun t => { t with nap := none })) else none
    | none => none

def execNapExpiry (tid : Nat) (s : State) : Out := happens s (napEnds s tid)

/-! ## The lane arbiter (R180 to R182) -/

/-- Footprints of the spill quota of a context for each lane of each core: QM + 1 (R96, R422). -/
def quotaOf (s : State) (c : Nat) : Nat := ((s.ctx c).cfg.extractLsb' 59 3).toNat + 1

/-- Footprints that are free for one lane; a victim that still waits for its values has taken its own. -/
def freePrints (s : State) (core lane c : Nat) : Nat :=
  quotaOf s c - (s.threads.filter (fun t => t.core == core && t.lane == lane && t.ctx == c && (t.spilled || t.victimOf.isSome))).length

/-- The victims that a refusal admits (R181): threads of the lane that hold cells, without the protected anchor. -/
def eligible (s : State) (b : Thread) (cap : Bool) : List Thread :=
  let guarded := s.anchor b.core b.lane (if cap then some b.ctx else none)
  (s.laneThreads b.core b.lane).filter (fun t =>
    !t.exited && !t.parked && t.victimOf.isNone && decide (0 < t.cells) && (!cap || t.ctx == b.ctx) && guarded != some t.id)

/-- The youngest of some threads (R178, R181). -/
def youngest (l : List Thread) : Option Thread := l.foldl (fun m t => match m with
  | none => some t
  | some u => some (if u.id < t.id then t else u)) none

/-- A thread that the refusal admits as a victim is being evicted: the arbiter waits for its cells (R181, R182). -/
def evicting (s : State) (t : Thread) (cap : Bool) : Bool :=
  (s.laneThreads t.core t.lane).any (fun v => v.victimOf.isSome && (!cap || v.ctx == t.ctx))

/-- The blocked threads of a lane for which the arbiter acts now, with the reason of each refusal. -/
def arbitrated (s : State) (core lane : Nat) : List (Thread × Bool) :=
  (s.laneThreads core lane).filterMap (fun t =>
    match t.blocked with
    | some b =>
      if (b.arb || decide (b.since + Config.arbWait ≤ s.clk)) && !t.parked && !t.exited && running s t.ctx then
        (refusal s t b.need).bind (fun c => if evicting s t c then none else some (t, c))
      else none
    | none => none)

/-- One choice for one blocked thread: a victim, or QUOTA (R181). A blocked thread that is its own victim keeps the cells that earlier evictions hold for its word while it
is parked (DESIGN CHOICE, log entry 73). -/
def arbitrate (s : State) (b : Thread) (cap : Bool) : Option State :=
  let el := eligible s b cap
  match youngest (el.filter (fun t => decide (0 < freePrints s t.core t.lane t.ctx))) with
  | some v =>
    let s := s.updThread b.id (fun t => { t with blocked := t.blocked.map (fun x => { x with arb := true }) })
    let s := detach s v.id
    some (s.updThread v.id (fun t => { t with victimOf := some b.id, blocked := none }))
  | none =>
    let owe (t : Thread) : Option State :=
      if t.quotaDue then none else some (s.updThread t.id (fun t => { t with quotaDue := true }))
    match youngest el with
    | some v => owe v
    | none => if cap && s.anchor b.core b.lane (some b.ctx) == some b.id then owe b else none

/-- ALLOCATION_ARBITER (R181): the oldest blocked thread of the lane for which something can be done. -/
def arbiter (s : State) (core lane : Nat) : Option State := (arbitrated s core lane).findSome? (fun p => arbitrate s p.1 p.2)

def execAllocationArbiter (core lane : Nat) (s : State) : Out := happens s (arbiter s core lane)

/-- THREAD_EVICTION (R182): once its values have arrived, the victim's live set goes to a footprint; its cells are held for the blocked word. -/
def evict (s : State) (tid : Nat) : Option State :=
  match s.thread tid with
  | none => none
  | some t =>
    match t.victimOf with
    | none => none
    | some b =>
      if holdsPending t || !t.zombies.isEmpty then none
      else
        let s := s.updThread tid (fun t => { t with parked := true, spilled := true, victimOf := none })
        let s := s.updCtx t.ctx (fun c => { c with spillcnt := c.spillcnt + 1#64 })
        some (s.updThread b (fun u => if u.blocked.isSome then { u with heldFor := u.heldFor + t.cells } else u))

def execThreadEviction (tid : Nat) (s : State) : Out := happens s (evict s tid)

/-- Every other unexited thread of the thread's row waits for it at a rendezvous (R210). -/
def rowAwaits (s : State) (t : Thread) : Bool :=
  let others := (rowThreads s t.core t.slot).filter (fun u => u.id != t.id)
  !others.isEmpty && others.all (fun u => (s.core t.core).entries.any (fun e => e.rdv && e.run.isNone && e.members.contains u.id))

/-- A parked thread's live set fits its pool and its context's cap (R183): with 8 cells to spare unless it is an anchor, or its row waits for it
(R210). The cells that evictions hold for a blocked word are taken, under the cap as in the pool (R181). -/
def reloadFits (s : State) (t : Thread) : Bool :=
  let n := t.cells + (if s.isAnchor t || rowAwaits s t then 0 else 8)
  decide (n ≤ s.poolFree t.core t.lane) && decide (s.ctxCells t.core t.lane t.ctx + s.keptFor t + n ≤ (s.ctx t.ctx).cellcap)

/-- The thread may be reloaded now; while a pre-emption request stands, a parked thread is saved as it stands (R185). -/
def reloadable (s : State) (t : Thread) : Bool :=
  t.parked && !t.exited && (s.ctx t.ctx).st == 1 && (s.ctx t.ctx).preempt.isNone && reloadFits s t

/-- THREAD_RELOAD (R183): the oldest parked thread of its lane that qualifies; a halted thread stays halted (R307). -/
def reload (s : State) (tid : Nat) : Option State :=
  match s.thread tid with
  | none => none
  | some t =>
    if reloadable s t && !((s.laneThreads t.core t.lane).any (fun u => decide (u.id < tid) && reloadable s u)) then
      let s := s.updThread tid (fun t => { t with parked := false, spilled := false })
      some (if t.halted.isSome then s else reenter s tid)
    else none

def execThreadReload (tid : Nat) (s : State) : Out := happens s (reload s tid)

end Sys2Proof.Machine
end

