-- ==== Sys2Proof/Machine/Shake.lean ====
section
/-! DEFINITION. SHAKE256 with 64 bytes of output, the hash that the spec names for code pages, the firmware and the measurement (R382, R415, R428, R431). Its
steps are those of FIPS 202 (log entry 6). -/

namespace Sys2Proof.Machine

namespace Shake

/-- The 25 lanes; lane (x, y) stands at x + 5y. -/
abbrev Lanes := List W64

def lane (a : Lanes) (x y : Nat) : W64 := a.getD (x % 5 + 5 * (y % 5)) 0#64

/-- A new set of lanes from a function of (x, y). -/
def build (f : Nat → Nat → W64) : Lanes := (List.range 25).map (fun i => f (i % 5) (i / 5))

/-- The rotation of lane (x, y), in the order x + 5y. -/
def rots : List Nat := [0, 1, 62, 28, 27, 36, 44, 6, 55, 20, 3, 10, 43, 25, 39, 41, 45, 15, 21, 8, 18, 2, 61, 56, 14]

/-- The constants of the 24 rounds. -/
def rounds : List W64 :=
  [0x0000000000000001#64, 0x0000000000008082#64, 0x800000000000808A#64, 0x8000000080008000#64, 0x000000000000808B#64, 0x0000000080000001#64,
   0x8000000080008081#64, 0x8000000000008009#64, 0x000000000000008A#64, 0x0000000000000088#64, 0x0000000080008009#64, 0x000000008000000A#64,
   0x000000008000808B#64, 0x800000000000008B#64, 0x8000000000008089#64, 0x8000000000008003#64, 0x8000000000008002#64, 0x8000000000000080#64,
   0x000000000000800A#64, 0x800000008000000A#64, 0x8000000080008081#64, 0x8000000000008080#64, 0x0000000080000001#64, 0x8000000080008008#64]

def column (a : Lanes) (x : Nat) : W64 := lane a x 0 ^^^ lane a x 1 ^^^ lane a x 2 ^^^ lane a x 3 ^^^ lane a x 4

def theta (a : Lanes) : Lanes :=
  let c := (List.range 5).map (column a)
  let d (x : Nat) : W64 := c.getD ((x + 4) % 5) 0#64 ^^^ (c.getD ((x + 1) % 5) 0#64).rotateLeft 1
  build (fun x y => lane a x y ^^^ d x)

/-- The rotations, and the move of lane (x, y) to (y, 2x + 3y). -/
def rhoPi (a : Lanes) : Lanes :=
  build (fun x y =>
    let u := (x + 3 * y) % 5
    (lane a u x).rotateLeft (rots.getD (u + 5 * x) 0))

def chi (a : Lanes) : Lanes := build (fun x y => lane a x y ^^^ (~~~ (lane a (x + 1) y) &&& lane a (x + 2) y))

def round (a : Lanes) (rc : W64) : Lanes :=
  let b := chi (rhoPi (theta a))
  b.set 0 (lane b 0 0 ^^^ rc)

def permute (a : Lanes) : Lanes := rounds.foldl round a

/-- Absorbs one block of 136 bytes. -/
def absorb (a : Lanes) (block : List Byte) : Lanes :=
  permute ((a.zipIdx).map (fun p => if p.2 < 17 then p.1 ^^^ BitVec.ofNat 64 (leNat ((block.drop (8 * p.2)).take 8)) else p.1))

/-- The message in blocks of 136 bytes with its padding; `n` bounds the number of blocks. -/
def blocks (m : List Byte) : Nat → List (List Byte)
  | 0 => []
  | n + 1 =>
    if m.length < 136 then
      let p := m ++ [0x1F#8] ++ List.replicate (135 - m.length) 0#8
      [p.set 135 ((p.getD 135 0#8) ||| 0x80#8)]
    else m.take 136 :: blocks (m.drop 136) n

end Shake

/-- SHAKE256 of a message, 64 bytes. -/
def shake256 (m : List Byte) : List Byte :=
  let a := (Shake.blocks m (m.length / 136 + 1)).foldl Shake.absorb (List.replicate 25 0#64)
  ((a.take 8).flatMap (fun l => leBytes l.toNat 8)).take 64

end Sys2Proof.Machine
end

