-- ==== Sys2Proof/Machine/EvMemory.lean ====
section
/-! DEFINITION. Events of the memory system: accesses as they are performed (R94, R150, R166), L1 write-backs (R151), walks (R104), fills and write-backs of
the Vale and the Col (R87, R88, R93), errors (R97 to R100, R235, R383), and the check of a code page (R382). -/

namespace Sys2Proof.Machine

/-- STORE_PERFORMED (R150, R154, R229). -/
def execStorePerformed (op : Nat) (s : State) : Out := happens s (storeDone s op)

/-- L1_LINE_WRITE_BACK (R151): a line leaves the L1; its dirty bytes go home. -/
def l1Evict (s : State) (core line : Nat) : Option State :=
  if (l1Find s core line).isNone || s.viewBusy (128 * line) then none else some (l1Flush s core line)

def execL1LineWriteBack (core line : Nat) (s : State) : Out := happens s (l1Evict s core line)

/-- TLB_MISS_WALK (R104): one walk serves the cores of the die that miss on the page. -/
def walkDone (s : State) (die ctx page : Nat) : Option State :=
  match s.walks.find? (fun w => w.die == die && w.ctx == ctx && w.page == page) with
  | none => none
  | some w =>
    let e := walkPage s ctx page
    let put (k : Core) : Core := { k with tlb := k.tlb.filter (fun x => !(x.ctx == ctx && decide (e.va ≤ x.va) && decide (x.va < e.va + 2 ^ e.bits))) ++ [e] }
    let s := w.cores.foldl (fun s c => s.updCore c put) s
    some { s with walks := s.walks.filter (fun x => x != w) }

def execTlbMissWalk (die ctx page : Nat) (s : State) : Out := happens s (walkDone s die ctx page)

/-- HOME_WORD_OPERATION (R94). -/
def execHomeWordOperation (op : Nat) (s : State) : Out := happens s (homeOp s op)

/-- AWAIT_LIMIT_EXPIRY (R166). -/
def execAwaitLimitExpiry (op : Nat) (s : State) : Out := happens s (awaitExpire s op)

/-! ## Fills and write-backs -/

/-- VALE_FILL (R93, R95): a line of device memory enters the Vale, tagged with the context whose access missed. -/
def valeFills (s : State) (line ctx : Nat) : Option State :=
  match s.paKind (128 * line) with
  | .device => if (s.valeFind line).isSome || s.pageRetired (128 * line) then none else some (s.fillDev line ctx)
  | _ => none

def execValeFill (line ctx : Nat) (s : State) : Out := happens s (valeFills s line ctx)

/-- COL_VIEW_FILL (R87). -/
def colFills (s : State) (line ctx : Nat) : Option State :=
  match s.paKind (128 * line) with
  | .view n => if (s.valeFind line).isSome || s.viewBusy (128 * line) || (s.homeFault (128 * line)).isSome then none else some (s.fillView n line ctx)
  | _ => none

def execColViewFill (line ctx : Nat) (s : State) : Out := happens s (colFills s line ctx)

/-- COL_WRITE_BACK_SPLIT (R88, R93): a view line leaves the Vale, a dirty one through the Col. -/
def colWritesBack (s : State) (line : Nat) : Option State :=
  match s.paKind (128 * line), s.valeFind line with
  | .view _, some _ => some ((s.cleanLine line).dropVale line)
  | _, _ => none

def execColWriteBackSplit (line : Nat) (s : State) : Out := happens s (colWritesBack s line)

/-! ## Errors -/

def countCorrected (s : State) : State := { s with cecnt := s.cecnt + 1 }

/-- VALE_CLEAN_UNCORRECTABLE (R98): the line is discarded and refetched; counted. -/
def cleanError (s : State) (line : Nat) : Option State :=
  match s.valeFind line with
  | some v => if v.dirty then none else some (countCorrected ((s.dropVale line).fillHome line v.owner))
  | none => none

def execValeCleanUncorrectable (line : Nat) (s : State) : Out := happens s (cleanError s line)

/-- The context runs or is saved, and can be terminated (R342, R422). -/
def alive (s : State) (c : Nat) : Bool := decide (1 ≤ (s.ctx c).st) && decide ((s.ctx c).st ≤ 4)

/-- A K fault reaches a context; a second one has no further effect (R372, R380). -/
def killContext (s : State) (c code : Nat) : State := if alive s c then terminate s c code else s

def retirePage (s : State) (pa : Nat) : State := if s.pageRetired pa then s else { s with retired := s.retired ++ [pa / 65536] }

def rasLog (s : State) (agent core c sub : Nat) (addr : Nat) (frame : W64) : State :=
  s.log { kind := 3, code := 0x0C, sub := sub, agent := agent, ctx := c, va := false, core := core, addr := BitVec.ofNat 64 addr, clk := s.clk, word3 := frame }

/-- The steps of R99 for a line, with the frame in which it stands. -/
def rasSteps (s : State) (line owner way sub : Nat) : State :=
  let s := killContext s owner 0x0C
  let s := retirePage (s.dropVale line) (128 * line)
  let frame := (valeKey line, way % 32)
  let s := if s.quarantined.contains frame then s else { s with quarantined := s.quarantined ++ [frame] }
  rasLog s 8 0 owner sub (128 * line) (Config.frameWord line way)

/-- The context whose spill quota holds a locked line at the place (R96). -/
def lockedOwner (s : State) (line : Nat) : Option Nat :=
  (List.range Config.contexts).find? (fun c => (s.ctx c).st != 0 && Config.lockedLine (s.ctx c).quotaId line)

/-- VALE_CORRECTABLE_ERROR (R97): a line that the Vale holds, a locked one too. -/
def execValeCorrectableError (line : Nat) (s : State) : Out :=
  happens s (if (s.valeFind line).isSome || (lockedOwner s line).isSome then some (countCorrected s) else none)

/-- VALE_DIRTY_UNCORRECTABLE (R99): a dirty or a locked line. -/
def dirtyError (s : State) (line way : Nat) : Option State :=
  match s.valeFind line with
  | some v => if v.dirty then some (rasSteps s line v.owner way 1) else none
  | none => (lockedOwner s line).map (fun c => rasSteps s line c way 1)

def execValeDirtyUncorrectable (line way : Nat) (s : State) : Out := happens s (dirtyError s line way)

/-- The ways of a line's set that are not quarantined, by number. -/
def openWays (s : State) (line : Nat) : List Nat :=
  (List.range 32).filter (fun w => !s.quarantined.contains (valeKey line, w))

/-- STACK_READ_UNCORRECTABLE (R100): the read of a fill or of a plane, with the requesting context as the owner. The frame is the one that the fill takes, which is left
open (log entry 11). -/
def stackError (s : State) (line ctx : Nat) : Option State :=
  match s.paKind (128 * line) with
  | .device =>
    if (s.valeFind line).isSome then none
    else
      let (q, s) := s.free
      let ways := openWays s line
      some (rasSteps s line ctx (ways.getD (q.toNat % ways.length) 0) 2)
  | _ => none

def execStackReadUncorrectable (line ctx : Nat) (s : State) : Out := happens s (stackError s line ctx)

/-- A gang of the context stands on the core. -/
def gangsOn (s : State) (core c : Nat) : List Gang :=
  s.gangs.filter (fun g => g.ctx == c && g.saved.isNone && decide (g.base ≤ core) && decide (core < g.base + g.cores))

/-- The context owns data in the store of a core that the error hits (R383). -/
def ownsIn (s : State) (core c : Nat) (st : CoreStore) : Bool :=
  match st with
  | .cell => s.threads.any (fun t => t.core == core && t.ctx == c && s.holdsCells t && !t.names.isEmpty)
  | .l1Dirty => (s.core core).l1.any (fun l => l.ctx == c && l.dirty != 0#128)
  | .l1Clean => (s.core core).l1.any (fun l => l.ctx == c && l.dirty == 0#128)
  | .glen => (gangsOn s core c).any (fun g => (g.windows.getD (core - g.base) []).any (fun w => w.kind != .absent))
  | .queue =>
    s.threads.any (fun t => t.core == core && t.ctx == c && s.seated t && (!t.mxo.isEmpty || !t.cps.isEmpty || !t.hof.isEmpty))
    || s.rows.any (fun r => r.core == core && !r.mxa.isEmpty && (s.gang r.gang).any (fun g => g.ctx == c && g.saved.isNone))
  | .parityStore => true

/-- One clean L1 line of the context, which it is being left open, is dropped: its next access refetches it (R383). -/
def dropCleanLine (s : State) (core c : Nat) : State :=
  let (q, s) := s.free
  let l := (s.core core).l1.filter (fun l => l.ctx == c && l.dirty == 0#128)
  match l[q.toNat % l.length]? with
  | some x => l1Drop s core x.line
  | none => s

/-- CORE_SOFT_ERROR (R383). -/
def softError (s : State) (core c : Nat) (st : CoreStore) (bad : Bool) : Option State :=
  if !ownsIn s core c st then none
  else match st with
    | .parityStore => some s
    | .l1Clean => some (if bad then dropCleanLine s core c else countCorrected s)
    | _ => some (if bad then killContext s c 0x0C else countCorrected s)

def execCoreSoftError (core ctx : Nat) (store : CoreStore) (uncorrectable : Bool) (s : State) : Out :=
  happens s (softError s core ctx store uncorrectable)

/-- ARRAY_PARITY_ERROR (R235): the context of the holding gang is terminated with RAS; the address that the log names is left open. -/
def arrayError (s : State) (core : Nat) : Option State :=
  match (s.core core).array.gang.bind s.gang with
  | none => none
  | some g =>
    let (a, s) := s.free
    some (rasLog (killContext s g.ctx 0x0C) 2 core g.ctx 5 a.toNat 0#64)

def execArrayParityError (core : Nat) (s : State) : Out := happens s (arrayError s core)

/-! ## Code pages (R382) -/

/-- The physical address of a page whose words run. -/
def pagePa (s : State) (c page : Nat) : Xlat := translateDirect s c (BitVec.ofNat 64 (page * 65536)) rightsX

/-- The core's reads of a page wait at the Vale for a view that is being flushed (R91). -/
def pageWaits (s : State) (c page : Nat) : Bool :=
  match pagePa s c page with
  | .ok pa => (List.range 512).any (fun i => s.viewBusy (pa + 128 * i))
  | _ => false

/-- The first read of a page that is refused (R99, R103): code, sub-code and virtual address. -/
def pageRefused (s : State) (c page : Nat) : Option (Nat × Nat × W64) :=
  match pagePa s c page with
  | .ok pa => (List.range 512).findSome? (fun i => (s.homeFault (pa + 128 * i)).map (fun f => (f.1, f.2, BitVec.ofNat 64 (page * 65536 + 128 * i))))
  | .bad _ code sub a => some (code, sub, a)
  | .miss _ => none

/-- The digest of a page as placed, read from the Vale; none when the page cannot be read. -/
def pageDigest (s : State) (c page : Nat) : Option Nat :=
  match pagePa s c page, pageRefused s c page with
  | .ok pa, none => some (leNat (shake256 ((List.range 512).flatMap (fun i => leBytes ((s.homeRead (pa / 128 + i) c).2).toNat 128))))
  | _, _ => none

/-- The entries of a context that wait at a header for the page. -/
def fetching (s : State) (c page : Nat) : List (Nat × Nat) :=
  ((s.cores.zipIdx).map (fun k => (k.1.entries.filter (fun e => e.ctx == c && e.run.isNone && (match fetchClause s k.2 c (s.members e) e.pc with
    | .verify p => p == page
    | _ => false))).map (fun e => (k.2, e.uid)))).flatten

/-- Every fetching thread takes CODEINT at its header (R382). -/
def codeIntegrity (s : State) (c page sub : Nat) : State :=
  let a := BitVec.ofNat 64 (page * 65536)
  let s' := s.log { kind := 4, code := 0x09, sub := sub, agent := 0, ctx := c, va := true, core := 0, addr := a, clk := s.clk, word3 := 0#64 }
  (fetching s c page).foldl (fun s p => match s.entry p.1 p.2 with
    | some e => let ms := s.members e; headerTrap s p.1 ms 0x09 sub a e.pc (ms.map Thread.id)
    | none => s) s'

/-- The physical addresses of the words of a table entry. -/
def entryPas (s : State) (c : Nat) (entry : W64) : List Nat :=
  (List.range 9).filterMap (fun i => match translateDirect s c (entry + BitVec.ofNat 64 (8 * i)) rightsR with
    | .ok pa => some pa
    | _ => none)

/-- A read that the check of a page makes is refused: in the error log, with a core that waits for the page (R110). -/
def checkRefused (s : State) (c page : Nat) (f : Nat × Nat × W64) : State :=
  s.logRefused 0 c (((fetching s c page).head?.map Prod.fst).getD 0) true f.2.2 f.1 f.2.1 0#64

/-- PAGE_VERIFY (R382). -/
def verifyPage (s : State) (c page : Nat) : Option State :=
  if !(s.ctx c).verifying.contains page || pageWaits s c page then none
  else
    let done (s : State) : State := s.updCtx c (fun x => { x with verifying := x.verifying.filter (fun p => p != page) })
    match digestOf s c page with
    | .unlisted => some (done s)
    | .unreadable f => some (done (codeIntegrity (checkRefused s c page f) c page 2))
    | .listed d entry =>
      if pageDigest s c page = some d then
        some ((done s).updCtx c (fun x => { x with verified := x.verified.filter (fun p => p.1 != page) ++ [(page, entryPas s c entry)] }))
      else
        let s := (pageRefused s c page).elim s (checkRefused s c page)
        some (done (codeIntegrity s c page 1))

def execPageVerify (ctx page : Nat) (s : State) : Out := happens s (verifyPage s ctx page)

end Sys2Proof.Machine
end

