-- ==== Sys2Proof/Machine/EvCopy.lean ====
section
/-! DEFINITION. Events of the copy engine and the windows (R116 to R134, R141): commands, line operations, ring fills, counter words, per-lane copies, and the
completion of window instructions. -/

namespace Sys2Proof.Machine

/-! ## The queue (R126, R134) -/

/-- Commands of a context that is not being pre-empted may start and run (R126, R134). -/
def engineRuns (s : State) (c : Nat) : Bool := (s.ctx c).st == 1 && (s.ctx c).preempt.isNone

/-- Restored commands enter the queue as room allows (R134). -/
def refillQueue (k : Core) : Core :=
  let n := Config.cpqLen - k.cpq.length
  { k with cpq := k.cpq ++ k.cpback.take n, cpback := k.cpback.drop n }

/-- Bulk and looping commands that hold a run slot: those that wait on a full ring hold none, and those without bytes need none. -/
def slotsUsed (k : Core) : Nat := (k.cprun.filter (fun r => !r.waits && r.cmd.len != 0)).length

/-- An acquire that its thread issued before a command is still outstanding (R271). -/
def acquiring (s : State) (tid id : Nat) : Bool := s.ops.any (fun o => o.acquire && decide (o.id < id) && o.tids.contains tid)

/-- The first entry of the queue that may start, with those before it that are passed over. -/
def nextCommand (s : State) : List CpEntry → List CpEntry → Option (List CpEntry × CpEntry × List CpEntry)
  | _, [] => none
  | before, e :: rest =>
    if engineRuns s e.ctx then some (before, e, rest) else nextCommand s (before ++ [e]) rest

/-- The ring of a command on its core. -/
def cmdRing (s : State) (core : Nat) (c : CopyCmd) : Option (Nat × Ring) :=
  match c.ring, s.gang c.gang with
  | some w, some g => (ringOf g (core - g.base) w).map (fun r => (w, r))
  | _, _ => none

/-- A fill may start now (R122): a free stage, no looping command on the producer side, and no earlier command of the ring that has still to start. -/
def fillReady (s : State) (core : Nat) (c : CopyCmd) : Bool :=
  match cmdRing s core c with
  | none => false
  | some (w, r) =>
    r.stages.getD r.fptr .filled == .free
    && (match r.holder with
      | some h => h == c.id
      | none => true)
    && !((s.core core).cprun.any (fun x => x.cmd.gang == c.gang && x.cmd.ring == some w && x.stage.isNone && !x.atEnd && decide (x.cmd.id < c.id)))

/-- COPY_COMMAND_START (R126). A command that waits behind a looping command of its ring holds no run slot, as one that waits on a full ring holds none (DESIGN
CHOICE, log entry 33). A raw entry is discarded once its cell has arrived (log entry 14). -/
def copyStarts (s : State) (core : Nat) : Option State :=
  let s := s.updCore core refillQueue
  match nextCommand s [] (s.core core).cpq with
  | none => none
  | some (before, e, rest) =>
    let take (s : State) : State := s.updCore core (fun k => refillQueue { k with cpq := before ++ rest })
    match e with
    | .raw _ q => if q.pend.isSome then none else some (take s)
    | .cmd c =>
      if decide (Config.cpRun ≤ slotsUsed (s.core core)) || acquiring s c.tid c.id then none
      else
        let waits := c.ring.isSome && !fillReady s core c
        let run : CopyRun := { cmd := c, prog := 0, iter := 0, stage := none, atEnd := false, waits := waits, lines := [] }
        some ((take s).updCore core (fun k => { k with cprun := k.cprun ++ [run] }))

def execCopyCommandStart (core : Nat) (s : State) : Out := happens s (copyStarts s core)

def runOf (s : State) (core cmd : Nat) : Option CopyRun := (s.core core).cprun.find? (fun r => r.cmd.id == cmd)

def updRun (s : State) (core cmd : Nat) (f : CopyRun → CopyRun) : State :=
  s.updCore core (fun k => { k with cprun := k.cprun.map (fun r => if r.cmd.id = cmd then f r else r) })

def dropRun (s : State) (core cmd : Nat) : State :=
  s.updCore core (fun k => { k with cprun := k.cprun.filter (fun r => r.cmd.id != cmd) })

def updCmdRing (s : State) (core : Nat) (c : CopyCmd) (f : Ring → Ring) : State :=
  match c.ring, s.gang c.gang with
  | some w, some g => updRing s g.id (core - g.base) w f
  | _, _ => s

/-- RING_FILL_START (R122): the stage at FPTR is filled next; a command that gave up its run slot takes one again (R126). -/
def fillStarts (s : State) (core cmd : Nat) : Option State :=
  match runOf s core cmd with
  | none => none
  | some r =>
    if r.cmd.ring.isNone || r.stage.isSome || r.atEnd || !engineRuns s r.cmd.ctx || !fillReady s core r.cmd
        || (r.waits && decide (Config.cpRun ≤ slotsUsed (s.core core))) then none
    else match cmdRing s core r.cmd with
      | none => none
      | some (_, g) =>
        let s := updCmdRing s core r.cmd (fun x =>
          { x with stages := x.stages.set x.fptr .filling, fptr := (x.fptr + 1) % max 1 x.ns, holder := if r.cmd.loop then some cmd else x.holder })
        some (updRun s core cmd (fun r => { r with stage := some g.fptr, waits := false }))

def execRingFillStart (core cmd : Nat) (s : State) : Out := happens s (fillStarts s core cmd)

/-! ## Status entries and failures (R131 to R133) -/

def CopyRun.done (r : CopyRun) : Nat := r.iter * r.cmd.len + r.prog

/-- A status entry without its LOST bit (R133). -/
def statusWord (c : CopyCmd) (kind code prog : Nat) : Nat :=
  c.tag % 16 * 2 ^ 60 + kind * 2 ^ 56 + code * 2 ^ 48 + (if c.loop then 2 ^ 44 else 0) + prog % 2 ^ 32

def entryKind (w : W64) : Nat := (w.extractLsb' 56 4).toNat

/-- Removes the oldest completion entry, or the oldest entry where there is none. -/
def giveWay (l : List W64) : List W64 :=
  match l.find? (fun w => entryKind w == 0) with
  | some w => l.erase w
  | none => l.drop 1

/-- A thread's cps after an entry is pushed (R133). -/
def pushCps (w kind : Nat) (t : Thread) : Thread :=
  if t.cps.length < Config.cpsLen then
    { t with cps := t.cps ++ [BitVec.ofNat 64 (w + (if t.cpsLost then 2 ^ 47 else 0))], cpsLost := false }
  else if kind = 0 then { t with cpsLost := true }
  else { t with cps := giveWay t.cps ++ [BitVec.ofNat 64 (w + 2 ^ 47)], cpsLost := false }

def pushStatus (s : State) (c : CopyCmd) (kind code prog : Nat) : State :=
  s.updThread c.tid (fun t => if t.exited then t else pushCps (statusWord c kind code prog) kind t)

/-- A fill in progress of the same ring that started after the one of `c`. -/
def laterFill (c : CopyCmd) (x : CopyRun) : Bool :=
  x.cmd.gang == c.gang && x.cmd.ring == c.ring && x.stage.isSome && decide (c.id < x.cmd.id)

/-- The source ranges that a command has still to read from progress `prog` of iteration `iter` on. -/
def CopyCmd.reads (c : CopyCmd) (iter prog : Nat) : List (Nat × Nat) :=
  ((c.src + BitVec.ofNat 64 iter * c.stride).toNat + prog, c.len - prog) ::
    (List.range (c.iters - 1 - iter)).map (fun j => ((c.src + BitVec.ofNat 64 (iter + 1 + j) * c.stride).toNat, c.len))

/-- Two ranges share a byte. -/
def spanHit (sp p : Nat × Nat) : Bool := decide (0 < p.2) && decide (p.1 < sp.1 + sp.2) && decide (sp.1 < p.1 + p.2)

/-- A command counts its reads, as one of an issue, in the space of its source (R119, R120). -/
def CopyCmd.counts (c : CopyCmd) (issue : Nat) (ssp : Bool) : Bool := c.issue == issue && c.shn == .counted && c.ssp == ssp

/-- A command of an issue that counts its reads, other than `but`, has still to read bytes of a range of its source space. -/
def issueReads (s : State) (core issue but : Nat) (ssp : Bool) (sp : Nat × Nat) : Bool :=
  let k := s.core core
  let waiting (e : CpEntry) : Bool := match e with
    | .cmd x => x.counts issue ssp && (x.reads 0 0).any (spanHit sp)
    | .raw .. => false
  k.cpq.any waiting || k.cpback.any waiting
    || k.cprun.any (fun x => x.cmd.id != but && x.cmd.counts issue ssp && !x.atEnd && (x.cmd.reads x.iter x.prog).any (spanHit sp))

/-- The space of a source target: true is the Glen. -/
def Target.inGlen : Target → Bool
  | .glen .. => true
  | _ => false

/-- The counted reads of an issue that nothing of it defers any longer are made: a command that would have made them has failed or is complete (R119, R120). -/
def payOwed (s : State) (core issue : Nat) : State :=
  let due (o : Owed) : Bool := o.core == core && o.issue == issue && !issueReads s core issue 0 o.tg.inGlen (o.lo, o.len)
  (s.owed.filter due).foldl (fun s o => match o.tg with
    | .l1 pa => l1Count s core (pa / 128)
    | .glen k off => glenCount s o.gang k off
    | _ => s) { s with owed := s.owed.filter (fun o => !due o) }

/-- A failure of a command: logged (R110), a status entry whatever STAT says, the count-down, and a deferred ENGINE (R131, R132). -/
def copyFails (s : State) (core : Nat) (r : CopyRun) (kind code sub prog : Nat) (addr : W64) : State :=
  let c := r.cmd
  let s := s.logRefused 1 c.ctx core true addr code sub (s.laneMask c.tid)
  let s := pushStatus s c kind code prog
  let s := countDown s c.tid c.setb
  let s := s.updThread c.tid (fun t => if t.exited then t else
    { t with deferred := t.deferred ++ [{ code := 0x0A, sub := code, addr := addr, src := 1, due := .cpy, since := s.clk, va := true }] })
  payOwed (dropRun s core c.id) core c.issue

/-- A line fails (R132): a stage being filled returns to free, and FPTR returns to it. A later fill of the ring that has begun starts again at FPTR (DESIGN
CHOICE, log entry 63). -/
def lineFails (s : State) (core : Nat) (r : CopyRun) (code sub : Nat) (addr : W64) : State :=
  let later (x : CopyRun) : Bool := r.stage.isSome && laterFill r.cmd x
  let undone := ((s.core core).cprun.filter later).filterMap CopyRun.stage
  let s := updCmdRing s core r.cmd (fun x =>
    let x := { x with holder := if x.holder = some r.cmd.id then none else x.holder }
    match r.stage with
    | some i => { x with stages := undone.foldl (fun l j => l.set j .free) (x.stages.set i .free), fptr := i }
    | none => x)
  let s := s.updCore core (fun k => { k with cprun := k.cprun.map (fun x => if later x then { x with stage := none, prog := 0 } else x) })
  copyFails s core r 1 code sub r.done addr

/-! ## Line operations (R132) -/

/-- A read by the engine at a checked target. A counted read that fills its L1 line gives it the count 1, since a copy names none (DESIGN CHOICE, log entry 67). -/
def engineRead (s : State) (core c gid : Nat) (tg : Target) (n : Nat) (hint : Hint) (now : Bool) : State × Nat :=
  match tg with
  | .l1 pa => l1Load s core c pa n hint 1 now
  | .home pa => s.homeReadN pa n c
  | .window gc w va pa =>
    let (s, off) := windowTouch s gid gc w va pa
    match s.gang gid with
    | some g => (s, glenReadN s (g.base + gc) off n)
    | none => (s, 0)
  | .glen k off =>
    let v := glenReadN s k off n
    (if hint == .counted && now then glenCount s gid k off else s, v)
  | .peer .. => s.peerRead n

/-- A write by the engine at a checked target. -/
def engineWrite (s : State) (core c gid : Nat) (tg : Target) (n v : Nat) (hint : Hint) : State :=
  match tg with
  | .l1 pa => l1Store s core c pa n v hint
  | .home pa => s.homeWriteN pa n c v
  | .window gc w va pa =>
    let (s, off) := windowTouch s gid gc w va pa
    match s.gang gid with
    | some g => slotDirty (glenWriteN s (g.base + gc) off n v) gid gc w va n
    | none => s
  | .glen k off => glenWriteN s k off n v
  | .peer .. => s

/-- The engine waits at a window with an outstanding write-back, or at a view being flushed (R91, R141). -/
def engineWaits (s : State) (core gid : Nat) (tg : Target) : Bool :=
  match tg with
  | .window c w _ pa => (s.gang gid).any (fun g => windowBusy s g c w s.nextUid) || s.viewBusy pa
  | .l1 pa => s.viewBusy pa && (l1Find s core (pa / 128)).isNone
  | .home pa => s.viewBusy pa
  | _ => false

/-- The check of one side of a line operation. -/
def lineSide (s : State) (core : Nat) (c : CopyCmd) (addr : W64) (n : Nat) (stash write : Bool) : LaneRes :=
  match s.gang c.gang, s.task c.task with
  | some g, some k =>
    if stash then checkStash g addr n 16
    else checkGlobal s core g k { va := addr, size := n, align := 16, rt := if write then rightsW else rightsR
                                  modes := if write then modesCopyDst else modesCopySrc, word := false }
  | _, _ => .bad 2 0x08 1 addr

/-- Addresses of the next line operation: source, destination, and its length. -/
def lineSpan (s : State) (core : Nat) (r : CopyRun) : W64 × W64 × Nat :=
  let c := r.cmd
  let p := BitVec.ofNat 64 r.prog
  let src := c.src + BitVec.ofNat 64 r.iter * c.stride + p
  let dst : W64 := match r.stage, cmdRing s core c, s.gang c.gang with
    | some i, some (w, g), some x => (match x.window (core - x.base) w with
      | some win => BitVec.ofNat 64 ((core - x.base) * 2 ^ 20 + 256 * (win.fs + g.ss * i)) + p
      | none => p)
    | _, _, _ => c.dst + p
  (src, dst, min (c.len - r.prog) (min (128 - src.toNat % 128) (128 - dst.toNat % 128)))

/-- The engine asks for a walk; none when it has asked already. -/
def engineWalk (s : State) (core c page : Nat) : Option State :=
  let s' := requestWalk s core c page
  if s'.walks = s.walks then none else some s'

/-- After the bytes of a line: the progress, the end of an iteration with its stage filled, and the end of the command. -/
def advance (s : State) (core : Nat) (r : CopyRun) (n : Nat) (tg : Target) : State :=
  let c := r.cmd
  let lines := match tg with
    | .l1 pa | .home pa | .window _ _ _ pa => if r.lines.contains (pa / 128) then r.lines else r.lines ++ [pa / 128]
    | _ => r.lines
  let r := { r with prog := r.prog + n, lines := lines }
  if r.prog < c.len then updRun s core c.id (fun _ => r)
  else
    let last := decide (c.iters ≤ r.iter + 1)
    let s := updCmdRing s core c (fun x =>
      match r.stage with
      | some i => { x with stages := x.stages.set i .filled, holder := if last && x.holder == some c.id then none else x.holder }
      | none => x)
    let r : CopyRun := if last then { r with stage := none, atEnd := true } else { r with prog := 0, iter := r.iter + 1, stage := none }
    let s := updRun s core c.id (fun _ => r)
    if last then s else updRun s core c.id (fun r => { r with waits := !fillReady s core c })

/-- The line, or the ring stage, of which a source address is part: its first byte and its length (R119, R120). -/
def countedSpan (s : State) (c : CopyCmd) (src : W64) (tg : Target) : Nat × Nat :=
  match tg, s.gang c.gang with
  | .glen k off, some g => (match stageAt g (k - g.base) off with
    | some (w, i) => (match g.window (k - g.base) w with
      | some { fs := fs, kind := .ring r, .. } => ((k - g.base) * 2 ^ 20 + 256 * (fs + r.ss * i), 256 * r.ss)
      | _ => (src.toNat, 1))
    | none => (src.toNat, 1))
  | _, _ => (src.toNat / 128 * 128, 128)

/-- A counted line operation touches its line or stage: unless it is the last of its issue there, which counts, the read is owed (R119, R120). -/
def touch (s : State) (core : Nat) (c : CopyCmd) (sp : Nat × Nat) (tg : Target) (now : Bool) : State :=
  if c.shn != .counted then s
  else
    let rest := s.owed.filter (fun o => !(o.core == core && o.issue == c.issue && o.lo == sp.1 && o.len == sp.2))
    { s with owed := if now then rest else rest ++ [{ core := core, ctx := c.ctx, gang := c.gang, issue := c.issue, lo := sp.1, len := sp.2, tg := tg }] }

/-- The line operation of `n` bytes is the last of its issue on the line or stage of its source: it counts the issue's one read (R119, R120). -/
def lastTouch (s : State) (core : Nat) (r : CopyRun) (src : W64) (n : Nat) (tg : Target) : Bool :=
  let c := r.cmd
  let sp := countedSpan s c src tg
  !((c.reads r.iter (r.prog + n)).any (spanHit sp)) && !issueReads s core c.issue c.id c.ssp sp

/-- Fills of one ring complete in the order in which they started (R122): the last bytes of a stage wait for an earlier fill. -/
def fillWaits (s : State) (core : Nat) (r : CopyRun) (n : Nat) : Bool :=
  r.stage.isSome && decide (r.cmd.len ≤ r.prog + n) && (s.core core).cprun.any (fun x => laterFill x.cmd r && x.stage.isSome)

/-- A command that was restored while every run slot was taken takes one again (R126, R134). -/
def slotWaits (s : State) (core : Nat) (r : CopyRun) : Bool := r.waits && decide (Config.cpRun ≤ slotsUsed (s.core core))

/-- COPY_LINE_OP (R132). -/
def lineOp (s : State) (core cmd : Nat) : Option State :=
  match runOf s core cmd with
  | none => none
  | some r =>
    let c := r.cmd
    if r.atEnd || !engineRuns s c.ctx || (c.ring.isSome && r.stage.isNone) || slotWaits s core r then none
    else
      let (src, dst, n) := lineSpan s core r
      let a := lineSide s core c src n c.ssp false
      let b := lineSide s core c dst n c.dsp true
      match failing [a, b], missing [a, b] with
      | some (st, code, sub, addr), m =>
        if st ≤ 2 || m.isNone then some (lineFails (dropBadTlb s core c.ctx addr) core r code sub addr)
        else m.bind (engineWalk s core c.ctx)
      | none, some p => engineWalk s core c.ctx p
      | none, none =>
        let x := okTarget [a]
        let y := okTarget [b]
        if engineWaits s core c.gang x || engineWaits s core c.gang y || fillWaits s core r n then none
        else
          let now := lastTouch s core r src n x
          let (s', v) := engineRead (touch s core c (countedSpan s c src x) x now) core c.ctx c.gang x n c.shn now
          if (windowLate s' c.ctx y n (some v)).isSome then some (lineFails s' core r 0x07 2 dst)
          else some (advance (engineWrite s' core c.ctx c.gang y n v c.dhn) core { r with waits := false } n y)

def execCopyLineOp (core cmd : Nat) (s : State) : Out := happens s (lineOp s core cmd)

/-! ## The end of a command (R131) -/

/-- The half of a granule at `pa` in which a line of 128 bytes stands. -/
def halfOf (pa line : Nat) : BitVec 256 := if 128 * line = pa then BitVec.ofNat 256 (2 ^ 128 - 1) else ~~~ BitVec.ofNat 256 (2 ^ 128 - 1)

/-- Writes a physical line from the core's L1 and from the gang's mapped windows to the Vale (R131). -/
def lineHome (s : State) (core gid line : Nat) : State :=
  let s := l1Clean s core line
  match s.gang gid with
  | none => s
  | some g =>
    (List.range g.cores).foldl (fun s c => (List.range 16).foldl (fun s w => match g.window c w with
      | some { kind := .mapped m, .. } =>
        ((m.slots.zipIdx).filter (fun p => match p.1.granule with
          | some (_, pa) => decide (pa ≤ 128 * line) && decide (128 * line < pa + 256)
          | none => false)).foldl (fun s p => slotCleanPart s g c w p.2 (halfOf ((p.1.granule.getD (0, 0)).2) line)) s
      | _ => s) s) s

/-- The last count-down and the status of a command that is complete. -/
def copyEnds (s : State) (core : Nat) (r : CopyRun) : State :=
  let c := r.cmd
  let s := if c.stat then pushStatus s c 0 0 (c.iters * c.len) else s
  payOwed (dropRun (countDown s c.tid c.setb) core c.id) core c.issue

/-- COUNTER_DECREMENT_SEND (R131): the bytes go to the Vale, the counter word is checked and decremented, and the command is complete; one without a
counter word is complete at once. -/
def counterSend (s : State) (core cmd : Nat) : Option State :=
  match runOf s core cmd with
  | none => none
  | some r =>
    let c := r.cmd
    if !r.atEnd || !engineRuns s c.ctx then none
    else match c.ctr with
      | none => some (copyEnds s core r)
      | some va =>
        let chk := match s.gang c.gang, s.task c.task with
          | some g, some k => checkGlobal s core g k (wordAcc va 8 8)
          | _, _ => .bad 2 0x08 1 va
        match chk with
        | .miss p => engineWalk s core c.ctx p
        | .bad _ code sub _ =>
          if r.lines.any (fun l => s.viewBusy (128 * l)) then none
          else
            let s := r.lines.foldl (fun s l => lineHome s core c.gang l) s
            some (copyFails (dropBadTlb s core c.ctx va) core r 2 code sub (c.iters * c.len) va)
        | .ok tg =>
          if s.viewBusy tg.pa || r.lines.any (fun l => s.viewBusy (128 * l)) then none
          else
            let s := r.lines.foldl (fun s l => lineHome s core c.gang l) s
            match s.paKind tg.pa with
            | .peer =>
              let (b, s) := s.free
              some (if b.getLsbD 0 then copyFails s core r 2 0x07 6 (c.iters * c.len) va else copyEnds s core r)
            | .view _ => some (copyFails s core r 2 0x07 6 (c.iters * c.len) va)
            | _ =>
              if (s.dbgWindow tg.pa).isSome then some (copyFails s core r 2 0x07 6 (c.iters * c.len) va)
              else
              let s := l1Flush s core (tg.pa / 128)
              let o := decrement ((s.stampWrite (tg.pa / 128)).releaseAt (tg.pa / 128) (s.threadTime c.tid)) c.ctx va tg.pa 1
              some (if o.ok then copyEnds o.s core r else copyFails s core r 2 0x07 6 (c.iters * c.len) va)

def execCounterDecrementSend (core cmd : Nat) (s : State) : Out := happens s (counterSend s core cmd)

/-! ## Per-lane copies (R127, R130) -/

/-- Counts one read of each line and stage that the sources of a counted copy touch (R119, R120); each source stands with the gang of its lane. -/
def countSources (s : State) (core : Nat) (tgs : List (Nat × Target)) : State :=
  let lines := dedupNats (tgs.filterMap (fun t => match t.2 with
    | .l1 pa => some (pa / 128)
    | _ => none))
  let s := lines.foldl (fun s l => l1Count s core l) s
  let stage (s : State) (t : Nat × Target) : Option (Nat × Nat × Nat × Nat) := match t.2, s.gang t.1 with
    | .glen k off, some g => (stageAt g (k - g.base) off).map (fun p => (t.1, k, p))
    | _, _ => none
  (tgs.foldl (fun (acc : State × List (Nat × Nat × Nat × Nat)) t => match t.2, stage s t with
    | .glen k off, some p => if acc.2.contains p then acc else (glenCount acc.1 t.1 k off, acc.2 ++ [p])
    | _, _ => acc) (s, [])).1

/-- The sources of a copy's lanes, read in lane order. -/
def copyReads (s : State) (hint : Hint) (src : Thread × CopyLane → Target) (tl : List (Thread × CopyLane)) : State × List Nat :=
  tl.foldl (fun (acc : State × List Nat) p =>
    let (s', v) := readTarget acc.1 p.1 (src p) p.2.size hint 1 false
    (s', acc.2 ++ [v])) (s, [])

/-- The destinations of a copy's lanes, written in lane order. -/
def copyWrites (s : State) (hint : Hint) (dst : Thread × CopyLane → Target) (tl : List (Thread × CopyLane)) (vs : List Nat) : State :=
  (tl.zip vs).foldl (fun s p => writeTarget s p.1.1 (dst p.1) p.1.2.size p.2 hint) s

/-- A copy that is performed counts SETB down in each of its lanes, and ends. -/
def copyFinish (s : State) (o : Op) (lanes : List CopyLane) : State :=
  let s := lanes.foldl (fun s l => countDown s l.tid o.setb) s
  lanes.foldl (fun s l => sweepThread s l.tid) (s.dropOp o.id)

/-- Why a lane of a copy is refused at a home, where its page has been retired since its check (R99): the fault, the address that it named and the physical one. -/
def copyLate (s : State) (o : Op) (p : Thread × CopyLane) : Option ((Nat × Nat) × W64 × Nat) :=
  let src := settled s p.1 p.2.sva p.2.src
  let dst := settled s p.1 p.2.dva p.2.dst
  match accessLate s o src p.2.size none, accessLate s o dst p.2.size (some 0) with
  | some f, _ => some (f, p.2.sva, src.pa)
  | none, some f => some (f, p.2.dva, dst.pa)
  | none, none => none

/-- The refusal of such a lane; `s0` is the state in which the copy finds the pages. -/
def refuseLate (s0 : State) (o : Op) (s : State) (p : Thread × CopyLane) : State :=
  match copyLate s0 o p with
  | some (f, va, pa) => lateRefused s o p.1.id f va pa
  | none => s

/-- A lane whose value a debug window refuses (R400, R401). -/
def refuseValue (s0 : State) (o : Op) (s : State) (x : (Thread × CopyLane) × Nat) : State :=
  let dst := settled s0 x.1.1 x.1.2.dva x.1.2.dst
  match windowLate s0 o.ctx dst x.1.2.size (some x.2) with
  | some f => lateRefused s o x.1.1.id f x.1.2.dva dst.pa
  | none => s

/-- The lanes of which no window refuses the value, each with it. -/
def writable (s : State) (o : Op) (l : List ((Thread × CopyLane) × Nat)) : List ((Thread × CopyLane) × Nat) :=
  l.filter (fun x => (windowLate s o.ctx (settled s x.1.1 x.1.2.dva x.1.2.dst) x.1.2.size (some x.2)).isNone)

/-- COPY_PERFORMED (R127, R130): every source is read, then the destinations are written in ascending lane order. -/
def copyDone (s : State) (id : Nat) : Option State :=
  match s.op id with
  | none => none
  | some o =>
    match o.kind with
    | .copy hint lanes =>
      let tl := lanes.filterMap (fun l => (s.thread l.tid).map (fun t => (t, l)))
      let src (p : Thread × CopyLane) : Target := settled s p.1 p.2.sva p.2.src
      let dst (p : Thread × CopyLane) : Target := settled s p.1 p.2.dva p.2.dst
      if !orderAllows s o || tl.any (fun p => targetWaits s p.1 o.id (src p) || targetWaits s p.1 o.id (dst p)) then none
      else
        let ok := tl.filter (fun p => (copyLate s o p).isNone)
        let (s', vs) := copyReads s hint src ok
        let s' := if hint == .counted then countSources s' o.core (ok.map (fun p => (p.1.gang, src p))) else s'
        let w := writable s o (ok.zip vs)
        let s' := copyWrites s' hint dst (w.map Prod.fst) (w.map Prod.snd)
        some (copyFinish ((ok.zip vs).foldl (refuseValue s o) (tl.foldl (refuseLate s o) s')) o lanes)
    | _ => none

def execCopyPerformed (op : Nat) (s : State) : Out := happens s (copyDone s op)

/-! ## Windows -/

/-- GMAP_COMPLETION (R117): every core of the gang writes back and invalidates its L1 lines of the range; the window becomes mapped with empty slots. -/
def gmapDone (s : State) (core win : Nat) : Option State :=
  match s.gangs.find? (fun g => g.gmaps.any (fun r => r.core == core && r.win == win)) with
  | none => none
  | some g =>
    match g.gmaps.find? (fun r => r.core == core && r.win == win) with
    | none => none
    | some r =>
      if !running s g.ctx then none
      else
        let s := (List.range g.cores).foldl (fun s c => l1RangeVa s (g.base + c) g.ctx r.base.toNat (256 * r.ext) true) s
        let s := updWindow s g.id (core - g.base) win (fun w =>
          { w with kind := .mapped { base := r.base, ext := r.ext, slots := List.replicate w.s { granule := none, dirty := 0#256 } } })
        some (retarget (s.updGang g.id (fun g => { g with gmaps := g.gmaps.filter (fun x => x != r) })) g.id)

def execGmapCompletion (core win : Nat) (s : State) : Out := happens s (gmapDone s core win)

/-- An access of a gang that waits to be performed at a granule of a window. -/
def touching (s : State) (g : Gang) (gc win granule : Nat) : Option (W64 × Nat) :=
  s.ops.findSome? (fun o =>
    let tg := match o.kind, s.thread o.tid with
      | .load t .., some th => if th.gang = g.id then some (settled s th o.va t) else none
      | .store t .., some th => if th.gang = g.id then some (settled s th o.va t) else none
      | _, _ => none
    match tg, g.window gc win with
    | some (.window c w va pa), some { kind := .mapped m, .. } =>
      if c = gc && w = win && (va.toNat - m.base.toNat) / 256 = granule && !windowBusy s g c w o.id && !s.viewBusy pa && (s.homeFault pa).isNone
          && !s.dbgRefuses g.ctx pa 1 false then some (va, pa) else none
    | _, _ => none)

/-- WINDOW_FILL (R116): on the first touch by an access, the slot's former dirty bytes are written back and the granule is filled. -/
def windowFills (s : State) (core win granule : Nat) : Option State :=
  (s.gangs.filter (fun g => g.saved.isNone && decide (g.base ≤ core) && decide (core < g.base + g.cores))).findSome? (fun g =>
    (touching s g (core - g.base) win granule).map (fun p => (windowTouch s g.id (core - g.base) win p.1 p.2).1))

def execWindowFill (core win granule : Nat) (s : State) : Out := happens s (windowFills s core win granule)

/-- A window that GUNMAP makes plain: slots that held no granule read zero (R141). -/
def unmapWindow (s : State) (g : Gang) (gc win : Nat) : State :=
  match g.window gc win with
  | some { fs := fs, kind := .mapped m, .. } =>
    let s := ((m.slots.zipIdx).filter (fun p => p.1.granule.isNone)).foldl (fun s p =>
      glenWriteBytes s (g.base + gc) (256 * (fs + p.2)) (List.replicate 256 0#8)) s
    updWindow s g.id gc win (fun w => { w with kind := .plain })
  | _ => s

/-- As a range ceases to be mapped, no L1 line of it is left on the gang's cores: one that another gang of a core has filled meanwhile must not serve the loads that come
after (R270). -/
def unmapLines (s : State) (g : Gang) (gc win : Nat) : State :=
  match g.window gc win with
  | some { kind := .mapped m, .. } => (List.range g.cores).foldl (fun s c => l1RangeVa s (g.base + c) g.ctx m.base.toNat (256 * m.ext) true) s
  | _ => s

/-- A write-back of the window. -/
def Op.ofWindow (core win : Nat) (o : Op) : Bool :=
  match o.kind with
  | .winWb c w _ _ => c == core && w == win
  | _ => false

/-- WINDOW_WRITE_BACK_DONE (R141): the oldest GUNMAP or GFLUSH of the window is performed. -/
def writeBackDone (s : State) (core win : Nat) : Option State :=
  match s.ops.find? (Op.ofWindow core win) with
  | none => none
  | some o =>
    match o.kind, (s.thread o.tid).bind (fun t => s.gang t.gang) with
    | .winWb _ _ unmap tids, some g =>
      let s := windowClean (if unmap then unmapLines s g (core - g.base) win else s) g (core - g.base) win
      let s := if unmap then (match s.gang g.id with
        | some g => unmapWindow s g (core - g.base) win
        | none => s) else s
      let s := tids.foldl (fun s t => countDown s t o.setb) s
      some (tids.foldl sweepThread (s.dropOp o.id))
    | _, _ => none

def execWindowWriteBackDone (core win : Nat) (s : State) : Out := happens s (writeBackDone s core win)

end Sys2Proof.Machine
end

