-- ==== Sys2Proof/Machine/EvMatrix.lean ====
section
/-! DEFINITION. Events of the matrix array (R241 to R251): the beginning and completion of commands, tile fetches, the steps of a loop, its drain, and failures. -/

namespace Sys2Proof.Machine

def arrayOf (s : State) (core : Nat) : MtxArray := (s.core core).array

/-! ## Failures (R243) -/

/-- The underlying code and address of a failure; `sub` is the sub-code of a refused access to global memory, which is logged (R110). -/
structure MtxFault where
  code : Nat
  addr : W64
  sub : Option Nat
deriving DecidableEq, Repr

def mtxProt (a : W64) : MtxFault := { code := 0x07, addr := a, sub := none }

/-- Each pusher receives a pending ENGINE fault; when every pusher has exited, now or later, the error log records it. The answer says whether one is left. -/
def blamePushers (s : State) (core : Nat) (c : MtxCmd) (f : MtxFault) : State × Bool :=
  let live := (c.pushers.map Prod.fst).filter (fun id => (s.thread id).any (fun t => !t.exited))
  let s := match f.sub with
    | some sub => s.logRefused 2 c.ctx core true f.addr f.code sub 0#64
    | none => s
  if live.isEmpty then
    (s.log { kind := 5, code := f.code, sub := 0, agent := 2, ctx := c.ctx, va := f.sub.isSome, core := core, addr := f.addr, clk := s.clk, word3 := 0#64 }, false)
  else (live.foldl (fun s id => s.updThread id (fun t =>
    { t with deferred := t.deferred ++ [{ code := 0x0A, sub := f.code, addr := f.addr, src := 2, due := .mtx, since := s.clk, va := f.sub.isSome }] }))
    { s with blames := s.blames ++ [{ pushers := c.pushers.map Prod.fst, ctx := c.ctx, core := core, code := f.code, addr := f.addr, va := f.sub.isSome }] }, true)

/-- A command other than a loop is abandoned: its count-down is delivered. -/
def abandon (s : State) (core : Nat) (c : MtxCmd) (f : MtxFault) : State :=
  let s := (blamePushers s core c f).1
  let s := updArray s core (fun a => { a with flight := a.flight.filter (fun p => p.1.id != c.id) })
  sweepRow (deliverPushers s c) core c.slot c.gang

/-- A loop stops at the step boundary (R249); with no pusher left it is abandoned as MLOOP.abort abandons it. -/
def stopLoop (s : State) (core : Nat) (l : Loop) (f : MtxFault) : State :=
  let (s, left) := blamePushers s core l.cmd f
  let s := updArray s core (fun a =>
    let part := l.shadowFor.isSome && a.shadow.status != 2
    let shadow := if part then Plane.empty else a.shadow
    let keep := if part then none else l.shadowFor
    { a with shadow := shadow, loop := some { l with stopped := true, fcode := f.code, shadowFor := keep, waitOn := none } })
  if left then s
  else match (arrayOf s core).loop with
    | some l => abortLoop s core l
    | none => s

/-! ## The Glen as the array reads and writes it -/

/-- The Glen place of `n` bytes at a stash address of the command's gang, or the first address that R111 refuses. -/
def glenPlace (s : State) (gid : Nat) (addr : W64) (n : Nat) : Except W64 (Nat × Nat) :=
  match s.gang gid with
  | none => .error addr
  | some g => match stashRange g addr n with
    | some (c, off) => .ok (g.base + c, off)
    | none => .error (match (List.range ((n + 15) / 16)).find? (fun i => (stashAt g (addr + BitVec.ofNat 64 (16 * i))).isNone) with
      | some i => addr + BitVec.ofNat 64 (16 * i)
      | none => addr)

def glenBytes (s : State) (k off n : Nat) : List Byte := Memory.readN (s.core k).glen off n

/-! ## Weight tiles (R236, R242, R245) -/

/-- The outcome of fetching a tile: it waits, asks for a walk, fails, or answers its lines. -/
inductive TileRes where
  | wait
  | walk (page : Nat)
  | bad (f : MtxFault)
  | ok (lines : List Line) (s : State)

/-- One line of a global tile, as a read with HN = 01 through the L1, or served by a mapped window. -/
def fetchLine (s : State) (core : Nat) (c : MtxCmd) (addr : W64) : TileRes :=
  match s.gang c.gang, s.task c.task with
  | some g, some k =>
    match checkGlobal s core g k { va := addr, size := 128, align := 1, rt := rightsR, modes := modesCopySrc, word := false } with
    | .miss p => .walk p
    | .bad _ code sub a => .bad { code := code, addr := a, sub := some sub }
    | .ok tg =>
      if engineWaits s core c.gang tg then .wait
      else
        let (s, v) := engineRead s core c.ctx c.gang tg 128 .stream false
        .ok [BitVec.ofNat 1024 v] s
  | _, _ => .bad { code := 0x08, addr := addr, sub := some 1 }

def fetchLines (s : State) (core : Nat) (c : MtxCmd) (addr : W64) : Nat → TileRes
  | 0 => .ok [] s
  | n + 1 =>
    match fetchLine s core c addr with
    | .ok l s => (match fetchLines s core c (addr + 128#64) n with
      | .ok ls s => .ok (l ++ ls) s
      | r => r)
    | r => r

/-- A whole tile at a base. -/
def fetchTile (s : State) (core : Nat) (c : MtxCmd) (glen : Bool) (base : W64) (ty : ElemTy) (wm : Nat) : TileRes :=
  let n := tileBytes ty wm
  if glen then
    match glenPlace s c.gang base n with
    | .error a => .bad (mtxProt a)
    | .ok (k, off) => .ok ((List.range (n / 128)).map (fun i => BitVec.ofNat 1024 (leNat (glenBytes s k (off + 128 * i) 128)))) s
  else fetchLines s core c base (n / 128)

/-- An MWLD whose tile is being fetched: the first in flight (R254). -/
def loadingTile (a : MtxArray) : Option MtxCmd :=
  (a.flight.find? (fun p => match p.1.kind with
    | .wld .. => true
    | _ => false)).map Prod.fst

/-- The base of a loop's tile t (R245). -/
def tileBase (b : W64) (stride : W32) (t : Nat) : W64 := b + BitVec.ofNat 64 (256 * t) * (stride.extractLsb' 16 16).signExtend 64

/-- The fetch in progress: its command, whether it belongs to the loop, and its outcome. -/
def fetchNow (s : State) (core : Nat) : Option (MtxCmd × Option Loop × TileRes) :=
  let a := arrayOf s core
  if a.shadow.status != 1 then none
  else match loadingTile a, a.loop with
    | some c, _ => (match c.kind with
      | .wld ty wm glen base => if engineRuns s c.ctx then some (c, none, fetchTile s core c glen base ty wm) else none
      | _ => none)
    | none, some l => (match l.cmd.kind, l.shadowFor with
      | .loop _ _ b word stride, some t =>
        if engineRuns s l.cmd.ctx && !l.stopped then
          some (l.cmd, some l, fetchTile s core l.cmd (LoopWord.wsrc word == 1) (tileBase b stride t) (LoopWord.wty word) (LoopWord.wm word))
        else none
      | _, _ => none)
    | none, none => none

/-- TILE_FETCH_COMPLETE (R245): the tile is whole in the shadow plane; a loop that waits for it exchanges the planes. A fetch that misses a translation
asks for the walk. -/
def tileDone (s : State) (core : Nat) : Option State :=
  match fetchNow s core with
  | some (_, _, .ok lines s) => some (updArray s core (fun a => exchange { a with shadow := { a.shadow with status := 2, data := lines } }))
  | some (c, _, .walk p) => engineWalk s core c.ctx p
  | _ => none

def execTileFetchComplete (core : Nat) (s : State) : Out := happens s (tileDone s core)

/-! ## Commands begin (R241, R244) -/

def isWld (c : MtxCmd) : Bool := match c.kind with
  | .wld .. => true
  | _ => false

def loopFetches (l : Loop) : Bool := match l.cmd.kind with
  | .loop _ _ _ word _ => LoopWord.wsrc word != 0
  | _ => false

/-- The condition of the table of R241. -/
def mayBegin (a : MtxArray) (c : MtxCmd) : Bool :=
  let wld := a.flight.any (fun p => isWld p.1)
  match c.kind with
  | .wld .. => !(a.loop.any loopFetches)
  | .wswap => a.loop.isNone && !wld
  | .loop _ _ _ word _ => a.loop.isNone && (LoopWord.wsrc word == 0 || !wld)
  | .accld .. | .accst .. | .drain .. | .zero => a.loop.isNone
  | .epi .. => true
  | .raw => c.pend.isEmpty

/-- Bytes of an element of the drain's output type. -/
def otyBytes (e : Epi) : Nat := match e.oty with
  | .e4m3 | .e5m2 => 1
  | .f16 | .bf16 => 2
  | _ => 4

/-- MDRAIN's writes, row by row (R259). -/
def drainRows (s : State) (gid : Nat) (a : MtxArray) (e : Epi) (addr : W64) (stride : Nat) : List Nat → Except W64 State
  | [] => .ok s
  | m :: ms =>
    let n := otyBytes e
    let row := a.acc.getD m 0#2048
    match glenPlace s gid (addr + BitVec.ofNat 64 (m * stride)) (64 * n) with
    | .error x => .error x
    | .ok (k, off) =>
      let v := (List.range 64).foldr (fun i r => r * 2 ^ (8 * n) + drainWord e a.s32acc i (accWord row i) % 2 ^ (8 * n)) 0
      drainRows (glenWriteN s k off (64 * n) v) gid a e addr stride ms

/-- The effect of a command that is neither a load of weights nor a loop, all at its beginning: the array and the Glen afterwards, or its failure.
One that fails writes none of its bytes or words, of which R243 lets each hold its old or its new value (DESIGN CHOICE, log entry 32). -/
def beginEffect (s : State) (core : Nat) (c : MtxCmd) : Except MtxFault State :=
  let a := arrayOf s core
  match c.kind with
  | .wswap =>
    if a.shadow.status = 2 then .ok (updArray s core (fun a => { a with active := a.shadow, shadow := a.active }))
    else .error (mtxProt 0#64)
  | .accld addr m => (match glenPlace s c.gang addr (256 * m) with
    | .error x => .error (mtxProt x)
    | .ok (k, off) =>
      let rows := (List.range m).map (fun i => BitVec.ofNat 2048 (leNat (glenBytes s k (off + 256 * i) 256)))
      .ok (updArray s core (fun a => { a with acc := rows ++ a.acc.drop m })))
  | .accst addr m => (match glenPlace s c.gang addr (256 * m) with
    | .error x => .error (mtxProt x)
    | .ok (k, off) => .ok ((List.range m).foldl (fun s i => glenWriteN s k (off + 256 * i) 256 (a.acc.getD i 0#2048).toNat) s))
  | .drain addr stride m =>
    if stride < 64 * otyBytes a.epi then .error (mtxProt 0#64)
    else (match drainRows s c.gang a a.epi addr stride (List.range m) with
      | .error x => .error (mtxProt x)
      | .ok s => .ok s)
  | .epi word scale addr =>
    if word.getLsbD 4 then (match glenPlace s c.gang addr 256 with
      | .error x => .error (mtxProt x)
      | .ok (k, off) =>
        let bias := (List.range 64).map (fun i => BitVec.ofNat 32 (leNat (glenBytes s k (off + 4 * i) 4)))
        .ok (updArray s core (fun a => { a with epi := { word := word, scale := scale, bias := bias } })))
    else .ok (updArray s core (fun a => { a with epi := { a.epi with word := word, scale := scale } }))
  | .zero => .ok (updArray s core (fun a => { a with acc := List.replicate 64 0#2048 }))
  | _ => .ok s

/-- A loop begins (R244). One on resident weights that its pairing refuses, or on an empty plane, leaves the accumulator kind as it was: no pairing gives one
(DESIGN CHOICE, log entry 74). -/
def beginLoop (a : MtxArray) (c : MtxCmd) (act : ElemTy) (word : W32) : MtxArray :=
  let w := if LoopWord.wsrc word = 0 then a.active.ty else LoopWord.wty word
  let kind := (pairing w act).getD a.s32acc
  let a := if LoopWord.wsrc word = 0 then a else { a with shadow := Plane.empty }
  let a := if LoopWord.za word then { a with acc := List.replicate 64 0#2048 } else a
  let l : Loop := { cmd := c, stopped := false, fcode := 0, hold := none, mark := false, epi := a.epi, kind32 := kind, tileFor := none,
                    shadowFor := none, drain := [], waitOn := none, part := [] }
  startFetch { a with s32acc := kind, mprog := 0, loop := some l }

/-- MTX_COMMAND_BEGIN (R241): the oldest queued command begins. An MWLD that is abandoned as it begins leaves the shadow plane empty (R243), but for one in which an
earlier MWLD loads its tile: that load goes on (DESIGN CHOICE, log entry 32). -/
def commandBegins (s : State) (core : Nat) : Option State :=
  let a := arrayOf s core
  match a.queue with
  | [] => none
  | c :: rest =>
    if !engineRuns s c.ctx || !mayBegin a c || c.pushers.any (fun p => acquiring s p.1 c.id) then none
    else
      let s := updArray s core (fun a => { a with queue := rest })
      match c.kind with
      | .raw => some (sweepRow s core c.slot c.gang)
      | .loop act _ _ word _ => some (updArray s core (fun a => beginLoop a c act word))
      | .wld ty wm glen base =>
        (match glen, glenPlace s c.gang base (tileBytes ty wm) with
        | true, .error x =>
          some (abandon (updArray s core (fun a => if (loadingTile a).isSome then a else { a with shadow := Plane.empty })) core c (mtxProt x))
        | _, _ => some (updArray s core (fun a =>
          let shadow := if (loadingTile a).isSome then a.shadow else { status := 1, ty := ty, wm := wm, data := [] }
          { a with shadow := shadow, flight := a.flight ++ [(c, a.epi)] })))
      | _ => match beginEffect s core c with
        | .error f => some (abandon s core c f)
        | .ok s => some (updArray s core (fun a => { a with flight := a.flight ++ [(c, a.epi)] }))

def execMtxCommandBegin (core : Nat) (s : State) : Out := happens s (commandBegins s core)

/-! ## Commands complete (R242) -/

/-- A command in flight leaves it; a further MWLD then loads its tile. -/
def leaveFlight (a : MtxArray) (c : MtxCmd) : MtxArray :=
  let a := { a with flight := a.flight.filter (fun p => p.1.id != c.id) }
  if isWld c then
    match loadingTile a with
    | some n => (match n.kind with
      | .wld ty wm _ _ => { a with shadow := { status := 1, ty := ty, wm := wm, data := [] } }
      | _ => a)
    | none => a
  else a

/-- The loop has made its steps and its drain is delivered. -/
def loopFinished (a : MtxArray) : Option Loop :=
  match a.loop with
  | some l => (match l.cmd.kind with
    | .loop _ _ _ word _ => if !l.stopped && decide (LoopWord.steps word ≤ a.mprog) && l.drain.isEmpty then some l else none
    | _ => none)
  | none => none

/-- MTX_COMMAND_COMPLETE (R242, R244). -/
def commandCompletes (s : State) (core : Nat) : Option State :=
  let a := arrayOf s core
  match a.flight.find? (fun p => !isWld p.1 || (loadingTile a == some p.1 && a.shadow.status == 2)) with
  | some (c, _) => some (sweepRow (deliverPushers (updArray s core (fun a => leaveFlight a c)) c) core c.slot c.gang)
  | none => match loopFinished a with
    | some l => some (loopEnds s core l)
    | none => none

def execMtxCommandComplete (core : Nat) (s : State) : Out := happens s (commandCompletes s core)

/-! ## Steps (R244 to R247) -/

/-- Where a step's panel comes from: it waits, fails, has come a part of its way (a row taken from mxa, or a ring on which its pop now stands), or is obtained as its rows, with
the state in which its stage is held. -/
inductive PanelRes where
  | wait
  | part (s : State)
  | bad (f : MtxFault) (s : State)
  | ok (rows : List Nat) (s : State)

/-- The bytes of the panel's rows as numbers. -/
def panelRows (bytes : List Byte) (m len : Nat) : List Nat := (List.range m).map (fun i => leNat ((bytes.drop (i * len)).take len))

/-- The ring on which the loop pops: the one on which its pop stands already, else the issuing row's binding (R144, R246). -/
def panelWin (s : State) (core : Nat) (l : Loop) (second : Bool) : Option Nat :=
  match l.waitOn with
  | some w => some w
  | none => (s.row core l.cmd.slot).bind (fun r => if second then r.st1 else r.st0)

/-- The stage that the loop holds, or that it pops now (R246). -/
def panelStage (s : State) (core : Nat) (l : Loop) (second : Bool) : Option (Nat × Nat × State) :=
  match l.hold with
  | some (w, i) => some (w, i, s)
  | none =>
    match panelWin s core l second, s.gang l.cmd.gang with
    | some w, some g => (match (ringOf g (core - g.base) w).bind Ring.pop with
      | some (i, x) =>
        let s := updRing s g.id (core - g.base) w (fun _ => x)
        some (w, i, updArray s core (fun a => { a with loop := a.loop.map (fun l => { l with hold := some (w, i), waitOn := none }) }))
      | none => none)
    | _, _ => none

/-- The stream register that the loop reads is bound (R123). -/
def panelBound (s : State) (core : Nat) (l : Loop) (second : Bool) : Bool :=
  l.hold.isSome || (match panelWin s core l second, s.gang l.cmd.gang with
    | some w, some g => (ringOf g (core - g.base) w).isSome
    | _, _ => false)

/-- A row of activations from the entries at the head of mxa, which the array discards (R238): none while they are not all there. -/
def takeRow (s : State) (core : Nat) (l : Loop) (len : Nat) : Option State :=
  let q := (len + 4 * Config.W - 1) / (4 * Config.W)
  match s.row core l.cmd.slot with
  | none => none
  | some r =>
    let es := r.mxa.take q
    if es.length < q || es.any (fun e => e.any (fun c => c.pend.isSome)) then none
    else
      let cells (e : List QCell) : List Byte := (List.range Config.W).flatMap (fun n => match e.find? (fun c => c.lane == n) with
        | some c => leBytes c.val.toNat 4
        | none => List.replicate 4 0#8)
      let row := leNat ((es.flatMap cells).take len)
      some (updArray (s.updRow core l.cmd.slot (fun r => { r with mxa := r.mxa.drop q })) core
        (fun a => { a with loop := a.loop.map (fun l => { l with part := l.part ++ [row] }) }))

/-- The panel of the step at MPROG (R246). -/
def panelOf (s : State) (core : Nat) (l : Loop) (act : ElemTy) (addr : W64) (word stride : W32) (mprog : Nat) : PanelRes :=
  let m := LoopWord.rows word
  let len := rowBytes act
  match LoopWord.asrc word with
  | 0 =>
    (match glenPlace s l.cmd.gang (addr + BitVec.ofNat 64 (16 * mprog) * (stride.extractLsb' 0 16).signExtend 64) (m * len) with
    | .error x => .bad (mtxProt x) s
    | .ok (k, off) => .ok (panelRows (glenBytes s k off (m * len)) m len) s)
  | 3 =>
    if m ≤ l.part.length then .ok l.part s
    else (match takeRow s core l len with
      | some s => .part s
      | none => .wait)
  | src =>
    let second := src == 2
    if !panelBound s core l second then .bad (mtxProt 0#64) s
    else match panelStage s core l second with
      | none => if l.waitOn.isSome then .wait
        else .part (updArray s core (fun a => { a with loop := a.loop.map (fun l => { l with waitOn := panelWin s core l second }) }))
      | some (w, i, s) => match s.gang l.cmd.gang with
        | none => .wait
        | some g => match g.window (core - g.base) w with
          | some { fs := fs, kind := .ring r, .. } =>
            let off := 256 * (fs + r.ss * i)
            if 256 * r.ss < m * len then .bad (mtxProt (BitVec.ofNat 64 ((core - g.base) * 2 ^ 20 + off))) s
            else .ok (panelRows (glenBytes s core off (m * len)) m len) (updRing s g.id (core - g.base) w (fun r => r.count i))
          | _ => .wait

/-- The weights of the step are in the active plane and pair with its activations (R245): none while they are awaited. -/
def tileReady (a : MtxArray) (l : Loop) (act : ElemTy) (word : W32) : Option Bool :=
  if LoopWord.wsrc word = 0 then some (a.active.status == 2 && (pairing a.active.ty act).isSome)
  else if l.tileFor = some a.mprog then some true else none

/-- Clk from the entry of row 0 to the result of row 0, column 0 (R247). -/
def drainLatency : Nat := 196

/-- The entries that a drain delivers, in row order. -/
def drainList (s : State) (core : Nat) (a : MtxArray) (l : Loop) (word : W32) : List (Nat × Nat × W32) :=
  let ts := drainThreads s core l
  (List.range (LoopWord.rows word)).flatMap (fun m => ts.map (fun t =>
    (s.clk + entryOff a.active.ty a.active.wm m + t.lane + drainLatency, t.id,
     BitVec.ofNat 32 (epiWord l.epi l.kind32 t.lane (accWord (a.acc.getD m 0#2048) t.lane)).1)))

/-- The array after the additions of one step (R244). -/
def addStep (a : MtxArray) (act : ElemTy) (rows : List Nat) (kind32 : Bool) : MtxArray :=
  let p := a.active
  let mark := stepMarks p act rows
  let acc := (rows.zip a.acc).map (fun x => stepRow p act kind32 x.1 x.2) ++ a.acc.drop rows.length
  { a with acc := acc, mprog := a.mprog + 1, loop := a.loop.map (fun l => { l with hold := none, part := [], mark := l.mark || mark }) }

/-- LOOP_STEP (R244): one step of the running loop, all its additions together. -/
def stepLoop (s : State) (core : Nat) : Option State :=
  let a := arrayOf s core
  match a.loop with
  | none => none
  | some l => match l.cmd.kind with
    | .loop act addr _ word stride =>
      if l.stopped || !engineRuns s l.cmd.ctx || decide (LoopWord.steps word ≤ a.mprog) || tileReady a l act word != some true
          || !drainRoom s core l word a.mprog then none
      else match panelOf s core l act addr word stride a.mprog with
        | .ok rows s =>
          let s := updArray s core (fun a => addStep a act rows l.kind32)
          let a' := arrayOf s core
          let last := decide (LoopWord.steps word ≤ a'.mprog)
          let drain := if last && LoopWord.out word then drainList s core a' l word else []
          some (updArray s core (fun a => exchange { a with loop := a.loop.map (fun l => { l with drain := drain }) }))
        | .part s => some s
        | _ => none
    | _ => none

def execLoopStep (core : Nat) (s : State) : Out := happens s (stepLoop s core)

/-- DRAIN_DELIVERY (R247): the entries that are due reach the mxo queues, in row order. -/
def drainDue (s : State) (core : Nat) : Option State :=
  match (arrayOf s core).loop with
  | none => none
  | some l =>
    let now := s.clk
    let due := l.drain.filter (fun d => decide (d.1 ≤ now))
    if due.isEmpty then none
    else
      let s := due.foldl (fun s d => s.updThread d.2.1 (fun t => if t.exited then t else { t with mxo := t.mxo ++ [d.2.2] })) s
      some (updArray s core (fun a => { a with loop := a.loop.map (fun l => { l with drain := l.drain.filter (fun d => !decide (d.1 ≤ now)) }) }))

def execDrainDelivery (core : Nat) (s : State) : Out := happens s (drainDue s core)

/-! ## Failures after the push (R243, R249) -/

/-- The failure that stops the running loop before the step at MPROG, with the state in which a popped stage is held. -/
def loopFailure (s : State) (core : Nat) : Option (Loop × MtxFault × State) :=
  let a := arrayOf s core
  match a.loop with
  | none => none
  | some l => match l.cmd.kind with
    | .loop act addr _ word stride =>
      if l.stopped || !engineRuns s l.cmd.ctx || decide (LoopWord.steps word ≤ a.mprog) then none
      else match tileReady a l act word with
        | some false => some (l, mtxProt 0#64, s)
        | some true => (match panelOf s core l act addr word stride a.mprog with
          | .bad f s => some (((arrayOf s core).loop).getD l, f, s)
          | _ => none)
        | none => (match fetchNow s core with
          | some (_, some _, .bad f) => if l.shadowFor = some a.mprog then some (l, f, s) else none
          | _ => none)
    | _ => none

/-- A stopped loop whose pushers have all exited is abandoned as MLOOP.abort abandons it (R243). -/
def orphanLoop (s : State) (core : Nat) : Option Loop :=
  match (arrayOf s core).loop with
  | some l => if l.stopped && !l.cmd.pushers.any (fun p => (s.thread p.1).any (fun t => !t.exited)) then some l else none
  | none => none

/-- ENGINE_FAILURE (R243): a weight load is abandoned and leaves the shadow plane empty, or a loop stops. -/
def engineFails (s : State) (core : Nat) : Option State :=
  match fetchNow s core with
  | some (c, none, .bad f) =>
    some (abandon (updArray (dropBadTlb s core c.ctx f.addr) core (fun a => leaveFlight { a with shadow := Plane.empty } c)) core c f)
  | _ => match loopFailure s core with
    | some (l, f, s) => some (stopLoop (dropBadTlb s core l.cmd.ctx f.addr) core l f)
    | none => (orphanLoop s core).map (abortLoop s core)

def execEngineFailure (core : Nat) (s : State) : Out := happens s (engineFails s core)

end Sys2Proof.Machine
end

