-- ==== Sys2Proof/Machine/Launch.lean ====
section
/-! DEFINITION. A thread at its launch (R288), its row (R14), and a machine in which one instruction word is about to issue. -/

namespace Sys2Proof.Machine

/-- A thread as a launch leaves it (R288). -/
def Thread.atLaunch (id core slot lane ctx task gang tid : Nat) (pc : W64) (lclock : Nat) : Thread :=
  { id := id, core := core, slot := slot, lane := lane, ctx := ctx, task := task, gang := gang, tid := tid, pc := pc, resume := none, names := [],
    flight := [], zombies := [], preds := 0#8, predPend := [], flags := List.replicate 12 0, draw := 0#64, lclock := lclock, leased := 0, floor := lclock,
    teams := 0#64, curTeam := none, rank := 0xFFFFFFFF#32, tsize := 0#32, trap := TrapRegs.reset, faultAt := none, replay := none, deferred := [],
    stops := 0#8, tag := 0#16, halted := none, halting := false, passHdr := false, edit := none, lastOrd := 0#16, parked := false, spilled := false,
    stopped := false, exited := false, nap := none, bar := none, blocked := none, quotaDue := false, heldFor := 0, victimOf := none, streamWait := [], mxo := [], cps := [],
    cpsLost := false, hof := [], rung := none, prevEnd := none }

def Row.atLaunch (core slot gang : Nat) : Row := { core := core, slot := slot, gang := gang, mxa := [], st0 := none, st1 := none }

def Gang.atLaunch (id task ctx : Nat) (index : W32) (base cores threads rpc : Nat) (slots : List (List Nat)) (arr : Bool)
    (windows : List (List Window)) : Gang :=
  { id := id, task := task, ctx := ctx, index := index, base := base, cores := cores, threads := threads, rpc := rpc, slots := slots, arr := arr,
    windows := windows, teams := [], gbar := [], gmaps := [], saved := none }

/-! ## One word in place (log entry 2) -/

/-- An engine whose clauses admit the word (R55). -/
def engFor (x : W64) : Nat :=
  match (x.extractLsb' 60 4).toNat with
  | 0 => 4 | 6 => 5 | 9 => 1 | 10 => 1 | 11 => 3 | 12 => 2 | 13 => 4 | 14 => 6
  | _ => 0

/-- The address of the header of the placed clause. -/
def placedAt : W64 := 0x10000#64

/-- The clause that holds one word. -/
def placedClause (x : W64) : Clause :=
  { addr := placedAt, words := [x], idx := 0
    hdr := { eng := engFor x, cnt := 0, wait := 0#12, seta := 15, setb := 15, dist := 0, notch := false, spo := 0#16, live := 0 } }

/-- A machine in which one thread of a running task of context 0, seated at core 0, slot 0, lane 0, has fetched a clause of one word, and the next
move issues that word. -/
def placeWord (s : State) (x : W64) : State :=
  let id := s.nextUid
  let tid := s.nextSeq
  let t := Thread.atLaunch tid 0 0 0 0 id (id + 1) 0 placedAt 0
  let k : Task := { Task.atSubmit id 0 0x1000#64 0 0 3 with
    regions := [{ base := 0x10000, ext := 256, mode := 6, scope := 0, act := 0 }], used := placedAt, placed := 1, cores := [0], dispatched := true }
  let e : Entry := { uid := id + 2, index := some 0, ctx := 0, pc := placedAt, members := [tid], ready := 0, yieldEnd := 0, overdueAt := none,
                     rdv := false, own := false, run := some { clause := placedClause x, released := false, issued := false, stall := none }, lastIssue := none, first := none }
  let s := { s with
    nextUid := id + 3, nextSeq := tid + 1, threads := t :: s.threads, tasks := k :: s.tasks, rows := Row.atLaunch 0 0 (id + 1) :: s.rows
    gangs := Gang.atLaunch (id + 1) id 0 0#32 0 1 1 1 [[0]] false [List.replicate 16 { fs := 0, s := 0, kind := .absent }] :: s.gangs
    agenda := .issue 0 (id + 2) :: s.agenda }
  let s := s.updCtx 0 (fun c => { c with st := 1, dispatched := true })
  s.updCore 0 (fun c => ({ c with entries := e :: c.entries, issuedA := none, issuedB := none }).setPipe (onA (engFor x)) (some (id + 2)))

end Sys2Proof.Machine
end

