-- ==== Sys2Proof/Machine/EvTask.lean ====
section
/-! DEFINITION. Events of the task engines (R329 to R341): dispatch with its checks, the placement of gangs with their start actions, retirement, and the three
phases of the edge. -/

namespace Sys2Proof.Machine

/-! ## Arbitration (R329, R330) -/

/-- Two region records of two tasks conflict (R329); X counts as a read. -/
def Region.conflicts (a b : Region) : Bool :=
  let writes (r : Region) : Bool := r.mode == 2 || r.mode == 3 || r.mode == 5
  a.mode != 4 && b.mode != 4 && a.overlaps b && (writes a || writes b)

def conflict (a b : Task) : Bool := a.regions.any (fun r => b.regions.any r.conflicts)

/-- The first condition of R330. -/
def queueClear (s : State) (k : Task) : Bool :=
  match k.pred.bind s.task with
  | none => true
  | some p => p.ended || (ctlOvl k.ctl.toNat && !conflict k p)

/-- `a` ranks ahead of `b` (R330). -/
def ranksAhead (a b : Task) : Bool :=
  decide (ctlPrio b.ctl.toNat < ctlPrio a.ctl.toNat) || (ctlPrio a.ctl.toNat == ctlPrio b.ctl.toNat && decide (a.seq < b.seq))

/-- A task in QUEUED is startable (R330). One that is dispatched and still QUEUED holds back as a running one. -/
def startable (s : State) (k : Task) : Bool :=
  k.state == 2 && !k.dispatched && queueClear s k
  && !(s.tasks.any (fun u => u.id != k.id && u.ctx == k.ctx && conflict k u
        && (u.state == 3 || u.state == 4 || u.dispatched || (u.state == 2 && queueClear s u && ranksAhead u k))))

/-- The task that its context dispatches next (R331). -/
def dispatchable (s : State) (k : Task) : Bool :=
  engineRuns s k.ctx && startable s k && !(s.tasks.any (fun u => u.id != k.id && u.ctx == k.ctx && startable s u && ranksAhead u k))

/-! ## The gang record (R324) -/

/-- One window word: absent, or its fields, or malformed. -/
def parseWindow (rs : Option (List Region)) (w : Nat) : Option (Option (Nat × Nat × Nat × Nat × Bool)) :=
  if !w.testBit 31 then (if w = 0 then some none else none)
  else
    let fs := bitsAt w 11 0
    let n := bitsAt w 28 16
    let mreg := bitsAt w 39 36
    let mext := bitsAt w 63 40 + 1
    let pf := w.testBit 35
    let premap := if mreg = 0 then !pf else (match rs with
      | none => true
      | some rs => (match rs[mreg - 1]? with
        | some r => (r.mode == 1 || r.mode == 2 || r.mode == 3 || r.mode == 5) && decide (256 * mext ≤ r.bytes)
        | none => false))
    if bitsAt w 34 32 != 0 || bitsAt w 30 29 != 0 || bitsAt w 15 12 != 0 || n == 0 || decide (4096 < n) || decide (4096 < fs + n) || !premap then none
    else some (some (fs, n, mreg, mext, pf))

def windowsOverlap : List (Option (Nat × Nat × Nat × Nat × Bool)) → Bool
  | [] => false
  | none :: l => windowsOverlap l
  | some (f, n, _) :: l => l.any (fun x => match x with
      | some (f', n', _) => decide (f < f' + n') && decide (f' < f + n)
      | none => false) || windowsOverlap l

/-- A gang record from its 17 words, or none where it is malformed or no die can seat it (R286, R324). A rung's record ignores T (R350). -/
def parseGang (rs : Option (List Region)) (ws : List Nat) (rung : Bool) : Option GangRec :=
  let h := ws.getD 0 0
  let t := bitsAt h 31 8
  let lc := bitsAt h 2 0
  let wins := (List.range 16).map (fun i => parseWindow rs (ws.getD (i + 1) 0))
  let shape := if rung then lc == 0 else decide (1 ≤ t) && decide (t ≤ 2 ^ lc * Config.slots * Config.W)
  if bitsAt h 63 32 != 0 || bitsAt h 7 5 != 0 || h.testBit 3 || decide (4 < lc) || !shape || wins.any Option.isNone then none
  else
    let l := wins.map (fun w => w.getD none)
    if windowsOverlap l then none else some { threads := t, cores := 2 ^ lc, arr := h.testBit 4, wins := l }

/-! ## Dispatch (R332, R333) -/

/-- An address word whose bits [63:48] and those below `low` are zero. -/
def addrOk (w low : Nat) : Bool := bitsAt w 63 48 == 0 && w % 2 ^ low == 0

/-- The outcome of a dispatch: the refusal reasons that apply, USED where it can be read, and the gang record. -/
structure Dispatch where
  reasons : List Nat
  used : Option W64
  grec : Option GangRec
  /-- the reads that were refused -/
  faults : List (Nat × Nat × W64)

/-- The regions that a gang record's windows are held against; none where the region records cannot be read, which is reason 5 alone (R333). -/
def Task.known (k : Task) : Option (List Region) := if k.regionWords.isEmpty then none else some k.regions

/-- The words of the record from 0x20 to 0x78 within their limits (R320); LOBJ stands in word 0x68 of a ladder task. -/
def recordLimits (h : List Nat) (ladder : Bool) : Bool :=
  let w (off : Nat) : Nat := h.getD (off / 8) 0
  (ladder || (addrOk (w 0x20) 3 && addrOk (w 0x28) 3 && addrOk (w 0x30) 6 && w 0x68 == 0)) && addrOk (w 0x38) 3 && addrOk (w 0x40) 3
    && w 0x70 == 0 && w 0x78 == 0

/-- The checks of an ordinary task. -/
def dispatchChecks (s : State) (k : Task) : Dispatch :=
  match unitWords s k.ctx k.recAddr 16 with
  | .error f => { reasons := [k.reason, 5], used := none, grec := none, faults := [f] }
  | .ok (_, h) =>
    let w (off : Nat) : Nat := h.getD (off / 8) 0
    let limits := if recordLimits h false then 0 else 1
    let slot := bitsAt (w 0x28) 47 3 * 8
    let used : Except (Nat × Nat × W64) Nat := if w 0x28 = 0 then .ok (w 0x20) else (match unitRead s k.ctx (BitVec.ofNat 64 slot) 8 with
      | .ok (_, v) => .ok v
      | .error f => .error f)
    let (r6, u, f6) : List Nat × Option W64 × List (Nat × Nat × W64) := match used with
      | .error f => ([5], none, [f])
      | .ok v => (if addrOk v 3 then [] else [6], some (BitVec.ofNat 64 v), [])
    let (rg, g, fg) : List Nat × Option GangRec × List (Nat × Nat × W64) := match unitWords s k.ctx (BitVec.ofNat 64 (bitsAt (w 0x30) 47 6 * 64)) 17 with
      | .error f => ([5], none, [f])
      | .ok (_, ws) => (match parseGang k.known ws false with
        | none => ([4], none, [])
        | some g => ([], some g, []))
    { reasons := k.reason :: limits :: r6 ++ rg, used := u, grec := g, faults := f6 ++ fg }

/-- The reason that a refusal gives: the smallest that applies (log entry 21). -/
def leastReason (l : List Nat) : Nat := ((l.filter (fun r => r != 0)).min?).getD 0

/-- The refused reads that are logged (R110): where a smaller reason refuses the task, the engine has not made them (log entry 21). -/
def Dispatch.refusedReads (d : Dispatch) : List (Nat × Nat × W64) := if leastReason d.reasons = 5 then d.faults else []

/-- A task that has ended is no longer a task of the device (R322). -/
def forget (s : State) (task : Nat) : State := { s with tasks := s.tasks.filter (fun k => k.id != task) }

/-- STATE = REFUSED with REASON, recorded in the error log (R333). -/
def refuseTask (s : State) (k : Task) (agent reason : Nat) : State :=
  let s := publish (s.updTask k.id (fun k => { k with state := 8, reason := reason })) k.id
  forget (s.log { kind := 2, code := reason, sub := 0, agent := agent, ctx := k.ctx, va := true, core := 0, addr := k.recAddr, clk := s.clk, word3 := 0#64 }) k.id

/-- The FWD regions that tasks with an edge to this one have left (R334). -/
def takeForwards (s : State) (k : Task) : State :=
  let mine := (s.fwdEdges.filter (fun e => e.1 == k.recPa)).map Prod.snd
  { s with fwdEdges := s.fwdEdges.filter (fun e => e.1 != k.recPa) }.updTask k.id (fun k => { k with fwd := k.fwd ++ mine })

/-- The entry address that a dispatch has read is written to USED (R332). -/
def writeUsed (s : State) (k : Task) (used : Option W64) : State :=
  match used with
  | some u => recWrite s k.ctx (k.recAddr + 0x58#64) 8 u.toNat
  | none => s

/-- TASK_DISPATCH (R332, R333). -/
def dispatch (s : State) (task : Nat) : Option State :=
  match s.task task with
  | none => none
  | some k =>
    if !dispatchable s k || k.lobj.isSome then none
    else
      let d := dispatchChecks s k
      let s := writeUsed (readsRefused (s.updCtx k.ctx (fun c => { c with dispatched := true })) 3 k.ctx d.refusedReads) k d.used
      match leastReason d.reasons with
      | 0 => some (takeForwards (s.updTask task (fun k => { k with used := d.used.getD 0#64, grec := d.grec, dispatched := true })) k)
      | r => some (refuseTask s k 3 r)

def execTaskDispatch (task : Nat) (s : State) : Out := happens s (dispatch s task)

/-! ## Seats (R286, R287) -/

/-- The context holds its seats (R290): RESIDENT, SAVING or RESTORING. A SAVED context that is to be restored waits for them. -/
def holdsSeats (s : State) (c : Nat) : Bool := (s.ctx c).st == 1 || (s.ctx c).st == 2 || (s.ctx c).st == 4

/-- The slot is free in every lane of the core. -/
def slotFree (s : State) (core slot : Nat) : Bool :=
  !(s.threads.any (fun t => t.core == core && t.slot == slot && holdsSeats s t.ctx))
  && !(s.rows.any (fun r => r.core == core && r.slot == slot && (s.gang r.gang).any (fun g => holdsSeats s g.ctx)))

/-- The lowest free slots of a core, `n` of them. -/
def freeSlots (s : State) (core n : Nat) : Option (List Nat) :=
  let l := ((List.range Config.slots).filter (slotFree s core)).take n
  if l.length = n then some l else none

/-- Glen slot ranges that windows of placed gangs take on a core. -/
def takenGlen (s : State) (core : Nat) : List (Nat × Nat) :=
  (s.gangs.filter (fun g => holdsSeats s g.ctx && decide (g.base ≤ core) && decide (core < g.base + g.cores))).flatMap (fun g =>
    ((g.windows.getD (core - g.base) []).filter (fun w => w.kind != .absent)).map (fun w => (w.fs, w.s)))

def glenFree (s : State) (core : Nat) (g : GangRec) : Bool :=
  g.wins.all (fun w => match w with
    | none => true
    | some (f, n, _) => (takenGlen s core).all (fun r => decide (f + n ≤ r.1) || decide (r.1 + r.2 ≤ f)))

/-- A core can take its share of a gang of `rpc` rows per core. -/
def coreTakes (s : State) (core rpc : Nat) (g : GangRec) : Option (List Nat) :=
  if glenFree s core g && (!g.arr || (s.core core).array.gang.isNone) then freeSlots s core rpc else none

/-- The cores of a block, each with its slots; none unless every core can be given its share. -/
def blockSlots (s : State) (base rpc : Nat) (g : GangRec) : Option (List (List Nat)) :=
  (List.range g.cores).foldr (fun i acc => match acc, coreTakes s (base + i) rpc g with
    | some l, some x => some (x :: l)
    | _, _ => none) (some [])

/-- The block lies on one compute die, at a multiple of its size (R286). -/
def blockOk (base : Nat) (g : GangRec) : Bool :=
  base % g.cores == 0 && decide (base + g.cores ≤ Config.cores) && dieOf base == dieOf (base + g.cores - 1)

/-! ## Placement (R288, R334) -/

/-- The windows of a gang's core as placement leaves them (R112, R334). -/
def placedWindows (k : Task) (g : GangRec) : List Window :=
  g.wins.map (fun w => match w with
    | none => { fs := 0, s := 0, kind := .absent }
    | some (f, n, mreg, mext, _) =>
      let kind : WinKind := (match (if mreg = 0 then none else k.regions[mreg - 1]?) with
        | some r => .mapped { base := BitVec.ofNat 64 r.base, ext := mext, slots := List.replicate n { granule := none, dirty := 0#256 } }
        | none => .plain)
      { fs := f, s := n, kind := kind })

/-- Window bytes read zero at placement (R112). -/
def clearWindows (s : State) (core : Nat) (g : GangRec) : State :=
  s.updCore core (fun k =>
    let glen := g.wins.foldl (fun m w => (match w with
      | some (f, n, _) => Memory.clear m (256 * f) (256 * n)
      | none => m)) k.glen
    { k with glen := glen })

/-- The start actions on one core (R334): the L1 lines of R, RW, CPL and SCR regions and of premapped ranges leave, and so do the instruction cache's
lines of X regions (R273, R275, R284). -/
def startCore (s : State) (k : Task) (g : GangRec) (core : Nat) : State :=
  let s := (k.regions.filter (fun r => r.mode == 1 || r.mode == 3 || r.mode == 4 || r.mode == 5 || r.mode == 6)).foldl (fun s r => l1RangeVa s core k.ctx r.base r.bytes true) s
  let s := g.wins.foldl (fun s w => match w with
    | some (_, _, mreg, mext, _) => (match (if mreg = 0 then none else k.regions[mreg - 1]?) with
      | some r => l1RangeVa s core k.ctx r.base (256 * mext) true
      | none => s)
    | none => s) s
  s.updCore core (fun x => { x with
    icache := x.icache.filter (fun l => !k.regions.any (fun r => r.mode == 6 && l.within k.ctx r.base r.bytes)) })

/-- Granules of a range that have a slot of their own (R115). -/
def ownGranules (ext n : Nat) : List Nat :=
  if ext ≤ n then List.range ext else (List.range (min n ext)).filter (fun i => decide (ext ≤ i + n))

/-- The engine fills a granule of a premapped window of gang core `c` (R334). A view that is being flushed is flushed first (R91), and a read that is refused fills
nothing and is logged (R99, R103, R110, R399). -/
def fillGranule (s : State) (k : Task) (gid c w : Nat) (va : W64) : State :=
  match translateDirect s k.ctx va rightsR with
  | .ok pa =>
    if s.paKind pa == .peer then (windowTouch s gid c w va pa).1
    else if s.dbgMeets (pa, 256) then readsRefused s 3 k.ctx [(0x07, 2, va)]
    else (match afterFlush s pa va with
      | .error f => readsRefused s 3 k.ctx [f]
      | .ok s => match afterFlush s (pa + 128) (va + 128#64) with
        | .error f => readsRefused s 3 k.ctx [f]
        | .ok s => (windowTouch s gid c w va pa).1)
  | .bad _ code sub a => readsRefused s 3 k.ctx [(code, sub, a)]
  | .miss _ => s

/-- Prefill from a forwarding predecessor, on each of the gang's cores (R334). -/
def prefill (s : State) (k : Task) (gid : Nat) (g : GangRec) : State :=
  (g.wins.zipIdx).foldl (fun s p => match p.1 with
    | some (_, n, mreg, mext, true) => (match (if mreg = 0 then none else k.regions[mreg - 1]?) with
      | some r =>
        if k.fwd.any (fun f => decide (f.1 ≤ r.base) && decide (r.base + 256 * mext ≤ f.1 + f.2)) then
          (List.range g.cores).foldl (fun s c =>
            (ownGranules mext n).foldl (fun s i => fillGranule s k gid c p.2 (BitVec.ofNat 64 (r.base + 256 * i))) s) s
        else s
      | none => s)
    | _ => s) s

/-- The seats of a gang: thread t's core index, row and lane (R287). -/
def seatOf (rpc t : Nat) : Nat × Nat × Nat := (t / (rpc * Config.W), t % (rpc * Config.W) / Config.W, t % Config.W)

/-- A gang is placed with its threads, rows and table entries (R286 to R292); `dress` gives a rung thread its frame. -/
def placeGang (s : State) (k : Task) (g : GangRec) (base threads : Nat) (slots : List (List Nat)) (index : W32) (pc : W64) (rpc : Nat)
    (dress : Thread → Thread) : State :=
  let cores := (List.range g.cores).map (fun i => base + i)
  let s := cores.foldl (fun s c => clearWindows (startCore s k g c) c g) s
  let (gid, s) := s.fresh
  let gang := Gang.atLaunch gid k.id k.ctx index base g.cores threads rpc slots g.arr (List.replicate g.cores (placedWindows k g))
  let s := { s with gangs := s.gangs ++ [gang] }
  let s := if g.arr then cores.foldl (fun s c => s.updCore c (fun x => { x with array := { MtxArray.reset with gang := some gid } })) s else s
  let s := prefill s k gid g
  let clock := s.startClock
  let first := s.nextSeq
  let seat (t : Nat) : Thread :=
    let (c, r, l) := seatOf rpc t
    dress (Thread.atLaunch (first + t) (base + c) ((slots.getD c []).getD r 0) l k.ctx k.id gid t pc clock)
  let ts := (List.range threads).map seat
  let s := { s with threads := s.threads ++ ts, nextSeq := first + threads }
  (List.range g.cores).foldl (fun s c => (slots.getD c []).foldl (fun s sl =>
    let ms := (ts.filter (fun t => t.core == base + c && t.slot == sl)).map Thread.id
    if ms.isEmpty then s
    else newEntry { s with rows := s.rows ++ [Row.atLaunch (base + c) sl gid] } (base + c) k.ctx pc ms none 0 0 none) s) s

/-- The compute die of a placement is running; an idle one is woken first (R432). -/
def dieReady (s : State) (die : Nat) : Option (Option State) :=
  match s.power[die]? with
  | none => none
  | some p =>
    if p.st = 0 then (if p.goal.any (fun g => decide (2 ≤ g.1)) then none else some none)
    else if p.st = 1 && p.goal.isNone then
      some (some { s with power := s.power.set die { p with goal := some (0, s.clk + Config.idleToRun) } })
    else none

/-- GANG_PLACEMENT (R286, R331, R334): the next gang of a dispatched task takes the block at `base`. -/
def placement (s : State) (task base : Nat) : Option State :=
  match s.task task with
  | none => none
  | some k => match k.grec with
    | none => none
    | some g =>
      let rpc := (g.threads + g.cores * Config.W - 1) / (g.cores * Config.W)
      if !k.dispatched || k.ladder.isSome || !engineRuns s k.ctx || k.fail != 0 || decide (ctlGangs k.ctl.toNat ≤ k.placed) || 3 < k.state
          || !blockOk base g then none
      else match blockSlots s base rpc g with
        | none => none
        | some slots => match dieReady s (dieOf base) with
          | none => none
          | some (some s) => some s
          | some none =>
            let s := placeGang s k g base g.threads slots (BitVec.ofNat 32 k.placed) k.used rpc (fun t => t)
            let cores := sortNats (dedupNats (k.cores ++ (List.range g.cores).map (fun i => base + i)))
            let s := s.updTask task (fun k => { k with placed := k.placed + 1, cores := cores, state := 3 })
            some (if k.state = 3 then s else publish s task)

def execGangPlacement (task base : Nat) (s : State) : Out := happens s (placement s task base)

/-! ## Retirement (R338) -/

/-- The array has nothing left that it can do for the gang. -/
def arrayQuiet (s : State) (core gid : Nat) : Bool :=
  let a := (s.core core).array
  a.gang != some gid || (a.flight.isEmpty && (orphanLoop s core).isNone && (commandBegins s core).isNone && (fetchNow s core).isNone && (stepLoop s core).isNone
    && (loopFailure s core).isNone && (loopFinished a).isNone && (a.loop.all (fun l => l.drain.isEmpty)))

/-- A ring fill that waits for a stage that nobody will free. -/
def fillStuck (s : State) (core : Nat) (c : CopyCmd) : Bool := c.ring.isSome && !fillReady s core c

/-- The copy engine has nothing left that it can do for the gang. -/
def copiesQuiet (s : State) (core gid : Nat) : Bool :=
  let k := s.core core
  let entry (e : CpEntry) : Bool := match e with
    | .cmd c => c.gang != gid || fillStuck s core c
    | .raw .. => true
  k.cpq.all entry && k.cpback.all entry
    && k.cprun.all (fun r => r.cmd.gang != gid || (r.stage.isNone && !r.atEnd && fillStuck s core r.cmd))

def coresOf (g : Gang) : List Nat := (List.range g.cores).map (fun i => g.base + i)

/-- A gang may retire: its last thread's effects are performed and its engines have come to rest (R310, R338; log entry 22). -/
def retires (s : State) (g : Gang) : Bool :=
  running s g.ctx && !(s.threads.any (fun t => t.gang == g.id)) && (coresOf g).all (fun c => arrayQuiet s c g.id && copiesQuiet s c g.id)

/-- The seats, windows, array and remaining commands of a gang are freed. -/
def freeGang (s : State) (g : Gang) : State :=
  let s := (coresOf g).foldl (fun s c =>
    let s := (List.range 16).foldl (fun s w => match s.gang g.id with
      | some g => windowClean s g (c - g.base) w
      | none => s) s
    s.updCore c (fun k =>
      let other (e : CpEntry) : Bool := match e with
        | .cmd m => m.gang != g.id
        | .raw .. => true
      { k with cpq := k.cpq.filter other, cpback := k.cpback.filter other, cprun := k.cprun.filter (fun r => r.cmd.gang != g.id)
               array := if k.array.gang = some g.id then MtxArray.reset else k.array })) s
  { s with gangs := s.gangs.filter (fun x => x.id != g.id), rows := s.rows.filter (fun r => r.gang != g.id), owed := s.owed.filter (fun o => o.gang != g.id) }

/-- A write of the ladder unit that is not performed is logged, and fails the task (R448). -/
def ladderFails (s : State) (k : Task) (code sub : Nat) (addr : W64) : State :=
  failTask (s.logRefused 4 k.ctx 0 true addr code sub 0#64) k.id code

/-- A ladder whose watermark has reached N and whose launched gangs have retired (R361). -/
def ladderOver (s : State) (k : Task) : Bool :=
  match k.ladder with
  | none => false
  | some l => k.state == 3 && k.fail == 0 && l.zeroed && decide (l.n ≤ l.watermark) && l.wmDue.isEmpty && l.due.isEmpty && l.writes.isEmpty
      && !(s.gangs.any (fun g => g.task == k.id))

/-- What the retirement of a task's gang leads to: EDGE after its last one (R338, R341, R361). -/
def afterRetire (s : State) (task : Nat) : State :=
  match s.task task with
  | none => s
  | some k =>
    let left := s.gangs.any (fun g => g.task == task)
    if k.state != 3 || left then s
    else if k.fail != 0 then toEdge s task
    else if k.ladder.isSome then (if ladderOver s k then toEdge s task else s)
    else if decide (ctlGangs k.ctl.toNat ≤ k.retired) then toEdge s task else s

/-- GANG_RETIREMENT (R338). -/
def retirement (s : State) (gang : Nat) : Option State :=
  match s.gang gang with
  | none => none
  | some g =>
    if !retires s g then none
    else
      let s := freeGang s g
      let s := s.updTask g.task (fun k => { k with retired := k.retired + 1, ladder := k.ladder.map (fun l => { l with retired := l.retired + 1 }) })
      some (afterRetire (publish s g.task) g.task)

def execGangRetirement (gang : Nat) (s : State) : Out := happens s (retirement s gang)

/-! ## The edge (R339, R340) -/

def setCursor (s : State) (task ph rix six off : Nat) : State :=
  publishCursor (s.updTask task (fun k => { k with cursor := { ph := ph, rix := rix, six := six, off := off } })) task

/-- FWD regions of a task (R323). -/
def forwards (k : Task) : List (Nat × Nat) := (k.regions.filter (fun r => r.act == 2)).map (fun r => (r.base, r.bytes))

/-- The end of a task, a failed one too (R341): tasks behind it in its queue and by arbitration have an edge from it (R275, R330), and it is forgotten. -/
def endTask (s : State) (k : Task) (st : Nat) : State :=
  let s := s.updTask k.id (fun k => { k with state := st, cursor := { ph := 4, rix := 0, six := 0, off := 0 } })
  let s := publish (publishCursor s k.id) k.id
  let held (u : Task) : Bool := u.ctx == k.ctx && u.state == 2 && (conflict u k || (u.pred == some k.id && !ctlOvl u.ctl.toNat))
  forget { s with tasks := s.tasks.map (fun u => if held u then { u with fwd := u.fwd ++ forwards k } else u) } k.id

/-- The entries of a task's successor list. -/
def successors (k : Task) : Nat := bitsAt k.ctl.toNat 63 56

/-- One line of a region leaves the L1s of the task's cores, as its mode and action say (R276, R339). -/
def edgeLine (s : State) (k : Task) (r : Region) (line : Nat) : State :=
  k.cores.foldl (fun s c =>
    if r.mode = 5 then l1Drop s c line else if r.act = 1 then l1Flush s c line else l1Clean s c line) s

/-- Phase 1 acts on the region (R339). -/
def Region.edges (r : Region) : Bool := (r.mode == 2 || r.mode == 3 || r.mode == 5) && r.bytes != 0

/-- The next action after the regions before `i` (R339): a line of a region, the successors, or the signal; a failing task has none and ends (R341). -/
def edgeFrom (s : State) (k : Task) (i : Nat) : State :=
  match (List.range k.regions.length).find? (fun j => decide (i ≤ j) && (k.regions[j]?.any Region.edges)) with
  | some j => setCursor s k.id 1 j 0 0
  | none =>
    if k.fail != 0 then endTask s k 6
    else if successors k = 0 then setCursor s k.id 3 0 0 0
    else setCursor s k.id 2 0 0 0

/-- The next action after the line that CURSOR names. -/
def edgeNext (s : State) (k : Task) (r : Region) : State :=
  if k.cursor.off + 128 < r.bytes then setCursor s k.id 1 k.cursor.rix 0 (k.cursor.off + 128) else edgeFrom s k (k.cursor.rix + 1)

/-- EDGE_WRITE_BACK_LINE (R339, R340): the action that CURSOR names. -/
def edgeStep (s : State) (task : Nat) : Option State :=
  match s.task task with
  | none => none
  | some k =>
    let c := k.cursor
    if k.state != 4 || c.ph != 1 || !engineRuns s k.ctx then none
    else match k.regions[c.rix]? with
      | none => some (edgeFrom s k c.rix)
      | some r =>
        if !r.edges || decide (r.bytes ≤ c.off) then some (edgeFrom s k (c.rix + 1))
        else
          match translateDirect s k.ctx (BitVec.ofNat 64 (r.base + c.off)) { r := false, w := false, x := false } with
          | .ok pa =>
            if s.viewBusy pa then none else some (edgeNext (edgeLine s k r (pa / 128)) k r)
          | _ => some (edgeNext s k r)

def execEdgeWriteBackLine (task : Nat) (s : State) : Out := happens s (edgeStep s task)

/-- SUCCL as phase 2 reads it: none where the list is to be skipped whole. -/
def readList (s : State) (k : Task) : Except (Nat × Nat × W64) W64 :=
  match unitRead s k.ctx (k.recAddr + 0x38#64) 8 with
  | .error e => .error e
  | .ok (_, v) =>
    let base := BitVec.ofNat 64 (bitsAt v 47 3 * 8)
    let fails := (List.range (successors k)).filterMap (fun i => match unitRead s k.ctx (base + BitVec.ofNat 64 (8 * i)) 8 with
      | .error e => some e
      | .ok _ => none)
    match fails with
    | e :: _ => if fails.length = successors k then .error e else .ok base
    | [] => .ok base

/-- One successor's decrement (R339): what fails is logged and skipped, an error completion of a peer too (R264; log entry 7). -/
def decrementSuccessor (s : State) (k : Task) (list : W64) (i : Nat) : State :=
  match unitRead s k.ctx (list + BitVec.ofNat 64 (8 * i)) 8 with
  | .error (code, sub, a) => s.logRefused 3 k.ctx 0 true a code sub 0#64
  | .ok (s, e) =>
    let va := BitVec.ofNat 64 e
    if e % 128 != 0 || bitsAt e 63 48 != 0 then s.logRefused 3 k.ctx 0 true va 0x07 5 0#64
    else match translateDirect s k.ctx (va + 8#64) rightsRW with
      | .bad _ code sub a => s.logRefused 3 k.ctx 0 true a code sub 0#64
      | .miss _ => s
      | .ok pa =>
        let refused (s : State) : State := s.logRefused 3 k.ctx 0 true (va + 8#64) 0x07 6 0#64
        match s.paKind pa with
        | .peer => let (r, s) := s.free; if r.getLsbD 0 then refused s else s
        | .view _ => refused s
        | _ =>
          let o := decrement (s.stampWrite (pa / 128)) k.ctx (va + 8#64) pa 1
          if (s.dbgWindow pa).isNone && o.ok then { o.s with fwdEdges := o.s.fwdEdges ++ (forwards k).map (fun f => (pa - 8, f.1, f.2)) }
          else refused s

/-- SUCCESSOR_DECREMENT (R339, R340). -/
def successorStep (s : State) (task : Nat) : Option State :=
  match s.task task with
  | none => none
  | some k =>
    if k.state != 4 || k.cursor.ph != 2 || !engineRuns s k.ctx then none
    else if decide (successors k ≤ k.cursor.six) then some (setCursor s task 3 0 0 0)
    else match k.succl with
      | some l =>
        let s := decrementSuccessor s k l k.cursor.six
        some (if k.cursor.six + 1 < successors k then setCursor s task 2 0 (k.cursor.six + 1) 0 else setCursor s task 3 0 0 0)
      | none => match readList s k with
        | .ok l => some (s.updTask task (fun k => { k with succl := some l }))
        | .error (code, sub, a) => some (setCursor (s.logRefused 3 k.ctx 0 true a code sub 0#64) task 3 0 0 0)

def execSuccessorDecrement (task : Nat) (s : State) : Out := happens s (successorStep s task)

/-- SIGNAL_WRITE (R339): the signal word, the notification once it is written, and DONE. -/
def signalStep (s : State) (task : Nat) : Option State :=
  match s.task task with
  | none => none
  | some k =>
    if k.state != 4 || k.cursor.ph != 3 || !engineRuns s k.ctx then none
    else
      let rd (off : W64) : Except (Nat × Nat × W64) Nat := match unitRead s k.ctx (k.recAddr + off) 8 with
        | .ok (_, v) => .ok v
        | .error e => .error e
      let fin (s : State) : Option State := some (endTask s k 5)
      match rd 0x18#64, rd 0x40#64, rd 0x48#64 with
      | .ok ctl, .ok siga, .ok sigv =>
        let va := BitVec.ofNat 64 (bitsAt siga 47 3 * 8)
        if va = 0#64 then fin s
        else (match unitWord s k.ctx va sigv s.startClock with
          | (s, none) => fin (if bitsAt ctl 31 24 = 0 then s else s.notify (bitsAt ctl 31 24) k.ctx)
          | (s, some (code, sub, a)) => fin (s.logRefused 3 k.ctx 0 true a code sub 0#64))
      | .error (code, sub, a), _, _ | _, .error (code, sub, a), _ | _, _, .error (code, sub, a) =>
        fin (s.logRefused 3 k.ctx 0 true a code sub 0#64)

def execSignalWrite (task : Nat) (s : State) : Out := happens s (signalStep s task)

end Sys2Proof.Machine
end

