-- ==== Sys2Proof/Machine/EvLadder.lean ====
section
/-! DEFINITION. Events of the ladder units (R350 to R363, R448): dispatch of a ladder task, arrivals, the starvation limit, the placement of launches, result
entries, the watermark, and writes that fail. -/

namespace Sys2Proof.Machine

/-! ## The ladder object (R350, R352) -/

/-- Rung k from its four words, or none where a field breaks R350; `st` are the state cells that a frame has room for. -/
def parseRung (k st : Nat) (w0 w1 w2 : Nat) : Option (W64 × Bool × Nat × Nat × W64) :=
  if bitsAt w0 63 48 != 0 || w0.testBit 2 || decide (2 ≤ bitsAt w0 1 0) || bitsAt w1 63 48 != 0 || w1.testBit 5 || decide (st < bitsAt w1 4 0)
      || bitsAt w2 63 48 != 0 || bitsAt w2 6 0 != 0 || (k == 0 && (bitsAt w1 4 0 != 0 || w2 != 0)) then none
  else some (BitVec.ofNat 64 (bitsAt w0 47 3 * 8), bitsAt w0 1 0 == 1, bitsAt w1 47 6 * 64, bitsAt w1 4 0, BitVec.ofNat 64 w2)

/-- The fields of the object other than its rungs keep their limits. -/
def objectLimits (ws : List Nat) : Bool :=
  let w (i : Nat) : Nat := ws.getD i 0
  let nr := bitsAt (w 0) 2 0 + 1
  bitsAt (w 0) 63 32 != 0 && bitsAt (w 0) 31 16 == 0 && bitsAt (w 0) 14 3 == 0 && bitsAt (w 1) 63 32 == 0 && addrOk (w 2) 3 && addrOk (w 3) 3
    && w 6 == 0 && w 7 == 0 && (ws.drop (8 + 4 * nr)).all (fun x => x == 0)

/-- The rungs with their gang records, rung by rung: the first that fails gives 5 or 4. -/
def readRungs (s : State) (k : Task) : List (W64 × Bool × Nat × Nat × W64) → Except (Nat × List (Nat × Nat × W64)) (List RungState)
  | [] => .ok []
  | (entry, esc, grec, nst, frames) :: rest =>
    match unitWords s k.ctx (BitVec.ofNat 64 grec) 17 with
    | .error f => .error (5, [f])
    | .ok (_, ws) => match parseGang k.known ws true with
      | none => .error (4, [])
      | some g => match readRungs s k rest with
        | .error r => .error r
        | .ok l => .ok ({ entry := entry, escOnly := esc, grec := g, nst := nst, frames := frames, numbered := 0, arr := 0, taken := 0, pending := [],
                          launches := 0 } :: l)

/-- The ladder that the object describes, or the reason of a refusal (R352) with the reads that were refused. -/
def readLadder (s : State) (k : Task) : Except (Nat × List (Nat × Nat × W64)) Ladder :=
  let obj := k.lobj.getD 0#64
  match unitWords s k.ctx obj 40 with
  | .error f => .error (8, [f])
  | .ok (_, ws) =>
    let w (i : Nat) : Nat := ws.getD i 0
    let nr := bitsAt (w 0) 2 0 + 1
    let fsz := if (w 0).testBit 15 then 128 else 64
    let rungs := (List.range nr).map (fun i => parseRung i (fsz / 4 - 4) (w (8 + 4 * i)) (w (9 + 4 * i)) (w (10 + 4 * i)))
    if !objectLimits ws || rungs.any Option.isNone then .error (7, [])
    else match readRungs s k (rungs.filterMap (fun r => r)) with
      | .error r => .error r
      | .ok l => .ok { obj := obj, n := bitsAt (w 0) 63 32, fsz := fsz, slim := if w 1 = 0 then 4096 else w 1, res := BitVec.ofNat 64 (w 2),
                       wma := BitVec.ofNat 64 (w 3), user := BitVec.ofNat 64 (w 4), rungs := l, zeroed := false, due := [], writes := [],
                       nextWr := 0, finished := [], watermark := 0, wmDue := [], retired := 0, placed := 0 }

/-- The refusal reason of R333 that a ladder task can have, with the reads that were refused. -/
def ladderTaskChecks (s : State) (k : Task) : Nat × List (Nat × Nat × W64) :=
  match unitWords s k.ctx k.recAddr 16 with
  | .error f => (leastReason [k.reason, 5], if leastReason [k.reason, 5] = 5 then [f] else [])
  | .ok (_, h) => (leastReason [k.reason, if recordLimits h true then 0 else 1], [])

def ladderTaskReason (s : State) (k : Task) : Nat := (ladderTaskChecks s k).1

/-! ## The unit's writes (R448) -/

/-- Zero in `n` result entries, up to the first that fails. -/
def zeroEntries (s : State) (c : Nat) (base : W64) : Nat → State × Option (Nat × Nat × W64)
  | 0 => (s, none)
  | n + 1 =>
    match zeroEntries s c base n with
    | (s, some e) => (s, some e)
    | (s, none) => unitWord s c (base + BitVec.ofNat 64 (8 * n)) 0

/-- Result entries and watermark word read zero (R357). -/
def zeroResults (s : State) (c : Nat) (l : Ladder) : State × Option (Nat × Nat × W64) :=
  match zeroEntries s c l.res l.n with
  | (s, some e) => (s, some e)
  | (s, none) => unitWord s c l.wma 0

/-- The frames of launch g of rung 0 (R353, R357). -/
def rungZeroFrames (l : Ladder) (g : Nat) : List (List W32) :=
  (List.range (min (g * Config.W + Config.W) l.n - g * Config.W)).map (fun i =>
    let item := BitVec.ofNat 32 (g * Config.W + i)
    frameCells (l.fsz / 4) item 0 0 0 item [])

/-- The launches of rung 0, due at once; its arrivals are its N items (R357, R442). -/
def rungZero (l : Ladder) : Ladder :=
  let m := (l.n + Config.W - 1) / Config.W
  { l with
    zeroed := true
    due := (List.range m).map (fun g => { rung := 0, index := g, frames := rungZeroFrames l g })
    rungs := l.rungs.modify 0 (fun r => { r with numbered := l.n, arr := l.n, taken := l.n, launches := m }) }

/-- Rung 0's entry, which USED receives (R351). -/
def Ladder.entry (l : Ladder) : W64 := (l.rungs.head?.map RungState.entry).getD 0#64

/-- LADDER_DISPATCH (R351, R352, R357). -/
def startLadder (s : State) (task : Nat) : Option State :=
  match s.task task with
  | none => none
  | some k =>
    if !dispatchable s k || k.lobj.isNone then none
    else
      let s := s.updCtx k.ctx (fun c => { c with dispatched := true })
      match ladderTaskReason s k, readLadder s k with
      | r, .ok l =>
        let s := writeUsed (readsRefused s 3 k.ctx (ladderTaskChecks s k).2) k (some l.entry)
        if r != 0 then some (refuseTask s k 3 r)
        else
          let s := takeForwards (s.updTask task (fun k => { k with used := l.entry, dispatched := true, ladder := some l })) k
          match zeroResults s k.ctx l with
          | (s, none) => some (s.updTask task (fun k => { k with ladder := some (rungZero l) }))
          | (s, some (code, sub, a)) => some (ladderFails (s.updTask task (fun k => { k with state := 3 })) k code sub a)
      | r, .error (e, fs) => some (refuseTask (readsRefused s 3 k.ctx (if r = 0 then fs else (ladderTaskChecks s k).2)) k 3 (if r = 0 then e else r))

def execLadderDispatch (task : Nat) (s : State) : Out := happens s (startLadder s task)

/-! ## Arrivals and launches (R358) -/

/-- A pending arrival among the others, by number. -/
def insertPending (p : Nat × List W32 × Nat) : List (Nat × List W32 × Nat) → List (Nat × List W32 × Nat)
  | [] => [p]
  | q :: qs => if p.1 ≤ q.1 then p :: q :: qs else q :: insertPending p qs

/-- The pending arrivals without a gap from TAKEN. -/
def unbroken (from' : Nat) : List (Nat × List W32 × Nat) → Nat
  | [] => 0
  | q :: qs => if q.1 = from' then unbroken (from' + 1) qs + 1 else 0

/-- P of R358. -/
def RungState.waiting (r : RungState) : Nat := unbroken r.taken r.pending

/-- A launch of the first `n` pending arrivals of a rung becomes due. -/
def Ladder.launch (l : Ladder) (rung n : Nat) : Ladder :=
  match l.rungs[rung]? with
  | none => l
  | some r =>
    { l with
      due := l.due ++ [{ rung := rung, index := r.launches, frames := (r.pending.take n).map (fun p => p.2.1) }]
      rungs := l.rungs.modify rung (fun r => { r with taken := r.taken + n, pending := r.pending.drop n, launches := r.launches + 1 }) }

/-- `n` full launches of a rung become due. -/
def Ladder.fullLaunches (l : Ladder) (rung : Nat) : Nat → Ladder
  | 0 => l
  | n + 1 => (l.launch rung Config.W).fullLaunches rung n

/-- The write of the unit may reach its home: what the thread's release covers has been performed (R355, R359). -/
def ladderMay (s : State) (k : Task) (tid : Option Nat) : Bool :=
  running s k.ctx && k.state == 3 && !(s.ops.any (fun o => (match tid with
    | some t => o.tids.contains t
    | none => false) && o.ordered && o.open))

def LadderWrite.number : LadderWrite → Nat
  | .frame w .. => w
  | .result w .. => w

/-- Address, bytes and value of a write. -/
def writeOf (l : Ladder) : LadderWrite → W64 × Nat × Nat
  | .frame _ rung j cells _ => ((match l.rungs[rung]? with
      | some r => r.frames
      | none => 0#64) + BitVec.ofNat 64 (j * l.fsz), l.fsz, leNat (cells.flatMap (fun c => leBytes c.toNat 4)))
  | .result _ item v _ => (l.res + BitVec.ofNat 64 (8 * item), 8, v.toNat)

/-- The unit tries a write: none while it must wait; with a fault where it is not performed. -/
def tryWrite (s : State) (k : Task) (l : Ladder) (w : LadderWrite) : Option (State × Option (Nat × Nat × W64)) :=
  let (va, n, v) := writeOf l w
  let busy := match translateDirect s k.ctx va rightsW with
    | .ok pa => s.viewBusy pa
    | _ => false
  if !ladderMay s k w.tid || busy then none
  else some (match w with
    | .frame .. => (match unitWrite s k.ctx va n v with
      | .ok s => (s, none)
      | .error e => (s, some e))
    | .result .. => unitWord s k.ctx va v)

def dropWrite (l : Ladder) (wr : Nat) : Ladder := { l with writes := l.writes.filter (fun w => w.number != wr) }

def sweepWriter (s : State) (w : LadderWrite) : State :=
  match w.tid with
  | some t => sweepThread s t
  | none => s

/-- LADDER_ARRIVAL (R358): every full launch is due at once. -/
def ladderArrives (s : State) (task wr : Nat) : Option State :=
  match s.task task with
  | none => none
  | some k => match k.ladder with
    | none => none
    | some l => match l.writes.find? (fun w => w.number == wr) with
      | some (.frame n rung j cells tid) =>
        (match tryWrite s k l (.frame n rung j cells tid) with
        | some (s, none) =>
          let l := dropWrite { l with rungs := l.rungs.modify rung (fun r => { r with arr := r.arr + 1, pending := insertPending (j, cells, 0) r.pending }) } wr
          let full := match l.rungs[rung]? with
            | some r => r.waiting / Config.W
            | none => 0
          let l := if k.fail = 0 then l.fullLaunches rung full else l
          some (sweepWriter (s.updTask task (fun k => { k with ladder := some l })) (.frame n rung j cells tid))
        | _ => none)
      | _ => none

def execLadderArrival (task wr : Nat) (s : State) : Out := happens s (ladderArrives s task wr)

/-- Further full launches of a rung, or its partial launch once the arrival at TAKEN has aged more than SLIM (R358). -/
def starves (s : State) (task rung : Nat) : Option State :=
  match s.task task with
  | none => none
  | some k => match k.ladder with
    | none => none
    | some l => match l.rungs[rung]? with
      | none => none
      | some r =>
        if rung = 0 || k.fail != 0 || k.state != 3 || (s.ctx k.ctx).st != 1 || r.waiting = 0 then none
        else if Config.W ≤ r.waiting then some (s.updTask task (fun k => { k with ladder := some (l.launch rung Config.W) }))
        else match r.pending with
          | (_, _, age) :: _ => if l.slim < age then some (s.updTask task (fun k => { k with ladder := some (l.launch rung r.waiting) })) else none
          | [] => none

def execStarvationLimitExpiry (task rung : Nat) (s : State) : Out := happens s (starves s task rung)

/-- A rung thread's place, and its frame whole in its hof queue (R354, R356). -/
def rungDress (task rung : Nat) (frames : List (List W32)) (t : Thread) : Thread :=
  let f := frames.getD t.lane []
  { t with hof := f, rung := some { task := task, rung := rung, item := f.getD 0 0#32, seq := f.getD 2 0#32, frame := f } }

/-- RUNG_LAUNCH_PLACEMENT (R356, R357): the launch that became due first takes a row of the core. -/
def rungPlacement (s : State) (task core : Nat) : Option State :=
  match s.task task with
  | none => none
  | some k => match k.ladder with
    | none => none
    | some l => match l.due with
      | [] => none
      | d :: due => match l.rungs[d.rung]? with
        | none => none
        | some r =>
          if !engineRuns s k.ctx || k.fail != 0 || 3 < k.state || !blockOk core r.grec then none
          else match blockSlots s core 1 r.grec with
            | none => none
            | some slots => match dieReady s (dieOf core) with
              | none => none
              | some (some s) => some s
              | some none =>
                let s := placeGang s k r.grec core d.frames.length slots (BitVec.ofNat 32 (d.rung * 2 ^ 24 + d.index % 2 ^ 24)) r.entry 1
                  (rungDress task d.rung d.frames)
                let s := s.updTask task (fun k => { k with
                  state := 3, placed := k.placed + 1, cores := sortNats (dedupNats (k.cores ++ [core]))
                  ladder := some { l with due := due, placed := l.placed + 1 } })
                some (if k.state = 3 then s else publish s task)

def execRungLaunchPlacement (task core : Nat) (s : State) : Out := happens s (rungPlacement s task core)

/-! ## Results and the watermark (R359, R360) -/

/-- The lowest item from `from'` on without a finished entry, N when there is none; `fuel` items are looked at. -/
def lowestOpen (finished : List Nat) (n from' : Nat) : Nat → Nat
  | 0 => from'
  | fuel + 1 => if from' < n && finished.contains from' then lowestOpen finished n (from' + 1) fuel else from'

/-- An item is finished; a watermark that has risen is due to be written. -/
def Ladder.finish (l : Ladder) (item : Nat) (failing : Bool) : Ladder :=
  let fin := if l.finished.contains item then l.finished else insertNat item l.finished
  let w := lowestOpen fin l.n l.watermark fin.length
  if l.watermark < w && !failing then { l with finished := fin, watermark := w, wmDue := l.wmDue ++ [w] } else { l with finished := fin }

/-- RESULT_ENTRY_WRITE (R359). -/
def resultWrites (s : State) (task wr : Nat) : Option State :=
  match s.task task with
  | none => none
  | some k => match k.ladder with
    | none => none
    | some l => match l.writes.find? (fun w => w.number == wr) with
      | some (.result n item v tid) =>
        (match tryWrite s k l (.result n item v tid) with
        | some (s, none) =>
          some (sweepWriter (s.updTask task (fun k => { k with ladder := some ((dropWrite l wr).finish item (k.fail != 0)) })) (.result n item v tid))
        | _ => none)
      | _ => none

def execResultEntryWrite (task wr : Nat) (s : State) : Out := happens s (resultWrites s task wr)

/-- The unit tries the watermark write that is due; none while it must wait. -/
def tryWatermark (s : State) (k : Task) (l : Ladder) : Option (State × Option (Nat × Nat × W64)) :=
  let busy := match translateDirect s k.ctx l.wma rightsW with
    | .ok pa => s.viewBusy pa
    | _ => false
  if l.wmDue.isEmpty || !ladderMay s k none || busy then none else some (unitWord s k.ctx l.wma l.watermark)

/-- WATERMARK_WRITE (R360): the newest value that is due; EDGE follows the last one (R361). -/
def watermarkWrites (s : State) (task : Nat) : Option State :=
  match s.task task with
  | none => none
  | some k => match k.ladder with
    | none => none
    | some l => match tryWatermark s k l with
      | some (s, none) => some (afterRetire (updLadder s task (fun l => { l with wmDue := [] })) task)
      | _ => none

def execWatermarkWrite (task : Nat) (s : State) : Out := happens s (watermarkWrites s task)

/-- LADDER_WRITE_FAILURE (R448): a frame or result write that cannot be performed, or the watermark write where no write has the number. -/
def ladderWriteFails (s : State) (task wr : Nat) : Option State :=
  match s.task task with
  | none => none
  | some k => match k.ladder with
    | none => none
    | some l => match l.writes.find? (fun w => w.number == wr) with
      | some w => (match tryWrite s k l w with
        | some (s, some (code, sub, a)) => some (sweepWriter (ladderFails (updLadder s task (fun l => dropWrite l wr)) k code sub a) w)
        | _ => none)
      | none => (match tryWatermark s k l with
        | some (s, some (code, sub, a)) => some (ladderFails (updLadder s task (fun l => { l with wmDue := [] })) k code sub a)
        | _ => none)

def execLadderWriteFailure (task wr : Nat) (s : State) : Out := happens s (ladderWriteFails s task wr)

end Sys2Proof.Machine
end

