-- ==== Sys2Proof/Machine/EvContext.lean ====
section
/-! DEFINITION. Pre-emption, save and restore of contexts (R134, R185, R251, R307, R362, R377 to R380), the host's context commands (R96, R342, R422), and the
control window's refusals (R110, R421, R428). -/

namespace Sys2Proof.Machine

/-! ## The control window -/

/-- The control-space address of an offset of the control window (R421). -/
def bar0 (off : Nat) : W64 := BitVec.ofNat 64 (0x8000000000000 + off)

/-- A host access that is refused (R110, R421, R428). -/
def hostRefused (s : State) (addr : W64) : State := s.logRefused 5 0 0 false addr 0x07 2 0#64

/-- A host command or write that is discarded and logged (R422, R423, R430). -/
def hostDiscarded (s : State) (c : Nat) (addr : W64) : State :=
  s.log { kind := 6, code := 0, sub := 0, agent := 5, ctx := c, va := false, core := 0, addr := addr, clk := s.clk, word3 := 0#64 }

/-- A host write of the control window outside the identity block: refused until READY (R428). -/
def whenReady (s : State) (off : Nat) (f : State → State) : State := if s.ident.ready then f s else hostRefused s (bar0 off)

/-! ## Pre-emption (R307, R377) -/

/-- Cores of the device. -/
def coreIds : List Nat := List.range Config.cores

/-- A tile fetch in flight is abandoned, to be made again (R251). -/
def dropFetch (a : MtxArray) : MtxArray := if a.shadow.status = 1 then { a with shadow := { a.shadow with status := 3, data := [] } } else a

def gangsOf (s : State) (c : Nat) : List Gang := s.gangs.filter (fun g => g.ctx == c)

/-- The array of a gang core, where the gang holds it. -/
def heldArray (s : State) (g : Gang) (core : Nat) : Bool := (s.core core).array.gang == some g.id

/-- Pre-emption of a resident context is requested; a request made while another is carried out has no further effect. -/
def requestPreempt (s : State) (c : Nat) : State :=
  if (s.ctx c).st != 1 || (s.ctx c).preempt.isSome then s
  else
    let s := s.updCtx c (fun x => { x with st := 2, busy := true, preempt := some s.clk })
    (gangsOf s c).foldl (fun s g => (coresOf g).foldl (fun s k =>
      if heldArray s g k then updArray s k dropFetch else s) s) s

/-- The thread stands at the header of a notch, before WAIT is tested; one with a pending stop halts there instead (R394). -/
def atNotch (s : State) (t : Thread) : Bool :=
  match (s.core t.core).entries.find? (fun e => e.members.contains t.id) with
  | some e => e.run.isNone && (match fetchClause s t.core t.ctx [t] e.pc with
      | .ok c _ => c.hdr.notch && stopReasons s t.ctx t c.hdr e.pc == 0#8
      | _ => false)
  | none => false

/-- The thread waits at a word at which it is saved (R307): TBAR, GBAR, WAITF, a queue name, MWAIT, or blocked on allocation. -/
def atWait (s : State) (t : Thread) : Bool :=
  match (s.core t.core).entries.find? (fun e => e.members.contains t.id) with
  | some e => (match e.run with
    | some r => (match r.stall with
      | some (5, _) => !r.issued
      | some (3, _) => !r.issued
      | some (6, _) => t.blocked.isSome
      | some (7, _) => r.issued
      | _ => false)
    | none => false)
  | none => false

/-- NOTCH_STOP (R307): a thread reaches a state in which it is saved. -/
def notchStops (s : State) (tid : Nat) : Option State :=
  match s.thread tid with
  | none => none
  | some t =>
    if (s.ctx t.ctx).preempt.isNone || t.exited || t.parked || t.stopped || t.halted.isSome || t.victimOf.isSome then none
    else if atNotch s t then some ((detach s tid).updThread tid (fun t => { t with stopped := true, blocked := none, heldFor := 0 }))
    else if atWait s t then
      some ((detach s tid).updThread tid (fun t => { t with parked := true, blocked := none, heldFor := 0, streamWait := [] }))
    else none

def execNotchStop (tid : Nat) (s : State) : Out := happens s (notchStops s tid)

/-! ## The save (R134, R251, R362, R378) -/

/-- A thread is in a state of R307, with every value that it waited for. -/
def threadSavable (t : Thread) : Bool :=
  !t.exited && (t.parked || t.stopped || t.halted.isSome) && t.victimOf.isNone && !holdsPending t && t.zombies.isEmpty && t.predPend.isEmpty

/-- The array's part is done: what runs besides an MWLD has completed, and every drained result is delivered. -/
def arraySavable (a : MtxArray) : Bool := a.flight.all (fun p => isWld p.1) && (a.loop.all (fun l => l.drain.isEmpty))

/-- The ladder unit's part is done for a task. -/
def ladderSavable (k : Task) : Bool := k.ladder.all (fun l => l.writes.isEmpty && l.wmDue.isEmpty)

/-- Everything of the context has come to rest. -/
def savable (s : State) (c : Nat) : Bool :=
  (s.ctx c).preempt.isSome
  && (s.threads.filter (fun t => t.ctx == c)).all threadSavable
  && !(s.ops.any (fun o => o.ctx == c))
  && (gangsOf s c).all (fun g => g.gmaps.isEmpty && (coresOf g).all (fun k => !heldArray s g k || arraySavable (s.core k).array))
  && (s.tasks.filter (fun k => k.ctx == c)).all ladderSavable
  && s.cores.all (fun k => k.l1.all (fun l => l.ctx != c || !s.viewBusy (128 * l.line)))

/-- RESOLVED, ARR and TAKEN of the context's ladders are written (R362); one that fails is logged and fails its task (R448). -/
def saveLadders (s : State) (c : Nat) : State :=
  (s.tasks.filter (fun k => k.ctx == c && k.ladder.isSome && decide (k.state ≤ 3))).foldl (fun s k => match writeObject s k with
    | (s, none) => s
    | (s, some code) => failTask (s.updTask k.id (fun k => { k with state := 3 })) k.id code) s

/-- A stage that was filling restarts from its first byte (R134). -/
def restartFill (r : CopyRun) : CopyRun := if r.stage.isSome then { r with prog := 0 } else r

def CpEntry.gang : CpEntry → Option Nat
  | .cmd c => some c.gang
  | .raw .. => none

/-- The bytes of a gang's windows on a core. -/
def windowBytes (s : State) (g : Gang) (core : Nat) : List Host.Cell :=
  ((g.windows.getD (core - g.base) []).filter (fun w => w.kind != .absent)).flatMap (fun w => Memory.slice (s.core core).glen (256 * w.fs) (256 * w.s))

/-- The state of a gang leaves its cores (R378). `s0` is the device as the save began: a queued command keeps its place in the queue of its core (R134),
and an entry of cpc that is no command stays there (DESIGN CHOICE, log entry 14). -/
def saveGang (s0 s : State) (g : Gang) : State :=
  let mine (e : CpEntry) : Bool := e.gang == some g.id
  let saved : SavedGang := {
    glen := (coresOf g).map (fun k => (k, windowBytes s g k))
    arrays := ((coresOf g).filter (heldArray s g)).map (fun k => (k, (s.core k).array))
    queued := (coresOf g).map (fun k => (k, (((s0.core k).cpq ++ (s0.core k).cpback).zipIdx).filter (fun p => mine p.1)))
    running := (coresOf g).map (fun k => (k, ((s.core k).cprun.filter (fun r => r.cmd.gang == g.id)).map restartFill)) }
  let s := (coresOf g).foldl (fun s k =>
    let held := heldArray s g k
    s.updCore k (fun x => { x with
      cpq := x.cpq.filter (fun e => !mine e), cpback := x.cpback.filter (fun e => !mine e)
      cprun := x.cprun.filter (fun r => r.cmd.gang != g.id), array := if held then MtxArray.reset else x.array })) s
  s.updGang g.id (fun g => { g with saved := some saved })

/-- The context's L1 lines go home, and its entries leave the tables (R378). -/
def clearCores (s : State) (c : Nat) : State :=
  let s := coreIds.foldl (fun s k => ((s.core k).l1.filter (fun l => l.ctx == c)).foldl (fun s l => l1Flush s k l.line) s) s
  { s with cores := s.cores.map (fun (k : Core) => settleTable { k with entries := k.entries.filter (fun e => e.ctx != c) }) }

/-- CONTEXT_SAVE (R377, R378). -/
def saveContext (s : State) (c : Nat) : Option State :=
  if !savable s c then none
  else
    let s := clearCores (saveLadders s c) c
    let s := (gangsOf s c).foldl (saveGang s) s
    some (s.updCtx c (fun x => { x with st := 3, busy := false, preempt := none }))

def execContextSave (ctx : Nat) (s : State) : Out := happens s (saveContext s ctx)

/-- NOTCHLIM_EXPIRY (R307): a limit of 0 never expires. -/
def notchlimExpires (s : State) (c : Nat) : Option State :=
  match (s.ctx c).preempt with
  | none => none
  | some k =>
    let lim := (s.ctx c).notchlim.toNat
    if lim != 0 && decide (k + lim ≤ s.clk) then some (terminate s c 0x0E) else none

def execNotchlimExpiry (ctx : Nat) (s : State) : Out := happens s (notchlimExpires s ctx)

/-! ## Restore (R290, R379) -/

/-- A gang's seats, windows and array are free, and its dies are in RUN. -/
def gangSeatsFree (s : State) (g : Gang) : Bool :=
  (coresOf g).all (fun k =>
    s.power[dieOf k]?.any (fun p => p.st == 0 && !(p.goal.any (fun g => decide (2 ≤ g.1))))
    && ((g.windows.getD (k - g.base) []).filter (fun w => w.kind != .absent)).all (fun w =>
        (takenGlen s k).all (fun r => decide (w.fs + w.s ≤ r.1) || decide (r.1 + r.2 ≤ w.fs)))
    && (!g.arr || (s.core k).array.gang.isNone))
  && (s.rows.filter (fun r => r.gang == g.id)).all (fun r => slotFree s r.core r.slot)

/-- Dies of the context's gangs that are idle are woken (R432). -/
def wakeDies (s : State) (c : Nat) : State :=
  (gangsOf s c).foldl (fun s g => match dieReady s (dieOf g.base) with
    | some (some s) => s
    | _ => s) s

/-- Bytes return to the Glen of a core. -/
def putBytes (s : State) (core : Nat) (w : Gang) (l : List Host.Cell) : State :=
  s.updCore core (fun k =>
    let m := ((w.windows.getD (core - w.base) []).filter (fun x => x.kind != .absent)).foldl (fun m x => Memory.clear m (256 * x.fs) (256 * x.s)) k.glen
    { k with glen := l.foldl (fun m c => Memory.write m c.1 c.2) m })

/-- An abandoned fetch is made again (R251). -/
def redoFetch (a : MtxArray) : MtxArray := if a.shadow.status = 3 then { a with shadow := { a.shadow with status := 1 } } else a

/-- A gang's state returns to its cores, but for its queued commands (R134). A running command that finds every run slot taken waits for one (R126). -/
def restoreGang (s : State) (g : Gang) : State :=
  match g.saved with
  | none => s
  | some v =>
    let s := v.glen.foldl (fun s p => putBytes s p.1 g p.2) s
    let s := v.arrays.foldl (fun s p => updArray s p.1 (fun _ => redoFetch p.2)) s
    let s := v.running.foldl (fun s p => p.2.foldl (fun s r => s.updCore p.1 (fun k =>
      { k with cprun := k.cprun ++ [{ r with waits := r.waits || decide (Config.cpRun ≤ slotsUsed k) }] })) s) s
    s.updGang g.id (fun g => { g with saved := none })

/-- Saved commands of one core in the order of the queue that they left. -/
def inQueueOrder (l : List (CpEntry × Nat)) : List CpEntry :=
  (sortNats (dedupNats (l.map Prod.snd))).flatMap (fun i => (l.filter (fun p => p.2 == i)).map Prod.fst)

/-- The queued commands of the context's gangs wait for room again, in saved queue order (R134). -/
def refillQueues (s : State) (gs : List Gang) : State :=
  let saved (k : Nat) : List (CpEntry × Nat) := gs.flatMap (fun g => match g.saved with
    | some v => (v.queued.filter (fun p => p.1 == k)).flatMap Prod.snd
    | none => [])
  (sortNats (dedupNats (gs.flatMap coresOf))).foldl (fun s k => s.updCore k (fun x => { x with cpback := x.cpback ++ inQueueOrder (saved k) })) s

/-- A thread stopped at a notch is bound again where its pool and its context's cap have room; else it stays parked (R379). -/
def restoreThread (s : State) (tid : Nat) : State :=
  match s.thread tid with
  | none => s
  | some t =>
    if decide (t.cells ≤ s.poolFree t.core t.lane) && decide (s.ctxCells t.core t.lane t.ctx + t.cells ≤ (s.ctx t.ctx).cellcap) then
      reenter (s.updThread tid (fun t => { t with parked := false })) tid
    else s

/-- The context waits for its seats: a RESTORE is being carried out, and it is SAVED still (R422, R432). -/
def awaitsSeats (x : Context) : Bool := x.st == 3 && x.busy && x.restore

/-- A die of the context's gangs is to leave RUN for a state without seats (R432). -/
def dieLeaves (s : State) (c : Nat) : Bool :=
  (gangsOf s c).any (fun g => s.power[dieOf g.base]?.any (fun p => p.goal.any (fun x => decide (2 ≤ x.1))))

/-- A context that holds its seats takes up its state: registers, gangs, then threads (R379). A request for RETAIN or OFF made meanwhile pre-empts it (R432). -/
def takeSeats (s : State) (c : Nat) : State :=
    let s := s.updCtx c (fun x => { x with st := 1, busy := false, restore := false, sliceAt := s.clk })
    let s := refillQueues ((gangsOf s c).foldl restoreGang s) (gangsOf s c)
    let notched := (s.threads.filter (fun t => t.ctx == c && t.stopped && !t.parked)).map Thread.id
    let s : State := { s with threads := s.threads.map (fun (t : Thread) => if t.ctx = c then { t with parked := true, stopped := false } else t) }
    let s := (sortNats notched).foldl restoreThread s
    if dieLeaves s c then requestPreempt s c else s

/-- A RESTORE goes on (R379, R422): the context becomes RESTORING once its seats are free and their dies in RUN, and then takes up its state. -/
def seatMove (s : State) (c : Nat) : Option State :=
  if (s.ctx c).st == 4 then some (takeSeats s c)
  else if !awaitsSeats (s.ctx c) then none
  else if (gangsOf s c).all (gangSeatsFree s) then some (s.updCtx c (fun x => { x with st := 4 }))
  else
    let s' := wakeDies s c
    if s'.power = s.power then none else some s'

/-! ## The commands (R422) -/

def cmdAddr (c : Nat) : Nat := 0x100038 + 0x100 * c

def setFail (s : State) (c : Nat) (b : Bool) : State := s.updCtx c (fun x => { x with fail := b })

/-- A command of the host: discarded while BUSY, failing where `okIn` does not hold the context's ST. -/
def hostCommand (s : State) (c : Nat) (okIn : List Nat) (act : State → State) : State :=
  if Config.contexts ≤ c then s
  else whenReady s (cmdAddr c) (fun s =>
    if (s.ctx c).busy then hostDiscarded (s.updCtx c (fun x => { x with lost := true })) c (bar0 (cmdAddr c))
    else if okIn.contains (s.ctx c).st then act (setFail s c false) else setFail s c true)

/-- Lines of a context's spill quota in each die (R96). -/
def quotaLines (s : State) (c : Nat) : Nat := Config.quotaLines * quotaOf s c

/-- Lines that the sets of a die can lock (R96): 16 ways of each, less what quarantine leaves short. -/
def lockable (s : State) (die : Nat) : Nat :=
  let sets := dedupNats ((s.quarantined.map Prod.fst).filter (fun x => x / 32768 == die))
  Config.lockLimit - (sets.map (fun x =>
    let left := 32 - (s.quarantined.filter (fun p => p.1 == x)).length
    16 - left)).sum

/-- A new quota can be locked on every die. -/
def quotaFits (s : State) (c : Nat) : Bool :=
  let used := (((List.range Config.contexts).filter (fun d => d != c && (s.ctx d).st != 0)).map (quotaLines s)).sum
  (List.range 8).all (fun d => decide (used + quotaLines s c ≤ lockable s d))

def clearTlb (s : State) (c : Nat) : State :=
  { s with
    cores := s.cores.map (fun (k : Core) => { k with tlb := k.tlb.filter (fun e => e.ctx != c) })
    walks := s.walks.filter (fun w => w.ctx != c) }

/-- Lines of the instruction caches that an earlier context of this number left. -/
def clearCode (s : State) (c : Nat) : State :=
  { s with cores := s.cores.map (fun (k : Core) => { k with icache := k.icache.filter (fun l => l.ctx != c) }) }

/-- CREATE (R96, R105, R422): where firmware puts the quota and the queue table is left open. -/
def createContext (s : State) (c : Nat) : State :=
  if s.ident.state = 3 || !quotaFits s c then setFail s c true
  else
    let (q, s) := s.free
    let (n, s) := s.free
    (clearCode (clearTlb s c) c).updCtx c (fun x => { Context.reset with
      cfg := x.cfg, root := x.root, digt := x.digt, dbg := x.dbg, keys := x.keys, slice := x.slice, lost := x.lost
      qtab := q &&& 0xFFFFFFFFFFF00#64, quotaId := n.toNat, st := 1, sliceAt := s.clk })

def execCtxCreate (ctx : Nat) (s : State) : Out := .next (hostCommand s ctx [0] (fun s => createContext s ctx))

/-- PREEMPT (R377, R422). -/
def execCtxPreempt (ctx : Nat) (s : State) : Out := .next (hostCommand s ctx [1] (fun s => requestPreempt s ctx))

/-- RESTORE (R379, R422): the context stays SAVED, with BUSY set, until its seats are free and their dies in RUN. -/
def restoreCmd (s : State) (c : Nat) : State :=
  let s := s.updCtx c (fun x => { x with busy := true, restore := true })
  (seatMove s c).getD s

def execCtxRestore (ctx : Nat) (s : State) : Out := .next (hostCommand s ctx [3] (fun s => restoreCmd s ctx))

/-- TERMINATE (R342, R380, R422): it wins over a command that is being carried out. -/
def terminateCmd (s : State) (c : Nat) : State :=
  if Config.contexts ≤ c then s
  else whenReady s (cmdAddr c) (fun s => if alive s c then terminate (setFail s c false) c 0 else setFail s c true)

def execCtxTerminate (ctx : Nat) (s : State) : Out := .next (terminateCmd s ctx)

/-- TLBINV (R105, R422): walks in flight end with it. -/
def execCtxTlbinv (ctx : Nat) (s : State) : Out := .next (hostCommand s ctx [1, 3] (fun s => clearTlb s ctx))

/-- DESTROY (R96, R422). -/
def destroyContext (s : State) (c : Nat) : State :=
  let s := if (s.ctx c).st = 3 then terminate s c 0 else s
  let x := s.ctx c
  let s : State := if x.cfg.getLsbD 58 then
      { s with ident := { s.ident with keyslots := s.ident.keyslots.set (x.cfg.extractLsb' 52 6).toNat 0#512 } }
    else s
  s.updCtx c (fun x => { x with st := 0, quotaId := 0, tails := [], verified := [] })

def execCtxDestroy (ctx : Nat) (s : State) : Out := .next (hostCommand s ctx [3, 5] (fun s => destroyContext s ctx))

/-- A write of 1 to CMD.LOST (R422). -/
def execCtxCmdLostClear (ctx : Nat) (s : State) : Out :=
  .next (if Config.contexts ≤ ctx then s else whenReady s (cmdAddr ctx) (fun s => s.updCtx ctx (fun x => { x with lost := false })))

/-! ## Time slices (R422) -/

/-- A gang or launch of the context waits for seats, or the context itself does. -/
def waitsForSeats (s : State) (c : Nat) : Bool :=
  awaitsSeats (s.ctx c)
  || ((s.ctx c).st == 1 && s.tasks.any (fun k => k.ctx == c && k.dispatched && k.fail == 0 && (match k.ladder with
      | some l => !l.due.isEmpty
      | none => decide (k.placed < ctlGangs k.ctl.toNat) && k.grec.isSome)))

/-- SLICE_EXPIRY (R422): firmware pre-empts the context by itself, and owes it a RESTORE. -/
def sliceExpires (s : State) (c : Nat) : Option State :=
  let x := s.ctx c
  let n := (x.slice.extractLsb' 0 32).toNat
  if x.st = 1 && x.preempt.isNone && !x.busy && n != 0 && decide (x.sliceAt + 65536 * n ≤ s.clk)
      && (List.range Config.contexts).any (fun d => d != c && waitsForSeats s d) then
    some ((requestPreempt s c).updCtx c (fun x => { x with restore := true }))
  else none

def execSliceExpiry (ctx : Nat) (s : State) : Out := happens s (sliceExpires s ctx)

end Sys2Proof.Machine
end

