-- ==== Sys2Proof/Machine/EvDebug.lean ====
section
/-! DEFINITION. Events of debugging: the stall sampler (R407), HALTALL (R400), RUN and STEP (R403), and accesses to the debug window (R399 to R402). -/

namespace Sys2Proof.Machine

/-! ## The stall sampler (R407) -/

/-- Clk from one sample to the next. -/
def samplePeriod (s : State) (c : Nat) : Nat :=
  256 * max 1 ((s.ctx c).dbgCtl.extractLsb' 16 16).toNat

def sampleState (k : Core) (c : Nat) : Nat × Nat := ((k.samples.find? (fun p => p.1 == c)).map Prod.snd).getD (0, 0)

/-- The place of a group in the sampler's round: its index, or, after those, its order of creation. -/
def sampleKey (e : Entry) : Nat := e.index.getD (256 + e.uid)

/-- The group after the last one sampled, by ascending index and round again. -/
def sampleNext (s : State) (core c cur : Nat) : Option Entry :=
  let es := (s.core core).entries.filter (fun e => e.ctx == c && !e.members.isEmpty)
  let low (l : List Entry) : Option Entry := l.foldl (fun m e => match m with
    | none => some e
    | some x => some (if sampleKey e < sampleKey x then e else x)) none
  match low (es.filter (fun e => decide (cur < sampleKey e))) with
  | some e => some e
  | none => low es

/-- Class and blamed PC of a group that stands at a header. -/
def headerClass (s : State) (core : Nat) (e : Entry) : Nat × W64 :=
  let ms := s.members e
  if e.rdv then (7, 0#64)
  else match fetchClause s core e.ctx ms e.pc with
    | .ok c _ =>
      if !waitHolds s e.ctx ms c.hdr then (3, match busyFlag ms c.hdr.wait with
        | some (t, f) => flagProducer s t f
        | none => 0#64)
      else if !distHolds s e.ctx ms c.hdr then (4, match ms.findSome? (fun t => t.prevEnd.bind (fun p =>
          if p.1 + 1 + c.hdr.dist ≤ s.clk then none else some p.2)) with
        | some a => a
        | none => 0#64)
      else e.first.getD (8, 0#64)
    | _ => (8, 0#64)

/-- Class and blamed PC of a group (the table of R407). -/
def sampleClass (s : State) (core : Nat) (e : Entry) : Nat × W64 :=
  if e.lastIssue = some s.clk then (0, 0#64)
  else match e.run with
    | none => headerClass s core e
    | some r => r.stall.getD (8, 0#64)

/-- STALL_SAMPLE (R407). -/
def takesSample (s : State) (c core : Nat) : Option State :=
  let k := s.core core
  let (cur, at') := sampleState k c
  if !grantActive s c || !sampleOn s c || core < firstObserved s c || firstObserved s c + observedCores s c ≤ core
      || s.clk < at' + samplePeriod s c then none
  else
    let put (s : State) (i : Nat) : State :=
      s.updCore core (fun k => { k with samples := k.samples.filter (fun p => p.1 != c) ++ [(c, i, s.clk)] })
    match sampleNext s core c cur with
    | none => some (put s cur)
    | some e =>
      let ms := s.members e
      let (cls, blame) := sampleClass s core e
      let pc := match e.run with
        | some r => r.clause.pc
        | none => e.pc
      let ord := (ms.head?.map Thread.lastOrd).getD 0#16
      some (put (dbgRecord s c (recordWords s 2 cls ord pc core ((ms.head?.map Thread.slot).getD 0) blame (maskOf ms).1)) (sampleKey e))

def execStallSample (ctx core : Nat) (s : State) : Out := happens s (takesSample s ctx core)

/-! ## HALTALL, RUN and STEP -/

/-- DEBUG_HALTALL (R400): while it is set, every thread of the target has pending stop reason 3. -/
def setHaltAll (s : State) (c : Nat) (on : Bool) : Option State :=
  if !grantActive s c then none
  else
    let x := (s.ctx c).dbgCtl &&& 0xFFFFFFFFFFFFFFFE#64
    some ((s.updCtx c (fun k => { k with dbgCtl := if on then x ||| 1#64 else x })).dbgTouch c 0)

def execDebugHaltall (ctx : Nat) (on : Bool) (s : State) : Out := happens s (setHaltAll s ctx on)

/-- The bindings that a debugger leaves in a record: those with a count. -/
def editedNames (e : Edit) : List (Nat × Binding) :=
  (e.names.filter (fun p => p.2.count != 0#4)).map (fun p => (p.1, { p.2 with value := if p.2.wide then p.2.value else lowCell p.2.value, pend := none }))

/-- The device takes a command (R403). -/
def takeCmd (s : State) (c core slot lane : Nat) (cmd : Nat) : Option State :=
  match s.threads.find? (fun t => t.ctx == c && !t.exited && t.core == core && t.slot == slot && t.lane == lane) with
  | none => none
  | some t => match t.halted, t.edit with
    | some _, some e =>
      if e.cmd != cmd || (s.ctx c).st != 1 then none
      else
        let names := editedNames e
        let need := (names.map (fun p => p.2.cells)).sum - (t.names.map (fun p => p.2.cells)).sum
        let fits := (refusal s t need).isNone
        let s := s.updThread t.id (fun t => { t with
          halted := none, edit := none, names := names, preds := e.preds, draw := e.draw, pc := e.pc, resume := none, passHdr := true
          stops := if cmd = 2 then t.stops ||| 0x10#8 else t.stops, parked := t.parked || !fits })
        let s := s.dbgTouch c (recordOff s t)
        some (if t.parked || !fits then s else enterTable s t.id e.pc)
    | _, _ => none

def execDebugRun (ctx core slot lane : Nat) (s : State) : Out := happens s (takeCmd s ctx core slot lane 1)

def execDebugStep (ctx core slot lane : Nat) (s : State) : Out := happens s (takeCmd s ctx core slot lane 2)

/-! ## Accesses to the window -/

/-- The agent number of the host; a smaller one is a context. -/
def hostAgent : Nat := 64

/-- A refused access: logged, and it reads all ones (R110). -/
def windowRefused (s : State) (c off : Nat) : State := { s.dbgRefused c (s.dbgBase c + off) with lastRead := BitVec.allOnes 128 }

/-- An access to window memory on a retired page (R99): logged with RAS, and it reads all ones. -/
def windowFault (s : State) (c pa : Nat) (f : Nat × Nat) : State :=
  { s.logRefused 7 c 0 false (BitVec.ofNat 64 pa) f.1 f.2 0#64 with lastRead := BitVec.allOnes 128 }

/-- DEBUG_WINDOW_ACCESS (R399 to R402): one word of the window. -/
def windowAccess (s : State) (agent c off : Nat) (write : Bool) (v : W64) : Option State :=
  if !grantActive s c || s.dbgSpan c ≤ off || off % 8 != 0 then none
  else if agent < hostAgent && agent != debuggerOf s c then some (windowRefused s c off)
  else
    let pa := s.dbgBase c + off
    if s.pageRetired pa then some (windowFault s c pa (0x0C, 3))
    else if s.dbgShut c off then some (windowRefused s c off)
    else if !State.dbgHeld off then
      if let some f := s.homeFault pa then some (windowFault s c pa f)
      else if write then some (s.agentWriteN pa 8 c v.toNat)
      else (let (s, x) := s.homeReadN pa 8 c; some { s with lastRead := BitVec.ofNat 128 x })
    else if write then (match s.dbgWrite c off v.toNat with
      | some s => some (s.dbgTouch c off)
      | none => some (windowRefused s c off))
    else match s.dbgRead c off with
      | some x => some { s with lastRead := BitVec.ofNat 128 x }
      | none => some (windowRefused s c off)

def execDebugWindowAccess (agent ctx off : Nat) (write : Bool) (v : W64) (s : State) : Out := happens s (windowAccess s agent ctx off write v)

end Sys2Proof.Machine
end

