-- ==== Sys2Proof/Machine/EvHost.lean ====
section
/-! DEFINITION. Events of the host, the peers, the format range windows, security and power (R90, R91, R283, R421 to R432). -/

namespace Sys2Proof.Machine

/-! ## Format range windows (R89 to R91) -/

def frwOf (s : State) (n : Nat) : Frw := s.frw.getD n Frw.reset
def setFrw (s : State) (n : Nat) (w : Frw) : State := { s with frw := s.frw.set n w }

/-- Byte ranges of a window's planes. -/
def Frw.planes (w : Frw) : List (Nat × Nat) :=
  if w.fmt == 0#4 then [(w.mpl.toNat, w.manBytes), (w.spl.toNat, w.scaleBytes)] else [(w.mpl.toNat, w.manBytes)]

def rangesMeet (a b : Nat × Nat) : Bool := decide (a.1 < b.1 + b.2) && decide (b.1 < a.1 + a.2)

/-- The conditions of R90 for enabling window n with the fields given. -/
def frwValid (s : State) (n : Nat) (w : Frw) : Bool :=
  let others := ((s.frw.zipIdx).filter (fun p => p.2 != n && p.1.en)).map Prod.fst
  let view : Nat × Nat := (w.view.toNat, w.viewBytes)
  let width := if w.fmt == 0#4 then decide (2 ≤ w.w.toNat) && decide (w.w.toNat ≤ 8) else w.fmt == 1#4 && w.w == 0#4
  width && w.lines != 0#64
  && decide (0x010000000000 ≤ view.1) && decide (view.1 + view.2 ≤ 0x020000000000)
  && others.all (fun o => !rangesMeet view (o.view.toNat, o.viewBytes))
  && w.planes.all (fun p => decide (p.1 + p.2 ≤ 0x00C000000000))
  && (match w.planes with
      | [a, b] => !rangesMeet a b
      | _ => true)
  && others.all (fun o => w.planes.all (fun p => o.planes.all (fun q => !rangesMeet p q)))

/-- A write of FRWn_CTL (R89 to R91). One of EN = 1 while the flush of an earlier EN = 0 is still pending leaves that disable in force (DESIGN CHOICE, log entry 65). -/
def ctlWrite (s : State) (n : Nat) (v : W64) : State :=
  let w := { frwOf s n with cfgerr := false }
  let w := if v.getLsbD 29 then { w with rsv := 0#8 } else w
  if v.getLsbD 31 then
    if w.en then setFrw s n (if v.getLsbD 30 then { w with flush := true } else w)
    else
      let w := State.frwFields w v
      setFrw s n (if frwValid s n w then { w with en := true } else { w with cfgerr := true })
  else if w.en then setFrw s n { w with flush := true, closing := some v }
  else setFrw s n (State.frwFields w v)

/-- A write of CTL by the host. -/
def hostCtl (s : State) (n : Nat) (v : W64) : State :=
  if n < 16 then whenReady s (0x40000 + 0x40 * n) (fun s => ctlWrite s n v) else s

def frwEn : W64 := 0x80000000#64

/-- FRW_ENABLE (R90): a write of CTL with EN = 1. -/
def execFrwEnable (n : Nat) (v : W64) (s : State) : Out := .next (hostCtl s n (v ||| frwEn))

/-- FRW_DISABLE (R90): a write of CTL with EN = 0; EN reads 1 until the flush is complete. -/
def execFrwDisable (n : Nat) (v : W64) (s : State) : Out := .next (hostCtl s n (v &&& ~~~ frwEn))

/-- FRW_FLUSH (R91): a write of CTL with FLUSH = 1. -/
def execFrwFlush (n : Nat) (v : W64) (s : State) : Out := .next (hostCtl s n (v ||| 0x40000000#64))

/-- FRW_RSV_CLEAR (R89): a write of CTL with RSV = 1. -/
def execFrwRsvClear (n : Nat) (v : W64) (s : State) : Out := .next (hostCtl s n (v ||| 0x20000000#64))

/-- FRW_FLUSH_COMPLETE (R91): dirty view lines go back through the Col, and no view line of the window is left. -/
def flushDone (s : State) (n : Nat) : Option State := if (frwOf s n).flush then some (s.flushView n) else none

def execFrwFlushComplete (n : Nat) (s : State) : Out := happens s (flushDone s n)

/-- A write of a window's other registers (R89). -/
def frwRegWrite (s : State) (n r : Nat) (v : W64) : State :=
  let w := frwOf s n
  if r = 0 then ctlWrite s n v
  else if w.en then s
  else if r = 0x08 then setFrw s n { w with view := v &&& 0xFFFFFFFFFFF00#64 }
  else if r = 0x10 then setFrw s n { w with lines := v &&& 0xFFFFFFFF#64 }
  else if r = 0x18 then setFrw s n { w with mpl := v &&& 0xFFFFFFFFFFF00#64 }
  else if r = 0x20 then setFrw s n { w with spl := v &&& 0xFFFFFFFFFFF00#64 }
  else s

def frwRegRead (w : Frw) (r : Nat) : Nat :=
  if r = 0 then (if w.en then 2 ^ 31 else 0) + (if w.flush then 2 ^ 30 else 0) + (if w.rsv != 0#8 then 2 ^ 29 else 0)
      + (if w.cfgerr then 2 ^ 28 else 0) + w.fmt.toNat * 2 ^ 16 + w.w.toNat * 2 ^ 8
  else if r = 0x08 then w.view.toNat
  else if r = 0x10 then w.lines.toNat
  else if r = 0x18 then w.mpl.toNat
  else if r = 0x20 then w.spl.toNat
  else 0

/-! ## Submission by the host (R423) -/

/-- QUEUE_SUBMISSION_WRITE (R326, R423). A record that cannot be reached is an access refused (R110): one in a format view (R94), a debug window (R399) or a peer's memory
is refused at the home. -/
def hostSubmit (s : State) (c q : Nat) (v : W64) : State :=
  let refuse (s : State) : State := s.log { kind := 6, code := 0, sub := 0, agent := 5, ctx := c, va := true, core := 0, addr := v, clk := s.clk, word3 := 0#64 }
  if (s.ctx c).st != 1 || v.toNat % 128 != 0 then refuse s
  else match translateDirect s c v rightsRW with
    | .ok pa =>
      if s.paKind pa != .device || s.dbgMeets (pa, 128) then s.logRefused 5 c 0 true v 0x07 6 0#64
      else
        let r := submit (s.stampWrite (pa / 128)) c v pa (some q) none
        if r.ok then r.s else refuse s
    | .bad _ code sub a => s.logRefused 5 c 0 true a code sub 0#64
    | .miss _ => s

def execQueueSubmissionWrite (ctx queue : Nat) (v : W64) (s : State) : Out :=
  .next (if Config.contexts ≤ ctx || 64 ≤ queue then s
    else whenReady s (0x1000000 + 0x1000 * ctx + 8 * queue) (fun s => hostSubmit s ctx queue v))

/-! ## Power (R432) -/

/-- Clk until a die that is in state `st` reaches its target. -/
def powerDelay (st target : Nat) : Nat :=
  if 2 ≤ target then 0
  else if st = 1 then Config.idleToRun
  else if st = 2 then Config.retainToRun
  else if st = 3 then Config.offToRun
  else 0

/-- The contexts that hold seats on a die. -/
def seatedOn (s : State) (die : Nat) : List Nat :=
  (List.range Config.contexts).filter (fun c => holdsSeats s c && s.gangs.any (fun g => g.ctx == c && dieOf g.base == die))

/-- A transition begins; one to RETAIN or OFF pre-empts the contexts with seats on the die. -/
def powerStart (s : State) (die target : Nat) : State :=
  match s.power[die]? with
  | none => s
  | some p =>
    let s := if 2 ≤ target then (seatedOn s die).foldl requestPreempt s else s
    if p.st = target then s
    else { s with power := s.power.set die { p with goal := some (target, s.clk + powerDelay p.st target) } }

/-- A write of REQ: a request made while another is in progress waits for that one's target. -/
def powerRequest (s : State) (die r : Nat) : State :=
  match s.power[die]? with
  | none => s
  | some p =>
    let s := { s with power := s.power.set die { p with req := r, next := if p.goal.isSome then some r else none } }
    if p.goal.isSome then s else powerStart s die r

def hostPower (s : State) (die r : Nat) : State :=
  if die < 8 then whenReady s (0x10000 + 8 * die) (fun s => powerRequest s die r) else s

def execPowerReqRun (die : Nat) (s : State) : Out := .next (hostPower s die 0)
def execPowerReqIdle (die : Nat) (s : State) : Out := .next (hostPower s die 1)
def execPowerReqRetain (die : Nat) (s : State) : Out := .next (hostPower s die 2)
def execPowerReqOff (die : Nat) (s : State) : Out := .next (hostPower s die 3)

/-- Caches and TLBs of a die's cores hold no valid entry (R432); an unpowered core keeps nothing. -/
def dieSleeps (s : State) (die target : Nat) : State :=
  let mine := coreIds.filter (fun c => dieOf c == die)
  let s := mine.foldl (fun s k => ((s.core k).l1).foldl (fun s l => l1Flush s k l.line) s) { s with walks := s.walks.filter (fun w => w.die != die) }
  mine.foldl (fun s k => s.updCore k (fun x => if target = 3 then Core.reset else { x with icache := [], tlb := [] })) s

/-- POWER_STATE_REACHED (R432): RETAIN and OFF wait until no context holds seats on the die. -/
def powerReached (s : State) (die : Nat) : Option State :=
  match s.power[die]? with
  | none => none
  | some p => match p.goal with
    | none => none
    | some (g, t) =>
      if s.clk < t || (decide (2 ≤ g) && !(seatedOn s die).isEmpty) then none
      else
        let s := if 2 ≤ g then dieSleeps s die g else s
        let s := { s with power := s.power.set die { p with st := g, goal := none, next := none } }
        some (match p.next with
          | some r => powerStart s die r
          | none => s)

def execPowerStateReached (die : Nat) (s : State) : Out := happens s (powerReached s die)

/-! ## Keys and lifecycle (R429 to R431) -/

/-- Bytes of a little-endian word put into a list of bytes from index i. -/
def putWord (l : List Byte) (i : Nat) (v : W64) : List Byte :=
  (l.zipIdx).map (fun p => if i ≤ p.2 ∧ p.2 < i + 8 then BitVec.ofNat 8 (v.toNat / 256 ^ (p.2 - i)) else p.1)

/-- A word of a list of bytes; bytes past its end read zero. -/
def wordAt (l : List Byte) (i : Nat) : Nat := leNat ((l.drop i).take 8)

/-- Entries of a translation table at a level that are in use. -/
def tableEntries (s : State) (tbl n : Nat) : List W64 :=
  ((List.range n).map (fun i => BitVec.ofNat 64 (LineOps.get (s.devLine ((tbl + 8 * i) / 128)) ((tbl + 8 * i) % 128) 8))).filter (fun e => e.getLsbD 0)

/-- Physical ranges that the tables from `tbl` map, through the levels left. -/
def mappedFrom (s : State) (tbl : Nat) : List Nat → List (Nat × Nat)
  | [] => []
  | level :: rest =>
    (tableEntries s tbl (if level = 4 then 32 else 512)).flatMap (fun e =>
      match entryError level e with
      | some _ => []
      | none =>
        let base := (e.extractLsb' 8 44).toNat * 256
        if e.getLsbD 1 then [(base, 2 ^ levelBits level)] else mappedFrom s base rest)

/-- Granule g holds a page of a live context (R430). -/
def granuleLive (s : State) (g : Nat) : Bool :=
  (List.range Config.contexts).any (fun c => alive s c
    && (mappedFrom s (s.ctx c).root.toNat [1, 2, 3, 4]).any (fun p => rangesMeet p (g * 2 ^ 30, 2 ^ 30)))

/-- A key slot is in use by a resident or saved context (R430). -/
def slotUsed (s : State) (k : Nat) : Bool :=
  (List.range Config.contexts).any (fun c => ((s.ctx c).st == 1 || (s.ctx c).st == 3) && (s.ctx c).cfg.getLsbD 58 && (s.ctx c).cfg.extractLsb' 52 6 == BitVec.ofNat 6 k)

def setIdent (s : State) (f : Identity → Identity) : State := { s with ident := f s.ident }

/-- One KMAP entry. -/
def setKmap (k : List (Nat × BitVec 8)) (g : Nat) (b : BitVec 8) : List (Nat × BitVec 8) :=
  let rest := k.filter (fun p => p.1 != g)
  if b = 0#8 then rest else rest ++ [(g, b)]

/-- A write of `n` KMAP entries, one byte each (R429, R430). -/
def kmapWrites (s : State) (off n : Nat) (v : W64) : State :=
  let before := s
  (List.range n).foldl (fun s i =>
    let g := off - 0x2000 + i
    if 768 ≤ g then s
    else if granuleLive before g then hostDiscarded s 0 (bar0 (off + i))
    else setIdent s (fun x => { x with kmap := setKmap x.kmap g (BitVec.ofNat 8 (v.toNat / 256 ^ i) &&& 0xBF#8) })) s

/-- KMAP_WRITE (R430, R433): a word of KMAP entries or of a key slot; outside SECURED a key slot keeps its value. -/
def keyWrite (s : State) (off : Nat) (v : W64) : State :=
  if 0x2000 ≤ off then kmapWrites s off 8 v
  else if s.ident.state != 1 then s
  else
    let k := (off - 0x400) / 64
    let i := (off - 0x400) % 64
    if slotUsed s k then hostDiscarded s 0 (bar0 off)
    else setIdent s (fun x => { x with keyslots := x.keyslots.modify k (fun w =>
      (w &&& ~~~ ((0xFFFFFFFFFFFFFFFF#512) <<< (8 * i))) ||| ((v.zeroExtend 512) <<< (8 * i))) })

/-- Offsets of key slots and of KMAP. -/
def keyOffset (off : Nat) : Bool := (decide (0x400 ≤ off) && decide (off < 0x1400)) || (decide (0x2000 ≤ off) && decide (off < 0x2300))

def execKmapWrite (off : Nat) (v : W64) (s : State) : Out := .next (if keyOffset off && off % 8 == 0 then keyWrite s off v else s)

def wipeKeys (x : Identity) : Identity := { x with keyslots := List.replicate 64 0#512, kmap := [] }

/-- The token carries this device, LCS = 1 and a valid signature (R429, R431). -/
def tokenGood (x : Identity) : Bool :=
  leNat (x.tokbuf.take 8) == Config.fuseDevid.toNat && leNat ((x.tokbuf.drop 8).take 8) == 1
  && (x.tokbuf.drop 130).all (fun b => b == 0#8)
  && Config.ed448Verify (leBytes Config.fuseVendorKey.toNat 57) (x.tokbuf.take 16) ((x.tokbuf.drop 16).take 114)

/-- "OPEN" in ASCII. -/
def openText : List Byte := [0x4F#8, 0x50#8, 0x45#8, 0x4E#8]

/-- OPEN (R431). -/
def lcOpens (s : State) : State :=
  if s.ident.state = 1 && s.contexts.all (fun c => c.st == 0) && tokenGood s.ident then
    setIdent s (fun x => { wipeKeys x with meas := shake256 (x.meas ++ openText), state := 2, debugPort := true, lcres := 1 })
  else setIdent s (fun x => { x with lcres := 2 })

def execLcOpen (s : State) : Out := .next (lcOpens s)

/-- RETIRE (R431, R433): the fuse is blown, the keys are wiped, and every context is terminated and freed. -/
def lcRetires (s : State) : State :=
  let s := (List.range Config.contexts).foldl (fun s c =>
    let s := if alive s c then terminate s c 0 else s
    if (s.ctx c).st = 5 then destroyContext s c else s) s
  setIdent s (fun x => { wipeKeys x with state := 3, retiredFuse := true, debugPort := false, lcres := 1 })

def execLcRetire (s : State) : Out := .next (lcRetires s)

/-- ATTCMD_SIGN (R429). -/
def execAttcmdSign (s : State) : Out := .next (setIdent s (fun x => { x with attBusy := true }))

/-- ATTESTATION_SIGNATURE_DONE (R429). -/
def signed (s : State) : Option State :=
  if !s.ident.attBusy then none
  else some (setIdent s (fun x => { x with
    attBusy := false
    attsig := Config.ed448SignIdentity (leBytes Config.fuseDevid.toNat 8 ++ [BitVec.ofNat 8 x.state] ++ x.meas ++ x.nonce) }))

def execAttestationSignatureDone (s : State) : Out := happens s (signed s)

/-! ## Bring-up (R428) -/

/-- Step 4: the scope table, every die in RUN, READY. -/
def bringUp (s : State) : State :=
  let s := { s with
    levels := (List.range 1024).filterMap (fun p => if 3 ≤ Config.trainedLevel p ∧ Config.trainedLevel p ≤ 7 then some (p, Config.trainedLevel p) else none)
    power := List.replicate 8 { req := 0, st := 0, goal := none, next := none }, staging := [] }
  setIdent s (fun x => { x with recov := false, ready := true })

/-- PERST_DEASSERT: what is kept across a reset is the retired list (R424), the fuse, and the stacks' contents. -/
def perst (s : State) : State :=
  let s' : State := { State.reset with
    agenda := s.agenda, freeCtr := s.freeCtr, nextUid := s.nextUid, nextSeq := s.nextSeq, mem := s.mem, enc := s.enc, retired := s.retired
    ident := { Identity.reset with started := true, retiredFuse := s.ident.retiredFuse, state := if s.ident.retiredFuse then 3 else 1
                                   fwDigest := shake256 Config.firmwareImage } }
  let s' := setIdent s' (fun x => { x with meas := shake256 (x.fwDigest ++ [BitVec.ofNat 8 x.state]) })
  if Config.firmwareGood then bringUp s' else setIdent s' (fun x => { x with recov := true })

def execPerstDeassert (s : State) : Out := .next (perst s)

/-- BOOTCMD_GO: the image in the staging area is checked. -/
def bootGo (s : State) : State := if s.ident.recov && Config.imageGood s.staging then bringUp s else s

def execBootcmdGo (s : State) : Out := .next (bootGo s)

/-- LINK_CHANGE (R426). -/
def execLinkChange (levels : List (Nat × Nat)) (s : State) : Out :=
  .next { s with levels := levels.filter (fun p => decide (p.1 < 1024) && decide (3 ≤ p.2) && decide (p.2 ≤ 7)) }

/-! ## The control window (R421) -/

/-- A write of a register of a context table entry (R422). -/
def contextWrite (s : State) (c r : Nat) (v : W64) : State :=
  let x := s.ctx c
  let free := x.st == 0
  let discard : State := hostDiscarded s c (bar0 (0x100000 + 0x100 * c + r))
  let put (ok : Bool) (f : Context → Context) : State := if ok then s.updCtx c f else discard
  if r = 0x00 then
    if free then s.updCtx c (fun x => { x with cfg := v &&& 0xFFF0000000000000#64 })
    else put ((x.st == 1 || x.st == 3) && !x.dispatched)
      (fun x => { x with cfg := (x.cfg &&& 0xBFFFFFFFFFFFFFFF#64) ||| (v &&& 0x4000000000000000#64) })
  else if r = 0x08 then put free (fun x => { x with root := v &&& 0xFFFFFFFFFF000#64 })
  else if r = 0x18 then put free (fun x => { x with digt := v &&& 0xFFFFFFFFFFF0#64 })
  else if r = 0x20 then put (free || x.st == 1) (fun x => { x with dbg := v &&& 0xFFFF00FFFFFFFF80#64 })
  else if r = 0x28 then put free (fun x => { x with keys := v &&& 0xF80FFFFFFFFFFFC0#64 })
  else if r = 0x30 then put (free || x.st == 1) (fun x => { x with slice := v &&& 0xFFFFFFFF#64 })
  else s

/-- A write of CMD (R422): LOST is cleared, and a command is taken. -/
def cmdWrite (s : State) (c : Nat) (v : W64) : State :=
  let s := if v.getLsbD 15 then s.updCtx c (fun x => { x with lost := false }) else s
  match (v.extractLsb' 0 4).toNat with
  | 0 => s
  | 1 => hostCommand s c [0] (fun s => createContext s c)
  | 2 => hostCommand s c [1] (fun s => requestPreempt s c)
  | 3 => hostCommand s c [3] (fun s => restoreCmd s c)
  | 4 => terminateCmd s c
  | 5 => hostCommand s c [1, 3] (fun s => clearTlb s c)
  | 6 => hostCommand s c [3, 5] (fun s => destroyContext s c)
  | _ => hostCommand s c [] (fun s => s)

/-- A write in the identity block (R429). -/
def identWrite (s : State) (off : Nat) (v : W64) : State :=
  if off = 0x10 then (match (v.extractLsb' 0 2).toNat with
    | 0 => s
    | 1 => lcOpens s
    | 2 => lcRetires s
    | _ => setIdent s (fun x => { x with lcres := 2 }))
  else if off = 0x20 then (if v.getLsbD 0 then bootGo s else s)
  else if 0x100 ≤ off && off < 0x190 then setIdent s (fun x => { x with tokbuf := putWord x.tokbuf (off - 0x100) v })
  else if 0x200 ≤ off && off < 0x220 then setIdent s (fun x => { x with nonce := putWord x.nonce (off - 0x200) v })
  else if off = 0x220 then (if v.getLsbD 0 then setIdent s (fun x => { x with attBusy := true }) else s)
  else if keyOffset off then keyWrite s off v
  else s

/-- A host write of a word of the control window (R421): a hole or a protected register is refused. -/
def barWrite (s : State) (off : Nat) (v : W64) : State :=
  let refuse : State := hostRefused s (bar0 off)
  if off < 0x10000 then identWrite s off v
  else if !s.ident.ready then refuse
  else if off < 0x10040 then powerRequest s ((off - 0x10000) / 8) (v.extractLsb' 0 2).toNat
  else if off = 0x20008 then { s with eltail := v.toNat }
  else if 0x40000 ≤ off && off < 0x40400 then frwRegWrite s ((off - 0x40000) / 64) (off % 64) v
  else if 0x100000 ≤ off && off < 0x104000 then
    let c := (off - 0x100000) / 256
    if off % 256 = 0x38 then cmdWrite s c v else contextWrite s c (off % 256) v
  else if 0x104000 ≤ off && off < 0x104400 then
    let i := (off - 0x104000) / 16
    { s with grants := s.grants.modify i (fun g => if off % 16 = 0 then { g with w0 := v &&& 0xBBFF00FFFFFFFF00#64 } else { g with w1 := v &&& 0x00003F00FFFFFFFF#64 }) }
  else if 0x1000000 ≤ off && off < 0x1040000 && off % 0x1000 < 0x200 then
    hostSubmit s ((off - 0x1000000) / 0x1000) (off % 0x1000 / 8) v
  else refuse

/-- REGISTER_WRITE (R421). -/
def execRegisterWrite (off : Nat) (v : W64) (s : State) : Out := .next (if off % 8 = 0 then barWrite s off v else s)

/-- The words of an error-log entry (R424). -/
def logWord (e : LogEntry) (i : Nat) : Nat :=
  match i with
  | 0 => e.kind % 256 * 2 ^ 56 + e.code % 256 * 2 ^ 48 + e.sub % 256 * 2 ^ 40 + e.agent % 16 * 2 ^ 36 + e.ctx % 64 * 2 ^ 30
      + (if e.va then 2 ^ 29 else 0) + e.core % 512
  | 1 => e.addr.toNat
  | 2 => e.clk % 2 ^ 64
  | _ => e.word3.toNat

/-- The number of the newest of `head` entries that stands in slot i of a ring of n. -/
def newestIn (head i n : Nat) : Option Nat := if i < head then some (i + n * ((head - 1 - i) / n)) else none

/-- A read in the error-log block (R424, R425). -/
def logRead (s : State) (r : Nat) : Nat :=
  if r = 0x00 then s.elhead
  else if r = 0x08 then s.eltail
  else if r = 0x10 then s.ellost
  else if r = 0x18 then s.cecnt
  else if r = 0x20 then s.retired.length
  else if r = 0x28 then s.nhead
  else if 0x1000 ≤ r && r < 0x9000 then (match newestIn s.elhead ((r - 0x1000) / 32) 1024 with
    | some i => (match s.elring[i]? with
      | some e => logWord e (r % 32 / 8)
      | none => 0)
    | none => 0)
  else if 0x9000 ≤ r && r < 0xA000 then (match newestIn s.nhead ((r - 0x9000) / 16) 256 with
    | some i => (match s.notif[i - (s.nhead - s.notif.length)]? with
      | some p => if r % 16 = 0 then p.1.toNat else p.2.toNat
      | none => 0)
    | none => 0)
  else 0

/-- CMD as it reads (R422). -/
def cmdRead (x : Context) : Nat :=
  (if x.lost then 2 ^ 15 else 0) + (if x.fail then 2 ^ 14 else 0) + (if x.busy then 2 ^ 13 else 0) + x.st * 2 ^ 8

def contextRead (x : Context) (r : Nat) : Nat :=
  if r = 0x00 then x.cfg.toNat
  else if r = 0x08 then x.root.toNat
  else if r = 0x10 then x.qtab.toNat
  else if r = 0x18 then x.digt.toNat
  else if r = 0x20 then x.dbg.toNat
  else if r = 0x28 then x.keys.toNat
  else if r = 0x30 then x.slice.toNat
  else if r = 0x38 then cmdRead x
  else 0

/-- A read in the identity block (R429). -/
def identRead (x : Identity) (off : Nat) : Nat :=
  if off = 0x00 then Config.fuseDevid.toNat
  else if off = 0x08 then (if x.recov then 2 ^ 9 else 0) + (if x.ready then 2 ^ 8 else 0) + x.state
  else if off = 0x18 then x.lcres
  else if 0x40 ≤ off && off < 0x80 then wordAt (leBytes Config.fuseIdkey.toNat 57) (off - 0x40)
  else if 0x80 ≤ off && off < 0xC0 then wordAt x.meas (off - 0x80)
  else if 0x100 ≤ off && off < 0x190 then wordAt x.tokbuf (off - 0x100)
  else if 0x200 ≤ off && off < 0x220 then wordAt x.nonce (off - 0x200)
  else if off = 0x220 then (if x.attBusy then 1 else 0)
  else if 0x280 ≤ off && off < 0x2F8 then wordAt x.attsig (off - 0x280)
  else if 0x2000 ≤ off && off < 0x2300 then
    leNat ((List.range 8).map (fun i => ((x.kmap.find? (fun p => p.1 == off - 0x2000 + i)).map Prod.snd).getD 0#8))
  else 0

/-- A host read of a word of the control window, or none where it is refused (R421). An offset inside a block that the spec gives no register (0x40 to 0xFF of a context
entry, the gaps of the identity block) reads zero and ignores writes, and one outside every block is refused: DESIGN CHOICE, log entry 66. -/
def barRead (s : State) (off : Nat) : Option Nat :=
  if off < 0x10000 then some (identRead s.ident off)
  else if !s.ident.ready then none
  else if off < 0x10040 then (s.power[(off - 0x10000) / 8]?).map (fun p => p.req + p.st * 16)
  else if 0x20000 ≤ off && off < 0x30000 then some (logRead s (off - 0x20000))
  else if 0x30000 ≤ off && off < 0x30500 then
    some (if off = 0x30000 then Config.selfPeer % 1024
      else if off < 0x30100 then 0
      else leNat ((List.range 8).map (fun i => BitVec.ofNat 8 (((s.levels.find? (fun p => p.1 == off - 0x30100 + i)).map Prod.snd).getD 0))))
  else if 0x40000 ≤ off && off < 0x40400 then some (frwRegRead (frwOf s ((off - 0x40000) / 64)) (off % 64))
  else if 0x50000 ≤ off && off < 0x58000 then some (65536 * (s.retired.getD ((off - 0x50000) / 8) 0))
  else if 0x100000 ≤ off && off < 0x104000 then some (contextRead (s.ctx ((off - 0x100000) / 256)) (off % 256))
  else if 0x104000 ≤ off && off < 0x104400 then
    (s.grants[(off - 0x104000) / 16]?).map (fun g => if off % 16 = 0 then g.w0.toNat else g.w1.toNat)
  else if 0x1000000 ≤ off && off < 0x1040000 && off % 0x1000 < 0x200 then some 0
  else none

/-! ## The memory window (R283, R421) -/

/-- A refused access of the host to memory (R110): a read returns all ones. -/
def memRefused (s : State) (agent c pa code sub : Nat) : State :=
  { s.logRefused agent c 0 false (BitVec.ofNat 64 pa) code sub 0#64 with lastRead := BitVec.allOnes 128 }

/-- The staging area of a recovery (R428). -/
def stagingAccess (s : State) (write : Bool) (pa n : Nat) (v : W64) : State :=
  if write then { s with staging := Memory.writeN s.staging pa (leBytes v.toNat n) }
  else { s with lastRead := BitVec.ofNat 128 (leNat (Memory.readN s.staging pa n)) }

/-- A naturally aligned host access in the memory window. The owner tag of a line that it fills or writes is left open (R95). -/
def memoryAccess (s : State) (write : Bool) (pa n : Nat) (v : W64) : State :=
  match s.paKind pa with
  | .device =>
    if s.pageRetired pa then memRefused s 5 0 pa 0x0C 3
    else if (s.dbgWindow pa).any (fun c => s.dbgShut c (pa - s.dbgBase c)
        || (State.dbgHeld (pa - s.dbgBase c) && !write && (s.dbgRead c ((pa - s.dbgBase c) / 8 * 8)).isNone)) then
      memRefused s 7 0 pa 0x07 2
    else
      let (q, s) := s.free
      let c := q.toNat % 64
      if write then s.agentWriteN pa n c v.toNat
      else (let (s, x) := (s.stampRead (pa / 128)).homeReadN pa n c; { s with lastRead := BitVec.ofNat 128 x })
  | _ => memRefused s 5 0 pa 0x07 2

/-- HOST_MEMORY_ACCESS: an access through the memory window (R283, R421, R428), or, at an address of control space, one of a word of the control window. -/
def hostAccess (s : State) (write : Bool) (pa n : Nat) (v : W64) : Option State :=
  if !([1, 2, 4, 8].contains n) || pa % n != 0 then none
  else if 0x8000000000000 ≤ pa && pa < 0x8000100000000 then
    let off := pa - 0x8000000000000
    if write then
      (if n = 8 then some (barWrite s off v)
       else if 0x2000 ≤ off && off < 0x2300 then some (kmapWrites s off n v)
       else none)
    else match barRead s (off / 8 * 8) with
      | some x => some { s with lastRead := BitVec.ofNat 128 (x / 256 ^ (off % 8) % 256 ^ n) }
      | none => some (memRefused s 5 0 pa 0x07 2)
  else if s.ident.ready then some (memoryAccess s write pa n v)
  else if s.ident.recov && pa < 2 ^ 28 then some (stagingAccess s write pa n v)
  else some (memRefused s 5 0 pa 0x07 2)

def execHostMemoryAccess (write : Bool) (pa size : Nat) (v : W64) (s : State) : Out := happens s (hostAccess s write pa size v)

/-! ## Peers (R264, R427) -/

/-- What an access asks of a grant: bit 59 R, 60 W, 61 A. -/
def peerRight : PeerAcc → Nat
  | .read => 59
  | .write _ => 60
  | _ => 61

/-- The grant that admits a peer's access (R427). -/
def grantFor (s : State) (peer : Nat) (acc : PeerAcc) (pa n : Nat) : Option Grant :=
  s.grants.find? (fun g =>
    let base := (g.w0.extractLsb' 8 32).toNat * 256
    g.w0.getLsbD 63 && g.w0.getLsbD (peerRight acc) && (g.w0.extractLsb' 48 10).toNat == peer
      && decide (base ≤ pa) && decide (pa + n ≤ base + 256 * (g.w1.extractLsb' 0 32).toNat))

/-- A size that a peer's access may have (R152, R159 to R164). -/
def Peer.sized (acc : PeerAcc) (n : Nat) : Bool :=
  match acc with
  | .decrement _ | .bararv _ | .barwt .. => n == 8
  | .atomic _ ty _ | .await ty .. => n != 0 && n == ty.bits / 8
  | .cas .. => n == 4 || n == 8
  | .read | .write _ => [1, 2, 4, 8, 16].contains n

/-- A peer's word operation at the home (R94, R159 to R164). -/
def peerWord (s : State) (c pa n : Nat) (acc : PeerAcc) : WordOut :=
  match acc with
  | .atomic op ty v =>
    let (s, x) := s.homeReadN pa n c
    ⟨s.homeWriteN pa n c (atomNew op ty (BitVec.ofNat 64 x) v).toNat, x, true⟩
  | .cas old new =>
    let (s, x) := s.homeReadN pa n c
    ⟨if x = old.toNat % 2 ^ (8 * n) then s.homeWriteN pa n c new.toNat else s, x, true⟩
  | .decrement k => decrement s c (BitVec.ofNat 64 pa) pa k.toNat
  | .bararv k => barrierArrives s c pa k
  | .read | .write _ | .await .. | .barwt .. => ⟨s, 0, true⟩

/-- A peer's AWAIT or BARWT (R94, R165) stands at the home until it is answered; its limit counts from its arrival (log entry 57). -/
def peerStarts (s : State) (c pa n : Nat) (op : WordOp) (limit : W32) : State :=
  let (s', d) := s.homeRead (pa / 128) c
  if State.waitRefused op pa (LineOps.get d (pa % 128) n) then s.peerRefused c pa 7 6
  else
    let (id, s') := s'.fresh
    let w : PeerWait := { id := id, ctx := c, pa := pa, op := op, size := n, limit := if limit = 0#32 then none else some (s.clk + limit.toNat) }
    State.peerTest { s' with peerWaits := s'.peerWaits ++ [w] } w d false

/-- An admitted access of a peer at the home Vale (R264, R283, R427). -/
def peerActs (s : State) (c pa n : Nat) (acc : PeerAcc) : State :=
  match acc with
  | .read => (let (s, x) := (s.stampRead (pa / 128)).homeReadN pa n c; { s with lastRead := BitVec.ofNat 128 x })
  | .write v => s.agentWriteN pa n c v.toNat
  | .await ty cond v limit => peerStarts s c pa n (.await ty cond v) limit
  | .barwt phase limit => peerStarts s c pa n (.barwt phase) limit
  | _ =>
    let r := peerWord (s.stampWrite (pa / 128)) c pa n acc
    if r.ok then { r.s with lastRead := BitVec.ofNat 128 r.val } else s.peerRefused c pa 7 6

/-- PEER_ACCESS (R283, R427): performed at the home Vale under the grant's context. -/
def peerDoes (s : State) (peer : Nat) (acc : PeerAcc) (pa n : Nat) : Option State :=
  if !Peer.sized acc n || pa % n != 0 then none
  else match grantFor s peer acc pa n, s.paKind pa with
    | some g, .device =>
      let c := (g.w1.extractLsb' 40 6).toNat
      some (match s.homeFault pa with
        | some (code, sub) => s.peerRefused c pa code sub
        | none => if (s.dbgWindow pa).isSome || !s.ident.ready then s.peerRefused c pa 7 2 else peerActs s c pa n acc)
    | _, _ => some (s.peerRefused 0 pa 7 2)

def execPeerAccess (peer : Nat) (acc : PeerAcc) (pa size : Nat) (s : State) : Out := happens s (peerDoes s peer acc pa size)

end Sys2Proof.Machine
end

