-- ==== Sys2Proof/Machine/Sfu.lean ====
section
/-! DEFINITION. The special functions of R231, correctly rounded, and the generator of R232. RCP, RSQ and SQRT round an exact quotient
or root with a sticky bit. EXP2, LOG2, SINPI, COSPI and TANH bound the exact value between two fixed-point numbers of `prec` fraction
bits and round both; where the two roundings agree that is the result (log entry 19). -/

namespace Sys2Proof.Machine

namespace Sfu

/-- Fraction bits of the intervals. -/
def prec : Nat := 400

def one : Nat := 2 ^ prec

/-- A non-negative value between lo / 2^prec and hi / 2^prec. -/
structure Iv where
  lo : Nat
  hi : Nat
deriving DecidableEq, Repr

def Iv.add (a b : Iv) : Iv := { lo := a.lo + b.lo, hi := a.hi + b.hi }
def Iv.sub (a b : Iv) : Iv := { lo := a.lo - b.hi, hi := a.hi - b.lo }
def Iv.mul (a b : Iv) : Iv := { lo := a.lo * b.lo / one, hi := a.hi * b.hi / one + 1 }
def Iv.scale (a : Iv) (n : Nat) : Iv := { lo := a.lo * n, hi := a.hi * n }
def Iv.divN (a : Iv) (n : Nat) : Iv := { lo := a.lo / n, hi := a.hi / n + 1 }
/-- A quotient by a divisor whose lower bound is positive. -/
def Iv.quot (a b : Iv) : Iv := { lo := a.lo * one / b.hi, hi := a.hi * one / b.lo + 1 }

/-- Σ x^n / n! from the term `t` = x^k / k!, over `fuel` terms, with the tail added to the upper bound. -/
def expSum (x : Iv) : Nat → Nat → Iv → Iv
  | 0, _, t => { lo := 0, hi := 2 * t.hi + 2 }
  | fuel + 1, k, t => (expSum x fuel (k + 1) ((t.mul x).divN (k + 1))).add t

/-- e^x for x below 32. -/
def exp (x : Iv) : Iv := expSum x 400 0 { lo := one, hi := one }

/-- Σ y^(2k+1) / (2k+1) of a power `p` = y^(2k+1), y at most 1/3. -/
def atanhSum (y2 : Iv) : Nat → Nat → Iv → Iv
  | 0, _, p => { lo := 0, hi := 2 * p.hi + 2 }
  | fuel + 1, k, p => (atanhSum y2 fuel (k + 1) (p.mul y2)).add (p.divN (2 * k + 1))

/-- ln((1 + y) / (1 − y)) for y at most 1/3. -/
def ln2atanh (y : Iv) : Iv := (atanhSum (y.mul y) 140 0 y).scale 2

def ln2 : Iv := ln2atanh { lo := one / 3, hi := one / 3 + 1 }

/-- Alternating Σ (−1)^k y^(2k+1) / (2k+1); the even and odd sums are kept apart. -/
def atanSum (y2 : Iv) : Nat → Nat → Iv → Iv × Iv
  | 0, _, p => ({ lo := 0, hi := p.hi + 1 }, { lo := 0, hi := p.hi + 1 })
  | fuel + 1, k, p =>
    let (ev, od) := atanSum y2 fuel (k + 1) (p.mul y2)
    if k % 2 = 0 then (ev.add (p.divN (2 * k + 1)), od) else (ev, od.add (p.divN (2 * k + 1)))

def atanInv (n : Nat) : Iv :=
  let y : Iv := { lo := one / n, hi := one / n + 1 }
  let (a, b) := atanSum (y.mul y) 100 0 y
  a.sub b

/-- π by Machin's formula. -/
def pi : Iv := ((atanInv 5).scale 16).sub ((atanInv 239).scale 4)

/-- Positive and negative terms of Σ (−1)^k x^(2k+j) / (2k+j)! from the term `t` = x^(2k+j) / (2k+j)!. -/
def trigSum (x2 : Iv) (j : Nat) : Nat → Nat → Iv → Iv × Iv
  | 0, _, t => ({ lo := 0, hi := t.hi + 1 }, { lo := 0, hi := t.hi + 1 })
  | fuel + 1, k, t =>
    let n := 2 * k + j
    let (p, m) := trigSum x2 j fuel (k + 1) ((t.mul x2).divN ((n + 1) * (n + 2)))
    if k % 2 = 0 then (p.add t, m) else (p, m.add t)

/-- sin(π r) and cos(π r) for 0 ≤ r ≤ 1/2, r in fixed point. -/
def sinPi (r : Nat) : Iv :=
  let x := pi.mul { lo := r, hi := r }
  let (p, m) := trigSum (x.mul x) 1 60 0 x
  p.sub m

def cosPi (r : Nat) : Iv :=
  let x := pi.mul { lo := r, hi := r }
  let (p, m) := trigSum (x.mul x) 0 60 0 { lo := one, hi := one }
  p.sub m

/-- An interval times 2^k rounded to f32 in `.rne`; none where its ends round apart. -/
def toF32 (neg : Bool) (v : Iv) (k : Int) : Option Nat :=
  let a := Fmt.f32.round .rne false neg v.lo (k - prec)
  let b := Fmt.f32.round .rne false neg v.hi (k - prec)
  if a = b then some a else none

/-- m × 2^e in fixed point, for e ≥ −prec. -/
def fixed (m : Nat) (e : Int) : Nat := m * 2 ^ (e + prec).toNat

def bits (v : FVal) : Nat := Fmt.f32.encode .rne false v

/-- Integer square root by halving an interval (structural). -/
def isqrtGo (n : Nat) : Nat → Nat → Nat
  | 0, r => r
  | b + 1, r => let c := r + 2 ^ b
                if c * c ≤ n then isqrtGo n b c else isqrtGo n b r

def isqrt (n : Nat) : Nat := isqrtGo n (Nat.log2 n / 2 + 1) 0

/-- A quotient or root with a sticky bit below it, so that one rounding is exact. -/
def sticky (q : Nat) (exact : Bool) : Nat := 2 * q + (if exact then 0 else 1)

def rcp (x : Nat) : Nat :=
  match Fmt.f32.decode x with
  | .nan => Fmt.f32.nan
  | .inf n => bits (.fin n 0 0)
  | .fin n m e =>
    if m = 0 then bits (.inf n)
    else Fmt.f32.round .rne false n (sticky (2 ^ 64 / m) (2 ^ 64 % m == 0)) (-65 - e)

def sqrt (x : Nat) : Nat :=
  match Fmt.f32.decode x with
  | .nan => Fmt.f32.nan
  | .inf n => if n then Fmt.f32.nan else x
  | .fin n m e =>
    if m = 0 then x
    else if n then Fmt.f32.nan
    else
      let (m', e') := if e % 2 = 0 then (m, e) else (2 * m, e - 1)
      let v := m' * 2 ^ 64
      let q := isqrt v
      Fmt.f32.round .rne false false (sticky q (q * q == v)) (e' / 2 - 33)

def rsq (x : Nat) : Nat :=
  match Fmt.f32.decode x with
  | .nan => Fmt.f32.nan
  | .inf n => if n then Fmt.f32.nan else bits (.fin false 0 0)
  | .fin n m e =>
    if m = 0 then bits (.inf n)
    else if n then Fmt.f32.nan
    else
      let (m', e') := if e % 2 = 0 then (m, e) else (2 * m, e - 1)
      -- 1/√(m' 2^e') = √(2^130 / m') 2^(-65 - e'/2)
      let v := 2 ^ 130 / m'
      let q := isqrt v
      Fmt.f32.round .rne false false (sticky q (q * q == v && 2 ^ 130 % m' == 0)) (-66 - e' / 2)

def exp2 (x : Nat) : Option Nat :=
  match Fmt.f32.decode x with
  | .nan => some Fmt.f32.nan
  | .inf n => some (if n then bits (.fin false 0 0) else x)
  | .fin n m e =>
    if m = 0 then some (bits (.fin false 1 0))
    else if 0 ≤ e + (Nat.log2 m : Int) - 7 && !n then some (bits (.inf false))     -- a ≥ 128
    else if 0 ≤ e + (Nat.log2 m : Int) - 8 then some (bits (.fin false 0 0))       -- a ≤ −256
    else
      let z : Int := if n then -(fixed m e : Int) else fixed m e
      let k := z / (one : Int)
      let f := (z % (one : Int)).toNat
      if z < -150 * (one : Int) then some (bits (.fin false 0 0))
      else if f = 0 then some (bits (.fin false 1 k))
      else toF32 false (exp (ln2.mul { lo := f, hi := f })) k

def log2 (x : Nat) : Option Nat :=
  match Fmt.f32.decode x with
  | .nan => some Fmt.f32.nan
  | .inf n => some (if n then Fmt.f32.nan else x)
  | .fin n m e =>
    if m = 0 then some (bits (.inf true))
    else if n then some Fmt.f32.nan
    else
      let l := Nat.log2 m
      let k : Int := e + l
      if m = 2 ^ l then some (bits (FVal.ofInt false k 0))
      else
        -- m / 2^l in (1, 2): ln of it is 2 atanh((m − 2^l) / (m + 2^l))
        let num := (m - 2 ^ l) * one
        let y : Iv := { lo := num / (m + 2 ^ l), hi := num / (m + 2 ^ l) + 1 }
        let g := (ln2atanh y).quot ln2
        if 0 ≤ k then toF32 false (g.add { lo := k.toNat * one, hi := k.toNat * one }) 0
        else toF32 true ({ lo := (-k).toNat * one, hi := (-k).toNat * one : Iv }.sub g) 0

/-- a mod 2 in fixed point, for a finite operand; operands of magnitude 2^24 or more are even (R231). -/
def mod2 (m : Nat) (e : Int) : Nat := if 0 < e then 0 else fixed m e % (2 * one)

def sinpi (x : Nat) : Option Nat :=
  match Fmt.f32.decode x with
  | .nan | .inf _ => some Fmt.f32.nan
  | .fin n m e =>
    let r := mod2 m e
    if r % one = 0 then some (bits (.fin n 0 0))
    else
      let neg := if r < one then n else !n
      let q := r % one
      let q := if 2 * q ≤ one then q else one - q
      if 2 * q = one then some (bits (.fin neg 1 0)) else toF32 neg (sinPi q) 0

def cospi (x : Nat) : Option Nat :=
  match Fmt.f32.decode x with
  | .nan | .inf _ => some Fmt.f32.nan
  | .fin _ m e =>
    let r := mod2 m e
    let r := if r ≤ one then r else 2 * one - r          -- cos is even around 1
    if r = 0 then some (bits (.fin false 1 0))
    else if r = one then some (bits (.fin true 1 0))
    else if 2 * r = one then some (bits (.fin false 0 0))
    else if 2 * r < one then (if 4 * r ≤ one then toF32 false (cosPi r) 0 else toF32 false (sinPi (one / 2 - r)) 0)
    else (if 4 * (one - r) ≤ one then toF32 true (cosPi (one - r)) 0 else toF32 true (sinPi (r - one / 2)) 0)

def tanh (x : Nat) : Option Nat :=
  match Fmt.f32.decode x with
  | .nan => some Fmt.f32.nan
  | .inf n => some (bits (.fin n 1 0))
  | .fin n m e =>
    if m = 0 then some x
    else if 0 ≤ e + (Nat.log2 m : Int) - 4 then some (bits (.fin n 1 0))            -- |a| ≥ 16
    else
      let z := 2 * fixed m e
      let t := exp { lo := z, hi := z }
      let u : Iv := { lo := one, hi := one }
      toF32 n ((t.sub u).quot (t.add u)) 0

/-- The mixing of R232. -/
def draw (seed : W64) (lane : Nat) (d : W64) : W32 :=
  let n : W64 := BitVec.ofNat 64 Config.W * d + BitVec.ofNat 64 lane
  let z := seed ^^^ (n * 0x9E3779B97F4A7C15#64)
  let z := (z ^^^ (z >>> 30)) * 0xBF58476D1CE4E5B9#64
  let z := (z ^^^ (z >>> 27)) * 0x94D049BB133111EB#64
  let z := z ^^^ (z >>> 31)
  z.extractLsb' 32 32

/-- RNDF: r[31:8] × 2^−24 as f32 (R232). -/
def unitF32 (r : W32) : W32 := BitVec.ofNat 32 (Fmt.f32.round .rne false false (r.toNat / 256) (-24))

end Sfu

end Sys2Proof.Machine
end

