-- ==== Sys2Proof/Machine/FltOps.lean ====
section
/-! DEFINITION. The FLT and CVT groups without QBLK and DQBLK (R217 to R227), fixed-latency A, and the SFU group (R230 to R233), variable-latency. -/

namespace Sys2Proof.Machine

/-- FADD (R219). -/
def execFadd (h : Hd) (ty : ElemTy) (r : Rnd) (d : Dst) (a : Src) (b : SrcI) (s : State) : Out := op2 h ty d a b (fadd ty r) s

/-- FSUB (R219). -/
def execFsub (h : Hd) (ty : ElemTy) (r : Rnd) (d : Dst) (a : Src) (b : SrcI) (s : State) : Out := op2 h ty d a b (fsub ty r) s

/-- FMUL (R219). -/
def execFmul (h : Hd) (ty : ElemTy) (r : Rnd) (d : Dst) (a : Src) (b : SrcI) (s : State) : Out := op2 h ty d a b (fmul ty r) s

/-- FMIN (R220). -/
def execFmin (h : Hd) (ty : ElemTy) (nan : Bool) (d : Dst) (a : Src) (b : SrcI) (s : State) : Out := op2 h ty d a b (fmin ty nan) s

/-- FMAX (R220). -/
def execFmax (h : Hd) (ty : ElemTy) (nan : Bool) (d : Dst) (a : Src) (b : SrcI) (s : State) : Out := op2 h ty d a b (fmax ty nan) s

/-- FFMA (R219). -/
def execFfma (h : Hd) (ty : ElemTy) (r : Rnd) (d : Dst) (a b c : Src) (s : State) : Out := op3 h ty d a b c (ffma ty r) s

/-- FRND (R221). -/
def execFrnd (h : Hd) (ty : ElemTy) (r : Rnd) (d : Dst) (a : Src) (s : State) : Out := op1 h ty d a (frnd ty r) s

/-- FSCALE (R221). -/
def execFscale (h : Hd) (ty : ElemTy) (r : Rnd) (d : Dst) (a n : Src) (s : State) : Out :=
  fixedWord (typedSpec h ty d [Opnd.cell a, Opnd.cell n]) Config.latA (fun _ l => Res.val (fscale ty r (l.v 0) (l.v 1))) s

/-- FCLASS (R222). -/
def execFclass (h : Hd) (ty : ElemTy) (d : Dst) (a : Src) (s : State) : Out := op1 h ty d a (fclass ty) s

/-- FDOT2 (R223). -/
def execFdot2 (h : Hd) (ty : ElemTy) (r : Rnd) (d : Dst) (a b c : Src) (s : State) : Out := op3 h ty d a b c (fdot2 ty r) s

/-! ## Conversions (R224 to R227) -/

/-- A conversion: sources of the literal's type, a destination of TY; an i4s code 0x8 sets FMTRSV.CVT at write-back (R30, R31). -/
def cvtWord (h : Hd) (ty : ElemTy) (d : Dst) (srcs : List Opnd) (f : Lane → W64 × Bool) (s : State) : Out :=
  fixedWord (typedSpec h ty d srcs) Config.latA (fun _ l =>
    let r := f l
    { vals := [r.1], preds := [], cvt := r.2 }) s

/-- CVT (R227). -/
def execCvt (h : Hd) (ty : ElemTy) (r : Rnd) (d : Dst) (a : Src) (l : CvtLit) (s : State) : Out :=
  cvtWord h ty d [Opnd.of l.sty a] (fun x => cvt ty r l (x.v 0)) s

/-- CVTPK (R227). -/
def execCvtpk (h : Hd) (ty : ElemTy) (r : Rnd) (d : Dst) (a b : Src) (l : CvtLit) (s : State) : Out :=
  cvtWord h ty d [Opnd.of l.sty a, Opnd.of l.sty b] (fun x => cvtpk ty r l (x.v 0) (x.v 1)) s

/-- CVT8PK (R227). -/
def execCvt8pk (h : Hd) (ty : ElemTy) (r : Rnd) (d : Dst) (a b : Src) (c : Option Src) (l : CvtLit) (s : State) : Out :=
  let srcs := [Opnd.cell a, Opnd.cell b] ++ (match c with
    | some c => [Opnd.cell c]
    | none => [])
  cvtWord h ty d srcs (fun x => (cvt8pk ty r l (x.v 0) (x.v 1) (x.v 2), false)) s

/-- CVTUPK (R227). -/
def execCvtupk (h : Hd) (ty : ElemTy) (r : Rnd) (d : Dst) (a : Src) (l : CvtLit) (s : State) : Out :=
  cvtWord h ty d [Opnd.cell a] (fun x => cvtupk ty r l (x.v 0)) s

/-! ## Special functions (R230, R231) -/

/-- An SFU function of one f32; a result that the interval arithmetic does not decide is a free value (log entry 19). -/
def sfuWord (h : Hd) (d : Dst) (a : Src) (f : Nat → Option Nat) (s : State) : Out :=
  variableWord { h := h, srcs := [Opnd.cell a], dst := Dest.ofDst d false, a := true } (fun s _ l =>
    match f (elemAt 32 0 (l.v 0)) with
    | some v => (BitVec.ofNat 64 v, s)
    | none => let (v, s) := s.free; (lowCell v, s)) s

/-- RCP (R231). -/
def execRcp (h : Hd) (d : Dst) (a : Src) (s : State) : Out := sfuWord h d a (fun x => some (Sfu.rcp x)) s

/-- RSQ (R231). -/
def execRsq (h : Hd) (d : Dst) (a : Src) (s : State) : Out := sfuWord h d a (fun x => some (Sfu.rsq x)) s

/-- SQRT (R231). -/
def execSqrt (h : Hd) (d : Dst) (a : Src) (s : State) : Out := sfuWord h d a (fun x => some (Sfu.sqrt x)) s

/-- EXP2 (R231). -/
def execExp2 (h : Hd) (d : Dst) (a : Src) (s : State) : Out := sfuWord h d a Sfu.exp2 s

/-- LOG2 (R231). -/
def execLog2 (h : Hd) (d : Dst) (a : Src) (s : State) : Out := sfuWord h d a Sfu.log2 s

/-- SINPI (R231). -/
def execSinpi (h : Hd) (d : Dst) (a : Src) (s : State) : Out := sfuWord h d a Sfu.sinpi s

/-- COSPI (R231). -/
def execCospi (h : Hd) (d : Dst) (a : Src) (s : State) : Out := sfuWord h d a Sfu.cospi s

/-- TANH (R231). -/
def execTanh (h : Hd) (d : Dst) (a : Src) (s : State) : Out := sfuWord h d a Sfu.tanh s

/-- One draw of a lane: the 32-bit draw, and the counter raised (R232). -/
def drawLane (s : State) (l : Lane) : W32 × State :=
  (Sfu.draw (s.ctx l.t.ctx).seed l.t.lane l.t.draw, s.updThread l.t.id (fun t => { t with draw := t.draw + 1#64 }))

/-- RND (R232). -/
def execRnd (h : Hd) (d : Dst) (s : State) : Out :=
  variableWord { h := h, dst := Dest.ofDst d false, a := true } (fun s _ l => let (r, s) := drawLane s l; (r.zeroExtend 64, s)) s

/-- RNDF (R232). -/
def execRndf (h : Hd) (d : Dst) (s : State) : Out :=
  variableWord { h := h, dst := Dest.ofDst d false, a := true } (fun s _ l => let (r, s) := drawLane s l; ((Sfu.unitF32 r).zeroExtend 64, s)) s

end Sys2Proof.Machine
end

