-- ==== Sys2Proof/Machine/XlnOps.lean ====
section
/-! DEFINITION. The XLN group (R210 to R216): exchange within a row, fixed-latency X. -/

namespace Sys2Proof.Machine

/-- The executing lanes of a lane's row (R210, R211). -/
def rowLanes (ls : List Lane) (l : Lane) : List Lane := ls.filter (fun x => x.t.slot == l.t.slot)

/-- The value at a position, or `z` where it is inactive (R211, R214). -/
def atPos (row : List Lane) (i : Nat) (k : Nat) (z : W64) : W64 :=
  match row.find? (fun x => x.t.lane == i) with
  | some x => x.v k
  | none => z

def xlnWord (w : Spec) (f : List Lane → Lane → Res) (s : State) : Out :=
  fixedWord w Config.latX (fun ls l => f (rowLanes ls l) l) s

/-- The offset, mask or position operand: n32, or IMM16 zero-extended (R213). -/
def Opnd.pos : SrcI → Opnd
  | .reg a => Opnd.cell a
  | .imm v => .const (v.zeroExtend 64)

/-- The source position of XSHF (R213). -/
def xshfSrc (m : XMode) (i b : Nat) : Nat :=
  match m with
  | .idx => b % Config.W
  | .up => if b ≤ i then i - b else i
  | .down => if i + b < Config.W then i + b else i

/-- XSHF (R213). -/
def execXshf (h : Hd) (ty : ElemTy) (m : XMode) (d : Dst) (a : Src) (b : SrcI) (s : State) : Out :=
  xlnWord (typedSpec h ty d [Opnd.of ty a, Opnd.pos b])
    (fun row l => Res.val (atPos row (xshfSrc m l.t.lane (elemAt 32 0 (l.v 1))) 0 0#64)) s

/-- XBFLY (R213). -/
def execXbfly (h : Hd) (ty : ElemTy) (d : Dst) (a : Src) (b : SrcI) (s : State) : Out :=
  xlnWord (typedSpec h ty d [Opnd.of ty a, Opnd.pos b])
    (fun row l => Res.val (atPos row (l.t.lane ^^^ (elemAt 32 0 (l.v 1) % Config.W)) 0 0#64)) s

/-- XBCAST: the position operand of the lowest executing position (R213). -/
def execXbcast (h : Hd) (ty : ElemTy) (d : Dst) (a : Src) (b : SrcI) (s : State) : Out :=
  xlnWord (typedSpec h ty d [Opnd.of ty a, Opnd.pos b])
    (fun row _ => Res.val (atPos row (match row with
      | [] => 0
      | l :: _ => elemAt 32 0 (l.v 1) % Config.W) 0 0#64)) s

/-- The operation and the identity of REDX and SCANX (R214). -/
def redOp (ty : ElemTy) (op : RedOp) : W64 → W64 → W64 :=
  if ty == .f32 then (match op with
    | .min => fmin .f32 false
    | .max => fmax .f32 false
    | _ => fadd .f32 .rne)
  else redInt ty op

def redId (ty : ElemTy) (op : RedOp) : W64 :=
  if ty == .f32 then (match op with
    | .min => 0x7F800000#64
    | .max => 0xFF800000#64
    | _ => 0x80000000#64)
  else redIntId ty op

/-- The W positions of a row, the identity standing in inactive ones. -/
def positions (row : List Lane) (z : W64) : List W64 := (List.range Config.W).map (fun i => atPos row i 0 z)

/-- REDX (R214, R50). -/
def execRedx (h : Hd) (ty : ElemTy) (d : Dst) (a : Src) (op : RedOp) (s : State) : Out :=
  xlnWord (typedSpec h ty d [Opnd.of ty a])
    (fun row l => Res.val ((redSteps (redOp ty op) offsets.reverse (positions row (redId ty op))).getD l.t.lane 0#64)) s

/-- SCANX (R214, R50). -/
def execScanx (h : Hd) (ty : ElemTy) (d : Dst) (a : Src) (op : RedOp) (excl : Bool) (s : State) : Out :=
  xlnWord (typedSpec h ty d [Opnd.of ty a])
    (fun row l =>
      let x := scanSteps (redOp ty op) offsets (positions row (redId ty op))
      Res.val (if excl then (if l.t.lane = 0 then redId ty op else x.getD (l.t.lane - 1) 0#64) else x.getD l.t.lane 0#64)) s

/-- The mask of positions 64H to 64H + 63 that satisfy a test (R215, R216). -/
def halfMask (row : List Lane) (hi : Bool) (f : Lane → Bool) : W64 :=
  maskBits ((row.filter f).map (fun l => l.t.lane)) hi
where
  maskBits (l : List Nat) (hi : Bool) : W64 :=
    l.foldl (fun m i => if decide (64 ≤ i) == hi then m ||| ((1#64) <<< (i % 64)) else m) 0#64

/-- VOTE (R215). -/
def execVote (h : Hd) (f : VoteForm) (p : Pred) (s : State) : Out :=
  let pv (l : Lane) : Bool := evalPred l.t p
  match f with
  | .all d => xlnWord { h := h, ps := [p], dst := Dest.pred d } (fun row _ => Res.pred (row.all pv)) s
  | .any d => xlnWord { h := h, ps := [p], dst := Dest.pred d } (fun row _ => Res.pred (row.any pv)) s
  | .uni d => xlnWord { h := h, ps := [p], dst := Dest.pred d } (fun row _ => Res.pred (row.all pv || row.all (fun l => !pv l))) s
  | .ballot d hi => xlnWord { h := h, ps := [p], dst := Dest.ofDst d true } (fun row _ => Res.val (halfMask row hi pv)) s

/-- MATCH (R216). -/
def execXmatch (h : Hd) (wide : Bool) (d : Dst) (a : Src) (hi : Bool) (s : State) : Out :=
  xlnWord { h := h, srcs := [.src a wide], dst := Dest.ofDst d true }
    (fun row l => Res.val (halfMask row hi (fun x => x.v 0 == l.v 0))) s

/-- ELECT (R215). -/
def execElect (h : Hd) (d : PName) (s : State) : Out :=
  xlnWord { h := h, dst := Dest.pred d } (fun row l => Res.pred (match row with
    | [] => false
    | x :: _ => x.t.lane == l.t.lane)) s

/-- XCOUNT (R215). -/
def execXcount (h : Hd) (d : Dst) (f : XcountForm) (s : State) : Out :=
  let below (l x : Lane) : Bool := decide (x.t.lane < l.t.lane)
  let num (row : List Lane) (t : Lane → Bool) : Res := Res.val (BitVec.ofNat 64 (row.filter t).length)
  match f with
  | .exec => xlnWord { h := h, dst := Dest.ofDst d false } (fun row _ => num row (fun _ => true)) s
  | .below => xlnWord { h := h, dst := Dest.ofDst d false } (fun row l => num row (below l)) s
  | .pred p => xlnWord { h := h, ps := [p], dst := Dest.ofDst d false } (fun row _ => num row (fun x => evalPred x.t p)) s
  | .predBelow p =>
    xlnWord { h := h, ps := [p], dst := Dest.ofDst d false } (fun row l => num row (fun x => below l x && evalPred x.t p)) s

end Sys2Proof.Machine
end

