-- ==== Sys2Proof/Machine/Dispatch.lean ====
section
/-! DEFINITION. One arm for each constructor of Instr: the meaning it calls, or a refusal by name. -/

namespace Sys2Proof.Machine

def exec (i : Instr) (s : State) : Host.Outcome State Fault Refusal :=
  match i with
  | .nop x0 => Sys2Proof.Machine.execNop x0 s
  | .bra x0 x1 => Sys2Proof.Machine.execBra x0 x1 s
  | .brx x0 x1 => Sys2Proof.Machine.execBrx x0 x1 s
  | .call x0 x1 x2 x3 => Sys2Proof.Machine.execCall x0 x1 x2 x3 s
  | .callx x0 x1 x2 x3 => Sys2Proof.Machine.execCallx x0 x1 x2 x3 s
  | .ret x0 x1 => Sys2Proof.Machine.execRet x0 x1 s
  | .exit x0 => Sys2Proof.Machine.execExit x0 s
  | .waitf x0 x1 => Sys2Proof.Machine.execWaitf x0 x1 s
  | .nap x0 x1 => Sys2Proof.Machine.execNap x0 x1 s
  | .iadd x0 x1 x2 x3 x4 => Sys2Proof.Machine.execIadd x0 x1 x2 x3 x4 s
  | .isub x0 x1 x2 x3 x4 => Sys2Proof.Machine.execIsub x0 x1 x2 x3 x4 s
  | .imul x0 x1 x2 x3 x4 => Sys2Proof.Machine.execImul x0 x1 x2 x3 x4 s
  | .imulhi x0 x1 x2 x3 x4 => Sys2Proof.Machine.execImulhi x0 x1 x2 x3 x4 s
  | .imad x0 x1 x2 x3 x4 x5 => Sys2Proof.Machine.execImad x0 x1 x2 x3 x4 x5 s
  | .imadw x0 x1 x2 x3 x4 x5 => Sys2Proof.Machine.execImadw x0 x1 x2 x3 x4 x5 s
  | .iaddc x0 x1 x2 x3 x4 x5 x6 => Sys2Proof.Machine.execIaddc x0 x1 x2 x3 x4 x5 x6 s
  | .isubb x0 x1 x2 x3 x4 x5 x6 => Sys2Proof.Machine.execIsubb x0 x1 x2 x3 x4 x5 x6 s
  | .imin x0 x1 x2 x3 x4 => Sys2Proof.Machine.execImin x0 x1 x2 x3 x4 s
  | .imax x0 x1 x2 x3 x4 => Sys2Proof.Machine.execImax x0 x1 x2 x3 x4 s
  | .iabs x0 x1 x2 x3 => Sys2Proof.Machine.execIabs x0 x1 x2 x3 s
  | .ineg x0 x1 x2 x3 => Sys2Proof.Machine.execIneg x0 x1 x2 x3 s
  | .isad x0 x1 x2 x3 x4 x5 => Sys2Proof.Machine.execIsad x0 x1 x2 x3 x4 x5 s
  | .idot4 x0 x1 x2 x3 x4 x5 x6 => Sys2Proof.Machine.execIdot4 x0 x1 x2 x3 x4 x5 x6 s
  | .idot8 x0 x1 x2 x3 x4 x5 x6 => Sys2Proof.Machine.execIdot8 x0 x1 x2 x3 x4 x5 x6 s
  | .lea x0 x1 x2 x3 => Sys2Proof.Machine.execLea x0 x1 x2 x3 s
  | .iclamp x0 x1 x2 x3 x4 x5 => Sys2Proof.Machine.execIclamp x0 x1 x2 x3 x4 x5 s
  | .and x0 x1 x2 x3 x4 => Sys2Proof.Machine.execAnd x0 x1 x2 x3 x4 s
  | .or x0 x1 x2 x3 x4 => Sys2Proof.Machine.execOr x0 x1 x2 x3 x4 s
  | .xor x0 x1 x2 x3 x4 => Sys2Proof.Machine.execXor x0 x1 x2 x3 x4 s
  | .lop3 x0 x1 x2 x3 x4 x5 x6 => Sys2Proof.Machine.execLop3 x0 x1 x2 x3 x4 x5 x6 s
  | .shl x0 x1 x2 x3 x4 => Sys2Proof.Machine.execShl x0 x1 x2 x3 x4 s
  | .shr x0 x1 x2 x3 x4 => Sys2Proof.Machine.execShr x0 x1 x2 x3 x4 s
  | .sar x0 x1 x2 x3 x4 => Sys2Proof.Machine.execSar x0 x1 x2 x3 x4 s
  | .rotl x0 x1 x2 x3 x4 => Sys2Proof.Machine.execRotl x0 x1 x2 x3 x4 s
  | .fshf x0 x1 x2 x3 x4 x5 x6 x7 => Sys2Proof.Machine.execFshf x0 x1 x2 x3 x4 x5 x6 x7 s
  | .popc x0 x1 x2 x3 => Sys2Proof.Machine.execPopc x0 x1 x2 x3 s
  | .clz x0 x1 x2 x3 => Sys2Proof.Machine.execClz x0 x1 x2 x3 s
  | .ctz x0 x1 x2 x3 => Sys2Proof.Machine.execCtz x0 x1 x2 x3 s
  | .brev x0 x1 x2 x3 => Sys2Proof.Machine.execBrev x0 x1 x2 x3 s
  | .bfx x0 x1 x2 x3 x4 => Sys2Proof.Machine.execBfx x0 x1 x2 x3 x4 s
  | .bfi x0 x1 x2 x3 x4 x5 => Sys2Proof.Machine.execBfi x0 x1 x2 x3 x4 x5 s
  | .perm x0 x1 x2 x3 x4 => Sys2Proof.Machine.execPerm x0 x1 x2 x3 x4 s
  | .isetp x0 x1 x2 x3 x4 => Sys2Proof.Machine.execIsetp x0 x1 x2 x3 x4 s
  | .fsetp x0 x1 x2 x3 x4 x5 x6 => Sys2Proof.Machine.execFsetp x0 x1 x2 x3 x4 x5 x6 s
  | .plop x0 x1 x2 x3 x4 x5 => Sys2Proof.Machine.execPlop x0 x1 x2 x3 x4 x5 s
  | .sel x0 x1 x2 x3 x4 x5 => Sys2Proof.Machine.execSel x0 x1 x2 x3 x4 x5 s
  | .p2v x0 x1 => Sys2Proof.Machine.execP2v x0 x1 s
  | .v2p x0 x1 x2 => Sys2Proof.Machine.execV2p x0 x1 x2 s
  | .fadd x0 x1 x2 x3 x4 x5 => Sys2Proof.Machine.execFadd x0 x1 x2 x3 x4 x5 s
  | .fsub x0 x1 x2 x3 x4 x5 => Sys2Proof.Machine.execFsub x0 x1 x2 x3 x4 x5 s
  | .fmul x0 x1 x2 x3 x4 x5 => Sys2Proof.Machine.execFmul x0 x1 x2 x3 x4 x5 s
  | .ffma x0 x1 x2 x3 x4 x5 x6 => Sys2Proof.Machine.execFfma x0 x1 x2 x3 x4 x5 x6 s
  | .fmin x0 x1 x2 x3 x4 x5 => Sys2Proof.Machine.execFmin x0 x1 x2 x3 x4 x5 s
  | .fmax x0 x1 x2 x3 x4 x5 => Sys2Proof.Machine.execFmax x0 x1 x2 x3 x4 x5 s
  | .frnd x0 x1 x2 x3 x4 => Sys2Proof.Machine.execFrnd x0 x1 x2 x3 x4 s
  | .fscale x0 x1 x2 x3 x4 x5 => Sys2Proof.Machine.execFscale x0 x1 x2 x3 x4 x5 s
  | .fclass x0 x1 x2 x3 => Sys2Proof.Machine.execFclass x0 x1 x2 x3 s
  | .fdot2 x0 x1 x2 x3 x4 x5 x6 => Sys2Proof.Machine.execFdot2 x0 x1 x2 x3 x4 x5 x6 s
  | .cvt x0 x1 x2 x3 x4 x5 => Sys2Proof.Machine.execCvt x0 x1 x2 x3 x4 x5 s
  | .cvtpk x0 x1 x2 x3 x4 x5 x6 => Sys2Proof.Machine.execCvtpk x0 x1 x2 x3 x4 x5 x6 s
  | .cvt8pk x0 x1 x2 x3 x4 x5 x6 x7 => Sys2Proof.Machine.execCvt8pk x0 x1 x2 x3 x4 x5 x6 x7 s
  | .cvtupk x0 x1 x2 x3 x4 x5 => Sys2Proof.Machine.execCvtupk x0 x1 x2 x3 x4 x5 s
  | .qblk x0 x1 x2 x3 x4 x5 x6 x7 => Sys2Proof.Machine.execQblk x0 x1 x2 x3 x4 x5 x6 x7 s
  | .dqblk x0 x1 x2 x3 x4 x5 x6 => Sys2Proof.Machine.execDqblk x0 x1 x2 x3 x4 x5 x6 s
  | .rcp x0 x1 x2 => Sys2Proof.Machine.execRcp x0 x1 x2 s
  | .rsq x0 x1 x2 => Sys2Proof.Machine.execRsq x0 x1 x2 s
  | .sqrt x0 x1 x2 => Sys2Proof.Machine.execSqrt x0 x1 x2 s
  | .exp2 x0 x1 x2 => Sys2Proof.Machine.execExp2 x0 x1 x2 s
  | .log2 x0 x1 x2 => Sys2Proof.Machine.execLog2 x0 x1 x2 s
  | .sinpi x0 x1 x2 => Sys2Proof.Machine.execSinpi x0 x1 x2 s
  | .cospi x0 x1 x2 => Sys2Proof.Machine.execCospi x0 x1 x2 s
  | .tanh x0 x1 x2 => Sys2Proof.Machine.execTanh x0 x1 x2 s
  | .rnd x0 x1 => Sys2Proof.Machine.execRnd x0 x1 s
  | .rndf x0 x1 => Sys2Proof.Machine.execRndf x0 x1 s
  | .xshf x0 x1 x2 x3 x4 x5 => Sys2Proof.Machine.execXshf x0 x1 x2 x3 x4 x5 s
  | .xbfly x0 x1 x2 x3 x4 => Sys2Proof.Machine.execXbfly x0 x1 x2 x3 x4 s
  | .xbcast x0 x1 x2 x3 x4 => Sys2Proof.Machine.execXbcast x0 x1 x2 x3 x4 s
  | .redx x0 x1 x2 x3 x4 => Sys2Proof.Machine.execRedx x0 x1 x2 x3 x4 s
  | .scanx x0 x1 x2 x3 x4 x5 => Sys2Proof.Machine.execScanx x0 x1 x2 x3 x4 x5 s
  | .vote x0 x1 x2 => Sys2Proof.Machine.execVote x0 x1 x2 s
  | .xmatch x0 x1 x2 x3 x4 => Sys2Proof.Machine.execXmatch x0 x1 x2 x3 x4 s
  | .elect x0 x1 => Sys2Proof.Machine.execElect x0 x1 s
  | .xcount x0 x1 x2 => Sys2Proof.Machine.execXcount x0 x1 x2 s
  | .mov x0 x1 x2 x3 => Sys2Proof.Machine.execMov x0 x1 x2 x3 s
  | .drop x0 x1 x2 => Sys2Proof.Machine.execDrop x0 x1 x2 s
  | .keep x0 x1 x2 => Sys2Proof.Machine.execKeep x0 x1 x2 s
  | .free x0 x1 => Sys2Proof.Machine.execFree x0 x1 s
  | .pair x0 x1 x2 x3 x4 => Sys2Proof.Machine.execPair x0 x1 x2 x3 x4 s
  | .split x0 x1 x2 x3 x4 => Sys2Proof.Machine.execSplit x0 x1 x2 x3 x4 s
  | .cellq x0 x1 x2 => Sys2Proof.Machine.execCellq x0 x1 x2 s
  | .ld x0 x1 x2 x3 x4 x5 => Sys2Proof.Machine.execLd x0 x1 x2 x3 x4 x5 s
  | .st x0 x1 x2 x3 x4 x5 x6 => Sys2Proof.Machine.execSt x0 x1 x2 x3 x4 x5 x6 s
  | .lds x0 x1 x2 x3 x4 => Sys2Proof.Machine.execLds x0 x1 x2 x3 x4 s
  | .sts x0 x1 x2 x3 x4 x5 => Sys2Proof.Machine.execSts x0 x1 x2 x3 x4 x5 s
  | .ldp x0 x1 x2 x3 => Sys2Proof.Machine.execLdp x0 x1 x2 x3 s
  | .ldv x0 x1 x2 x3 x4 x5 => Sys2Proof.Machine.execLdv x0 x1 x2 x3 x4 x5 s
  | .stv x0 x1 x2 x3 x4 x5 => Sys2Proof.Machine.execStv x0 x1 x2 x3 x4 x5 s
  | .pfl x0 x1 x2 x3 => Sys2Proof.Machine.execPfl x0 x1 x2 x3 s
  | .atom x0 x1 x2 x3 x4 x5 x6 => Sys2Proof.Machine.execAtom x0 x1 x2 x3 x4 x5 x6 s
  | .ared x0 x1 x2 x3 x4 x5 => Sys2Proof.Machine.execAred x0 x1 x2 x3 x4 x5 s
  | .acas x0 x1 x2 x3 x4 x5 x6 => Sys2Proof.Machine.execAcas x0 x1 x2 x3 x4 x5 x6 s
  | .await x0 x1 x2 x3 x4 x5 x6 x7 => Sys2Proof.Machine.execAwait x0 x1 x2 x3 x4 x5 x6 x7 s
  | .fence x0 x1 x2 => Sys2Proof.Machine.execFence x0 x1 x2 s
  | .cntdec x0 x1 x2 x3 => Sys2Proof.Machine.execCntdec x0 x1 x2 x3 s
  | .bararv x0 x1 x2 x3 x4 => Sys2Proof.Machine.execBararv x0 x1 x2 x3 x4 s
  | .barwt x0 x1 x2 x3 x4 x5 => Sys2Proof.Machine.execBarwt x0 x1 x2 x3 x4 x5 s
  | .cpy x0 x1 x2 x3 x4 x5 x6 => Sys2Proof.Machine.execCpy x0 x1 x2 x3 x4 x5 x6 s
  | .cpyb x0 x1 x2 x3 x4 => Sys2Proof.Machine.execCpyb x0 x1 x2 x3 x4 s
  | .cploop x0 x1 x2 x3 x4 => Sys2Proof.Machine.execCploop x0 x1 x2 x3 x4 s
  | .cpstat x0 x1 x2 x3 => Sys2Proof.Machine.execCpstat x0 x1 x2 x3 s
  | .gmap x0 x1 x2 x3 => Sys2Proof.Machine.execGmap x0 x1 x2 x3 s
  | .gunmap x0 x1 => Sys2Proof.Machine.execGunmap x0 x1 s
  | .gflush x0 x1 => Sys2Proof.Machine.execGflush x0 x1 s
  | .ginv x0 x1 => Sys2Proof.Machine.execGinv x0 x1 s
  | .ringcfg x0 x1 => Sys2Proof.Machine.execRingcfg x0 x1 s
  | .ringcfgOff x0 x1 => Sys2Proof.Machine.execRingcfgOff x0 x1 s
  | .rrel x0 x1 => Sys2Proof.Machine.execRrel x0 x1 s
  | .stbind x0 x1 => Sys2Proof.Machine.execStbind x0 x1 s
  | .mwld x0 x1 x2 x3 x4 => Sys2Proof.Machine.execMwld x0 x1 x2 x3 x4 s
  | .mwswap x0 => Sys2Proof.Machine.execMwswap x0 s
  | .mloop x0 x1 x2 x3 x4 x5 => Sys2Proof.Machine.execMloop x0 x1 x2 x3 x4 x5 s
  | .mloopResume x0 => Sys2Proof.Machine.execMloopResume x0 s
  | .mloopAbort x0 => Sys2Proof.Machine.execMloopAbort x0 s
  | .maccld x0 x1 x2 => Sys2Proof.Machine.execMaccld x0 x1 x2 s
  | .maccst x0 x1 x2 => Sys2Proof.Machine.execMaccst x0 x1 x2 s
  | .mdrain x0 x1 x2 x3 => Sys2Proof.Machine.execMdrain x0 x1 x2 x3 s
  | .mepi x0 x1 x2 x3 => Sys2Proof.Machine.execMepi x0 x1 x2 x3 s
  | .mwait x0 => Sys2Proof.Machine.execMwait x0 s
  | .mzero x0 => Sys2Proof.Machine.execMzero x0 s
  | .mstat x0 x1 x2 => Sys2Proof.Machine.execMstat x0 x1 x2 s
  | .tjoin x0 x1 => Sys2Proof.Machine.execTjoin x0 x1 s
  | .tleave x0 x1 => Sys2Proof.Machine.execTleave x0 x1 s
  | .tbar x0 x1 => Sys2Proof.Machine.execTbar x0 x1 s
  | .gbar x0 => Sys2Proof.Machine.execGbar x0 s
  | .tsubmit x0 x1 => Sys2Proof.Machine.execTsubmit x0 x1 s
  | .tdepadd x0 x1 x2 x3 => Sys2Proof.Machine.execTdepadd x0 x1 x2 x3 s
  | .tsignal x0 x1 x2 x3 => Sys2Proof.Machine.execTsignal x0 x1 x2 x3 s
  | .tself x0 x1 x2 => Sys2Proof.Machine.execTself x0 x1 x2 s
  | .cvswap x0 x1 x2 x3 => Sys2Proof.Machine.execCvswap x0 x1 x2 x3 s
  | .lstart x0 x1 x2 => Sys2Proof.Machine.execLstart x0 x1 x2 s
  | .lesc x0 x1 x2 => Sys2Proof.Machine.execLesc x0 x1 x2 s
  | .lres x0 x1 => Sys2Proof.Machine.execLres x0 x1 s
  | .lframe x0 x1 x2 => Sys2Proof.Machine.execLframe x0 x1 x2 s
  | .lstat x0 x1 x2 => Sys2Proof.Machine.execLstat x0 x1 x2 s
  | .trap x0 x1 => Sys2Proof.Machine.execTrap x0 x1 s
  | .eret x0 => Sys2Proof.Machine.execEret x0 s
  | .sysrd x0 x1 x2 x3 => Sys2Proof.Machine.execSysrd x0 x1 x2 x3 s
  | .syswr x0 x1 x2 x3 => Sys2Proof.Machine.execSyswr x0 x1 x2 x3 s
  | .icinv x0 x1 => Sys2Proof.Machine.execIcinv x0 x1 s
  | .ppoll x0 x1 => Sys2Proof.Machine.execPpoll x0 x1 s
  | .bkpt x0 x1 => Sys2Proof.Machine.execBkpt x0 x1 s
  | .clauseStart x0 x1 x2 => Sys2Proof.Machine.execClauseStart x0 x1 x2 s
  | .rowRendezvous x0 x1 => Sys2Proof.Machine.execRowRendezvous x0 x1 s
  | .groupOverdue x0 x1 => Sys2Proof.Machine.execGroupOverdue x0 x1 s
  | .yieldSpanEnd x0 x1 => Sys2Proof.Machine.execYieldSpanEnd x0 x1 s
  | .fixedLatencyBind x0 x1 => Sys2Proof.Machine.execFixedLatencyBind x0 x1 s
  | .valueArrival x0 => Sys2Proof.Machine.execValueArrival x0 s
  | .allocationArbiter x0 x1 => Sys2Proof.Machine.execAllocationArbiter x0 x1 s
  | .threadEviction x0 => Sys2Proof.Machine.execThreadEviction x0 s
  | .threadReload x0 => Sys2Proof.Machine.execThreadReload x0 s
  | .storePerformed x0 => Sys2Proof.Machine.execStorePerformed x0 s
  | .l1LineWriteBack x0 x1 => Sys2Proof.Machine.execL1LineWriteBack x0 x1 s
  | .tlbMissWalk x0 x1 x2 => Sys2Proof.Machine.execTlbMissWalk x0 x1 x2 s
  | .homeWordOperation x0 => Sys2Proof.Machine.execHomeWordOperation x0 s
  | .awaitLimitExpiry x0 => Sys2Proof.Machine.execAwaitLimitExpiry x0 s
  | .valeFill x0 x1 => Sys2Proof.Machine.execValeFill x0 x1 s
  | .colViewFill x0 x1 => Sys2Proof.Machine.execColViewFill x0 x1 s
  | .colWriteBackSplit x0 => Sys2Proof.Machine.execColWriteBackSplit x0 s
  | .valeCorrectableError x0 => Sys2Proof.Machine.execValeCorrectableError x0 s
  | .valeCleanUncorrectable x0 => Sys2Proof.Machine.execValeCleanUncorrectable x0 s
  | .valeDirtyUncorrectable x0 x1 => Sys2Proof.Machine.execValeDirtyUncorrectable x0 x1 s
  | .stackReadUncorrectable x0 x1 => Sys2Proof.Machine.execStackReadUncorrectable x0 x1 s
  | .coreSoftError x0 x1 x2 x3 => Sys2Proof.Machine.execCoreSoftError x0 x1 x2 x3 s
  | .arrayParityError x0 => Sys2Proof.Machine.execArrayParityError x0 s
  | .pageVerify x0 x1 => Sys2Proof.Machine.execPageVerify x0 x1 s
  | .copyCommandStart x0 => Sys2Proof.Machine.execCopyCommandStart x0 s
  | .copyLineOp x0 x1 => Sys2Proof.Machine.execCopyLineOp x0 x1 s
  | .ringFillStart x0 x1 => Sys2Proof.Machine.execRingFillStart x0 x1 s
  | .copyPerformed x0 => Sys2Proof.Machine.execCopyPerformed x0 s
  | .counterDecrementSend x0 x1 => Sys2Proof.Machine.execCounterDecrementSend x0 x1 s
  | .gmapCompletion x0 x1 => Sys2Proof.Machine.execGmapCompletion x0 x1 s
  | .windowFill x0 x1 x2 => Sys2Proof.Machine.execWindowFill x0 x1 x2 s
  | .windowWriteBackDone x0 x1 => Sys2Proof.Machine.execWindowWriteBackDone x0 x1 s
  | .mtxCommandBegin x0 => Sys2Proof.Machine.execMtxCommandBegin x0 s
  | .mtxCommandComplete x0 => Sys2Proof.Machine.execMtxCommandComplete x0 s
  | .tileFetchComplete x0 => Sys2Proof.Machine.execTileFetchComplete x0 s
  | .loopStep x0 => Sys2Proof.Machine.execLoopStep x0 s
  | .drainDelivery x0 => Sys2Proof.Machine.execDrainDelivery x0 s
  | .engineFailure x0 => Sys2Proof.Machine.execEngineFailure x0 s
  | .taskDispatch x0 => Sys2Proof.Machine.execTaskDispatch x0 s
  | .gangPlacement x0 x1 => Sys2Proof.Machine.execGangPlacement x0 x1 s
  | .gangRetirement x0 => Sys2Proof.Machine.execGangRetirement x0 s
  | .edgeWriteBackLine x0 => Sys2Proof.Machine.execEdgeWriteBackLine x0 s
  | .successorDecrement x0 => Sys2Proof.Machine.execSuccessorDecrement x0 s
  | .signalWrite x0 => Sys2Proof.Machine.execSignalWrite x0 s
  | .ladderDispatch x0 => Sys2Proof.Machine.execLadderDispatch x0 s
  | .ladderArrival x0 x1 => Sys2Proof.Machine.execLadderArrival x0 x1 s
  | .starvationLimitExpiry x0 x1 => Sys2Proof.Machine.execStarvationLimitExpiry x0 x1 s
  | .rungLaunchPlacement x0 x1 => Sys2Proof.Machine.execRungLaunchPlacement x0 x1 s
  | .resultEntryWrite x0 x1 => Sys2Proof.Machine.execResultEntryWrite x0 x1 s
  | .watermarkWrite x0 => Sys2Proof.Machine.execWatermarkWrite x0 s
  | .ladderWriteFailure x0 x1 => Sys2Proof.Machine.execLadderWriteFailure x0 x1 s
  | .notchStop x0 => Sys2Proof.Machine.execNotchStop x0 s
  | .contextSave x0 => Sys2Proof.Machine.execContextSave x0 s
  | .notchlimExpiry x0 => Sys2Proof.Machine.execNotchlimExpiry x0 s
  | .sliceExpiry x0 => Sys2Proof.Machine.execSliceExpiry x0 s
  | .napExpiry x0 => Sys2Proof.Machine.execNapExpiry x0 s
  | .stallSample x0 x1 => Sys2Proof.Machine.execStallSample x0 x1 s
  | .ctxCreate x0 => Sys2Proof.Machine.execCtxCreate x0 s
  | .ctxPreempt x0 => Sys2Proof.Machine.execCtxPreempt x0 s
  | .ctxRestore x0 => Sys2Proof.Machine.execCtxRestore x0 s
  | .ctxTerminate x0 => Sys2Proof.Machine.execCtxTerminate x0 s
  | .ctxTlbinv x0 => Sys2Proof.Machine.execCtxTlbinv x0 s
  | .ctxDestroy x0 => Sys2Proof.Machine.execCtxDestroy x0 s
  | .ctxCmdLostClear x0 => Sys2Proof.Machine.execCtxCmdLostClear x0 s
  | .queueSubmissionWrite x0 x1 x2 => Sys2Proof.Machine.execQueueSubmissionWrite x0 x1 x2 s
  | .hostMemoryAccess x0 x1 x2 x3 => Sys2Proof.Machine.execHostMemoryAccess x0 x1 x2 x3 s
  | .peerAccess x0 x1 x2 x3 => Sys2Proof.Machine.execPeerAccess x0 x1 x2 x3 s
  | .linkChange x0 => Sys2Proof.Machine.execLinkChange x0 s
  | .frwEnable x0 x1 => Sys2Proof.Machine.execFrwEnable x0 x1 s
  | .frwDisable x0 x1 => Sys2Proof.Machine.execFrwDisable x0 x1 s
  | .frwFlush x0 x1 => Sys2Proof.Machine.execFrwFlush x0 x1 s
  | .frwFlushComplete x0 => Sys2Proof.Machine.execFrwFlushComplete x0 s
  | .frwRsvClear x0 x1 => Sys2Proof.Machine.execFrwRsvClear x0 x1 s
  | .registerWrite x0 x1 => Sys2Proof.Machine.execRegisterWrite x0 x1 s
  | .kmapWrite x0 x1 => Sys2Proof.Machine.execKmapWrite x0 x1 s
  | .lcOpen => Sys2Proof.Machine.execLcOpen s
  | .lcRetire => Sys2Proof.Machine.execLcRetire s
  | .attcmdSign => Sys2Proof.Machine.execAttcmdSign s
  | .bootcmdGo => Sys2Proof.Machine.execBootcmdGo s
  | .perstDeassert => Sys2Proof.Machine.execPerstDeassert s
  | .powerReqRun x0 => Sys2Proof.Machine.execPowerReqRun x0 s
  | .powerReqIdle x0 => Sys2Proof.Machine.execPowerReqIdle x0 s
  | .powerReqRetain x0 => Sys2Proof.Machine.execPowerReqRetain x0 s
  | .powerReqOff x0 => Sys2Proof.Machine.execPowerReqOff x0 s
  | .powerStateReached x0 => Sys2Proof.Machine.execPowerStateReached x0 s
  | .debugHaltall x0 x1 => Sys2Proof.Machine.execDebugHaltall x0 x1 s
  | .debugRun x0 x1 x2 x3 => Sys2Proof.Machine.execDebugRun x0 x1 x2 x3 s
  | .debugStep x0 x1 x2 x3 => Sys2Proof.Machine.execDebugStep x0 x1 x2 x3 s
  | .debugWindowAccess x0 x1 x2 x3 x4 => Sys2Proof.Machine.execDebugWindowAccess x0 x1 x2 x3 x4 s
  | .attestationSignatureDone => Sys2Proof.Machine.execAttestationSignatureDone s

end Sys2Proof.Machine
end

