-- ==== Sys2Proof/Machine/Schedule.lean ====
section
/-! DEFINITION. What one move of the device does, the passing of a clk (R298, R358), the timer of the allocation arbiter (R181), and the move that the device
makes when none is listed (log entry 1). -/

namespace Sys2Proof.Machine

/-! ## Moves -/

/-- A group that was left waiting at its word by an attempt has issued nothing in this clk, unless the word issued by this attempt (R298). -/
def stillWaits (s s' : State) (core uid : Nat) : Bool :=
  match (s.entry core uid).bind Entry.run, (s'.entry core uid).bind Entry.run with
  | some r, some q => q.stall.isSome && q.clause.addr == r.clause.addr && q.clause.idx == r.clause.idx && (r.issued || !q.issued)
  | _, _ => false

/-- The issue slots of the clk after an attempt at a word. -/
def settleIssue (s : State) (core uid : Nat) (o : Out) : Out :=
  match o with
  | .next s' =>
    if stillWaits s s' core uid then
      .next { s'.updCore core (fun k => { k with issuedA := (s.core core).issuedA, issuedB := (s.core core).issuedB }) with focus := s.focus }
    else .next s'
  | x => x

/-- A group issues its next word, when it can (R21, R63, R67). -/
def issueMove (core uid : Nat) (s : State) : Out :=
  match issueWord s core uid with
  | .no => .next s
  | .stop s => .next s
  | .run i s' => settleIssue s core uid (exec i s')

/-! ## Selection (R21, R298 to R303, R432) -/

/-- What a group would do now if its pipe were free. -/
inductive Trial where
  /-- nothing -/
  | idle
  /-- something that issues no word: a walk, a fault at its header, a halt -/
  | acts
  /-- it is split by row, its clause being selected on the pipe named (R296) -/
  | splits (a : Bool)
  /-- its next word issues, on the pipe named (true is A) -/
  | goes (a : Bool)
  /-- its next word stalls: the pipe, and the class and blamed PC of R407 -/
  | waits (a : Bool) (cls : Nat) (blame : W64)
deriving DecidableEq, Repr

/-- A core with both pipes open. -/
def State.openPipes (s : State) (core : Nat) : State :=
  s.updCore core (fun k => { k with pipeA := none, pipeB := none, issuedA := none, issuedB := none })

/-- The state after a group's attempt at its word, were its pipe free. -/
def wordAfter (s : State) (core : Nat) (e : Entry) : Option State :=
  match issueWord (s.openPipes core) core e.uid with
  | .run i s => (match exec i s with
    | .next s' => some s'
    | _ => none)
  | _ => none

/-- What a group in the middle of its clause would do. -/
def tryWord (s : State) (core : Nat) (e : Entry) : Trial :=
  match e.run with
  | none => .idle
  | some r =>
    let a := onA r.clause.hdr.eng
    match issueWord (s.openPipes core) core e.uid with
    | .no => .idle
    | .stop _ => .goes a
    | .run i s => match exec i s with
      | .next s' => (match (s'.entry core e.uid).bind Entry.run with
        | some q => if q.clause.addr == r.clause.addr && q.clause.idx == r.clause.idx && (r.issued || !q.issued) then (match q.stall with
            | some (c, p) => .waits a c p
            | none => .goes a) else .goes a
        | none => .goes a)
      | _ => .idle

/-- The entry that holds an entry's threads after its clause has started: another than its own where a merge found a lower index (R293). -/
def leader (s : State) (core : Nat) (e : Entry) : Option Entry := (s.core core).entries.find? (fun x => x.members.any (fun m => e.members.contains m))

/-- What a group would do; with `merge`, one that starts its clause does so with the entries that it absorbs. -/
def tryEntry (s : State) (core : Nat) (e : Entry) (merge : Bool := false) : Trial :=
  match e.run with
  | some _ => tryWord s core e
  | none =>
    if e.rdv then .idle
    else match startEntry (s.openPipes core) core e.uid merge with
      | none => .idle
      | some s' => match leader s' core e with
        | some x => if x.run.isSome then tryWord s' core x else if x.rdv then .splits ((nextPipe s core e).getD true) else .acts
        | none => .acts

/-- The pipe on which the group is ready (R298): its next word could issue there now, or its clause could be selected for a split by row. -/
def readyOn (s : State) (core : Nat) (e : Entry) : Option Bool :=
  match tryEntry s core e with
  | .goes a | .splits a => some a
  | _ => none

/-- A group of a strict context is eligible (R302): it waits now on no allocation, queue, rendezvous, NAP or barrier. -/
def strictEligible (s : State) (core : Nat) (e : Entry) : Bool :=
  !e.rdv && (match tryEntry s core e with
    | .waits _ 5 _ | .waits _ 6 _ | .waits _ 7 _ => false
    | .waits _ 3 _ => !(e.run.any Run.issued)
    | _ => true)

/-- Of a strict context only the eligible group that ranks highest may issue (R302). A group in the middle of its clause finishes it where a higher one waits for the
very pipe that the clause holds, since that pipe issues no other group's word before (R21; log entry 59). -/
def strictTop (s : State) (core : Nat) (e : Entry) : Bool :=
  fair s e.ctx || !((s.core core).entries.any (fun x => x.uid != e.uid && x.ctx == e.ctx && strictBefore s x e
    && !((heldPipe s core e).isSome && nextPipe s core x == heldPipe s core e) && strictEligible s core x))

/-- No ready group that the pipe chooses before this one competes for it (R299, R302). -/
def uncontested (s : State) (core : Nat) (e : Entry) (a : Bool) : Bool :=
  !((s.core core).entries.any (fun x => x.uid != e.uid && chosenBefore s x e && strictTop s core x && readyOn s core x == some a))

/-- A group may act now. A clause in progress on its pipe is left only to the strict order (R21, R302). Any other group needs its word to be ready and to be the one that
the pipe chooses; one whose word would wait with the pipe released needs no choice, since it takes no pipe from a ready group (`leavePipe`), and one whose word would
hold the pipe on a cell or a flag is not ready. A word that waits for its own checks (class 9) is not ready either: at a header it takes no pipe and only asks for its
walks; one that waited before with the pipe released continues its clause where no ready group competes. -/
def maySelect (s : State) (core uid : Nat) (merge : Bool := false) : Bool :=
  match s.entry core uid with
  | none => true
  | some e =>
    if (heldPipe s core e).isSome then strictTop s core e
    else match tryEntry s core e merge with
      | .idle => false
      | .acts => true
      | .goes a | .splits a => strictTop s core e && uncontested s core e a
      | .waits a 9 _ => strictTop s core e && (e.run.isNone || uncontested s core e a)
      | .waits _ c _ => c != 1 && c != 2 && strictTop s core e

/-- A group at a header whose first word would wait with the pipe released begins its clause so: it waits at that word, and the pipe stays open to the groups that are
ready there, one whose own wait has ended among them (R21). One whose first word waits for its own checks stays at the header and asks for its walks (R104). -/
def leavePipe (s : State) (core uid : Nat) (o : Out) : Out :=
  match o, s.entry core uid with
  | .next s', some e =>
    (match e.run, leader s' core e with
    | none, some x =>
      (match tryWord s' core x with
      | .waits a c p =>
        if c = 9 then .next (match wordAfter s' core x with
          | some s'' => { s with walks := s''.walks }
          | none => s)
        else if c = 1 || c = 2 then o
        else
          let s' := s'.updEntry core x.uid (fun e => { e with run := e.run.map (fun r => { r with released := true, stall := some (c, p) }) })
          .next (s'.updCore core (fun k => if k.pipe a = some x.uid then k.setPipe a none else k))
      | _ => o)
    | _, _ => o)
  | _, _ => o

/-- A group acts where it may; a die in IDLE wakes first (R432). -/
def select (core uid : Nat) (s : State) (act : State → Out) (merge : Bool := false) : Out :=
  if !maySelect s core uid merge then .next s
  else match s.power[dieOf core]? with
    | none => act s
    | some p =>
      if p.st = 0 then act s
      else if p.st = 1 && p.goal.isNone then
        .next { s with power := s.power.set (dieOf core) { p with goal := some (0, s.clk + Config.idleToRun) } }
      else .next s

/-- The group has issued in this clk (R407). -/
def issuedNow (s : State) (e : Entry) : Bool := e.lastIssue == some s.clk

/-- Why the first word of a group at a header cannot issue (R407). -/
def firstWait (e : Entry) (x : Trial) : Option (Nat × W64) :=
  match x with
  | .waits _ c p => if e.run.isSome then none else some (c, p)
  | _ => none

/-- A group as the stall sampler finds it: why its word cannot issue now (R407). -/
def classedEntry (s : State) (core : Nat) (e : Entry) : Entry :=
  if issuedNow s e || (heldPipe s core e).isSome then e
  else
    let x := tryEntry s core e
    { e with
      first := firstWait e x
      run := e.run.map (fun r => match x with
        | .goes _ => { r with stall := none }
        | .waits _ c p => { r with stall := some (c, p) }
        | _ => r) }

def classed (s : State) (core : Nat) : State := s.updCore core (fun k => { k with entries := k.entries.map (classedEntry s core) })

/-- The count of ready cycles of one group as a clk passes, and why the first word of one at a header cannot issue (R298, R407). -/
def countEntry (s : State) (core : Nat) (e : Entry) : Entry :=
  if issuedNow s e then e
  else
    let x := tryEntry s core e
    let e := { e with first := firstWait e x }
    match x with
    | .goes _ | .splits _ => { e with ready := e.ready + 1 }
    | _ => e

def countReady (s : State) (k : Core) (core : Nat) : Core := { k with entries := k.entries.map (countEntry s core) }


/-- The ages of pending arrivals of a resident context's ladder (R358). -/
def ageLadder (s : State) (k : Task) : Task :=
  if (s.ctx k.ctx).st != 1 then k
  else { k with ladder := k.ladder.map (fun l => { l with rungs := l.rungs.map (fun r =>
    { r with pending := r.pending.map (fun p => (p.1, p.2.1, p.2.2 + 1)) }) }) }

/-- The events whose time has come. Two fixed-latency results of one thread for one name or predicate that fall due at one clk stand in the order of their words' issue, so
that the later word's result stays: R72 does not say which does (DESIGN CHOICE, log entry 71). -/
def dueEvents (s : State) : List Move :=
  (s.threads.flatMap (fun t =>
    (t.flight.filter (fun f => decide (f.due ≤ s.clk))).map (fun f => Move.event (.fixedLatencyBind t.id f.tok))
    ++ (match t.nap with
        | some k => if k ≤ s.clk then [Move.event (.napExpiry t.id)] else []
        | none => [])))
  ++ s.ops.flatMap (fun o => match o.kind with
      | .word w => if w.here && o.result.isNone && (w.limit.any (fun k => decide (k ≤ s.clk))) then [Move.event (.awaitLimitExpiry o.id)] else []
      | _ => [])
  ++ (s.peerWaits.filter (fun w => w.limit.any (fun k => decide (k ≤ s.clk)))).map (fun w => Move.event (.awaitLimitExpiry w.id))
  ++ (s.cores.zipIdx).flatMap (fun p => p.1.entries.flatMap (fun e =>
      (if e.yieldEnd != 0 && decide (e.yieldEnd ≤ s.clk) then [Move.event (.yieldSpanEnd p.2 e.uid)] else [])
      ++ (if (overdue s p.2 e.uid).isSome then [Move.event (.groupOverdue p.2 e.uid)] else [])))
  ++ s.tasks.flatMap (fun k => match k.ladder with
      | some l => (List.range l.rungs.length).flatMap (fun r => if (starves s k.id r).isSome then [Move.event (.starvationLimitExpiry k.id r)] else [])
      | none => [])
  ++ (s.contexts.zipIdx).flatMap (fun p => if p.1.preempt.isSome && (notchlimExpires s p.2).isSome then [Move.event (.notchlimExpiry p.2)] else [])

/-- A group's word could issue on the pipe in this clk, and the pipe chooses it. -/
def couldIssue (s : State) (core : Nat) (a : Bool) (e : Entry) : Bool :=
  readyOn s core e == some a && maySelect s core e.uid && pipeOpen s core e.uid a && (s.power[dieOf core]?).all (fun p => p.st == 0)

/-- A pipe for which an overdue group is ready could issue a word in this clk: no clk passes before it has (R303). -/
def pressed (s : State) : Bool :=
  (s.cores.zipIdx).any (fun p => p.1.entries.any (fun e => fair s e.ctx && e.overdueAt.isSome && (match readyOn s p.2 e with
    | some a => p.1.entries.any (couldIssue s p.2 a)
    | none => false)))

/-- One clk passes: ready cycles and ages are counted, and the events that are due come next. -/
def tick (s : State) : State :=
  let cores := (s.cores.zipIdx).map (fun p => countReady s p.1 p.2)
  let s := { s with clk := s.clk + 1, cores := cores, tasks := s.tasks.map (ageLadder s) }
  { s with agenda := dueEvents s ++ s.agenda }

/-- The loader writes NOTCHLIM as it loads an object into a context, and as it undoes a load that fails (R412, R417). -/
def loadLimit (s : State) (c : Nat) (v : W32) : State :=
  if (s.ctx c).st == 1 || (s.ctx c).st == 3 then s.updCtx c (fun x => { x with notchlim := v }) else s

/-- One move. A word issues only for a group (R293): one that stands in the agenda as if it were an event is passed over. -/
def runMove (m : Move) (s : State) : Out :=
  match m with
  | .event (.clauseStart core uid merge) => select core uid s (fun s => leavePipe s core uid (exec (.clauseStart core uid merge) s)) merge
  | .event (.stallSample c core) => exec (.stallSample c core) (if (takesSample s c core).isSome then classed s core else s)
  | .event e => if (encode e).isSome then .next s else exec e s
  | .issue core uid => select core uid s (issueMove core uid)
  | .seat c => .next ((seatMove s c).getD s)
  | .loadLimit c v => .next (loadLimit s c v)
  | .tick => .next (if pressed s then s else tick s)

/-! ## The arbiter's timer (R181) -/

/-- Cells of a thread that the limits count. -/
def countedCells (s : State) (t : Thread) : Nat := if s.holdsCells t then t.cells else 0

/-- From one state to the next, a cell was released that the limit which refuses a blocked thread counts: a thread holds fewer cells than before. A cell that a word's last
read frees and its own destination takes again is no release (DESIGN CHOICE, log entry 68). -/
def releasedFor (s s' : State) (b : Thread) (cap : Bool) : Bool :=
  s.threads.any (fun t => t.core == b.core && t.lane == b.lane && (!cap || t.ctx == b.ctx)
    && decide ((match s'.thread t.id with
        | some u => countedCells s' u
        | none => 0) < countedCells s t))

/-- The timer of a blocked thread starts again at a release, and as long as its reservation is not refused. An arbitration that has chosen a victim goes on, should the word
be refused again, until the released cells held for it cover its reservation (R181, R184). -/
def rearmed (s s' : State) (t : Thread) : Thread :=
  match t.blocked with
  | none => t
  | some b =>
    if (refusal s' t b.need).isNone then { t with blocked := some { b with since := s'.clk, arb := b.arb && decide (t.heldFor < b.need) } }
    else if !b.arb && releasedFor s s' t b.cap then { t with blocked := some { b with since := s'.clk } }
    else t

/-- The timers of the blocked threads after a move. -/
def rearm (s s' : State) : State :=
  if !(s'.threads.any (fun t => t.blocked.isSome)) then s' else { s' with threads := s'.threads.map (rearmed s s') }

/-! ## Capacities (R10, R93, R96, R99, R104; log entry 11) -/

/-- The ways of a set that lines may take: 32, less the quarantined ones and those that spill quotas lock, at most 16 (R96, R99). -/
def usableWays (s : State) (key : Nat) : Nat :=
  let locked := ((s.contexts.filter (fun x => x.st != 0)).map (fun x => Config.lockedWays x.quotaId key)).sum
  32 - (s.quarantined.filter (fun f => f.1 == key)).length - min 16 locked

/-- Lines of sets that hold too many lines leave the Vale, each chosen by a free value, until none does; `fuel` lines leave at most. -/
def trimVale (s : State) : Nat → State
  | 0 => s
  | fuel + 1 =>
    let lines (key : Nat) : List ValeLine := s.vale.filter (fun v => valeKey v.line == key)
    match s.vale.find? (fun v => decide (usableWays s (valeKey v.line) < (lines (valeKey v.line)).length)) with
    | none => s
    | some v =>
      let l := lines (valeKey v.line)
      let (q, s) := s.free
      let x := l.getD (q.toNat % l.length) v
      trimVale ((s.cleanLine x.line).dropVale x.line) fuel

/-- The same for the 12 ways and 1,024 sets of an L1. -/
def trimL1 (s : State) (core : Nat) : Nat → State
  | 0 => s
  | fuel + 1 =>
    let lines (v : L1Line) : List L1Line := (s.core core).l1.filter (fun x => Config.l1Set x.line % 1024 == Config.l1Set v.line % 1024)
    match (s.core core).l1.find? (fun v => decide (12 < (lines v).length)) with
    | none => s
    | some v =>
      let l := lines v
      let (q, s) := s.free
      trimL1 (l1Flush s core (l.getD (q.toNat % l.length) v).line) core fuel

/-- `n` members of a list leave it, each chosen by a free value. -/
def dropSome (s : State) {α : Type} (l : List α) : Nat → State × List α
  | 0 => (s, l)
  | n + 1 =>
    let (q, s) := s.free
    dropSome s (l.eraseIdx (q.toNat % l.length)) n

/-- A core whose caches cannot be too full. -/
def coreFits (k : Core) : Bool := decide (k.l1.length ≤ 12) && decide (k.icache.length ≤ 1024) && decide (k.tlb.length ≤ 2048)

def trimCore (s : State) (core : Nat) : State :=
  let s := trimL1 s core (s.core core).l1.length
  let (s, ic) := dropSome s (s.core core).icache ((s.core core).icache.length - 1024)
  let (s, tl) := dropSome s (s.core core).tlb ((s.core core).tlb.length - 2048)
  s.updCore core (fun k => { k with icache := ic, tlb := tl })

/-- What the capacities of the caches make leave them after a move. -/
def trim (s : State) : State :=
  let s := (s.cores.zipIdx).foldl (fun s p => if coreFits p.1 then s else trimCore s p.2) s
  if s.vale.length + s.quarantined.length ≤ 16 then s else trimVale s (8 * s.vale.length)

/-- A move with the arbiter's timers and the capacities of the caches. -/
def settleMove (s : State) (o : Out) : Out :=
  match o with
  | .next s' => .next (trim (rearm s s'))
  | x => x

/-! ## The moves that the device makes by itself -/

/-- Lanes of a core in which a thread is blocked. -/
def blockedLanes (s : State) : List (Nat × Nat) := (s.threads.filter (fun t => t.blocked.isSome)).map (fun t => (t.core, t.lane))

/-- Memory operations, walks and page checks. -/
def memoryMoves (s : State) : List Instr :=
  (s.ops.filter (fun o => decide (o.issuedAt + Config.scheduleDelay ≤ s.clk))).flatMap (fun o => match o.kind with
    | .value _ | .load .. | .dqblk .. | .cpwait => [.valueArrival o.id]
    | .store .. => [.storePerformed o.id]
    | .qblk .. => [.storePerformed o.id, .valueArrival o.id]
    | .word _ => [.homeWordOperation o.id, .awaitLimitExpiry o.id, .valueArrival o.id]
    | .copy .. => [.copyPerformed o.id]
    | .winWb core win _ _ => [.windowWriteBackDone core win])
  ++ s.peerWaits.map (fun w => .awaitLimitExpiry w.id)
  ++ s.walks.map (fun w => .tlbMissWalk w.die w.ctx w.page)
  ++ s.gangs.flatMap (fun g => g.gmaps.map (fun r => .gmapCompletion r.core r.win))
  ++ (s.contexts.zipIdx).flatMap (fun p => p.1.verifying.map (fun a => .pageVerify p.2 a))

/-- Threads: cells, naps, notches. -/
def threadMoves (s : State) : List Instr :=
  s.threads.flatMap (fun t =>
    (if t.victimOf.isSome then [.threadEviction t.id] else [])
    ++ (if t.parked then [.threadReload t.id] else [])
    ++ (if t.nap.isSome then [.napExpiry t.id] else [])
    ++ (if (s.ctx t.ctx).preempt.isSome then [.notchStop t.id] else [])
    ++ (match t.edit with
        | some e => if e.cmd = 1 then [.debugRun t.ctx t.core t.slot t.lane] else if e.cmd = 2 then [.debugStep t.ctx t.core t.slot t.lane] else []
        | none => []))
  ++ (blockedLanes s).map (fun p => .allocationArbiter p.1 p.2)

/-- A load of the core has had no time to be performed: the default schedule lets it go before the lines of the copy engine, but for one clk in 64. -/
def loadsFirst (s : State) (core : Nat) : Bool :=
  s.clk % 64 != 0 && s.ops.any (fun o => o.core == core && decide (s.clk < o.issuedAt + Config.scheduleDelay) && (match o.kind with
    | .load .. => true
    | _ => false))

/-- Engines and arrays. -/
def engineMoves (s : State) : List Instr :=
  (s.cores.zipIdx).flatMap (fun p =>
    (if p.1.cpq.isEmpty && p.1.cpback.isEmpty then [] else [.copyCommandStart p.2])
    ++ p.1.cprun.flatMap (fun r => if loadsFirst s p.2 then [] else [.ringFillStart p.2 r.cmd.id, .copyLineOp p.2 r.cmd.id, .counterDecrementSend p.2 r.cmd.id])
    ++ (if p.1.array.gang.isNone then []
        else [.drainDelivery p.2, .mtxCommandComplete p.2, .engineFailure p.2, .tileFetchComplete p.2, .loopStep p.2, .mtxCommandBegin p.2]))

/-- Task engines and ladder units. -/
def taskMoves (s : State) : List Instr :=
  s.gangs.map (fun g => .gangRetirement g.id)
  ++ s.tasks.flatMap (fun k =>
    (match k.ladder with
      | some l => l.writes.flatMap (fun w => [.ladderArrival k.id w.number, .resultEntryWrite k.id w.number, .ladderWriteFailure k.id w.number])
          ++ [.watermarkWrite k.id] ++ (if l.wmDue.isEmpty then [] else [.ladderWriteFailure k.id l.nextWr])
          ++ (List.range l.rungs.length).map (fun r => .starvationLimitExpiry k.id r)
          ++ (if l.due.isEmpty then [] else coreIds.map (fun c => .rungLaunchPlacement k.id c))
      | none => [])
    ++ (if k.state = 4 then [.edgeWriteBackLine k.id, .successorDecrement k.id, .signalWrite k.id] else [])
    ++ (if k.state = 2 && !k.dispatched then [if k.lobj.isNone then .taskDispatch k.id else .ladderDispatch k.id] else [])
    ++ (if k.grec.isSome && decide (k.placed < ctlGangs k.ctl.toNat) then coreIds.map (fun c => .gangPlacement k.id c) else []))

/-- Contexts, windows, power, attestation and the samplers. -/
def deviceMoves (s : State) : List Instr :=
  (s.contexts.zipIdx).flatMap (fun p =>
    (if p.1.preempt.isSome then [.contextSave p.2] else [])
    ++ (if p.1.slice != 0#64 then [.sliceExpiry p.2] else [])
    ++ (if p.1.restore && p.1.st == 3 && !p.1.busy then [.ctxRestore p.2] else []))
  ++ (s.frw.zipIdx).flatMap (fun p => if p.1.flush then [.frwFlushComplete p.2] else [])
  ++ (s.power.zipIdx).flatMap (fun p => if p.1.goal.isSome then [.powerStateReached p.2] else [])
  ++ (if s.ident.attBusy then [.attestationSignatureDone] else [])

/-- Contexts that wait for their seats. -/
def seatMoves (s : State) : List Move := (s.contexts.zipIdx).flatMap (fun p => if p.1.st = 4 || awaitsSeats p.1 then [.seat p.2] else [])

/-- Issue: groups in the middle of a clause first, then entries at headers. -/
def issueMoves (s : State) : List Move :=
  (s.cores.zipIdx).flatMap (fun p =>
    (p.1.entries.filter (fun e => e.run.isSome)).map (fun e => .issue p.2 e.uid)
    ++ (p.1.entries.filter (fun e => e.run.isNone)).flatMap (fun e =>
        if e.rdv then [.event (.rowRendezvous p.2 e.uid)] else [.event (.clauseStart p.2 e.uid true), .event (.clauseStart p.2 e.uid false)]))

/-- The samples of a clk come after the words that issue in it (R407: class 0). -/
def sampleMoves (s : State) : List Move :=
  (s.contexts.zipIdx).flatMap (fun p =>
    if p.1.dbgCtl.getLsbD 2 then (List.range (observedCores s p.2)).map (fun i => .event (.stallSample p.2 (firstObserved s p.2 + i))) else [])

/-- Every move that the device might make, in the order of the default schedule. -/
def allMoves (s : State) : List Move :=
  (memoryMoves s ++ threadMoves s ++ engineMoves s ++ taskMoves s ++ deviceMoves s).map Move.event ++ seatMoves s ++ issueMoves s ++ sampleMoves s

/-- The move changes the state. -/
def acts (s : State) (m : Move) : Bool :=
  match runMove m s with
  | .next s' => s' != s
  | _ => true

/-- The first move that changes something, else one clk. -/
def autoMove (s : State) : Move := ((allMoves s).find? (acts s)).getD .tick

end Sys2Proof.Machine
end

