-- ==== Sys2Proof/Machine/Step.lean ====
section
/-! DEFINITION. One step of the device: the next move of its agenda, or the move that it makes by itself (log entry 1); and a state in which one
given word is the next to issue (log entry 2). -/

namespace Sys2Proof.Machine

def step (s : State) : Host.Outcome State Fault Refusal :=
  match s.agenda with
  | m :: rest => settleMove s (runMove m { s with agenda := rest })
  | [] => settleMove s (runMove (autoMove s) s)

/-- The word with bits `w` stands where the next step issues. -/
def State.withFetchWord (s : State) (nbits w : Nat) : State := placeWord s (BitVec.ofNat 64 (w % 2 ^ nbits))

end Sys2Proof.Machine
end

