-- ==== Sys2Proof/Safety.lean ====
section
/-! DEFINITION. What a safe run is (no fault and no refusal stops it: the faults of the architecture are next states), and the terms in which claims
about a word are stated: when its operand stage lets it issue, the lanes it issues for, and the state after its reads. -/

namespace Sys2Proof

/-- The machine goes on from a state. -/
def Safe (s : Machine.State) : Prop := ∃ t, Machine.step s = .next t

/-- It goes on for `n` steps. -/
def SafeFor : Nat → Machine.State → Prop
  | 0, _ => True
  | n + 1, s => ∃ t, Machine.step s = .next t ∧ SafeFor n t

namespace Machine

/-- The members that execute the word and read their operands now: those that do not re-issue it from a replay set (R375). -/
def freshLanes (g : Grp) (h : Hd) : List Thread := (executing g h).filter (fun t => t.replaying.isNone)

/-- WHEN A WORD ISSUES (R67): nothing that it reads is pending (R71, R73); its flags have room (R59); what it pushes has room and what it pops is there
(R68); its cells can be reserved (R171, R179); and no operand faults (R66, R107, R123, R234, R354). -/
structure Ready (w : Spec) (s : State) (g : Grp) : Prop where
  group : s.grp = some g
  pending : pendingOf s w g (executing g w.h) = none
  flags : ∀ t ∈ executing g w.h, flagsFit t (flagsOf s g w.a w.b) = true
  room : pushFits s g ((executing g w.h).filter (fun t => !namesArray w || holdsArray s t)) w.dst.push = true
  pops : ∀ t ∈ freshLanes g w.h, popsReady s t w.srcs = true
  streams : streamsReady s (freshLanes g w.h) w.srcs = true
  cells : ∀ t ∈ executing g w.h, refusal s t (needCells t w) = none
  pre : ∀ t ∈ executing g w.h, w.pre t = none
  bound : ∀ t ∈ freshLanes g w.h, exhaust t (w.of t) = none
  queues : ∀ t ∈ freshLanes g w.h, queueFault s w (freshLanes g w.h) t = none

/-- The executing lanes of a word with the operand values they read, in ascending lane order. -/
def lanesRead (w : Spec) (s : State) (g : Grp) : List Lane := (readLanes s w (executing g w.h)).1

/-- The state after a word's reads: counts are counted and queue entries popped (R66, R68). -/
def afterReads (w : Spec) (s : State) (g : Grp) : State := (readLanes s w (executing g w.h)).2

/-- The state in which a fixed-latency word leaves the machine: reads counted, results bound as R72 gives, the group at its next word. `r` is the result of
a lane. -/
def afterFixed (w : Spec) (lat : Nat) (s : State) (g : Grp) (r : Lane → Res) : State :=
  finishWord (bindFixed (afterReads w s g) g w.dst lat ((lanesRead w s g).map (fun l => (l, r l)))) g w.h

/-- The state in which a word that issues an operation for each lane leaves the machine: reads counted, flags counted up, the destination pending, the
operations outstanding (R58, R71), the group at its next word. -/
def afterOps (w : Spec) (s : State) (g : Grp) (ops : List (Lane × NewOp)) : State :=
  finishWord (issueOps (afterReads w s g) g w ops) g w.h

/-- The names that a word reads in some executing thread. -/
def namesRead (w : Spec) (g : Grp) : List Nat := (executing g w.h).flatMap (fun t => valNames (w.of t))

/-- The names that a word reads or binds. -/
def namesOf (w : Spec) (g : Grp) : List Nat := namesRead w g ++ w.dst.names.map Prod.fst

/-! ## What the issue of a word leaves as it is

Each `outer` is the record with the fields blanked that an issue changes: two states with equal outer parts agree in everything else. -/

/-- What an issue may change beside bindings, queues and the table: nothing; also the outstanding operations, the flags that they count and the count of free
values; also DRAW (R232). -/
inductive Issue where
  | fixed | operation | draw
deriving DecidableEq, Repr

def State.outer (k : Issue) (s : State) : State :=
  { s with nextUid := 0, cores := [], threads := [], rows := [], gangs := [], contexts := [], ops := if k = .fixed then s.ops else [],
           freeCtr := if k = .fixed then s.freeCtr else 0 }

def Core.outer (k : Core) : Core := { k with entries := [], pipeA := none, pipeB := none, cpq := [], array := { k.array with queue := [] } }

def Context.outer (c : Context) : Context := { c with dropleak := 0#64 }

def Row.outer (r : Row) : Row := { r with mxa := [] }

def Gang.outer (g : Gang) : Gang := { g with windows := [] }

def Thread.outer (k : Issue) (t : Thread) : Thread :=
  { t with pc := 0#64, resume := none, names := [], flight := [], zombies := [], predPend := [], replay := none, blocked := none, heldFor := 0,
           streamWait := [], bar := none, nap := none, mxo := [], cps := [], hof := [], prevEnd := none,
           flags := if k = .fixed then t.flags else [], draw := if k = .draw then 0#64 else t.draw }

/-- From `s` to `u` a word was issued for the threads `ids`, and it touched the names `ns` only: memory, caches, engines, the array, registers,
predicates and every other thread are as before. -/
structure Issued (k : Issue) (ids ns : List Nat) (s u : State) : Prop where
  device : u.outer k = s.outer k
  core : ∀ c, (u.core c).outer = (s.core c).outer
  ctx : ∀ c, (u.ctx c).outer = (s.ctx c).outer
  rows : u.rows.map Row.outer = s.rows.map Row.outer
  gangs : u.gangs.map Gang.outer = s.gangs.map Gang.outer
  others : ∀ id, id ∉ ids → u.thread id = s.thread id
  members : ∀ id t, s.thread id = some t → ∃ t', u.thread id = some t' ∧ t'.outer k = t.outer k ∧ ∀ n, n ∉ ns → lookupName t' n = lookupName t n

/-! ## Bytes -/

/-- The byte at a physical address as its home holds it. -/
def homeByte (s : State) (a : Nat) : Nat := LineOps.get (s.devLine (a / 128)) (a % 128) 1

/-- The byte at a physical address as a core's ordinary loads find it: in its L1, or else at the home (R148). -/
def coreByte (s : State) (core a : Nat) : Nat :=
  LineOps.get (((l1Find s core (a / 128)).map L1Line.data).getD (s.devLine (a / 128))) (a % 128) 1

end Machine

end Sys2Proof
end

