-- ==== Sys2Proof/Certificates/Slice0/Obligations.lean ====
section
/-! DEFINITION. The statements for the provers. Each `Obligations.<Name>` is a proposition about the model; the helpers in `Sys2Proof.Claim` are the terms
in which they are said. A statement about a word names the condition under which it issues (`Ready`) and concludes the next state. -/

open Sys2Proof Sys2Proof.Machine

namespace Sys2Proof.Claim

/-! ## Words of a fixed latency: what each reads, its latency and a lane's result -/

/-- A result of the word's two sources. -/
def two (f : W64 → W64 → W64) (_ : List Lane) (l : Lane) : Res := Res.val (f (l.v 0) (l.v 1))

def one (f : W64 → W64) (_ : List Lane) (l : Lane) : Res := Res.val (f (l.v 0))

def three (f : W64 → W64 → W64 → W64) (_ : List Lane) (l : Lane) : Res := Res.val (f (l.v 0) (l.v 1) (l.v 2))

/-- The words of the INT group (R201 to R204). -/
def intWord : Instr → Option (Spec × (List Lane → Lane → Res))
  | .iadd h t d a b => some (typedSpec h t d [Opnd.of t a, Opnd.ofI t b], two (map2 t (fun x y => x + y)))
  | .isub h t d a b => some (typedSpec h t d [Opnd.of t a, Opnd.ofI t b], two (map2 t (fun x y => x - y)))
  | .imul h t d a b => some (typedSpec h t d [Opnd.of t a, Opnd.ofI t b], two (map2 t (fun x y => x * y)))
  | .imulhi h t d a b => some (typedSpec h t d [Opnd.of t a, Opnd.ofI t b], two (map2 t (fun x y => x * y / 2 ^ t.bits)))
  | .imin h t d a b => some (typedSpec h t d [Opnd.of t a, Opnd.ofI t b], two (map2 t (fun x y => if x ≤ y then x else y)))
  | .imax h t d a b => some (typedSpec h t d [Opnd.of t a, Opnd.ofI t b], two (map2 t (fun x y => if x ≤ y then y else x)))
  | .imad h t d a b c => some (typedSpec h t d [Opnd.of t a, Opnd.of t b, Opnd.of t c], three (map3 t (fun x y z => x * y + z)))
  | .imadw h t d a b c => some (typedSpec h t d [Opnd.cell a, Opnd.cell b, Opnd.of t c], three (imadw t))
  | .iaddc h t d a b p q => some ({ h := h, srcs := [Opnd.of t a, Opnd.of t b], ps := [p], dst := { Dest.ofDst d (ElemTy.wide t) with preds := [q.val] } },
      fun _ l => { vals := [(iaddc t (l.v 0) (l.v 1) (evalPred l.t p)).1], preds := [(iaddc t (l.v 0) (l.v 1) (evalPred l.t p)).2], cvt := false })
  | .isubb h t d a b p q => some ({ h := h, srcs := [Opnd.of t a, Opnd.of t b], ps := [p], dst := { Dest.ofDst d (ElemTy.wide t) with preds := [q.val] } },
      fun _ l => { vals := [(isubb t (l.v 0) (l.v 1) (evalPred l.t p)).1], preds := [(isubb t (l.v 0) (l.v 1) (evalPred l.t p)).2], cvt := false })
  | .iabs h t d a => some (typedSpec h t d [Opnd.of t a], one (map1 t (fun x => if x < 0 then -x else x)))
  | .ineg h t d a => some (typedSpec h t d [Opnd.of t a], one (map1 t (fun x => 0 - x)))
  | .isad h t d a b c => some (typedSpec h t d [Opnd.of t a, Opnd.of t b, Opnd.of t c], three (isad t))
  | .idot4 h sa sb d a b c => some (typedSpec h .s32 d [Opnd.of .s32 a, Opnd.of .s32 b, Opnd.of .s32 c], three (idot4 sa sb))
  | .idot8 h sa sb d a b c => some (typedSpec h .s32 d [Opnd.cell a, Opnd.cell b, Opnd.cell c],
      fun _ l => { vals := [(idot8 sa sb (l.v 0) (l.v 1) (l.v 2)).1], preds := [], cvt := (idot8 sa sb (l.v 0) (l.v 1) (l.v 2)).2 })
  | .lea h d a (.reg i sh sx) => some (typedSpec h .n64 d [Opnd.of .n64 a, Opnd.cell i],
      two (fun x y => x + ((if sx then (y.extractLsb' 0 32).signExtend 64 else (y.extractLsb' 0 32).zeroExtend 64) <<< sh.val)))
  | .lea h d a (.imm v) => some (typedSpec h .n64 d [Opnd.of .n64 a], one (fun x => x + v.signExtend 64))
  | .iclamp h t d a lo hi => some (typedSpec h t d [Opnd.of t a, Opnd.of t lo, Opnd.of t hi],
      three (map3 t (fun x lo hi => if hi < (if x < lo then lo else x) then hi else (if x < lo then lo else x))))
  | _ => none

/-- The words of the BIT group (R206). -/
def bitWord : Instr → Option (Spec × (List Lane → Lane → Res))
  | .and h t d a b => some (typedSpec h t d [Opnd.of t a, Opnd.ofI t b], two (fun x y => x &&& y))
  | .or h t d a b => some (typedSpec h t d [Opnd.of t a, Opnd.ofI t b], two (fun x y => x ||| y))
  | .xor h t d a b => some (typedSpec h t d [Opnd.of t a, Opnd.ofI t b], two (fun x y => x ^^^ y))
  | .lop3 h t d a b c lut => some (typedSpec h t d [Opnd.of t a, Opnd.of t b, Opnd.of t c], three (lop3 t lut))
  | .shl h t d a b => some (typedSpec h t d [Opnd.of t a, Opnd.ofI t b], two (shl t))
  | .shr h t d a b => some (typedSpec h t d [Opnd.of t a, Opnd.ofI t b], two (shr t))
  | .sar h t d a b => some (typedSpec h t d [Opnd.of t a, Opnd.ofI t b], two (sar t))
  | .rotl h t d a b => some (typedSpec h t d [Opnd.of t a, Opnd.ofI t b], two (rotl t))
  | .fshf h t clamp right d a b c => some (typedSpec h t d [Opnd.of t a, Opnd.of t b, Opnd.of t c], three (fshf clamp right))
  | .popc h t d a => some ({ h := h, srcs := [Opnd.of t a], dst := Dest.ofDst d false }, one (popc t))
  | .clz h t d a => some ({ h := h, srcs := [Opnd.of t a], dst := Dest.ofDst d false }, one (clz t))
  | .ctz h t d a => some ({ h := h, srcs := [Opnd.of t a], dst := Dest.ofDst d false }, one (ctz t))
  | .brev h t d a => some (typedSpec h t d [Opnd.of t a], one (brev t))
  | .bfx h t d a (.reg p) => some (typedSpec h t d [Opnd.of t a, Opnd.cell p], two (bfx t))
  | .bfx h t d a (.imm v) => some (typedSpec h t d [Opnd.of t a, .const (v.zeroExtend 64)], two (bfx t))
  | .bfi h t d a p c => some (typedSpec h t d [Opnd.of t a, Opnd.cell p, Opnd.of t c], three (bfi t))
  | .perm h d a b c => some (typedSpec h .b32 d [Opnd.of .b32 a, Opnd.of .b32 b, Opnd.of .b32 c], three perm)
  | _ => none

/-- What ISETP and FSETP write: the comparison, combined with the predicate operand of HN (R208). -/
def combined (m : Combine) (t : Thread) (r : Bool) : Bool :=
  match m with
  | .none => r
  | .and p => r && evalPred t p
  | .or p => r || evalPred t p
  | .xor p => xor r (evalPred t p)

/-- The words of the PRD group of one result (R208, R209). -/
def predWord : Instr → Option (Spec × (List Lane → Lane → Res))
  | .isetp h t d a (.reg b c m) => some ({ h := h, srcs := [Opnd.of t a, Opnd.of t b], ps := combinePreds m, dst := Dest.pred d },
      fun _ l => Res.pred (combined m l.t (icompare t c (l.v 0) (l.v 1))))
  | .isetp h t d a (.imm v c) => some ({ h := h, srcs := [Opnd.of t a, .const (immAs t v)], dst := Dest.pred d },
      fun _ l => Res.pred (icompare t c (l.v 0) (l.v 1)))
  | .fsetp h t d a b c m => some ({ h := h, srcs := [Opnd.of t a, Opnd.of t b], ps := combinePreds m, dst := Dest.pred d },
      fun _ l => Res.pred (combined m l.t (fcompare t c (l.v 0) (l.v 1))))
  | .plop h d pa pb pc lut => some ({ h := h, ps := [pa, pb, pc], dst := Dest.pred d },
      fun _ l => Res.pred (lut.getLsbD (4 * (evalPred l.t pa).toNat + 2 * (evalPred l.t pb).toNat + (evalPred l.t pc).toNat)))
  | .sel h t d a b p => some ({ typedSpec h t d [Opnd.of t a, Opnd.of t b] with ps := [p] },
      fun _ l => Res.val (if evalPred l.t p then l.v 0 else l.v 1))
  | .p2v h d => some ({ h := h, ps := (List.finRange 8).map (fun p => { neg := false, p := p }), dst := Dest.ofDst d false },
      fun _ l => Res.val (predByte l.t))
  | _ => none

/-- The words of the XLN group (R213 to R216), each over the executing lanes of the lane's row. -/
def crossWord : Instr → Option (Spec × (List Lane → Lane → Res))
  | .xshf h t m d a b => some (typedSpec h t d [Opnd.of t a, Opnd.pos b],
      fun ls l => Res.val (atPos (rowLanes ls l) (xshfSrc m l.t.lane (elemAt 32 0 (l.v 1))) 0 0#64))
  | .xbfly h t d a b => some (typedSpec h t d [Opnd.of t a, Opnd.pos b],
      fun ls l => Res.val (atPos (rowLanes ls l) (l.t.lane ^^^ (elemAt 32 0 (l.v 1) % 64)) 0 0#64))
  | .xbcast h t d a b => some (typedSpec h t d [Opnd.of t a, Opnd.pos b],
      fun ls l => Res.val (atPos (rowLanes ls l) (match rowLanes ls l with
        | [] => 0
        | x :: _ => elemAt 32 0 (x.v 1) % 64) 0 0#64))
  | .redx h t d a op => some (typedSpec h t d [Opnd.of t a],
      fun ls l => Res.val ((redSteps (redOp t op) [32, 16, 8, 4, 2, 1] (positions (rowLanes ls l) (redId t op))).getD l.t.lane 0#64))
  | .scanx h t d a op excl => some (typedSpec h t d [Opnd.of t a],
      fun ls l =>
        let x := scanSteps (redOp t op) [1, 2, 4, 8, 16, 32] (positions (rowLanes ls l) (redId t op))
        Res.val (if excl then (if l.t.lane = 0 then redId t op else x.getD (l.t.lane - 1) 0#64) else x.getD l.t.lane 0#64))
  | .vote h (.all d) p => some ({ h := h, ps := [p], dst := Dest.pred d },
      fun ls l => Res.pred ((rowLanes ls l).all (fun x => evalPred x.t p)))
  | .vote h (.any d) p => some ({ h := h, ps := [p], dst := Dest.pred d },
      fun ls l => Res.pred ((rowLanes ls l).any (fun x => evalPred x.t p)))
  | .vote h (.uni d) p => some ({ h := h, ps := [p], dst := Dest.pred d },
      fun ls l => Res.pred ((rowLanes ls l).all (fun x => evalPred x.t p) || (rowLanes ls l).all (fun x => !evalPred x.t p)))
  | .vote h (.ballot d hi) p => some ({ h := h, ps := [p], dst := Dest.ofDst d true },
      fun ls l => Res.val (halfMask (rowLanes ls l) hi (fun x => evalPred x.t p)))
  | .xmatch h wide d a hi => some ({ h := h, srcs := [.src a wide], dst := Dest.ofDst d true },
      fun ls l => Res.val (halfMask (rowLanes ls l) hi (fun x => x.v 0 == l.v 0)))
  | .elect h d => some ({ h := h, dst := Dest.pred d },
      fun ls l => Res.pred (match rowLanes ls l with
        | [] => false
        | x :: _ => x.t.lane == l.t.lane))
  | .xcount h d .exec => some ({ h := h, dst := Dest.ofDst d false }, fun ls l => Res.val (BitVec.ofNat 64 ((rowLanes ls l).countP (fun _ => true))))
  | .xcount h d .below => some ({ h := h, dst := Dest.ofDst d false },
      fun ls l => Res.val (BitVec.ofNat 64 ((rowLanes ls l).countP (fun x => decide (x.t.lane < l.t.lane)))))
  | .xcount h d (.pred p) => some ({ h := h, ps := [p], dst := Dest.ofDst d false },
      fun ls l => Res.val (BitVec.ofNat 64 ((rowLanes ls l).countP (fun x => evalPred x.t p))))
  | .xcount h d (.predBelow p) => some ({ h := h, ps := [p], dst := Dest.ofDst d false },
      fun ls l => Res.val (BitVec.ofNat 64 ((rowLanes ls l).countP (fun x => decide (x.t.lane < l.t.lane) && evalPred x.t p))))
  | _ => none

/-- The words of the FLT group (R219 to R223): each element is computed exactly and rounded once. -/
def floatWord : Instr → Option (Spec × (List Lane → Lane → Res))
  | .fadd h t r d a b => some (typedSpec h t d [Opnd.of t a, Opnd.ofI t b], two (fbin t r (fun x y => FVal.add r x y)))
  | .fsub h t r d a b => some (typedSpec h t d [Opnd.of t a, Opnd.ofI t b], two (fbin t r (fun x y => FVal.add r x y.neg)))
  | .fmul h t r d a b => some (typedSpec h t d [Opnd.of t a, Opnd.ofI t b], two (fbin t r FVal.mul))
  | .ffma h t r d a b c => some (typedSpec h t d [Opnd.of t a, Opnd.of t b, Opnd.of t c], three (ffma t r))
  | .fmin h t n d a b => some (typedSpec h t d [Opnd.of t a, Opnd.ofI t b], two (fmin t n))
  | .fmax h t n d a b => some (typedSpec h t d [Opnd.of t a, Opnd.ofI t b], two (fmax t n))
  | .frnd h t r d a => some (typedSpec h t d [Opnd.of t a], one (frnd t r))
  | .fscale h t r d a n => some (typedSpec h t d [Opnd.cell a, Opnd.cell n], two (fscale t r))
  | .fclass h t d a => some (typedSpec h t d [Opnd.of t a], one (fclass t))
  | .fdot2 h t r d a b c => some (typedSpec h t d [Opnd.of t a, Opnd.of t b, Opnd.of t c], three (fdot2 t r))
  | _ => none

/-- The CVT group of fixed latency (R227); the mark of R30 goes to FMTRSV.CVT at write-back. -/
def convWord : Instr → Option (Spec × (List Lane → Lane → Res))
  | .cvt h t r d a l => some (typedSpec h t d [Opnd.of l.sty a],
      fun _ x => { vals := [(cvt t r l (x.v 0)).1], preds := [], cvt := (cvt t r l (x.v 0)).2 })
  | .cvtpk h t r d a b l => some (typedSpec h t d [Opnd.of l.sty a, Opnd.of l.sty b],
      fun _ x => { vals := [(cvtpk t r l (x.v 0) (x.v 1)).1], preds := [], cvt := (cvtpk t r l (x.v 0) (x.v 1)).2 })
  | .cvt8pk h t r d a b none l => some (typedSpec h t d [Opnd.cell a, Opnd.cell b],
      fun _ x => Res.val (cvt8pk t r l (x.v 0) (x.v 1) (x.v 2)))
  | .cvt8pk h t r d a b (some c) l => some (typedSpec h t d [Opnd.cell a, Opnd.cell b, Opnd.cell c],
      fun _ x => Res.val (cvt8pk t r l (x.v 0) (x.v 1) (x.v 2)))
  | .cvtupk h t r d a l => some (typedSpec h t d [Opnd.cell a],
      fun _ x => { vals := [(cvtupk t r l (x.v 0)).1], preds := [], cvt := (cvtupk t r l (x.v 0)).2 })
  | _ => none

/-- The words of the CEL group that bind a value (R189, R194 to R196). -/
def cellValueWord (s : State) : Instr → Option (Spec × (List Lane → Lane → Res))
  | .mov h t d a => some (typedSpec h t d [Opnd.ofI t a], one (fun x => x))
  | .pair h t d lo hi => some (typedSpec h t d [Opnd.cell lo, Opnd.cell hi], two (fun x y => y.extractLsb' 0 32 ++ x.extractLsb' 0 32))
  | .split h t d k a => some ({ h := h, srcs := [Opnd.of t a], dst := { Dest.none with names := [(d.val, false), (d.val + 1, false)], rdc := k } },
      fun _ l => { vals := [(l.v 0).extractLsb' 0 32 |>.zeroExtend 64, (l.v 0) >>> 32], preds := [], cvt := false })
  | .cellq h d (.state n) => some ({ h := h, dst := Dest.ofDst d false }, fun _ l => Res.val (match lookupName l.t n.val with
      | some b => cellWord b
      | none => 0#64))
  | .cellq h d (.pcl n) => some ({ h := h, dst := Dest.ofDst d false }, fun _ l => Res.val (match lookupName l.t n.val with
      | some b => (b.prod.extractLsb' 0 32).zeroExtend 64
      | none => 0#64))
  | .cellq h d (.pch n) => some ({ h := h, dst := Dest.ofDst d false }, fun _ l => Res.val (match lookupName l.t n.val with
      | some b => (b.prod.extractLsb' 32 16).zeroExtend 64
      | none => 0#64))
  | .cellq h d .lane => some ({ h := h, dst := Dest.ofDst d false },
      fun _ l => Res.val (BitVec.ofNat 64 (l.t.cells * 2 ^ 16 + s.poolFree l.t.core l.t.lane)))
  | _ => none

/-- Every word of a fixed latency with one binding point, with its latency: 4 clk, or 6 for the XLN group (R69). -/
def fixedInstr (s : State) (i : Instr) : Option (Spec × Nat × (List Lane → Lane → Res)) :=
  match intWord i, bitWord i, predWord i, crossWord i, floatWord i, convWord i, cellValueWord s i with
  | some (w, r), _, _, _, _, _, _ | _, some (w, r), _, _, _, _, _ | _, _, some (w, r), _, _, _, _ => some (w, 4, r)
  | _, _, _, some (w, r), _, _, _ => some (w, 6, r)
  | _, _, _, _, some (w, r), _, _ | _, _, _, _, _, some (w, r), _ | _, _, _, _, _, _, some (w, r) => some (w, 4, r)
  | _, _, _, _, _, _, _ => none

end Sys2Proof.Claim

/-- R201 to R204: every word of the INT group that can issue issues, with the result of its rule in each executing lane. -/
def Sys2Proof.Claim.IntegerWords : Prop :=
  ∀ (i : Instr) (w : Spec) (r : List Lane → Lane → Res) (s : State) (g : Grp),
    Claim.intWord i = some (w, r) → Ready w s g → exec i s = .next (afterFixed w 4 s g (r (lanesRead w s g)))

/-- R206: every word of the BIT group that can issue issues, with the result of its rule in each executing lane. -/
def Sys2Proof.Claim.BitWords : Prop :=
  ∀ (i : Instr) (w : Spec) (r : List Lane → Lane → Res) (s : State) (g : Grp),
    Claim.bitWord i = some (w, r) → Ready w s g → exec i s = .next (afterFixed w 4 s g (r (lanesRead w s g)))

/-- R208, R209: ISETP, FSETP, PLOP, SEL and P2V. -/
def Sys2Proof.Claim.PredicateWords : Prop :=
  ∀ (i : Instr) (w : Spec) (r : List Lane → Lane → Res) (s : State) (g : Grp),
    Claim.predWord i = some (w, r) → Ready w s g → exec i s = .next (afterFixed w 4 s g (r (lanesRead w s g)))

/-- R213 to R216: every word of the XLN group; its latency is 6 clk (R69). -/
def Obligations.CrossLaneWords : Prop :=
  ∀ (i : Instr) (w : Spec) (r : List Lane → Lane → Res) (s : State) (g : Grp),
    Claim.crossWord i = some (w, r) → Ready w s g → exec i s = .next (afterFixed w 6 s g (r (lanesRead w s g)))

/-- R219 to R223: every word of the FLT group. -/
def Sys2Proof.Claim.FloatWords : Prop :=
  ∀ (i : Instr) (w : Spec) (r : List Lane → Lane → Res) (s : State) (g : Grp),
    Claim.floatWord i = some (w, r) → Ready w s g → exec i s = .next (afterFixed w 4 s g (r (lanesRead w s g)))

/-- R227: CVT, CVTPK, CVT8PK and CVTUPK. -/
def Sys2Proof.Claim.ConversionWords : Prop :=
  ∀ (i : Instr) (w : Spec) (r : List Lane → Lane → Res) (s : State) (g : Grp),
    Claim.convWord i = some (w, r) → Ready w s g → exec i s = .next (afterFixed w 4 s g (r (lanesRead w s g)))

/-- R189, R194 to R196: MOV, PAIR, SPLIT and CELLQ. Where the spec leaves the moment or a point open, this is the model's choice (log entry 31). -/
def Obligations.CellValueWords : Prop :=
  ∀ (i : Instr) (w : Spec) (r : List Lane → Lane → Res) (s : State) (g : Grp),
    Claim.cellValueWord s i = some (w, r) → Ready w s g → exec i s = .next (afterFixed w 4 s g (r (lanesRead w s g)))

/-! ## CEL bindings, SFU and the other words of a variable latency -/

namespace Sys2Proof.Claim

/-- Every executing lane's binding of a name satisfies a test. -/
def bound (ls : List Lane) (n : Nat) (ok : Binding → Prop) : Prop := ∀ l ∈ ls, ∃ b, lookupName l.t n = some b ∧ ok b

/-- A change of the binding of a name in each executing thread. -/
def rebind (n : Nat) (f : Thread → Binding → Thread) (ls : List Lane) (s : State) : State :=
  ls.foldl (fun s l => s.updThread l.t.id (fun t => ((lookupName t n).map (f t)).getD t)) s

/-- The words of a variable latency whose value is a function of the state at issue (R71): what they read and the value of a lane. -/
def valueWord : Instr → Option (Spec × (State → Lane → W64))
  | .rcp h d a => some ({ h := h, srcs := [Opnd.cell a], dst := Dest.ofDst d false, a := true }, fun _ l => BitVec.ofNat 64 (Sfu.rcp (elemAt 32 0 (l.v 0))))
  | .rsq h d a => some ({ h := h, srcs := [Opnd.cell a], dst := Dest.ofDst d false, a := true }, fun _ l => BitVec.ofNat 64 (Sfu.rsq (elemAt 32 0 (l.v 0))))
  | .sqrt h d a => some ({ h := h, srcs := [Opnd.cell a], dst := Dest.ofDst d false, a := true }, fun _ l => BitVec.ofNat 64 (Sfu.sqrt (elemAt 32 0 (l.v 0))))
  | .ppoll h d => some ({ h := h, dst := Dest.ofDst d false, a := true }, fun s l => ppollWord s l.t.ctx)
  | .tself h d sel => some ({ h := h, dst := Dest.ofDst d true, a := true }, fun s l => tselfValue s l.t sel.val)
  | .mstat h d sel => some ({ h := h, dst := Dest.ofDst d false, a := true, mtx := true }, fun s l => mstatWord s l.t sel.val)
  | .lframe h d i => some ({ h := h, dst := Dest.ofDst d false, a := true, pre := lframePre i.val }, fun _ l => frameCell l.t i.val)
  | .lstat h d sel => some ({ h := h, dst := Dest.ofDst d true, a := true, pre := lstatPre }, fun s l => lstatValue s l.t sel.val)
  | _ => none

/-- The functions of R231 that the model bounds by intervals: none where the interval does not decide the rounding (log entry 19). -/
def sfuFun : Instr → Option (Hd × Dst × Src × (Nat → Option Nat))
  | .exp2 h d a => some (h, d, a, Sfu.exp2)
  | .log2 h d a => some (h, d, a, Sfu.log2)
  | .sinpi h d a => some (h, d, a, Sfu.sinpi)
  | .cospi h d a => some (h, d, a, Sfu.cospi)
  | .tanh h d a => some (h, d, a, Sfu.tanh)
  | _ => none

/-- The operands of a word of the SFU group with a source. -/
def sfuSpec (h : Hd) (d : Dst) (a : Src) : Spec := { h := h, srcs := [Opnd.cell a], dst := Dest.ofDst d false, a := true }

def drawSpec (h : Hd) (d : Dst) : Spec := { h := h, dst := Dest.ofDst d false, a := true }

/-- DRAW counts one draw in each executing thread (R232). -/
def drawn (ls : List Lane) (s : State) : State := ls.foldl (fun s l => s.updThread l.t.id (fun t => { t with draw := t.draw + 1#64 })) s

end Sys2Proof.Claim

/-- R191: DROP subtracts n reads, and frees the binding when none is left or n is 0. -/
def Sys2Proof.Claim.DropCancelsReads : Prop :=
  ∀ (h : Hd) (a : VName) (n : BitVec 4) (s : State) (g : Grp), Ready { h := h } s g →
    Claim.bound (lanesRead { h := h } s g) a.val (fun b => b.count ≠ 15#4 ∧ n ≤ b.count) →
      exec (.drop h a n) s = .next (finishWord (Claim.rebind a.val
        (fun t b => if n = 0#4 ∨ n = b.count then freeName t a.val else setName t a.val { b with count := b.count - n })
        (lanesRead { h := h } s g) (afterReads { h := h } s g)) g h)

/-- R192: KEEP adds n reads to the count. -/
def Sys2Proof.Claim.KeepAddsReads : Prop :=
  ∀ (h : Hd) (a : VName) (n : BitVec 4) (s : State) (g : Grp), Ready { h := h } s g →
    Claim.bound (lanesRead { h := h } s g) a.val (fun b => b.count ≠ 15#4 ∧ b.count.toNat + n.toNat ≤ 14) →
      exec (.keep h a n) s = .next (finishWord (Claim.rebind a.val (fun t b => setName t a.val { b with count := b.count + n })
        (lanesRead { h := h } s g) (afterReads { h := h } s g)) g h)

/-- R193: FREE releases a sticky binding. -/
def Sys2Proof.Claim.FreeReleases : Prop :=
  ∀ (h : Hd) (a : VName) (s : State) (g : Grp), Ready { h := h } s g →
    Claim.bound (lanesRead { h := h } s g) a.val (fun b => b.count = 15#4) →
      exec (.free h a) s = .next (finishWord (Claim.rebind a.val (fun t _ => freeName t a.val)
        (lanesRead { h := h } s g) (afterReads { h := h } s g)) g h)

/-- R71, R231, R262, R348, R368, R369, R391: the words of a variable latency whose value the state at issue gives. -/
def Obligations.ValueWords : Prop :=
  ∀ (i : Instr) (w : Spec) (v : State → Lane → W64) (s : State) (g : Grp), Claim.valueWord i = some (w, v) → Ready w s g →
    exec i s = .next (afterOps w s g ((lanesRead w s g).map (fun l => (l, { kind := .value (v (afterReads w s g) l), va := 0#64 }))))

/-- R231: EXP2, LOG2, SINPI, COSPI and TANH issue; a lane whose correctly rounded result the model's interval decides gets it, any
other a value that nothing constrains (log entry 19). -/
def Sys2Proof.Claim.ApproximateFunctions : Prop :=
  ∀ (i : Instr) (h : Hd) (d : Dst) (a : Src) (f : Nat → Option Nat) (s : State) (g : Grp), Claim.sfuFun i = some (h, d, a, f) →
    Ready (Claim.sfuSpec h d a) s g → ∃ (ops : List (Lane × NewOp)) (n : Nat),
      exec i s = .next (finishWord (issueOps { afterReads (Claim.sfuSpec h d a) s g with freeCtr := n } g (Claim.sfuSpec h d a) ops) g h)
        ∧ ops.map Prod.fst = lanesRead (Claim.sfuSpec h d a) s g
        ∧ ∀ p ∈ ops, ∃ v, p.2.kind = .value v ∧ ∀ x, f (elemAt 32 0 (p.1.v 0)) = some x → v = BitVec.ofNat 64 x

/-- R232: RND and RNDF issue one draw per executing lane and raise its counter; RND's value is the draw, RNDF's the number of [0, 1) made of it. -/
def Sys2Proof.Claim.RandomDraws : Prop :=
  ∀ (h : Hd) (d : Dst) (s : State) (g : Grp), Ready (Claim.drawSpec h d) s g →
    (∃ ops : List (Lane × NewOp),
      exec (.rnd h d) s = .next (finishWord (issueOps (Claim.drawn (lanesRead (Claim.drawSpec h d) s g) (afterReads (Claim.drawSpec h d) s g)) g
        (Claim.drawSpec h d) ops) g h)
      ∧ ops = (lanesRead (Claim.drawSpec h d) s g).map (fun l =>
          (l, { kind := .value ((Sfu.draw (s.ctx l.t.ctx).seed l.t.lane l.t.draw).zeroExtend 64), va := 0#64 })))
    ∧ (∃ ops : List (Lane × NewOp),
      exec (.rndf h d) s = .next (finishWord (issueOps (Claim.drawn (lanesRead (Claim.drawSpec h d) s g) (afterReads (Claim.drawSpec h d) s g)) g
        (Claim.drawSpec h d) ops) g h)
      ∧ ops = (lanesRead (Claim.drawSpec h d) s g).map (fun l =>
          (l, { kind := .value ((Sfu.unitF32 (Sfu.draw (s.ctx l.t.ctx).seed l.t.lane l.t.draw)).zeroExtend 64), va := 0#64 })))

/-- R209: V2P writes each predicate p0 to p6 that the mask selects from its bit of the byte, in one binding of fixed latency. -/
def Sys2Proof.Claim.V2pWritesPredicates : Prop :=
  ∀ (h : Hd) (a : Src) (m : SrcI) (w : Spec) (s : State) (g : Grp),
    w = { h := h, srcs := [Opnd.cell a, match m with | .reg r => Opnd.cell r | .imm v => .const (v.zeroExtend 64)] } → Ready w s g →
      exec (.v2p h a m) s = .next (finishWord ((lanesRead w s g).foldl (fun s l =>
        bindFixed s g { Dest.none with preds := (List.range 7).filter (fun i => (l.v 1).getLsbD i) } 4
          [(l, { vals := [], preds := ((List.range 7).filter (fun i => (l.v 1).getLsbD i)).map (fun i => (l.v 0).getLsbD i), cvt := false })])
        (afterReads w s g)) g h)

/-! ## Control, waits and teams -/

namespace Sys2Proof.Claim

/-- The next PC of a member: its target where it executes the word, else the next clause in memory. -/
def nextPc (ls : List Lane) (tgt : Lane → W64) (fall : W64) (id : Nat) : W64 := ((ls.find? (fun l => l.t.id == id)).map tgt).getD fall

/-- A register target that no check refuses (R309). -/
def goodTarget (x : W64) : Prop := x.extractLsb' 0 3 = 0#3 ∧ x.extractLsb' 48 16 = 0#16

/-- The destination of CALL and CALLX: a 64-bit name. -/
def linkSpec (h : Hd) (srcs : List Opnd) (d : VName) (k : BitVec 4) : Spec :=
  { h := h, srcs := srcs, dst := { names := [(d.val, true)], rdc := k, push := none, preds := [] } }

/-- The return address is the word after the transfer's word, bound at fixed latency A (R69, R309). -/
def linked (w : Spec) (s : State) (g : Grp) : State :=
  bindFixed (afterReads w s g) g w.dst 4 ((lanesRead w s g).map (fun l => (l, { vals := [g.pc + 8#64], preds := [], cvt := false })))

def idSpec (h : Hd) (id : SrcI) : Spec := { h := h, srcs := [Opnd.index id] }

/-- The team that a lane names. -/
def teamId (l : Lane) : Nat := elemAt 32 0 (l.v 0)

end Sys2Proof.Claim

/-- R308, R309: NOP, BRA, BRX and RET: an executing thread goes on at its target, any other at the next clause in memory. -/
def Sys2Proof.Claim.Transfers : Prop :=
  ∀ (h : Hd) (s : State) (g : Grp),
    (Ready { h := h } s g → exec (.nop h) s = .next (finishWord (afterReads { h := h } s g) g h)
      ∧ ∀ off : BitVec 16, exec (.bra h off) s = .next (finishWith (afterReads { h := h } s g) g h
          (Claim.nextPc (lanesRead { h := h } s g) (fun _ => g.pc + 8#64 * off.signExtend 64) g.clause.fall)))
    ∧ ∀ (a : Src) (w : Spec), w = { h := h, srcs := [.src a true] } → Ready w s g → (∀ l ∈ lanesRead w s g, Claim.goodTarget (l.v 0)) →
        ∀ i ∈ [Instr.brx h a, Instr.ret h a],
          exec i s = .next (finishWith (afterReads w s g) g h (Claim.nextPc (lanesRead w s g) (fun l => l.v 0) g.clause.fall))

/-- R309: CALL and CALLX transfer too, and bind the return address. -/
def Sys2Proof.Claim.Calls : Prop :=
  ∀ (h : Hd) (d : VName) (k : BitVec 4) (s : State) (g : Grp),
    (∀ (off : BitVec 16) (w : Spec), w = Claim.linkSpec h [] d k → Ready w s g →
      exec (.call h d k off) s = .next (finishWith (Claim.linked w s g) g h
        (Claim.nextPc (lanesRead w s g) (fun _ => g.pc + 8#64 * off.signExtend 64) g.clause.fall)))
    ∧ ∀ (a : Src) (w : Spec), w = Claim.linkSpec h [.src a true] d k → Ready w s g → (∀ l ∈ lanesRead w s g, Claim.goodTarget (l.v 0)) →
        exec (.callx h d k a) s = .next (finishWith (Claim.linked w s g) g h (Claim.nextPc (lanesRead w s g) (fun l => l.v 0) g.clause.fall))

/-- R309: a register target with one of bits 2 to 0 set takes ALIGN at the transfer, here in every executing lane, and nothing else happens: CALLX binds no
return address. -/
def Obligations.MisalignedTargetTraps : Prop :=
  ∀ (h : Hd) (a : Src) (s : State) (g : Grp) (w : Spec) (l : Lane) (ls : List Lane), Ready w s g → lanesRead w s g = l :: ls →
    (∀ x ∈ l :: ls, (x.v 0).extractLsb' 0 3 ≠ 0#3) →
    ∀ i, ((w = { h := h, srcs := [.src a true] } ∧ i ∈ [Instr.brx h a, Instr.ret h a]) ∨ ∃ d k, w = Claim.linkSpec h [.src a true] d k ∧ i = Instr.callx h d k a) →
      exec i s = .next (wordTrap (afterReads w s g) g 0x05 2 (l.v 0) ((l :: ls).map (fun x => x.t.id)) (replaysOf (l :: ls)))

/-- R310: EXIT ends each executing thread that runs no rung; the others go on at the next clause. -/
def Obligations.ExitEnds : Prop :=
  ∀ (h : Hd) (s : State) (g : Grp), Ready { h := h } s g → (∀ l ∈ lanesRead { h := h } s g, l.t.rung = none) →
    exec (.exit h) s = .next (finishWith ((lanesRead { h := h } s g).foldl (fun s l => exitThread s l.t.id) (afterReads { h := h } s g)) g h
      (fun _ => g.clause.fall))

/-- R311: WAITF issues when every named flag is zero in every executing member (trusted mode), or when no effect of a member is outstanding (interlocked
mode, R73); until then the group waits with its pipe released. -/
def Sys2Proof.Claim.WaitfWaits : Prop :=
  ∀ (h : Hd) (mask : BitVec 12) (s : State) (g : Grp), Ready { h := h } s g →
    ((s.ilk g.ctx = false → (∀ l ∈ lanesRead { h := h } s g, ∀ f < 12, mask.getLsbD f = true → flagOf l.t f = 0) →
        exec (.waitf h mask) s = .next (finishWord (afterReads { h := h } s g) g h))
    ∧ (s.ilk g.ctx = false → (∃ l ∈ lanesRead { h := h } s g, ∃ f < 12, mask.getLsbD f = true ∧ flagOf l.t f ≠ 0) →
        ∃ blame, exec (.waitf h mask) s = .next (stallFree (afterReads { h := h } s g) g 3 blame)))
    ∧ (s.ilk g.ctx = true → (∀ l ∈ lanesRead { h := h } s g, effectsOut s l.t = false) →
        exec (.waitf h mask) s = .next (finishWord (afterReads { h := h } s g) g h))
    ∧ (s.ilk g.ctx = true → (∃ l ∈ lanesRead { h := h } s g, effectsOut s l.t = true) →
        exec (.waitf h mask) s = .next (stallFree (afterReads { h := h } s g) g 3 0#64))

/-- R312: NAP puts each executing member to sleep for n clk from issue and releases the pipe; NAP #0 acts as NOP; a group that has slept goes on when no
member sleeps. -/
def Sys2Proof.Claim.NapSleeps : Prop :=
  ∀ (h : Hd) (n : BitVec 16) (s : State) (g : Grp),
    (Ready { h := h } s g → g.run.issued = false → n ≠ 0#16 → lanesRead { h := h } s g ≠ [] →
      exec (.nap h n) s = .next (stallFree (markIssued ((lanesRead { h := h } s g).foldl (fun s l =>
        s.updThread l.t.id (fun t => { t with nap := some (s.clk + n.toNat) })) (afterReads { h := h } s g)) g h) g 3 0#64))
    ∧ (Ready { h := h } s g → g.run.issued = false → exec (.nap h 0#16) s = .next (finishWord (afterReads { h := h } s g) g h))
    ∧ (s.grp = some g → g.run.issued = true → (∀ t ∈ g.mem, t.nap = none) → exec (.nap h n) s = .next (finishWord s g h))

/-- R169, R261: FENCE issues when its conditions hold in every executing member, MWAIT when no command is left that one of them pushed; else the group
waits. -/
def Sys2Proof.Claim.FenceAndMwaitWait : Prop :=
  ∀ (h : Hd) (s : State) (g : Grp),
    (∀ (k : FenceKind) (sc : Fin 8), Ready { h := h } s g → (∀ l ∈ lanesRead { h := h } s g, fenceHolds (afterReads { h := h } s g) k l.t = true) →
      exec (.fence h k sc) s = .next (finishWord (afterReads { h := h } s g) g h))
    ∧ (∀ (k : FenceKind) (sc : Fin 8), Ready { h := h } s g → (∃ l ∈ lanesRead { h := h } s g, fenceHolds (afterReads { h := h } s g) k l.t = false) →
      exec (.fence h k sc) s = .next (stallHold s g 9 0#64))
    ∧ (∀ w : Spec, w = { h := h, mtx := true } → Ready w s g →
      ((∀ c ∈ (s.core g.core).array.commands, ∀ p ∈ c.pushers, ∀ l ∈ lanesRead w s g, l.t.id ≠ p.1) →
        exec (.mwait h) s = .next (finishWord (afterReads w s g) g h))
      ∧ ((∃ c ∈ (s.core g.core).array.commands, ∃ p ∈ c.pushers, ∃ l ∈ lanesRead w s g, l.t.id = p.1) →
        ∃ blame, exec (.mwait h) s = .next (stallFree s g 3 blame)))

/-- R315: TJOIN and TLEAVE of each executing thread, performed in lane order. -/
def Sys2Proof.Claim.TeamsJoinAndLeave : Prop :=
  ∀ (h : Hd) (id : SrcI) (s : State) (g : Grp), Ready (Claim.idSpec h id) s g → (∀ l ∈ lanesRead (Claim.idSpec h id) s g, Claim.teamId l ≤ 63) →
    ((∀ l ∈ lanesRead (Claim.idSpec h id) s g, l.t.teams.getLsbD (Claim.teamId l) = false) →
      exec (.tjoin h id) s = .next (finishWord ((lanesRead (Claim.idSpec h id) s g).foldl (fun s l => joinTeam s l.t (Claim.teamId l))
        (afterReads (Claim.idSpec h id) s g)) g h))
    ∧ ((∀ l ∈ lanesRead (Claim.idSpec h id) s g, l.t.teams.getLsbD (Claim.teamId l) = true) →
      exec (.tleave h id) s = .next (finishWord ((lanesRead (Claim.idSpec h id) s g).foldl (fun s l => leaveTeam s l.t (Claim.teamId l))
        (afterReads (Claim.idSpec h id) s g)) g h))

/-- R316 to R318: TBAR and GBAR record the arrival of each executing thread once what each one's arrival covers has been performed, and until then the group
waits with its pipe released; it then waits until every arrival of its members is released, and goes on when it is. -/
def Sys2Proof.Claim.BarriersArrive : Prop :=
  ∀ (h : Hd) (id : SrcI) (s : State) (g : Grp),
    (Ready (Claim.idSpec h id) s g → g.run.issued = false →
      (∀ l ∈ lanesRead (Claim.idSpec h id) s g, Claim.teamId l ≤ 63 ∧ l.t.teams.getLsbD (Claim.teamId l) = true) →
      ((∀ l ∈ lanesRead (Claim.idSpec h id) s g, (afterReads (Claim.idSpec h id) s g).released l.t = true) →
        exec (.tbar h id) s = .next (barrierWait ((lanesRead (Claim.idSpec h id) s g).foldl (fun s l => arriveTeam s l.t (Claim.teamId l))
          (afterReads (Claim.idSpec h id) s g)) g h))
      ∧ ((∃ l ∈ lanesRead (Claim.idSpec h id) s g, (afterReads (Claim.idSpec h id) s g).released l.t = false) → exec (.tbar h id) s = .next (stallFree s g 7 0#64)))
    ∧ (Ready { h := h } s g → g.run.issued = false →
      ((∀ l ∈ lanesRead { h := h } s g, (afterReads { h := h } s g).released l.t = true) →
        exec (.gbar h) s = .next (barrierWait ((lanesRead { h := h } s g).foldl (fun s l => arriveGang s l.t) (afterReads { h := h } s g)) g h))
      ∧ ((∃ l ∈ lanesRead { h := h } s g, (afterReads { h := h } s g).released l.t = false) → exec (.gbar h) s = .next (stallFree s g 7 0#64)))
    ∧ (s.grp = some g → g.run.issued = true → (∀ t ∈ g.mem, ∀ u, s.thread t.id = some u → ∀ b, u.bar ≠ some (b, false)) →
      exec (.tbar h id) s = .next (finishWord s g h) ∧ exec (.gbar h) s = .next (finishWord s g h))

/-- R315 to R319: TJOIN of a team that the thread is in, and TLEAVE or TBAR of one that it is not in, take TEAM, here in every executing lane; an id above
63 takes PROT. -/
def Obligations.TeamFaults : Prop :=
  ∀ (h : Hd) (id : SrcI) (s : State) (g : Grp) (l : Lane) (ls : List Lane), Ready (Claim.idSpec h id) s g → g.run.issued = false →
    lanesRead (Claim.idSpec h id) s g = l :: ls →
    ((∀ x ∈ l :: ls, Claim.teamId x ≤ 63 ∧ x.t.teams.getLsbD (Claim.teamId x) = true) →
      exec (.tjoin h id) s = .next (wordTrap (afterReads (Claim.idSpec h id) s g) g 0x0F 1 (lowCell (l.v 0)) ((l :: ls).map (fun x => x.t.id)) (replaysOf (l :: ls))))
    ∧ ((∀ x ∈ l :: ls, Claim.teamId x ≤ 63 ∧ x.t.teams.getLsbD (Claim.teamId x) = false) →
      exec (.tleave h id) s = .next (wordTrap (afterReads (Claim.idSpec h id) s g) g 0x0F 2 (lowCell (l.v 0)) ((l :: ls).map (fun x => x.t.id)) (replaysOf (l :: ls)))
      ∧ exec (.tbar h id) s = .next (wordTrap (afterReads (Claim.idSpec h id) s g) g 0x0F 3 (lowCell (l.v 0)) ((l :: ls).map (fun x => x.t.id)) (replaysOf (l :: ls))))
    ∧ ((∀ x ∈ l :: ls, 63 < Claim.teamId x) → ∀ i ∈ [Instr.tjoin h id, Instr.tleave h id, Instr.tbar h id],
      exec i s = .next (wordTrap (afterReads (Claim.idSpec h id) s g) g 0x07 5 0#64 ((l :: ls).map (fun x => x.t.id)) (replaysOf (l :: ls))))

/-! ## System words -/

namespace Sys2Proof.Claim

def sysrdSpec (h : Hd) (wide : Bool) (d : Dst) (i : SrcI) : Spec := { h := h, srcs := [Opnd.index i], dst := Dest.ofDst d wide, a := true }

def syswrSpec (h : Hd) (wide : Bool) (a : Src) (i : SrcI) : Spec := { h := h, srcs := [.src a wide, Opnd.index i] }

/-- Register 0x13, FMTRSV, is not named while a decoding conversion of the thread has yet to be written back (R31). -/
def noConversion (ls : List Lane) (k : Nat) : Prop := ∀ l ∈ ls, elemAt 32 0 (l.v k) = 0x13 → ∀ f ∈ l.t.flight, f.cvt = false

/-- What SYSWR writes. -/
def written (wide : Bool) (l : Lane) : W64 := if wide then l.v 0 else lowCell (l.v 0)

/-- The privileged registers of R384. -/
def privileged (i : Nat) : Prop := i = 0x03 ∨ i = 0x04 ∨ i = 0x05 ∨ i = 0x06 ∨ i = 0x18

/-- The ids of the executing lanes. -/
def laneIds (w : Spec) (s : State) (g : Grp) : List Nat := (lanesRead w s g).map (fun l => l.t.id)

/-- The fault of TRAP (R388): it resumes at the next word, or at the next clause. -/
def trapFault (code : BitVec 16) (g : Grp) (ids : List Nat) : Flt :=
  { code := 0x0B, sub := code.toNat % 256, addr := code.zeroExtend 64, mask := ids
    epc := if g.clause.words.length ≤ g.clause.idx + 1 then g.clause.fall else g.pc + 8#64
    back := if g.clause.words.length ≤ g.clause.idx + 1 then none else some { g.clause with idx := g.clause.idx + 1 }
    defer := false, src := 0 }

/-- The state before a return: the returning threads have left their entry, and the others go on at the next clause. -/
def beforeReturn (h : Hd) (s : State) (g : Grp) : State :=
  finishWith ((laneIds { h := h } s g).foldl (fun s id =>
    (leaveTable s g.core id).updThread id (fun t => { t with prevEnd := some (s.clk, g.pc) })) (afterReads { h := h } s g)) g h (fun _ => g.clause.fall)

end Sys2Proof.Claim

/-- R389: SYSRD of a register of R384 issues and brings each executing lane the register as its thread reads it. -/
def Sys2Proof.Claim.SysrdReads : Prop :=
  ∀ (h : Hd) (wide : Bool) (d : Dst) (i : SrcI) (s : State) (g : Grp) (w : Spec), w = Claim.sysrdSpec h wide d i → Ready w s g →
    (∀ l ∈ lanesRead w s g, elemAt 32 0 (l.v 0) ≤ 0x1B) → Claim.noConversion (lanesRead w s g) 0 →
      exec (.sysrd h wide d i) s = .next (afterOps w s g ((lanesRead w s g).map (fun l =>
        (l, { kind := .value (sysRead (afterReads w s g) l.t (elemAt 32 0 (l.v 0))), va := 0#64 }))))

/-- The fields of a word: each lowest bit, width and value. -/
def Sys2Proof.Claim.fields (x : W64) (l : List (Nat × Nat × Nat)) : Prop := ∀ p ∈ l, (x.extractLsb' p.1 p.2.1).toNat = p.2.2

/-- The three fields of MSTATE about a plane of weights (R252): its status and, where it is not empty, its type and width. -/
def Sys2Proof.Claim.planeFields (p : Plane) (lo : Nat) : List (Nat × Nat × Nat) :=
  [(lo + 7, 2, p.status % 4), (lo + 3, 4, if p.status = 0 then 0 else p.ty.code.toNat), (lo, 3, if p.status = 0 then 0 else p.wm % 8)]

/-- R31, R187, R233, R252, R304, R385, R386, R396: what a thread reads of each system register, with every field of those that have several. -/
def Sys2Proof.Claim.RegisterValues : Prop :=
  ∀ (s : State) (t : Thread) (c : Context) (a : MtxArray) (r : TrapRegs), c = s.ctx t.ctx → a = (s.core t.core).array → r = t.trap →
    (∀ p ∈ [(0x00, 0x2010083068002040#64), (0x01, 0x0000000077200100#64), (0x02, BitVec.ofNat 64 s.clk), (0x03, c.promise.zeroExtend 64),
        (0x04, c.fairlim.zeroExtend 64), (0x05, c.yieldspan.zeroExtend 64), (0x08, c.spillcnt), (0x0C, r.addr), (0x0D, r.lanes), (0x10, c.seed), (0x11, t.draw),
        (0x12, c.dropleak), (0x13, c.fmtrsv.zeroExtend 64), (0x14, c.watch.getD 0 0#64), (0x15, c.watch.getD 1 0#64), (0x16, c.watch.getD 2 0#64),
        (0x17, c.watch.getD 3 0#64), (0x18, c.notchlim.zeroExtend 64), (0x19, r.epc), (0x1A, c.trapvec), (0x1B, r.lanesH)], sysRead s t p.1 = p.2)
    ∧ Claim.fields (sysRead s t 0x06) [(12, 52, 0), (0, 12, c.cellcap % 2 ^ 12)]
    ∧ Claim.fields (sysRead s t 0x07) [(32, 32, 0), (16, 16, (c.cellcap - s.ctxCells t.core t.lane t.ctx) % 2 ^ 16), (0, 16, s.poolFree t.core t.lane % 2 ^ 16)]
    ∧ Claim.fields (sysRead s t 0x0B) [(48, 16, 0), (32, 16, r.ord.toNat), (24, 8, 0), (21, 3, r.src % 8), (20, 1, r.th.toNat), (19, 1, r.hdr.toNat),
        (18, 1, r.rpl.toNat), (17, 1, r.defer.toNat), (16, 1, r.inmask.toNat), (8, 8, r.sub % 256), (0, 8, r.code % 256)]
    ∧ Claim.fields (sysRead s t 0x0E) [(7, 57, 0), (6, 1, (s.priv t.ctx).toNat), (0, 6, t.ctx % 64)]
    ∧ Claim.fields (sysRead s t 0x0F) [(1, 63, 0), (0, 1, (s.ilk t.ctx).toNat)]
    ∧ (a.gang ≠ some t.gang → sysRead s t 0x09 = 0#64 ∧ sysRead s t 0x0A = 0#64)
    ∧ (a.gang = some t.gang → Claim.fields (sysRead s t 0x09) [(9, 55, 0), (0, 9, a.mprog % 2 ^ 9)]
      ∧ Claim.fields (sysRead s t 0x0A) ([(40, 24, 0), (32, 8, (a.loop.map Loop.fcode).getD 0 % 256),
          (30, 2, (a.loop.map (fun l => if l.stopped = true then 2 else 1)).getD 0), (29, 1, a.s32acc.toNat), (28, 1, ((a.loop.map Loop.mark).getD false).toNat),
          (7, 3, a.queue.length % 8), (0, 7, 0)] ++ Claim.planeFields a.active 19 ++ Claim.planeFields a.shadow 10))

/-- R31, R187, R233, R252, R304, R385, R386, R389, R396: SYSRD of a register of R384 issues, brings each executing lane the register as its thread reads it,
and what that is for each register. -/
def Obligations.SystemRegisterReads : Prop := Claim.SysrdReads ∧ Claim.RegisterValues

/-- R384, R389: SYSWR writes each executing lane's register, in lane order, when the register is one that its context may write. -/
def Obligations.SystemRegisterWrites : Prop :=
  ∀ (h : Hd) (wide : Bool) (a : Src) (i : SrcI) (s : State) (g : Grp) (w : Spec), w = Claim.syswrSpec h wide a i → Ready w s g →
    (∀ l ∈ lanesRead w s g, elemAt 32 0 (l.v 1) ≤ 0x1B ∧ (Claim.privileged (elemAt 32 0 (l.v 1)) → s.priv l.t.ctx = true)
      ∧ (elemAt 32 0 (l.v 1) = 0x19 ∨ elemAt 32 0 (l.v 1) = 0x1A → (l.v 0).extractLsb' 48 16 = 0#16 ∧ (l.v 0).extractLsb' 0 3 = 0#3)) →
    Claim.noConversion (lanesRead w s g) 1 →
      exec (.syswr h wide a i) s = .next (finishWord ((lanesRead w s g).foldl (fun s l => sysWrite s l.t (elemAt 32 0 (l.v 1)) (Claim.written wide l))
        (afterReads w s g)) g h)

/-- R384, R389: in a context without PRIV, SYSWR of a privileged register takes PROT with sub-code 7, here in every executing lane, and writes nothing. -/
def Obligations.PrivilegedWriteTraps : Prop :=
  ∀ (h : Hd) (wide : Bool) (a : Src) (i : SrcI) (s : State) (g : Grp) (w : Spec) (l : Lane) (ls : List Lane), w = Claim.syswrSpec h wide a i → Ready w s g →
    lanesRead w s g = l :: ls → (∀ x ∈ l :: ls, Claim.privileged (elemAt 32 0 (x.v 1)) ∧ s.priv x.t.ctx = false) →
      exec (.syswr h wide a i) s = .next (wordTrap (afterReads w s g) g 0x07 7 0#64 ((l :: ls).map (fun x => x.t.id)) (replaysOf (l :: ls)))

/-- What SYSRD reads of a register that SYSWR writes, other than FMTRSV, after a write of `v`: the bits that the register has, within its limits. -/
def Sys2Proof.Claim.readBack (i : Nat) (v : W64) : W64 :=
  if i = 0x03 then v &&& 0x7#64
  else if i = 0x04 then (if (v &&& 0xFFFF#64).toNat < 16 then 16#64 else v &&& 0xFFFF#64)
  else if i = 0x05 then v &&& 0xFFFF#64
  else if i = 0x06 then (if (v &&& 0xFFF#64).toNat < 8 then 8#64 else if 2048 < (v &&& 0xFFF#64).toNat then 2048#64 else v &&& 0xFFF#64)
  else if 0x14 ≤ i ∧ i ≤ 0x17 then v &&& 0xFFC0FFFFFFFFFFFF#64
  else if i = 0x18 then v &&& 0xFFFFFFFF#64
  else v

/-- R31, R187, R233, R304, R386, R389, R396: SYSRD of a register after SYSWR has written it gives the value written, within the bits and limits of the
register; every other register reads as before, but that CELLFREE follows CELLCAP, and a write of EPC sets HDR and clears RPL in FLTINFO. A bit of FMTRSV
that a write clears stays 1 only where another thread or the array has set it in the same clk. A write that the map marks ignored changes nothing. -/
def Obligations.WrittenRegisterReadsBack : Prop :=
  ∀ (s : State) (t : Thread) (v : W64), t.ctx < s.contexts.length → s.thread t.id = some t →
    (∀ i ∈ [0x03, 0x04, 0x05, 0x06, 0x08, 0x10, 0x11, 0x12, 0x13, 0x14, 0x15, 0x16, 0x17, 0x18, 0x19, 0x1A], ∃ u, (sysWrite s t i v).thread t.id = some u
      ∧ (i ≠ 0x13 → sysRead (sysWrite s t i v) u i = Claim.readBack i v)
      ∧ ∀ j ≤ 0x1B, j ≠ i → ¬ (i = 0x06 ∧ j = 0x07) → ¬ (i = 0x19 ∧ j = 0x0B) → sysRead (sysWrite s t i v) u j = sysRead s t j)
    ∧ (∀ u, (sysWrite s t 0x13 v).thread t.id = some u → ∀ k < 64, (sysRead (sysWrite s t 0x13 v) u 0x13).getLsbD k =
        ((sysRead s t 0x13).getLsbD k && (!v.getLsbD k || (decide ((s.ctx t.ctx).fmtrsvSet.2 = s.clk)
          && (s.ctx t.ctx).fmtrsvSet.1.any (fun p => decide (p.1 ≠ some t.id) && p.2.getLsbD k)))))
    ∧ (∃ u, (sysWrite s t 0x19 v).thread t.id = some u ∧ u.trap = { t.trap with epc := v, hdr := true, rpl := false })
    ∧ ∀ i ∈ [0x00, 0x01, 0x02, 0x07, 0x09, 0x0A, 0x0B, 0x0C, 0x0D, 0x0E, 0x0F, 0x1B], sysWrite s t i v = s

/-- R390: ICINV without a range empties the core's instruction cache; with one, it drops the lines that the range of an executing lane names. Where the
spec leaves the moment or a point open, this is the model's choice (log entry 20). -/
def Obligations.InstructionCacheInvalidates : Prop :=
  ∀ (h : Hd) (s : State) (g : Grp),
    (Ready { h := h } s g → lanesRead { h := h } s g ≠ [] → exec (.icinv h none) s = .next (finishWord
      ((afterReads { h := h } s g).updCore g.core (fun k => { k with icache := [] })) g h))
    ∧ ∀ (a b : Src) (w : Spec), w = { h := h, srcs := [.src a true, .src b false] } → Ready w s g →
      exec (.icinv h (some (a, b))) s = .next (finishWord ((afterReads w s g).updCore g.core (fun k => { k with icache := k.icache.filter (fun x =>
        !(lanesRead w s g).any (fun l => elemAt 32 0 (l.v 1) != 0
          && x.within g.ctx (l.v 0).toNat (elemAt 32 0 (l.v 1)))) })) g h)

/-- R395: while a debug grant is active, BKPT makes stop reason 1 pending with its tag in each executing thread; without a grant it does nothing. -/
def Sys2Proof.Claim.BreakpointStops : Prop :=
  ∀ (h : Hd) (tag : BitVec 16) (s : State) (g : Grp), Ready { h := h } s g →
    (grantActive (afterReads { h := h } s g) g.ctx = true → exec (.bkpt h tag) s = .next (finishWord ((lanesRead { h := h } s g).foldl (fun s l =>
      s.updThread l.t.id (fun t => { t with stops := t.stops ||| 2#8, tag := tag })) (afterReads { h := h } s g)) g h))
    ∧ (grantActive (afterReads { h := h } s g) g.ctx = false → exec (.bkpt h tag) s = .next (finishWord (afterReads { h := h } s g) g h))

/-- R388: TRAP takes the fault TRAP with its code, in the whole group, whatever lanes execute it. -/
def Sys2Proof.Claim.TrapTraps : Prop :=
  ∀ (h : Hd) (code : BitVec 16) (s : State) (g : Grp), Ready { h := h } s g →
    exec (.trap h code) s = .next (takeTrap (afterReads { h := h } s g) g.core g.mem (Claim.trapFault code g (Claim.laneIds { h := h } s g)) [])

/-- R381: ERET in a handler returns every executing thread; outside a handler it takes PROT with sub-code 10. -/
def Sys2Proof.Claim.EretReturns : Prop :=
  ∀ (h : Hd) (s : State) (g : Grp), Ready { h := h } s g →
    ((∀ l ∈ lanesRead { h := h } s g, l.t.trap.th = true) →
      exec (.eret h) s = .next (returnFrom (Claim.beforeReturn h s g) g.core g.ctx (Claim.laneIds { h := h } s g)))
    ∧ ∀ l ls, lanesRead { h := h } s g = l :: ls → (∀ x ∈ l :: ls, x.t.trap.th = false) →
      exec (.eret h) s = .next (wordTrap (afterReads { h := h } s g) g 0x07 10 0#64 ((l :: ls).map (fun x => x.t.id)) (replaysOf (l :: ls)))

/-- R374, R386: taking a fault whose disposition is to trap. The one member, which has not exited, goes to the handler: its registers say where it resumes,
the code, sub-code and address, and the lanes; TH is set; and it stands in the table at TRAPVEC. -/
def Obligations.TrapEntry : Prop :=
  ∀ (s : State) (core : Nat) (t : Thread) (f : Flt), s.thread t.id = some t → t.exited = false → t.trap.th = false → f.kills = false → f.fails = false →
    (s.ctx t.ctx).trapvec ≠ 0#64 → f.mask = [t.id] → t.core < s.cores.length → ∃ u, (takeTrap s core [t] f []).thread t.id = some u
      ∧ u.trap.epc = f.epc ∧ u.trap.code = f.code ∧ u.trap.sub = f.sub ∧ u.trap.addr = f.addr ∧ u.trap.inmask = true ∧ u.trap.th = true
      ∧ u.trap.hdr = f.back.isNone ∧ u.trap.defer = f.defer ∧ u.trap.lanes = (maskOf [t]).1 ∧ u.trap.lanesH = (maskOf [t]).2
      ∧ u.faultAt = f.back ∧ u.pc = (s.ctx t.ctx).trapvec ∧ u.names = t.names ∧ u.preds = t.preds
      ∧ ∃ e ∈ ((takeTrap s core [t] f []).core t.core).entries, t.id ∈ e.members ∧ e.pc = (s.ctx t.ctx).trapvec

/-- R372, R374: a fault in a handler fails the task; so does one of disposition F, or any other fault where TRAPVEC is 0. A member that has exited, as its
task has failed with another member, does no more. -/
def Obligations.FaultFailsTask : Prop :=
  ∀ (s : State) (f : Flt) (id : Nat) (t : Thread), s.thread id = some t →
    (t.trap.th = true ∨ (f.kills = false ∧ (f.fails = true ∨ (s.ctx t.ctx).trapvec = 0#64))) → trapGoes s f id = if t.exited then s else failTask s t.task f.code

/-! ## Memory words -/

namespace Sys2Proof.Claim

/-- A load: its operands, address form, bytes, sign extension, hint, count and whether it reads the stash (R149, R152, R154). -/
structure LoadForm where
  w : Spec
  m : MemAddr
  n : Nat
  sx : Nat
  hint : Hint
  cnt : Nat
  stash : Bool

def loadForm : Instr → Option LoadForm
  | .ld h t hint d m c => some { w := { h := h, srcs := memOpnds m true, dst := Dest.ofDst d (ElemTy.wide t), a := true }, m := m, n := memWidth t, sx := memSign t,
                                 hint := hint, cnt := c.val, stash := false }
  | .lds h t counted d m => some { w := { h := h, srcs := memOpnds m false, dst := Dest.ofDst d (ElemTy.wide t), a := true }, m := m, n := memWidth t,
                                   sx := memSign t, hint := if counted then .counted else .plain, cnt := 0, stash := true }
  | .ldv h hint d k m c => some { w := { h := h, srcs := memOpnds m true, dst := { Dest.none with names := [(d.val, true), (d.val + 1, true)], rdc := k },
                                         a := true }, m := m, n := 16, sx := 0, hint := hint, cnt := c.val, stash := false }
  | _ => none

/-- A store: its operands, address form, bytes, hint, whether it writes the stash, and a lane's data (R150, R152, R154). -/
structure StoreForm where
  w : Spec
  m : MemAddr
  n : Nat
  hint : Hint
  stash : Bool
  data : Lane → BitVec 128

def storeForm : Instr → Option StoreForm
  | .st h t hint b i scl c => some { w := { h := h, srcs := memOpnds (.reg b i scl) true ++ [.src c (ElemTy.wide t)], b := true }, m := .reg b i scl,
                                     n := memWidth t, hint := hint, stash := false, data := fun l => (l.v 2).zeroExtend 128 }
  | .sts h t b i scl c => some { w := { h := h, srcs := memOpnds (.reg b i scl) false ++ [.src c (ElemTy.wide t)], b := true }, m := .reg b i scl,
                                 n := memWidth t, hint := .plain, stash := true, data := fun l => (l.v 2).zeroExtend 128 }
  | .stv h hint b i scl c => some { w := { h := h, srcs := memOpnds (.reg b i scl) true ++ [.src (.val c) true, .src (.val (nameAfter c)) true], b := true },
                                    m := .reg b i scl, n := 16, hint := hint, stash := false, data := fun l => l.v 3 ++ l.v 2 }
  | _ => none

/-- The check of a lane's access of `n` bytes passes, and its place is `T`. -/
def placed (s : State) (stash write : Bool) (n : Nat) (l : Lane) (va : W64) (T : Target) : Prop :=
  if stash then laneStash s l.t va n n = .ok T
  else laneGlobal s l.t.core l.t (if write then storeAcc va n else loadAcc va n) = .ok T

/-- The words of the ATM group: their operands, bytes, scope, a lane's operation, and the operand that limits a wait (R159 to R165). -/
structure AtmForm where
  w : Spec
  n : Nat
  scope : Nat
  op : Lane → WordOp
  limit : Option Nat

def atmForm : Instr → Option AtmForm
  | .atom h t d a b op sc => some
      { w := { h := h, srcs := [.src a true, .src b (ElemTy.wide t)], dst := Dest.ofDst d (ElemTy.wide t), a := true, b := true },
        n := if ElemTy.wide t then 8 else 4, scope := sc.val, op := fun l => .atom false op t (if ElemTy.wide t then l.v 1 else lowCell (l.v 1)), limit := none }
  | .ared h t a b op sc => some
      { w := { h := h, srcs := [.src a true, .src b (ElemTy.wide t)], b := true },
        n := if ElemTy.wide t then 8 else 4, scope := sc.val, op := fun l => .atom true op t (if ElemTy.wide t then l.v 1 else lowCell (l.v 1)), limit := none }
  | .acas h t d a b c sc => some
      { w := { h := h, srcs := [.src a true, .src b (ElemTy.wide t), .src c (ElemTy.wide t)], dst := Dest.ofDst d (ElemTy.wide t), a := true, b := true },
        n := if ElemTy.wide t then 8 else 4, scope := sc.val, op := fun l => .cas (ElemTy.wide t) (l.v 1) (l.v 2), limit := none }
  | .await h t d a b lim c sc => some
      { w := { h := h, srcs := [.src a true, .src b (ElemTy.wide t), .src lim false], dst := Dest.ofDst d (ElemTy.wide t), a := true },
        n := if ElemTy.wide t then 8 else 4, scope := sc.val, op := fun l => .await t c (if ElemTy.wide t then l.v 1 else lowCell (l.v 1)), limit := some 2 }
  | .cntdec h a b sc => some
      { w := { h := h, srcs := [.src a true, .src b false], b := true }, n := 8, scope := sc.val,
        op := fun l => .cntdec (word32 (l.v 1)), limit := none }
  | .bararv h d a b sc => some
      { w := { h := h, srcs := [.src a true, .src b false], dst := Dest.ofDst d false, a := Dest.taken d, b := true }, n := 8, scope := sc.val,
        op := fun l => .bararv (word32 (l.v 1)), limit := none }
  | .barwt h d a b lim sc => some
      { w := { h := h, srcs := [.src a true, .src b false, .src lim false], dst := Dest.ofDst d false, a := true }, n := 8, scope := sc.val,
        op := fun l => .barwt (word32 (l.v 1)), limit := some 2 }
  | _ => none

/-- The clk at which a waiting operation returns early: 0 is no limit (R165). -/
def limitClk (s : State) (k : Option Nat) (l : Lane) : Option Nat :=
  match k with
  | none => none
  | some i => if elemAt 32 0 (l.v i) = 0 then none else some (s.clk + elemAt 32 0 (l.v i))

/-- The task instructions that send an operation: operands, alignment, a lane's operand limit and its operation (R345 to R349). -/
structure TaskForm where
  w : Spec
  align : Nat
  fits : Lane → Prop
  op : Lane → WordOp

def taskForm : Instr → Option TaskForm
  | .tsubmit h a => some
      { w := { h := h, srcs := [.src a true], b := true }, align := 128, fits := fun _ => True, op := fun _ => .submit none none }
  | .tdepadd h d a b => some
      { w := { h := h, srcs := [.src a true, .src b false], dst := Dest.ofDst d false, a := Dest.taken d, b := true }, align := 8,
        fits := fun _ => True, op := fun l => .depadd (word32 (l.v 1)) }
  | .tsignal h a b c => some
      { w := { h := h, srcs := [.src a true, .src b true, .src c false], b := true }, align := 8,
        fits := fun l => elemAt 32 0 (l.v 2) ≤ 65535, op := fun l => .signal (l.v 1) (word32 (l.v 2)) }
  | .cvswap h d a b => some
      { w := { h := h, srcs := [.src a true, .src b true], dst := Dest.ofDst d true, a := true, b := true }, align := 8,
        fits := fun l => (l.v 1).extractLsb' 0 3 = 0#3 ∧ (l.v 1).extractLsb' 48 16 = 0#16, op := fun l => .swap (l.v 1) }
  | _ => none

end Sys2Proof.Claim

/-- R107, R149, R152, R154: LD, LDS and LDV whose checks pass in every executing lane issue one load each, and bind their destination pending. -/
def Sys2Proof.Claim.LoadsIssue : Prop :=
  ∀ (i : Instr) (f : Claim.LoadForm) (s : State) (g : Grp) (T : Lane → Target), Claim.loadForm i = some f → Ready f.w s g →
    (∀ l ∈ lanesRead f.w s g, Claim.placed (afterReads f.w s g) f.stash false f.n l (memEa f.m f.n l) (T l)) →
      exec i s = .next (finishWord (watched (issueOps (afterReads f.w s g) g f.w ((lanesRead f.w s g).map (fun l =>
          (l, { kind := .load (T l) f.n f.sx f.hint f.cnt, va := memEa f.m f.n l })))) g
        ((lanesRead f.w s g).map (fun l => (l, memEa f.m f.n l))) f.n f.stash true false) g f.w.h)

/-- R107, R150, R152, R154: ST, STS and STV whose checks pass issue one store for each executing lane, with the lane's data. -/
def Sys2Proof.Claim.StoresIssue : Prop :=
  ∀ (i : Instr) (f : Claim.StoreForm) (s : State) (g : Grp) (T : Lane → Target), Claim.storeForm i = some f → Ready f.w s g →
    (∀ l ∈ lanesRead f.w s g, Claim.placed (afterReads f.w s g) f.stash true f.n l (memEa f.m f.n l) (T l)) →
      exec i s = .next (finishWord (watched (issueOps (afterReads f.w s g) g f.w ((lanesRead f.w s g).map (fun l =>
          (l, { kind := .store (T l) f.n f.hint (f.data l), va := memEa f.m f.n l })))) g
        ((lanesRead f.w s g).map (fun l => (l, memEa f.m f.n l))) f.n f.stash false true) g f.w.h)

/-- R146: the address of an access: base plus index, scaled where SCL is set, or base plus the signed immediate. -/
def Sys2Proof.Claim.EffectiveAddress : Prop :=
  ∀ (l : Lane) (n : Nat) (b x : Src) (v : BitVec 16),
    memEa (.reg b x false) n l = l.v 0 + ((l.v 1).extractLsb' 0 32).signExtend 64
    ∧ memEa (.reg b x true) n l = l.v 0 + ((l.v 1).extractLsb' 0 32).signExtend 64 * BitVec.ofNat 64 n
    ∧ memEa (.imm b v) n l = l.v 0 + v.signExtend 64

/-- The check of a lane of LDP: it passes, or fails in translation or permission with a code (R156). -/
def Sys2Proof.Claim.probed (r : LaneRes) (T : Target) (bad : Option Nat) : Prop :=
  match bad with
  | none => r = .ok T
  | some code => ∃ st sub a, r = .bad st code sub a ∧ (st = 3 ∨ st = 4)

/-- What a lane of LDP issues: its load, or the status with the code in bits [63:32] (R156). -/
def Sys2Proof.Claim.probeKind (t : ElemTy) (T : Target) (bad : Option Nat) : OpKind :=
  match bad with
  | none => .load T (memWidth t) (memSign t) .plain 0
  | some code => .value (BitVec.ofNat 64 (code * 2 ^ 32))

/-- R155, R156: PFL without a missing walk asks for its lines, for one read or for as many as its count operand says, and binds nothing; LDP whose walks are
known issues a load where a lane's check passes, and the status value with the fault's code where it fails in translation or permission. Where the spec leaves
the moment or a point open, this is the model's choice (log entries 33, 60 and 61). -/
def Obligations.PrefetchAndProbe : Prop :=
  ∀ (h : Hd) (s : State) (g : Grp) (m : MemAddr),
    (∀ (hint : Hint) (w : Spec), w = { h := h, srcs := memOpnds m true } → Ready w s g →
      (∀ l ∈ lanesRead w s g, ∀ p, pflLine (afterReads w s g) l.t (memEa m 4 l) ≠ .miss p) →
        exec (.pfl h hint m none) s = .next (finishWord ((lanesRead w s g).foldl (fun u l =>
          pflFill u l.t hint 1 (pflLine (afterReads w s g) l.t (memEa m 4 l))) (afterReads w s g)) g h))
    ∧ (∀ (hint : Hint) (c : Src) (w : Spec), w = { h := h, srcs := memOpnds m true ++ [.src c false] } → Ready w s g →
      (∀ l ∈ lanesRead w s g, ∀ p, pflLine (afterReads w s g) l.t (memEa m 4 l) ≠ .miss p) →
        exec (.pfl h hint m (some c)) s = .next (finishWord ((lanesRead w s g).foldl (fun u l =>
          pflFill u l.t hint (elemAt 32 0 (l.v 2)) (pflLine (afterReads w s g) l.t (memEa m 4 l))) (afterReads w s g)) g h))
    ∧ ∀ (t : ElemTy) (d : Dst) (w : Spec) (T : Lane → Target) (bad : Lane → Option Nat), w = { h := h, srcs := memOpnds m true, dst := Dest.ofDst d true, a := true } →
      Ready w s g → (∀ l ∈ lanesRead w s g, Claim.probed (laneGlobal (afterReads w s g) l.t.core l.t (loadAcc (memEa m (memWidth t) l) (memWidth t))) (T l) (bad l)) →
        exec (.ldp h t d m) s = .next (finishWord (watched (issueOps (((lanesRead w s g).filter (fun l => (bad l).isSome)).foldl (fun u l =>
            dropBadTlb u g.core g.ctx (memEa m (memWidth t) l)) (afterReads w s g)) g w ((lanesRead w s g).map (fun l =>
            (l, { kind := Claim.probeKind t (T l) (bad l), va := memEa m (memWidth t) l })))) g
          (((lanesRead w s g).filter (fun l => (bad l).isNone)).map (fun l => (l, memEa m (memWidth t) l))) (memWidth t) false true false) g h)

/-- R228: QBLK and DQBLK whose checks pass issue one conversion for each executing lane. Where the spec leaves the moment or a point open, this is the
model's choice (log entry 8). -/
def Obligations.BlockConversionsIssue : Prop :=
  ∀ (h : Hd) (t : ElemTy) (r : Rnd) (d : Dst) (s : State) (g : Grp) (wm : Fin 8),
    (∀ (a b c : Src) (w : Spec),
      w = { h := h, srcs := [.src a false, .src b false, .src c false], dst := Dest.ofDst d false, a := Dest.binds d, b := true } → Ready w s g →
      (∀ l ∈ lanesRead w s g, ∀ x ∈ qblkChecks (afterReads w s g) t (wm.val + 1) l, ∃ T, x = .ok T) →
        ∃ touch, exec (.qblk h t r d a b c wm) s = .next (finishWord (watchHits (issueOps (afterReads w s g) g w ((lanesRead w s g).map (fun l =>
          (l, { kind := .qblk (glenSpot (qblkChecks (afterReads w s g) t (wm.val + 1) l) 0) (glenSpot (qblkChecks (afterReads w s g) t (wm.val + 1) l) 1) t
                  (wm.val + 1) r (elemAt 32 0 (l.v 2)), va := lowCell (l.v 1) })))) g touch) g h))
    ∧ ∀ (a b : Src) (w : Spec), w = { h := h, srcs := [.src a false, .src b false], dst := Dest.ofDst d false, a := true } → Ready w s g →
      (∀ l ∈ lanesRead w s g, ∀ x ∈ dqblkChecks (afterReads w s g) (wm.val + 1) l, ∃ T, x = .ok T) →
        ∃ touch, exec (.dqblk h t r d a b wm) s = .next (finishWord (watchHits (issueOps (afterReads w s g) g w ((lanesRead w s g).map (fun l =>
          (l, { kind := .dqblk (glenSpot (dqblkChecks (afterReads w s g) (wm.val + 1) l) 0) t (wm.val + 1) r (elemAt 32 0 (l.v 1)), va := lowCell (l.v 0) })))) g
            touch) g h)

/-- R157 to R165: the words of the ATM group whose checks pass send one operation of each executing lane to its home. -/
def Sys2Proof.Claim.AtomicsIssue : Prop :=
  ∀ (i : Instr) (f : Claim.AtmForm) (s : State) (g : Grp) (T : Lane → Target), Claim.atmForm i = some f → Ready f.w s g →
    (∀ l ∈ lanesRead f.w s g, laneGlobal (afterReads f.w s g) l.t.core l.t { wordAcc (l.v 0) f.n f.n with await := (f.op l).isAwait } = .ok (T l)) →
      exec i s = .next (finishWord (watched (sendWord (afterReads f.w s g) g f.w f.n f.scope ((lanesRead f.w s g).map (fun l => (l, [.ok (T l)]))) f.op
        (Claim.limitClk (afterReads f.w s g) f.limit)) g ((lanesRead f.w s g).map (fun l => (l, l.v 0))) f.n false true true) g f.w.h)

/-- R344 to R349: TSUBMIT, TDEPADD, TSIGNAL and CVSWAP whose checks pass send one operation of each executing lane to its record's home. -/
def Sys2Proof.Claim.TaskWordsIssue : Prop :=
  ∀ (i : Instr) (f : Claim.TaskForm) (s : State) (g : Grp) (T : Lane → Target), Claim.taskForm i = some f → Ready f.w s g →
    (∀ l ∈ lanesRead f.w s g, f.fits l
      ∧ laneGlobal (afterReads f.w s g) l.t.core l.t (wordAcc (l.v 0) (if f.align = 128 then 128 else 8) f.align) = .ok (T l)) →
      exec i s = .next (finishWord (sendWord (afterReads f.w s g) g f.w 8 2 ((lanesRead f.w s g).map (fun l => (l, [.ok (T l), .ok (.l1 0)]))) f.op
        (fun _ => none)) g f.w.h)

/-- R365: LSTART whose record and object can both be accessed submits the record with its ladder object. -/
def Sys2Proof.Claim.LadderStarts : Prop :=
  ∀ (h : Hd) (a b : Src) (s : State) (g : Grp) (w : Spec) (T U : Lane → Target), w = { h := h, srcs := [.src a true, .src b true], b := true } → Ready w s g →
    (∀ l ∈ lanesRead w s g, laneGlobal (afterReads w s g) l.t.core l.t (wordAcc (l.v 0) 320 128) = .ok (T l)
      ∧ laneGlobal (afterReads w s g) l.t.core l.t (objAcc (l.v 1)) = .ok (U l)) →
      exec (.lstart h a b) s = .next (finishWord (sendWord (afterReads w s g) g w 8 2 ((lanesRead w s g).map (fun l => (l, [.ok (T l), .ok (U l)])))
        (fun l => .submit none (some (l.v 1))) (fun _ => none)) g h)

/-- R366, R367: LESC whose flags are valid hands each executing thread's item on and ends the thread; LRES writes its result and ends it. -/
def Sys2Proof.Claim.LadderWordsEnd : Prop :=
  ∀ (h : Hd) (a : Src) (s : State) (g : Grp),
    (∀ (sb : Option VName) (w : Spec), w = { h := h, srcs := [.src a false], pre := lescPre s (executing g h) sb, extra := lescNames s sb } → Ready w s g →
      (∀ l ∈ lanesRead w s g, bitsAt (elemAt 32 0 (l.v 0)) 31 24 = 0) →
        exec (.lesc h a sb) s = .next (finishWith ((lanesRead w s g).foldl (fun s l => exitThread s l.t.id)
          ((lanesRead w s g).foldl escalate (afterReads w s g))) g h (fun _ => g.clause.fall)))
    ∧ ∀ w : Spec, w = { h := h, srcs := [.src a false], pre := lresPre s } → Ready w s g →
        exec (.lres h a) s = .next (finishWith ((lanesRead w s g).foldl (fun s l => exitThread s l.t.id)
          ((lanesRead w s g).foldl resolve (afterReads w s g))) g h (fun _ => g.clause.fall))

/-! ## Copies and windows -/

namespace Sys2Proof.Claim

def cpySpec (h : Hd) (a b : Src) : Spec := { h := h, srcs := [.src a true, .src b true], b := true }

/-- The words that queue a copy command: their operands, and a lane's command where its operands keep the limits (R137, R138). -/
def commandForm : Instr → Option (Spec × (State → Grp → Lane → Option CopyCmd))
  | .cpyb h a b c none => some ({ h := h, srcs := [.src a true, .src b true, .src c false], dst := Dest.queue .cpc, b := true }, fun s g l => cpybCmd s g l none)
  | .cpyb h a b c (some k) => some ({ h := h, srcs := [.src a true, .src b true, .src c false, .src k true], dst := Dest.queue .cpc, b := true },
      fun s g l => cpybCmd s g l (some (l.v 3)))
  | .cploop h a b c none => some ({ h := h, srcs := [.src a true, .src b false, .src c false], dst := Dest.queue .cpc, b := true }, fun s g l => cploopCmd s g l none)
  | .cploop h a b c (some k) => some ({ h := h, srcs := [.src a true, .src b false, .src c false, .src k true], dst := Dest.queue .cpc, b := true },
      fun s g l => cploopCmd s g l (some (l.v 3)))
  | _ => none

/-- The operands of a window instruction. -/
def winSpec (h : Hd) (b : Bool) (w : SrcI) : Spec := { h := h, srcs := [Opnd.index w], b := b }

/-- The window operand of a lane. -/
def winArg (l : Lane) : Nat := elemAt 32 0 (l.v 0)

/-- The operand names a mapped window of the lane's core. -/
def isMapped (s : State) (l : Lane) : Prop := winArg l ≤ 15 ∧ ∃ x m, ownWindow s l (winArg l) = some x ∧ x.kind = .mapped m

/-- A slot with no granule. -/
def invalid (w : Window) : Window :=
  match w.kind with
  | .mapped m => { w with kind := .mapped { m with slots := m.slots.map (fun _ => { granule := none, dirty := 0#256 }) } }
  | _ => w

/-- The bind word of a row's lane: bit 15 unbinds, bit 8 names the stream, bits [3:0] the ring's window (R144). -/
def bindRow (s : State) (l : Lane) : State :=
  s.updRow l.t.core l.t.slot (fun r =>
    if (winArg l).testBit 8 then { r with st1 := if (winArg l).testBit 15 then none else some (winArg l % 16) }
    else { r with st0 := if (winArg l).testBit 15 then none else some (winArg l % 16) })

/-- The stream bindings of a gang's rows on a core to a window are removed. -/
def unbound (core gid win : Nat) (r : Row) : Row :=
  if r.core = core ∧ r.gang = gid then
    { r with st0 := if r.st0 = some win then none else r.st0, st1 := if r.st1 = some win then none else r.st1 }
  else r

end Sys2Proof.Claim

/-- R127, R136: CPY whose checks pass, with no counted hint on a global destination, issues one copy of each executing lane's bytes. -/
def Sys2Proof.Claim.CopyIssues : Prop :=
  ∀ (h : Hd) (hint : Hint) (a b : Src) (size : CpySize) (ssp dsp : Bool) (s : State) (g : Grp) (T U : Lane → Target), Ready (Claim.cpySpec h a b) s g →
    (hint = .counted → dsp = true) →
    (∀ l ∈ lanesRead (Claim.cpySpec h a b) s g,
      copySide (afterReads (Claim.cpySpec h a b) s g) l.t (l.v 0) (cpyBytes size) (cpyBytes size) ssp false = .ok (T l)
      ∧ copySide (afterReads (Claim.cpySpec h a b) s g) l.t (l.v 1) (cpyBytes size) (cpyBytes size) dsp true = .ok (U l)) →
      ∃ touch, exec (.cpy h hint a b size ssp dsp) s = .next (finishWord (watchHits (issueCopy (afterReads (Claim.cpySpec h a b) s g) g hint
        ((lanesRead (Claim.cpySpec h a b) s g).map (fun l =>
          { tid := l.t.id, size := cpyBytes size, sva := l.v 0, src := T l, dva := l.v 1, dst := U l }))) g touch) g h)

/-- R126, R137, R138: CPYB and CPLOOP whose operands keep the limits in every executing lane queue one command for each, in lane order. -/
def Sys2Proof.Claim.CopyCommandsQueue : Prop :=
  ∀ (i : Instr) (w : Spec) (mk : State → Grp → Lane → Option CopyCmd) (s : State) (g : Grp) (c : Lane → CopyCmd), Claim.commandForm i = some (w, mk) →
    Ready w s g → (∀ l ∈ lanesRead w s g, mk (afterReads w s g) g l = some (c l)) →
      exec i s = .next (finishWord (((lanesRead w s g).map c).foldl (fun s c => pushCmd (countUp s c.tid (none, c.setb)) g.core c) (afterReads w s g)) g w.h)

/-- R137: CPYB's command to a plain address: aligned, sixteen times LEN16 bytes, its sides, status bit and tag from the command word. -/
def Sys2Proof.Claim.CopyBlockCommand : Prop :=
  ∀ (s : State) (g : Grp) (l : Lane), (l.v 0).extractLsb' 0 4 = 0#4 → (l.v 1).extractLsb' 0 4 = 0#4 → (elemAt 32 0 (l.v 2)).testBit 24 = false →
    bitsAt (elemAt 32 0 (l.v 2)) 21 20 ≠ 3 → ∃ c, cpybCmd s g l none = some c ∧ c.src = l.v 0 ∧ c.dst = l.v 1 ∧ c.ring = none ∧ c.loop = false ∧ c.tid = l.t.id
      ∧ c.len = 16 * bitsAt (elemAt 32 0 (l.v 2)) 19 0 ∧ c.tag = bitsAt (elemAt 32 0 (l.v 2)) 31 28 ∧ c.ssp = (elemAt 32 0 (l.v 2)).testBit 27
      ∧ c.dsp = (elemAt 32 0 (l.v 2)).testBit 26 ∧ c.stat = (elemAt 32 0 (l.v 2)).testBit 25 ∧ c.ctr = none

/-- R139: CPSTAT issues; its value is the selected word, and with the wait form and selector 0 a value that waits for the thread's commands and copies. -/
def Sys2Proof.Claim.CopyStatusIssues : Prop :=
  ∀ (h : Hd) (wait : Bool) (d : Dst) (sel : SrcI) (w : Spec) (s : State) (g : Grp),
    w = { h := h, srcs := [Opnd.index sel], dst := Dest.ofDst d false, a := true } → Ready w s g →
      exec (.cpstat h wait d sel) s = .next (afterOps w s g ((lanesRead w s g).map (fun l =>
        (l, { kind := if wait = true ∧ Claim.winArg l = 0 then .cpwait else .value (BitVec.ofNat 64 (cpstatWord (afterReads w s g) l.t (Claim.winArg l))), va := 0#64 }))))

/-- R117, R140: GMAP whose checks pass enters its gang's list of mappings in progress, and the group waits at the word; it goes on when none of its members
is in such a mapping. -/
def Sys2Proof.Claim.GmapWaits : Prop :=
  ∀ (h : Hd) (a b c : Src) (w : Spec) (s : State) (g : Grp), w = { h := h, srcs := [.src a true, .src b false, .src c false] } →
    (∀ (l : Lane) (ls : List Lane), Ready w s g → g.run.issued = false → lanesRead w s g = l :: ls → gmapFault (afterReads w s g) l = none →
      exec (.gmap h a b c) s = .next (stallHold (markIssued ((afterReads w s g).updGang l.t.gang (fun x =>
        { x with gmaps := x.gmaps ++ [{ core := g.core, win := bitsAt (l.v 1).toNat 3 0, tids := g.mem.map Thread.id, base := l.v 0, ext := elemAt 32 0 (l.v 2) }] }))
        g h) g 9 0#64))
    ∧ (s.grp = some g → g.run.issued = true → (∀ x ∈ s.gangs, ∀ r ∈ x.gmaps, ∀ t ∈ g.mem, t.id ∉ r.tids) →
      exec (.gmap h a b c) s = .next (finishWord s g h))

/-- R141: GUNMAP and GFLUSH of a mapped window start its write-back, GINV invalidates its slots. -/
def Sys2Proof.Claim.MappedWindowWords : Prop :=
  ∀ (h : Hd) (w : SrcI) (s : State) (g : Grp) (l : Lane) (ls : List Lane),
    (Ready (Claim.winSpec h true w) s g → lanesRead (Claim.winSpec h true w) s g = l :: ls → Claim.isMapped (afterReads (Claim.winSpec h true w) s g) l →
      exec (.gunmap h w) s = .next (finishWord (issueWinWb (afterReads (Claim.winSpec h true w) s g) g (Claim.winArg l) true (l :: ls)) g h)
      ∧ exec (.gflush h w) s = .next (finishWord (issueWinWb (afterReads (Claim.winSpec h true w) s g) g (Claim.winArg l) false (l :: ls)) g h))
    ∧ (∀ x, Ready (Claim.winSpec h false w) s g → lanesRead (Claim.winSpec h false w) s g = l :: ls →
      Claim.isMapped (afterReads (Claim.winSpec h false w) s g) l → (afterReads (Claim.winSpec h false w) s g).gang l.t.gang = some x →
      exec (.ginv h w) s = .next (finishWord (updWindow (afterReads (Claim.winSpec h false w) s g) x.id (g.core - x.base) (Claim.winArg l) Claim.invalid) g h))

/-- R121, R125, R129, R142, R143: RINGCFG makes a plain window of the core a ring with every stage free, RINGCFG.off makes an idle ring a plain window and
unbinds the streams that named it, RREL releases the oldest stage in use. -/
def Sys2Proof.Claim.RingWords : Prop :=
  ∀ (h : Hd) (w : SrcI) (s u : State) (g : Grp) (l : Lane) (ls : List Lane), Ready (Claim.winSpec h false w) s g →
    lanesRead (Claim.winSpec h false w) s g = l :: ls → u = afterReads (Claim.winSpec h false w) s g →
    (∀ (x : Window) (ss : Nat), ss = bitsAt (Claim.winArg l) 7 4 + 1 → Claim.winArg l ≤ 65535 → ownWindow u l (Claim.winArg l % 16) = some x → x.kind = .plain →
      2 ≤ stageCount x.s ss → ringsOn u l.t.core < 8 → gmapOn u l (Claim.winArg l % 16) = false →
        exec (.ringcfg h w) s = .next (finishWord (updOwn u l (Claim.winArg l % 16) (fun y =>
          { y with kind := .ring (Ring.fresh (bitsAt (Claim.winArg l) 15 8) ss (stageCount y.s ss)) })) g h))
    ∧ (∀ r, Claim.winArg l ≤ 65535 → ringWin u l.t (Claim.winArg l % 16) = some r → ringIdle u l.t.core l.t.gang (Claim.winArg l % 16) r = true →
        exec (.ringcfgOff h w) s = .next (finishWord ({ updOwn u l (Claim.winArg l % 16) (fun y => { y with kind := .plain }) with
          rows := (updOwn u l (Claim.winArg l % 16) (fun y => { y with kind := .plain })).rows.map (Claim.unbound l.t.core l.t.gang (Claim.winArg l % 16)) }) g h))
    ∧ (∀ r x, Claim.winArg l ≤ 15 → ringWin u l.t (Claim.winArg l) = some r → r.inuse ≠ 0 → u.gang l.t.gang = some x →
        exec (.rrel h w) s = .next (finishWord (updRing u x.id (l.t.core - x.base) (Claim.winArg l) Ring.release) g h))

/-- R144: STBIND binds or unbinds a stream of each row with an executing member, by the word of the row's lowest lane. -/
def Sys2Proof.Claim.StreamsBind : Prop :=
  ∀ (h : Hd) (w : SrcI) (s : State) (g : Grp), Ready (Claim.winSpec h false w) s g →
    (∀ l ∈ rowLeads (lanesRead (Claim.winSpec h false w) s g), bindFault (afterReads (Claim.winSpec h false w) s g) l = false) →
      exec (.stbind h w) s = .next (finishWord ((rowLeads (lanesRead (Claim.winSpec h false w) s g)).foldl Claim.bindRow
        (afterReads (Claim.winSpec h false w) s g)) g h)

/-! ## The matrix array -/

namespace Sys2Proof.Claim

/-- The command words of the MTX group: their operands, what a row's operands must satisfy, and the command (R254 to R260). -/
def mtxForm : Instr → Option (Spec × (Lane → Prop) × (Lane → MtxKind))
  | .mwld h t glen a wm => some (mtxSpec h [.src a true], fun l => (l.v 0).toNat % 256 = 0, fun l => .wld t wm.val glen (l.v 0))
  | .mwswap h => some (mtxSpec h [], fun _ => True, fun _ => .wswap)
  | .mloop h t a b c e => some (mtxSpec h [.src a true, .src b true, .src c false, .src e false],
      fun l => (LoopWord.asrc (word32 (l.v 2)) = 0 → (l.v 0).toNat % 16 = 0)
        ∧ (LoopWord.wsrc (word32 (l.v 2)) = 1 ∨ LoopWord.wsrc (word32 (l.v 2)) = 2 → (l.v 1).toNat % 256 = 0) ∧ LoopWord.ok (word32 (l.v 2)) t = true,
      fun l => .loop t (l.v 0) (l.v 1) (word32 (l.v 2)) (word32 (l.v 3)))
  | .maccld h a m => some (mtxSpec h [.src a true, .src m false], fun l => (l.v 0).toNat % 16 = 0 ∧ 1 ≤ elemAt 32 0 (l.v 1) ∧ elemAt 32 0 (l.v 1) ≤ 64,
      fun l => .accld (l.v 0) (elemAt 32 0 (l.v 1)))
  | .maccst h a m => some (mtxSpec h [.src a true, .src m false], fun l => (l.v 0).toNat % 16 = 0 ∧ 1 ≤ elemAt 32 0 (l.v 1) ∧ elemAt 32 0 (l.v 1) ≤ 64,
      fun l => .accst (l.v 0) (elemAt 32 0 (l.v 1)))
  | .mdrain h a k m => some (mtxSpec h [.src a true, .src k false, .src m false],
      fun l => (l.v 0).toNat % 16 = 0 ∧ elemAt 32 0 (l.v 1) % 16 = 0 ∧ 1 ≤ elemAt 32 0 (l.v 2) ∧ elemAt 32 0 (l.v 2) ≤ 64,
      fun l => .drain (l.v 0) (elemAt 32 0 (l.v 1)) (elemAt 32 0 (l.v 2)))
  | .mepi h w c b => some (mtxSpec h [.src w false, .src c false, .src b true], fun l => (l.v 2).toNat % 16 = 0 ∧ epiOk (word32 (l.v 0)) = true,
      fun l => .epi (word32 (l.v 0)) (word32 (l.v 1)) (l.v 2))
  | .mzero h => some (mtxSpec h [], fun _ => True, fun _ => .zero)
  | _ => none

end Sys2Proof.Claim

/-- R240, R254 to R260: a command word whose operands keep its limits queues one command for each row with an executing member, in slot order. -/
def Obligations.MatrixCommandsQueue : Prop :=
  ∀ (i : Instr) (w : Spec) (ok : Lane → Prop) (k : Lane → MtxKind) (s : State) (g : Grp), Claim.mtxForm i = some (w, ok, k) → Ready w s g →
    (∀ l ∈ rowLeads (lanesRead w s g), ok l) →
      exec i s = .next (finishWord ((rowLeads (lanesRead w s g)).foldl (fun u l => pushMtx u g l (pushersOf (lanesRead w s g) l.t.slot) (k l))
        (afterReads w s g)) g w.h)

/-- R250, R257: MLOOP.resume and MLOOP.abort of a row whose own loop stands stopped: it goes on, or it ends; the row's pending ENGINE faults of the array
are cleared. -/
def Obligations.StoppedLoopWords : Prop :=
  ∀ (h : Hd) (w : Spec) (s : State) (g : Grp) (l : Lane) (x : Loop), w = { h := h, mtx := true } → Ready w s g → rowLeads (lanesRead w s g) = [l] →
    (∀ y ∈ lanesRead w s g, stoppedBy (afterReads w s g) y.t = some x) → stoppedBy (afterReads w s g) l.t = some x →
      exec (.mloopResume h) s = .next (finishWord (clearEngine (resumeLoop (afterReads w s g) g.core) g.core l.t.slot l.t.gang) g h)
      ∧ exec (.mloopAbort h) s = .next (finishWord (clearEngine (abortLoop (afterReads w s g) g.core x) g.core l.t.slot l.t.gang) g h)

/-! ## The words by family -/

/-! ## Results of INT and BIT, as numbers and bits -/

/-- R201 to R203: the elements of the INT group's results, as exact integers modulo 2^w. -/
def Sys2Proof.Claim.IntegerResults : Prop :=
  (∀ (t : ElemTy) (a b c : W64) (i : Nat), t.inI = true → i < ElemTy.elems t →
    (elemAt t.bits i (iadd t a b) : Int) = (intElem t i a + intElem t i b) % 2 ^ t.bits
    ∧ (elemAt t.bits i (isub t a b) : Int) = (intElem t i a - intElem t i b) % 2 ^ t.bits
    ∧ (elemAt t.bits i (imul t a b) : Int) = (intElem t i a * intElem t i b) % 2 ^ t.bits
    ∧ (elemAt t.bits i (imulhi t a b) : Int) = (intElem t i a * intElem t i b) / 2 ^ t.bits % 2 ^ t.bits
    ∧ (elemAt t.bits i (imad t a b c) : Int) = (intElem t i a * intElem t i b + intElem t i c) % 2 ^ t.bits
    ∧ (elemAt t.bits i (ineg t a) : Int) = (0 - intElem t i a) % 2 ^ t.bits
    ∧ (elemAt t.bits i (iabs t a) : Int) = ((intElem t i a).natAbs : Int) % 2 ^ t.bits
    ∧ intElem t i (imin t a b) = min (intElem t i a) (intElem t i b)
    ∧ intElem t i (imax t a b) = max (intElem t i a) (intElem t i b)
    ∧ intElem t i (iclamp t a b c) = min (max (intElem t i a) (intElem t i b)) (intElem t i c))
  ∧ (∀ (t : ElemTy) (a b c : W64), t.in64 = true →
    ((imadw t a b c).toNat : Int) = ((if ElemTy.signed t then (a.extractLsb' 0 32).toInt else (a.extractLsb' 0 32).toNat)
      * (if ElemTy.signed t then (b.extractLsb' 0 32).toInt else (b.extractLsb' 0 32).toNat) + (c.toNat : Int)) % 2 ^ 64)
  ∧ (∀ (t : ElemTy) (a b : W64) (p : Bool), t.inN = true →
    (iaddc t a b p).1.toNat + 2 ^ t.bits * (iaddc t a b p).2.toNat = elemAt t.bits 0 a + elemAt t.bits 0 b + p.toNat
    ∧ (iaddc t a b p).1.toNat < 2 ^ t.bits
    ∧ ((isubb t a b p).1.toNat : Int) - 2 ^ t.bits * (isubb t a b p).2.toNat = (elemAt t.bits 0 a : Int) - elemAt t.bits 0 b - p.toNat
    ∧ (isubb t a b p).1.toNat < 2 ^ t.bits)
  ∧ (∀ (t : ElemTy) (a b c : W64), t.inSad = true →
    ((isad t a b c).toNat : Int) = ((elemAt 32 0 c : Int) + ((List.range (ElemTy.elems t)).map (fun i => ((intElem t i a - intElem t i b).natAbs : Int))).sum) % 2 ^ 32)
  ∧ ∀ (sa sb : Bool) (a b c : W64),
    ((idot4 sa sb a b c).toNat : Int) = ((elemAt 32 0 c : Int) + ((List.range 4).map (fun i => asInt sa 8 (elemAt 8 i a) * asInt sb 8 (elemAt 8 i b))).sum) % 2 ^ 32
    ∧ ((idot8 sa sb a b c).1.toNat : Int) = ((elemAt 32 0 c : Int) + ((List.range 8).map (fun i =>
        (if sa && elemAt 4 i a == 8 then 0 else asInt sa 4 (elemAt 4 i a)) * (if sb && elemAt 4 i b == 8 then 0 else asInt sb 4 (elemAt 4 i b)))).sum) % 2 ^ 32
    ∧ ((idot8 sa sb a b c).2 = true ↔ ∃ i < 8, (sa = true ∧ elemAt 4 i a = 8) ∨ (sb = true ∧ elemAt 4 i b = 8))

/-- R206: the bits of the BIT group's results. -/
def Sys2Proof.Claim.BitResults : Prop :=
  (∀ (t : ElemTy) (lut : BitVec 8) (a b c : W64) (j : Nat), t.inB = true →
    (lop3 t lut a b c).getLsbD j = (decide (j < t.bits) && lut.getLsbD (4 * (a.getLsbD j).toNat + 2 * (b.getLsbD j).toNat + (c.getLsbD j).toNat)))
  ∧ (∀ (t : ElemTy) (a s : W64) (i j x n : Nat), t.inIB = true → i < ElemTy.elems t → j < t.bits → x = elemAt t.bits i a → n = elemAt t.bits i s →
    (elemAt t.bits i (shl t a s)).testBit j = (decide (n ≤ j) && x.testBit (j - n))
    ∧ (elemAt t.bits i (shr t a s)).testBit j = x.testBit (j + n)
    ∧ (elemAt t.bits i (sar t a s)).testBit j = (if j + n < t.bits then x.testBit (j + n) else (ElemTy.signed t || t == .b32) && x.testBit (t.bits - 1))
    ∧ (elemAt t.bits i (rotl t a s)).testBit ((j + n) % t.bits) = x.testBit j)
  ∧ (∀ (clamp : Bool) (hi lo amt : W64) (j n : Nat) (x : W64), x = hi.extractLsb' 0 32 ++ lo.extractLsb' 0 32 →
    n = (if clamp then min (elemAt 32 0 amt) 32 else elemAt 32 0 amt % 32) → j < 32 →
    (fshf clamp false hi lo amt).getLsbD j = (x <<< n).getLsbD (32 + j) ∧ (fshf clamp true hi lo amt).getLsbD j = (x >>> n).getLsbD j)
  ∧ (∀ (t : ElemTy) (a : W64), t.inB = true →
    (popc t a).toNat = ((List.range t.bits).filter (fun j => a.getLsbD j)).length
    ∧ (∃ k ≤ t.bits, (clz t a).toNat = k ∧ (∀ j < k, a.getLsbD (t.bits - 1 - j) = false) ∧ (k < t.bits → a.getLsbD (t.bits - 1 - k) = true))
    ∧ (∃ k ≤ t.bits, (ctz t a).toNat = k ∧ (∀ j < k, a.getLsbD j = false) ∧ (k < t.bits → a.getLsbD k = true))
    ∧ ∀ j, (brev t a).getLsbD j = (decide (j < t.bits) && a.getLsbD (t.bits - 1 - j)))
  ∧ (∀ (t : ElemTy) (a pl : W64) (j pos len : Nat), t.inB = true → pos = (pl.extractLsb' 0 8).toNat → len = (pl.extractLsb' 8 8).toNat → j < t.bits →
    (bfx t a pl).getLsbD j = (if j < len then (if pos + j < t.bits then a.getLsbD (pos + j) else ElemTy.signed t && a.getLsbD (t.bits - 1))
      else ElemTy.signed t && decide (0 < len) && (bfx t a pl).getLsbD (j - 1)))
  ∧ (∀ (t : ElemTy) (a pl c : W64) (j pos len : Nat), t.inB = true → pos = (pl.extractLsb' 0 8).toNat → len = (pl.extractLsb' 8 8).toNat → j < t.bits →
    (bfi t a pl c).getLsbD j = (if pos ≤ j ∧ j < pos + len then c.getLsbD (j - pos) else a.getLsbD j))
  ∧ ∀ (a b c : W64) (i k q : Nat) (x : W64), x = b.extractLsb' 0 32 ++ a.extractLsb' 0 32 → i < 4 → k < 8 → q = (c.extractLsb' (4 * i) 4).toNat →
    (perm a b c).getLsbD (8 * i + k) = (if q < 8 then x.getLsbD (8 * q + k) else x.getLsbD (8 * (q - 8) + 7))

/-! ## The whole of DROP, KEEP and FREE -/

/-- DROP, KEEP and FREE, and the bindings of SA, or none, on which a lane takes EXHAUST (R191 to R193). -/
def Sys2Proof.Claim.exhausts : Instr → Option (Hd × VName × (Option Binding → Bool))
  | .drop h a n => some (h, a, fun b => match b with
      | none => true
      | some b => b.count == 15#4 || decide (b.count.toNat < n.toNat))
  | .keep h a n => some (h, a, fun b => match b with
      | none => true
      | some b => b.count == 15#4 || decide (14 < b.count.toNat + n.toNat))
  | .free h a => some (h, a, fun b => match b with
      | none => true
      | some b => b.count != 15#4)
  | _ => none

/-- R190 to R193: where a lane fails, DROP, KEEP and FREE take EXHAUST with the failing lanes, and change the binding of none; a word of DROP with IMM16 above
14, and one of KEEP with IMM16 0 or above 14, is not a DROP or a KEEP. -/
def Sys2Proof.Claim.BindingWordsExhaust : Prop :=
  (∀ (i : Instr) (h : Hd) (a : VName) (f : Option Binding → Bool) (bad : List Lane) (s : State) (g : Grp), Claim.exhausts i = some (h, a, f) → Ready { h := h } s g →
    bad = (lanesRead { h := h } s g).filter (fun l => f (lookupName l.t a.val)) → bad ≠ [] →
      exec i s = .next (wordTrap (afterReads { h := h } s g) g 0x04 3 (BitVec.ofNat 64 a.val) (bad.map (fun l => l.t.id)) (replaysOf (lanesRead { h := h } s g))))
  ∧ ∀ (x : W64), ((x.extractLsb' 55 9 = 0x101#9 ∧ 14 < (x.extractLsb' 0 16).toNat)
      ∨ (x.extractLsb' 55 9 = 0x102#9 ∧ (x.extractLsb' 0 16 = 0#16 ∨ 14 < (x.extractLsb' 0 16).toNat))) → ∃ k, decode x = .error (.illop k)

/-! ## The words by groups -/

/-- R201 to R204: every word of the INT group that can issue issues, and its result in each executing lane is the exact one modulo 2^w. -/
def Obligations.IntegerGroup : Prop := Claim.IntegerWords ∧ Claim.IntegerResults

/-- R206: every word of the BIT group that can issue issues, and its result in each executing lane has the bits of the rule's table. -/
def Obligations.BitGroup : Prop := Claim.BitWords ∧ Claim.BitResults

/-- R208, R209, R219 to R223, R227: the words of the PRD and FLT groups, and the CVT words of a fixed latency. -/
def Obligations.PredicateFloatAndConversionWords : Prop := Claim.PredicateWords ∧ Claim.FloatWords ∧ Claim.ConversionWords ∧ Claim.V2pWritesPredicates

/-- R190 to R193: DROP, KEEP and FREE change the read count of a binding in each executing lane, or free it; where a lane's binding is not one that the word may
change, they take EXHAUST with those lanes and change none; and no word outside the limits of IMM16 is a DROP or a KEEP. -/
def Obligations.BindingCounts : Prop := Claim.DropCancelsReads ∧ Claim.KeepAddsReads ∧ Claim.FreeReleases ∧ Claim.BindingWordsExhaust

/-- R231, R232: the words of the SFU group issue, with the correctly rounded value where the model's interval decides it (log entry 19),
and with the draws of R232. -/
def Obligations.SfuWords : Prop := Claim.ApproximateFunctions ∧ Claim.RandomDraws

/-- R308, R309: NOP, BRA, BRX, RET, CALL and CALLX. -/
def Obligations.TransferWords : Prop := Claim.Transfers ∧ Claim.Calls

/-- R169, R261, R311, R312: WAITF, NAP, FENCE and MWAIT, where they wait and where they go on. Where the spec leaves the moment or a point open, this is
the model's choice (log entry 48). -/
def Obligations.WaitWords : Prop := Claim.WaitfWaits ∧ Claim.NapSleeps ∧ Claim.FenceAndMwaitWait

/-- R315 to R317: TJOIN, TLEAVE, TBAR and GBAR. Where the spec leaves the moment or a point open, this is the model's choice (log entries 31 and 56). -/
def Obligations.TeamWords : Prop := Claim.TeamsJoinAndLeave ∧ Claim.BarriersArrive

/-- R381, R388, R395: BKPT, TRAP and ERET. -/
def Obligations.TrapWords : Prop := Claim.BreakpointStops ∧ Claim.TrapTraps ∧ Claim.EretReturns

/-- R107, R146, R149 to R154: the loads and stores whose checks pass in every executing lane issue, at the addresses of R146. -/
def Obligations.MemoryWords : Prop := Claim.LoadsIssue ∧ Claim.StoresIssue ∧ Claim.EffectiveAddress

/-- R157 to R165, R344 to R349: the words that act at the home of a word, whose checks pass, send one operation of each executing lane. Where the spec
leaves the moment or a point open, this is the model's choice (log entry 8). -/
def Obligations.HomeWords : Prop := Claim.AtomicsIssue ∧ Claim.TaskWordsIssue

/-- R365 to R367: LSTART, LESC and LRES. -/
def Obligations.LadderWords : Prop := Claim.LadderStarts ∧ Claim.LadderWordsEnd

/-- R136, R139: CPY and CPSTAT. -/
def Obligations.CopyWords : Prop := Claim.CopyIssues ∧ Claim.CopyStatusIssues

/-- R126, R137, R138: CPYB and CPLOOP queue their commands. -/
def Obligations.CopyCommandWords : Prop := Claim.CopyCommandsQueue ∧ Claim.CopyBlockCommand

/-- R140, R141: GMAP, GUNMAP, GFLUSH and GINV. Where the spec leaves the moment or a point open, this is the model's choice (log entry 35). -/
def Obligations.WindowWords : Prop := Claim.GmapWaits ∧ Claim.MappedWindowWords

/-- R142 to R144: RINGCFG, RREL and STBIND. Where the spec leaves the moment or a point open, this is the model's choice (log entry 35). -/
def Obligations.StreamWords : Prop := Claim.RingWords ∧ Claim.StreamsBind

/-! ## Events of issue and cells -/

/-- R293, R296: an entry at a header whose clause can be fetched, with no fault pending, its WAIT and DIST holding and its pipe free, starts its clause when
it is selected; a row that stands whole at a rendezvous is merged into one entry. -/
def Sys2Proof.Claim.ClausesStart : Prop :=
  ∀ (core uid : Nat) (e : Entry) (s : State), s.entry core uid = some e → e.run = none →
    (∀ (c : Clause) (u : State), e.own = false → e.rdv = false → running s e.ctx = true → fetchClause s core e.ctx (s.members e) e.pc = .ok c u →
      u.entry core uid = some e → u.members e = s.members e → notchStage u core e.ctx (s.members e) c.hdr e.pc = none →
      ((u.ctx e.ctx).preempt = none ∨ c.hdr.notch = false) → hasXln c = false → waitHolds u e.ctx (s.members e) c.hdr = true →
      distHolds u e.ctx (s.members e) c.hdr = true → (u.core core).pipe (onA c.hdr.eng) = none →
        exec (.clauseStart core uid false) s = .next (beginClause u core uid (s.members e) c e.ctx))
    ∧ ∀ (slot : Nat), e.rdv = true → slot = ((s.members e).map Thread.slot).headD 0 → rowComplete s core slot e.ctx e.pc = true →
        exec (.rowRendezvous core uid) s = .next (mergeEntries s core (rowEntries s core slot e.ctx e.pc)).1

/-- R299, R300: a ready group of a fair context that has waited FAIRLIM clk becomes overdue now; a yield span that has run out ends. -/
def Sys2Proof.Claim.GroupTimers : Prop :=
  ∀ (core uid : Nat) (e : Entry) (s : State), s.entry core uid = some e →
    ((s.ctx e.ctx).promise.getLsbD 0 = true → e.overdueAt = none → (s.ctx e.ctx).fairlim.toNat ≤ e.ready →
      exec (.groupOverdue core uid) s = .next (s.updEntry core uid (fun e => { e with overdueAt := some s.clk })))
    ∧ (e.yieldEnd ≠ 0 → e.yieldEnd ≤ s.clk → exec (.yieldSpanEnd core uid) s = .next (s.updEntry core uid (fun e => { e with yieldEnd := 0 })))

/-- R58, R71, R72, R139, R149: a result that is due is bound; an operation's value arrives: a computed value at once, a load when its order allows it, and the
wait of CPSTAT when the thread has no command and no copy. -/
def Sys2Proof.Claim.ValuesArrive : Prop :=
  (∀ (tid tok : Nat) (t : Thread) (f : InFlight) (s : State), s.thread tid = some t → t.flight.find? (fun f => f.tok == tok) = some f → f.due ≤ s.clk →
    exec (.fixedLatencyBind tid tok) s = .next (bindDue s tid f))
  ∧ ∀ (id : Nat) (o : Op) (t : Thread) (s : State), s.op id = some o → s.thread o.tid = some t →
    (∀ v, o.kind = .value v → o.result = none → exec (.valueArrival id) s = .next (endOp (deliver s o v.toNat 8) o))
    ∧ (∀ w v, o.kind = .word w → o.result = some v → exec (.valueArrival id) s = .next (endOp (deliver (wordArrives s o) o v 8) o))
    ∧ (∀ tg n sx hint cnt u v, o.kind = .load tg n sx hint cnt → o.result = none → orderAllows s o = true → targetWaits s t o.id (settled s t o.va tg) = false →
      accessLate s o (settled s t o.va tg) n none = none → readTarget s t (settled s t o.va tg) n hint cnt (countsNow s t o (settled s t o.va tg)) = (u, v) →
        exec (.valueArrival id) s = .next (endOp (deliver u o (extended sx v) (if n = 16 then 16 else 8)) o))
    ∧ (∀ tg n sx hint cnt f u v, o.kind = .load tg n sx hint cnt → o.result = none → orderAllows s o = true → targetWaits s t o.id (settled s t o.va tg) = false →
      accessLate s o (settled s t o.va tg) n none = some f → s.peerRead n = (u, v) →
        exec (.valueArrival id) s = .next (endOp (deliver (lateRefused u o o.tid f o.va (settled s t o.va tg).pa) o (extended sx v) (if n = 16 then 16 else 8)) o))
    ∧ (∀ slot ty w r e, o.kind = .dqblk slot ty w r e → o.result = none → orderAllows s o = true →
      exec (.valueArrival id) s = .next (endOp (deliver s o (dqblkValue s slot ty w r e) 8) o))
    ∧ (o.kind = .cpwait → s.commandsOf t = 0 → s.copiesOf t = false → exec (.valueArrival id) s = .next (endOp (deliver s o (cpstatWord s t 0) 8) o))

/-- R181 to R183, R312: the arbiter of a lane chooses the youngest eligible thread with a free footprint, or owes QUOTA to the youngest eligible one; a victim
whose values have arrived is parked and its cells are held for the blocked word; the oldest parked thread that fits is reloaded; a NAP ends. -/
def Sys2Proof.Claim.CellsArbitrated : Prop :=
  (∀ (core lane : Nat) (b : Thread) (cap : Bool) (rest : List (Thread × Bool)) (v : Thread) (s : State), arbitrated s core lane = (b, cap) :: rest →
    (youngest ((eligible s b cap).filter (fun t => decide (0 < freePrints s t.core t.lane t.ctx))) = some v →
      exec (.allocationArbiter core lane) s = .next ((detach (s.updThread b.id (fun t => { t with blocked := t.blocked.map (fun x => { x with arb := true }) })) v.id).updThread
        v.id (fun t => { t with victimOf := some b.id, blocked := none })))
    ∧ (youngest ((eligible s b cap).filter (fun t => decide (0 < freePrints s t.core t.lane t.ctx))) = none → youngest (eligible s b cap) = some v →
      v.quotaDue = false → exec (.allocationArbiter core lane) s = .next (s.updThread v.id (fun t => { t with quotaDue := true }))))
  ∧ (∀ (tid b : Nat) (t : Thread) (s : State), s.thread tid = some t → t.victimOf = some b → holdsPending t = false → t.zombies = [] →
    exec (.threadEviction tid) s = .next (((s.updThread tid (fun t => { t with parked := true, spilled := true, victimOf := none })).updCtx t.ctx
      (fun c => { c with spillcnt := c.spillcnt + 1#64 })).updThread b (fun u => if u.blocked.isSome then { u with heldFor := u.heldFor + t.cells } else u)))
  ∧ (∀ (tid : Nat) (t : Thread) (s : State), s.thread tid = some t → reloadable s t = true → (∀ u ∈ s.laneThreads t.core t.lane, u.id < tid → reloadable s u = false) →
    t.halted = none → exec (.threadReload tid) s = .next (reenter (s.updThread tid (fun t => { t with parked := false, spilled := false })) tid))
  ∧ (∀ (tid k : Nat) (t : Thread) (s : State), s.thread tid = some t → t.nap = some k → (k ≤ s.clk ∨ napEarly s t = true) →
    exec (.napExpiry tid) s = .next (s.updThread tid (fun t => { t with nap := none })))

/-- R71, R72, R139, R181 to R183, R293 to R300, R312: the events of issue, binding and cells, each where it takes place. Where the spec leaves the moment
or a point open, this is the model's choice (log entries 1, 37, 56 and 59). -/
def Obligations.IssueEvents : Prop := Claim.ClausesStart ∧ Claim.GroupTimers ∧ Claim.ValuesArrive ∧ Claim.CellsArbitrated

/-! ## Events of the memory system -/

/-- R99, R150, R154, R229: a store that its order allows writes its bytes and its SETB counts down, one whose page has been retired since is refused; QBLK
writes its block and its scale. -/
def Sys2Proof.Claim.StoresPerformed : Prop :=
  ∀ (id : Nat) (o : Op) (t : Thread) (s : State), s.op id = some o → s.thread o.tid = some t → orderAllows s o = true →
    (∀ tg n hint data, o.kind = .store tg n hint data → targetWaits s t o.id (settled s t o.va tg) = false →
      accessLate s o (settled s t o.va tg) n (some (data.toNat % 2 ^ (8 * n))) = none →
      exec (.storePerformed id) s = .next (sweepThread ((countDown (pushedOut (writeTarget s t (settled s t o.va tg) n (data.toNat % 2 ^ (8 * n)) hint) t o
        (settled s t o.va tg)) o.tid o.setb).dropOp o.id) o.tid))
    ∧ (∀ tg n hint data f, o.kind = .store tg n hint data → targetWaits s t o.id (settled s t o.va tg) = false →
      accessLate s o (settled s t o.va tg) n (some (data.toNat % 2 ^ (8 * n))) = some f →
      exec (.storePerformed id) s = .next (sweepThread ((countDown (lateRefused s o o.tid f o.va (settled s t o.va tg).pa) o.tid o.setb).dropOp o.id) o.tid))
    ∧ (∀ src slot ty w r j, o.kind = .qblk src slot ty w r j → o.result = none → o.toks = [] →
      exec (.storePerformed id) s = .next (sweepThread ((countDown (qblkDo s src slot ty w r j).1 o.tid o.setb).dropOp o.id) o.tid))

/-- The translation entry that a walk leaves in a core: it replaces those of the same page. -/
def Sys2Proof.Claim.putTlb (ctx : Nat) (e : TlbEntry) (k : Core) : Core :=
  { k with tlb := k.tlb.filter (fun x => !(x.ctx == ctx && decide (e.va ≤ x.va) && decide (x.va < e.va + 2 ^ e.bits))) ++ [e] }

/-- R87, R88, R93, R104, R151: a line leaves an L1; a walk ends in the cores that asked for it; a line enters the Vale from memory or from its planes; a dirty
view line is split into its planes. -/
def Sys2Proof.Claim.LinesMove : Prop :=
  (∀ (core line : Nat) (s : State), l1Find s core line ≠ none → s.viewBusy (128 * line) = false → exec (.l1LineWriteBack core line) s = .next (l1Flush s core line))
  ∧ (∀ (die ctx page : Nat) (w : WalkReq) (s u : State), s.walks.find? (fun w => w.die == die && w.ctx == ctx && w.page == page) = some w →
    u = w.cores.foldl (fun u c => u.updCore c (Claim.putTlb ctx (walkPage s ctx page))) s →
      exec (.tlbMissWalk die ctx page) s = .next { u with walks := u.walks.filter (fun x => x != w) })
  ∧ (∀ (line ctx : Nat) (s : State), s.paKind (128 * line) = .device → s.valeFind line = none → s.pageRetired (128 * line) = false →
    exec (.valeFill line ctx) s = .next (s.fillDev line ctx))
  ∧ (∀ (line ctx n : Nat) (s : State), s.paKind (128 * line) = .view n → s.valeFind line = none → s.viewBusy (128 * line) = false →
    s.homeFault (128 * line) = none → exec (.colViewFill line ctx) s = .next (s.fillView n line ctx))
  ∧ ∀ (line n : Nat) (v : ValeLine) (s : State), s.paKind (128 * line) = .view n → s.valeFind line = some v →
    exec (.colWriteBackSplit line) s = .next ((s.cleanLine line).dropVale line)

/-- The state in which an operation acts on its word: a release hands its issuer's times to the line (R272; the model's choice, log entry 56). -/
def Sys2Proof.Claim.handsOn (s : State) (o : Op) (w : WordReq) : State :=
  if o.release = true then s.releaseAt (w.pa / 128) (s.threadTime o.tid) else s

/-- R94, R99, R157, R166: an operation reaches its home: in device memory it is performed, or refused and left without effect but for the value that it
answers; a wait is tested against the word and stays at the home; on a view, and on a page that has been retired since, it is refused. A waiting operation
whose time is up is answered with the word as it stands. -/
def Sys2Proof.Claim.HomesPerform : Prop :=
  ∀ (id : Nat) (o : Op) (w : WordReq) (s : State), s.op id = some o → o.kind = .word w →
    (o.result = none → w.here = false → orderAllows s o = true → submitReady s o w = true → s.viewBusy w.pa = false →
      (∀ u r, s.paKind w.pa = .device → s.pageRetired w.pa = false → s.dbgWindow w.pa = none → w.op.waits = false → w.cpl = false → (∀ q l, w.op ≠ .submit q l) →
        u = l1Flush s o.core (w.pa / 128) → r = wordDo (Claim.handsOn u o w) o w →
        exec (.homeWordOperation id) s = .next (wordEnd (if r.ok then r.s.updOp id (fun p => { p with result := some r.val }) else u.wordRefused o r.val) id))
      ∧ (∀ q l u r, w.op = .submit q l → s.paKind w.pa = .device → s.pageRetired w.pa = false → s.dbgWindow w.pa = none → w.cpl = false →
        u = submitFlush (l1Flush s o.core (w.pa / 128)) o l → r = wordDo (Claim.handsOn u o w) o w →
        exec (.homeWordOperation id) s = .next (wordEnd (if r.ok then r.s.updOp id (fun p => { p with result := some r.val }) else u.wordRefused o r.val) id))
      ∧ (∀ u v d x, s.paKind w.pa = .device → s.pageRetired w.pa = false → s.dbgWindow w.pa = none → w.op.waits = true → u = l1Flush s o.core (w.pa / 128) →
        u.homeRead (w.pa / 128) o.ctx = (v, d) → x = LineOps.get d (w.pa % 128) w.size →
        exec (.homeWordOperation id) s = .next (if State.waitRefused w.op w.pa x = true then u.wordRefused o (x % 2 ^ 32)
          else (v.updOp id (fun p => { p with kind := .word { w with here := true } })).wordTest o { w with here := true } d (awaitEarly u o w)))
      ∧ (∀ n u v, s.paKind w.pa = .view n → s.pageRetired w.pa = false → s.homeReadN w.pa w.size o.ctx = (u, v) →
        exec (.homeWordOperation id) s = .next (wordEnd (s.wordRefused o v) id))
      ∧ (∀ u v, s.paKind w.pa = .device → s.pageRetired w.pa = true → s.peerRead w.size = (u, v) →
        exec (.homeWordOperation id) s = .next (wordEnd ((lateRefused u o o.tid (0x0C, 3) o.va w.pa).updOp id (fun p => { p with result := some v })) id)))
    ∧ (∀ u d, w.here = true → o.result = none → awaitEarly s o w = true → s.paKind w.pa = .device → s.pageRetired w.pa = false → s.dbgWindow w.pa = none → s.homeRead (w.pa / 128) o.ctx = (u, d) →
      exec (.awaitLimitExpiry id) s = .next (u.wordTest o w d true))

/-- R87, R88, R93, R94, R104, R150, R151, R154, R157, R166, R229: the events of the memory system, each where it takes place. Where the spec leaves the
moment or a point open, this is the model's choice (log entries 1, 8, 11, 52 and 56). -/
def Obligations.MemoryEvents : Prop := Claim.StoresPerformed ∧ Claim.LinesMove ∧ Claim.HomesPerform

/-- The 8-byte word at a physical address as its home holds it. -/
def Sys2Proof.Claim.homeWord64 (s : State) (pa : Nat) : W64 := BitVec.ofNat 64 (LineOps.get (s.devLine (pa / 128)) (pa % 128) 8)

/-- R162: the word refuses every operation. -/
def Sys2Proof.Claim.refuses (w : W64) (pa : Nat) : Prop :=
  (w.getLsbD 63 = true ∧ w.extractLsb' 48 14 ≠ 0#14) ∨ (w.getLsbD 63 = false ∧ (w.extractLsb' 32 29 ≠ 0#29 ∨ (w.getLsbD 62 = true ∧ pa % 128 ≠ 8)))

/-- R162 to R164, R168: what CNTDEC of n does to the word at its home. A word with reserved bits set, or a task counter at a wrong place, stays as it is and
the operation is refused. A counter goes down by n, or to zero with UF set. A barrier counts n arrivals: at EXPECT the phase ends. No other byte of memory
changes (a task counter that fires, which appends its task, is left to R326). -/
def Obligations.CounterAndBarrierWords : Prop :=
  ∀ (s : State) (c pa n count arrived expect phase : Nat) (va w x : W64) (r : WordOut), s.paKind (128 * (pa / 128)) = .device → s.dbgOwner (pa / 128) = none →
    s.pageRetired (128 * (pa / 128)) = false → Memory.wf s.mem = true → pa % 8 = 0 → n < 2 ^ 32 → w = Claim.homeWord64 s pa → r = decrement s c va pa n → x = Claim.homeWord64 r.s pa →
    count = (w.extractLsb' 0 32).toNat → arrived = (w.extractLsb' 0 16).toNat → expect = (w.extractLsb' 16 16).toNat → phase = (w.extractLsb' 32 16).toNat →
    (Claim.refuses w pa → r.ok = false ∧ ∀ a, homeByte r.s a = homeByte s a)
    ∧ (¬ Claim.refuses w pa → w.getLsbD 63 = false → (w.getLsbD 62 = false ∨ n < count ∨ count = 0 ∨ n = 0) →
        r.ok = true ∧ (x.extractLsb' 0 32).toNat = count - n ∧ x.getLsbD 61 = (w.getLsbD 61 || decide (count < n)) ∧ x.getLsbD 62 = w.getLsbD 62 ∧ x.getLsbD 63 = false
        ∧ x.extractLsb' 32 29 = 0#29 ∧ ∀ a, a < pa ∨ pa + 8 ≤ a → homeByte r.s a = homeByte s a)
    ∧ (¬ Claim.refuses w pa → w.getLsbD 63 = true →
        r.ok = true ∧ x.getLsbD 63 = true ∧ (x.extractLsb' 16 16).toNat = expect ∧ x.extractLsb' 48 14 = 0#14
        ∧ (if (expect ≤ arrived + n ∧ 0 < n) ∨ expect = 0
           then (x.extractLsb' 0 16).toNat = 0 ∧ (x.extractLsb' 32 16).toNat = (phase + 1) % 65536 ∧ x.getLsbD 62 = (w.getLsbD 62 || decide (expect < arrived + n))
             ∧ r.val = 2 ^ 31 + phase
           else (x.extractLsb' 0 16).toNat = arrived + n ∧ (x.extractLsb' 32 16).toNat = phase ∧ x.getLsbD 62 = w.getLsbD 62 ∧ r.val = phase)
        ∧ ∀ a, a < pa ∨ pa + 8 ≤ a → homeByte r.s a = homeByte s a)

/-! ## Errors -/

/-- R97 to R100, R235, R383: what each error of a memory or a core does: it is counted, or the owner's context ends with RAS, the page is retired and the
place is logged. -/
def Sys2Proof.Claim.ErrorsHandled : Prop :=
  (∀ (line : Nat) (s : State), (s.valeFind line ≠ none ∨ lockedOwner s line ≠ none) → exec (.valeCorrectableError line) s = .next { s with cecnt := s.cecnt + 1 })
  ∧ (∀ (line : Nat) (v : ValeLine) (s : State), s.valeFind line = some v → v.dirty = false →
    exec (.valeCleanUncorrectable line) s = .next (countCorrected ((s.dropVale line).fillHome line v.owner)))
  ∧ (∀ (line way : Nat) (v : ValeLine) (s : State), s.valeFind line = some v → v.dirty = true →
    exec (.valeDirtyUncorrectable line way) s = .next (rasSteps s line v.owner way 1))
  ∧ (∀ (line way : Nat) (s : State), s.valeFind line = none →
    exec (.valeDirtyUncorrectable line way) s = .next (((lockedOwner s line).map (fun c => rasSteps s line c way 1)).getD s))
  ∧ (∀ (line c : Nat) (q : W64) (s u : State), s.paKind (128 * line) = .device → s.valeFind line = none → s.free = (q, u) →
    exec (.stackReadUncorrectable line c) s = .next (rasSteps u line c ((openWays u line).getD (q.toNat % (openWays u line).length) 0) 2))
  ∧ (∀ (core c : Nat) (st : CoreStore) (s : State), ownsIn s core c st = true → st ≠ .parityStore → st ≠ .l1Clean →
    exec (.coreSoftError core c st true) s = .next (killContext s c 0x0C) ∧ exec (.coreSoftError core c st false) s = .next { s with cecnt := s.cecnt + 1 })
  ∧ (∀ (core c : Nat) (s : State), ownsIn s core c .l1Clean = true →
    exec (.coreSoftError core c .l1Clean true) s = .next (dropCleanLine s core c) ∧ exec (.coreSoftError core c .l1Clean false) s = .next { s with cecnt := s.cecnt + 1 })
  ∧ ∀ (core gid : Nat) (g : Gang) (a : W64) (s u : State), (s.core core).array.gang = some gid → s.gang gid = some g → s.free = (a, u) →
    exec (.arrayParityError core) s = .next (rasLog (killContext u g.ctx 0x0C) 2 core g.ctx 5 a.toNat 0#64)

/-- R91, R382: once no flush holds its lines back, a page whose digest agrees with the list is verified; one whose digest differs, or which cannot be read, is not,
and each fetching thread takes CODEINT, after a line of the error log where it cannot be read (R110). -/
def Sys2Proof.Claim.PagesVerified : Prop :=
  ∀ (c page d : Nat) (entry : W64) (s : State), page ∈ (s.ctx c).verifying → pageWaits s c page = false → digestOf s c page = .listed d entry →
    exec (.pageVerify c page) s = .next (if pageDigest s c page = some d then (s.updCtx c (fun x =>
        { x with verifying := x.verifying.filter (fun p => p != page) })).updCtx c (fun x => { x with verified := x.verified.filter (fun p => p.1 != page) ++ [(page, entryPas s c entry)] })
      else (codeIntegrity ((pageRefused s c page).elim s (checkRefused s c page)) c page 1).updCtx c (fun x => { x with verifying := x.verifying.filter (fun p => p != page) }))

/-- R97 to R100, R235, R382, R383: the events of errors and of the check of a code page. Where the spec leaves the moment or a point open, this is the
model's choice (log entries 11, 27 and 36). -/
def Obligations.ErrorEvents : Prop := Claim.ErrorsHandled ∧ Claim.PagesVerified

/-! ## Events of copies and windows -/

/-- R122, R126, R131, R132: the first command of the queue that may start starts; a ring fill takes the stage at FPTR; a line operation whose two sides can be
accessed moves its bytes and advances; a command without a counter word is complete once its bytes have been performed. -/
def Sys2Proof.Claim.CopyCommandsRun : Prop :=
  (∀ (core : Nat) (before rest : List CpEntry) (c : CopyCmd) (s u : State), u = s.updCore core refillQueue →
    nextCommand u [] (u.core core).cpq = some (before, .cmd c, rest) → slotsUsed (u.core core) < Config.cpRun → acquiring u c.tid c.id = false →
      exec (.copyCommandStart core) s = .next ((u.updCore core (fun k => refillQueue { k with cpq := before ++ rest })).updCore core (fun k =>
        { k with cprun := k.cprun ++ [{ cmd := c, prog := 0, iter := 0, stage := none, atEnd := false, waits := c.ring.isSome && !fillReady u core c, lines := [] }] })))
  ∧ (∀ (core cmd w : Nat) (r : CopyRun) (g : Ring) (s : State), runOf s core cmd = some r → r.cmd.ring = some w → r.stage = none → r.atEnd = false →
    engineRuns s r.cmd.ctx = true → fillReady s core r.cmd = true → (r.waits = true → slotsUsed (s.core core) < Config.cpRun) → cmdRing s core r.cmd = some (w, g) →
      exec (.ringFillStart core cmd) s = .next (updRun (updCmdRing s core r.cmd (fun x =>
        { x with stages := x.stages.set x.fptr .filling, fptr := (x.fptr + 1) % max 1 x.ns, holder := if r.cmd.loop then some cmd else x.holder })) core cmd (fun r => { r with stage := some g.fptr, waits := false })))
  ∧ (∀ (core cmd n v : Nat) (r : CopyRun) (src dst : W64) (x y : Target) (s u : State), runOf s core cmd = some r → r.atEnd = false → engineRuns s r.cmd.ctx = true →
    (r.cmd.ring ≠ none → r.stage ≠ none) → slotWaits s core r = false → lineSpan s core r = (src, dst, n) → fillWaits s core r n = false → lineSide s core r.cmd src n r.cmd.ssp false = .ok x →
    lineSide s core r.cmd dst n r.cmd.dsp true = .ok y → engineWaits s core r.cmd.gang x = false → engineWaits s core r.cmd.gang y = false →
    engineRead (touch s core r.cmd (countedSpan s r.cmd src x) x (lastTouch s core r src n x)) core r.cmd.ctx r.cmd.gang x n r.cmd.shn
      (lastTouch s core r src n x) = (u, v) → windowLate u r.cmd.ctx y n (some v) = none →
      exec (.copyLineOp core cmd) s = .next (advance (engineWrite u core r.cmd.ctx r.cmd.gang y n v r.cmd.dhn) core { r with waits := false } n y))
  ∧ (∀ (core cmd : Nat) (r : CopyRun) (s : State), runOf s core cmd = some r → r.atEnd = true → engineRuns s r.cmd.ctx = true → r.cmd.ctr = none →
      exec (.counterDecrementSend core cmd) s = .next (copyEnds s core r))
  ∧ ∀ (core cmd : Nat) (va : W64) (r : CopyRun) (g : Gang) (k : Task) (tg : Target) (s u : State) (o : WordOut), runOf s core cmd = some r → r.atEnd = true →
    engineRuns s r.cmd.ctx = true → r.cmd.ctr = some va → s.gang r.cmd.gang = some g → s.task r.cmd.task = some k → checkGlobal s core g k (wordAcc va 8 8) = .ok tg →
    s.viewBusy tg.pa = false → (∀ l ∈ r.lines, s.viewBusy (128 * l) = false) → u = r.lines.foldl (fun u l => lineHome u core r.cmd.gang l) s →
    u.paKind tg.pa = .device → u.dbgWindow tg.pa = none → o = decrement (((l1Flush u core (tg.pa / 128)).stampWrite (tg.pa / 128)).releaseAt (tg.pa / 128) ((l1Flush u core (tg.pa / 128)).threadTime r.cmd.tid))
      r.cmd.ctx va tg.pa 1 →
      exec (.counterDecrementSend core cmd) s = .next (if o.ok = true then copyEnds o.s core r
        else copyFails (l1Flush u core (tg.pa / 128)) core r 2 0x07 6 (r.cmd.iters * r.cmd.len) va)

/-- The lanes of a copy whose threads are there. -/
def Sys2Proof.Claim.copyLanes (s : State) (lanes : List CopyLane) : List (Thread × CopyLane) := lanes.filterMap (fun l => (s.thread l.tid).map (fun t => (t, l)))

/-- Where a lane of a copy reads and writes when it is performed. -/
def Sys2Proof.Claim.copySrc (s : State) (p : Thread × CopyLane) : Target := settled s p.1 p.2.sva p.2.src
def Sys2Proof.Claim.copyDst (s : State) (p : Thread × CopyLane) : Target := settled s p.1 p.2.dva p.2.dst

/-- R127, R130: a copy that its order allows reads every source and then writes the destinations in lane order; a counted one counts its sources. A lane whose
page has been retired since its check is refused (R99). -/
def Sys2Proof.Claim.CopiesPerformed : Prop :=
  ∀ (id : Nat) (o : Op) (hint : Hint) (lanes : List CopyLane) (ok : List (Thread × CopyLane)) (vs : List Nat) (w : List ((Thread × CopyLane) × Nat))
    (s u : State), s.op id = some o → o.kind = .copy hint lanes → orderAllows s o = true →
    (∀ p ∈ Claim.copyLanes s lanes, targetWaits s p.1 o.id (Claim.copySrc s p) = false ∧ targetWaits s p.1 o.id (Claim.copyDst s p) = false) →
    ok = (Claim.copyLanes s lanes).filter (fun p => (copyLate s o p).isNone) → copyReads s hint (Claim.copySrc s) ok = (u, vs) → w = writable s o (ok.zip vs) →
      exec (.copyPerformed id) s = .next (copyFinish ((ok.zip vs).foldl (refuseValue s o) ((Claim.copyLanes s lanes).foldl (refuseLate s o)
        (copyWrites (if hint = .counted then countSources u o.core (ok.map (fun p => (p.1.gang, Claim.copySrc s p))) else u) hint (Claim.copyDst s)
          (w.map Prod.fst) (w.map Prod.snd)))) o lanes)

/-- R116, R117, R141: a GMAP in progress completes: the window is mapped with empty slots; the first touch of a granule fills its slot; the oldest GUNMAP or
GFLUSH of a window is performed once its dirty bytes are written back, and a GUNMAP takes the L1 lines of its range out of the gang's cores (R270). -/
def Sys2Proof.Claim.WindowsServed : Prop :=
  (∀ (core win : Nat) (g : Gang) (r : GmapReq) (s u : State), s.gangs.find? (fun g => g.gmaps.any (fun r => r.core == core && r.win == win)) = some g →
    g.gmaps.find? (fun r => r.core == core && r.win == win) = some r → running s g.ctx = true →
    u = (List.range g.cores).foldl (fun u c => l1RangeVa u (g.base + c) g.ctx r.base.toNat (256 * r.ext) true) s →
      exec (.gmapCompletion core win) s = .next (retarget ((updWindow u g.id (core - g.base) win (fun w =>
        { w with kind := .mapped { base := r.base, ext := r.ext, slots := List.replicate w.s { granule := none, dirty := 0#256 } } })).updGang g.id
          (fun g => { g with gmaps := g.gmaps.filter (fun x => x != r) })) g.id))
  ∧ (∀ (core win granule : Nat) (g : Gang) (rest : List Gang) (va : W64) (pa : Nat) (s : State),
    s.gangs.filter (fun g => g.saved.isNone && decide (g.base ≤ core) && decide (core < g.base + g.cores)) = g :: rest →
    touching s g (core - g.base) win granule = some (va, pa) →
      exec (.windowFill core win granule) s = .next (windowTouch s g.id (core - g.base) win va pa).1)
  ∧ ∀ (core win : Nat) (o : Op) (unmap : Bool) (tids : List Nat) (t : Thread) (g h : Gang) (s u : State),
    s.ops.find? (Op.ofWindow core win) = some o → o.kind = .winWb core win unmap tids → s.thread o.tid = some t → s.gang t.gang = some g →
    u = windowClean (if unmap = true then unmapLines s g (core - g.base) win else s) g (core - g.base) win → u.gang g.id = some h →
      exec (.windowWriteBackDone core win) s = .next (tids.foldl sweepThread ((tids.foldl (fun s t => countDown s t o.setb)
        (if unmap = true then unmapWindow u h (core - h.base) win else u)).dropOp o.id))

/-- R116, R117, R122, R126, R127, R130 to R132, R141: the events of the copy engine and the windows. Where the spec leaves the moment or a point open,
this is the model's choice (log entries 1, 23, 35, 52 and 63). -/
def Obligations.CopyEvents : Prop := Claim.CopyCommandsRun ∧ Claim.CopiesPerformed ∧ Claim.WindowsServed

/-! ## Events of the matrix array -/

/-- R241, R242, R244: the oldest queued command begins where the table of R241 lets it: a loop with its planes and step count, a load of weights with its
shadow plane, any other with its effect; it completes with the count-down of each pusher. -/
def Sys2Proof.Claim.CommandsBeginAndEnd : Prop :=
  (∀ (core : Nat) (c : MtxCmd) (rest : List MtxCmd) (s u : State), (arrayOf s core).queue = c :: rest → engineRuns s c.ctx = true → mayBegin (arrayOf s core) c = true →
    (∀ p ∈ c.pushers, acquiring s p.1 c.id = false) → u = updArray s core (fun a => { a with queue := rest }) →
      (∀ act a b word stride, c.kind = .loop act a b word stride →
        exec (.mtxCommandBegin core) s = .next (updArray u core (fun a => beginLoop a c act word)))
      ∧ (∀ ty wm glen base, c.kind = .wld ty wm glen base → (glen = false ∨ ∃ p, glenPlace u c.gang base (tileBytes ty wm) = .ok p) →
        exec (.mtxCommandBegin core) s = .next (updArray u core (fun a =>
          { a with shadow := if (loadingTile a).isSome then a.shadow else { status := 1, ty := ty, wm := wm, data := [] }, flight := a.flight ++ [(c, a.epi)] })))
      ∧ (∀ v, c.kind ∈ [MtxKind.wswap, .zero] ∨ (∃ x m, c.kind = .accld x m ∨ c.kind = .accst x m) ∨ (∃ x y m, c.kind = .drain x y m) ∨ (∃ x y z, c.kind = .epi x y z) →
        beginEffect u core c = .ok v →
          exec (.mtxCommandBegin core) s = .next (updArray v core (fun a => { a with flight := a.flight ++ [(c, a.epi)] }))))
  ∧ (∀ (core : Nat) (c : MtxCmd) (e : Epi) (s : State), (arrayOf s core).flight.find? (fun p => !isWld p.1 || (loadingTile (arrayOf s core) == some p.1 &&
      (arrayOf s core).shadow.status == 2)) = some (c, e) →
        exec (.mtxCommandComplete core) s = .next (sweepRow (deliverPushers (updArray s core (fun a => leaveFlight a c)) c) core c.slot c.gang))
  ∧ ∀ (core : Nat) (l : Loop) (s : State), (arrayOf s core).flight = [] → loopFinished (arrayOf s core) = some l →
        exec (.mtxCommandComplete core) s = .next (loopEnds s core l)

/-- R243 to R247, R249: a tile whose lines are fetched fills the shadow plane; a step with its weights and its panel adds its products; entries that are due are
delivered; a load of weights or a step that fails is abandoned, or stops its loop. -/
def Sys2Proof.Claim.LoopsStep : Prop :=
  (∀ (core : Nat) (c : MtxCmd) (l : Option Loop) (lines : List Line) (s u : State), fetchNow s core = some (c, l, .ok lines u) →
    exec (.tileFetchComplete core) s = .next (updArray u core (fun a => exchange { a with shadow := { a.shadow with status := 2, data := lines } })))
  ∧ (∀ (core : Nat) (l : Loop) (act : ElemTy) (addr b : W64) (word stride : W32) (rows : List Nat) (s u v : State), (arrayOf s core).loop = some l →
    l.cmd.kind = .loop act addr b word stride → l.stopped = false → engineRuns s l.cmd.ctx = true → (arrayOf s core).mprog < LoopWord.steps word →
    tileReady (arrayOf s core) l act word = some true → drainRoom s core l word (arrayOf s core).mprog = true →
    panelOf s core l act addr word stride (arrayOf s core).mprog = .ok rows u → v = updArray u core (fun a => addStep a act rows l.kind32) →
      exec (.loopStep core) s = .next (updArray v core (fun a => exchange { a with loop := a.loop.map (fun x => { x with
        drain := if LoopWord.steps word ≤ (arrayOf v core).mprog ∧ LoopWord.out word = true then drainList v core (arrayOf v core) l word else [] }) })))
  ∧ (∀ (core : Nat) (l : Loop) (s : State), (arrayOf s core).loop = some l → (∃ d ∈ l.drain, d.1 ≤ s.clk) →
    exec (.drainDelivery core) s = .next (updArray ((l.drain.filter (fun d => decide (d.1 ≤ s.clk))).foldl (fun u d =>
        u.updThread d.2.1 (fun t => if t.exited then t else { t with mxo := t.mxo ++ [d.2.2] })) s) core
      (fun a => { a with loop := a.loop.map (fun x => { x with drain := x.drain.filter (fun d => !decide (d.1 ≤ s.clk)) }) })))
  ∧ (∀ (core : Nat) (c : MtxCmd) (f : MtxFault) (s : State), fetchNow s core = some (c, none, .bad f) →
    exec (.engineFailure core) s = .next (abandon (updArray (dropBadTlb s core c.ctx f.addr) core (fun a => leaveFlight { a with shadow := Plane.empty } c)) core c f))
  ∧ ∀ (core : Nat) (l : Loop) (f : MtxFault) (s u : State), fetchNow s core = none → loopFailure s core = some (l, f, u) →
    exec (.engineFailure core) s = .next (stopLoop (dropBadTlb u core l.cmd.ctx f.addr) core l f)

/-- R241 to R247, R249: the events of the matrix array. Where the spec leaves the moment or a point open, this is the model's choice (log entries 32, 54 and 62). -/
def Obligations.MatrixEvents : Prop := Claim.CommandsBeginAndEnd ∧ Claim.LoopsStep

/-! ## Events of tasks -/

/-- R331 to R334, R338: the task that its context dispatches next is taken up, or refused with the least reason that applies, after the reads that were refused
have been logged (R110); its next gang is placed on a block that can seat it, on a running die; a gang with nothing left to do retires. -/
def Sys2Proof.Claim.TasksRun : Prop :=
  (∀ (task : Nat) (k : Task) (s u : State), s.task task = some k → dispatchable s k = true → k.lobj = none →
    u = writeUsed (readsRefused (s.updCtx k.ctx (fun c => { c with dispatched := true })) 3 k.ctx (dispatchChecks s k).refusedReads) k (dispatchChecks s k).used →
    (leastReason (dispatchChecks s k).reasons = 0 → exec (.taskDispatch task) s = .next (takeForwards (u.updTask task (fun x =>
      { x with used := (dispatchChecks s k).used.getD 0#64, grec := (dispatchChecks s k).grec, dispatched := true })) k))
    ∧ (leastReason (dispatchChecks s k).reasons ≠ 0 → exec (.taskDispatch task) s = .next (refuseTask u k 3 (leastReason (dispatchChecks s k).reasons))))
  ∧ (∀ (task base rpc : Nat) (k : Task) (g : GangRec) (slots : List (List Nat)) (s u : State), s.task task = some k → k.grec = some g →
    rpc = (g.threads + g.cores * Config.W - 1) / (g.cores * Config.W) → k.dispatched = true → k.ladder = none → engineRuns s k.ctx = true → k.fail = 0 →
    k.placed < ctlGangs k.ctl.toNat → k.state ≤ 3 → blockOk base g = true → blockSlots s base rpc g = some slots → dieReady s (dieOf base) = some none →
    u = (placeGang s k g base g.threads slots (BitVec.ofNat 32 k.placed) k.used rpc (fun t => t)).updTask task (fun x =>
      { x with placed := x.placed + 1, cores := sortNats (dedupNats (k.cores ++ (List.range g.cores).map (fun i => base + i))), state := 3 }) →
      exec (.gangPlacement task base) s = .next (if k.state = 3 then u else publish u task))
  ∧ ∀ (gang : Nat) (g : Gang) (s u : State), s.gang gang = some g → retires s g = true → u = (freeGang s g).updTask g.task (fun k =>
      { k with retired := k.retired + 1, ladder := k.ladder.map (fun l => { l with retired := l.retired + 1 }) }) →
      exec (.gangRetirement gang) s = .next (afterRetire (publish u g.task) g.task)

/-- R339, R340: a task at its edge, by its cursor: a line of a written region is written back, then the next region; one successor is decremented, then the next;
the signal is written and the task is DONE. -/
def Sys2Proof.Claim.EdgesRun : Prop :=
  ∀ (task : Nat) (k : Task) (s : State), s.task task = some k → k.state = 4 → engineRuns s k.ctx = true →
    (k.cursor.ph = 1 →
      (k.regions[k.cursor.rix]? = none → exec (.edgeWriteBackLine task) s = .next (edgeFrom s k k.cursor.rix))
      ∧ (∀ r, k.regions[k.cursor.rix]? = some r → (r.edges = false ∨ r.bytes ≤ k.cursor.off) →
        exec (.edgeWriteBackLine task) s = .next (edgeFrom s k (k.cursor.rix + 1)))
      ∧ (∀ r pa, k.regions[k.cursor.rix]? = some r → r.edges = true → k.cursor.off < r.bytes →
        translateDirect s k.ctx (BitVec.ofNat 64 (r.base + k.cursor.off)) { r := false, w := false, x := false } = .ok pa → s.viewBusy pa = false →
        exec (.edgeWriteBackLine task) s = .next (if k.cursor.off + 128 < r.bytes
          then setCursor (edgeLine s k r (pa / 128)) task 1 k.cursor.rix 0 (k.cursor.off + 128) else edgeFrom (edgeLine s k r (pa / 128)) k (k.cursor.rix + 1))))
    ∧ (k.cursor.ph = 2 →
      (successors k ≤ k.cursor.six → exec (.successorDecrement task) s = .next (setCursor s task 3 0 0 0))
      ∧ (∀ l, k.cursor.six < successors k → k.succl = none → readList s k = .ok l →
        exec (.successorDecrement task) s = .next (s.updTask task (fun k => { k with succl := some l })))
      ∧ (∀ l, k.cursor.six < successors k → k.succl = some l →
        exec (.successorDecrement task) s = .next (if k.cursor.six + 1 < successors k
          then setCursor (decrementSuccessor s k l k.cursor.six) task 2 0 (k.cursor.six + 1) 0 else setCursor (decrementSuccessor s k l k.cursor.six) task 3 0 0 0)))
    ∧ (k.cursor.ph = 3 → ∀ (u1 u2 u3 v : State) (ctl siga sigv : Nat) (va : W64), unitRead s k.ctx (k.recAddr + 0x18#64) 8 = .ok (u1, ctl) →
      unitRead s k.ctx (k.recAddr + 0x40#64) 8 = .ok (u2, siga) → unitRead s k.ctx (k.recAddr + 0x48#64) 8 = .ok (u3, sigv) →
      va = BitVec.ofNat 64 (bitsAt siga 47 3 * 8) →
      (va = 0#64 → exec (.signalWrite task) s = .next (endTask s k 5))
      ∧ (va ≠ 0#64 → unitWord s k.ctx va sigv s.startClock = (v, none) →
        exec (.signalWrite task) s = .next (endTask (if bitsAt ctl 31 24 = 0 then v else v.notify (bitsAt ctl 31 24) k.ctx) k 5))
      ∧ (∀ code sub a, va ≠ 0#64 → unitWord s k.ctx va sigv s.startClock = (v, some (code, sub, a)) →
        exec (.signalWrite task) s = .next (endTask (v.logRefused 3 k.ctx 0 true a code sub 0#64) k 5)))

/-- R331 to R334, R338 to R340: the events of the task engines. Where the spec leaves the moment or a point open, this is the model's choice (log entries
21, 22, 34 and 46). -/
def Obligations.TaskEvents : Prop := Claim.TasksRun ∧ Claim.EdgesRun

/-! ## Events of ladders -/

/-- R351, R352, R357: a ladder task whose record and object keep their limits is taken up: its result entries and its watermark read zero, and the launches of
rung 0 are due; one whose record or object does not is refused. -/
def Sys2Proof.Claim.LaddersDispatch : Prop :=
  ∀ (task : Nat) (k : Task) (s u : State), s.task task = some k → dispatchable s k = true → k.lobj ≠ none → u = s.updCtx k.ctx (fun c => { c with dispatched := true }) →
    (∀ (l : Ladder) (r : RungState) (rs : List RungState) (v w : State), ladderTaskReason u k = 0 → readLadder u k = .ok l → l.rungs = r :: rs →
      v = takeForwards ((writeUsed (readsRefused u 3 k.ctx (ladderTaskChecks u k).2) k (some r.entry)).updTask task (fun x => { x with
        used := r.entry, dispatched := true, ladder := some l })) k →
      zeroResults v k.ctx l = (w, none) → exec (.ladderDispatch task) s = .next (w.updTask task (fun x => { x with ladder := some (rungZero l) })))
    ∧ (∀ l, ladderTaskReason u k ≠ 0 → readLadder u k = .ok l →
      exec (.ladderDispatch task) s = .next (refuseTask (writeUsed (readsRefused u 3 k.ctx (ladderTaskChecks u k).2) k (some l.entry)) k 3 (ladderTaskReason u k)))
    ∧ (∀ e fs, readLadder u k = .error (e, fs) →
      exec (.ladderDispatch task) s = .next (refuseTask (readsRefused u 3 k.ctx (if ladderTaskReason u k = 0 then fs else (ladderTaskChecks u k).2)) k 3
        (if ladderTaskReason u k = 0 then e else ladderTaskReason u k)))

/-- The ladder of a task after an arrival of rung `rung`, number `j` (R358). -/
def Sys2Proof.Claim.arrived (l : Ladder) (wr rung j : Nat) (cells : List W32) : Ladder :=
  dropWrite { l with rungs := l.rungs.modify rung (fun r => { r with arr := r.arr + 1, pending := insertPending (j, cells, 0) r.pending }) } wr

/-- R353, R356 to R360, R448: a frame that is written arrives, and a full launch becomes due; a partial launch becomes due once its oldest arrival has aged
more than SLIM; the first launch that is due takes a row; a result entry is written and finishes its item; the watermark is written; a write that fails, fails
the task. -/
def Sys2Proof.Claim.LaddersRun : Prop :=
  ∀ (task : Nat) (k : Task) (l : Ladder) (s : State), s.task task = some k → k.ladder = some l →
    (∀ wr n rung j cells tid u r, l.writes.find? (fun w => w.number == wr) = some (.frame n rung j cells tid) →
      tryWrite s k l (.frame n rung j cells tid) = some (u, none) → (Claim.arrived l wr rung j cells).rungs[rung]? = some r →
      exec (.ladderArrival task wr) s = .next (sweepWriter (u.updTask task (fun x => { x with ladder := some (if k.fail = 0
        then (Claim.arrived l wr rung j cells).fullLaunches rung (r.waiting / Config.W) else Claim.arrived l wr rung j cells) })) (.frame n rung j cells tid)))
    ∧ (∀ rung r p ps, l.rungs[rung]? = some r → rung ≠ 0 → k.fail = 0 → k.state = 3 → (s.ctx k.ctx).st = 1 → r.waiting ≠ 0 → r.waiting < Config.W →
      r.pending = p :: ps → l.slim < p.2.2 →
      exec (.starvationLimitExpiry task rung) s = .next (s.updTask task (fun x => { x with ladder := some (l.launch rung r.waiting) })))
    ∧ (∀ core d due r slots u, l.due = d :: due → l.rungs[d.rung]? = some r → engineRuns s k.ctx = true → k.fail = 0 → k.state ≤ 3 → blockOk core r.grec = true →
      blockSlots s core 1 r.grec = some slots → dieReady s (dieOf core) = some none →
      u = (placeGang s k r.grec core d.frames.length slots (BitVec.ofNat 32 (d.rung * 2 ^ 24 + d.index % 2 ^ 24)) r.entry 1 (rungDress task d.rung d.frames)).updTask task
        (fun x => { x with state := 3, placed := x.placed + 1, cores := sortNats (dedupNats (x.cores ++ [core])), ladder := some { l with due := due, placed := l.placed + 1 } }) →
      exec (.rungLaunchPlacement task core) s = .next (if k.state = 3 then u else publish u task))
    ∧ (∀ wr n item v tid u, l.writes.find? (fun w => w.number == wr) = some (.result n item v tid) → tryWrite s k l (.result n item v tid) = some (u, none) →
      exec (.resultEntryWrite task wr) s = .next (sweepWriter (u.updTask task (fun x => { x with ladder := some ((dropWrite l wr).finish item (x.fail != 0)) }))
        (.result n item v tid)))
    ∧ (∀ u, tryWatermark s k l = some (u, none) → exec (.watermarkWrite task) s = .next (afterRetire (updLadder u task (fun l => { l with wmDue := [] })) task))
    ∧ (∀ wr w code sub a u, l.writes.find? (fun w => w.number == wr) = some w → tryWrite s k l w = some (u, some (code, sub, a)) →
      exec (.ladderWriteFailure task wr) s = .next (sweepWriter (ladderFails (updLadder u task (fun l => dropWrite l wr)) k code sub a) w))
    ∧ (∀ wr code sub a u, l.writes.find? (fun w => w.number == wr) = none → tryWatermark s k l = some (u, some (code, sub, a)) →
      exec (.ladderWriteFailure task wr) s = .next (ladderFails (updLadder u task (fun l => { l with wmDue := [] })) k code sub a))

/-- R351 to R360, R448: the events of the ladder units. Where the spec leaves the moment or a point open, this is the model's choice (log entries 24 and
38). -/
def Obligations.LadderEvents : Prop := Claim.LaddersDispatch ∧ Claim.LaddersRun

/-! ## Events of contexts -/

/-- R307, R377, R378, R422: a thread that stands at a notch, or at a word at which it is saved, leaves its group; a context of which everything has come to rest
is SAVED; NOTCHLIM expires in NOTCH; a slice that is over pre-empts the context and owes it a RESTORE. -/
def Sys2Proof.Claim.ContextsSaved : Prop :=
  (∀ (tid k : Nat) (t : Thread) (s : State), s.thread tid = some t → (s.ctx t.ctx).preempt = some k → t.exited = false → t.parked = false → t.stopped = false →
    t.halted = none → t.victimOf = none →
    (atNotch s t = true → exec (.notchStop tid) s = .next ((detach s tid).updThread tid (fun t => { t with stopped := true, blocked := none, heldFor := 0 })))
    ∧ (atNotch s t = false → atWait s t = true →
      exec (.notchStop tid) s = .next ((detach s tid).updThread tid (fun t => { t with parked := true, blocked := none, heldFor := 0, streamWait := [] }))))
  ∧ (∀ (c : Nat) (s : State), savable s c = true → exec (.contextSave c) s = .next (((gangsOf (clearCores (saveLadders s c) c) c).foldl
    (saveGang (clearCores (saveLadders s c) c)) (clearCores (saveLadders s c) c)).updCtx c (fun x => { x with st := 3, busy := false, preempt := none })))
  ∧ (∀ (c k : Nat) (s : State), (s.ctx c).preempt = some k → (s.ctx c).notchlim ≠ 0#32 → k + (s.ctx c).notchlim.toNat ≤ s.clk →
    exec (.notchlimExpiry c) s = .next (terminate s c 0x0E))
  ∧ ∀ (c d n : Nat) (s : State), n = ((s.ctx c).slice.extractLsb' 0 32).toNat → (s.ctx c).st = 1 → (s.ctx c).preempt = none → (s.ctx c).busy = false → n ≠ 0 →
    (s.ctx c).sliceAt + 65536 * n ≤ s.clk → d < Config.contexts → d ≠ c → waitsForSeats s d = true →
      exec (.sliceExpiry c) s = .next ((requestPreempt s c).updCtx c (fun x => { x with restore := true }))

/-- R342, R377, R379, R380, R422: the host's context commands, each in a state of the context in which it has its effect, after READY and with no command in
progress. -/
def Sys2Proof.Claim.ContextCommands : Prop :=
  ∀ (c : Nat) (s : State), c < Config.contexts → s.ident.ready = true →
    ((s.ctx c).busy = false →
      ((s.ctx c).st = 0 → exec (.ctxCreate c) s = .next (createContext (setFail s c false) c))
      ∧ ((s.ctx c).st = 1 → exec (.ctxPreempt c) s = .next (requestPreempt (setFail s c false) c))
      ∧ ((s.ctx c).st = 3 → ∀ u, u = (setFail s c false).updCtx c (fun x => { x with busy := true, restore := true }) →
        exec (.ctxRestore c) s = .next ((seatMove u c).getD u))
      ∧ ((s.ctx c).st ∈ [1, 3] → exec (.ctxTlbinv c) s = .next (clearTlb (setFail s c false) c))
      ∧ ((s.ctx c).st ∈ [3, 5] → exec (.ctxDestroy c) s = .next (destroyContext (setFail s c false) c)))
    ∧ (1 ≤ (s.ctx c).st → (s.ctx c).st ≤ 4 → exec (.ctxTerminate c) s = .next (terminate (setFail s c false) c 0))
    ∧ exec (.ctxCmdLostClear c) s = .next (s.updCtx c (fun x => { x with lost := false }))

/-- The registers that the host writes of a free context: CREATE keeps them (R422). -/
def Sys2Proof.Claim.hostRegisters (x : Context) : List W64 := [x.cfg, x.root, x.digt, x.dbg, x.keys, x.slice]

/-- R31, R187, R233, R304, R384, R386, R397, R422: CREATE of a free context whose quota can be locked makes it RESIDENT with every register at its reset
value, keeps what the host has written, clears the context's translations, and changes no other context. -/
def Sys2Proof.Claim.CreateResets : Prop :=
  ∀ (c : Nat) (s : State) (x : Context), s.ident.state ≠ 3 → quotaFits s c = true → c < s.contexts.length → x = (createContext s c).ctx c →
    x.st = 1 ∧ x.busy = false ∧ x.fail = false ∧ x.lost = (s.ctx c).lost ∧ Claim.hostRegisters x = Claim.hostRegisters (s.ctx c)
      ∧ x.promise = 7#3 ∧ x.fairlim = 1024#16 ∧ x.yieldspan = 64#16 ∧ x.notchlim = 262144#32 ∧ x.cellcap = 2048 ∧ x.spillcnt = 0#64 ∧ x.dropleak = 0#64
      ∧ x.fmtrsv = 0#2 ∧ x.seed = 0#64 ∧ x.watch = List.replicate 4 0#64 ∧ x.trapvec = 0#64
      ∧ x.tails = [] ∧ x.nextSeq = 0 ∧ x.dispatched = false ∧ x.preempt = none ∧ x.restore = false ∧ x.verified = [] ∧ x.verifying = []
      ∧ (∀ k, ∀ e ∈ ((createContext s c).core k).tlb, e.ctx ≠ c) ∧ (∀ w ∈ (createContext s c).walks, w.ctx ≠ c)
      ∧ ∀ d, d ≠ c → (createContext s c).ctx d = s.ctx d

/-- R307, R342, R377 to R380, R422: the events and the commands of contexts. Where the spec leaves the moment or a point open, this is the model's choice
(log entry 40). -/
def Obligations.ContextEvents : Prop := Claim.ContextsSaved ∧ Claim.ContextCommands ∧ Claim.CreateResets

/-! ## Events of the host and the peers -/

/-- R89 to R91: a write of a window's CTL enables it where its fields are valid, starts its flush and its disabling, or clears RSV; a flush that is complete
leaves no view line of the window in the Vale. -/
def Sys2Proof.Claim.WindowsControlled : Prop :=
  ∀ (n : Nat) (v : W64) (s : State), n < 16 → s.ident.ready = true →
    (∀ w, w = State.frwFields { frwOf s n with cfgerr := false } (v ||| frwEn) → (frwOf s n).en = false → v.getLsbD 29 = false →
      exec (.frwEnable n v) s = .next (setFrw s n (if frwValid s n w = true then { w with en := true } else { w with cfgerr := true })))
    ∧ ((frwOf s n).en = true → v.getLsbD 29 = false →
      exec (.frwDisable n v) s = .next (setFrw s n { frwOf s n with cfgerr := false, flush := true, closing := some (v &&& ~~~ frwEn) }))
    ∧ ((frwOf s n).en = true → v.getLsbD 31 = true → v.getLsbD 29 = false →
      exec (.frwFlush n v) s = .next (setFrw s n { frwOf s n with cfgerr := false, flush := true }))
    ∧ ((frwOf s n).en = true → v.getLsbD 31 = true → v.getLsbD 30 = false →
      exec (.frwRsvClear n v) s = .next (setFrw s n { frwOf s n with cfgerr := false, rsv := 0#8 }))
    ∧ (∀ u, (frwOf s n).flush = true →
      u = ((s.vale.filter (fun l => (frwOf s n).holds (128 * l.line))).map ValeLine.line).foldl (fun s l => (s.cleanLine l).dropVale l) s →
      exec (.frwFlushComplete n) s = .next (setFrw u n (match (frwOf u n).closing with
        | some x => State.frwFields { frwOf u n with en := false, flush := false, closing := none } x
        | none => { frwOf u n with flush := false })))

/-- R283, R423, R426, R427: a host submission, a host access to memory and one of a peer that a grant admits, on a page in use, and a change of the links,
which brings the levels that it names (the model's choice, log entry 49). -/
def Sys2Proof.Claim.HostAccesses : Prop :=
  (∀ (c q pa : Nat) (v : W64) (s : State) (r : WordOut), c < Config.contexts → q < 64 → s.ident.ready = true → (s.ctx c).st = 1 → v.toNat % 128 = 0 →
    translateDirect s c v rightsRW = .ok pa → s.paKind pa = .device → s.dbgMeets (pa, 128) = false → r = submit (s.stampWrite (pa / 128)) c v pa (some q) none → r.ok = true →
      exec (.queueSubmissionWrite c q v) s = .next r.s)
  ∧ (∀ (pa n : Nat) (v : W64) (q : W64) (s u : State), n ∈ [1, 2, 4, 8] → pa % n = 0 → s.ident.ready = true → s.paKind pa = .device → s.pageRetired pa = false →
    s.dbgWindow pa = none → (pa < 0x8000000000000 ∨ 0x8000100000000 ≤ pa) → s.free = (q, u) →
      exec (.hostMemoryAccess true pa n v) s = .next (u.agentWriteN pa n (q.toNat % 64) v.toNat)
      ∧ exec (.hostMemoryAccess false pa n v) s = .next { ((u.stampRead (pa / 128)).homeReadN pa n (q.toNat % 64)).1 with
          lastRead := BitVec.ofNat 128 ((u.stampRead (pa / 128)).homeReadN pa n (q.toNat % 64)).2 })
  ∧ (∀ (peer pa n c : Nat) (g : Grant) (s : State), n ∈ [1, 2, 4, 8, 16] → pa % n = 0 → s.ident.ready = true → s.paKind pa = .device → s.pageRetired pa = false →
    s.dbgWindow pa = none → c = (g.w1.extractLsb' 40 6).toNat →
      (∀ v, grantFor s peer (.write v) pa n = some g → exec (.peerAccess peer (.write v) pa n) s = .next (s.agentWriteN pa n c v.toNat))
      ∧ (grantFor s peer .read pa n = some g →
        exec (.peerAccess peer .read pa n) s = .next { ((s.stampRead (pa / 128)).homeReadN pa n c).1 with
          lastRead := BitVec.ofNat 128 ((s.stampRead (pa / 128)).homeReadN pa n c).2 }))
  ∧ ∀ (levels : List (Nat × Nat)) (s : State), (∀ p ∈ levels, p.1 < 1024 ∧ 3 ≤ p.2 ∧ p.2 ≤ 7) → exec (.linkChange levels) s = .next { s with levels := levels }

/-- R421, R422, R424, R432: a write of a register of the control window after READY: the error log's tail, a power request, a free context's ROOT and CFG;
before READY such a write is refused and logged. That a power request takes its code from the low two bits of the value, codes 4 to 7 of REQ among them, is
the model's choice (log entry 41). -/
def Sys2Proof.Claim.RegisterWrites : Prop :=
  ∀ (v : W64) (s : State),
    (s.ident.ready = true → exec (.registerWrite 0x20008 v) s = .next { s with eltail := v.toNat })
    ∧ (∀ d < 8, s.ident.ready = true → exec (.registerWrite (0x10000 + 8 * d) v) s = .next (powerRequest s d (v.extractLsb' 0 2).toNat))
    ∧ (∀ c < Config.contexts, s.ident.ready = true → (s.ctx c).st = 0 →
      exec (.registerWrite (0x100000 + 0x100 * c) v) s = .next (s.updCtx c (fun x => { x with cfg := v &&& 0xFFF0000000000000#64 }))
      ∧ exec (.registerWrite (0x100008 + 0x100 * c) v) s = .next (s.updCtx c (fun x => { x with root := v &&& 0xFFFFFFFFFF000#64 })))
    ∧ (∀ off, s.ident.ready = false → 0x10000 ≤ off → off % 8 = 0 → exec (.registerWrite off v) s = .next (hostRefused s (bar0 off)))

/-- R89 to R91, R283, R421 to R424, R426, R427, R432: the events of the host and the peers. Where the spec leaves the moment or a point open, this is the
model's choice (log entries 42 to 45); so is the code that a power request takes from the low two bits of what is written to REQ (log entry 41), and what a
change of the links brings (log entry 49). -/
def Obligations.HostEvents : Prop := Claim.WindowsControlled ∧ Claim.HostAccesses ∧ Claim.RegisterWrites

/-! ## Events of security and power -/

/-- The KMAP entry of granule `g` (R429). -/
def Sys2Proof.Claim.kmapEntry (s : State) (g : Nat) : BitVec 8 := ((s.ident.kmap.find? (fun p => p.1 == g)).map Prod.snd).getD 0#8

/-- R428 to R431, R433: PERST# leads to bring-up, or to recovery; GO checks the staged image; a word of KMAP entries of granules with no page in use is
written in every lifecycle state (the model's reading, log entry 44), and the other entries are as before; OPEN with a good token opens; RETIRE ends every context and retires; a signature is asked for and
made. -/
def Sys2Proof.Claim.IdentityEvents : Prop :=
  ∀ (s : State),
    (∃ u, exec .perstDeassert s = .next u ∧ u.mem = s.mem ∧ u.retired = s.retired ∧ u.ident.started = true ∧ u.ident.ready = Config.firmwareGood
      ∧ u.ident.recov = !Config.firmwareGood ∧ u.ident.state = (if s.ident.retiredFuse then 3#8 else 1#8) ∧ u.tasks = [] ∧ u.threads = [])
    ∧ (s.ident.recov = true → exec .bootcmdGo s = .next (if Config.imageGood s.staging = true then bringUp s else s))
    ∧ (∀ i v, i < 96 → (∀ k < 8, granuleLive s (8 * i + k) = false) → ∃ u, exec (.kmapWrite (0x2000 + 8 * i) v) s = .next u
      ∧ u = { s with ident := { s.ident with kmap := u.ident.kmap } }
      ∧ ∀ g < 768, Claim.kmapEntry u g = (if 8 * i ≤ g ∧ g < 8 * i + 8 then v.extractLsb' (8 * (g - 8 * i)) 8 &&& 0xBF#8 else Claim.kmapEntry s g))
    ∧ (s.ident.state = 1 → (∀ c ∈ s.contexts, c.st = 0) → exec .lcOpen s = .next (if tokenGood s.ident = true then setIdent s (fun x =>
      { wipeKeys x with meas := shake256 (x.meas ++ openText), state := 2, debugPort := true, lcres := 1 }) else setIdent s (fun x => { x with lcres := 2 })))
    ∧ (∃ u, exec .lcRetire s = .next u ∧ u.ident.state = 3 ∧ u.ident.retiredFuse = true ∧ u.ident.debugPort = false ∧ u.ident.kmap = []
      ∧ u.ident.keyslots = List.replicate 64 0#512 ∧ ∀ c < Config.contexts, (s.ctx c).st ≤ 5 → (u.ctx c).st = 0)
    ∧ exec .attcmdSign s = .next (setIdent s (fun x => { x with attBusy := true }))
    ∧ (s.ident.attBusy = true → exec .attestationSignatureDone s = .next (setIdent s (fun x =>
      { x with attBusy := false, attsig := Config.ed448SignIdentity (leBytes Config.fuseDevid.toNat 8 ++ [BitVec.ofNat 8 x.state] ++ x.meas ++ x.nonce) })))

/-- R432: a power request of a die with no transition in progress starts one; a transition that is due and that no seat holds back is reached. -/
def Sys2Proof.Claim.PowerEvents : Prop :=
  ∀ (die : Nat) (p : Power) (s : State), s.power[die]? = some p →
    (die < 8 → s.ident.ready = true → p.goal = none → ∀ e ∈ [(Instr.powerReqRun die, 0), (Instr.powerReqIdle die, 1), (Instr.powerReqRetain die, 2),
      (Instr.powerReqOff die, 3)], exec e.1 s = .next (powerStart { s with power := s.power.set die { p with req := e.2, next := none } } die e.2))
    ∧ (∀ g t u, p.goal = some (g, t) → t ≤ s.clk → (2 ≤ g → seatedOn s die = []) → u = (if 2 ≤ g then dieSleeps s die g else s) → p.next = none →
      exec (.powerStateReached die) s = .next { u with power := u.power.set die { p with st := g, goal := none, next := none } })

/-- R428 to R433: the events of security and power. Where the spec leaves the moment or a point open, this is the model's choice (log entries 6, 41, 42,
44 and 47). -/
def Obligations.SecurityAndPowerEvents : Prop := Claim.IdentityEvents ∧ Claim.PowerEvents

/-! ## Events of debugging -/

/-- A core's stall sampler of a context after a sample. -/
def Sys2Proof.Claim.sampled (c i clk : Nat) (k : Core) : Core := { k with samples := k.samples.filter (fun p => p.1 != c) ++ [(c, i, clk)] }

/-- R399 to R403, R407: with an active grant HALTALL is set or cleared; a halted thread whose record holds the command goes on, or makes one step; the
debugger or the host reads and writes a held word or the memory of the window, and is refused what is shut, what holds no such value, and a retired page; a
sample that is due is taken. Where the spec leaves the moment or a point
open, this is the model's choice (log entries 39 and 46). -/
def Obligations.DebugEvents : Prop :=
  ∀ (c : Nat) (s : State),
    (∀ on, grantActive s c = true → exec (.debugHaltall c on) s = .next ((s.updCtx c (fun k => { k with dbgCtl :=
      if on = true then ((s.ctx c).dbgCtl &&& 0xFFFFFFFFFFFFFFFE#64) ||| 1#64 else (s.ctx c).dbgCtl &&& 0xFFFFFFFFFFFFFFFE#64 })).dbgTouch c 0))
    ∧ (∀ core slot lane r (t : Thread) (e : Edit) (u : State),
      s.threads.find? (fun t => t.ctx == c && !t.exited && t.core == core && t.slot == slot && t.lane == lane) = some t → t.halted = some r → t.edit = some e →
      (s.ctx c).st = 1 → t.parked = false → refusal s t (((editedNames e).map (fun p => p.2.cells)).sum - (t.names.map (fun p => p.2.cells)).sum) = none →
      (e.cmd = 1 → u = s.updThread t.id (fun t =>
          { t with halted := none, edit := none, names := editedNames e, preds := e.preds, draw := e.draw, pc := e.pc, resume := none, passHdr := true }) →
        exec (.debugRun c core slot lane) s = .next (enterTable (u.dbgTouch c (recordOff u t)) t.id e.pc))
      ∧ (e.cmd = 2 → u = s.updThread t.id (fun t =>
          { t with halted := none, edit := none, names := editedNames e, preds := e.preds, draw := e.draw, pc := e.pc, resume := none, stops := t.stops ||| 0x10#8, passHdr := true }) →
        exec (.debugStep c core slot lane) s = .next (enterTable (u.dbgTouch c (recordOff u t)) t.id e.pc)))
    ∧ (∀ agent off v, grantActive s c = true → off < s.dbgSpan c → off % 8 = 0 → (agent < hostAgent → agent = debuggerOf s c) →
      (s.pageRetired (s.dbgBase c + off) = true → ∀ on, exec (.debugWindowAccess agent c off on v) s = .next (windowFault s c (s.dbgBase c + off) (0x0C, 3)))
      ∧ (s.pageRetired (s.dbgBase c + off) = false → (s.dbgShut c off = true → ∀ on, exec (.debugWindowAccess agent c off on v) s = .next (windowRefused s c off))
      ∧ (s.dbgShut c off = false → State.dbgHeld off = true →
        (∀ x, s.dbgRead c off = some x → exec (.debugWindowAccess agent c off false v) s = .next { s with lastRead := BitVec.ofNat 128 x })
        ∧ (∀ u, s.dbgWrite c off v.toNat = some u → exec (.debugWindowAccess agent c off true v) s = .next (u.dbgTouch c off))
        ∧ (s.dbgWrite c off v.toNat = none → exec (.debugWindowAccess agent c off true v) s = .next (windowRefused s c off)))
      ∧ (s.dbgShut c off = false → State.dbgHeld off = false → ∀ code sub, s.homeFault (s.dbgBase c + off) = some (code, sub) →
        ∀ on, exec (.debugWindowAccess agent c off on v) s = .next (windowFault s c (s.dbgBase c + off) (code, sub)))
      ∧ (s.dbgShut c off = false → State.dbgHeld off = false → s.homeFault (s.dbgBase c + off) = none →
        exec (.debugWindowAccess agent c off true v) s = .next (s.agentWriteN (s.dbgBase c + off) 8 c v.toNat)
        ∧ exec (.debugWindowAccess agent c off false v) s = .next { (s.homeReadN (s.dbgBase c + off) 8 c).1 with
            lastRead := BitVec.ofNat 128 (s.homeReadN (s.dbgBase c + off) 8 c).2 })))
    ∧ (∀ core, grantActive s c = true → sampleOn s c = true → firstObserved s c ≤ core → core < firstObserved s c + observedCores s c →
      (sampleState (s.core core) c).2 + samplePeriod s c ≤ s.clk →
      (sampleNext s core c (sampleState (s.core core) c).1 = none →
        exec (.stallSample c core) s = .next (s.updCore core (Claim.sampled c (sampleState (s.core core) c).1 s.clk)))
      ∧ (∀ e u, sampleNext s core c (sampleState (s.core core) c).1 = some e → u = dbgRecord s c (recordWords s 2 (sampleClass s core e).1
          (((s.members e).head?.map Thread.lastOrd).getD 0#16) ((e.run.map (fun r => r.clause.pc)).getD e.pc) core (((s.members e).head?.map Thread.slot).getD 0)
          (sampleClass s core e).2 (maskOf (s.members e)).1) →
        exec (.stallSample c core) s = .next (u.updCore core (Claim.sampled c (sampleKey e) u.clk))))

/-! ## Encoding -/

namespace Sys2Proof.Claim

/-- Guards that let every thread execute: p7 twice (R62). -/
def always : Hd := { ga := { neg := false, p := 7 }, gb := { neg := false, p := 7 }, y := false }

def v (n : VName) : Src := .val n

end Sys2Proof.Claim

/-- R61, R64, R75: words written out from the encoding tables decode to what they stand for, one for each of several groups. -/
def Obligations.DecodesKnownWords : Prop :=
  decode 0x001DFC7F0FFFFFFF#64 = .ok (.nop Claim.always)
  ∧ decode 0x00DDFC7F0FE0FFFD#64 = .ok (.bra Claim.always 0xFFFD#16)
  ∧ decode 0x00E5FC7F0FE0FFFD#64 = .ok (.bra { Claim.always with ga := { neg := true, p := 1 }, y := false } 0xFFFD#16)
  ∧ decode 0x031DFC7F0FFFFFFF#64 = .ok (.exit Claim.always)
  ∧ decode 0x03DDFC7F0FE00009#64 = .ok (.waitf Claim.always 9#12)
  ∧ decode 0x301DC0020020BF82#64 = .ok (.isetp Claim.always .s32 2 (Claim.v 1) (.reg (Claim.v 2) .lt .none))
  ∧ decode 0x719DD00610BFFF80#64 = .ok (.redx Claim.always .f32 (.val 6 1#4) (Claim.v 5) .add)
  ∧ decode 0x805DC0042FE00064#64 = .ok (.mov Claim.always .s32 (.val 4 2#4) (.imm 100#16))
  ∧ decode 0x80DDFC7F00A00001#64 = .ok (.drop Claim.always 5 1#4)
  ∧ decode 0xC11DFD7F0FFFFFFF#64 = .ok (.mloopResume Claim.always)
  ∧ decode 0xD01DC47F00BFFFFF#64 = .ok (.tjoin Claim.always (.reg (Claim.v 5)))
  ∧ decode 0xD19DFC7F0FFFFFFF#64 = .ok (.gbar Claim.always)
  ∧ decode 0xE05DFC7F0FE00021#64 = .ok (.trap Claim.always 0x21#16)
  ∧ decode 0xE15DCC051FE0000B#64 = .ok (.sysrd Claim.always true (.val 5 1#4) (.imm 0x0B#16))

/-- R61 to R65, R75: every well-formed instruction word has a word that stands for it, and decodes to itself from that word, with every operand at every
value. The rows of the opcode table that are events of the device have no word. -/
def Obligations.EncodeDecode : Prop :=
  ∀ (i : Instr), i.wf = true → (i.isEvent = false → ∃ x, encode i = some x) ∧ ∀ (x : W64), encode i = some x → decode x = .ok i

/-- R63: a word that decodes is the one word of a well-formed instruction: no bit of it is read as anything else, and no bit is ignored. -/
def Obligations.DecodeEncode : Prop :=
  ∀ (x : W64) (i : Instr), decode x = .ok i → i.wf = true ∧ encode i = some x

/-- R75: how many functions each group of the opcode map has, group 0 (CTL) to group 0xF (reserved): they are numbered from 0. -/
def Sys2Proof.Claim.groupMembers : List Nat := [9, 17, 16, 6, 10, 6, 10, 9, 7, 8, 8, 11, 10, 14, 7, 0]

/-- R63, R75, R372: a word whose OPC, group × 32 + f in bits [63:55], names no function of its group is ILLOP with sub-code 1, whatever its other bits. -/
def Obligations.UnassignedOpcodesRejected : Prop :=
  ∀ (x : W64) (group f : Nat), group < 16 → f < 32 → (x.extractLsb' 55 9).toNat = 32 * group + f → Claim.groupMembers.getD group 0 ≤ f → decode x = .error (.illop 1)

/-! ## The step, reset and memory -/

/-- R21, R61, R63: where the next move issues a word for a group that selection takes (R298 to R303) on a die in RUN and that its pipe admits, with no
fault due at the word, the step is exec of the instruction that the word decodes to, with the pipe taken and the group in focus; beside it the step keeps
the issue slots of a group that still waits (R298) and the arbiter's timers (R181), and what exceeds the size of a cache leaves it. The word of a group is
the little-endian number of eight bytes of the line that holds its address (R3, R52, R284): of the line in the instruction cache, or else of the line that
the fill brings there, where no flush of its view is under way (R91). Where the spec leaves the moment or a point open, this is the model's choice
(log entries 1, 11, 20 and 59). -/
def Obligations.StepRunsDecoded : Prop :=
  (∀ (s u : State) (core uid : Nat) (rest : List Move) (g : Grp) (i : Instr), s.agenda = .issue core uid :: rest →
    u = { s with agenda := rest, focus := some (core, uid) } → u.grp = some g → running u g.ctx = true → pipeOpen u core uid g.a = true → g.mem ≠ [] →
    maySelect { s with agenda := rest } core uid = true → (∀ p, s.power[dieOf core]? = some p → p.st = 0) →
    (g.run.issued = false → takeDeferred (takePipe u core uid g.a) core g.mem (wordDue (g.clause.words.getD g.clause.idx 0#64)) g.pc (some g.clause) = none
      ∧ quotaTrap (takePipe u core uid g.a) g = none) →
    decodeIn g.clause.hdr.eng g.clause.isLast (g.clause.words.getD g.clause.idx 0#64) = .ok i →
      step s = settleMove s (settleIssue { s with agenda := rest } core uid (exec i (takePipe u core uid g.a))))
  ∧ ∀ (s : State) (core c pa : Nat) (ms : List Thread) (va : W64),
    (∀ t ∈ ms, ∃ k, s.task t.task = some k ∧ regionOk k va.toNat 8 [6] = true) →
    translate s core c va rightsX = .ok pa → s.dbgRefuses c pa 8 false = false → pageClear s c (va.toNat / 65536) = true → s.paKind pa ≠ .peer →
      (∀ l, (s.core core).icache.find? (fun l => l.ctx == c && l.va == va.toNat / 128) = some l →
        fetchWord s core c ms va = .ok (BitVec.ofNat 64 (LineOps.get l.data (pa % 128) 8)) s)
      ∧ ((s.core core).icache.find? (fun l => l.ctx == c && l.va == va.toNat / 128) = none → l1Current s core (pa / 128) = none → s.viewBusy pa = false →
        ∃ u, fetchWord s core c ms va = .ok (BitVec.ofNat 64 (LineOps.get (s.homeRead (pa / 128) c).2 (pa % 128) 8)) u)

/-- The reset values that the spec gives: the registers of a context (R187, R304, R384, R422), the windows (R89), CLK (R385) and the power states (R432). The
other clauses are the model's choice (log entry 5): no thread, task or table entry exists, and the Vale, the L1s, the instruction caches and the TLBs are empty. -/
def Obligations.ResetValues : Prop :=
  State.reset.clk = 0 ∧ State.reset.threads = [] ∧ State.reset.tasks = [] ∧ State.reset.vale = []
  ∧ (∀ n < 16, (State.reset.frw.getD n Frw.reset).en = false ∧ (State.reset.frw.getD n Frw.reset).flush = false ∧ (State.reset.frw.getD n Frw.reset).rsv = 0#8
      ∧ (State.reset.frw.getD n Frw.reset).view = 0#64 ∧ (State.reset.frw.getD n Frw.reset).lines = 0#64 ∧ (State.reset.frw.getD n Frw.reset).mpl = 0#64
      ∧ (State.reset.frw.getD n Frw.reset).spl = 0#64)
  ∧ (∀ d < 8, ∃ p, State.reset.power[d]? = some p ∧ p.req = 0 ∧ p.st = 0)
  ∧ (∀ c, (State.reset.core c).l1 = [] ∧ (State.reset.core c).icache = [] ∧ (State.reset.core c).tlb = [] ∧ (State.reset.core c).entries = [])
  ∧ ∀ c < 64, State.reset.ctx c = Context.reset ∧ Context.reset.st = 0 ∧ Context.reset.promise = 7#3 ∧ Context.reset.fairlim = 1024#16
      ∧ Context.reset.yieldspan = 64#16 ∧ Context.reset.notchlim = 262144#32 ∧ Context.reset.cellcap = 2048 ∧ Context.reset.spillcnt = 0#64
      ∧ Context.reset.dropleak = 0#64 ∧ Context.reset.fmtrsv = 0#2 ∧ Context.reset.seed = 0#64 ∧ Context.reset.trapvec = 0#64
      ∧ Context.reset.cfg = 0x0800000000000000#64 ∧ Context.reset.root = 0#64

/-- The model's own rule (log entry 3): the store of device memory is in canonical form at reset, and so reads 0 at every address. -/
def Obligations.ResetMemoryCanonical : Prop :=
  Memory.wf State.reset.mem = true ∧ ∀ a, Memory.read State.reset.mem a = 0#8

/-- The model's own rule (log entry 3): every step keeps device memory in its canonical form, so that equal memories are equal data. -/
def Obligations.StepKeepsMemory : Prop :=
  ∀ (s t : State), Memory.wf s.mem = true → step s = .next t → Memory.wf t.mem = true

/-! ## Frames and bindings -/

/-- THE FRAME OF THE WORDS THAT COMPUTE (R66, R68, R72, R298): every word of a fixed latency and every word of `valueWord`, where it issues, leaves a next
state in which memory, caches, translations, engines, registers, predicates, every thread outside the group and every name that the word neither reads nor
binds are as before; a word of a variable latency changes the outstanding operations and the flags too. -/
def Obligations.ComputeWordFrame : Prop :=
  ∀ (i : Instr) (w : Spec) (s : State) (g : Grp), Ready w s g →
    (∀ lat r, Claim.fixedInstr s i = some (w, lat, r) → ∃ t, exec i s = .next t ∧ Issued .fixed g.entry.members (namesOf w g) s t)
    ∧ ∀ v, Claim.valueWord i = some (w, v) → ∃ t, exec i s = .next t ∧ Issued .operation g.entry.members (namesOf w g) s t

/-- THE FRAME OF LOADS AND STORES AT THEIR ISSUE (R107, R149, R150, R397): a load or a store whose checks pass, in a context without debug access, changes no
byte of memory, no line of a cache and no register, predicate or thread outside the group: the access is performed by its event. -/
def Obligations.MemoryWordFrame : Prop :=
  ∀ (i : Instr) (s : State) (g : Grp) (T : Lane → Target), grantActive s g.ctx = false →
    (∀ f, Claim.loadForm i = some f → Ready f.w s g →
      (∀ l ∈ lanesRead f.w s g, Claim.placed (afterReads f.w s g) f.stash false f.n l (memEa f.m f.n l) (T l)) →
        ∃ t, exec i s = .next t ∧ Issued .operation g.entry.members (namesOf f.w g) s t)
    ∧ ∀ f, Claim.storeForm i = some f → Ready f.w s g →
      (∀ l ∈ lanesRead f.w s g, Claim.placed (afterReads f.w s g) f.stash true f.n l (memEa f.m f.n l) (T l)) →
        ∃ t, exec i s = .next t ∧ Issued .operation g.entry.members (namesOf f.w g) s t

/-- THE FRAME OF CONTROL (R308, R309, R311): NOP, the transfers, and a WAITF that issues change nothing but the place of the group's threads and the names
they read or bind. -/
def Obligations.ControlWordFrame : Prop :=
  ∀ (h : Hd) (s : State) (g : Grp),
    (Ready { h := h } s g → ∀ i, (i = .nop h ∨ (∃ off, i = .bra h off) ∨ (∃ m, i = .waitf h m ∧ s.ilk g.ctx = false
        ∧ ∀ l ∈ lanesRead { h := h } s g, ∀ f < 12, m.getLsbD f = true → flagOf l.t f = 0)) →
      ∃ t, exec i s = .next t ∧ Issued .fixed g.entry.members [] s t)
    ∧ (∀ (a : Src) (w : Spec), w = { h := h, srcs := [.src a true] } → Ready w s g → (∀ l ∈ lanesRead w s g, Claim.goodTarget (l.v 0)) →
      ∀ i ∈ [Instr.brx h a, Instr.ret h a], ∃ t, exec i s = .next t ∧ Issued .fixed g.entry.members (namesOf w g) s t)
    ∧ ∀ (d : VName) (k : BitVec 4) (w : Spec),
      (∀ off, w = Claim.linkSpec h [] d k → Ready w s g → ∃ t, exec (.call h d k off) s = .next t ∧ Issued .fixed g.entry.members (namesOf w g) s t)
      ∧ ∀ a, w = Claim.linkSpec h [.src a true] d k → Ready w s g → (∀ l ∈ lanesRead w s g, Claim.goodTarget (l.v 0)) →
        ∃ t, exec (.callx h d k a) s = .next t ∧ Issued .fixed g.entry.members (namesOf w g) s t

/-- An outstanding store of `n` bytes that its order allows to be performed, and where it goes now. -/
structure Sys2Proof.Claim.StoreDue (s : State) (id : Nat) (o : Op) (t : Thread) (tg : Target) (n : Nat) (hint : Hint) (data : BitVec 128) : Prop where
  op : s.op id = some o
  thread : s.thread o.tid = some t
  order : orderAllows s o = true
  kind : ∃ at0, o.kind = .store at0 n hint data ∧ tg = settled s t o.va at0
  free : targetWaits s t o.id tg = false
  here : t.core < s.cores.length
  mem : Memory.wf s.mem = true

/-- THE FRAME OF STORES (R148, R150, R154, R277): a store that is performed writes its own bytes and no other. To ordinary device memory, at the physical
address `pa` that its target names: the thread's core then finds the `n` bytes from `pa` as the store's data, lowest byte lowest, and every other byte
as before; no other core's L1 and no Glen changes; and where the L1's line belongs to the same context, no byte at a home changes, but the `n` bytes
of a streaming store that finds no line in its L1. (A store that a later operation of its thread on the line has overtaken is the one case left out:
its line goes home at once.) To coupled memory: the same at the home. To the stash: the same in the Glen of the core, and no memory changes. Where the
spec leaves the moment or a point open, this is the model's choice (log entries 8 and 28). -/
def Obligations.StoredBytes : Prop :=
  ∀ (id : Nat) (o : Op) (t : Thread) (tg : Target) (n : Nat) (hint : Hint) (data : BitVec 128) (s : State), Claim.StoreDue s id o t tg n hint data →
    (∀ pa, tg = .l1 pa → pa % 128 + n ≤ 128 → s.paKind (128 * (pa / 128)) = .device → s.dbgOwner (pa / 128) = none → s.pageRetired (128 * (pa / 128)) = false →
      s.dbgRefuses o.ctx pa n true = false → (∀ p ∈ s.ops, p.tid = t.id → o.id < p.id → ∀ w, p.kind = .word w → w.pa / 128 ≠ pa / 128) →
        ∃ u, exec (.storePerformed id) s = .next u
          ∧ (∀ a, a < pa ∨ pa + n ≤ a → coreByte u t.core a = coreByte s t.core a)
          ∧ (∀ i < n, coreByte u t.core (pa + i) = data.toNat / 256 ^ i % 256)
          ∧ ((∀ k, l1Find s t.core (pa / 128) = some k → k.ctx = t.ctx) → ∀ a, (a < pa ∨ pa + n ≤ a ∨ hint ≠ .stream ∨ l1Find s t.core (pa / 128) ≠ none) →
              homeByte u a = homeByte s a)
          ∧ (∀ d, d ≠ t.core → (u.core d).l1 = (s.core d).l1) ∧ ∀ d, (u.core d).glen = (s.core d).glen)
    ∧ (∀ pa, tg = .home pa → pa % 128 + n ≤ 128 → s.paKind (128 * (pa / 128)) = .device → s.dbgOwner (pa / 128) = none → s.pageRetired (128 * (pa / 128)) = false →
      s.dbgRefuses o.ctx pa n true = false → (∀ k, l1Find s t.core (pa / 128) = some k → k.lease ≠ none) →
        ∃ u, exec (.storePerformed id) s = .next u
          ∧ (∀ a, a < pa ∨ pa + n ≤ a → homeByte u a = homeByte s a)
          ∧ (∀ i < n, homeByte u (pa + i) = data.toNat / 256 ^ i % 256)
          ∧ ∀ d, u.core d = s.core d)
    ∧ ∀ core off, tg = .glen core off → core < s.cores.length → Memory.wf (s.core core).glen = true →
        ∃ u, exec (.storePerformed id) s = .next u
          ∧ (∀ a, a < off ∨ off + n ≤ a → Memory.read (u.core core).glen a = Memory.read (s.core core).glen a)
          ∧ (∀ i < n, Memory.read (u.core core).glen (off + i) = BitVec.ofNat 8 (data.toNat / 256 ^ i))
          ∧ (∀ a, homeByte u a = homeByte s a) ∧ (∀ d, (u.core d).l1 = (s.core d).l1) ∧ ∀ d, d ≠ core → (u.core d).glen = (s.core d).glen

/-- R66: a read counts. In the state after the reads of a word that issues, a name that an executing thread reads k times has k reads fewer, and is free when
none is left; a sticky name keeps its count. -/
def Obligations.ReadsCount : Prop :=
  ∀ (w : Spec) (s : State) (g : Grp) (t : Thread) (n k : Nat) (b : Binding), Ready w s g → t ∈ freshLanes g w.h → lookupName t n = some b →
    k = countOf n (valNames (w.of t)) → 0 < k →
      ∃ u, (afterReads w s g).thread t.id = some u ∧ lookupName u n =
        (if b.count = 15#4 then some b else if b.count.toNat = k then none else some { b with count := b.count - BitVec.ofNat 4 k })

/-- R69, R72, R73: a fixed-latency word puts each executing lane's result in flight, due its latency after the clk of issue, to be bound with the read count
RDC and the word's address as its producer. In trusted mode the names are bound at that clk, and until then they, the predicates and their waits are as after
the reads. In interlocked mode the destination's names and predicates are pending from issue on, with the result's token, where the lane's thread executes in
no other lane. -/
def Obligations.FixedResultInFlight : Prop :=
  ∀ (i : Instr) (w : Spec) (lat : Nat) (r : List Lane → Lane → Res) (s : State) (g : Grp) (l : Lane), Claim.fixedInstr s i = some (w, lat, r) → Ready w s g →
    l ∈ lanesRead w s g → (w.dst.names ≠ [] ∨ w.dst.preds ≠ []) →
      ∃ t u f, exec i s = .next t ∧ t.thread l.t.id = some u ∧ f ∈ u.flight ∧ f.due = s.clk + lat ∧ f.late = !s.ilk g.ctx
        ∧ f.names = (w.dst.names.zip (r (lanesRead w s g) l).vals).map (fun x => (x.1.1,
            { value := if x.1.2 then x.2 else lowCell x.2, wide := x.1.2, count := w.dst.rdc, pend := none, prod := g.pc }))
        ∧ f.preds = w.dst.preds.zip (r (lanesRead w s g) l).preds
        ∧ (s.ilk g.ctx = false → ∀ t0, (afterReads w s g).thread l.t.id = some t0 →
          (∀ n, lookupName u n = lookupName t0 n) ∧ u.preds = t0.preds ∧ u.predPend = t0.predPend)
        ∧ (s.ilk g.ctx = true → (∀ m ∈ lanesRead w s g, m.t.id = l.t.id → m = l) →
          (∀ x ∈ w.dst.names, ∃ b, lookupName u x.1 = some b ∧ b.pend = some f.tok ∧ b.count = w.dst.rdc ∧ b.wide = x.2 ∧ b.prod = g.pc)
          ∧ ∀ q ∈ w.dst.preds, q ≠ 7 → (q, f.tok) ∈ u.predPend)

/-- R21, R293, R374: every step of the device leaves a next state: a word issues only for its group, a fault of a word is a trap of its threads, and an event
that cannot take place leaves the device as it is, so that nothing stops the machine. That a move which cannot be made leaves the device unchanged is the
model's choice (log entries 1 and 51). -/
def Obligations.EveryStepMoves : Prop := ∀ s : State, ∃ t : State, step s = .next t
end

