-- ==== Sys2Proof/Laws/Bits.lean ====
section
/-! SUPPORT. The elements and bits of packed values (R26, R27): what the packing, the narrowing and the reading of an element do. -/

namespace Sys2Proof.Machine

theorem testBit_pack (w : Nat) (hw : 0 < w) (l : List Nat) (j : Nat) :
    Nat.testBit (l.foldr (fun v acc => acc * 2 ^ w + v % 2 ^ w) 0) j = (l.getD (j / w) 0).testBit (j % w) := by
  induction l generalizing j with
  | nil => simp
  | cons v l ih =>
    rw [List.foldr_cons, Nat.mul_comm, Nat.testBit_two_pow_mul_add _ (Nat.mod_lt _ (Nat.two_pow_pos w))]
    split
    · rename_i h
      rw [Nat.testBit_mod_two_pow, Nat.div_eq_of_lt h, Nat.mod_eq_of_lt h]; simp [h]
    · rename_i h
      rw [ih]
      have e : j / w = (j - w) / w + 1 := by rw [Nat.div_eq_sub_div hw (by omega)]
      have e2 : j % w = (j - w) % w := by rw [Nat.mod_eq_sub_mod (by omega)]
      rw [e, e2]; simp

theorem elemAt_bit (w i j : Nat) (x : W64) : (elemAt w i x).testBit j = (decide (j < w) && x.getLsbD (w * i + j)) := by
  unfold elemAt
  rw [Nat.testBit_mod_two_pow, Nat.testBit_shiftRight, BitVec.testBit_toNat]

theorem elemAt_lt (w i : Nat) (x : W64) : elemAt w i x < 2 ^ w := Nat.mod_lt _ (Nat.two_pow_pos w)

theorem elemAt_pack (w i : Nat) (l : List Nat) (hw : 0 < w) (hi : w * i + w ≤ 64) : elemAt w i (packElems w l) = l.getD i 0 % 2 ^ w := by
  apply Nat.eq_of_testBit_eq
  intro j
  rw [elemAt_bit, Nat.testBit_mod_two_pow]
  by_cases hj : j < w
  · simp only [hj, decide_true, Bool.true_and, packElems, BitVec.getLsbD_ofNat, show w * i + j < 64 by omega]
    rw [testBit_pack w hw]
    congr 1
    · rw [Nat.mul_add_div hw, Nat.div_eq_of_lt hj]; simp
    · rw [Nat.mul_add_mod, Nat.mod_eq_of_lt hj]
  · simp [hj]

theorem inI_dims {t : ElemTy} (h : t.inIB = true) : 0 < t.bits ∧ ∀ i < ElemTy.elems t, t.bits * i + t.bits ≤ 64 := by
  cases t <;> first | (exfalso; revert h; decide) | (refine ⟨by decide, fun i hi => ?_⟩; simp [ElemTy.elems, ElemTy.bits] at hi ⊢; omega)

theorem wrapNat_lt (w : Nat) (z : Int) : wrapNat w z < 2 ^ w := by
  unfold wrapNat
  have h1 : 0 ≤ z % (2 ^ w : Int) := Int.emod_nonneg _ (by positivity)
  have h2 : z % (2 ^ w : Int) < 2 ^ w := Int.emod_lt_of_pos _ (by positivity)
  zify
  rw [Int.toNat_of_nonneg h1]; exact_mod_cast h2

theorem wrapNat_cast (w : Nat) (z : Int) : ((wrapNat w z : Nat) : Int) = z % 2 ^ w := by
  unfold wrapNat
  exact Int.toNat_of_nonneg (Int.emod_nonneg _ (by positivity))

theorem elem_map (t : ElemTy) (i : Nat) (F : Nat → Nat) (h : t.inIB = true) (hi : i < ElemTy.elems t) (hF : ∀ i, F i < 2 ^ t.bits) :
    elemAt t.bits i (packElems t.bits ((List.range (ElemTy.elems t)).map F)) = F i := by
  obtain ⟨h1, h2⟩ := inI_dims h
  rw [elemAt_pack _ _ _ h1 (h2 i hi)]
  simp [List.getD_eq_getElem?_getD, hi, Nat.mod_eq_of_lt (hF i)]

theorem asInt_range (sg : Bool) (w v : Nat) (hw : 0 < w) (hv : v < 2 ^ w) :
    (if sg then -(2 ^ (w - 1) : Int) else 0) ≤ asInt sg w v ∧ asInt sg w v < (if sg then 2 ^ (w - 1) else 2 ^ w) := by
  have e : (2 : Int) ^ w = 2 * 2 ^ (w - 1) := by rw [← pow_succ']; congr 1; omega
  have e' : 2 ^ w = 2 * 2 ^ (w - 1) := by rw [← pow_succ']; congr 1; omega
  have hv' : (v : Int) < 2 ^ w := by exact_mod_cast hv
  unfold asInt
  cases sg
  · simp; exact_mod_cast hv
  · by_cases h : 2 ^ (w - 1) ≤ v
    · have h' : (2 : Int) ^ (w - 1) ≤ v := by exact_mod_cast h
      simp [h]; constructor <;> omega
    · have h' : (v : Int) < 2 ^ (w - 1) := by rw [not_le] at h; exact_mod_cast h
      have : (0 : Int) ≤ 2 ^ (w - 1) := by positivity
      simp [h]; constructor <;> omega

theorem asInt_wrap (sg : Bool) (w : Nat) (z : Int) (hw : 0 < w) (h : (if sg then -(2 ^ (w - 1) : Int) else 0) ≤ z ∧ z < (if sg then 2 ^ (w - 1) else 2 ^ w)) :
    asInt sg w (wrapNat w z) = z := by
  have e : (2 : Int) ^ w = 2 * 2 ^ (w - 1) := by rw [← pow_succ']; congr 1; omega
  have hp : (0 : Int) < 2 ^ (w - 1) := by positivity
  have hc := wrapNat_cast w z
  have hlt := wrapNat_lt w z
  have hcond : (2 ^ (w - 1) ≤ wrapNat w z) ↔ ((2 : Int) ^ (w - 1) ≤ z % 2 ^ w) := by rw [← hc]; norm_cast
  unfold asInt
  cases sg
  · simp at h ⊢; rw [hc, Int.emod_eq_of_lt h.1 h.2]
  · simp only [Bool.true_and, decide_eq_true_eq, if_true] at h ⊢
    simp only [hcond, hc]
    by_cases hz : 0 ≤ z
    · rw [Int.emod_eq_of_lt hz (by omega), if_neg (by omega)]
    · have : z % 2 ^ w = z + 2 ^ w := by
        rw [← Int.add_emod_right, Int.emod_eq_of_lt (by omega) (by omega)]
      rw [this, if_pos (by omega)]; omega

theorem intElem_range (t : ElemTy) (i : Nat) (x : W64) (h : 0 < t.bits) :
    (if ElemTy.signed t then -(2 ^ (t.bits - 1) : Int) else 0) ≤ intElem t i x ∧ intElem t i x < (if ElemTy.signed t then 2 ^ (t.bits - 1) else 2 ^ t.bits) :=
  asInt_range (ElemTy.signed t) t.bits (elemAt t.bits i x) h (elemAt_lt _ _ _)

theorem sum_foldl (f : Nat → Nat) (l : List Nat) (a : Nat) : l.foldl (fun acc i => acc + f i) a = a + (l.map f).sum := by
  induction l generalizing a with
  | nil => simp
  | cons x l ih => simp [ih, Nat.add_assoc]

theorem sum_foldlZ (f : Nat → Int) (l : List Nat) (a : Int) : l.foldl (fun acc i => acc + f i) a = a + (l.map f).sum := by
  induction l generalizing a with
  | nil => simp
  | cons x l ih => simp [ih, add_assoc]

theorem toNat_wrap (w : Nat) (z : Int) (hw : w ≤ 64) : (((BitVec.ofNat 64 (wrapNat w z)).toNat : Nat) : Int) = z % 2 ^ w := by
  rw [BitVec.toNat_ofNat, Nat.mod_eq_of_lt (lt_of_lt_of_le (wrapNat_lt w z) (Nat.pow_le_pow_right (by decide) hw)), wrapNat_cast]

theorem asInt_low (sg : Bool) (a : W64) : asInt sg 32 (elemAt 32 0 a) = if sg then (a.extractLsb' 0 32).toInt else ((a.extractLsb' 0 32).toNat : Int) := by
  have e : elemAt 32 0 a = (a.extractLsb' 0 32).toNat := by simp [elemAt, BitVec.extractLsb'_toNat]
  rw [e]
  unfold asInt
  cases sg
  · simp
  · simp only [Bool.true_and, decide_eq_true_eq, if_true]
    have := (a.extractLsb' 0 32).isLt
    rw [BitVec.toInt_eq_toNat_cond]
    split <;> split <;> omega

theorem asInt_mod (sg : Bool) (v : Nat) (z : Int) : (asInt sg 32 v + z) % 2 ^ 32 = ((v : Int) + z) % 2 ^ 32 := by
  unfold asInt
  split
  · rw [show (v : Int) - 2 ^ 32 + z = v + z - 2 ^ 32 by ring, Int.sub_emod_right]
  · rfl

theorem lt_of_inB {t : ElemTy} (h : t.inB = true) : t.bits = if ElemTy.wide t then 64 else 32 := by revert h; cases t <;> decide

theorem clip_bit (t : ElemTy) (x : W64) (j : Nat) (h : t.inB = true) : (clip t x).getLsbD j = (decide (j < t.bits) && x.getLsbD j) := by
  unfold clip
  rw [lt_of_inB h]
  split
  · by_cases hj : j < 64
    · simp [hj]
    · simp [hj, BitVec.getLsbD_of_ge x j (by omega)]
  · unfold lowCell
    simp only [BitVec.truncate_eq_setWidth, BitVec.getLsbD_setWidth, BitVec.getLsbD_extractLsb', Nat.zero_add]
    by_cases hj : j < 32
    · simp [hj, show j < 64 by omega]
    · simp [hj]

theorem ofBits_nat (l : List Bool) (j : Nat) : (l.foldr (fun (b : Bool) (acc : Nat) => 2 * acc + b.toNat) 0).testBit j = l.getD j false := by
  induction l generalizing j with
  | nil => simp
  | cons b l ih =>
    rw [List.foldr_cons]
    cases j with
    | zero => cases b <;> simp
    | succ j =>
      rw [Nat.testBit_succ, show (2 * l.foldr (fun (b : Bool) (acc : Nat) => 2 * acc + b.toNat) 0 + b.toNat) / 2 = l.foldr (fun (b : Bool) (acc : Nat) => 2 * acc + b.toNat) 0 by cases b <;> simp <;> omega, ih]
      simp

theorem ofBits_bit (l : List Bool) (j : Nat) (hj : j < 64) : (ofBits l).getLsbD j = l.getD j false := by
  unfold ofBits
  rw [BitVec.getLsbD_ofNat, ofBits_nat]; simp [hj]

theorem takeWhile_spec (f : Nat → Bool) (w : Nat) : ∃ k ≤ w, (((List.range w).map f).takeWhile (fun b => !b)).length = k ∧ (∀ j < k, f j = false) ∧ (k < w → f k = true) := by
  induction w generalizing f with
  | zero => exact ⟨0, Nat.le_refl _, rfl, by simp, by simp⟩
  | succ w ih =>
    rw [List.range_succ_eq_map, List.map_cons, List.map_map]
    cases h : f 0 with
    | true => exact ⟨0, by omega, by simp, by simp, fun _ => h⟩
    | false =>
      obtain ⟨k, hk, h1, h2, h3⟩ := ih (f ∘ Nat.succ)
      refine ⟨k + 1, by omega, ?_, fun j hj => ?_, fun hk' => ?_⟩
      · rw [List.takeWhile_cons]; simp only [Bool.not_false, if_true, List.length_cons, h1]
      · cases j with
        | zero => exact h
        | succ j => exact h2 j (by omega)
      · exact h3 (by omega)

theorem bits_reverse (w : Nat) (f : Nat → Bool) : ((List.range w).map f).reverse = (List.range w).map (fun j => f (w - 1 - j)) := by
  apply List.ext_getElem
  · simp
  · intro i h1 h2
    simp

theorem elemAt_extract (w i : Nat) (x : W64) : elemAt w i x = (x.extractLsb' (w * i) w).toNat := by
  apply Nat.eq_of_testBit_eq
  intro j
  rw [elemAt_bit, BitVec.testBit_toNat, BitVec.getLsbD_extractLsb']

end Sys2Proof.Machine
end

