-- ==== Sys2Proof/Laws/Encode.lean ====
section
/-! SUPPORT. The small laws of the encoder and the decoder: a field of a packed word, and each operand of a word as the decoder reads it back. -/

namespace Sys2Proof

theorem ext_bits {n m k : Nat} (x : BitVec n) (v : BitVec m) (h : ∀ i, i < m → x.getLsbD (k + i) = v.getLsbD i) :
    x.extractLsb' k m = v := by
  apply BitVec.eq_of_getLsbD_eq
  intro i hi
  rw [BitVec.getLsbD_extractLsb', h i hi]; simp [hi]

theorem Fields.unpack_pack (w : Fields) : Fields.unpack (Fields.pack w) = w := by
  obtain ⟨opc, f, ga, gb, ty, hn, y, dst, rdc, sa, low⟩ := w
  simp only [Fields.unpack, Fields.pack, Fields.mk.injEq]
  refine ⟨?_, ?_, ?_, ?_, ?_, ?_, ?_, ?_, ?_, ?_, ?_⟩
  all_goals first
    | (apply ext_bits; intro i hi; simp (disch := omega) only [BitVec.getLsbD_append, if_pos, if_neg]; (try congr 1; omega))
    | (simp only [BitVec.getLsbD_append]; simp)

namespace Dec

/-- The decoder goes on after a check that passes. -/
theorem ok_bind {α β : Type} (a : α) (f : α → Except DecodeError β) : (Except.ok a >>= f) = f a := rfl
theorem pure_ok {α : Type} (a : α) : (pure a : Except DecodeError α) = .ok a := rfl
end Dec

theorem ElemTy.ofCode_code (t : ElemTy) : ElemTy.ofCode t.code = t := by cases t <;> rfl
theorem Rnd.ofCode_code (t : Rnd) : Rnd.ofCode t.code = t := by cases t <;> rfl
theorem Hint.ofCode_code (t : Hint) : Hint.ofCode t.code = t := by cases t <;> rfl
theorem Pred.ofBits_toBits (q : Pred) : Pred.ofBits q.toBits = q := by
  obtain ⟨n, p⟩ := q
  cases n <;> revert p <;> decide
theorem pr_high (q : Pred) : (Enc.pr q).extractLsb' 4 3 = 0#3 := by
  obtain ⟨n, p⟩ := q
  cases n <;> revert p <;> decide
theorem pr_low (q : Pred) : (Enc.pr q).extractLsb' 0 4 = q.toBits := by
  obtain ⟨n, p⟩ := q
  cases n <;> revert p <;> decide
theorem predRow_pr (q : Pred) : Dec.predRow (Enc.pr q) = .ok q := by
  simp [Dec.predRow, pr_high, pr_low, Dec.rsv, Dec.need, Dec.ok_bind, Dec.pure_ok, Pred.ofBits_toBits]
theorem src_code (a : Src) : Dec.src a.code = .ok a := by
  cases a with
  | val n =>
    have : (Src.val n).code.toNat = n.val := by simp [Src.code]; omega
    simp [Dec.src, this]
  | pop q => cases q <;> rfl
  | spec q => cases q <;> rfl
theorem code_toNat (a : Src) : a.code.toNat < 127 := by
  cases a with
  | val n =>
    have : (Src.val n).code.toNat = n.val := by simp [Src.code]; omega
    omega
  | pop q => cases q <;> decide
  | spec q => cases q <;> decide
theorem code_ne (a : Src) : a.code ≠ 127#7 := by
  intro h; have := code_toNat a; rw [h] at this; simp at this
theorem noQueue_code (a : Src) (h : a.noQueue = true) : Dec.noQueue a.code = .ok () := by
  cases a with
  | val n =>
    have : (Src.val n).code.toNat = n.val := by simp [Src.code]; omega
    simp [Dec.noQueue, Dec.row, Dec.need, this]
  | pop q => simp [Src.noQueue] at h
  | spec q => cases q <;> rfl
theorem srcNoQ_code (a : Src) (h : a.noQueue = true) : Dec.srcNoQ a.code = .ok a := by
  simp only [Dec.srcNoQ, src_code, Dec.ok_bind, Dec.pure_ok]
  cases a with
  | val n =>
    have : (Src.val n).code.toNat = n.val := by simp [Src.code]; omega
    simp [Dec.need, this, Dec.ok_bind]
  | pop q => simp [Src.noQueue] at h
  | spec q => cases q <;> rfl
theorem srcOpt_opt (a : Option Src) : Dec.srcOpt (Enc.opt a) = .ok a := by
  cases a with
  | none => rfl
  | some a => simp [Dec.srcOpt, Enc.opt, code_ne, src_code, Dec.ok_bind, Dec.pure_ok]

variable (opc : BitVec 9) (f : Bool) (ga gb ty : BitVec 4) (hn : BitVec 2) (y : Bool) (sa : BitVec 7) (low : BitVec 21)

theorem dstOp_dst (d : Dst) : Dec.dstOp ⟨opc, f, ga, gb, ty, hn, y, (Enc.dst d).1, (Enc.dst d).2, sa, low⟩ = .ok d := by
  cases d with
  | val n k =>
    have : (BitVec.ofNat 7 n.val).toNat = n.val := by simp; omega
    simp [Dec.dstOp, Enc.dst, this]; 
  | push q => cases q <;> rfl
  | nul => rfl
theorem dstRow_dst (d : Dst) (h : d.wf = true) : Dec.dstRow ⟨opc, f, ga, gb, ty, hn, y, (Enc.dst d).1, (Enc.dst d).2, sa, low⟩ = .ok () := by
  cases d with
  | val n k =>
    have : (BitVec.ofNat 7 n.val).toNat = n.val := by simp; omega
    simp [Dst.wf] at h
    simp [Dec.dstRow, Enc.dst, this, Dec.row, Dec.need, h]; 
  | push q => cases q <;> rfl
  | nul => rfl
theorem dstRowVN_dst (d : Dst) (h : d.valNul = true) : Dec.dstRowVN ⟨opc, f, ga, gb, ty, hn, y, (Enc.dst d).1, (Enc.dst d).2, sa, low⟩ = .ok () := by
  cases d with
  | val n k =>
    have : (BitVec.ofNat 7 n.val).toNat = n.val := by simp; omega
    simp [Dst.valNul] at h
    simp [Dec.dstRowVN, Dec.dstRow, Enc.dst, this, Dec.row, Dec.need, h, Dec.ok_bind]; omega
  | push q => simp [Dst.valNul] at h
  | nul => rfl
theorem dstRowV_dst (d : Dst) (h : d.isVal = true) : Dec.dstRowV ⟨opc, f, ga, gb, ty, hn, y, (Enc.dst d).1, (Enc.dst d).2, sa, low⟩ = .ok () := by
  cases d with
  | val n k =>
    have : (BitVec.ofNat 7 n.val).toNat = n.val := by simp; omega
    simp [Dst.isVal] at h
    have e1 : (n.val != 112) = true := by simp; omega
    have e2 : (n.val != 113) = true := by simp; omega
    have e3 : (n.val != 115) = true := by simp; omega
    have e4 : (n.val != 127) = true := by simp; omega
    simp only [Dec.dstRowV, Dec.dstRowVN, Dec.dstRow, Enc.dst, this, Dec.row, Dec.need, h, n.isLt, if_true, e1, e2, e3, e4,
      Bool.and_self, bne_iff_ne, ne_eq, not_false_eq_true]
    rfl
  | push q => simp [Dst.isVal] at h
  | nul => simp [Dst.isVal] at h
theorem dstRowVQ_dst (d : Dst) (h : d.valPush = true) : Dec.dstRowVQ ⟨opc, f, ga, gb, ty, hn, y, (Enc.dst d).1, (Enc.dst d).2, sa, low⟩ = .ok () := by
  cases d with
  | val n k =>
    have : (BitVec.ofNat 7 n.val).toNat = n.val := by simp; omega
    simp [Dst.valPush] at h
    simp [Dec.dstRowVQ, Dec.dstRow, Enc.dst, this, Dec.row, Dec.need, h, Dec.ok_bind]; omega
  | push q => cases q <;> rfl
  | nul => simp [Dst.valPush] at h
theorem dstNone_nd : Dec.dstNone ⟨opc, f, ga, gb, ty, hn, y, Enc.nd.1, Enc.nd.2, sa, low⟩ = .ok () := rfl
theorem dstPred_pname (p : PName) : Dec.dstPred ⟨opc, f, ga, gb, ty, hn, y, (Enc.pname p).1, (Enc.pname p).2, sa, low⟩ = .ok p := by
  have h : ∀ p : PName, (do Dec.row (decide ((Enc.pname p).1.toNat < 8) && (Enc.pname p).2 == 0#4); pure ((Enc.pname p).1.extractLsb' 0 3).toFin) =
      (Except.ok p : Except DecodeError PName) := by
    intro p; fin_cases p <;> rfl
  exact h p
theorem dstName_name (n : VName) (k : BitVec 4) (hn' : decide (n.val ≤ 110) = true) (hk : (k != 0#4) = true) :
    Dec.dstName ⟨opc, f, ga, gb, ty, hn, y, (Enc.name n k).1, k, sa, low⟩ = .ok n := by
  have : (BitVec.ofNat 7 n.val).toNat = n.val := by simp; omega
  simp at hn' hk
  simp [Dec.dstName, Enc.name, this, hn', hk]
theorem name_rdc (n : VName) (k : BitVec 4) : (Enc.name n k).2 = k := rfl
theorem combine_comb (m : Combine) (dst : BitVec 7) (rdc : BitVec 4) (sb sd : BitVec 7) :
    Dec.combine ⟨opc, f, ga, gb, ty, Enc.combHn m, y, dst, rdc, sa, sb ++ Enc.combSc m ++ sd⟩ = .ok m := by
  have h : (Fields.mk opc f ga gb ty (Enc.combHn m) y dst rdc sa (sb ++ Enc.combSc m ++ sd)).sc = Enc.combSc m := by
    apply ext_bits; intro i hi; simp (disch := omega) only [BitVec.getLsbD_append, if_pos, if_neg]; congr 1; omega
  unfold Dec.combine
  rw [h]
  cases m with
  | none => rfl
  | and p => simp [Enc.combHn, Enc.combSc, predRow_pr, Dec.ok_bind, Dec.pure_ok]
  | or p => simp [Enc.combHn, Enc.combSc, predRow_pr, Dec.ok_bind, Dec.pure_ok]
  | xor p => simp [Enc.combHn, Enc.combSc, predRow_pr, Dec.ok_bind, Dec.pure_ok]
theorem dstQueue_push : Dec.dstQueue ⟨opc, f, ga, gb, ty, hn, y, (Enc.dst (.push .mxc)).1, (Enc.dst (.push .mxc)).2, sa, low⟩ 113 = .ok () := rfl
theorem dstQueue_pushc : Dec.dstQueue ⟨opc, f, ga, gb, ty, hn, y, (Enc.dst (.push .cpc)).1, (Enc.dst (.push .cpc)).2, sa, low⟩ 115 = .ok () := rfl
theorem name_val (n : VName) : (Enc.f7 n.val).toNat = n.val := by simp [Enc.f7]; omega
theorem bindName_f7 (n : VName) : Dec.bindName (Enc.f7 n.val) = .ok n := by
  simp [Dec.bindName, name_val]
theorem nameRow_f7 (n : VName) : Dec.nameRow (Enc.f7 n.val) = .ok n := by
  simp [Dec.nameRow, name_val]
theorem nameRow_name (n : VName) (k : BitVec 4) : Dec.nameRow (Enc.name n k).1 = .ok n := nameRow_f7 n

variable (dst : BitVec 7) (rdc : BitVec 4) (sb sc sd : BitVec 7) (v : BitVec 16)
theorem sb_low : (Fields.mk opc f ga gb ty hn y dst rdc sa (sb ++ sc ++ sd)).sb = sb := by
  apply ext_bits; intro i hi; simp (disch := omega) only [BitVec.getLsbD_append, if_neg]; congr 1; omega
theorem sc_low : (Fields.mk opc f ga gb ty hn y dst rdc sa (sb ++ sc ++ sd)).sc = sc := by
  apply ext_bits; intro i hi; simp (disch := omega) only [BitVec.getLsbD_append, if_pos, if_neg]; congr 1; omega
theorem sd_low : (Fields.mk opc f ga gb ty hn y dst rdc sa (sb ++ sc ++ sd)).sd = sd := by
  apply ext_bits; intro i hi; simp (disch := omega) only [BitVec.getLsbD_append, if_pos]; congr 1; omega
theorem imm_low : (Fields.mk opc f ga gb ty hn y dst rdc sa (0#5 ++ v)).imm = v := by
  apply ext_bits; intro i hi; simp (disch := omega) only [BitVec.getLsbD_append, if_pos]; congr 1; omega
theorem mid_low : (Fields.mk opc f ga gb ty hn y dst rdc sa (0#5 ++ v)).mid = 0#5 := by
  apply ext_bits; intro i hi; simp (disch := omega) only [BitVec.getLsbD_append, if_neg]; congr 1; omega
theorem hd_low (h : Hd) : Dec.hd (Fields.mk opc f h.ga.toBits h.gb.toBits ty hn h.y dst rdc sa low) = h := by
  simp [Dec.hd, Pred.ofBits_toBits]
theorem decode_rf (h : Hd) (t : ElemTy) (d : BitVec 7 × BitVec 4) :
    decode (Enc.rf opc h t hn d sa sb sc sd) = Dec.fields ⟨opc, false, h.ga.toBits, h.gb.toBits, t.code, hn, h.y, d.1, d.2, sa, sb ++ sc ++ sd⟩ := by
  simp [decode, Enc.rf, Fields.unpack_pack]
theorem decode_im (h : Hd) (t : ElemTy) (d : BitVec 7 × BitVec 4) :
    decode (Enc.im opc h t hn d sa v) = Dec.fields ⟨opc, true, h.ga.toBits, h.gb.toBits, t.code, hn, h.y, d.1, d.2, sa, 0#5 ++ v⟩ := by
  simp [decode, Enc.im, Fields.unpack_pack]

theorem nulF_beq : (Enc.nulF == 127#7) = true := rfl
theorem nulF_bne : (Enc.nulF != 127#7) = false := rfl
theorem code_beq (a : Src) : (a.code == 127#7) = false := by simp [code_ne]
theorem code_bne (a : Src) : (a.code != 127#7) = true := by simp [code_ne]
theorem cnt_lit (a : Hint) (c : Fin 64) : (a.code == 3#2 || (BitVec.ofFin c : BitVec 6) == 0#6) = (a == .counted || c == 0) := by
  have : ∀ c : Fin 64, ((BitVec.ofFin c : BitVec 6) == 0#6) = (c == 0) := by decide
  rw [this]; cases a <;> rfl
theorem nul_nul : Dec.nul Enc.nulF = .ok () := rfl
theorem lea_lit (sx : Bool) (sh : Fin 8) :
    (0#3 ++ BitVec.ofBool sx ++ (BitVec.ofFin sh : BitVec 3)).extractLsb' 4 3 = 0#3 := by revert sx sh; decide
theorem lea_sh (sx : Bool) (sh : Fin 8) :
    ((0#3 ++ BitVec.ofBool sx ++ (BitVec.ofFin sh : BitVec 3)).extractLsb' 0 3).toFin = sh := by revert sx sh; decide
theorem lea_sx (sx : Bool) (sh : Fin 8) :
    (0#3 ++ BitVec.ofBool sx ++ (BitVec.ofFin sh : BitVec 3)).getLsbD 3 = sx := by revert sx sh; decide
theorem p7_high (n : Fin 8) : (Enc.f7 n.val).extractLsb' 3 4 = 0#4 := by revert n; decide
theorem p7_low (n : Fin 8) : ((Enc.f7 n.val).extractLsb' 0 3).toFin = n := by revert n; decide
theorem p7_zero (n : Fin 8) : ((Enc.f7 n.val).extractLsb' 0 3 = 0#3) ↔ n = 0 := by revert n; decide
theorem icmp_lit (c : ICmp) : (Enc.f7 (Enc.icmp c)).extractLsb' 3 4 = 0#4 := by cases c <;> rfl
theorem icmp_val (c : ICmp) : Dec.icmp ((Enc.f7 (Enc.icmp c)).extractLsb' 0 3).toNat = .ok c := by cases c <;> rfl
theorem fcmp_lit (c : FCmp) : (Enc.f7 (Enc.fcmp c)).extractLsb' 4 3 = 0#3 := by cases c <;> rfl
theorem fcmp_val (c : FCmp) : Dec.fcmp ((Enc.f7 (Enc.fcmp c)).extractLsb' 0 4).toNat = .ok c := by cases c <;> rfl
theorem b1_hi (b : Bool) : (Enc.b1 b).getLsbD 1 = false := by cases b <;> rfl
theorem b1_lo (b : Bool) : (Enc.b1 b).getLsbD 0 = b := by cases b <;> rfl
theorem b2_hi (a b : Bool) : (Enc.b2 a b).getLsbD 1 = a := by cases a <;> cases b <;> rfl
theorem b2_lo (a b : Bool) : (Enc.b2 a b).getLsbD 0 = b := by cases a <;> cases b <;> rfl
theorem lut_eq (l : BitVec 8) : BitVec.ofBool (l.getLsbD 7) ++ l.extractLsb' 0 7 = l := by revert l; decide
theorem redop_hi (c : RedOp) : (Enc.f7 (Enc.redOp c)).extractLsb' 4 3 = 0#3 := by cases c <;> rfl
theorem redop_3 (c : RedOp) : (Enc.f7 (Enc.redOp c)).getLsbD 3 = false := by cases c <;> rfl
theorem redop_val (c : RedOp) : Dec.redOp ((Enc.f7 (Enc.redOp c)).extractLsb' 0 3).toNat = .ok c := by cases c <;> rfl
theorem scan_hi (e : Bool) (c : RedOp) : (0#3 ++ BitVec.ofBool e ++ BitVec.ofNat 3 (Enc.redOp c)).extractLsb' 4 3 = 0#3 := by cases e <;> cases c <;> rfl
theorem scan_3 (e : Bool) (c : RedOp) : (0#3 ++ BitVec.ofBool e ++ BitVec.ofNat 3 (Enc.redOp c)).getLsbD 3 = e := by cases e <;> cases c <;> rfl
theorem scan_val (e : Bool) (c : RedOp) : Dec.redOp ((0#3 ++ BitVec.ofBool e ++ BitVec.ofNat 3 (Enc.redOp c)).extractLsb' 0 3).toNat = .ok c := by cases e <;> cases c <;> rfl
theorem bit_hi (e : Bool) : (0#6 ++ BitVec.ofBool e).extractLsb' 1 6 = 0#6 := by cases e <;> rfl
theorem bit_lo (e : Bool) : (0#6 ++ BitVec.ofBool e).getLsbD 0 = e := by cases e <;> rfl
theorem cnt_low (e : Bool) (c : Fin 64) : (BitVec.ofBool e ++ (BitVec.ofFin c : BitVec 6)).extractLsb' 0 6 = BitVec.ofFin c := by revert e c; decide
theorem cnt_scl (e : Bool) (c : Fin 64) : (BitVec.ofBool e ++ (BitVec.ofFin c : BitVec 6)).getLsbD 6 = e := by revert e c; decide
theorem scl_low (e : Bool) : (BitVec.ofBool e ++ 0#6).extractLsb' 0 6 = 0#6 := by cases e <;> rfl
theorem scl_scl (e : Bool)  : (BitVec.ofBool e ++ 0#6).getLsbD 6 = e := by cases e <;> rfl
theorem atm_scope (sc : Fin 8) (op : Nat) : ((Enc.atm sc op).extractLsb' 4 3).toFin = sc := by
  have : ∀ (sc : Fin 8) (o : BitVec 4), (((BitVec.ofFin sc : BitVec 3) ++ o).extractLsb' 4 3).toFin = sc := by decide
  exact this sc _
theorem atm_op (sc : Fin 8) (op : Nat) : (Enc.atm sc op).extractLsb' 0 4 = BitVec.ofNat 4 op := by
  have : ∀ (sc : Fin 8) (o : BitVec 4), ((BitVec.ofFin sc : BitVec 3) ++ o).extractLsb' 0 4 = o := by decide
  exact this sc _
theorem atomOp_val (c : AtomOp) : Dec.atomOp (BitVec.ofNat 4 (Enc.atomOp c)).toNat = .ok c := by cases c <;> rfl
theorem await_val (c : AwaitCond) : Dec.awaitCond (BitVec.ofNat 4 (Enc.awaitCond c)).toNat = .ok c := by cases c <;> rfl
theorem cvt_lit (l : CvtLit) : ({ sel := ((Enc.cvt l).extractLsb' 5 2).toFin, sat := (Enc.cvt l).getLsbD 4, sty := ElemTy.ofCode ((Enc.cvt l).extractLsb' 0 4) } : CvtLit) = l := by
  obtain ⟨sel, sat, sty⟩ := l
  cases sty <;> revert sel sat <;> decide
theorem wait_lt (m : BitVec 12) : decide ((0#4 ++ m).toNat < 4096) = true := by
  have h := m.isLt; rw [BitVec.toNat_append]; simpa using h
theorem wait_val (m : BitVec 12) : (0#4 ++ m).extractLsb' 0 12 = m := by
  apply ext_bits; intro i hi; simp (disch := omega) only [BitVec.getLsbD_append, if_pos]; congr 1; omega
theorem p7_bne (n : Fin 8) : ((Enc.f7 n.val).extractLsb' 0 3 != 0#3) = (n != 0) := by revert n; decide
theorem xmode_row (m : XMode) : (Enc.xmode m != 3#2) = true := by cases m <;> rfl
theorem red_in (op : RedOp) (t : ElemTy) (h : op.accepts t = true) : t.inRed = true := by
  revert h; cases op <;> cases t <;> decide
theorem drop_val (n : BitVec 4) : (0#12 ++ n).extractLsb' 0 4 = n := by revert n; decide
theorem drop_nat (n : BitVec 4) : (0#12 ++ n).toNat = n.toNat := by revert n; decide
theorem hint_bne (a : Hint) : (a.code != 3#2) = (a != .counted) := by cases a <;> rfl
theorem b2_row (k : Bool) : (Enc.b2 k k == 0#2) = !k := by cases k <;> rfl
theorem b2_is (k : Bool) : (Enc.b2 k k == 3#2) = k := by cases k <;> rfl
theorem fence_lt (sc : Fin 8) (k : FenceKind) : decide ((0#11 ++ (BitVec.ofFin sc : BitVec 3) ++ Enc.fenceKind k).toNat < 32) = true := by
  cases k <;> revert sc <;> decide
theorem fence_sc (sc : Fin 8) (k : FenceKind) : ((0#11 ++ (BitVec.ofFin sc : BitVec 3) ++ Enc.fenceKind k).extractLsb' 2 3).toFin = sc := by
  cases k <;> revert sc <;> decide
theorem fence_acq (sc : Fin 8) : (0#11 ++ (BitVec.ofFin sc : BitVec 3) ++ Enc.fenceKind .acq).toNat % 4 = 1 := by revert sc; decide
theorem fence_rel (sc : Fin 8) : (0#11 ++ (BitVec.ofFin sc : BitVec 3) ++ Enc.fenceKind .rel).toNat % 4 = 2 := by revert sc; decide
theorem fence_full (sc : Fin 8) : (0#11 ++ (BitVec.ofFin sc : BitVec 3) ++ Enc.fenceKind .full).toNat % 4 = 3 := by revert sc; decide
theorem cpy_low (z : CpySize) (a b : Bool) : ((Enc.cpySize z ++ BitVec.ofBool a ++ BitVec.ofBool b ++ 0#3).extractLsb' 0 3 == 0#3) = true := by
  cases z <;> cases a <;> cases b <;> rfl
theorem cpy_ss (z : CpySize) (a b : Bool) : (Enc.cpySize z ++ BitVec.ofBool a ++ BitVec.ofBool b ++ 0#3).getLsbD 4 = a := by
  cases z <;> cases a <;> cases b <;> rfl
theorem cpy_ds (z : CpySize) (a b : Bool) : (Enc.cpySize z ++ BitVec.ofBool a ++ BitVec.ofBool b ++ 0#3).getLsbD 3 = b := by
  cases z <;> cases a <;> cases b <;> rfl
theorem cpy_z (z : CpySize) (a b : Bool) : ((Enc.cpySize z ++ BitVec.ofBool a ++ BitVec.ofBool b ++ 0#3).extractLsb' 5 2).toNat = (Enc.cpySize z).toNat := by
  cases z <;> cases a <;> cases b <;> rfl
theorem cpy_b4 : (Enc.cpySize .b4).toNat = 0 := rfl
theorem cpy_b8 : (Enc.cpySize .b8).toNat = 1 := rfl
theorem cpy_b16 : (Enc.cpySize .b16).toNat = 2 := rfl
theorem name_beq (n : VName) : (Enc.f7 n.val == 127#7) = false := by
  have := name_val n
  have h : Enc.f7 n.val ≠ 127#7 := by intro h; rw [h] at this; simp at this; omega
  simpa using h
theorem cvt_6 (l : CvtLit) (m : Bool) (h : l.wfPk8 m = true) : (Enc.cvt l).getLsbD 6 = false := by
  obtain ⟨sel, sat, sty⟩ := l
  cases m <;> cases sty <;> revert h <;> revert sel sat <;> decide
theorem opt_bne (c : Option Src) : (Enc.opt c != 127#7) = c.isSome := by
  cases c with
  | none => rfl
  | some a => simpa [Enc.opt] using code_ne a
theorem lit16 (n : Nat) (h : n < 32) : (BitVec.ofNat 16 n).toNat = n := by simp; omega
theorem combine_none : Dec.rsv true = .ok () := rfl

/-! ## The group of an opcode -/

theorem fields_ctl (w : Fields) (fn : Nat) (ha : opcAssigned w.opc = true) (hg : w.opc.toNat / 32 = 0) (hf : w.opc.toNat % 32 = fn) :
    Dec.fields w = Dec.ctl w fn := by
  simp [Dec.fields, ha, hg, hf]

theorem fields_int (w : Fields) (fn : Nat) (ha : opcAssigned w.opc = true) (hg : w.opc.toNat / 32 = 1) (hf : w.opc.toNat % 32 = fn) :
    Dec.fields w = Dec.int w fn := by
  simp [Dec.fields, ha, hg, hf]

theorem fields_bit (w : Fields) (fn : Nat) (ha : opcAssigned w.opc = true) (hg : w.opc.toNat / 32 = 2) (hf : w.opc.toNat % 32 = fn) :
    Dec.fields w = Dec.bit w fn := by
  simp [Dec.fields, ha, hg, hf]

theorem fields_prd (w : Fields) (fn : Nat) (ha : opcAssigned w.opc = true) (hg : w.opc.toNat / 32 = 3) (hf : w.opc.toNat % 32 = fn) :
    Dec.fields w = Dec.prd w fn := by
  simp [Dec.fields, ha, hg, hf]

theorem fields_flt (w : Fields) (fn : Nat) (ha : opcAssigned w.opc = true) (hg : w.opc.toNat / 32 = 4) (hf : w.opc.toNat % 32 = fn) :
    Dec.fields w = Dec.flt w fn := by
  simp [Dec.fields, ha, hg, hf]

theorem fields_cvtG (w : Fields) (fn : Nat) (ha : opcAssigned w.opc = true) (hg : w.opc.toNat / 32 = 5) (hf : w.opc.toNat % 32 = fn) :
    Dec.fields w = Dec.cvtG w fn := by
  simp [Dec.fields, ha, hg, hf]

theorem fields_sfuG (w : Fields) (fn : Nat) (ha : opcAssigned w.opc = true) (hg : w.opc.toNat / 32 = 6) (hf : w.opc.toNat % 32 = fn) :
    Dec.fields w = Dec.sfuG w fn := by
  simp [Dec.fields, ha, hg, hf]

theorem fields_xln (w : Fields) (fn : Nat) (ha : opcAssigned w.opc = true) (hg : w.opc.toNat / 32 = 7) (hf : w.opc.toNat % 32 = fn) :
    Dec.fields w = Dec.xln w fn := by
  simp [Dec.fields, ha, hg, hf]

theorem fields_cel (w : Fields) (fn : Nat) (ha : opcAssigned w.opc = true) (hg : w.opc.toNat / 32 = 8) (hf : w.opc.toNat % 32 = fn) :
    Dec.fields w = Dec.cel w fn := by
  simp [Dec.fields, ha, hg, hf]

theorem fields_mem (w : Fields) (fn : Nat) (ha : opcAssigned w.opc = true) (hg : w.opc.toNat / 32 = 9) (hf : w.opc.toNat % 32 = fn) :
    Dec.fields w = Dec.mem w fn := by
  simp [Dec.fields, ha, hg, hf]

theorem fields_atm (w : Fields) (fn : Nat) (ha : opcAssigned w.opc = true) (hg : w.opc.toNat / 32 = 10) (hf : w.opc.toNat % 32 = fn) :
    Dec.fields w = Dec.atm w fn := by
  simp [Dec.fields, ha, hg, hf]

theorem fields_cpyG (w : Fields) (fn : Nat) (ha : opcAssigned w.opc = true) (hg : w.opc.toNat / 32 = 11) (hf : w.opc.toNat % 32 = fn) :
    Dec.fields w = Dec.cpyG w fn := by
  simp [Dec.fields, ha, hg, hf]

theorem fields_mtxG (w : Fields) (fn : Nat) (ha : opcAssigned w.opc = true) (hg : w.opc.toNat / 32 = 12) (hf : w.opc.toNat % 32 = fn) :
    Dec.fields w = Dec.mtxG w fn := by
  simp [Dec.fields, ha, hg, hf]

theorem fields_tsk (w : Fields) (fn : Nat) (ha : opcAssigned w.opc = true) (hg : w.opc.toNat / 32 = 13) (hf : w.opc.toNat % 32 = fn) :
    Dec.fields w = Dec.tsk w fn := by
  simp [Dec.fields, ha, hg, hf]

theorem fields_sys (w : Fields) (fn : Nat) (ha : opcAssigned w.opc = true) (hg : w.opc.toNat / 32 = 14) (hf : w.opc.toNat % 32 = fn) :
    Dec.fields w = Dec.sys w fn := by
  simp [Dec.fields, ha, hg, hf]

end Sys2Proof
end

