-- ==== Sys2Proof/Laws/Events.lean ====
section
/-! SUPPORT. What the shared operations of the events answer: an event that can happen, a command register, a window's control word. -/

namespace Sys2Proof.Machine

/-- An event that can happen happens. -/
theorem happens_some {s t : State} {r : Option State} (h : r = some t) : happens s r = .next t := by simp [happens, h]

/-- A context command of the host in a state that admits it (R422). -/
theorem hostCommand_ready {s : State} {c : Nat} {l : List Nat} {act : State → State} (hc : c < Config.contexts) (hr : s.ident.ready = true) (hb : (s.ctx c).busy = false) (hst : (s.ctx c).st ∈ l) :
   hostCommand s c l act = act (setFail s c false) := by
  unfold hostCommand
  rw [if_neg (by omega)]
  simp [whenReady, hr, hb, hst]

/-- A context that was changed. -/
theorem ctx_updCtx_self {s : State} {c : Nat} {f : Context → Context} (h : c < s.contexts.length) : (s.updCtx c f).ctx c = f (s.ctx c) := by
  simp [State.updCtx, State.ctx, State.setCtx, h]

/-- R89: EN written 1 on a disabled window enables it where its fields are valid. -/
theorem ctlWrite_enables (s : State) (n : Nat) (x : W64) (h31 : x.getLsbD 31 = true) (h29 : x.getLsbD 29 = false) (he : (frwOf s n).en = false) :
   ctlWrite s n x = setFrw s n (if frwValid s n (State.frwFields { frwOf s n with cfgerr := false } x) = true then { State.frwFields { frwOf s n with cfgerr := false } x with en := true } else { State.frwFields { frwOf s n with cfgerr := false } x with cfgerr := true }) := by
  unfold ctlWrite
  simp only [h31, h29, he, Bool.false_eq_true, if_false, if_true]

/-- R89: EN written 0 closes an enabled window after its flush. -/
theorem ctlWrite_closes (s : State) (n : Nat) (x : W64) (h31 : x.getLsbD 31 = false) (h29 : x.getLsbD 29 = false) (he : (frwOf s n).en = true) :
   ctlWrite s n x = setFrw s n { frwOf s n with cfgerr := false, flush := true, closing := some x } := by
  unfold ctlWrite
  simp only [h31, h29, he, Bool.false_eq_true, if_false, if_true]

/-- R89: FLUSH written 1 on an enabled window starts its flush. -/
theorem ctlWrite_flushes (s : State) (n : Nat) (x : W64) (h31 : x.getLsbD 31 = true) (h29 : x.getLsbD 29 = false) (h30 : x.getLsbD 30 = true) (he : (frwOf s n).en = true) :
   ctlWrite s n x = setFrw s n { frwOf s n with cfgerr := false, flush := true } := by
  unfold ctlWrite
  simp only [h31, h29, h30, he, Bool.false_eq_true, if_false, if_true]

/-- R89: RSV written 1 clears the marks. -/
theorem ctlWrite_clearsRsv (s : State) (n : Nat) (x : W64) (h31 : x.getLsbD 31 = true) (h29 : x.getLsbD 29 = true) (h30 : x.getLsbD 30 = false) (he : (frwOf s n).en = true) :
   ctlWrite s n x = setFrw s n { frwOf s n with cfgerr := false, rsv := 0#8 } := by
  unfold ctlWrite
  simp only [h31, h29, h30, he, Bool.false_eq_true, if_false, if_true]

/-- R89: the host's write of a window's CTL when the device is ready. -/
theorem hostCtl_ready (s : State) (n : Nat) (x : W64) (hn : n < 16) (hr : s.ident.ready = true) : hostCtl s n x = ctlWrite s n x := by
  unfold hostCtl
  rw [if_pos hn]
  simp [whenReady, hr]

end Sys2Proof.Machine
end

