-- ==== Sys2Proof/Laws/State.lean ====
section
/-! SUPPORT. What each update of one record of State leaves in every field: true by definition, so that no proof unfolds an update. -/

namespace Sys2Proof.Machine

namespace State

/-! ## setCore -/

@[simp] theorem setCore_clk (s : State) (c : Nat) (k : Core) : (s.setCore c k).clk = s.clk := rfl
@[simp] theorem setCore_agenda (s : State) (c : Nat) (k : Core) : (s.setCore c k).agenda = s.agenda := rfl
@[simp] theorem setCore_focus (s : State) (c : Nat) (k : Core) : (s.setCore c k).focus = s.focus := rfl
@[simp] theorem setCore_freeCtr (s : State) (c : Nat) (k : Core) : (s.setCore c k).freeCtr = s.freeCtr := rfl
@[simp] theorem setCore_nextUid (s : State) (c : Nat) (k : Core) : (s.setCore c k).nextUid = s.nextUid := rfl
@[simp] theorem setCore_nextSeq (s : State) (c : Nat) (k : Core) : (s.setCore c k).nextSeq = s.nextSeq := rfl
@[simp] theorem setCore_mem (s : State) (c : Nat) (k : Core) : (s.setCore c k).mem = s.mem := rfl
@[simp] theorem setCore_enc (s : State) (c : Nat) (k : Core) : (s.setCore c k).enc = s.enc := rfl
@[simp] theorem setCore_vale (s : State) (c : Nat) (k : Core) : (s.setCore c k).vale = s.vale := rfl
@[simp] theorem setCore_leases (s : State) (c : Nat) (k : Core) : (s.setCore c k).leases = s.leases := rfl
@[simp] theorem setCore_retired (s : State) (c : Nat) (k : Core) : (s.setCore c k).retired = s.retired := rfl
@[simp] theorem setCore_quarantined (s : State) (c : Nat) (k : Core) : (s.setCore c k).quarantined = s.quarantined := rfl
@[simp] theorem setCore_walks (s : State) (c : Nat) (k : Core) : (s.setCore c k).walks = s.walks := rfl
@[simp] theorem setCore_frw (s : State) (c : Nat) (k : Core) : (s.setCore c k).frw = s.frw := rfl
@[simp] theorem setCore_threads (s : State) (c : Nat) (k : Core) : (s.setCore c k).threads = s.threads := rfl
@[simp] theorem setCore_rows (s : State) (c : Nat) (k : Core) : (s.setCore c k).rows = s.rows := rfl
@[simp] theorem setCore_gangs (s : State) (c : Nat) (k : Core) : (s.setCore c k).gangs = s.gangs := rfl
@[simp] theorem setCore_ops (s : State) (c : Nat) (k : Core) : (s.setCore c k).ops = s.ops := rfl
@[simp] theorem setCore_tasks (s : State) (c : Nat) (k : Core) : (s.setCore c k).tasks = s.tasks := rfl
@[simp] theorem setCore_fwdEdges (s : State) (c : Nat) (k : Core) : (s.setCore c k).fwdEdges = s.fwdEdges := rfl
@[simp] theorem setCore_contexts (s : State) (c : Nat) (k : Core) : (s.setCore c k).contexts = s.contexts := rfl
@[simp] theorem setCore_elhead (s : State) (c : Nat) (k : Core) : (s.setCore c k).elhead = s.elhead := rfl
@[simp] theorem setCore_eltail (s : State) (c : Nat) (k : Core) : (s.setCore c k).eltail = s.eltail := rfl
@[simp] theorem setCore_ellost (s : State) (c : Nat) (k : Core) : (s.setCore c k).ellost = s.ellost := rfl
@[simp] theorem setCore_cecnt (s : State) (c : Nat) (k : Core) : (s.setCore c k).cecnt = s.cecnt := rfl
@[simp] theorem setCore_elring (s : State) (c : Nat) (k : Core) : (s.setCore c k).elring = s.elring := rfl
@[simp] theorem setCore_nhead (s : State) (c : Nat) (k : Core) : (s.setCore c k).nhead = s.nhead := rfl
@[simp] theorem setCore_notif (s : State) (c : Nat) (k : Core) : (s.setCore c k).notif = s.notif := rfl
@[simp] theorem setCore_levels (s : State) (c : Nat) (k : Core) : (s.setCore c k).levels = s.levels := rfl
@[simp] theorem setCore_grants (s : State) (c : Nat) (k : Core) : (s.setCore c k).grants = s.grants := rfl
@[simp] theorem setCore_ident (s : State) (c : Nat) (k : Core) : (s.setCore c k).ident = s.ident := rfl
@[simp] theorem setCore_staging (s : State) (c : Nat) (k : Core) : (s.setCore c k).staging = s.staging := rfl
@[simp] theorem setCore_power (s : State) (c : Nat) (k : Core) : (s.setCore c k).power = s.power := rfl
@[simp] theorem setCore_lastRead (s : State) (c : Nat) (k : Core) : (s.setCore c k).lastRead = s.lastRead := rfl
@[simp] theorem setCore_agentClock (s : State) (c : Nat) (k : Core) : (s.setCore c k).agentClock = s.agentClock := rfl
@[simp] theorem setCore_peerWaits (s : State) (c : Nat) (k : Core) : (s.setCore c k).peerWaits = s.peerWaits := rfl
@[simp] theorem setCore_owed (s : State) (c : Nat) (k : Core) : (s.setCore c k).owed = s.owed := rfl
@[simp] theorem setCore_blames (s : State) (c : Nat) (k : Core) : (s.setCore c k).blames = s.blames := rfl
@[simp] theorem setCore_ctx (s : State) (c : Nat) (k : Core) (x : Nat) : (s.setCore c k).ctx x = s.ctx x := rfl
@[simp] theorem setCore_thread (s : State) (c : Nat) (k : Core) (x : Nat) : (s.setCore c k).thread x = s.thread x := rfl
@[simp] theorem setCore_gang (s : State) (c : Nat) (k : Core) (x : Nat) : (s.setCore c k).gang x = s.gang x := rfl
@[simp] theorem setCore_task (s : State) (c : Nat) (k : Core) (x : Nat) : (s.setCore c k).task x = s.task x := rfl
@[simp] theorem setCore_op (s : State) (c : Nat) (k : Core) (x : Nat) : (s.setCore c k).op x = s.op x := rfl
@[simp] theorem setCore_ilk (s : State) (c : Nat) (k : Core) (x : Nat) : (s.setCore c k).ilk x = s.ilk x := rfl
@[simp] theorem setCore_priv (s : State) (c : Nat) (k : Core) (x : Nat) : (s.setCore c k).priv x = s.priv x := rfl

/-! ## updCore -/

@[simp] theorem updCore_clk (s : State) (c : Nat) (f : Core → Core) : (s.updCore c f).clk = s.clk := rfl
@[simp] theorem updCore_agenda (s : State) (c : Nat) (f : Core → Core) : (s.updCore c f).agenda = s.agenda := rfl
@[simp] theorem updCore_focus (s : State) (c : Nat) (f : Core → Core) : (s.updCore c f).focus = s.focus := rfl
@[simp] theorem updCore_freeCtr (s : State) (c : Nat) (f : Core → Core) : (s.updCore c f).freeCtr = s.freeCtr := rfl
@[simp] theorem updCore_nextUid (s : State) (c : Nat) (f : Core → Core) : (s.updCore c f).nextUid = s.nextUid := rfl
@[simp] theorem updCore_nextSeq (s : State) (c : Nat) (f : Core → Core) : (s.updCore c f).nextSeq = s.nextSeq := rfl
@[simp] theorem updCore_mem (s : State) (c : Nat) (f : Core → Core) : (s.updCore c f).mem = s.mem := rfl
@[simp] theorem updCore_enc (s : State) (c : Nat) (f : Core → Core) : (s.updCore c f).enc = s.enc := rfl
@[simp] theorem updCore_vale (s : State) (c : Nat) (f : Core → Core) : (s.updCore c f).vale = s.vale := rfl
@[simp] theorem updCore_leases (s : State) (c : Nat) (f : Core → Core) : (s.updCore c f).leases = s.leases := rfl
@[simp] theorem updCore_retired (s : State) (c : Nat) (f : Core → Core) : (s.updCore c f).retired = s.retired := rfl
@[simp] theorem updCore_quarantined (s : State) (c : Nat) (f : Core → Core) : (s.updCore c f).quarantined = s.quarantined := rfl
@[simp] theorem updCore_walks (s : State) (c : Nat) (f : Core → Core) : (s.updCore c f).walks = s.walks := rfl
@[simp] theorem updCore_frw (s : State) (c : Nat) (f : Core → Core) : (s.updCore c f).frw = s.frw := rfl
@[simp] theorem updCore_threads (s : State) (c : Nat) (f : Core → Core) : (s.updCore c f).threads = s.threads := rfl
@[simp] theorem updCore_rows (s : State) (c : Nat) (f : Core → Core) : (s.updCore c f).rows = s.rows := rfl
@[simp] theorem updCore_gangs (s : State) (c : Nat) (f : Core → Core) : (s.updCore c f).gangs = s.gangs := rfl
@[simp] theorem updCore_ops (s : State) (c : Nat) (f : Core → Core) : (s.updCore c f).ops = s.ops := rfl
@[simp] theorem updCore_tasks (s : State) (c : Nat) (f : Core → Core) : (s.updCore c f).tasks = s.tasks := rfl
@[simp] theorem updCore_fwdEdges (s : State) (c : Nat) (f : Core → Core) : (s.updCore c f).fwdEdges = s.fwdEdges := rfl
@[simp] theorem updCore_contexts (s : State) (c : Nat) (f : Core → Core) : (s.updCore c f).contexts = s.contexts := rfl
@[simp] theorem updCore_elhead (s : State) (c : Nat) (f : Core → Core) : (s.updCore c f).elhead = s.elhead := rfl
@[simp] theorem updCore_eltail (s : State) (c : Nat) (f : Core → Core) : (s.updCore c f).eltail = s.eltail := rfl
@[simp] theorem updCore_ellost (s : State) (c : Nat) (f : Core → Core) : (s.updCore c f).ellost = s.ellost := rfl
@[simp] theorem updCore_cecnt (s : State) (c : Nat) (f : Core → Core) : (s.updCore c f).cecnt = s.cecnt := rfl
@[simp] theorem updCore_elring (s : State) (c : Nat) (f : Core → Core) : (s.updCore c f).elring = s.elring := rfl
@[simp] theorem updCore_nhead (s : State) (c : Nat) (f : Core → Core) : (s.updCore c f).nhead = s.nhead := rfl
@[simp] theorem updCore_notif (s : State) (c : Nat) (f : Core → Core) : (s.updCore c f).notif = s.notif := rfl
@[simp] theorem updCore_levels (s : State) (c : Nat) (f : Core → Core) : (s.updCore c f).levels = s.levels := rfl
@[simp] theorem updCore_grants (s : State) (c : Nat) (f : Core → Core) : (s.updCore c f).grants = s.grants := rfl
@[simp] theorem updCore_ident (s : State) (c : Nat) (f : Core → Core) : (s.updCore c f).ident = s.ident := rfl
@[simp] theorem updCore_staging (s : State) (c : Nat) (f : Core → Core) : (s.updCore c f).staging = s.staging := rfl
@[simp] theorem updCore_power (s : State) (c : Nat) (f : Core → Core) : (s.updCore c f).power = s.power := rfl
@[simp] theorem updCore_lastRead (s : State) (c : Nat) (f : Core → Core) : (s.updCore c f).lastRead = s.lastRead := rfl
@[simp] theorem updCore_agentClock (s : State) (c : Nat) (f : Core → Core) : (s.updCore c f).agentClock = s.agentClock := rfl
@[simp] theorem updCore_peerWaits (s : State) (c : Nat) (f : Core → Core) : (s.updCore c f).peerWaits = s.peerWaits := rfl
@[simp] theorem updCore_owed (s : State) (c : Nat) (f : Core → Core) : (s.updCore c f).owed = s.owed := rfl
@[simp] theorem updCore_blames (s : State) (c : Nat) (f : Core → Core) : (s.updCore c f).blames = s.blames := rfl
@[simp] theorem updCore_ctx (s : State) (c : Nat) (f : Core → Core) (x : Nat) : (s.updCore c f).ctx x = s.ctx x := rfl
@[simp] theorem updCore_thread (s : State) (c : Nat) (f : Core → Core) (x : Nat) : (s.updCore c f).thread x = s.thread x := rfl
@[simp] theorem updCore_gang (s : State) (c : Nat) (f : Core → Core) (x : Nat) : (s.updCore c f).gang x = s.gang x := rfl
@[simp] theorem updCore_task (s : State) (c : Nat) (f : Core → Core) (x : Nat) : (s.updCore c f).task x = s.task x := rfl
@[simp] theorem updCore_op (s : State) (c : Nat) (f : Core → Core) (x : Nat) : (s.updCore c f).op x = s.op x := rfl
@[simp] theorem updCore_ilk (s : State) (c : Nat) (f : Core → Core) (x : Nat) : (s.updCore c f).ilk x = s.ilk x := rfl
@[simp] theorem updCore_priv (s : State) (c : Nat) (f : Core → Core) (x : Nat) : (s.updCore c f).priv x = s.priv x := rfl

/-! ## setCtx -/

@[simp] theorem setCtx_clk (s : State) (c : Nat) (k : Context) : (s.setCtx c k).clk = s.clk := rfl
@[simp] theorem setCtx_agenda (s : State) (c : Nat) (k : Context) : (s.setCtx c k).agenda = s.agenda := rfl
@[simp] theorem setCtx_focus (s : State) (c : Nat) (k : Context) : (s.setCtx c k).focus = s.focus := rfl
@[simp] theorem setCtx_freeCtr (s : State) (c : Nat) (k : Context) : (s.setCtx c k).freeCtr = s.freeCtr := rfl
@[simp] theorem setCtx_nextUid (s : State) (c : Nat) (k : Context) : (s.setCtx c k).nextUid = s.nextUid := rfl
@[simp] theorem setCtx_nextSeq (s : State) (c : Nat) (k : Context) : (s.setCtx c k).nextSeq = s.nextSeq := rfl
@[simp] theorem setCtx_mem (s : State) (c : Nat) (k : Context) : (s.setCtx c k).mem = s.mem := rfl
@[simp] theorem setCtx_enc (s : State) (c : Nat) (k : Context) : (s.setCtx c k).enc = s.enc := rfl
@[simp] theorem setCtx_vale (s : State) (c : Nat) (k : Context) : (s.setCtx c k).vale = s.vale := rfl
@[simp] theorem setCtx_leases (s : State) (c : Nat) (k : Context) : (s.setCtx c k).leases = s.leases := rfl
@[simp] theorem setCtx_retired (s : State) (c : Nat) (k : Context) : (s.setCtx c k).retired = s.retired := rfl
@[simp] theorem setCtx_quarantined (s : State) (c : Nat) (k : Context) : (s.setCtx c k).quarantined = s.quarantined := rfl
@[simp] theorem setCtx_walks (s : State) (c : Nat) (k : Context) : (s.setCtx c k).walks = s.walks := rfl
@[simp] theorem setCtx_frw (s : State) (c : Nat) (k : Context) : (s.setCtx c k).frw = s.frw := rfl
@[simp] theorem setCtx_cores (s : State) (c : Nat) (k : Context) : (s.setCtx c k).cores = s.cores := rfl
@[simp] theorem setCtx_threads (s : State) (c : Nat) (k : Context) : (s.setCtx c k).threads = s.threads := rfl
@[simp] theorem setCtx_rows (s : State) (c : Nat) (k : Context) : (s.setCtx c k).rows = s.rows := rfl
@[simp] theorem setCtx_gangs (s : State) (c : Nat) (k : Context) : (s.setCtx c k).gangs = s.gangs := rfl
@[simp] theorem setCtx_ops (s : State) (c : Nat) (k : Context) : (s.setCtx c k).ops = s.ops := rfl
@[simp] theorem setCtx_tasks (s : State) (c : Nat) (k : Context) : (s.setCtx c k).tasks = s.tasks := rfl
@[simp] theorem setCtx_fwdEdges (s : State) (c : Nat) (k : Context) : (s.setCtx c k).fwdEdges = s.fwdEdges := rfl
@[simp] theorem setCtx_elhead (s : State) (c : Nat) (k : Context) : (s.setCtx c k).elhead = s.elhead := rfl
@[simp] theorem setCtx_eltail (s : State) (c : Nat) (k : Context) : (s.setCtx c k).eltail = s.eltail := rfl
@[simp] theorem setCtx_ellost (s : State) (c : Nat) (k : Context) : (s.setCtx c k).ellost = s.ellost := rfl
@[simp] theorem setCtx_cecnt (s : State) (c : Nat) (k : Context) : (s.setCtx c k).cecnt = s.cecnt := rfl
@[simp] theorem setCtx_elring (s : State) (c : Nat) (k : Context) : (s.setCtx c k).elring = s.elring := rfl
@[simp] theorem setCtx_nhead (s : State) (c : Nat) (k : Context) : (s.setCtx c k).nhead = s.nhead := rfl
@[simp] theorem setCtx_notif (s : State) (c : Nat) (k : Context) : (s.setCtx c k).notif = s.notif := rfl
@[simp] theorem setCtx_levels (s : State) (c : Nat) (k : Context) : (s.setCtx c k).levels = s.levels := rfl
@[simp] theorem setCtx_grants (s : State) (c : Nat) (k : Context) : (s.setCtx c k).grants = s.grants := rfl
@[simp] theorem setCtx_ident (s : State) (c : Nat) (k : Context) : (s.setCtx c k).ident = s.ident := rfl
@[simp] theorem setCtx_staging (s : State) (c : Nat) (k : Context) : (s.setCtx c k).staging = s.staging := rfl
@[simp] theorem setCtx_power (s : State) (c : Nat) (k : Context) : (s.setCtx c k).power = s.power := rfl
@[simp] theorem setCtx_lastRead (s : State) (c : Nat) (k : Context) : (s.setCtx c k).lastRead = s.lastRead := rfl
@[simp] theorem setCtx_agentClock (s : State) (c : Nat) (k : Context) : (s.setCtx c k).agentClock = s.agentClock := rfl
@[simp] theorem setCtx_peerWaits (s : State) (c : Nat) (k : Context) : (s.setCtx c k).peerWaits = s.peerWaits := rfl
@[simp] theorem setCtx_owed (s : State) (c : Nat) (k : Context) : (s.setCtx c k).owed = s.owed := rfl
@[simp] theorem setCtx_blames (s : State) (c : Nat) (k : Context) : (s.setCtx c k).blames = s.blames := rfl
@[simp] theorem setCtx_core (s : State) (c : Nat) (k : Context) (x : Nat) : (s.setCtx c k).core x = s.core x := rfl
@[simp] theorem setCtx_thread (s : State) (c : Nat) (k : Context) (x : Nat) : (s.setCtx c k).thread x = s.thread x := rfl
@[simp] theorem setCtx_gang (s : State) (c : Nat) (k : Context) (x : Nat) : (s.setCtx c k).gang x = s.gang x := rfl
@[simp] theorem setCtx_task (s : State) (c : Nat) (k : Context) (x : Nat) : (s.setCtx c k).task x = s.task x := rfl
@[simp] theorem setCtx_op (s : State) (c : Nat) (k : Context) (x : Nat) : (s.setCtx c k).op x = s.op x := rfl
@[simp] theorem setCtx_entry (s : State) (c : Nat) (k : Context) (x y : Nat) : (s.setCtx c k).entry x y = s.entry x y := rfl

/-! ## updCtx -/

@[simp] theorem updCtx_clk (s : State) (c : Nat) (f : Context → Context) : (s.updCtx c f).clk = s.clk := rfl
@[simp] theorem updCtx_agenda (s : State) (c : Nat) (f : Context → Context) : (s.updCtx c f).agenda = s.agenda := rfl
@[simp] theorem updCtx_focus (s : State) (c : Nat) (f : Context → Context) : (s.updCtx c f).focus = s.focus := rfl
@[simp] theorem updCtx_freeCtr (s : State) (c : Nat) (f : Context → Context) : (s.updCtx c f).freeCtr = s.freeCtr := rfl
@[simp] theorem updCtx_nextUid (s : State) (c : Nat) (f : Context → Context) : (s.updCtx c f).nextUid = s.nextUid := rfl
@[simp] theorem updCtx_nextSeq (s : State) (c : Nat) (f : Context → Context) : (s.updCtx c f).nextSeq = s.nextSeq := rfl
@[simp] theorem updCtx_mem (s : State) (c : Nat) (f : Context → Context) : (s.updCtx c f).mem = s.mem := rfl
@[simp] theorem updCtx_enc (s : State) (c : Nat) (f : Context → Context) : (s.updCtx c f).enc = s.enc := rfl
@[simp] theorem updCtx_vale (s : State) (c : Nat) (f : Context → Context) : (s.updCtx c f).vale = s.vale := rfl
@[simp] theorem updCtx_leases (s : State) (c : Nat) (f : Context → Context) : (s.updCtx c f).leases = s.leases := rfl
@[simp] theorem updCtx_retired (s : State) (c : Nat) (f : Context → Context) : (s.updCtx c f).retired = s.retired := rfl
@[simp] theorem updCtx_quarantined (s : State) (c : Nat) (f : Context → Context) : (s.updCtx c f).quarantined = s.quarantined := rfl
@[simp] theorem updCtx_walks (s : State) (c : Nat) (f : Context → Context) : (s.updCtx c f).walks = s.walks := rfl
@[simp] theorem updCtx_frw (s : State) (c : Nat) (f : Context → Context) : (s.updCtx c f).frw = s.frw := rfl
@[simp] theorem updCtx_cores (s : State) (c : Nat) (f : Context → Context) : (s.updCtx c f).cores = s.cores := rfl
@[simp] theorem updCtx_threads (s : State) (c : Nat) (f : Context → Context) : (s.updCtx c f).threads = s.threads := rfl
@[simp] theorem updCtx_rows (s : State) (c : Nat) (f : Context → Context) : (s.updCtx c f).rows = s.rows := rfl
@[simp] theorem updCtx_gangs (s : State) (c : Nat) (f : Context → Context) : (s.updCtx c f).gangs = s.gangs := rfl
@[simp] theorem updCtx_ops (s : State) (c : Nat) (f : Context → Context) : (s.updCtx c f).ops = s.ops := rfl
@[simp] theorem updCtx_tasks (s : State) (c : Nat) (f : Context → Context) : (s.updCtx c f).tasks = s.tasks := rfl
@[simp] theorem updCtx_fwdEdges (s : State) (c : Nat) (f : Context → Context) : (s.updCtx c f).fwdEdges = s.fwdEdges := rfl
@[simp] theorem updCtx_elhead (s : State) (c : Nat) (f : Context → Context) : (s.updCtx c f).elhead = s.elhead := rfl
@[simp] theorem updCtx_eltail (s : State) (c : Nat) (f : Context → Context) : (s.updCtx c f).eltail = s.eltail := rfl
@[simp] theorem updCtx_ellost (s : State) (c : Nat) (f : Context → Context) : (s.updCtx c f).ellost = s.ellost := rfl
@[simp] theorem updCtx_cecnt (s : State) (c : Nat) (f : Context → Context) : (s.updCtx c f).cecnt = s.cecnt := rfl
@[simp] theorem updCtx_elring (s : State) (c : Nat) (f : Context → Context) : (s.updCtx c f).elring = s.elring := rfl
@[simp] theorem updCtx_nhead (s : State) (c : Nat) (f : Context → Context) : (s.updCtx c f).nhead = s.nhead := rfl
@[simp] theorem updCtx_notif (s : State) (c : Nat) (f : Context → Context) : (s.updCtx c f).notif = s.notif := rfl
@[simp] theorem updCtx_levels (s : State) (c : Nat) (f : Context → Context) : (s.updCtx c f).levels = s.levels := rfl
@[simp] theorem updCtx_grants (s : State) (c : Nat) (f : Context → Context) : (s.updCtx c f).grants = s.grants := rfl
@[simp] theorem updCtx_ident (s : State) (c : Nat) (f : Context → Context) : (s.updCtx c f).ident = s.ident := rfl
@[simp] theorem updCtx_staging (s : State) (c : Nat) (f : Context → Context) : (s.updCtx c f).staging = s.staging := rfl
@[simp] theorem updCtx_power (s : State) (c : Nat) (f : Context → Context) : (s.updCtx c f).power = s.power := rfl
@[simp] theorem updCtx_lastRead (s : State) (c : Nat) (f : Context → Context) : (s.updCtx c f).lastRead = s.lastRead := rfl
@[simp] theorem updCtx_agentClock (s : State) (c : Nat) (f : Context → Context) : (s.updCtx c f).agentClock = s.agentClock := rfl
@[simp] theorem updCtx_peerWaits (s : State) (c : Nat) (f : Context → Context) : (s.updCtx c f).peerWaits = s.peerWaits := rfl
@[simp] theorem updCtx_owed (s : State) (c : Nat) (f : Context → Context) : (s.updCtx c f).owed = s.owed := rfl
@[simp] theorem updCtx_blames (s : State) (c : Nat) (f : Context → Context) : (s.updCtx c f).blames = s.blames := rfl
@[simp] theorem updCtx_core (s : State) (c : Nat) (f : Context → Context) (x : Nat) : (s.updCtx c f).core x = s.core x := rfl
@[simp] theorem updCtx_thread (s : State) (c : Nat) (f : Context → Context) (x : Nat) : (s.updCtx c f).thread x = s.thread x := rfl
@[simp] theorem updCtx_gang (s : State) (c : Nat) (f : Context → Context) (x : Nat) : (s.updCtx c f).gang x = s.gang x := rfl
@[simp] theorem updCtx_task (s : State) (c : Nat) (f : Context → Context) (x : Nat) : (s.updCtx c f).task x = s.task x := rfl
@[simp] theorem updCtx_op (s : State) (c : Nat) (f : Context → Context) (x : Nat) : (s.updCtx c f).op x = s.op x := rfl
@[simp] theorem updCtx_entry (s : State) (c : Nat) (f : Context → Context) (x y : Nat) : (s.updCtx c f).entry x y = s.entry x y := rfl

/-! ## updThread -/

@[simp] theorem updThread_clk (s : State) (i : Nat) (f : Thread → Thread) : (s.updThread i f).clk = s.clk := rfl
@[simp] theorem updThread_agenda (s : State) (i : Nat) (f : Thread → Thread) : (s.updThread i f).agenda = s.agenda := rfl
@[simp] theorem updThread_focus (s : State) (i : Nat) (f : Thread → Thread) : (s.updThread i f).focus = s.focus := rfl
@[simp] theorem updThread_freeCtr (s : State) (i : Nat) (f : Thread → Thread) : (s.updThread i f).freeCtr = s.freeCtr := rfl
@[simp] theorem updThread_nextUid (s : State) (i : Nat) (f : Thread → Thread) : (s.updThread i f).nextUid = s.nextUid := rfl
@[simp] theorem updThread_nextSeq (s : State) (i : Nat) (f : Thread → Thread) : (s.updThread i f).nextSeq = s.nextSeq := rfl
@[simp] theorem updThread_mem (s : State) (i : Nat) (f : Thread → Thread) : (s.updThread i f).mem = s.mem := rfl
@[simp] theorem updThread_enc (s : State) (i : Nat) (f : Thread → Thread) : (s.updThread i f).enc = s.enc := rfl
@[simp] theorem updThread_vale (s : State) (i : Nat) (f : Thread → Thread) : (s.updThread i f).vale = s.vale := rfl
@[simp] theorem updThread_leases (s : State) (i : Nat) (f : Thread → Thread) : (s.updThread i f).leases = s.leases := rfl
@[simp] theorem updThread_retired (s : State) (i : Nat) (f : Thread → Thread) : (s.updThread i f).retired = s.retired := rfl
@[simp] theorem updThread_quarantined (s : State) (i : Nat) (f : Thread → Thread) : (s.updThread i f).quarantined = s.quarantined := rfl
@[simp] theorem updThread_walks (s : State) (i : Nat) (f : Thread → Thread) : (s.updThread i f).walks = s.walks := rfl
@[simp] theorem updThread_frw (s : State) (i : Nat) (f : Thread → Thread) : (s.updThread i f).frw = s.frw := rfl
@[simp] theorem updThread_cores (s : State) (i : Nat) (f : Thread → Thread) : (s.updThread i f).cores = s.cores := rfl
@[simp] theorem updThread_rows (s : State) (i : Nat) (f : Thread → Thread) : (s.updThread i f).rows = s.rows := rfl
@[simp] theorem updThread_gangs (s : State) (i : Nat) (f : Thread → Thread) : (s.updThread i f).gangs = s.gangs := rfl
@[simp] theorem updThread_ops (s : State) (i : Nat) (f : Thread → Thread) : (s.updThread i f).ops = s.ops := rfl
@[simp] theorem updThread_tasks (s : State) (i : Nat) (f : Thread → Thread) : (s.updThread i f).tasks = s.tasks := rfl
@[simp] theorem updThread_fwdEdges (s : State) (i : Nat) (f : Thread → Thread) : (s.updThread i f).fwdEdges = s.fwdEdges := rfl
@[simp] theorem updThread_contexts (s : State) (i : Nat) (f : Thread → Thread) : (s.updThread i f).contexts = s.contexts := rfl
@[simp] theorem updThread_elhead (s : State) (i : Nat) (f : Thread → Thread) : (s.updThread i f).elhead = s.elhead := rfl
@[simp] theorem updThread_eltail (s : State) (i : Nat) (f : Thread → Thread) : (s.updThread i f).eltail = s.eltail := rfl
@[simp] theorem updThread_ellost (s : State) (i : Nat) (f : Thread → Thread) : (s.updThread i f).ellost = s.ellost := rfl
@[simp] theorem updThread_cecnt (s : State) (i : Nat) (f : Thread → Thread) : (s.updThread i f).cecnt = s.cecnt := rfl
@[simp] theorem updThread_elring (s : State) (i : Nat) (f : Thread → Thread) : (s.updThread i f).elring = s.elring := rfl
@[simp] theorem updThread_nhead (s : State) (i : Nat) (f : Thread → Thread) : (s.updThread i f).nhead = s.nhead := rfl
@[simp] theorem updThread_notif (s : State) (i : Nat) (f : Thread → Thread) : (s.updThread i f).notif = s.notif := rfl
@[simp] theorem updThread_levels (s : State) (i : Nat) (f : Thread → Thread) : (s.updThread i f).levels = s.levels := rfl
@[simp] theorem updThread_grants (s : State) (i : Nat) (f : Thread → Thread) : (s.updThread i f).grants = s.grants := rfl
@[simp] theorem updThread_ident (s : State) (i : Nat) (f : Thread → Thread) : (s.updThread i f).ident = s.ident := rfl
@[simp] theorem updThread_staging (s : State) (i : Nat) (f : Thread → Thread) : (s.updThread i f).staging = s.staging := rfl
@[simp] theorem updThread_power (s : State) (i : Nat) (f : Thread → Thread) : (s.updThread i f).power = s.power := rfl
@[simp] theorem updThread_lastRead (s : State) (i : Nat) (f : Thread → Thread) : (s.updThread i f).lastRead = s.lastRead := rfl
@[simp] theorem updThread_agentClock (s : State) (i : Nat) (f : Thread → Thread) : (s.updThread i f).agentClock = s.agentClock := rfl
@[simp] theorem updThread_peerWaits (s : State) (i : Nat) (f : Thread → Thread) : (s.updThread i f).peerWaits = s.peerWaits := rfl
@[simp] theorem updThread_owed (s : State) (i : Nat) (f : Thread → Thread) : (s.updThread i f).owed = s.owed := rfl
@[simp] theorem updThread_blames (s : State) (i : Nat) (f : Thread → Thread) : (s.updThread i f).blames = s.blames := rfl
@[simp] theorem updThread_core (s : State) (i : Nat) (f : Thread → Thread) (x : Nat) : (s.updThread i f).core x = s.core x := rfl
@[simp] theorem updThread_ctx (s : State) (i : Nat) (f : Thread → Thread) (x : Nat) : (s.updThread i f).ctx x = s.ctx x := rfl
@[simp] theorem updThread_gang (s : State) (i : Nat) (f : Thread → Thread) (x : Nat) : (s.updThread i f).gang x = s.gang x := rfl
@[simp] theorem updThread_task (s : State) (i : Nat) (f : Thread → Thread) (x : Nat) : (s.updThread i f).task x = s.task x := rfl
@[simp] theorem updThread_op (s : State) (i : Nat) (f : Thread → Thread) (x : Nat) : (s.updThread i f).op x = s.op x := rfl
@[simp] theorem updThread_entry (s : State) (i : Nat) (f : Thread → Thread) (x y : Nat) : (s.updThread i f).entry x y = s.entry x y := rfl
@[simp] theorem updThread_ilk (s : State) (i : Nat) (f : Thread → Thread) (x : Nat) : (s.updThread i f).ilk x = s.ilk x := rfl
@[simp] theorem updThread_priv (s : State) (i : Nat) (f : Thread → Thread) (x : Nat) : (s.updThread i f).priv x = s.priv x := rfl

/-! ## updRow -/

@[simp] theorem updRow_clk (s : State) (c n : Nat) (f : Row → Row) : (s.updRow c n f).clk = s.clk := rfl
@[simp] theorem updRow_agenda (s : State) (c n : Nat) (f : Row → Row) : (s.updRow c n f).agenda = s.agenda := rfl
@[simp] theorem updRow_focus (s : State) (c n : Nat) (f : Row → Row) : (s.updRow c n f).focus = s.focus := rfl
@[simp] theorem updRow_freeCtr (s : State) (c n : Nat) (f : Row → Row) : (s.updRow c n f).freeCtr = s.freeCtr := rfl
@[simp] theorem updRow_nextUid (s : State) (c n : Nat) (f : Row → Row) : (s.updRow c n f).nextUid = s.nextUid := rfl
@[simp] theorem updRow_nextSeq (s : State) (c n : Nat) (f : Row → Row) : (s.updRow c n f).nextSeq = s.nextSeq := rfl
@[simp] theorem updRow_mem (s : State) (c n : Nat) (f : Row → Row) : (s.updRow c n f).mem = s.mem := rfl
@[simp] theorem updRow_enc (s : State) (c n : Nat) (f : Row → Row) : (s.updRow c n f).enc = s.enc := rfl
@[simp] theorem updRow_vale (s : State) (c n : Nat) (f : Row → Row) : (s.updRow c n f).vale = s.vale := rfl
@[simp] theorem updRow_leases (s : State) (c n : Nat) (f : Row → Row) : (s.updRow c n f).leases = s.leases := rfl
@[simp] theorem updRow_retired (s : State) (c n : Nat) (f : Row → Row) : (s.updRow c n f).retired = s.retired := rfl
@[simp] theorem updRow_quarantined (s : State) (c n : Nat) (f : Row → Row) : (s.updRow c n f).quarantined = s.quarantined := rfl
@[simp] theorem updRow_walks (s : State) (c n : Nat) (f : Row → Row) : (s.updRow c n f).walks = s.walks := rfl
@[simp] theorem updRow_frw (s : State) (c n : Nat) (f : Row → Row) : (s.updRow c n f).frw = s.frw := rfl
@[simp] theorem updRow_cores (s : State) (c n : Nat) (f : Row → Row) : (s.updRow c n f).cores = s.cores := rfl
@[simp] theorem updRow_threads (s : State) (c n : Nat) (f : Row → Row) : (s.updRow c n f).threads = s.threads := rfl
@[simp] theorem updRow_gangs (s : State) (c n : Nat) (f : Row → Row) : (s.updRow c n f).gangs = s.gangs := rfl
@[simp] theorem updRow_ops (s : State) (c n : Nat) (f : Row → Row) : (s.updRow c n f).ops = s.ops := rfl
@[simp] theorem updRow_tasks (s : State) (c n : Nat) (f : Row → Row) : (s.updRow c n f).tasks = s.tasks := rfl
@[simp] theorem updRow_fwdEdges (s : State) (c n : Nat) (f : Row → Row) : (s.updRow c n f).fwdEdges = s.fwdEdges := rfl
@[simp] theorem updRow_contexts (s : State) (c n : Nat) (f : Row → Row) : (s.updRow c n f).contexts = s.contexts := rfl
@[simp] theorem updRow_elhead (s : State) (c n : Nat) (f : Row → Row) : (s.updRow c n f).elhead = s.elhead := rfl
@[simp] theorem updRow_eltail (s : State) (c n : Nat) (f : Row → Row) : (s.updRow c n f).eltail = s.eltail := rfl
@[simp] theorem updRow_ellost (s : State) (c n : Nat) (f : Row → Row) : (s.updRow c n f).ellost = s.ellost := rfl
@[simp] theorem updRow_cecnt (s : State) (c n : Nat) (f : Row → Row) : (s.updRow c n f).cecnt = s.cecnt := rfl
@[simp] theorem updRow_elring (s : State) (c n : Nat) (f : Row → Row) : (s.updRow c n f).elring = s.elring := rfl
@[simp] theorem updRow_nhead (s : State) (c n : Nat) (f : Row → Row) : (s.updRow c n f).nhead = s.nhead := rfl
@[simp] theorem updRow_notif (s : State) (c n : Nat) (f : Row → Row) : (s.updRow c n f).notif = s.notif := rfl
@[simp] theorem updRow_levels (s : State) (c n : Nat) (f : Row → Row) : (s.updRow c n f).levels = s.levels := rfl
@[simp] theorem updRow_grants (s : State) (c n : Nat) (f : Row → Row) : (s.updRow c n f).grants = s.grants := rfl
@[simp] theorem updRow_ident (s : State) (c n : Nat) (f : Row → Row) : (s.updRow c n f).ident = s.ident := rfl
@[simp] theorem updRow_staging (s : State) (c n : Nat) (f : Row → Row) : (s.updRow c n f).staging = s.staging := rfl
@[simp] theorem updRow_power (s : State) (c n : Nat) (f : Row → Row) : (s.updRow c n f).power = s.power := rfl
@[simp] theorem updRow_lastRead (s : State) (c n : Nat) (f : Row → Row) : (s.updRow c n f).lastRead = s.lastRead := rfl
@[simp] theorem updRow_agentClock (s : State) (c n : Nat) (f : Row → Row) : (s.updRow c n f).agentClock = s.agentClock := rfl
@[simp] theorem updRow_peerWaits (s : State) (c n : Nat) (f : Row → Row) : (s.updRow c n f).peerWaits = s.peerWaits := rfl
@[simp] theorem updRow_owed (s : State) (c n : Nat) (f : Row → Row) : (s.updRow c n f).owed = s.owed := rfl
@[simp] theorem updRow_blames (s : State) (c n : Nat) (f : Row → Row) : (s.updRow c n f).blames = s.blames := rfl
@[simp] theorem updRow_core (s : State) (c n : Nat) (f : Row → Row) (x : Nat) : (s.updRow c n f).core x = s.core x := rfl
@[simp] theorem updRow_ctx (s : State) (c n : Nat) (f : Row → Row) (x : Nat) : (s.updRow c n f).ctx x = s.ctx x := rfl
@[simp] theorem updRow_thread (s : State) (c n : Nat) (f : Row → Row) (x : Nat) : (s.updRow c n f).thread x = s.thread x := rfl
@[simp] theorem updRow_gang (s : State) (c n : Nat) (f : Row → Row) (x : Nat) : (s.updRow c n f).gang x = s.gang x := rfl
@[simp] theorem updRow_task (s : State) (c n : Nat) (f : Row → Row) (x : Nat) : (s.updRow c n f).task x = s.task x := rfl
@[simp] theorem updRow_op (s : State) (c n : Nat) (f : Row → Row) (x : Nat) : (s.updRow c n f).op x = s.op x := rfl
@[simp] theorem updRow_entry (s : State) (c n : Nat) (f : Row → Row) (x y : Nat) : (s.updRow c n f).entry x y = s.entry x y := rfl
@[simp] theorem updRow_ilk (s : State) (c n : Nat) (f : Row → Row) (x : Nat) : (s.updRow c n f).ilk x = s.ilk x := rfl
@[simp] theorem updRow_priv (s : State) (c n : Nat) (f : Row → Row) (x : Nat) : (s.updRow c n f).priv x = s.priv x := rfl

/-! ## updGang -/

@[simp] theorem updGang_clk (s : State) (i : Nat) (f : Gang → Gang) : (s.updGang i f).clk = s.clk := rfl
@[simp] theorem updGang_agenda (s : State) (i : Nat) (f : Gang → Gang) : (s.updGang i f).agenda = s.agenda := rfl
@[simp] theorem updGang_focus (s : State) (i : Nat) (f : Gang → Gang) : (s.updGang i f).focus = s.focus := rfl
@[simp] theorem updGang_freeCtr (s : State) (i : Nat) (f : Gang → Gang) : (s.updGang i f).freeCtr = s.freeCtr := rfl
@[simp] theorem updGang_nextUid (s : State) (i : Nat) (f : Gang → Gang) : (s.updGang i f).nextUid = s.nextUid := rfl
@[simp] theorem updGang_nextSeq (s : State) (i : Nat) (f : Gang → Gang) : (s.updGang i f).nextSeq = s.nextSeq := rfl
@[simp] theorem updGang_mem (s : State) (i : Nat) (f : Gang → Gang) : (s.updGang i f).mem = s.mem := rfl
@[simp] theorem updGang_enc (s : State) (i : Nat) (f : Gang → Gang) : (s.updGang i f).enc = s.enc := rfl
@[simp] theorem updGang_vale (s : State) (i : Nat) (f : Gang → Gang) : (s.updGang i f).vale = s.vale := rfl
@[simp] theorem updGang_leases (s : State) (i : Nat) (f : Gang → Gang) : (s.updGang i f).leases = s.leases := rfl
@[simp] theorem updGang_retired (s : State) (i : Nat) (f : Gang → Gang) : (s.updGang i f).retired = s.retired := rfl
@[simp] theorem updGang_quarantined (s : State) (i : Nat) (f : Gang → Gang) : (s.updGang i f).quarantined = s.quarantined := rfl
@[simp] theorem updGang_walks (s : State) (i : Nat) (f : Gang → Gang) : (s.updGang i f).walks = s.walks := rfl
@[simp] theorem updGang_frw (s : State) (i : Nat) (f : Gang → Gang) : (s.updGang i f).frw = s.frw := rfl
@[simp] theorem updGang_cores (s : State) (i : Nat) (f : Gang → Gang) : (s.updGang i f).cores = s.cores := rfl
@[simp] theorem updGang_threads (s : State) (i : Nat) (f : Gang → Gang) : (s.updGang i f).threads = s.threads := rfl
@[simp] theorem updGang_rows (s : State) (i : Nat) (f : Gang → Gang) : (s.updGang i f).rows = s.rows := rfl
@[simp] theorem updGang_ops (s : State) (i : Nat) (f : Gang → Gang) : (s.updGang i f).ops = s.ops := rfl
@[simp] theorem updGang_tasks (s : State) (i : Nat) (f : Gang → Gang) : (s.updGang i f).tasks = s.tasks := rfl
@[simp] theorem updGang_fwdEdges (s : State) (i : Nat) (f : Gang → Gang) : (s.updGang i f).fwdEdges = s.fwdEdges := rfl
@[simp] theorem updGang_contexts (s : State) (i : Nat) (f : Gang → Gang) : (s.updGang i f).contexts = s.contexts := rfl
@[simp] theorem updGang_elhead (s : State) (i : Nat) (f : Gang → Gang) : (s.updGang i f).elhead = s.elhead := rfl
@[simp] theorem updGang_eltail (s : State) (i : Nat) (f : Gang → Gang) : (s.updGang i f).eltail = s.eltail := rfl
@[simp] theorem updGang_ellost (s : State) (i : Nat) (f : Gang → Gang) : (s.updGang i f).ellost = s.ellost := rfl
@[simp] theorem updGang_cecnt (s : State) (i : Nat) (f : Gang → Gang) : (s.updGang i f).cecnt = s.cecnt := rfl
@[simp] theorem updGang_elring (s : State) (i : Nat) (f : Gang → Gang) : (s.updGang i f).elring = s.elring := rfl
@[simp] theorem updGang_nhead (s : State) (i : Nat) (f : Gang → Gang) : (s.updGang i f).nhead = s.nhead := rfl
@[simp] theorem updGang_notif (s : State) (i : Nat) (f : Gang → Gang) : (s.updGang i f).notif = s.notif := rfl
@[simp] theorem updGang_levels (s : State) (i : Nat) (f : Gang → Gang) : (s.updGang i f).levels = s.levels := rfl
@[simp] theorem updGang_grants (s : State) (i : Nat) (f : Gang → Gang) : (s.updGang i f).grants = s.grants := rfl
@[simp] theorem updGang_ident (s : State) (i : Nat) (f : Gang → Gang) : (s.updGang i f).ident = s.ident := rfl
@[simp] theorem updGang_staging (s : State) (i : Nat) (f : Gang → Gang) : (s.updGang i f).staging = s.staging := rfl
@[simp] theorem updGang_power (s : State) (i : Nat) (f : Gang → Gang) : (s.updGang i f).power = s.power := rfl
@[simp] theorem updGang_lastRead (s : State) (i : Nat) (f : Gang → Gang) : (s.updGang i f).lastRead = s.lastRead := rfl
@[simp] theorem updGang_agentClock (s : State) (i : Nat) (f : Gang → Gang) : (s.updGang i f).agentClock = s.agentClock := rfl
@[simp] theorem updGang_peerWaits (s : State) (i : Nat) (f : Gang → Gang) : (s.updGang i f).peerWaits = s.peerWaits := rfl
@[simp] theorem updGang_owed (s : State) (i : Nat) (f : Gang → Gang) : (s.updGang i f).owed = s.owed := rfl
@[simp] theorem updGang_blames (s : State) (i : Nat) (f : Gang → Gang) : (s.updGang i f).blames = s.blames := rfl
@[simp] theorem updGang_core (s : State) (i : Nat) (f : Gang → Gang) (x : Nat) : (s.updGang i f).core x = s.core x := rfl
@[simp] theorem updGang_ctx (s : State) (i : Nat) (f : Gang → Gang) (x : Nat) : (s.updGang i f).ctx x = s.ctx x := rfl
@[simp] theorem updGang_thread (s : State) (i : Nat) (f : Gang → Gang) (x : Nat) : (s.updGang i f).thread x = s.thread x := rfl
@[simp] theorem updGang_task (s : State) (i : Nat) (f : Gang → Gang) (x : Nat) : (s.updGang i f).task x = s.task x := rfl
@[simp] theorem updGang_op (s : State) (i : Nat) (f : Gang → Gang) (x : Nat) : (s.updGang i f).op x = s.op x := rfl
@[simp] theorem updGang_entry (s : State) (i : Nat) (f : Gang → Gang) (x y : Nat) : (s.updGang i f).entry x y = s.entry x y := rfl
@[simp] theorem updGang_ilk (s : State) (i : Nat) (f : Gang → Gang) (x : Nat) : (s.updGang i f).ilk x = s.ilk x := rfl
@[simp] theorem updGang_priv (s : State) (i : Nat) (f : Gang → Gang) (x : Nat) : (s.updGang i f).priv x = s.priv x := rfl

/-! ## updTask -/

@[simp] theorem updTask_clk (s : State) (i : Nat) (f : Task → Task) : (s.updTask i f).clk = s.clk := rfl
@[simp] theorem updTask_agenda (s : State) (i : Nat) (f : Task → Task) : (s.updTask i f).agenda = s.agenda := rfl
@[simp] theorem updTask_focus (s : State) (i : Nat) (f : Task → Task) : (s.updTask i f).focus = s.focus := rfl
@[simp] theorem updTask_freeCtr (s : State) (i : Nat) (f : Task → Task) : (s.updTask i f).freeCtr = s.freeCtr := rfl
@[simp] theorem updTask_nextUid (s : State) (i : Nat) (f : Task → Task) : (s.updTask i f).nextUid = s.nextUid := rfl
@[simp] theorem updTask_nextSeq (s : State) (i : Nat) (f : Task → Task) : (s.updTask i f).nextSeq = s.nextSeq := rfl
@[simp] theorem updTask_mem (s : State) (i : Nat) (f : Task → Task) : (s.updTask i f).mem = s.mem := rfl
@[simp] theorem updTask_enc (s : State) (i : Nat) (f : Task → Task) : (s.updTask i f).enc = s.enc := rfl
@[simp] theorem updTask_vale (s : State) (i : Nat) (f : Task → Task) : (s.updTask i f).vale = s.vale := rfl
@[simp] theorem updTask_leases (s : State) (i : Nat) (f : Task → Task) : (s.updTask i f).leases = s.leases := rfl
@[simp] theorem updTask_retired (s : State) (i : Nat) (f : Task → Task) : (s.updTask i f).retired = s.retired := rfl
@[simp] theorem updTask_quarantined (s : State) (i : Nat) (f : Task → Task) : (s.updTask i f).quarantined = s.quarantined := rfl
@[simp] theorem updTask_walks (s : State) (i : Nat) (f : Task → Task) : (s.updTask i f).walks = s.walks := rfl
@[simp] theorem updTask_frw (s : State) (i : Nat) (f : Task → Task) : (s.updTask i f).frw = s.frw := rfl
@[simp] theorem updTask_cores (s : State) (i : Nat) (f : Task → Task) : (s.updTask i f).cores = s.cores := rfl
@[simp] theorem updTask_threads (s : State) (i : Nat) (f : Task → Task) : (s.updTask i f).threads = s.threads := rfl
@[simp] theorem updTask_rows (s : State) (i : Nat) (f : Task → Task) : (s.updTask i f).rows = s.rows := rfl
@[simp] theorem updTask_gangs (s : State) (i : Nat) (f : Task → Task) : (s.updTask i f).gangs = s.gangs := rfl
@[simp] theorem updTask_ops (s : State) (i : Nat) (f : Task → Task) : (s.updTask i f).ops = s.ops := rfl
@[simp] theorem updTask_fwdEdges (s : State) (i : Nat) (f : Task → Task) : (s.updTask i f).fwdEdges = s.fwdEdges := rfl
@[simp] theorem updTask_contexts (s : State) (i : Nat) (f : Task → Task) : (s.updTask i f).contexts = s.contexts := rfl
@[simp] theorem updTask_elhead (s : State) (i : Nat) (f : Task → Task) : (s.updTask i f).elhead = s.elhead := rfl
@[simp] theorem updTask_eltail (s : State) (i : Nat) (f : Task → Task) : (s.updTask i f).eltail = s.eltail := rfl
@[simp] theorem updTask_ellost (s : State) (i : Nat) (f : Task → Task) : (s.updTask i f).ellost = s.ellost := rfl
@[simp] theorem updTask_cecnt (s : State) (i : Nat) (f : Task → Task) : (s.updTask i f).cecnt = s.cecnt := rfl
@[simp] theorem updTask_elring (s : State) (i : Nat) (f : Task → Task) : (s.updTask i f).elring = s.elring := rfl
@[simp] theorem updTask_nhead (s : State) (i : Nat) (f : Task → Task) : (s.updTask i f).nhead = s.nhead := rfl
@[simp] theorem updTask_notif (s : State) (i : Nat) (f : Task → Task) : (s.updTask i f).notif = s.notif := rfl
@[simp] theorem updTask_levels (s : State) (i : Nat) (f : Task → Task) : (s.updTask i f).levels = s.levels := rfl
@[simp] theorem updTask_grants (s : State) (i : Nat) (f : Task → Task) : (s.updTask i f).grants = s.grants := rfl
@[simp] theorem updTask_ident (s : State) (i : Nat) (f : Task → Task) : (s.updTask i f).ident = s.ident := rfl
@[simp] theorem updTask_staging (s : State) (i : Nat) (f : Task → Task) : (s.updTask i f).staging = s.staging := rfl
@[simp] theorem updTask_power (s : State) (i : Nat) (f : Task → Task) : (s.updTask i f).power = s.power := rfl
@[simp] theorem updTask_lastRead (s : State) (i : Nat) (f : Task → Task) : (s.updTask i f).lastRead = s.lastRead := rfl
@[simp] theorem updTask_agentClock (s : State) (i : Nat) (f : Task → Task) : (s.updTask i f).agentClock = s.agentClock := rfl
@[simp] theorem updTask_peerWaits (s : State) (i : Nat) (f : Task → Task) : (s.updTask i f).peerWaits = s.peerWaits := rfl
@[simp] theorem updTask_owed (s : State) (i : Nat) (f : Task → Task) : (s.updTask i f).owed = s.owed := rfl
@[simp] theorem updTask_blames (s : State) (i : Nat) (f : Task → Task) : (s.updTask i f).blames = s.blames := rfl
@[simp] theorem updTask_core (s : State) (i : Nat) (f : Task → Task) (x : Nat) : (s.updTask i f).core x = s.core x := rfl
@[simp] theorem updTask_ctx (s : State) (i : Nat) (f : Task → Task) (x : Nat) : (s.updTask i f).ctx x = s.ctx x := rfl
@[simp] theorem updTask_thread (s : State) (i : Nat) (f : Task → Task) (x : Nat) : (s.updTask i f).thread x = s.thread x := rfl
@[simp] theorem updTask_gang (s : State) (i : Nat) (f : Task → Task) (x : Nat) : (s.updTask i f).gang x = s.gang x := rfl
@[simp] theorem updTask_op (s : State) (i : Nat) (f : Task → Task) (x : Nat) : (s.updTask i f).op x = s.op x := rfl
@[simp] theorem updTask_entry (s : State) (i : Nat) (f : Task → Task) (x y : Nat) : (s.updTask i f).entry x y = s.entry x y := rfl
@[simp] theorem updTask_ilk (s : State) (i : Nat) (f : Task → Task) (x : Nat) : (s.updTask i f).ilk x = s.ilk x := rfl
@[simp] theorem updTask_priv (s : State) (i : Nat) (f : Task → Task) (x : Nat) : (s.updTask i f).priv x = s.priv x := rfl

/-! ## updOp -/

@[simp] theorem updOp_clk (s : State) (i : Nat) (f : Op → Op) : (s.updOp i f).clk = s.clk := rfl
@[simp] theorem updOp_agenda (s : State) (i : Nat) (f : Op → Op) : (s.updOp i f).agenda = s.agenda := rfl
@[simp] theorem updOp_focus (s : State) (i : Nat) (f : Op → Op) : (s.updOp i f).focus = s.focus := rfl
@[simp] theorem updOp_freeCtr (s : State) (i : Nat) (f : Op → Op) : (s.updOp i f).freeCtr = s.freeCtr := rfl
@[simp] theorem updOp_nextUid (s : State) (i : Nat) (f : Op → Op) : (s.updOp i f).nextUid = s.nextUid := rfl
@[simp] theorem updOp_nextSeq (s : State) (i : Nat) (f : Op → Op) : (s.updOp i f).nextSeq = s.nextSeq := rfl
@[simp] theorem updOp_mem (s : State) (i : Nat) (f : Op → Op) : (s.updOp i f).mem = s.mem := rfl
@[simp] theorem updOp_enc (s : State) (i : Nat) (f : Op → Op) : (s.updOp i f).enc = s.enc := rfl
@[simp] theorem updOp_vale (s : State) (i : Nat) (f : Op → Op) : (s.updOp i f).vale = s.vale := rfl
@[simp] theorem updOp_leases (s : State) (i : Nat) (f : Op → Op) : (s.updOp i f).leases = s.leases := rfl
@[simp] theorem updOp_retired (s : State) (i : Nat) (f : Op → Op) : (s.updOp i f).retired = s.retired := rfl
@[simp] theorem updOp_quarantined (s : State) (i : Nat) (f : Op → Op) : (s.updOp i f).quarantined = s.quarantined := rfl
@[simp] theorem updOp_walks (s : State) (i : Nat) (f : Op → Op) : (s.updOp i f).walks = s.walks := rfl
@[simp] theorem updOp_frw (s : State) (i : Nat) (f : Op → Op) : (s.updOp i f).frw = s.frw := rfl
@[simp] theorem updOp_cores (s : State) (i : Nat) (f : Op → Op) : (s.updOp i f).cores = s.cores := rfl
@[simp] theorem updOp_threads (s : State) (i : Nat) (f : Op → Op) : (s.updOp i f).threads = s.threads := rfl
@[simp] theorem updOp_rows (s : State) (i : Nat) (f : Op → Op) : (s.updOp i f).rows = s.rows := rfl
@[simp] theorem updOp_gangs (s : State) (i : Nat) (f : Op → Op) : (s.updOp i f).gangs = s.gangs := rfl
@[simp] theorem updOp_tasks (s : State) (i : Nat) (f : Op → Op) : (s.updOp i f).tasks = s.tasks := rfl
@[simp] theorem updOp_fwdEdges (s : State) (i : Nat) (f : Op → Op) : (s.updOp i f).fwdEdges = s.fwdEdges := rfl
@[simp] theorem updOp_contexts (s : State) (i : Nat) (f : Op → Op) : (s.updOp i f).contexts = s.contexts := rfl
@[simp] theorem updOp_elhead (s : State) (i : Nat) (f : Op → Op) : (s.updOp i f).elhead = s.elhead := rfl
@[simp] theorem updOp_eltail (s : State) (i : Nat) (f : Op → Op) : (s.updOp i f).eltail = s.eltail := rfl
@[simp] theorem updOp_ellost (s : State) (i : Nat) (f : Op → Op) : (s.updOp i f).ellost = s.ellost := rfl
@[simp] theorem updOp_cecnt (s : State) (i : Nat) (f : Op → Op) : (s.updOp i f).cecnt = s.cecnt := rfl
@[simp] theorem updOp_elring (s : State) (i : Nat) (f : Op → Op) : (s.updOp i f).elring = s.elring := rfl
@[simp] theorem updOp_nhead (s : State) (i : Nat) (f : Op → Op) : (s.updOp i f).nhead = s.nhead := rfl
@[simp] theorem updOp_notif (s : State) (i : Nat) (f : Op → Op) : (s.updOp i f).notif = s.notif := rfl
@[simp] theorem updOp_levels (s : State) (i : Nat) (f : Op → Op) : (s.updOp i f).levels = s.levels := rfl
@[simp] theorem updOp_grants (s : State) (i : Nat) (f : Op → Op) : (s.updOp i f).grants = s.grants := rfl
@[simp] theorem updOp_ident (s : State) (i : Nat) (f : Op → Op) : (s.updOp i f).ident = s.ident := rfl
@[simp] theorem updOp_staging (s : State) (i : Nat) (f : Op → Op) : (s.updOp i f).staging = s.staging := rfl
@[simp] theorem updOp_power (s : State) (i : Nat) (f : Op → Op) : (s.updOp i f).power = s.power := rfl
@[simp] theorem updOp_lastRead (s : State) (i : Nat) (f : Op → Op) : (s.updOp i f).lastRead = s.lastRead := rfl
@[simp] theorem updOp_agentClock (s : State) (i : Nat) (f : Op → Op) : (s.updOp i f).agentClock = s.agentClock := rfl
@[simp] theorem updOp_peerWaits (s : State) (i : Nat) (f : Op → Op) : (s.updOp i f).peerWaits = s.peerWaits := rfl
@[simp] theorem updOp_owed (s : State) (i : Nat) (f : Op → Op) : (s.updOp i f).owed = s.owed := rfl
@[simp] theorem updOp_blames (s : State) (i : Nat) (f : Op → Op) : (s.updOp i f).blames = s.blames := rfl
@[simp] theorem updOp_core (s : State) (i : Nat) (f : Op → Op) (x : Nat) : (s.updOp i f).core x = s.core x := rfl
@[simp] theorem updOp_ctx (s : State) (i : Nat) (f : Op → Op) (x : Nat) : (s.updOp i f).ctx x = s.ctx x := rfl
@[simp] theorem updOp_thread (s : State) (i : Nat) (f : Op → Op) (x : Nat) : (s.updOp i f).thread x = s.thread x := rfl
@[simp] theorem updOp_gang (s : State) (i : Nat) (f : Op → Op) (x : Nat) : (s.updOp i f).gang x = s.gang x := rfl
@[simp] theorem updOp_task (s : State) (i : Nat) (f : Op → Op) (x : Nat) : (s.updOp i f).task x = s.task x := rfl
@[simp] theorem updOp_entry (s : State) (i : Nat) (f : Op → Op) (x y : Nat) : (s.updOp i f).entry x y = s.entry x y := rfl
@[simp] theorem updOp_ilk (s : State) (i : Nat) (f : Op → Op) (x : Nat) : (s.updOp i f).ilk x = s.ilk x := rfl
@[simp] theorem updOp_priv (s : State) (i : Nat) (f : Op → Op) (x : Nat) : (s.updOp i f).priv x = s.priv x := rfl

/-! ## dropOp -/

@[simp] theorem dropOp_clk (s : State) (i : Nat) : (s.dropOp i).clk = s.clk := rfl
@[simp] theorem dropOp_agenda (s : State) (i : Nat) : (s.dropOp i).agenda = s.agenda := rfl
@[simp] theorem dropOp_focus (s : State) (i : Nat) : (s.dropOp i).focus = s.focus := rfl
@[simp] theorem dropOp_freeCtr (s : State) (i : Nat) : (s.dropOp i).freeCtr = s.freeCtr := rfl
@[simp] theorem dropOp_nextUid (s : State) (i : Nat) : (s.dropOp i).nextUid = s.nextUid := rfl
@[simp] theorem dropOp_nextSeq (s : State) (i : Nat) : (s.dropOp i).nextSeq = s.nextSeq := rfl
@[simp] theorem dropOp_mem (s : State) (i : Nat) : (s.dropOp i).mem = s.mem := rfl
@[simp] theorem dropOp_enc (s : State) (i : Nat) : (s.dropOp i).enc = s.enc := rfl
@[simp] theorem dropOp_vale (s : State) (i : Nat) : (s.dropOp i).vale = s.vale := rfl
@[simp] theorem dropOp_leases (s : State) (i : Nat) : (s.dropOp i).leases = s.leases := rfl
@[simp] theorem dropOp_retired (s : State) (i : Nat) : (s.dropOp i).retired = s.retired := rfl
@[simp] theorem dropOp_quarantined (s : State) (i : Nat) : (s.dropOp i).quarantined = s.quarantined := rfl
@[simp] theorem dropOp_walks (s : State) (i : Nat) : (s.dropOp i).walks = s.walks := rfl
@[simp] theorem dropOp_frw (s : State) (i : Nat) : (s.dropOp i).frw = s.frw := rfl
@[simp] theorem dropOp_cores (s : State) (i : Nat) : (s.dropOp i).cores = s.cores := rfl
@[simp] theorem dropOp_threads (s : State) (i : Nat) : (s.dropOp i).threads = s.threads := rfl
@[simp] theorem dropOp_rows (s : State) (i : Nat) : (s.dropOp i).rows = s.rows := rfl
@[simp] theorem dropOp_gangs (s : State) (i : Nat) : (s.dropOp i).gangs = s.gangs := rfl
@[simp] theorem dropOp_tasks (s : State) (i : Nat) : (s.dropOp i).tasks = s.tasks := rfl
@[simp] theorem dropOp_fwdEdges (s : State) (i : Nat) : (s.dropOp i).fwdEdges = s.fwdEdges := rfl
@[simp] theorem dropOp_contexts (s : State) (i : Nat) : (s.dropOp i).contexts = s.contexts := rfl
@[simp] theorem dropOp_elhead (s : State) (i : Nat) : (s.dropOp i).elhead = s.elhead := rfl
@[simp] theorem dropOp_eltail (s : State) (i : Nat) : (s.dropOp i).eltail = s.eltail := rfl
@[simp] theorem dropOp_ellost (s : State) (i : Nat) : (s.dropOp i).ellost = s.ellost := rfl
@[simp] theorem dropOp_cecnt (s : State) (i : Nat) : (s.dropOp i).cecnt = s.cecnt := rfl
@[simp] theorem dropOp_elring (s : State) (i : Nat) : (s.dropOp i).elring = s.elring := rfl
@[simp] theorem dropOp_nhead (s : State) (i : Nat) : (s.dropOp i).nhead = s.nhead := rfl
@[simp] theorem dropOp_notif (s : State) (i : Nat) : (s.dropOp i).notif = s.notif := rfl
@[simp] theorem dropOp_levels (s : State) (i : Nat) : (s.dropOp i).levels = s.levels := rfl
@[simp] theorem dropOp_grants (s : State) (i : Nat) : (s.dropOp i).grants = s.grants := rfl
@[simp] theorem dropOp_ident (s : State) (i : Nat) : (s.dropOp i).ident = s.ident := rfl
@[simp] theorem dropOp_staging (s : State) (i : Nat) : (s.dropOp i).staging = s.staging := rfl
@[simp] theorem dropOp_power (s : State) (i : Nat) : (s.dropOp i).power = s.power := rfl
@[simp] theorem dropOp_lastRead (s : State) (i : Nat) : (s.dropOp i).lastRead = s.lastRead := rfl
@[simp] theorem dropOp_agentClock (s : State) (i : Nat) : (s.dropOp i).agentClock = s.agentClock := rfl
@[simp] theorem dropOp_peerWaits (s : State) (i : Nat) : (s.dropOp i).peerWaits = s.peerWaits := rfl
@[simp] theorem dropOp_owed (s : State) (i : Nat) : (s.dropOp i).owed = s.owed := rfl
@[simp] theorem dropOp_blames (s : State) (i : Nat) : (s.dropOp i).blames = s.blames := rfl
@[simp] theorem dropOp_core (s : State) (i : Nat) (x : Nat) : (s.dropOp i).core x = s.core x := rfl
@[simp] theorem dropOp_ctx (s : State) (i : Nat) (x : Nat) : (s.dropOp i).ctx x = s.ctx x := rfl
@[simp] theorem dropOp_thread (s : State) (i : Nat) (x : Nat) : (s.dropOp i).thread x = s.thread x := rfl
@[simp] theorem dropOp_gang (s : State) (i : Nat) (x : Nat) : (s.dropOp i).gang x = s.gang x := rfl
@[simp] theorem dropOp_task (s : State) (i : Nat) (x : Nat) : (s.dropOp i).task x = s.task x := rfl
@[simp] theorem dropOp_entry (s : State) (i : Nat) (x y : Nat) : (s.dropOp i).entry x y = s.entry x y := rfl
@[simp] theorem dropOp_ilk (s : State) (i : Nat) (x : Nat) : (s.dropOp i).ilk x = s.ilk x := rfl
@[simp] theorem dropOp_priv (s : State) (i : Nat) (x : Nat) : (s.dropOp i).priv x = s.priv x := rfl

/-! ## updEntry -/

@[simp] theorem updEntry_clk (s : State) (c u : Nat) (f : Entry → Entry) : (s.updEntry c u f).clk = s.clk := rfl
@[simp] theorem updEntry_agenda (s : State) (c u : Nat) (f : Entry → Entry) : (s.updEntry c u f).agenda = s.agenda := rfl
@[simp] theorem updEntry_focus (s : State) (c u : Nat) (f : Entry → Entry) : (s.updEntry c u f).focus = s.focus := rfl
@[simp] theorem updEntry_freeCtr (s : State) (c u : Nat) (f : Entry → Entry) : (s.updEntry c u f).freeCtr = s.freeCtr := rfl
@[simp] theorem updEntry_nextUid (s : State) (c u : Nat) (f : Entry → Entry) : (s.updEntry c u f).nextUid = s.nextUid := rfl
@[simp] theorem updEntry_nextSeq (s : State) (c u : Nat) (f : Entry → Entry) : (s.updEntry c u f).nextSeq = s.nextSeq := rfl
@[simp] theorem updEntry_mem (s : State) (c u : Nat) (f : Entry → Entry) : (s.updEntry c u f).mem = s.mem := rfl
@[simp] theorem updEntry_enc (s : State) (c u : Nat) (f : Entry → Entry) : (s.updEntry c u f).enc = s.enc := rfl
@[simp] theorem updEntry_vale (s : State) (c u : Nat) (f : Entry → Entry) : (s.updEntry c u f).vale = s.vale := rfl
@[simp] theorem updEntry_leases (s : State) (c u : Nat) (f : Entry → Entry) : (s.updEntry c u f).leases = s.leases := rfl
@[simp] theorem updEntry_retired (s : State) (c u : Nat) (f : Entry → Entry) : (s.updEntry c u f).retired = s.retired := rfl
@[simp] theorem updEntry_quarantined (s : State) (c u : Nat) (f : Entry → Entry) : (s.updEntry c u f).quarantined = s.quarantined := rfl
@[simp] theorem updEntry_walks (s : State) (c u : Nat) (f : Entry → Entry) : (s.updEntry c u f).walks = s.walks := rfl
@[simp] theorem updEntry_frw (s : State) (c u : Nat) (f : Entry → Entry) : (s.updEntry c u f).frw = s.frw := rfl
@[simp] theorem updEntry_threads (s : State) (c u : Nat) (f : Entry → Entry) : (s.updEntry c u f).threads = s.threads := rfl
@[simp] theorem updEntry_rows (s : State) (c u : Nat) (f : Entry → Entry) : (s.updEntry c u f).rows = s.rows := rfl
@[simp] theorem updEntry_gangs (s : State) (c u : Nat) (f : Entry → Entry) : (s.updEntry c u f).gangs = s.gangs := rfl
@[simp] theorem updEntry_ops (s : State) (c u : Nat) (f : Entry → Entry) : (s.updEntry c u f).ops = s.ops := rfl
@[simp] theorem updEntry_tasks (s : State) (c u : Nat) (f : Entry → Entry) : (s.updEntry c u f).tasks = s.tasks := rfl
@[simp] theorem updEntry_fwdEdges (s : State) (c u : Nat) (f : Entry → Entry) : (s.updEntry c u f).fwdEdges = s.fwdEdges := rfl
@[simp] theorem updEntry_contexts (s : State) (c u : Nat) (f : Entry → Entry) : (s.updEntry c u f).contexts = s.contexts := rfl
@[simp] theorem updEntry_elhead (s : State) (c u : Nat) (f : Entry → Entry) : (s.updEntry c u f).elhead = s.elhead := rfl
@[simp] theorem updEntry_eltail (s : State) (c u : Nat) (f : Entry → Entry) : (s.updEntry c u f).eltail = s.eltail := rfl
@[simp] theorem updEntry_ellost (s : State) (c u : Nat) (f : Entry → Entry) : (s.updEntry c u f).ellost = s.ellost := rfl
@[simp] theorem updEntry_cecnt (s : State) (c u : Nat) (f : Entry → Entry) : (s.updEntry c u f).cecnt = s.cecnt := rfl
@[simp] theorem updEntry_elring (s : State) (c u : Nat) (f : Entry → Entry) : (s.updEntry c u f).elring = s.elring := rfl
@[simp] theorem updEntry_nhead (s : State) (c u : Nat) (f : Entry → Entry) : (s.updEntry c u f).nhead = s.nhead := rfl
@[simp] theorem updEntry_notif (s : State) (c u : Nat) (f : Entry → Entry) : (s.updEntry c u f).notif = s.notif := rfl
@[simp] theorem updEntry_levels (s : State) (c u : Nat) (f : Entry → Entry) : (s.updEntry c u f).levels = s.levels := rfl
@[simp] theorem updEntry_grants (s : State) (c u : Nat) (f : Entry → Entry) : (s.updEntry c u f).grants = s.grants := rfl
@[simp] theorem updEntry_ident (s : State) (c u : Nat) (f : Entry → Entry) : (s.updEntry c u f).ident = s.ident := rfl
@[simp] theorem updEntry_staging (s : State) (c u : Nat) (f : Entry → Entry) : (s.updEntry c u f).staging = s.staging := rfl
@[simp] theorem updEntry_power (s : State) (c u : Nat) (f : Entry → Entry) : (s.updEntry c u f).power = s.power := rfl
@[simp] theorem updEntry_lastRead (s : State) (c u : Nat) (f : Entry → Entry) : (s.updEntry c u f).lastRead = s.lastRead := rfl
@[simp] theorem updEntry_agentClock (s : State) (c u : Nat) (f : Entry → Entry) : (s.updEntry c u f).agentClock = s.agentClock := rfl
@[simp] theorem updEntry_peerWaits (s : State) (c u : Nat) (f : Entry → Entry) : (s.updEntry c u f).peerWaits = s.peerWaits := rfl
@[simp] theorem updEntry_owed (s : State) (c u : Nat) (f : Entry → Entry) : (s.updEntry c u f).owed = s.owed := rfl
@[simp] theorem updEntry_blames (s : State) (c u : Nat) (f : Entry → Entry) : (s.updEntry c u f).blames = s.blames := rfl
@[simp] theorem updEntry_ctx (s : State) (c u : Nat) (f : Entry → Entry) (x : Nat) : (s.updEntry c u f).ctx x = s.ctx x := rfl
@[simp] theorem updEntry_thread (s : State) (c u : Nat) (f : Entry → Entry) (x : Nat) : (s.updEntry c u f).thread x = s.thread x := rfl
@[simp] theorem updEntry_gang (s : State) (c u : Nat) (f : Entry → Entry) (x : Nat) : (s.updEntry c u f).gang x = s.gang x := rfl
@[simp] theorem updEntry_task (s : State) (c u : Nat) (f : Entry → Entry) (x : Nat) : (s.updEntry c u f).task x = s.task x := rfl
@[simp] theorem updEntry_op (s : State) (c u : Nat) (f : Entry → Entry) (x : Nat) : (s.updEntry c u f).op x = s.op x := rfl
@[simp] theorem updEntry_ilk (s : State) (c u : Nat) (f : Entry → Entry) (x : Nat) : (s.updEntry c u f).ilk x = s.ilk x := rfl
@[simp] theorem updEntry_priv (s : State) (c u : Nat) (f : Entry → Entry) (x : Nat) : (s.updEntry c u f).priv x = s.priv x := rfl

/-! ## fresh -/

@[simp] theorem fresh_clk (s : State) : (s.fresh.2).clk = s.clk := rfl
@[simp] theorem fresh_agenda (s : State) : (s.fresh.2).agenda = s.agenda := rfl
@[simp] theorem fresh_focus (s : State) : (s.fresh.2).focus = s.focus := rfl
@[simp] theorem fresh_freeCtr (s : State) : (s.fresh.2).freeCtr = s.freeCtr := rfl
@[simp] theorem fresh_nextSeq (s : State) : (s.fresh.2).nextSeq = s.nextSeq := rfl
@[simp] theorem fresh_mem (s : State) : (s.fresh.2).mem = s.mem := rfl
@[simp] theorem fresh_enc (s : State) : (s.fresh.2).enc = s.enc := rfl
@[simp] theorem fresh_vale (s : State) : (s.fresh.2).vale = s.vale := rfl
@[simp] theorem fresh_leases (s : State) : (s.fresh.2).leases = s.leases := rfl
@[simp] theorem fresh_retired (s : State) : (s.fresh.2).retired = s.retired := rfl
@[simp] theorem fresh_quarantined (s : State) : (s.fresh.2).quarantined = s.quarantined := rfl
@[simp] theorem fresh_walks (s : State) : (s.fresh.2).walks = s.walks := rfl
@[simp] theorem fresh_frw (s : State) : (s.fresh.2).frw = s.frw := rfl
@[simp] theorem fresh_cores (s : State) : (s.fresh.2).cores = s.cores := rfl
@[simp] theorem fresh_threads (s : State) : (s.fresh.2).threads = s.threads := rfl
@[simp] theorem fresh_rows (s : State) : (s.fresh.2).rows = s.rows := rfl
@[simp] theorem fresh_gangs (s : State) : (s.fresh.2).gangs = s.gangs := rfl
@[simp] theorem fresh_ops (s : State) : (s.fresh.2).ops = s.ops := rfl
@[simp] theorem fresh_tasks (s : State) : (s.fresh.2).tasks = s.tasks := rfl
@[simp] theorem fresh_fwdEdges (s : State) : (s.fresh.2).fwdEdges = s.fwdEdges := rfl
@[simp] theorem fresh_contexts (s : State) : (s.fresh.2).contexts = s.contexts := rfl
@[simp] theorem fresh_elhead (s : State) : (s.fresh.2).elhead = s.elhead := rfl
@[simp] theorem fresh_eltail (s : State) : (s.fresh.2).eltail = s.eltail := rfl
@[simp] theorem fresh_ellost (s : State) : (s.fresh.2).ellost = s.ellost := rfl
@[simp] theorem fresh_cecnt (s : State) : (s.fresh.2).cecnt = s.cecnt := rfl
@[simp] theorem fresh_elring (s : State) : (s.fresh.2).elring = s.elring := rfl
@[simp] theorem fresh_nhead (s : State) : (s.fresh.2).nhead = s.nhead := rfl
@[simp] theorem fresh_notif (s : State) : (s.fresh.2).notif = s.notif := rfl
@[simp] theorem fresh_levels (s : State) : (s.fresh.2).levels = s.levels := rfl
@[simp] theorem fresh_grants (s : State) : (s.fresh.2).grants = s.grants := rfl
@[simp] theorem fresh_ident (s : State) : (s.fresh.2).ident = s.ident := rfl
@[simp] theorem fresh_staging (s : State) : (s.fresh.2).staging = s.staging := rfl
@[simp] theorem fresh_power (s : State) : (s.fresh.2).power = s.power := rfl
@[simp] theorem fresh_lastRead (s : State) : (s.fresh.2).lastRead = s.lastRead := rfl
@[simp] theorem fresh_agentClock (s : State) : (s.fresh.2).agentClock = s.agentClock := rfl
@[simp] theorem fresh_peerWaits (s : State) : (s.fresh.2).peerWaits = s.peerWaits := rfl
@[simp] theorem fresh_owed (s : State) : (s.fresh.2).owed = s.owed := rfl
@[simp] theorem fresh_blames (s : State) : (s.fresh.2).blames = s.blames := rfl
@[simp] theorem fresh_core (s : State) (x : Nat) : (s.fresh.2).core x = s.core x := rfl
@[simp] theorem fresh_ctx (s : State) (x : Nat) : (s.fresh.2).ctx x = s.ctx x := rfl
@[simp] theorem fresh_thread (s : State) (x : Nat) : (s.fresh.2).thread x = s.thread x := rfl
@[simp] theorem fresh_gang (s : State) (x : Nat) : (s.fresh.2).gang x = s.gang x := rfl
@[simp] theorem fresh_task (s : State) (x : Nat) : (s.fresh.2).task x = s.task x := rfl
@[simp] theorem fresh_op (s : State) (x : Nat) : (s.fresh.2).op x = s.op x := rfl
@[simp] theorem fresh_entry (s : State) (x y : Nat) : (s.fresh.2).entry x y = s.entry x y := rfl
@[simp] theorem fresh_ilk (s : State) (x : Nat) : (s.fresh.2).ilk x = s.ilk x := rfl
@[simp] theorem fresh_priv (s : State) (x : Nat) : (s.fresh.2).priv x = s.priv x := rfl

/-! ## free -/

@[simp] theorem free_clk (s : State) : (s.free.2).clk = s.clk := rfl
@[simp] theorem free_agenda (s : State) : (s.free.2).agenda = s.agenda := rfl
@[simp] theorem free_focus (s : State) : (s.free.2).focus = s.focus := rfl
@[simp] theorem free_nextUid (s : State) : (s.free.2).nextUid = s.nextUid := rfl
@[simp] theorem free_nextSeq (s : State) : (s.free.2).nextSeq = s.nextSeq := rfl
@[simp] theorem free_mem (s : State) : (s.free.2).mem = s.mem := rfl
@[simp] theorem free_enc (s : State) : (s.free.2).enc = s.enc := rfl
@[simp] theorem free_vale (s : State) : (s.free.2).vale = s.vale := rfl
@[simp] theorem free_leases (s : State) : (s.free.2).leases = s.leases := rfl
@[simp] theorem free_retired (s : State) : (s.free.2).retired = s.retired := rfl
@[simp] theorem free_quarantined (s : State) : (s.free.2).quarantined = s.quarantined := rfl
@[simp] theorem free_walks (s : State) : (s.free.2).walks = s.walks := rfl
@[simp] theorem free_frw (s : State) : (s.free.2).frw = s.frw := rfl
@[simp] theorem free_cores (s : State) : (s.free.2).cores = s.cores := rfl
@[simp] theorem free_threads (s : State) : (s.free.2).threads = s.threads := rfl
@[simp] theorem free_rows (s : State) : (s.free.2).rows = s.rows := rfl
@[simp] theorem free_gangs (s : State) : (s.free.2).gangs = s.gangs := rfl
@[simp] theorem free_ops (s : State) : (s.free.2).ops = s.ops := rfl
@[simp] theorem free_tasks (s : State) : (s.free.2).tasks = s.tasks := rfl
@[simp] theorem free_fwdEdges (s : State) : (s.free.2).fwdEdges = s.fwdEdges := rfl
@[simp] theorem free_contexts (s : State) : (s.free.2).contexts = s.contexts := rfl
@[simp] theorem free_elhead (s : State) : (s.free.2).elhead = s.elhead := rfl
@[simp] theorem free_eltail (s : State) : (s.free.2).eltail = s.eltail := rfl
@[simp] theorem free_ellost (s : State) : (s.free.2).ellost = s.ellost := rfl
@[simp] theorem free_cecnt (s : State) : (s.free.2).cecnt = s.cecnt := rfl
@[simp] theorem free_elring (s : State) : (s.free.2).elring = s.elring := rfl
@[simp] theorem free_nhead (s : State) : (s.free.2).nhead = s.nhead := rfl
@[simp] theorem free_notif (s : State) : (s.free.2).notif = s.notif := rfl
@[simp] theorem free_levels (s : State) : (s.free.2).levels = s.levels := rfl
@[simp] theorem free_grants (s : State) : (s.free.2).grants = s.grants := rfl
@[simp] theorem free_ident (s : State) : (s.free.2).ident = s.ident := rfl
@[simp] theorem free_staging (s : State) : (s.free.2).staging = s.staging := rfl
@[simp] theorem free_power (s : State) : (s.free.2).power = s.power := rfl
@[simp] theorem free_lastRead (s : State) : (s.free.2).lastRead = s.lastRead := rfl
@[simp] theorem free_agentClock (s : State) : (s.free.2).agentClock = s.agentClock := rfl
@[simp] theorem free_peerWaits (s : State) : (s.free.2).peerWaits = s.peerWaits := rfl
@[simp] theorem free_owed (s : State) : (s.free.2).owed = s.owed := rfl
@[simp] theorem free_blames (s : State) : (s.free.2).blames = s.blames := rfl
@[simp] theorem free_core (s : State) (x : Nat) : (s.free.2).core x = s.core x := rfl
@[simp] theorem free_ctx (s : State) (x : Nat) : (s.free.2).ctx x = s.ctx x := rfl
@[simp] theorem free_thread (s : State) (x : Nat) : (s.free.2).thread x = s.thread x := rfl
@[simp] theorem free_gang (s : State) (x : Nat) : (s.free.2).gang x = s.gang x := rfl
@[simp] theorem free_task (s : State) (x : Nat) : (s.free.2).task x = s.task x := rfl
@[simp] theorem free_op (s : State) (x : Nat) : (s.free.2).op x = s.op x := rfl
@[simp] theorem free_entry (s : State) (x y : Nat) : (s.free.2).entry x y = s.entry x y := rfl
@[simp] theorem free_ilk (s : State) (x : Nat) : (s.free.2).ilk x = s.ilk x := rfl
@[simp] theorem free_priv (s : State) (x : Nat) : (s.free.2).priv x = s.priv x := rfl

/-! ## notify -/

@[simp] theorem notify_clk (s : State) (v c : Nat) : (s.notify v c).clk = s.clk := rfl
@[simp] theorem notify_agenda (s : State) (v c : Nat) : (s.notify v c).agenda = s.agenda := rfl
@[simp] theorem notify_focus (s : State) (v c : Nat) : (s.notify v c).focus = s.focus := rfl
@[simp] theorem notify_freeCtr (s : State) (v c : Nat) : (s.notify v c).freeCtr = s.freeCtr := rfl
@[simp] theorem notify_nextUid (s : State) (v c : Nat) : (s.notify v c).nextUid = s.nextUid := rfl
@[simp] theorem notify_nextSeq (s : State) (v c : Nat) : (s.notify v c).nextSeq = s.nextSeq := rfl
@[simp] theorem notify_mem (s : State) (v c : Nat) : (s.notify v c).mem = s.mem := rfl
@[simp] theorem notify_enc (s : State) (v c : Nat) : (s.notify v c).enc = s.enc := rfl
@[simp] theorem notify_vale (s : State) (v c : Nat) : (s.notify v c).vale = s.vale := rfl
@[simp] theorem notify_leases (s : State) (v c : Nat) : (s.notify v c).leases = s.leases := rfl
@[simp] theorem notify_retired (s : State) (v c : Nat) : (s.notify v c).retired = s.retired := rfl
@[simp] theorem notify_quarantined (s : State) (v c : Nat) : (s.notify v c).quarantined = s.quarantined := rfl
@[simp] theorem notify_walks (s : State) (v c : Nat) : (s.notify v c).walks = s.walks := rfl
@[simp] theorem notify_frw (s : State) (v c : Nat) : (s.notify v c).frw = s.frw := rfl
@[simp] theorem notify_cores (s : State) (v c : Nat) : (s.notify v c).cores = s.cores := rfl
@[simp] theorem notify_threads (s : State) (v c : Nat) : (s.notify v c).threads = s.threads := rfl
@[simp] theorem notify_rows (s : State) (v c : Nat) : (s.notify v c).rows = s.rows := rfl
@[simp] theorem notify_gangs (s : State) (v c : Nat) : (s.notify v c).gangs = s.gangs := rfl
@[simp] theorem notify_ops (s : State) (v c : Nat) : (s.notify v c).ops = s.ops := rfl
@[simp] theorem notify_tasks (s : State) (v c : Nat) : (s.notify v c).tasks = s.tasks := rfl
@[simp] theorem notify_fwdEdges (s : State) (v c : Nat) : (s.notify v c).fwdEdges = s.fwdEdges := rfl
@[simp] theorem notify_contexts (s : State) (v c : Nat) : (s.notify v c).contexts = s.contexts := rfl
@[simp] theorem notify_elhead (s : State) (v c : Nat) : (s.notify v c).elhead = s.elhead := rfl
@[simp] theorem notify_eltail (s : State) (v c : Nat) : (s.notify v c).eltail = s.eltail := rfl
@[simp] theorem notify_ellost (s : State) (v c : Nat) : (s.notify v c).ellost = s.ellost := rfl
@[simp] theorem notify_cecnt (s : State) (v c : Nat) : (s.notify v c).cecnt = s.cecnt := rfl
@[simp] theorem notify_elring (s : State) (v c : Nat) : (s.notify v c).elring = s.elring := rfl
@[simp] theorem notify_levels (s : State) (v c : Nat) : (s.notify v c).levels = s.levels := rfl
@[simp] theorem notify_grants (s : State) (v c : Nat) : (s.notify v c).grants = s.grants := rfl
@[simp] theorem notify_ident (s : State) (v c : Nat) : (s.notify v c).ident = s.ident := rfl
@[simp] theorem notify_staging (s : State) (v c : Nat) : (s.notify v c).staging = s.staging := rfl
@[simp] theorem notify_power (s : State) (v c : Nat) : (s.notify v c).power = s.power := rfl
@[simp] theorem notify_lastRead (s : State) (v c : Nat) : (s.notify v c).lastRead = s.lastRead := rfl
@[simp] theorem notify_agentClock (s : State) (v c : Nat) : (s.notify v c).agentClock = s.agentClock := rfl
@[simp] theorem notify_peerWaits (s : State) (v c : Nat) : (s.notify v c).peerWaits = s.peerWaits := rfl
@[simp] theorem notify_owed (s : State) (v c : Nat) : (s.notify v c).owed = s.owed := rfl
@[simp] theorem notify_blames (s : State) (v c : Nat) : (s.notify v c).blames = s.blames := rfl
@[simp] theorem notify_core (s : State) (v c : Nat) (x : Nat) : (s.notify v c).core x = s.core x := rfl
@[simp] theorem notify_ctx (s : State) (v c : Nat) (x : Nat) : (s.notify v c).ctx x = s.ctx x := rfl
@[simp] theorem notify_thread (s : State) (v c : Nat) (x : Nat) : (s.notify v c).thread x = s.thread x := rfl
@[simp] theorem notify_gang (s : State) (v c : Nat) (x : Nat) : (s.notify v c).gang x = s.gang x := rfl
@[simp] theorem notify_task (s : State) (v c : Nat) (x : Nat) : (s.notify v c).task x = s.task x := rfl
@[simp] theorem notify_op (s : State) (v c : Nat) (x : Nat) : (s.notify v c).op x = s.op x := rfl
@[simp] theorem notify_entry (s : State) (v c : Nat) (x y : Nat) : (s.notify v c).entry x y = s.entry x y := rfl
@[simp] theorem notify_ilk (s : State) (v c : Nat) (x : Nat) : (s.notify v c).ilk x = s.ilk x := rfl
@[simp] theorem notify_priv (s : State) (v c : Nat) (x : Nat) : (s.notify v c).priv x = s.priv x := rfl

/-! ## log and logRefused -/

@[simp] theorem log_clk (s : State) (e : LogEntry) : (s.log e).clk = s.clk := by unfold log; split <;> rfl
@[simp] theorem logRefused_clk (s : State) (a c k : Nat) (va : Bool) (ad : W64) (co su : Nat) (la : W64) :
    (s.logRefused a c k va ad co su la).clk = s.clk := by simp [logRefused]
@[simp] theorem log_agenda (s : State) (e : LogEntry) : (s.log e).agenda = s.agenda := by unfold log; split <;> rfl
@[simp] theorem logRefused_agenda (s : State) (a c k : Nat) (va : Bool) (ad : W64) (co su : Nat) (la : W64) :
    (s.logRefused a c k va ad co su la).agenda = s.agenda := by simp [logRefused]
@[simp] theorem log_focus (s : State) (e : LogEntry) : (s.log e).focus = s.focus := by unfold log; split <;> rfl
@[simp] theorem logRefused_focus (s : State) (a c k : Nat) (va : Bool) (ad : W64) (co su : Nat) (la : W64) :
    (s.logRefused a c k va ad co su la).focus = s.focus := by simp [logRefused]
@[simp] theorem log_freeCtr (s : State) (e : LogEntry) : (s.log e).freeCtr = s.freeCtr := by unfold log; split <;> rfl
@[simp] theorem logRefused_freeCtr (s : State) (a c k : Nat) (va : Bool) (ad : W64) (co su : Nat) (la : W64) :
    (s.logRefused a c k va ad co su la).freeCtr = s.freeCtr := by simp [logRefused]
@[simp] theorem log_nextUid (s : State) (e : LogEntry) : (s.log e).nextUid = s.nextUid := by unfold log; split <;> rfl
@[simp] theorem logRefused_nextUid (s : State) (a c k : Nat) (va : Bool) (ad : W64) (co su : Nat) (la : W64) :
    (s.logRefused a c k va ad co su la).nextUid = s.nextUid := by simp [logRefused]
@[simp] theorem log_nextSeq (s : State) (e : LogEntry) : (s.log e).nextSeq = s.nextSeq := by unfold log; split <;> rfl
@[simp] theorem logRefused_nextSeq (s : State) (a c k : Nat) (va : Bool) (ad : W64) (co su : Nat) (la : W64) :
    (s.logRefused a c k va ad co su la).nextSeq = s.nextSeq := by simp [logRefused]
@[simp] theorem log_mem (s : State) (e : LogEntry) : (s.log e).mem = s.mem := by unfold log; split <;> rfl
@[simp] theorem logRefused_mem (s : State) (a c k : Nat) (va : Bool) (ad : W64) (co su : Nat) (la : W64) :
    (s.logRefused a c k va ad co su la).mem = s.mem := by simp [logRefused]
@[simp] theorem log_enc (s : State) (e : LogEntry) : (s.log e).enc = s.enc := by unfold log; split <;> rfl
@[simp] theorem logRefused_enc (s : State) (a c k : Nat) (va : Bool) (ad : W64) (co su : Nat) (la : W64) :
    (s.logRefused a c k va ad co su la).enc = s.enc := by simp [logRefused]
@[simp] theorem log_vale (s : State) (e : LogEntry) : (s.log e).vale = s.vale := by unfold log; split <;> rfl
@[simp] theorem logRefused_vale (s : State) (a c k : Nat) (va : Bool) (ad : W64) (co su : Nat) (la : W64) :
    (s.logRefused a c k va ad co su la).vale = s.vale := by simp [logRefused]
@[simp] theorem log_leases (s : State) (e : LogEntry) : (s.log e).leases = s.leases := by unfold log; split <;> rfl
@[simp] theorem logRefused_leases (s : State) (a c k : Nat) (va : Bool) (ad : W64) (co su : Nat) (la : W64) :
    (s.logRefused a c k va ad co su la).leases = s.leases := by simp [logRefused]
@[simp] theorem log_retired (s : State) (e : LogEntry) : (s.log e).retired = s.retired := by unfold log; split <;> rfl
@[simp] theorem logRefused_retired (s : State) (a c k : Nat) (va : Bool) (ad : W64) (co su : Nat) (la : W64) :
    (s.logRefused a c k va ad co su la).retired = s.retired := by simp [logRefused]
@[simp] theorem log_quarantined (s : State) (e : LogEntry) : (s.log e).quarantined = s.quarantined := by unfold log; split <;> rfl
@[simp] theorem logRefused_quarantined (s : State) (a c k : Nat) (va : Bool) (ad : W64) (co su : Nat) (la : W64) :
    (s.logRefused a c k va ad co su la).quarantined = s.quarantined := by simp [logRefused]
@[simp] theorem log_walks (s : State) (e : LogEntry) : (s.log e).walks = s.walks := by unfold log; split <;> rfl
@[simp] theorem logRefused_walks (s : State) (a c k : Nat) (va : Bool) (ad : W64) (co su : Nat) (la : W64) :
    (s.logRefused a c k va ad co su la).walks = s.walks := by simp [logRefused]
@[simp] theorem log_frw (s : State) (e : LogEntry) : (s.log e).frw = s.frw := by unfold log; split <;> rfl
@[simp] theorem logRefused_frw (s : State) (a c k : Nat) (va : Bool) (ad : W64) (co su : Nat) (la : W64) :
    (s.logRefused a c k va ad co su la).frw = s.frw := by simp [logRefused]
@[simp] theorem log_cores (s : State) (e : LogEntry) : (s.log e).cores = s.cores := by unfold log; split <;> rfl
@[simp] theorem logRefused_cores (s : State) (a c k : Nat) (va : Bool) (ad : W64) (co su : Nat) (la : W64) :
    (s.logRefused a c k va ad co su la).cores = s.cores := by simp [logRefused]
@[simp] theorem log_threads (s : State) (e : LogEntry) : (s.log e).threads = s.threads := by unfold log; split <;> rfl
@[simp] theorem logRefused_threads (s : State) (a c k : Nat) (va : Bool) (ad : W64) (co su : Nat) (la : W64) :
    (s.logRefused a c k va ad co su la).threads = s.threads := by simp [logRefused]
@[simp] theorem log_rows (s : State) (e : LogEntry) : (s.log e).rows = s.rows := by unfold log; split <;> rfl
@[simp] theorem logRefused_rows (s : State) (a c k : Nat) (va : Bool) (ad : W64) (co su : Nat) (la : W64) :
    (s.logRefused a c k va ad co su la).rows = s.rows := by simp [logRefused]
@[simp] theorem log_gangs (s : State) (e : LogEntry) : (s.log e).gangs = s.gangs := by unfold log; split <;> rfl
@[simp] theorem logRefused_gangs (s : State) (a c k : Nat) (va : Bool) (ad : W64) (co su : Nat) (la : W64) :
    (s.logRefused a c k va ad co su la).gangs = s.gangs := by simp [logRefused]
@[simp] theorem log_ops (s : State) (e : LogEntry) : (s.log e).ops = s.ops := by unfold log; split <;> rfl
@[simp] theorem logRefused_ops (s : State) (a c k : Nat) (va : Bool) (ad : W64) (co su : Nat) (la : W64) :
    (s.logRefused a c k va ad co su la).ops = s.ops := by simp [logRefused]
@[simp] theorem log_tasks (s : State) (e : LogEntry) : (s.log e).tasks = s.tasks := by unfold log; split <;> rfl
@[simp] theorem logRefused_tasks (s : State) (a c k : Nat) (va : Bool) (ad : W64) (co su : Nat) (la : W64) :
    (s.logRefused a c k va ad co su la).tasks = s.tasks := by simp [logRefused]
@[simp] theorem log_fwdEdges (s : State) (e : LogEntry) : (s.log e).fwdEdges = s.fwdEdges := by unfold log; split <;> rfl
@[simp] theorem logRefused_fwdEdges (s : State) (a c k : Nat) (va : Bool) (ad : W64) (co su : Nat) (la : W64) :
    (s.logRefused a c k va ad co su la).fwdEdges = s.fwdEdges := by simp [logRefused]
@[simp] theorem log_contexts (s : State) (e : LogEntry) : (s.log e).contexts = s.contexts := by unfold log; split <;> rfl
@[simp] theorem logRefused_contexts (s : State) (a c k : Nat) (va : Bool) (ad : W64) (co su : Nat) (la : W64) :
    (s.logRefused a c k va ad co su la).contexts = s.contexts := by simp [logRefused]
@[simp] theorem log_eltail (s : State) (e : LogEntry) : (s.log e).eltail = s.eltail := by unfold log; split <;> rfl
@[simp] theorem logRefused_eltail (s : State) (a c k : Nat) (va : Bool) (ad : W64) (co su : Nat) (la : W64) :
    (s.logRefused a c k va ad co su la).eltail = s.eltail := by simp [logRefused]
@[simp] theorem log_cecnt (s : State) (e : LogEntry) : (s.log e).cecnt = s.cecnt := by unfold log; split <;> rfl
@[simp] theorem logRefused_cecnt (s : State) (a c k : Nat) (va : Bool) (ad : W64) (co su : Nat) (la : W64) :
    (s.logRefused a c k va ad co su la).cecnt = s.cecnt := by simp [logRefused]
@[simp] theorem log_nhead (s : State) (e : LogEntry) : (s.log e).nhead = s.nhead := by unfold log; split <;> rfl
@[simp] theorem logRefused_nhead (s : State) (a c k : Nat) (va : Bool) (ad : W64) (co su : Nat) (la : W64) :
    (s.logRefused a c k va ad co su la).nhead = s.nhead := by simp [logRefused]
@[simp] theorem log_notif (s : State) (e : LogEntry) : (s.log e).notif = s.notif := by unfold log; split <;> rfl
@[simp] theorem logRefused_notif (s : State) (a c k : Nat) (va : Bool) (ad : W64) (co su : Nat) (la : W64) :
    (s.logRefused a c k va ad co su la).notif = s.notif := by simp [logRefused]
@[simp] theorem log_levels (s : State) (e : LogEntry) : (s.log e).levels = s.levels := by unfold log; split <;> rfl
@[simp] theorem logRefused_levels (s : State) (a c k : Nat) (va : Bool) (ad : W64) (co su : Nat) (la : W64) :
    (s.logRefused a c k va ad co su la).levels = s.levels := by simp [logRefused]
@[simp] theorem log_grants (s : State) (e : LogEntry) : (s.log e).grants = s.grants := by unfold log; split <;> rfl
@[simp] theorem logRefused_grants (s : State) (a c k : Nat) (va : Bool) (ad : W64) (co su : Nat) (la : W64) :
    (s.logRefused a c k va ad co su la).grants = s.grants := by simp [logRefused]
@[simp] theorem log_ident (s : State) (e : LogEntry) : (s.log e).ident = s.ident := by unfold log; split <;> rfl
@[simp] theorem logRefused_ident (s : State) (a c k : Nat) (va : Bool) (ad : W64) (co su : Nat) (la : W64) :
    (s.logRefused a c k va ad co su la).ident = s.ident := by simp [logRefused]
@[simp] theorem log_staging (s : State) (e : LogEntry) : (s.log e).staging = s.staging := by unfold log; split <;> rfl
@[simp] theorem logRefused_staging (s : State) (a c k : Nat) (va : Bool) (ad : W64) (co su : Nat) (la : W64) :
    (s.logRefused a c k va ad co su la).staging = s.staging := by simp [logRefused]
@[simp] theorem log_power (s : State) (e : LogEntry) : (s.log e).power = s.power := by unfold log; split <;> rfl
@[simp] theorem logRefused_power (s : State) (a c k : Nat) (va : Bool) (ad : W64) (co su : Nat) (la : W64) :
    (s.logRefused a c k va ad co su la).power = s.power := by simp [logRefused]
@[simp] theorem log_lastRead (s : State) (e : LogEntry) : (s.log e).lastRead = s.lastRead := by unfold log; split <;> rfl
@[simp] theorem log_agentClock (s : State) (e : LogEntry) : (s.log e).agentClock = s.agentClock := by unfold log; split <;> rfl
@[simp] theorem log_peerWaits (s : State) (e : LogEntry) : (s.log e).peerWaits = s.peerWaits := by unfold log; split <;> rfl
@[simp] theorem log_owed (s : State) (e : LogEntry) : (s.log e).owed = s.owed := by unfold log; split <;> rfl
@[simp] theorem log_blames (s : State) (e : LogEntry) : (s.log e).blames = s.blames := by unfold log; split <;> rfl
@[simp] theorem logRefused_lastRead (s : State) (a c k : Nat) (va : Bool) (ad : W64) (co su : Nat) (la : W64) :
    (s.logRefused a c k va ad co su la).lastRead = s.lastRead := by simp [logRefused]
@[simp] theorem logRefused_agentClock (s : State) (a c k : Nat) (va : Bool) (ad : W64) (co su : Nat) (la : W64) :
    (s.logRefused a c k va ad co su la).agentClock = s.agentClock := by simp [logRefused]
@[simp] theorem logRefused_peerWaits (s : State) (a c k : Nat) (va : Bool) (ad : W64) (co su : Nat) (la : W64) :
    (s.logRefused a c k va ad co su la).peerWaits = s.peerWaits := by simp [logRefused]
@[simp] theorem logRefused_owed (s : State) (a c k : Nat) (va : Bool) (ad : W64) (co su : Nat) (la : W64) :
    (s.logRefused a c k va ad co su la).owed = s.owed := by simp [logRefused]
@[simp] theorem logRefused_blames (s : State) (a c k : Nat) (va : Bool) (ad : W64) (co su : Nat) (la : W64) :
    (s.logRefused a c k va ad co su la).blames = s.blames := by simp [logRefused]

/-! ## What is written is read -/

@[simp] theorem core_updCore (s : State) (c : Nat) (f : Core → Core) (h : c < s.cores.length) : (s.updCore c f).core c = f (s.core c) := by
  simp [updCore, setCore, core, h]

theorem core_updCore_ne (s : State) (c d : Nat) (f : Core → Core) (h : c ≠ d) : (s.updCore c f).core d = s.core d := by
  simp [updCore, setCore, core, h]

@[simp] theorem ctx_updCtx (s : State) (c : Nat) (f : Context → Context) (h : c < s.contexts.length) : (s.updCtx c f).ctx c = f (s.ctx c) := by
  simp [updCtx, setCtx, ctx, h]

theorem ctx_updCtx_ne (s : State) (c d : Nat) (f : Context → Context) (h : c ≠ d) : (s.updCtx c f).ctx d = s.ctx d := by
  simp [updCtx, setCtx, ctx, h]

@[simp] theorem cores_length_updCore (s : State) (c : Nat) (f : Core → Core) : (s.updCore c f).cores.length = s.cores.length := by
  simp [updCore, setCore]

@[simp] theorem contexts_length_updCtx (s : State) (c : Nat) (f : Context → Context) :
    (s.updCtx c f).contexts.length = s.contexts.length := by
  simp [updCtx, setCtx]

/-- A thread after an update of the thread of that number, by a function that keeps the number. -/
theorem thread_updThread (s : State) (i : Nat) (f : Thread → Thread) (hf : ∀ t, (f t).id = t.id) (j : Nat) :
    (s.updThread i f).thread j = (s.thread j).map (fun t => if t.id = i then f t else t) := by
  simp only [thread, updThread, List.find?_map]
  congr 1
  congr 1
  funext t
  simp only [Function.comp]
  split <;> simp [hf]

/-- The thread found under a number has that number. -/
theorem thread_id {s : State} {i : Nat} {t : Thread} (h : s.thread i = some t) : t.id = i := by
  have := List.find?_some h
  simpa using this

theorem op_id {s : State} {i : Nat} {o : Op} (h : s.op i = some o) : o.id = i := by
  have := List.find?_some h
  simpa using this

/-- The thread that an update names. -/
theorem thread_updThread_self {s : State} {i : Nat} {t : Thread} (f : Thread → Thread) (hf : ∀ t, (f t).id = t.id) (h : s.thread i = some t) :
    (s.updThread i f).thread i = some (f t) := by
  rw [thread_updThread s i f hf, h, Option.map_some, if_pos (thread_id h)]

/-- Every other thread is as before. -/
theorem thread_updThread_ne {s : State} {i j : Nat} (f : Thread → Thread) (hf : ∀ t, (f t).id = t.id) (h : i ≠ j) :
    (s.updThread i f).thread j = s.thread j := by
  rw [thread_updThread s i f hf]
  cases e : s.thread j with
  | none => rfl
  | some t => simp [thread_id e, Ne.symm h]

end State

end Sys2Proof.Machine
end

