-- ==== Sys2Proof/Laws/Frame.lean ====
section
/-! SUPPORT. What the operations of an issue leave as it is: `Issued` is kept by each of them, so that a frame is a chain of these lemmas. -/

namespace Sys2Proof.Machine

namespace Issued

variable {k : Issue} {ids ns : List Nat} {s u v : State}

theorem refl (k : Issue) (ids ns : List Nat) (s : State) : Issued k ids ns s s :=
  ⟨rfl, fun _ => rfl, fun _ => rfl, rfl, rfl, fun _ _ => rfl, fun _ t h => ⟨t, h, rfl, fun _ _ => rfl⟩⟩

theorem trans (h : Issued k ids ns s u) (h' : Issued k ids ns u v) : Issued k ids ns s v where
  device := h'.device.trans h.device
  core c := (h'.core c).trans (h.core c)
  ctx c := (h'.ctx c).trans (h.ctx c)
  rows := h'.rows.trans h.rows
  gangs := h'.gangs.trans h.gangs
  others id hid := (h'.others id hid).trans (h.others id hid)
  members id t ht := by
    obtain ⟨t1, h1, o1, n1⟩ := h.members id t ht
    obtain ⟨t2, h2, o2, n2⟩ := h'.members id t1 h1
    exact ⟨t2, h2, o2.trans o1, fun n hn => (n2 n hn).trans (n1 n hn)⟩

/-- More threads and more names. -/
theorem mono {ids' ns' : List Nat} (h : Issued k ids ns s u) (hi : ids ⊆ ids') (hn : ns ⊆ ns') : Issued k ids' ns' s u :=
  { h with
    others := fun id hid => h.others id (fun x => hid (hi x))
    members := fun id t ht => by
      obtain ⟨t1, h1, o1, n1⟩ := h.members id t ht
      exact ⟨t1, h1, o1, fun n hnn => n1 n (fun x => hnn (hn x))⟩ }

/-- An update that changes cores, rows, gangs, contexts and numbers only. -/
theorem same (hd : u.outer k = s.outer k) (ht : u.threads = s.threads) (hk : ∀ c, (u.core c).outer = (s.core c).outer)
    (hc : ∀ c, (u.ctx c).outer = (s.ctx c).outer) (hr : u.rows.map Row.outer = s.rows.map Row.outer)
    (hg : u.gangs.map Gang.outer = s.gangs.map Gang.outer) : Issued k ids ns s u :=
  { device := hd, core := hk, ctx := hc, rows := hr, gangs := hg
    others := fun id _ => by simp [State.thread, ht]
    members := fun id t h => ⟨t, by simpa [State.thread, ht] using h, rfl, fun _ _ => rfl⟩ }

theorem updThread (s : State) (i : Nat) (f : Thread → Thread) (hi : i ∈ ids) (hid : ∀ t, (f t).id = t.id) (ho : ∀ t, (f t).outer k = t.outer k)
    (hn : ∀ t n, n ∉ ns → lookupName (f t) n = lookupName t n) : Issued k ids ns s (s.updThread i f) :=
  { device := rfl, core := fun _ => rfl, ctx := fun _ => rfl, rows := rfl, gangs := rfl
    others := fun id h => State.thread_updThread_ne f hid (fun e => h (e ▸ hi))
    members := fun id t h => by
      refine ⟨if t.id = i then f t else t, ?_, ?_, ?_⟩
      · simp [State.thread_updThread s i f hid, h]
      · split <;> simp [ho]
      · intro n hnn
        split
        · exact hn t n hnn
        · rfl }

theorem updCore (s : State) (c : Nat) (f : Core → Core) (h : ∀ k, (f k).outer = k.outer) : Issued k ids ns s (s.updCore c f) := by
  refine same rfl rfl (fun d => ?_) (fun _ => rfl) rfl rfl
  by_cases e : c = d
  · subst e
    by_cases hc : c < s.cores.length
    · rw [State.core_updCore s c f hc, h]
    · simp [State.updCore, State.setCore, State.core, hc]
  · rw [State.core_updCore_ne s c d f e]

theorem updEntry (s : State) (c uid : Nat) (f : Entry → Entry) : Issued k ids ns s (s.updEntry c uid f) := updCore s c _ (fun _ => rfl)

theorem updCtx (s : State) (c : Nat) (f : Context → Context) (h : ∀ k, (f k).outer = k.outer) : Issued k ids ns s (s.updCtx c f) := by
  refine same rfl rfl (fun _ => rfl) (fun d => ?_) rfl rfl
  by_cases e : c = d
  · subst e
    by_cases hc : c < s.contexts.length
    · rw [State.ctx_updCtx s c f hc, h]
    · simp [State.updCtx, State.setCtx, State.ctx, hc]
  · rw [State.ctx_updCtx_ne s c d f e]

theorem updRow (s : State) (c sl : Nat) (f : Row → Row) (h : ∀ r, (f r).outer = r.outer) : Issued k ids ns s (s.updRow c sl f) := by
  refine same rfl rfl (fun _ => rfl) (fun _ => rfl) ?_ rfl
  simp only [State.updRow, List.map_map]
  refine List.map_congr_left (fun r _ => ?_)
  simp only [Function.comp]
  split
  · exact h r
  · rfl

theorem updGang (s : State) (i : Nat) (f : Gang → Gang) (h : ∀ r, (f r).outer = r.outer) : Issued k ids ns s (s.updGang i f) := by
  refine same rfl rfl (fun _ => rfl) (fun _ => rfl) rfl ?_
  simp only [State.updGang, List.map_map]
  refine List.map_congr_left (fun r _ => ?_)
  simp only [Function.comp]
  split
  · exact h r
  · rfl

theorem fresh (s : State) : Issued k ids ns s s.fresh.2 := same rfl rfl (fun _ => rfl) (fun _ => rfl) rfl rfl

/-- A fold of operations that each keep it. -/
theorem foldl {α : Type} (l : List α) (f : State → α → State) (s : State) (h : ∀ s, ∀ a ∈ l, Issued k ids ns s (f s a)) :
    Issued k ids ns s (l.foldl f s) := by
  induction l generalizing s with
  | nil => exact refl _ _ _ _
  | cons a as ih =>
    exact (h s a (by simp)).trans (ih (f s a) (fun s b hb => h s b (by simp [hb])))

end Issued

/-! ## Names -/

theorem lookupName_congr {t u : Thread} (h : t.names = u.names) (n : Nat) : lookupName t n = lookupName u n := by simp [lookupName, h]

theorem find_insertName (n : Nat) (b : Binding) (m : Nat) (l : List (Nat × Binding)) (h : m ≠ n) :
    (insertName n b l).find? (fun p => p.1 == m) = l.find? (fun p => p.1 == m) := by
  have hb : (n == m) = false := by simpa using (Ne.symm h)
  induction l with
  | nil => simp [insertName, hb]
  | cons p ps ih =>
    obtain ⟨k, c⟩ := p
    simp only [insertName]
    split
    · rename_i e; subst e; simp [hb]
    · split
      · simp [hb]
      · simp only [List.find?_cons]; rw [ih]

theorem lookupName_setName_ne (t : Thread) {n m : Nat} (b : Binding) (h : m ≠ n) : lookupName (setName t n b) m = lookupName t m := by
  simp [lookupName, setName, find_insertName n b m t.names h]

theorem find_insertName_self (n : Nat) (b : Binding) (l : List (Nat × Binding)) :
    (insertName n b l).find? (fun p => p.1 == n) = some (n, b) := by
  induction l with
  | nil => simp [insertName]
  | cons p ps ih =>
    obtain ⟨k, c⟩ := p
    simp only [insertName]
    split
    · simp
    · split
      · simp
      · rename_i h1 h2
        have : (k == n) = false := by simpa using (Ne.symm h1)
        simp [this, ih]

@[simp] theorem lookupName_setName (t : Thread) (n : Nat) (b : Binding) : lookupName (setName t n b) n = some b := by
  simp [lookupName, setName, find_insertName_self]

theorem lookupName_eraseName_ne (t : Thread) {n m : Nat} (h : m ≠ n) : lookupName (eraseName t n) m = lookupName t m := by
  simp only [lookupName, eraseName, List.find?_filter]
  congr 1
  congr 1
  funext p
  by_cases e : p.1 = m
  · simp [e, h]
  · simp [e]

@[simp] theorem lookupName_eraseName (t : Thread) (n : Nat) : lookupName (eraseName t n) n = none := by
  simp [lookupName, eraseName]

theorem lookupName_freeName_ne (t : Thread) {n m : Nat} (h : m ≠ n) : lookupName (freeName t n) m = lookupName t m := by
  unfold freeName
  split
  · rfl
  · split
    · exact lookupName_eraseName_ne t h
    · exact (lookupName_congr (by rfl) m).trans (lookupName_eraseName_ne t h)

@[simp] theorem lookupName_freeName (t : Thread) (n : Nat) : lookupName (freeName t n) n = none := by
  unfold freeName
  split
  · assumption
  · split
    · exact lookupName_eraseName t n
    · exact (lookupName_congr (by rfl) n).trans (lookupName_eraseName t n)

@[simp] theorem freeName_id (t : Thread) (n : Nat) : (freeName t n).id = t.id := by
  unfold freeName; split <;> (try split) <;> rfl

@[simp] theorem freeName_outer (k : Issue) (t : Thread) (n : Nat) : (freeName t n).outer k = t.outer k := by
  unfold freeName; split <;> (try split) <;> rfl

@[simp] theorem setName_outer (k : Issue) (t : Thread) (n : Nat) (b : Binding) : (setName t n b).outer k = t.outer k := rfl

@[simp] theorem countReads_id (t : Thread) (n k : Nat) : (countReads t n k).id = t.id := by
  unfold countReads; split <;> (try split) <;> (try split) <;> simp [setName]

@[simp] theorem countReads_outer (k : Issue) (t : Thread) (n m : Nat) : (countReads t n m).outer k = t.outer k := by
  unfold countReads; split <;> (try split) <;> (try split) <;> simp

theorem lookupName_countReads_ne (t : Thread) {n m : Nat} (k : Nat) (h : m ≠ n) : lookupName (countReads t n k) m = lookupName t m := by
  unfold countReads
  split
  · rfl
  · split
    · rfl
    · split
      · exact lookupName_freeName_ne t h
      · exact lookupName_setName_ne t _ h

namespace Issued
variable {k : Issue} {ids ns : List Nat} {s u v : State}

/-- A thread replaced by another of its number. -/
theorem putThread {i : Nat} {t t' : Thread} (hi : i ∈ ids) (ht : s.thread i = some t) (hid : t'.id = i) (ho : t'.outer k = t.outer k)
    (hn : ∀ n, n ∉ ns → lookupName t' n = lookupName t n) : Issued k ids ns s (s.updThread i (fun _ => t')) := by
  have e (j : Nat) : (s.updThread i (fun _ => t')).thread j = (s.thread j).map (fun x => if x.id = i then t' else x) := by
    simp only [State.thread, State.updThread, List.find?_map]
    congr 2
    funext x
    simp only [Function.comp]
    split <;> simp_all
  exact
  { device := rfl, core := fun _ => rfl, ctx := fun _ => rfl, rows := rfl, gangs := rfl
    others := fun j hj => by
      rw [e]
      cases h : s.thread j with
      | none => rfl
      | some x =>
        have : x.id ≠ i := by rw [State.thread_id h]; exact fun e => hj (e ▸ hi)
        simp [this]
    members := fun j x hx => by
      rw [e, hx]
      by_cases h : x.id = i
      · have : x = t := by
          have hj : j = i := by rw [← State.thread_id hx, h]
          subst hj; rw [ht] at hx; exact (Option.some.inj hx).symm
        subst this
        exact ⟨t', by simp [h], ho, hn⟩
      · exact ⟨x, by simp [h], rfl, fun _ _ => rfl⟩ }

end Issued

theorem popStreams_issued {k : Issue} {ids ns : List Nat} (s : State) (t : Thread) (l : List PopQ) {v : List W64} {u : State} (h : popStreams s t l = some (v, u)) :
    Issued k ids ns s u := by
  induction l generalizing s v u with
  | nil => simp [popStreams] at h; obtain ⟨-, rfl⟩ := h; exact .refl _ _ _ _
  | cons q qs ih =>
    simp only [popStreams] at h
    split at h; · cases h
    split at h; · cases h
    split at h; · cases h
    rename_i r fs gc _ i r' _
    split at h; · cases h
    rename_i l' s' hp
    simp only [Option.some.injEq, Prod.mk.injEq] at h
    obtain ⟨-, rfl⟩ := h
    refine Issued.trans ?_ (ih _ hp)
    exact .updGang _ _ _ (fun _ => rfl)

theorem popRows_issued {k : Issue} {ids ns : List Nat} (s : State) (ts : List Thread) (l : List Opnd) : Issued k ids ns s (popRows s ts l).2 := by
  unfold popRows
  generalize (rowHeads (ts.filter (fun t => t.replaying.isNone))) = hs
  suffices h : ∀ (hs : List Thread) (acc : List (Nat × List W64) × State), Issued k ids ns acc.2 (hs.foldl (fun (acc : List (Nat × List W64) × State) t =>
      match popStreams acc.2 t (streamFields l) with
      | some (v, s) => (acc.1 ++ [(t.slot, v)], s)
      | none => acc) acc).2 from h hs ([], s)
  intro hs
  induction hs with
  | nil => intro acc; exact .refl _ _ _ _
  | cons t ts ih =>
    intro acc
    simp only [List.foldl_cons]
    split
    · rename_i v s' hp
      exact (popStreams_issued acc.2 t _ hp).trans (ih (acc.1 ++ [(t.slot, v)], s'))
    · exact ih acc

theorem readFields_kept (k : Issue) (s : State) (b : Thread) (l : List Opnd) (st : List W64) (t : Thread) :
    (readFields s b l st t).2.id = t.id ∧ (readFields s b l st t).2.outer k = t.outer k ∧ (readFields s b l st t).2.names = t.names := by
  induction l generalizing st t with
  | nil => exact ⟨rfl, rfl, rfl⟩
  | cons o os ih =>
    simp only [readFields]
    split <;> exact ih _ _

theorem countAll_kept (k : Issue) (t : Thread) (f : Nat → Nat) (l : List Nat) :
    (l.foldl (fun u n => countReads u n (f n)) t).id = t.id ∧ (l.foldl (fun u n => countReads u n (f n)) t).outer k = t.outer k ∧
      ∀ m, m ∉ l → lookupName (l.foldl (fun u n => countReads u n (f n)) t) m = lookupName t m := by
  induction l generalizing t with
  | nil => exact ⟨rfl, rfl, fun _ _ => rfl⟩
  | cons n l ih =>
    obtain ⟨h1, h2, h3⟩ := ih (countReads t n (f n))
    refine ⟨by simp [h1], by simp [h2], fun m hm => ?_⟩
    simp only [List.mem_cons, not_or] at hm
    rw [List.foldl_cons, h3 m hm.2, lookupName_countReads_ne t _ hm.1]

theorem mem_dedupNats (l : List Nat) (n : Nat) : n ∈ dedupNats l ↔ n ∈ l := by
  unfold dedupNats
  suffices h : ∀ (l acc : List Nat), n ∈ l.foldl (fun acc n => if acc.contains n then acc else acc ++ [n]) acc ↔ n ∈ acc ∨ n ∈ l by
    simpa using h l []
  intro l
  induction l with
  | nil => simp
  | cons a l ih =>
    intro acc
    rw [List.foldl_cons, ih]
    split
    · rename_i h; simp at h; simp; constructor
      · rintro (h | h) <;> simp [h]
      · rintro (h1 | rfl | h1) <;> simp [*]
    · simp [or_assoc]

theorem readThread_kept (k : Issue) (s : State) (l : List Opnd) (st : List W64) (t : Thread) :
    (readThread s l st t).2.id = t.id ∧ (readThread s l st t).2.outer k = t.outer k ∧
      ∀ n, n ∉ valNames l → lookupName (readThread s l st t).2 n = lookupName t n := by
  unfold readThread
  split
  · exact ⟨rfl, rfl, fun _ _ => rfl⟩
  · obtain ⟨a, b, c⟩ := readFields_kept k s t l st t
    obtain ⟨d, e, f⟩ := countAll_kept k (readFields s t l st t).2 (fun n => countOf n (valNames l)) (dedupNats (valNames l))
    refine ⟨d.trans a, e.trans b, fun n hn => (f n ?_).trans (lookupName_congr c n)⟩
    rwa [mem_dedupNats]

/-- The reads of a word: the threads read are members as they stand. -/
theorem readLanes_issued {k : Issue} {ids ns : List Nat} (s : State) (w : Spec) (ts : List Thread) (hs : ∀ t ∈ ts, s.thread t.id = some t) (hi : ∀ t ∈ ts, t.id ∈ ids)
    (hn : ∀ t ∈ ts, ∀ n ∈ valNames (w.of t), n ∈ ns) : Issued k ids ns s (readLanes s w ts).2 := by
  unfold readLanes
  rcases hp : popRows s ts w.srcs with ⟨rows, s1⟩
  have h1 : Issued k ids ns s s1 := by have := popRows_issued (k := k) (ids := ids) (ns := ns) s ts w.srcs; rwa [hp] at this
  simp only
  suffices h : ∀ (l : List Thread) (acc : List Lane × State), (∀ t ∈ l, t ∈ ts) → Issued k ids ns s acc.2 →
      Issued k ids ns s (l.foldl (fun (acc : List Lane × State) t =>
        (acc.1 ++ [(readThread acc.2 (w.of t) (((rows.find? (fun p => p.1 == t.slot)).map Prod.snd).getD []) t).1],
          acc.2.updThread t.id (fun _ => (readThread acc.2 (w.of t) (((rows.find? (fun p => p.1 == t.slot)).map Prod.snd).getD []) t).2))) acc).2 from
    h ts ([], s1) (fun _ h => h) h1
  intro l
  induction l with
  | nil => intro acc _ h; exact h
  | cons t l ih =>
    intro acc hl h
    rw [List.foldl_cons]
    refine ih _ (fun u hu => hl u (by simp [hu])) (h.trans ?_)
    have ht : t ∈ ts := hl t (by simp)
    obtain ⟨x, hx, ho, hnn⟩ := h.members t.id t (hs t ht)
    obtain ⟨a, b, c⟩ := readThread_kept k acc.2 (w.of t) (((rows.find? (fun p => p.1 == t.slot)).map Prod.snd).getD []) t
    exact .putThread (hi t ht) hx a (b.trans ho.symm) (fun n hnm => (c n (fun hm => hnm (hn t ht n hm))).trans (hnn n hnm).symm)

theorem bindName_issued {k : Issue} {ids ns : List Nat} (s : State) (i n : Nat) (b : Binding) (hi : i ∈ ids) (hn : n ∈ ns) : Issued k ids ns s (bindName s i n b) := by
  unfold bindName
  split
  · exact .refl _ _ _ _
  · refine Issued.trans (u := if _ then _ else _) ?_ (.updThread _ i _ hi (fun t => by simp [setName]) (fun t => by simp) (fun t m hm => ?_))
    · split
      · exact .updCtx _ _ _ (fun _ => rfl)
      · exact .refl _ _ _ _
    · have : m ≠ n := fun e => hm (e ▸ hn)
      rw [lookupName_setName_ne _ _ this, lookupName_freeName_ne _ this]

theorem pushCells_issued {k : Issue} {ids ns : List Nat} (s : State) (g : Grp) (q : PushQ) (cells : List (Thread × QCell)) : Issued k ids ns s (pushCells s g q cells) := by
  unfold pushCells
  split
  · exact .updCore _ _ _ (fun _ => rfl)
  · exact .foldl _ _ _ (fun _ _ _ => .updRow _ _ _ _ (fun _ => rfl))
  · exact .foldl _ _ _ (fun s t _ => (Issued.fresh s).trans (.updCore _ _ _ (fun _ => rfl)))

theorem bindFixed_issued {k : Issue} {ids ns : List Nat} (s : State) (g : Grp) (d : Dest) (lat : Nat) (rs : List (Lane × Res)) (hi : ∀ p ∈ rs, p.1.t.id ∈ ids)
    (hn : ∀ x ∈ d.names, x.1 ∈ ns) : Issued k ids ns s (bindFixed s g d lat rs) := by
  unfold bindFixed
  dsimp only
  refine Issued.trans (u := match d.push with | some (q, n) => _ | none => _) ?_ (.foldl _ _ _ (fun s p hp => ?_))
  · split
    · exact .foldl _ _ _ (fun _ _ _ => pushCells_issued _ _ _ _)
    · exact .refl _ _ _ _
  · split
    · exact .refl _ _ _ _
    · refine Issued.trans ?_ (.updThread _ _ _ (hi p hp) (fun _ => rfl) (fun _ => rfl) (fun _ _ _ => rfl))
      refine Issued.trans (.fresh s) ?_
      split
      · exact .refl _ _ _ _
      · refine Issued.trans (.foldl _ _ _ (fun s x hx => bindName_issued s _ _ _ (hi p hp) (hn x hx))) (.updThread _ _ _ (hi p hp) (fun _ => rfl) (fun _ => rfl) (fun _ _ _ => rfl))

theorem issueMark_issued {k : Issue} {ids ns : List Nat} (s : State) (g : Grp) (h : Hd) : Issued k ids ns s (issueMark s g h) := by
  unfold issueMark
  split
  · exact .refl _ _ _ _
  · exact .updEntry _ _ _ _

theorem issuedWords_issued {k : Issue} {ids ns : List Nat} (s : State) (l : List Thread) (hi : ∀ t ∈ l, t.id ∈ ids) :
    Issued k ids ns s (l.foldl (fun s t => s.updThread t.id Thread.issuedWord) s) :=
  .foldl _ _ _ (fun _ t ht => .updThread _ _ _ (hi t ht) (fun _ => rfl) (fun _ => rfl) (fun _ _ _ => rfl))

theorem settleTable_outer (k : Core) : (settleTable k).outer = k.outer := rfl

theorem releasePipe_issued {k : Issue} {ids ns : List Nat} (s : State) (c u : Nat) (a : Bool) : Issued k ids ns s (releasePipe s c u a) := by
  refine .updCore _ _ _ (fun k => ?_)
  split
  · unfold Core.setPipe; split <;> rfl
  · rfl

theorem newEntry_issued {k : Issue} {ids ns : List Nat} (s : State) (c x : Nat) (pc : W64) (ms : List Nat) (ab : Option Nat) (r y : Nat) (li : Option Nat) :
    Issued k ids ns s (newEntry s c x pc ms ab r y li) := by
  unfold newEntry
  exact (Issued.fresh s).trans (.updCore _ _ _ (fun _ => rfl))

theorem enterTable_issued {k : Issue} {ids ns : List Nat} (s : State) (i : Nat) (pc : W64) (li : Option Nat) (hi : i ∈ ids) :
    Issued k ids ns s (enterTable s i pc li) := by
  unfold enterTable
  split
  · exact .refl _ _ _ _
  · dsimp only
    split
    · refine Issued.trans ?_ (.updEntry _ _ _ _)
      exact .updThread s i _ hi (fun _ => rfl) (fun _ => rfl) (fun _ _ _ => rfl)
    · refine Issued.trans ?_ (newEntry_issued _ _ _ _ _ _ _ _ _)
      exact .updThread s i _ hi (fun _ => rfl) (fun _ => rfl) (fun _ _ _ => rfl)

theorem leaveTable_issued {k : Issue} {ids ns : List Nat} (s : State) (c i : Nat) : Issued k ids ns s (leaveTable s c i) := .updCore _ _ _ (fun _ => rfl)

theorem clauseLeft_issued {k : Issue} {ids ns : List Nat} (s : State) (last : W64) (l : List Nat) (hi : ∀ i ∈ l, i ∈ ids) :
    Issued k ids ns s (clauseLeft s last l) :=
  .foldl _ _ _ (fun _ i h => .updThread _ _ _ (hi i h) (fun _ => rfl) (fun _ => rfl) (fun _ _ _ => rfl))

theorem endClause_issued {k : Issue} {ids ns : List Nat} (s : State) (c u : Nat) (fall last : W64) (nx : List (Nat × W64)) (hi : ∀ p ∈ nx, p.1 ∈ ids) :
    Issued k ids ns s (endClause s c u fall last nx) := by
  unfold endClause
  have h0 : Issued k ids ns s (nx.foldl (fun s p => s.updThread p.1 (fun t => { t with pc := p.2, resume := none })) s) :=
    .foldl _ _ _ (fun s p hp => .updThread _ _ _ (hi p hp) (fun _ => rfl) (fun _ => rfl) (fun _ _ _ => rfl))
  split
  · exact .refl _ _ _ _
  · rename_i e _
    dsimp only
    generalize nx.foldl (fun s p => s.updThread p.1 (fun t => { t with pc := p.2, resume := none })) s = s0 at h0
    have h1 : Issued k ids ns s (if e.run.any Run.issued then s0 else clauseLeft s0 last (nx.map Prod.fst)) := by
      split
      · exact h0
      · refine h0.trans (clauseLeft_issued _ _ _ (fun i h => ?_))
        obtain ⟨p, hp, rfl⟩ := List.mem_map.mp h
        exact hi p hp
    generalize (if e.run.any Run.issued then s0 else clauseLeft s0 last (nx.map Prod.fst)) = s1 at h1
    have h2 (a : Bool) : Issued k ids ns s (releasePipe s1 c u a) := h1.trans (releasePipe_issued _ _ _ _)
    rcases hr : e.run with _ | r <;> dsimp only
    all_goals
      split
      · refine Issued.trans ?_ (.foldl _ _ _ (fun s p hp => enterTable_issued _ _ _ _ (hi p hp)))
        refine Issued.trans ?_ (.updCore _ _ _ (fun _ => rfl))
        first | exact h1 | exact h2 _
      · refine Issued.trans ?_ (.updCore _ _ _ settleTable_outer)
        refine Issued.trans ?_ (.foldl _ _ _ (fun _ _ _ => newEntry_issued _ _ _ _ _ _ _ _ _))
        refine Issued.trans ?_ (.updEntry _ _ _ _)
        first | exact h1 | exact h2 _

theorem finishWith_issued {k : Issue} {ids ns : List Nat} (s : State) (g : Grp) (h : Hd) (nx : Nat → W64) (hi : ∀ t ∈ g.mem, t.id ∈ ids)
    (he : ∀ e, s.entry g.core g.uid = some e → e.members ⊆ ids) : Issued k ids ns s (finishWith s g h nx) := by
  unfold finishWith
  have h1 : Issued k ids ns s (g.mem.foldl (fun s t => s.updThread t.id Thread.issuedWord) (issueMark s g h)) :=
    (issueMark_issued s g h).trans (issuedWords_issued _ _ hi)
  have hm : ∀ e, (g.mem.foldl (fun s t => s.updThread t.id Thread.issuedWord) (issueMark s g h)).entry g.core g.uid = some e → e.members ⊆ ids := by
    intro e hx
    have hc : (g.mem.foldl (fun s t => s.updThread t.id Thread.issuedWord) (issueMark s g h)).cores = (issueMark s g h).cores := by
      generalize issueMark s g h = q
      induction g.mem generalizing q with
      | nil => rfl
      | cons a l ih => exact ih _
    have : (issueMark s g h).entry g.core g.uid = some e := by simpa [State.entry, State.core, hc] using hx
    unfold issueMark at this
    split at this
    · exact he e this
    · simp only [State.entry, State.updEntry] at this
      by_cases hl : g.core < s.cores.length
      · rw [State.core_updCore _ _ _ hl] at this
        simp only [List.find?_map] at this
        cases hf : (s.core g.core).entries.find? ((fun e => e.uid == g.uid) ∘ fun e => if e.uid = g.uid then
            { e with lastIssue := some s.clk, yieldEnd := if h.y && yields (s.ctx g.ctx) then s.clk + (s.ctx g.ctx).yieldspan.toNat else e.yieldEnd } else e) with
        | none => rw [hf] at this; cases this
        | some x =>
          have hx2 : s.entry g.core g.uid = some x := by
            simp only [State.entry]
            rw [← hf]; congr 1; funext y; simp only [Function.comp]; split <;> simp_all
          rw [hf] at this
          simp only [Option.map_some, Option.some.injEq] at this
          have := he x hx2
          subst_vars
          split <;> exact this
      · exact he e (by simpa [State.entry, State.updCore, State.setCore, State.core, hl] using this)
  refine h1.trans ?_
  simp only
  split
  · exact .refl _ _ _ _
  · rename_i e hx
    refine endClause_issued _ _ _ _ _ _ (fun p hp => ?_)
    obtain ⟨i, hi2, rfl⟩ := List.mem_map.1 hp
    exact hm e hx hi2

theorem finishWord_issued {k : Issue} {ids ns : List Nat} (s : State) (g : Grp) (h : Hd) (hi : ∀ t ∈ g.mem, t.id ∈ ids)
    (he : ∀ e, s.entry g.core g.uid = some e → e.members ⊆ ids) : Issued k ids ns s (finishWord s g h) := by
  unfold finishWord
  split
  · exact finishWith_issued s g h _ hi he
  · exact ((issueMark_issued s g h).trans (issuedWords_issued _ _ hi)).trans (.updEntry _ _ _ _)


/-! ## The convergence table during an issue -/

/-- The entries of every core are as before. -/
def SameTable (s u : State) : Prop := ∀ c, (u.core c).entries = (s.core c).entries

namespace SameTable

variable {s u v : State}

theorem refl (s : State) : SameTable s s := fun _ => rfl

theorem trans (h : SameTable s u) (h' : SameTable u v) : SameTable s v := fun c => (h' c).trans (h c)

theorem ofCores (h : u.cores = s.cores) : SameTable s u := fun c => by simp [State.core, h]

theorem updCore (s : State) (c : Nat) (f : Core → Core) (h : ∀ k, (f k).entries = k.entries) : SameTable s (s.updCore c f) := by
  intro d
  by_cases e : c = d
  · subst e
    by_cases hc : c < s.cores.length
    · rw [State.core_updCore s c f hc, h]
    · simp [State.updCore, State.setCore, State.core, hc]
  · rw [State.core_updCore_ne s c d f e]

theorem foldl {α : Type} (l : List α) (f : State → α → State) (s : State) (h : ∀ s, ∀ a ∈ l, SameTable s (f s a)) : SameTable s (l.foldl f s) := by
  induction l generalizing s with
  | nil => exact refl _
  | cons a as ih => exact (h s a (by simp)).trans (ih (f s a) (fun s b hb => h s b (by simp [hb])))

theorem entry (h : SameTable s u) (c i : Nat) : u.entry c i = s.entry c i := by simp [State.entry, h c]

end SameTable

theorem bindName_table (s : State) (i n : Nat) (b : Binding) : SameTable s (bindName s i n b) := by
  unfold bindName
  split
  · exact .refl _
  · refine .ofCores ?_
    dsimp only
    split <;> rfl

theorem pushCells_table (s : State) (g : Grp) (q : PushQ) (cells : List (Thread × QCell)) : SameTable s (pushCells s g q cells) := by
  unfold pushCells
  split
  · exact .updCore _ _ _ (fun _ => rfl)
  · exact .foldl _ _ _ (fun _ _ _ => .ofCores rfl)
  · exact .foldl _ _ _ (fun _ _ _ => .updCore _ _ _ (fun _ => rfl))

theorem bindFixed_table (s : State) (g : Grp) (d : Dest) (lat : Nat) (rs : List (Lane × Res)) : SameTable s (bindFixed s g d lat rs) := by
  unfold bindFixed
  dsimp only
  refine SameTable.trans (u := match d.push with | some (q, n) => _ | none => _) ?_ (.foldl _ _ _ (fun s p _ => ?_))
  · split
    · exact .foldl _ _ _ (fun _ _ _ => pushCells_table _ _ _ _)
    · exact .refl _
  · split
    · exact .refl _
    · refine SameTable.trans ?_ (.ofCores rfl)
      split
      · exact .ofCores rfl
      · refine SameTable.trans (u := List.foldl _ _ _) ?_ (.ofCores rfl)
        exact SameTable.trans (u := s.fresh.2) (.ofCores rfl) (.foldl _ _ _ (fun _ _ _ => bindName_table _ _ _ _))

theorem popStreams_table (s : State) (t : Thread) (l : List PopQ) {v : List W64} {u : State} (h : popStreams s t l = some (v, u)) : SameTable s u := by
  induction l generalizing s v u with
  | nil => simp [popStreams] at h; obtain ⟨-, rfl⟩ := h; exact .refl _
  | cons q qs ih =>
    simp only [popStreams] at h
    split at h; · cases h
    split at h; · cases h
    split at h; · cases h
    split at h; · cases h
    rename_i l' s' hp
    simp only [Option.some.injEq, Prod.mk.injEq] at h
    obtain ⟨-, rfl⟩ := h
    exact SameTable.trans (.ofCores (by rfl)) (ih (updRing s t.gang _ _ _) hp)

theorem popRows_table (s : State) (ts : List Thread) (l : List Opnd) : SameTable s (popRows s ts l).2 := by
  unfold popRows
  generalize (rowHeads (ts.filter (fun t => t.replaying.isNone))) = hs
  suffices h : ∀ (hs : List Thread) (acc : List (Nat × List W64) × State), SameTable acc.2 (hs.foldl (fun (acc : List (Nat × List W64) × State) t =>
      match popStreams acc.2 t (streamFields l) with
      | some (v, s) => (acc.1 ++ [(t.slot, v)], s)
      | none => acc) acc).2 from h hs ([], s)
  intro hs
  induction hs with
  | nil => intro acc; exact .refl _
  | cons t ts ih =>
    intro acc
    simp only [List.foldl_cons]
    split
    · rename_i v s' hp
      exact (popStreams_table acc.2 t _ hp).trans (ih (acc.1 ++ [(t.slot, v)], s'))
    · exact ih acc

theorem readLanes_table (s : State) (w : Spec) (ts : List Thread) : SameTable s (readLanes s w ts).2 := by
  unfold readLanes
  rcases hp : popRows s ts w.srcs with ⟨rows, s1⟩
  have h1 : SameTable s s1 := by have := popRows_table s ts w.srcs; rwa [hp] at this
  simp only
  suffices h : ∀ (l : List Thread) (acc : List Lane × State), SameTable s acc.2 →
      SameTable s (l.foldl (fun (acc : List Lane × State) t =>
        (acc.1 ++ [(readThread acc.2 (w.of t) (((rows.find? (fun p => p.1 == t.slot)).map Prod.snd).getD []) t).1],
          acc.2.updThread t.id (fun _ => (readThread acc.2 (w.of t) (((rows.find? (fun p => p.1 == t.slot)).map Prod.snd).getD []) t).2))) acc).2 from
    h ts ([], s1) h1
  intro l
  induction l with
  | nil => intro acc h; exact h
  | cons t l ih => intro acc h; exact ih _ (h.trans (.ofCores rfl))

/-! ## The group in focus -/

theorem insertLane_mem (t u : Thread) (l : List Thread) : t ∈ insertLane u l ↔ t = u ∨ t ∈ l := by
  induction l with
  | nil => simp [insertLane]
  | cons a l ih =>
    simp only [insertLane]
    split
    · simp
    · simp only [List.mem_cons, ih]; constructor
      · rintro (h | h | h) <;> simp [h]
      · rintro (h | h | h) <;> simp [h]

theorem mem_sortLanes (t : Thread) (l : List Thread) : t ∈ sortLanes l ↔ t ∈ l := by
  induction l with
  | nil => simp [sortLanes]
  | cons a l ih =>
    have : sortLanes (a :: l) = insertLane a (sortLanes l) := rfl
    rw [this, insertLane_mem, ih]; simp

/-- What the group in focus is. -/
theorem grp_spec {s : State} {g : Grp} (h : s.grp = some g) :
    s.entry g.core g.uid = some g.entry ∧ g.entry.run = some g.run ∧ g.mem = s.members g.entry := by
  unfold State.grp at h
  split at h; · cases h
  split at h; · cases h
  split at h; · cases h
  cases h
  exact ⟨by assumption, by assumption, rfl⟩

theorem grp_member {s : State} {g : Grp} (h : s.grp = some g) {t : Thread} (ht : t ∈ g.mem) : s.thread t.id = some t ∧ t.id ∈ g.entry.members := by
  obtain ⟨-, -, hm⟩ := grp_spec h
  rw [hm] at ht
  unfold State.members at ht
  rw [mem_sortLanes] at ht
  obtain ⟨i, hi, hit⟩ := List.mem_filterMap.1 ht
  rw [State.thread_id hit]
  exact ⟨hit, hi⟩

theorem executing_sub {g : Grp} {h : Hd} {t : Thread} (ht : t ∈ executing g h) : t ∈ g.mem := (List.mem_filter.1 ht).1

/-- The lanes read are the executing members. -/
theorem readLanes_lanes (s : State) (w : Spec) (ts : List Thread) : (readLanes s w ts).1.map (fun l => l.t.id) = ts.map Thread.id := by
  unfold readLanes
  rcases popRows s ts w.srcs with ⟨rows, s1⟩
  simp only
  suffices h : ∀ (l : List Thread) (acc : List Lane × State),
      (l.foldl (fun (acc : List Lane × State) t =>
        (acc.1 ++ [(readThread acc.2 (w.of t) (((rows.find? (fun p => p.1 == t.slot)).map Prod.snd).getD []) t).1],
          acc.2.updThread t.id (fun _ => (readThread acc.2 (w.of t) (((rows.find? (fun p => p.1 == t.slot)).map Prod.snd).getD []) t).2))) acc).1.map (fun l => l.t.id)
        = acc.1.map (fun l => l.t.id) ++ l.map Thread.id from by simpa using h ts ([], s1)
  intro l
  induction l with
  | nil => intro acc; simp
  | cons t l ih =>
    intro acc
    rw [List.foldl_cons, ih]
    have : (readThread acc.2 (w.of t) (((rows.find? (fun p => p.1 == t.slot)).map Prod.snd).getD []) t).1.t.id = t.id := by
      have := (readThread_kept .fixed acc.2 (w.of t) (((rows.find? (fun p => p.1 == t.slot)).map Prod.snd).getD []) t).1
      unfold readThread at this ⊢
      split
      · rfl
      · simp_all
    simp [this]

theorem lanesRead_id {w : Spec} {s : State} {g : Grp} {l : Lane} (hl : l ∈ lanesRead w s g) : ∃ t ∈ executing g w.h, l.t.id = t.id := by
  have : l.t.id ∈ (executing g w.h).map Thread.id := by
    rw [← readLanes_lanes s w (executing g w.h)]
    exact List.mem_map.2 ⟨l, hl, rfl⟩
  obtain ⟨t, ht, h⟩ := List.mem_map.1 this
  exact ⟨t, ht, h.symm⟩

theorem afterReads_issued {k : Issue} {w : Spec} {s : State} {g : Grp} (hg : s.grp = some g) : Issued k g.entry.members (namesRead w g) s (afterReads w s g) :=
  readLanes_issued s w _ (fun _ ht => (grp_member hg (executing_sub ht)).1) (fun _ ht => (grp_member hg (executing_sub ht)).2)
    (fun t ht _ hn => List.mem_flatMap.2 ⟨t, ht, hn⟩)

theorem afterReads_entry {w : Spec} {s : State} {g : Grp} (hg : s.grp = some g) : (afterReads w s g).entry g.core g.uid = some g.entry :=
  ((readLanes_table s w _).entry _ _).trans (grp_spec hg).1

/-- THE FRAME OF A FIXED-LATENCY WORD. -/
theorem afterFixed_issued {w : Spec} {s : State} {g : Grp} (lat : Nat) (r : Lane → Res) (hg : s.grp = some g) :
    Issued .fixed g.entry.members (namesRead w g ++ w.dst.names.map Prod.fst) s (afterFixed w lat s g r) := by
  unfold afterFixed
  refine ((afterReads_issued hg).mono (List.Subset.refl _) (by simp)).trans ((bindFixed_issued _ _ _ _ _ ?_ ?_).trans (finishWord_issued _ _ _ ?_ ?_))
  · intro p hp
    obtain ⟨l, hl, rfl⟩ := List.mem_map.1 hp
    obtain ⟨t, ht, h⟩ := lanesRead_id hl
    rw [h]
    exact (grp_member hg (executing_sub ht)).2
  · intro x hx
    exact List.mem_append_right _ (List.mem_map.2 ⟨x, hx, rfl⟩)
  · exact fun t ht => (grp_member hg ht).2
  · intro e he
    rw [(bindFixed_table _ _ _ _ _).entry, afterReads_entry hg] at he
    cases he
    exact List.Subset.refl _

/-! ## Operations that become outstanding -/

theorem outer_ops {k : Issue} (hk : k ≠ .fixed) (s : State) (l : List Op) : ({ s with ops := l } : State).outer k = s.outer k := by
  simp [State.outer, hk]

theorem countUp_issued {k : Issue} {ids ns : List Nat} (hk : k ≠ .fixed) (s : State) (i : Nat) (f : Option Nat × Option Nat) (hi : i ∈ ids) :
    Issued k ids ns s (countUp s i f) := by
  unfold countUp
  rcases f with ⟨_ | a, _ | b⟩ <;>
    exact .updThread _ _ _ hi (fun _ => rfl) (fun t => by simp [Thread.outer, flagUp, hk]) (fun _ _ _ => rfl)

theorem bindPending_issued {k : Issue} {ids ns : List Nat} (s : State) (g : Grp) (d : Dest) (l : Lane) (toks : List Nat) (hi : l.t.id ∈ ids)
    (hn : ∀ x ∈ d.names, x.1 ∈ ns) : Issued k ids ns s (bindPending s g d l toks) :=
  .foldl _ _ _ (fun _ x hx => bindName_issued _ _ _ _ hi (hn x.1 (List.of_mem_zip hx).1))

theorem tokensFor_issued {k : Issue} {ids ns : List Nat} (s : State) (d : Dest) : Issued k ids ns s (tokensFor s d).2 :=
  .same rfl rfl (fun _ => rfl) (fun _ => rfl) rfl rfl

theorem pushPending_issued {k : Issue} {ids ns : List Nat} (s : State) (g : Grp) (d : Dest) (ls : List (Lane × List Nat)) :
    Issued k ids ns s (pushPending s g d ls) := by
  unfold pushPending
  split
  · exact .foldl _ _ _ (fun _ _ _ => pushCells_issued _ _ _ _)
  · exact .refl _ _ _ _

theorem tokens_issued {k : Issue} {ids ns : List Nat} (d : Dest) (ops : List (Lane × NewOp)) (acc : List (Lane × List Nat) × State) :
    Issued k ids ns acc.2 (ops.foldl (fun (acc : List (Lane × List Nat) × State) p => (acc.1 ++ [(p.1, (tokensFor acc.2 d).1)], (tokensFor acc.2 d).2)) acc).2 := by
  induction ops generalizing acc with
  | nil => exact .refl _ _ _ _
  | cons p ops ih => exact (tokensFor_issued acc.2 d).trans (ih (acc.1 ++ [(p.1, (tokensFor acc.2 d).1)], (tokensFor acc.2 d).2))

theorem issueOps_issued {k : Issue} {ids ns : List Nat} (hk : k ≠ .fixed) (s0 : State) (g : Grp) (w : Spec) (ops : List (Lane × NewOp))
    (hi : ∀ p ∈ ops, p.1.t.id ∈ ids) (hn : ∀ x ∈ w.dst.names, x.1 ∈ ns) : Issued k ids ns s0 (issueOps s0 g w ops) := by
  unfold issueOps
  dsimp only
  refine Issued.trans ?_ (pushPending_issued _ _ _ _)
  refine Issued.trans ?_ (.foldl _ _ _ (fun s p hp => ?_))
  · exact (Issued.fresh s0).trans (tokens_issued w.dst ops ([], s0.fresh.2))
  · have hid : p.1.1.t.id ∈ ids := hi p.1 (List.of_mem_zip hp).1
    have h1 := (countUp_issued (ns := ns) hk s p.1.1.t.id (flagsOf s0.fresh.2 g w.a w.b) hid).trans
      ((bindPending_issued _ g w.dst p.1.1 p.2.2 hid hn).trans (Issued.fresh _))
    exact h1.trans (.same (outer_ops hk _ _) rfl (fun _ => rfl) (fun _ => rfl) rfl rfl)

theorem bindPending_table (s : State) (g : Grp) (d : Dest) (l : Lane) (toks : List Nat) : SameTable s (bindPending s g d l toks) :=
  .foldl _ _ _ (fun _ _ _ => bindName_table _ _ _ _)

theorem pushPending_table (s : State) (g : Grp) (d : Dest) (ls : List (Lane × List Nat)) : SameTable s (pushPending s g d ls) := by
  unfold pushPending
  split
  · exact .foldl _ _ _ (fun _ _ _ => pushCells_table _ _ _ _)
  · exact .refl _

theorem tokens_table (d : Dest) (ops : List (Lane × NewOp)) (acc : List (Lane × List Nat) × State) :
    SameTable acc.2 (ops.foldl (fun (acc : List (Lane × List Nat) × State) p => (acc.1 ++ [(p.1, (tokensFor acc.2 d).1)], (tokensFor acc.2 d).2)) acc).2 := by
  induction ops generalizing acc with
  | nil => exact .refl _
  | cons p ops ih => exact SameTable.trans (u := (tokensFor acc.2 d).2) (.ofCores rfl) (ih (acc.1 ++ [(p.1, (tokensFor acc.2 d).1)], (tokensFor acc.2 d).2))

theorem issueOps_table (s0 : State) (g : Grp) (w : Spec) (ops : List (Lane × NewOp)) : SameTable s0 (issueOps s0 g w ops) := by
  unfold issueOps
  dsimp only
  refine SameTable.trans ?_ (pushPending_table _ _ _ _)
  refine SameTable.trans ?_ (.foldl _ _ _ (fun s p _ => ?_))
  · exact tokens_table w.dst ops ([], s0.fresh.2)
  · have h1 : SameTable s (countUp s p.1.1.t.id (flagsOf s0.fresh.2 g w.a w.b)) := .ofCores rfl
    exact h1.trans (SameTable.trans (bindPending_table _ g w.dst p.1.1 p.2.2) (.ofCores (by rfl)))

theorem finish_issued {k : Issue} {ns : List Nat} {s u : State} {g : Grp} (h : Hd) (hg : s.grp = some g) (hi : Issued k g.entry.members ns s u)
    (ht : SameTable s u) : Issued k g.entry.members ns s (finishWord u g h) := by
  refine hi.trans (finishWord_issued _ _ _ (fun t ht => (grp_member hg ht).2) (fun e he => ?_))
  rw [ht.entry, (grp_spec hg).1] at he
  cases he
  exact List.Subset.refl _

/-! ## Words that read, end their clause, or issue operations -/

/-- Reads leave the seed of a context. -/
theorem afterReads_seed (w : Spec) (s : State) (g : Grp) (hg : s.grp = some g) (c : Nat) : ((afterReads w s g).ctx c).seed = (s.ctx c).seed := by
  have := (afterReads_issued (k := .fixed) (w := w) hg).ctx c
  simpa [Context.outer] using congrArg Context.seed this

/-- Reads leave the mode of a context. -/
theorem afterReads_ilk (w : Spec) (s : State) (g : Grp) (hg : s.grp = some g) (c : Nat) : (afterReads w s g).ilk c = s.ilk c := by
  have := (afterReads_issued (k := .fixed) (w := w) hg).ctx c
  have := congrArg Context.cfg this
  simp only [State.ilk]
  exact congrArg (fun x : W64 => x.getLsbD 62) this

/-- Reads leave the outstanding operations. -/
theorem afterReads_ops (w : Spec) (s : State) (g : Grp) (hg : s.grp = some g) : (afterReads w s g).ops = s.ops := by
  have := (afterReads_issued (k := .fixed) (w := w) hg).device
  simpa [State.outer] using congrArg State.ops this

/-- Reads leave the privilege of a context. -/
theorem afterReads_priv (w : Spec) (s : State) (g : Grp) (hg : s.grp = some g) (c : Nat) : (afterReads w s g).priv c = s.priv c := by
  have := (afterReads_issued (k := .fixed) (w := w) hg).ctx c
  have := congrArg Context.cfg this
  simp only [State.priv]
  exact congrArg (fun x : W64 => x.getLsbD 63) this

/-- What the operations of a word leave, up to its end. -/
theorem issueOps_frame {w : Spec} {s : State} {g : Grp} {ops : List (Lane × NewOp)} (hg : s.grp = some g) (ho : ∀ p ∈ ops, p.1 ∈ lanesRead w s g) :
    Issued .operation g.entry.members (namesOf w g) s (issueOps (afterReads w s g) g w ops) ∧ SameTable s (issueOps (afterReads w s g) g w ops) := by
  refine ⟨?_, (readLanes_table s w _).trans (issueOps_table _ _ _ _)⟩
  refine ((afterReads_issued hg).mono (List.Subset.refl _) (by simp [namesOf])).trans (issueOps_issued (by decide) _ _ _ _ ?_ ?_)
  · intro p hp
    obtain ⟨t, ht, h⟩ := lanesRead_id (ho p hp)
    rw [h]
    exact (grp_member hg (executing_sub ht)).2
  · intro x hx
    exact List.mem_append_right _ (List.mem_map.2 ⟨x, hx, rfl⟩)

/-- An issue leaves the debug grant of a context. -/
theorem grantActive_issued {k ids ns} {s u : State} (h : Issued k ids ns s u) (c : Nat) : grantActive u c = grantActive s c := by
  have := congrArg Context.dbg (h.ctx c)
  have e : (u.ctx c).dbg = (s.ctx c).dbg := this
  unfold grantActive
  simp [e]

/-- Without debug access nothing is watched. -/
theorem watched_none {s : State} {g : Grp} (h : grantActive s g.ctx = false) (ls n a b c) : watched s g ls n a b c = s := by
  unfold watched watchHits; simp [h]

/-- The frame of a word that only reads. -/
theorem reads_frame {k : Issue} {w : Spec} {s : State} {g : Grp} (hg : s.grp = some g) (h : Hd) : Issued k g.entry.members (namesOf w g) s (finishWord (afterReads w s g) g h) :=
  finish_issued h hg ((afterReads_issued hg).mono (List.Subset.refl _) (by simp [namesOf])) (readLanes_table s w _)

/-- The frame of a word that ends its clause. -/
theorem finishWith_frame {k : Issue} {ns} {s u : State} {g : Grp} (h : Hd) (nx) (hg : s.grp = some g) (hi : Issued k g.entry.members ns s u) (ht : SameTable s u) :
    Issued k g.entry.members ns s (finishWith u g h nx) := by
  refine hi.trans (finishWith_issued _ _ _ _ (fun t ht => (grp_member hg ht).2) (fun e he => ?_))
  rw [ht.entry, (grp_spec hg).1] at he
  cases he
  exact List.Subset.refl _

/-! ## Reads and results of a thread -/

/-- Each name is counted once. -/
theorem lookupName_countAll (t : Thread) (f : Nat → Nat) (l : List Nat) (n : Nat) (hd : l.Nodup) (hn : n ∈ l) :
    lookupName (l.foldl (fun u n => countReads u n (f n)) t) n = lookupName (countReads t n (f n)) n := by
  induction l generalizing t with
  | nil => simp at hn
  | cons a l ih =>
    rw [List.nodup_cons] at hd
    rw [List.foldl_cons]
    by_cases e : n = a
    · subst e
      exact (countAll_kept .fixed (countReads t n (f n)) f l).2.2 n hd.1
    · have hl : n ∈ l := by simpa [e] using hn
      rw [ih _ hd.2 hl]
      have e1 : lookupName (countReads t a (f a)) n = lookupName t n := lookupName_countReads_ne t _ e
      unfold countReads at *
      rw [e1]
      cases h : lookupName t n with
      | none => simp [h, e1]
      | some b =>
        dsimp only
        split
        · simp [h, e1]
        · split <;> simp

/-- The names counted are distinct. -/
theorem nodup_dedupNats (l : List Nat) : (dedupNats l).Nodup := by
  unfold dedupNats
  suffices h : ∀ (l acc : List Nat), acc.Nodup → (l.foldl (fun acc n => if acc.contains n then acc else acc ++ [n]) acc).Nodup from h l [] List.nodup_nil
  intro l
  induction l with
  | nil => intro acc h; exact h
  | cons a l ih =>
    intro acc h
    rw [List.foldl_cons]
    apply ih
    split
    · exact h
    · rename_i hc
      simp at hc
      rw [List.nodup_append]
      exact ⟨h, by simp, by intro x hx y hy; simp at hy; subst hy; exact fun e => hc (e ▸ hx)⟩

/-- What the reads of a thread leave of a name that it reads (R66). -/
theorem readThread_counts (s : State) (l : List Opnd) (st : List W64) (t : Thread) (h : t.replaying = none) (n : Nat) (hn : n ∈ valNames l) :
    lookupName (readThread s l st t).2 n = lookupName (countReads t n (countOf n (valNames l))) n := by
  unfold readThread
  rw [h]
  dsimp only
  rw [lookupName_countAll _ (fun n => countOf n (valNames l)) _ n (nodup_dedupNats _) ((mem_dedupNats _ _).2 hn)]
  have := (readFields_kept .fixed s t l st t).2.2
  unfold countReads
  rw [lookupName_congr this]
  split
  · rename_i h1; rw [lookupName_congr this]
  · split
    · rw [lookupName_congr this]
    · split <;> simp

/-- An executing thread after the reads of a word. -/
theorem readLanes_thread (s : State) (w : Spec) (ts : List Thread) (t : Thread) (P : Thread → Prop) (ht : t ∈ ts) (hs : ∀ u ∈ ts, s.thread u.id = some u)
    (hp : ∀ q st, P (readThread q (w.of t) st t).2) : ∃ u, (readLanes s w ts).2.thread t.id = some u ∧ P u := by
  unfold readLanes
  rcases hpr : popRows s ts w.srcs with ⟨rows, s1⟩
  have h1 : Issued .fixed [] [] s s1 := by have := popRows_issued (k := .fixed) (ids := []) (ns := []) s ts w.srcs; rwa [hpr] at this
  have hx : ∃ x, s1.thread t.id = some x := ⟨t, by rw [h1.others t.id (by simp)]; exact hs t ht⟩
  simp only
  suffices h : ∀ (l : List Thread) (acc : List Lane × State), (∀ u ∈ l, u ∈ ts) → (∃ x, acc.2.thread t.id = some x ∧ (t ∈ l ∨ P x)) →
      ∃ u, (l.foldl (fun (acc : List Lane × State) t =>
        (acc.1 ++ [(readThread acc.2 (w.of t) (((rows.find? (fun p => p.1 == t.slot)).map Prod.snd).getD []) t).1],
          acc.2.updThread t.id (fun _ => (readThread acc.2 (w.of t) (((rows.find? (fun p => p.1 == t.slot)).map Prod.snd).getD []) t).2))) acc).2.thread t.id = some u ∧ P u from by
    obtain ⟨x, hx⟩ := hx
    exact h ts ([], s1) (fun _ h => h) ⟨x, hx, .inl ht⟩
  intro l
  induction l with
  | nil => rintro acc _ ⟨x, hx, h | h⟩; · cases h
           · exact ⟨x, hx, h⟩
  | cons a l ih =>
    rintro acc hl ⟨x, hx, h⟩
    rw [List.foldl_cons]
    refine ih _ (fun u hu => hl u (by simp [hu])) ?_
    have ha : a ∈ ts := hl a (by simp)
    by_cases e : a.id = t.id
    · have : a = t := by have h1 := hs a ha; have h2 := hs t ht; rw [e, h2] at h1; exact (Option.some.inj h1).symm
      subst this
      have hid : (readThread acc.2 (w.of a) (((rows.find? (fun p => p.1 == a.slot)).map Prod.snd).getD []) a).2.id = a.id := (readThread_kept .fixed _ _ _ _).1
      refine ⟨(readThread acc.2 (w.of a) (((rows.find? (fun p => p.1 == a.slot)).map Prod.snd).getD []) a).2, ?_, .inr (hp _ _)⟩
      have hxid : x.id = a.id := State.thread_id hx
      simp only [State.thread, State.updThread, List.find?_map] at hx ⊢
      have : ((fun y => y.id == a.id) ∘ fun y : Thread => if y.id = a.id then (readThread acc.2 (w.of a) (((rows.find? (fun p => p.1 == a.slot)).map Prod.snd).getD []) a).2 else y)
          = fun y : Thread => y.id == a.id := by
        funext y; simp only [Function.comp]; split <;> simp_all
      rw [this, hx]
      simp [hxid]
    · have h' : t ∈ l ∨ P x := by
        rcases h with h | h
        · rcases List.mem_cons.1 h with rfl | h
          · exact absurd rfl e
          · exact .inl h
        · exact .inr h
      refine ⟨x, ?_, h'⟩
      have hid : (readThread acc.2 (w.of a) (((rows.find? (fun p => p.1 == a.slot)).map Prod.snd).getD []) a).2.id = a.id := (readThread_kept .fixed _ _ _ _).1
      have hxid : x.id = t.id := State.thread_id hx
      simp only [State.thread, State.updThread, List.find?_map] at hx ⊢
      have : ((fun y => y.id == t.id) ∘ fun y : Thread => if y.id = a.id then (readThread acc.2 (w.of a) (((rows.find? (fun p => p.1 == a.slot)).map Prod.snd).getD []) a).2 else y)
          = fun y : Thread => y.id == t.id := by
        funext y; simp only [Function.comp]; split <;> simp_all
      rw [this, hx]
      have : x.id ≠ a.id := by rw [hxid]; exact Ne.symm e
      simp [this]

/-- What a thread holds of results: its names, its results in flight, its predicates and its predicates' waits. -/
abbrev Held := List (Nat × Binding) × List InFlight × BitVec 8 × List (Nat × Nat)

def Thread.held (t : Thread) : Held := (t.names, t.flight, t.preds, t.predPend)

/-- The thread stands in the state, and what it holds meets `P`. -/
def HeldAt (i : Nat) (P : Held → Prop) (s : State) : Prop := ∃ u, s.thread i = some u ∧ P u.held

theorem HeldAt.mono {i : Nat} {P Q : Held → Prop} {s : State} (h : HeldAt i P s) (hpq : ∀ x, P x → Q x) : HeldAt i Q s :=
  Exists.imp (fun _ hu => ⟨hu.1, hpq _ hu.2⟩) h

/-- An update of a thread turns what it holds from `P` into `Q`; that of another thread keeps it. -/
theorem heldAt_updThread {i j : Nat} {P Q : Held → Prop} {s : State} {F : Thread → Thread} (hid : ∀ t, (F t).id = t.id)
    (hf : ∀ t, i = j → P t.held → Q (F t).held) (hn : ∀ x, i ≠ j → P x → Q x) (h : HeldAt i P s) : HeldAt i Q (s.updThread j F) := by
  obtain ⟨u, hu, hm⟩ := h
  refine ⟨if u.id = j then F u else u, ?_, ?_⟩
  · rw [State.thread_updThread s j F hid, hu]; rfl
  · rw [State.thread_id hu]
    split
    · exact hf u ‹_› hm
    · exact hn _ ‹_› hm

theorem heldAt_keep {i j : Nat} {P : Held → Prop} {s : State} {F : Thread → Thread} (hid : ∀ t, (F t).id = t.id) (hf : ∀ t, (F t).held = t.held)
    (h : HeldAt i P s) : HeldAt i P (s.updThread j F) :=
  heldAt_updThread hid (fun t _ ht => by rw [hf]; exact ht) (fun _ _ h => h) h

theorem heldAt_same {i : Nat} {P : Held → Prop} {s u : State} (h : u.threads = s.threads) (hs : HeldAt i P s) : HeldAt i P u := by
  obtain ⟨x, hx, hm⟩ := hs
  exact ⟨x, by simpa [State.thread, h] using hx, hm⟩

theorem heldAt_foldl {α : Type} {i : Nat} {P : Held → Prop} (l : List α) (F : State → α → State) (s : State)
    (h : ∀ s, ∀ a ∈ l, HeldAt i P s → HeldAt i P (F s a)) (hs : HeldAt i P s) : HeldAt i P (l.foldl F s) := by
  induction l generalizing s with
  | nil => exact hs
  | cons a l ih => exact ih _ (fun s b hb => h s b (List.mem_cons_of_mem _ hb)) (h s a List.mem_cons_self hs)

/-- A name bound in its thread: that name is the new binding, the other names, the flight and the predicates are as before. -/
theorem heldAt_bindName {i : Nat} {P Q : Held → Prop} (s : State) (j n : Nat) (b : Binding)
    (hf : ∀ t : Thread, i = j → P t.held → Q (setName (freeName t n) n b).held) (hn : ∀ x, i ≠ j → P x → Q x) (h : HeldAt i P s) :
    HeldAt i Q (bindName s j n b) := by
  unfold bindName
  split
  · rename_i hj
    obtain ⟨u, hu, hm⟩ := h
    by_cases e : i = j
    · rw [e, hj] at hu; cases hu
    · exact ⟨u, hu, hn _ e hm⟩
  · refine heldAt_updThread (fun t => by simp [setName]) hf hn ?_
    split
    · exact heldAt_same rfl h
    · exact h

theorem freeName_held (t : Thread) (n : Nat) : (freeName t n).flight = t.flight ∧ (freeName t n).preds = t.preds ∧ (freeName t n).predPend = t.predPend := by
  unfold freeName; split <;> (try split) <;> exact ⟨rfl, rfl, rfl⟩

/-- One executing lane of a fixed-latency word (R72): the body of `bindFixed`. -/
def bindStep (g : Grp) (d : Dest) (lat : Nat) (s : State) (p : Lane × Res) : State :=
    if d.names.isEmpty && d.preds.isEmpty && !p.2.cvt then s
    else
      let (tok, s) := s.fresh
      let late := !s.ilk g.ctx
      let names := (d.names.zip p.2.vals).map (fun x => (x.1.1, mkBinding d g.pc x.1.2 x.2 none))
      let f : InFlight := { tok := tok, due := s.clk + lat, late := late, names := names, preds := d.preds.zip p.2.preds, cvt := p.2.cvt }
      let s := if late then s
        else
          let s := d.names.foldl (fun s x => bindName s p.1.t.id x.1 (mkBinding d g.pc x.2 0#64 (some tok))) s
          s.updThread p.1.t.id (fun t => { t with
            predPend := t.predPend.filter (fun q => !d.preds.contains q.1) ++ (d.preds.filter (fun q => q != 7)).map (fun q => (q, tok)) })
      s.updThread p.1.t.id (fun t => { t with flight := t.flight ++ [f] })

/-- A lane of another thread leaves what a thread holds as it is. -/
theorem heldAt_bindStep_ne (g : Grp) (d : Dest) (lat : Nat) {i : Nat} {P : Held → Prop} (s : State) (p : Lane × Res) (hi : i ≠ p.1.t.id) (h : HeldAt i P s) :
    HeldAt i P (bindStep g d lat s p) := by
  unfold bindStep
  split
  · exact h
  · dsimp only
    refine heldAt_updThread (fun _ => rfl) (fun t e => absurd e hi) (fun _ _ h => h) ?_
    have h1 : HeldAt i P s.fresh.2 := heldAt_same rfl h
    split
    · exact h1
    · exact heldAt_updThread (fun _ => rfl) (fun t e => absurd e hi) (fun _ _ h => h)
        (heldAt_foldl _ _ _ (fun s x _ hs => heldAt_bindName s _ _ _ (fun t e => absurd e hi) (fun _ _ h => h) hs) h1)

/-- In trusted mode a lane leaves the names and the predicates. -/
theorem heldAt_bindStep_late (g : Grp) (d : Dest) (lat : Nat) {i : Nat} {x : Held} (s : State) (p : Lane × Res) (hl : s.ilk g.ctx = false)
    (h : HeldAt i (fun y => y.1 = x.1 ∧ y.2.2 = x.2.2) s) : HeldAt i (fun y => y.1 = x.1 ∧ y.2.2 = x.2.2) (bindStep g d lat s p) := by
  unfold bindStep
  split
  · exact h
  · have hl' : s.fresh.2.ilk g.ctx = false := hl
    simp only [hl', Bool.not_false, if_true]
    exact heldAt_updThread (fun _ => rfl) (fun t _ h => h) (fun _ _ h => h) (heldAt_same rfl h)

/-- The names of a destination bound in turn: each is bound, and the results in flight stay. -/
theorem heldAt_bindNames {i : Nat} {fl : List InFlight} (B : Nat × Bool → Binding) (l done : List (Nat × Bool)) (s : State) (hd : ((done ++ l).map Prod.fst).Nodup)
    (h : HeldAt i (fun y => y.2.1 = fl ∧ ∀ x ∈ done, (y.1.find? (fun p => p.1 == x.1)).map Prod.snd = some (B x)) s) :
    HeldAt i (fun y => y.2.1 = fl ∧ ∀ x ∈ done ++ l, (y.1.find? (fun p => p.1 == x.1)).map Prod.snd = some (B x)) (l.foldl (fun s x => bindName s i x.1 (B x)) s) := by
  induction l generalizing done s with
  | nil => simpa using h
  | cons a l ih =>
    have e : done ++ a :: l = (done ++ [a]) ++ l := by simp
    rw [e] at hd ⊢
    refine ih _ _ hd (heldAt_bindName _ _ _ _ (fun t _ ht => ⟨?_, fun x hx => ?_⟩) (fun _ hn => absurd rfl hn) h)
    · exact (freeName_held t a.1).1.trans ht.1
    · change lookupName (setName (freeName t a.1) a.1 (B a)) x.1 = some (B x)
      rcases List.mem_append.1 hx with hx | hx
      · have hne : x.1 ≠ a.1 := by
          intro hc
          rw [List.map_append, List.map_append] at hd
          have := (List.nodup_append.1 (List.nodup_append.1 hd).1).2.2 x.1 (List.mem_map.2 ⟨x, hx, rfl⟩) a.1 (by simp)
          exact this hc
        rw [lookupName_setName_ne _ _ hne, lookupName_freeName_ne _ hne]
        exact ht.2 x hx
      · rw [List.mem_singleton.1 hx]; simp

/-- R69, R72, R73: what the thread of an executing lane holds after its lane of a fixed-latency word. -/
structure FlightOf (g : Grp) (d : Dest) (s : State) (x : Held) (f : InFlight) (y : Held) : Prop where
  held : f ∈ y.2.1
  trusted : s.ilk g.ctx = false → y.1 = x.1 ∧ y.2.2 = x.2.2
  names : s.ilk g.ctx = true → ∀ n ∈ d.names, (y.1.find? (fun p => p.1 == n.1)).map Prod.snd = some (mkBinding d g.pc n.2 0#64 (some f.tok))
  preds : s.ilk g.ctx = true → ∀ q ∈ d.preds, q ≠ 7 → (q, f.tok) ∈ y.2.2.2

theorem heldAt_bindStep (g : Grp) (d : Dest) (lat : Nat) {x : Held} (s : State) (p : Lane × Res) (hne : d.names ≠ [] ∨ d.preds ≠ [])
    (hd : (d.names.map Prod.fst).Nodup) (h : HeldAt p.1.t.id (· = x) s) :
    ∃ f, HeldAt p.1.t.id (FlightOf g d s x f) (bindStep g d lat s p) ∧ f.due = s.clk + lat ∧ f.late = !s.ilk g.ctx
      ∧ f.names = (d.names.zip p.2.vals).map (fun x => (x.1.1, mkBinding d g.pc x.1.2 x.2 none)) ∧ f.preds = d.preds.zip p.2.preds := by
  have hc : (d.names.isEmpty && d.preds.isEmpty && !p.2.cvt) = false := by
    rcases hne with h | h
    · cases hd : d.names with
      | nil => exact absurd hd h
      | cons => rfl
    · cases hd : d.preds with
      | nil => exact absurd hd h
      | cons => simp
  refine ⟨{ tok := s.fresh.1, due := s.clk + lat, late := !s.ilk g.ctx, names := (d.names.zip p.2.vals).map (fun x => (x.1.1, mkBinding d g.pc x.1.2 x.2 none)),
            preds := d.preds.zip p.2.preds, cvt := p.2.cvt }, ?_, rfl, rfl, rfl, rfl⟩
  unfold bindStep
  rw [hc]
  simp only [Bool.false_eq_true, if_false]
  have h1 : HeldAt p.1.t.id (· = x) s.fresh.2 := heldAt_same rfl h
  have hk : s.fresh.2.ilk g.ctx = s.ilk g.ctx := rfl
  cases hi : s.ilk g.ctx
  · rw [hk, hi]
    refine heldAt_updThread (P := (· = x)) (fun _ => rfl) (fun t _ ht => ⟨by simp [Thread.held], fun _ => ?_, fun e => absurd e (by simp [hi]), fun e => absurd e (by simp [hi])⟩)
      (fun _ hn => absurd rfl hn) (by simpa using h1)
    subst ht; exact ⟨rfl, rfl⟩
  · rw [hk, hi]
    simp only [Bool.not_true, Bool.false_eq_true, if_false]
    have h2 := heldAt_bindNames (i := p.1.t.id) (fl := x.2.1) (fun x => mkBinding d g.pc x.2 0#64 (some s.fresh.1)) d.names [] s.fresh.2 (by simpa using hd) (h1.mono (by rintro _ rfl; simp))
    rw [List.nil_append] at h2
    refine heldAt_updThread (P := fun y => (∀ n ∈ d.names, (y.1.find? (fun p => p.1 == n.1)).map Prod.snd = some (mkBinding d g.pc n.2 0#64 (some s.fresh.1)))
        ∧ ∀ q ∈ d.preds, q ≠ 7 → (q, s.fresh.1) ∈ y.2.2.2) (fun _ => rfl)
      (fun t _ ht => ⟨by simp [Thread.held], fun e => absurd e (by simp [hi]), fun _ => ht.1, fun _ => ht.2⟩) (fun _ hn => absurd rfl hn) ?_
    refine heldAt_updThread (fun _ => rfl) (fun t _ ht => ⟨ht.2, fun q hq hq7 => ?_⟩) (fun _ hn => absurd rfl hn) h2
    simp only [Thread.held, List.mem_append, List.mem_map, List.mem_filter]
    exact Or.inr ⟨q, ⟨hq, by simpa using hq7⟩, rfl⟩

theorem bindStep_issued (g : Grp) (d : Dest) (lat : Nat) (s : State) (p : Lane × Res) : Issued .fixed [p.1.t.id] (d.names.map Prod.fst) s (bindStep g d lat s p) := by
  have := bindFixed_issued (k := .fixed) (ids := [p.1.t.id]) (ns := d.names.map Prod.fst) s g { d with push := none } lat [p] (by simp) (fun x hx => List.mem_map.2 ⟨x, hx, rfl⟩)
  exact this

/-- A lane keeps the results in flight. -/
theorem heldAt_bindStep_flight (g : Grp) (d : Dest) (lat : Nat) {i : Nat} {f : InFlight} (s : State) (p : Lane × Res) (h : HeldAt i (fun y => f ∈ y.2.1) s) :
    HeldAt i (fun y => f ∈ y.2.1) (bindStep g d lat s p) := by
  unfold bindStep
  split
  · exact h
  · dsimp only
    refine heldAt_updThread (fun _ => rfl) (fun t _ ht => by simp [Thread.held] at ht ⊢; exact Or.inl ht) (fun _ _ h => h) ?_
    have h1 : HeldAt i (fun y => f ∈ y.2.1) s.fresh.2 := heldAt_same rfl h
    split
    · exact h1
    · refine heldAt_updThread (fun _ => rfl) (fun t _ ht => ht) (fun _ _ h => h) (heldAt_foldl _ _ _ (fun s x _ hs => heldAt_bindName s _ _ _ (fun t _ ht => ?_) (fun _ _ h => h) hs) h1)
      have := (freeName_held t x.1).1
      simpa [Thread.held, setName, this] using ht

/-- What issues in a context keeps its mode. -/
theorem Issued.ilk {k : Issue} {ids ns : List Nat} {s u : State} (h : Issued k ids ns s u) (c : Nat) : u.ilk c = s.ilk c := by
  have : (u.ctx c).cfg = (s.ctx c).cfg := by have := congrArg Context.cfg (h.ctx c); exact this
  unfold State.ilk; rw [this]

theorem foldl_threads {α : Type} (l : List α) (F : State → α → State) (s : State) (h : ∀ s a, (F s a).threads = s.threads) : (l.foldl F s).threads = s.threads := by
  induction l generalizing s with
  | nil => rfl
  | cons a l ih => exact (ih _).trans (h s a)

theorem pushCells_threads (s : State) (g : Grp) (q : PushQ) (cells : List (Thread × QCell)) : (pushCells s g q cells).threads = s.threads := by
  unfold pushCells
  split
  · rfl
  · exact foldl_threads _ _ _ (fun _ _ => rfl)
  · exact foldl_threads _ _ _ (fun _ _ => rfl)

/-- R69, R72, R73: each executing lane of a fixed-latency word has its result in flight, due its latency after the clk of issue. -/
theorem bindFixed_flight (s : State) (g : Grp) (d : Dest) (lat : Nat) (rs : List (Lane × Res)) (p : Lane × Res) {x : Held} (hp : p ∈ rs)
    (hne : d.names ≠ [] ∨ d.preds ≠ []) (hd : (d.names.map Prod.fst).Nodup) (ht : HeldAt p.1.t.id (· = x) s) :
    ∃ f, HeldAt p.1.t.id (fun y => f ∈ y.2.1 ∧ (s.ilk g.ctx = false → y.1 = x.1 ∧ y.2.2 = x.2.2)
        ∧ (s.ilk g.ctx = true → (∀ q ∈ rs, q.1.t.id = p.1.t.id → q = p) →
          (∀ n ∈ d.names, (y.1.find? (fun p => p.1 == n.1)).map Prod.snd = some (mkBinding d g.pc n.2 0#64 (some f.tok)))
          ∧ ∀ q ∈ d.preds, q ≠ 7 → (q, f.tok) ∈ y.2.2.2)) (bindFixed s g d lat rs)
      ∧ f.due = s.clk + lat ∧ f.late = !s.ilk g.ctx ∧ f.names = (d.names.zip p.2.vals).map (fun x => (x.1.1, mkBinding d g.pc x.1.2 x.2 none))
      ∧ f.preds = d.preds.zip p.2.preds := by
  obtain ⟨s0, e, hI, hx0⟩ : ∃ s0, bindFixed s g d lat rs = rs.foldl (bindStep g d lat) s0 ∧ Issued .fixed [] [] s s0 ∧ s0.threads = s.threads := by
    refine ⟨_, rfl, ?_⟩
    split
    · exact ⟨.foldl _ _ _ (fun _ _ _ => pushCells_issued _ _ _ _), foldl_threads _ _ _ (fun s a => pushCells_threads ..)⟩
    · exact ⟨.refl _ _ _ _, rfl⟩
  rw [e]
  obtain ⟨l2, l1, hsplit, hlast⟩ := List.eq_append_cons_of_mem (List.mem_reverse.2 hp)
  obtain ⟨m1, m2, rfl, hnot⟩ : ∃ m1 m2, rs = m1 ++ p :: m2 ∧ p ∉ m2 :=
    ⟨l1.reverse, l2.reverse, by rw [← List.reverse_inj, hsplit]; simp, by simpa using hlast⟩
  rw [List.foldl_append, List.foldl_cons]
  have h0 : HeldAt p.1.t.id (· = x) s0 := heldAt_same hx0 ht
  have h1 : Issued .fixed (m1.map (fun q => q.1.t.id)) (d.names.map Prod.fst) s0 (m1.foldl (bindStep g d lat) s0) :=
    .foldl _ _ _ (fun s a ha => (bindStep_issued g d lat s a).mono (by intro x hx; simp at hx; subst hx; exact List.mem_map.2 ⟨a, ha, rfl⟩) (List.Subset.refl _))
  have hl : s.ilk g.ctx = false → HeldAt p.1.t.id (fun y => y.1 = x.1 ∧ y.2.2 = x.2.2) (m1.foldl (bindStep g d lat) s0) := by
    intro hl
    have hq : ∀ q, Issued .fixed (m1.map (fun q => q.1.t.id)) (d.names.map Prod.fst) s0 q → q.ilk g.ctx = false := fun q hq =>
      (((hI.mono (by simp) (by simp)).trans hq).ilk g.ctx).trans hl
    suffices hs : ∀ (l : List (Lane × Res)) s1, s1.ilk g.ctx = false → HeldAt p.1.t.id (fun y => y.1 = x.1 ∧ y.2.2 = x.2.2) s1 →
        HeldAt p.1.t.id (fun y => y.1 = x.1 ∧ y.2.2 = x.2.2) (l.foldl (bindStep g d lat) s1) from hs _ _ ((hI.ilk g.ctx).trans hl) (h0.mono (by rintro _ rfl; exact ⟨rfl, rfl⟩))
    intro l
    induction l with
    | nil => intro s1 _ h; exact h
    | cons a l ih =>
      intro s1 hl1 h
      exact ih _ (((bindStep_issued g d lat s1 a).ilk g.ctx).trans hl1) (heldAt_bindStep_late g d lat s1 a hl1 h)
  generalize m1.foldl (bindStep g d lat) s0 = s1 at h1 hl
  have h2 : Issued .fixed (m1.map (fun q => q.1.t.id)) (d.names.map Prod.fst) s s1 := (hI.mono (by simp) (by simp)).trans h1
  have hclk : s1.clk = s.clk := by have := congrArg State.clk h2.device; exact this
  have hilk : s1.ilk g.ctx = s.ilk g.ctx := h2.ilk g.ctx
  obtain ⟨u, hu, -⟩ := ht
  obtain ⟨u1, hu1, -, -⟩ := h2.members _ u hu
  obtain ⟨f, hf, f1, f2, f3, f4⟩ := heldAt_bindStep g d lat (x := u1.held) s1 p hne hd ⟨u1, hu1, rfl⟩
  refine ⟨f, ?_, by rw [f1, hclk], by rw [f2, hilk], f3, f4⟩
  cases hi : s.ilk g.ctx
  · obtain ⟨v, hv, hv1, hv2⟩ := hl hi
    rw [hu1] at hv; cases hv
    have hi1 : (bindStep g d lat s1 p).ilk g.ctx = false := ((bindStep_issued g d lat s1 p).ilk g.ctx).trans (hilk.trans hi)
    have hstart : HeldAt p.1.t.id (fun y => f ∈ y.2.1 ∧ y.1 = x.1 ∧ y.2.2 = x.2.2) (bindStep g d lat s1 p) :=
      hf.mono (fun y hy => ⟨hy.held, (hy.trusted (hilk.trans hi)).1.trans hv1, (hy.trusted (hilk.trans hi)).2.trans hv2⟩)
    refine HeldAt.mono ?_ (fun y (hy : f ∈ y.2.1 ∧ y.1 = x.1 ∧ y.2.2 = x.2.2) => ⟨hy.1, fun _ => hy.2, fun e => absurd e (by simp)⟩)
    suffices hs : ∀ (l : List (Lane × Res)) s1, s1.ilk g.ctx = false → HeldAt p.1.t.id (fun y => f ∈ y.2.1 ∧ y.1 = x.1 ∧ y.2.2 = x.2.2) s1 →
        HeldAt p.1.t.id (fun y => f ∈ y.2.1 ∧ y.1 = x.1 ∧ y.2.2 = x.2.2) (l.foldl (bindStep g d lat) s1) from hs _ _ hi1 hstart
    intro l
    induction l with
    | nil => intro s1 _ h; exact h
    | cons a l ih =>
      intro s1 hl1 h
      refine ih _ (((bindStep_issued g d lat s1 a).ilk g.ctx).trans hl1) ?_
      obtain ⟨v, hv, hv1, hv2, hv3⟩ := h
      obtain ⟨w, hw, hw1⟩ := heldAt_bindStep_flight g d lat (i := p.1.t.id) (f := f) s1 a ⟨v, hv, hv1⟩
      obtain ⟨w', hw', hw2, hw3⟩ := heldAt_bindStep_late g d lat (i := p.1.t.id) (x := x) s1 a hl1 ⟨v, hv, hv2, hv3⟩
      rw [hw] at hw'; cases hw'
      exact ⟨w, hw, hw1, hw2, hw3⟩
  · by_cases hu : ∀ q ∈ m1 ++ p :: m2, q.1.t.id = p.1.t.id → q = p
    · refine (heldAt_foldl m2 _ _ (fun s a ha hs => heldAt_bindStep_ne g d lat s a (fun e => ?_) hs) hf).mono (fun y hy => ⟨hy.held, fun e => absurd e (by simp), fun _ _ => ?_⟩)
      · exact hnot (hu a (by simp [ha]) e.symm ▸ ha)
      · exact ⟨hy.names (hilk.trans hi), hy.preds (hilk.trans hi)⟩
    · exact (heldAt_foldl m2 _ _ (fun s a _ hs => heldAt_bindStep_flight g d lat s a hs) (hf.mono (fun y hy => hy.held))).mono
        (fun y hy => ⟨hy, fun e => absurd e (by simp), fun _ h => absurd h hu⟩)

theorem heldAt_issueMark {i : Nat} {P : Held → Prop} (s : State) (g : Grp) (h : Hd) (hs : HeldAt i P s) : HeldAt i P (issueMark s g h) := by
  unfold issueMark; split
  · exact hs
  · exact heldAt_same rfl hs

theorem heldAt_issuedWords {i : Nat} {P : Held → Prop} (s : State) (l : List Thread) (hs : HeldAt i P s) :
    HeldAt i P (l.foldl (fun s t => s.updThread t.id Thread.issuedWord) s) :=
  heldAt_foldl _ _ _ (fun _ _ _ hs => heldAt_keep (fun _ => rfl) (fun _ => rfl) hs) hs

theorem heldAt_enterTable {i : Nat} {P : Held → Prop} (s : State) (j : Nat) (pc : W64) (li : Option Nat) (hs : HeldAt i P s) :
    HeldAt i P (enterTable s j pc li) := by
  unfold enterTable
  split
  · exact hs
  · dsimp only
    have h1 : HeldAt i P (s.updThread j (fun t => { t with pc := pc, resume := none })) := heldAt_keep (fun _ => rfl) (fun _ => rfl) hs
    split
    · exact heldAt_same rfl h1
    · exact heldAt_same rfl h1

theorem heldAt_clauseLeft {i : Nat} {P : Held → Prop} (s : State) (last : W64) (l : List Nat) (hs : HeldAt i P s) :
    HeldAt i P (clauseLeft s last l) :=
  heldAt_foldl _ _ _ (fun _ _ _ h => heldAt_keep (fun _ => rfl) (fun _ => rfl) h) hs

theorem heldAt_endClause {i : Nat} {P : Held → Prop} (s : State) (c u : Nat) (fall last : W64) (nx : List (Nat × W64)) (hs : HeldAt i P s) :
    HeldAt i P (endClause s c u fall last nx) := by
  unfold endClause
  have h0 : HeldAt i P (nx.foldl (fun s p => s.updThread p.1 (fun t => { t with pc := p.2, resume := none })) s) :=
    heldAt_foldl _ _ _ (fun s p _ h => heldAt_keep (fun _ => rfl) (fun _ => rfl) h) hs
  split
  · exact hs
  · rename_i e _
    dsimp only
    generalize nx.foldl (fun s p => s.updThread p.1 (fun t => { t with pc := p.2, resume := none })) s = s0 at h0
    have h1 : HeldAt i P (if e.run.any Run.issued then s0 else clauseLeft s0 last (nx.map Prod.fst)) := by
      split
      · exact h0
      · exact heldAt_clauseLeft _ _ _ h0
    generalize (if e.run.any Run.issued then s0 else clauseLeft s0 last (nx.map Prod.fst)) = s1 at h1
    rcases hr : e.run with _ | r <;> dsimp only
    all_goals
      split
      · refine heldAt_foldl _ _ _ (fun s p _ h => heldAt_enterTable _ _ _ _ h) ?_
        exact heldAt_same rfl h1
      · refine heldAt_same (u := State.updCore _ _ _) rfl (heldAt_foldl _ _ _ (fun s a _ h => heldAt_same rfl h) ?_)
        exact heldAt_same rfl h1

/-- The end of a word leaves what a thread holds of results as it is. -/
theorem heldAt_finishWord {i : Nat} {P : Held → Prop} (s : State) (g : Grp) (h : Hd) (hs : HeldAt i P s) : HeldAt i P (finishWord s g h) := by
  unfold finishWord
  split
  · unfold finishWith
    dsimp only
    have := heldAt_issuedWords _ g.mem (heldAt_issueMark s g h hs)
    split
    · exact this
    · exact heldAt_endClause _ _ _ _ _ _ this
  · exact heldAt_same rfl (heldAt_issuedWords _ _ (heldAt_issueMark s g h hs))

end Sys2Proof.Machine
end

