-- ==== Sys2Proof/Laws/Memory.lean ====
section
/-! SUPPORT. The laws of the byte stores: a read after a write, that every operation keeps the canonical form, and the bytes of a number. -/

namespace Sys2Proof.Machine

namespace Memory

/-! ## Reading after writing -/

/-- An address below every entry reads as an unlisted one. -/
theorem read_below {m : List Host.Cell} {lo a : Nat} (h : above lo m = true) (ha : a < lo) : read m a = unlisted := by
  cases m with
  | nil => rfl
  | cons c rest =>
    obtain ⟨k, b⟩ := c
    simp only [above, Bool.and_eq_true, decide_eq_true_eq] at h
    simp only [read]
    rw [if_neg (by omega), if_pos (by omega)]

/-- Raising the bound: the entries above `lo + 1` are above `lo`. -/
theorem above_mono {m : List Host.Cell} {lo hi : Nat} (h : above hi m = true) (hle : lo ≤ hi) : above lo m = true := by
  cases m with
  | nil => rfl
  | cons c rest =>
    obtain ⟨k, b⟩ := c
    simp only [above, Bool.and_eq_true, decide_eq_true_eq] at h ⊢
    exact ⟨⟨by omega, h.1.2⟩, h.2⟩

/-- A write keeps the bound and the form. -/
theorem above_write {m : List Host.Cell} {lo a : Nat} (v : Byte) (h : above lo m = true) (ha : lo ≤ a) : above lo (write m a v) = true := by
  induction m generalizing lo with
  | nil =>
    simp only [write]
    split
    · rfl
    · simp [above, *]
  | cons c rest ih =>
    obtain ⟨k, b⟩ := c
    simp only [above, Bool.and_eq_true, decide_eq_true_eq] at h
    obtain ⟨⟨hk, hb⟩, hr⟩ := h
    simp only [write]
    by_cases h1 : a = k
    · subst h1
      rw [if_pos rfl]
      split
      · exact above_mono hr (by omega)
      · simp [above, *]
    · rw [if_neg h1]
      by_cases h2 : a < k
      · rw [if_pos h2]
        split
        · simp [above, hk, hb, hr]
        · rename_i hv
          simp only [above, Bool.and_eq_true, decide_eq_true_eq]
          exact ⟨⟨ha, by simpa using hv⟩, ⟨by omega, hb⟩, hr⟩
      · rw [if_neg h2]
        simp only [above, Bool.and_eq_true, decide_eq_true_eq]
        exact ⟨⟨hk, hb⟩, ih hr (by omega)⟩

/-- A write keeps the canonical form. -/
theorem wf_write {m : List Host.Cell} (a : Nat) (v : Byte) (h : wf m = true) : wf (write m a v) = true :=
  above_write v h (Nat.zero_le a)

/-- A read of the byte just written. -/
theorem read_write_self {m : List Host.Cell} {lo : Nat} (a : Nat) (v : Byte) (h : above lo m = true) : read (write m a v) a = v := by
  induction m generalizing lo with
  | nil => simp only [write]; split <;> simp_all [read]
  | cons c rest ih =>
    obtain ⟨k, b⟩ := c
    simp only [above, Bool.and_eq_true, decide_eq_true_eq] at h
    simp only [write]
    by_cases h1 : a = k
    · subst h1
      rw [if_pos rfl]
      split
      · rename_i hv; rw [hv]; exact read_below h.2 (by omega)
      · simp [read]
    · rw [if_neg h1]
      by_cases h2 : a < k
      · rw [if_pos h2]
        split
        · rename_i hv; rw [hv]; simp only [read]; rw [if_neg (Ne.symm h1), if_pos h2]
        · simp [read]
      · rw [if_neg h2]
        simp only [read]
        rw [if_neg (Ne.symm h1), if_neg h2]
        exact ih h.2

/-- A read of any other byte. -/
theorem read_write_ne {m : List Host.Cell} {lo a x : Nat} (v : Byte) (h : above lo m = true) (hx : x ≠ a) : read (write m a v) x = read m x := by
  induction m generalizing lo with
  | nil =>
    simp only [write]
    split
    · rfl
    · simp only [read]; rw [if_neg (Ne.symm hx)]; split <;> rfl
  | cons c rest ih =>
    obtain ⟨k, b⟩ := c
    simp only [above, Bool.and_eq_true, decide_eq_true_eq] at h
    simp only [write]
    by_cases h1 : a = k
    · subst h1
      rw [if_pos rfl]
      split
      · simp only [read]; rw [if_neg (Ne.symm hx)]
        by_cases h3 : x < a
        · rw [if_pos h3]; exact read_below h.2 (by omega)
        · rw [if_neg h3]
      · simp only [read]; rw [if_neg (Ne.symm hx), if_neg (Ne.symm hx)]
    · rw [if_neg h1]
      by_cases h2 : a < k
      · rw [if_pos h2]
        split
        · rfl
        · simp only [read]
          rw [if_neg (Ne.symm hx)]
          by_cases h3 : x < a
          · rw [if_pos h3, if_neg (by omega), if_pos (by omega)]
          · rw [if_neg h3]
      · rw [if_neg h2]
        simp only [read]
        rw [ih h.2]

theorem wf_read_write_self {m : List Host.Cell} (a : Nat) (v : Byte) (h : wf m = true) : read (write m a v) a = v := read_write_self a v h

theorem wf_read_write_ne {m : List Host.Cell} {a x : Nat} (v : Byte) (h : wf m = true) (hx : x ≠ a) : read (write m a v) x = read m x :=
  read_write_ne v h hx

/-! ## Several bytes -/

theorem wf_writeN {m : List Host.Cell} (a : Nat) (l : List Byte) (h : wf m = true) : wf (writeN m a l) = true := by
  induction l generalizing m a with
  | nil => exact h
  | cons b bs ih => exact ih (a + 1) (wf_write a b h)

theorem read_writeN_outside {m : List Host.Cell} {a x : Nat} (l : List Byte) (h : wf m = true) (hx : x < a ∨ a + l.length ≤ x) :
    read (writeN m a l) x = read m x := by
  induction l generalizing m a with
  | nil => rfl
  | cons b bs ih =>
    simp only [writeN]
    simp only [List.length_cons] at hx
    rw [ih (wf_write a b h) (by omega), wf_read_write_ne b h (by omega)]

theorem read_writeN_inside {m : List Host.Cell} {a : Nat} (l : List Byte) (h : wf m = true) (i : Nat) (hi : i < l.length) :
    read (writeN m a l) (a + i) = l[i] := by
  induction l generalizing m a i with
  | nil => simp at hi
  | cons b bs ih =>
    simp only [writeN]
    cases i with
    | zero =>
      rw [read_writeN_outside bs (wf_write a b h) (by omega)]
      exact wf_read_write_self a b h
    | succ j =>
      have hj : j < bs.length := by simpa using hi
      have := ih (m := write m a b) (a := a + 1) (wf_write a b h) j hj
      rw [show a + (j + 1) = a + 1 + j by omega, this]
      rfl

theorem readN_length (m : List Host.Cell) (a n : Nat) : (readN m a n).length = n := by
  induction n generalizing a with
  | zero => rfl
  | succ n ih => simp [readN, ih]

theorem readN_getElem (m : List Host.Cell) (a n i : Nat) (h : i < (readN m a n).length) : (readN m a n)[i] = read m (a + i) := by
  induction n generalizing a i with
  | zero => simp [readN] at h
  | succ n ih =>
    cases i with
    | zero => simp [readN]
    | succ j =>
      have hj : j < (readN m (a + 1) n).length := by simpa [readN] using h
      simp only [readN, List.getElem_cons_succ]
      rw [ih (a + 1) j hj, show a + 1 + j = a + (j + 1) by omega]

/-- Reading back the bytes just written. -/
theorem readN_writeN {m : List Host.Cell} (a : Nat) (l : List Byte) (h : wf m = true) : readN (writeN m a l) a l.length = l := by
  apply List.ext_getElem
  · exact readN_length _ _ _
  · intro i h1 h2
    rw [readN_getElem, read_writeN_inside l h i h2]

theorem readN_writeN_outside {m : List Host.Cell} {a x n : Nat} (l : List Byte) (h : wf m = true) (hx : x + n ≤ a ∨ a + l.length ≤ x) :
    readN (writeN m a l) x n = readN m x n := by
  apply List.ext_getElem
  · simp [readN_length]
  · intro i h1 h2
    rw [readN_length] at h1
    rw [readN_getElem, readN_getElem, read_writeN_outside l h (by omega)]

/-! ## Filtered stores -/

theorem above_filter {m : List Host.Cell} {lo : Nat} (p : Host.Cell → Bool) (h : above lo m = true) : above lo (m.filter p) = true := by
  induction m generalizing lo with
  | nil => rfl
  | cons c rest ih =>
    obtain ⟨k, b⟩ := c
    simp only [above, Bool.and_eq_true, decide_eq_true_eq] at h
    rw [List.filter_cons]
    split
    · simp only [above, Bool.and_eq_true, decide_eq_true_eq]
      exact ⟨h.1, ih h.2⟩
    · exact ih (above_mono h.2 (by omega))

theorem wf_clear {m : List Host.Cell} (a n : Nat) (h : wf m = true) : wf (clear m a n) = true := above_filter _ h

theorem wf_slice {m : List Host.Cell} (a n : Nat) (h : wf m = true) : wf (slice m a n) = true := above_filter _ h

end Memory

/-! ## Bytes of a number (R3) -/

theorem leBytes_length (v n : Nat) : (leBytes v n).length = n := by simp [leBytes]

theorem leNat_lt (l : List Byte) : leNat l < 256 ^ l.length := by
  induction l with
  | nil => simp [leNat]
  | cons b bs ih =>
    simp only [leNat, List.foldr_cons, List.length_cons] at ih ⊢
    have := b.isLt
    rw [Nat.pow_succ]
    omega

/-- The bytes of a number, read as a number. -/
theorem leNat_leBytes (v n : Nat) : leNat (leBytes v n) = v % 256 ^ n := by
  induction n generalizing v with
  | zero => simp [leBytes, leNat, Nat.mod_one]
  | succ n ih =>
    have h : leBytes v (n + 1) = BitVec.ofNat 8 v :: leBytes (v / 256) n := by
      simp [leBytes, List.range_succ_eq_map, List.map_map, Function.comp_def, Nat.pow_succ, Nat.div_div_eq_div_mul, Nat.mul_comm]
    rw [h]
    simp only [leNat, List.foldr_cons] at ih ⊢
    rw [ih, Nat.pow_succ, Nat.mul_comm (256 ^ n) 256, Nat.mod_mul]
    simp
    omega

namespace LineOps

/-- A line written to a store keeps its form. -/
theorem wf_toCells {m : List Host.Cell} (line : Nat) (l : Line) (h : Memory.wf m = true) : Memory.wf (toCells m line l) = true :=
  Memory.wf_writeN _ _ h

/-- The line just written is read. -/
theorem ofCells_toCells {m : List Host.Cell} (line : Nat) (l : Line) (h : Memory.wf m = true) : ofCells (toCells m line l) line = l := by
  have := Memory.readN_writeN (128 * line) (leBytes l.toNat 128) h
  rw [leBytes_length] at this
  simp only [ofCells, toCells, this, leNat_leBytes]
  apply BitVec.eq_of_toNat_eq
  rw [BitVec.toNat_ofNat]
  have := l.isLt
  omega

/-- Every other line is as before. -/
theorem ofCells_toCells_ne {m : List Host.Cell} {line x : Nat} (l : Line) (h : Memory.wf m = true) (hx : x ≠ line) :
    ofCells (toCells m line l) x = ofCells m x := by
  have hx' : 128 * x + 128 ≤ 128 * line ∨ 128 * line + 128 ≤ 128 * x := by omega
  simp only [ofCells, toCells]
  rw [Memory.readN_writeN_outside _ h (by rw [leBytes_length]; exact hx')]

end LineOps

end Sys2Proof.Machine
end

