-- ==== Sys2Proof/Laws/Store.lean ====
section
/-! SUPPORT. Which bytes a store changes: the bytes of a line under a merge, a write at the home of a line of device memory (R95), and a store
through an L1 (R148, R150). -/

namespace Sys2Proof.Machine

namespace LineOps

theorem get_bits (l : Line) (b : Nat) : get l b 1 = (l.extractLsb' (8 * b) 8).toNat := by
  simp [get, BitVec.extractLsb'_toNat, Nat.shiftRight_eq_div_pow]

theorem get_ext {l m : Line} {a b : Nat} (h : ∀ i, i < 8 → l.getLsbD (8 * a + i) = m.getLsbD (8 * b + i)) : get l a 1 = get m b 1 := by
  rw [get_bits, get_bits]
  congr 1
  apply BitVec.eq_of_getLsbD_eq
  intro i hi
  simp [hi, h i hi]

theorem window_bit (off n i : Nat) : Nat.testBit ((2 ^ n - 1) * 2 ^ off) i = (decide (off ≤ i) && decide (i < off + n)) := by
  rw [Nat.testBit_mul_two_pow, Nat.testBit_two_pow_sub_one]
  by_cases h : off ≤ i <;> simp [h]
  omega

theorem getLsbD_set (l : Line) (off n v i : Nat) (hi : i < 1024) :
    (set l off n v).getLsbD i = if 8 * off ≤ i ∧ i < 8 * (off + n) then Nat.testBit v (i - 8 * off) else l.getLsbD i := by
  simp only [set, BitVec.getLsbD_or, BitVec.getLsbD_and, BitVec.getLsbD_not, BitVec.getLsbD_ofNat, hi, decide_true, Bool.true_and,
    Nat.testBit_mul_two_pow, Nat.testBit_mod_two_pow]
  by_cases h1 : 8 * off ≤ i <;> by_cases h2 : i < 8 * off + 8 * n
  · simp [h1, show i < 8 * (off + n) by omega, show i - 8 * off < 8 * n by omega]
  · simp [h1, show ¬ i < 8 * (off + n) by omega, show ¬ i - 8 * off < 8 * n by omega]
  · simp [h1]
  · simp [h1]

theorem get_set_out (l : Line) {off n v b : Nat} (hb : b < 128) (h : b < off ∨ off + n ≤ b) : get (set l off n v) b 1 = get l b 1 := by
  apply get_ext
  intro i hi
  rw [getLsbD_set _ _ _ _ _ (by omega), if_neg (by omega)]

theorem get_set_in (l : Line) {off n v i : Nat} (hn : off + n ≤ 128) (h : i < n) : get (set l off n v) (off + i) 1 = v / 256 ^ i % 256 := by
  rw [get_bits]
  apply Nat.eq_of_testBit_eq
  intro j
  rw [BitVec.testBit_toNat, show (256 : Nat) = 2 ^ 8 by rfl, Nat.testBit_mod_two_pow, ← pow_mul, Nat.testBit_div_two_pow]
  by_cases hj : j < 8
  · rw [BitVec.getLsbD_extractLsb', getLsbD_set _ _ _ _ _ (by omega), if_pos (by omega)]
    simp only [hj, decide_true, Bool.true_and]
    congr 1
    omega
  · simp [hj, BitVec.getLsbD_extractLsb']

theorem digits_bit (f : Nat → Bool) (k n i : Nat) :
    Nat.testBit ((List.range' k n).foldr (fun i acc => acc * 256 + (if f i then 255 else 0)) 0) i = (decide (i < 8 * n) && f (k + i / 8)) := by
  induction n generalizing k i with
  | zero => simp
  | succ n ih =>
    rw [List.range'_succ, List.foldr_cons, show ∀ x : Nat, x * 256 + (if f k then 255 else 0) = 2 ^ 8 * x + (if f k then 255 else 0) by intro x; omega,
      Nat.testBit_two_pow_mul_add _ (by split <;> omega)]
    split
    · rename_i h
      have e : Nat.testBit 255 i = true := by simpa [h] using Nat.testBit_two_pow_sub_one 8 i
      rw [show i / 8 = 0 by omega]
      split <;> simp_all [show i < 8 * (n + 1) by omega]
    · rename_i h
      rw [ih, show k + 1 + (i - 8) / 8 = k + i / 8 by omega]
      congr 1
      simp; omega

theorem getLsbD_spread (m : LineMask) (i : Nat) (hi : i < 1024) : (spread m).getLsbD i = m.getLsbD (i / 8) := by
  have := digits_bit (fun i => m.getLsbD i) 0 128 i
  rw [← List.range_eq_range'] at this
  simp only [spread, BitVec.getLsbD_ofNat, hi, decide_true, Bool.true_and]
  rw [this]
  simp [show i < 1024 from hi]

theorem get_merge (m : LineMask) (old new : Line) {b : Nat} (hb : b < 128) :
    get (merge m old new) b 1 = if m.getLsbD b then get new b 1 else get old b 1 := by
  split
  · rename_i h
    apply get_ext
    intro i hi
    simp [merge, getLsbD_spread _ _ (show 8 * b + i < 1024 by omega), show (8 * b + i) / 8 = b by omega, h]
  · rename_i h
    apply get_ext
    intro i hi
    simp only [merge, BitVec.getLsbD_or, BitVec.getLsbD_and, BitVec.getLsbD_not, getLsbD_spread _ _ (show 8 * b + i < 1024 by omega), show (8 * b + i) / 8 = b by omega, h]
    simp; intro; omega

theorem getLsbD_mask (off n b : Nat) (hb : b < 128) : (mask off n).getLsbD b = (decide (off ≤ b) && decide (b < off + n)) := by
  simp only [mask, BitVec.getLsbD_ofNat, hb, decide_true, Bool.true_and, window_bit]

theorem get_wide (l : Line) (b n : Nat) : get l b n = (l.extractLsb' (8 * b) (8 * n)).toNat := by
  simp [get, BitVec.extractLsb'_toNat, Nat.shiftRight_eq_div_pow]

theorem get_merge_set (old : Line) (off v : Nat) (h : off + 8 ≤ 128) :
    get (merge (mask off 8) old (set 0#1024 off 8 v)) off 8 = v % 2 ^ 64 := by
  apply Nat.eq_of_testBit_eq
  intro j
  rw [get_wide, BitVec.testBit_toNat, BitVec.getLsbD_extractLsb', Nat.testBit_mod_two_pow]
  by_cases hj : j < 64
  · have h1 : 8 * off + j < 1024 := by omega
    simp only [merge, BitVec.getLsbD_or, BitVec.getLsbD_and, BitVec.getLsbD_not, getLsbD_spread _ _ h1, getLsbD_mask _ _ _ (show (8 * off + j) / 8 < 128 by omega),
      getLsbD_set _ _ _ _ _ h1]
    rw [if_pos (by omega), show 8 * off + j - 8 * off = j by omega]
    simp [hj, show off ≤ (8 * off + j) / 8 by omega, show (8 * off + j) / 8 < off + 8 by omega]
  · simp [hj]

end LineOps


/-- The stores of data are as they were: device memory, its keys, the last-level caches and the cores. -/
structure Stored (s u : State) : Prop where
  mem : u.mem = s.mem
  enc : u.enc = s.enc
  vale : u.vale = s.vale
  ident : u.ident = s.ident
  cores : u.cores = s.cores

namespace Stored

variable {s u v : State}

theorem refl (s : State) : Stored s s := ⟨rfl, rfl, rfl, rfl, rfl⟩

theorem trans (h : Stored s u) (h' : Stored u v) : Stored s v :=
  ⟨h'.mem.trans h.mem, h'.enc.trans h.enc, h'.vale.trans h.vale, h'.ident.trans h.ident, h'.cores.trans h.cores⟩

theorem foldl {α : Type} (l : List α) (f : State → α → State) (s : State) (h : ∀ s a, Stored s (f s a)) : Stored s (l.foldl f s) := by
  induction l generalizing s with
  | nil => exact refl _
  | cons a as ih => exact (h s a).trans (ih (f s a))

theorem devLine (h : Stored s u) (line : Nat) : u.devLine line = s.devLine line := by
  simp [State.devLine, State.valeFind, State.stackRead, State.encOf, State.keysFor, h.mem, h.enc, h.vale, h.ident]

theorem find (h : Stored s u) (line : Nat) : u.valeFind line = s.valeFind line := by simp [State.valeFind, h.vale]

theorem core (h : Stored s u) (c : Nat) : u.core c = s.core c := by simp [State.core, h.cores]

end Stored

theorem countDown_stored (s : State) (i : Nat) (f : Option Nat) : Stored s (countDown s i f) := by
  unfold countDown; split <;> exact ⟨rfl, rfl, rfl, rfl, rfl⟩

theorem sweepThread_stored (s : State) (i : Nat) : Stored s (sweepThread s i) := by
  unfold sweepThread
  split
  · exact .refl _
  · split
    · unfold sweepRow; split <;> exact ⟨rfl, rfl, rfl, rfl, rfl⟩
    · exact .refl _

theorem logRefused_stored (s : State) (a b c : Nat) (m : Bool) (v : W64) (d e : Nat) (w : W64) : Stored s (s.logRefused a b c m v d e w) := by
  unfold State.logRefused State.log
  repeat' split
  all_goals exact ⟨rfl, rfl, rfl, rfl, rfl⟩

theorem timedWrite_stored (s : State) (i l : Nat) : Stored s (s.timedWrite i l) := ⟨rfl, rfl, rfl, rfl, rfl⟩

theorem releaseAt_stored (s : State) (l t : Nat) : Stored s (s.releaseAt l t) := by
  unfold State.releaseAt; simp only; split <;> exact ⟨rfl, rfl, rfl, rfl, rfl⟩

theorem stampWrite_stored (s : State) (l : Nat) : Stored s (s.stampWrite l) := ⟨rfl, rfl, rfl, rfl, rfl⟩

theorem wordDone_stored (s : State) (o : Op) (w : WordReq) (v : Nat) : Stored s (s.wordDone o w v) := by
  unfold State.wordDone; simp only; split <;> exact ⟨rfl, rfl, rfl, rfl, rfl⟩

theorem accessRefused_stored (s : State) (o : Op) (i c b : Nat) (va a : W64) : Stored s (s.accessRefused o i c b va a) :=
  (logRefused_stored s 0 o.ctx o.core true va c b _).trans ⟨rfl, rfl, rfl, rfl, rfl⟩

theorem wordRefused_stored (s : State) (o : Op) (v : Nat) : Stored s (s.wordRefused o v) :=
  (accessRefused_stored s o o.tid 7 6 o.va o.va).trans ⟨rfl, rfl, rfl, rfl, rfl⟩

/-- Free words change the counter of the free values, and nothing else. -/
theorem peerRead_free (s : State) (n : Nat) : (s.peerRead n).1 = { s with freeCtr := s.freeCtr + (n + 7) / 8 } := by
  have e : ∀ (k : Nat) (u : State), (u.freeWords k).1 = { u with freeCtr := u.freeCtr + k } := by
    intro k
    induction k with
    | zero => intro u; rfl
    | succ k ih => intro u; simp only [State.freeWords, State.free, ih]; congr 1; omega
  exact e _ s

theorem waitShut_stored (s : State) (o : Op) (w : WordReq) : Stored s (s.waitShut o w) :=
  Stored.trans (u := (s.peerRead w.size).1) (by rw [peerRead_free]; exact ⟨rfl, rfl, rfl, rfl, rfl⟩) ((accessRefused_stored _ o o.tid 7 2 o.va o.va).trans ⟨rfl, rfl, rfl, rfl, rfl⟩)

theorem unverify_stored (s : State) (l : Nat) (m : LineMask) : Stored s (s.unverify l m) := ⟨rfl, rfl, rfl, rfl, rfl⟩

theorem peerAnswer_stored (s : State) (w : PeerWait) (v : Nat) : Stored s (s.peerAnswer w v) := ⟨rfl, rfl, rfl, rfl, rfl⟩

theorem peerRefused_stored (s : State) (c pa a b : Nat) : Stored s (s.peerRefused c pa a b) :=
  (logRefused_stored s 6 c 0 false (BitVec.ofNat 64 pa) a b 0#64).trans ⟨rfl, rfl, rfl, rfl, rfl⟩

theorem peerShut_stored (s : State) (w : PeerWait) : Stored s (s.peerShut w) := (peerAnswer_stored ..).trans (peerRefused_stored ..)

theorem peerTest_stored (s : State) (w : PeerWait) (d : Line) (e : Bool) : Stored s (s.peerTest w d e) := by
  unfold State.peerTest
  simp only
  repeat' (first | split | exact .refl _ | exact peerAnswer_stored .. | exact (peerAnswer_stored ..).trans (peerRefused_stored ..))

theorem wordTest_stored (s : State) (o : Op) (w : WordReq) (d : Line) (e : Bool) : Stored s (s.wordTest o w d e) := by
  unfold State.wordTest
  simp only
  repeat' (first | split | exact .refl _ | exact wordDone_stored .. | exact wordRefused_stored ..)

theorem retest_stored (s : State) (line : Nat) (d : Line) : Stored s (s.retest line d) := by
  refine Stored.trans (.foldl _ _ _ (fun s o => ?_)) (.foldl _ _ _ (fun s w => ?_))
  · repeat' (first | split | exact .refl _ | exact wordTest_stored .. | exact waitShut_stored ..)
  · repeat' (first | split | exact .refl _ | exact peerTest_stored .. | exact peerShut_stored ..)

/-! ## The home -/

theorem find_setVale (s : State) (v : ValeLine) (line : Nat) : (s.setVale v).valeFind line = if line = v.line then some v else s.valeFind line := by
  have drop : ∀ l : List ValeLine, (l.filter (fun u => u.line != v.line) ++ [v]).find? (fun u => u.line == line) =
      if line = v.line then some v else l.find? (fun u => u.line == line) := by
    intro l
    induction l with
    | nil =>
      by_cases h : line = v.line
      · simp [h]
      · simp [h, Ne.symm h]
    | cons a l ih =>
      by_cases ha : a.line = v.line
      · simp only [List.filter_cons, ha, bne_self_eq_false, Bool.false_eq_true, if_false, ih, List.find?_cons]
        by_cases h : line = v.line
        · simp [h]
        · have e : (v.line == line) = false := by simpa using Ne.symm h
          simp [h, e]
      · simp only [List.filter_cons, bne_iff_ne, ne_eq, ha, not_false_iff, if_true, List.cons_append, List.find?_cons, ih]
        by_cases h : line = v.line
        · have e : (a.line == line) = false := by simpa [h] using ha
          simp [h ▸ e, h]
        · simp [h]
  exact drop s.vale

theorem devLine_setVale (s : State) (v : ValeLine) (line : Nat) : (s.setVale v).devLine line = if line = v.line then v.data else s.devLine line := by
  have hs : (s.setVale v).stackRead line = s.stackRead line := by simp [State.stackRead, State.encOf, State.keysFor, State.setVale]
  unfold State.devLine
  rw [find_setVale, hs]
  by_cases h : line = v.line <;> simp [h]

theorem devLine_fillDev (s : State) (l c line : Nat) : (s.fillDev l c).devLine line = s.devLine line := by
  unfold State.fillDev
  split
  · rfl
  · rename_i h
    rw [devLine_setVale]
    split
    · rename_i e; simp only at e; subst e; simp [State.devLine, h]
    · rfl

theorem encOf_stackWrite (s : State) (l : Nat) (d : Line) (line : Nat) (h : line ≠ l) : (s.stackWrite l d).encOf line = s.encOf line := by
  have drop : ∀ (m : List (Nat × Keys)) (t : List (Nat × Keys)), (∀ p ∈ t, p.1 = l) →
      (m.filter (fun p => p.1 != l) ++ t).find? (fun p => p.1 == line) = m.find? (fun p => p.1 == line) := by
    intro m t ht
    induction m with
    | nil =>
      simp only [List.filter_nil, List.nil_append, List.find?_nil, List.find?_eq_none]
      intro p hp; simp [ht p hp, Ne.symm h]
    | cons a m ih =>
      by_cases ha : a.1 = l
      · simp [ha, ih, Ne.symm h]
      · simp [List.find?_cons, ha, ih]
  unfold State.encOf State.stackWrite
  simp only
  congr 1
  split
  · simpa using drop s.enc [] (by simp)
  · rename_i k _; exact drop s.enc [(l, k)] (by simp)

theorem stackRead_stackWrite (s : State) (l : Nat) (d : Line) (line : Nat) (hw : Memory.wf s.mem = true) (h : line ≠ l) :
    (s.stackWrite l d).stackRead line = s.stackRead line := by
  have hm : (s.stackWrite l d).mem = LineOps.toCells s.mem l d := by simp only [State.stackWrite]
  have hk : (s.stackWrite l d).keysFor line = s.keysFor line := by simp [State.keysFor, State.stackWrite]
  simp only [State.stackRead, encOf_stackWrite s l d line h, hk, hm, LineOps.ofCells_toCells_ne d hw h]

theorem devLine_cleanDev (s : State) (l line : Nat) (hw : Memory.wf s.mem = true) : (s.cleanDev l).devLine line = s.devLine line := by
  unfold State.cleanDev
  split
  · rename_i v hv
    have hl : v.line = l := by simpa using List.find?_some hv
    split
    · rw [devLine_setVale]
      split
      · rename_i e; simp only at e; subst e; simp [State.devLine, ← hl] at hv ⊢; simp [hv]
      · rename_i e
        simp only at e
        have hf : (s.stackWrite l v.data).valeFind line = s.valeFind line := by simp [State.valeFind, State.stackWrite]
        simp only [State.devLine, hf, stackRead_stackWrite s l v.data line hw (by rw [← hl]; exact e)]
    · rfl
  · rfl

theorem find_fillDev (s : State) (l c : Nat) : ∃ v, (s.fillDev l c).valeFind l = some v ∧ v.line = l ∧ v.data = s.devLine l := by
  unfold State.fillDev
  split
  · rename_i v hv
    exact ⟨v, hv, by simpa using List.find?_some hv, by simp [State.devLine, hv]⟩
  · rename_i hv
    exact ⟨{ line := l, data := s.stackRead l, owner := c, dirty := false }, by rw [find_setVale]; simp, rfl, by simp [State.devLine, hv]⟩

/-- A physical address is device memory in every state or in none (R81). -/
theorem paKind_device {s : State} {a : Nat} (h : s.paKind a = .device) (u : State) : u.paKind a = .device := by
  have e : a < 0x00C000000000 := by
    unfold State.paKind at h
    by_cases h1 : a < 0x00C000000000
    · exact h1
    · rw [if_neg h1] at h
      repeat' split at h
      all_goals simp at h
  unfold State.paKind
  rw [if_pos e]

theorem mem_fillDev (s : State) (l c : Nat) : (s.fillDev l c).mem = s.mem := by unfold State.fillDev; split <;> rfl
theorem cores_fillDev (s : State) (l c : Nat) : (s.fillDev l c).cores = s.cores := by unfold State.fillDev; split <;> rfl
theorem cores_cleanDev (s : State) (l : Nat) : (s.cleanDev l).cores = s.cores := by
  unfold State.cleanDev
  split
  · split
    · simp only [State.setVale, State.stackWrite]
    · rfl
  · rfl

theorem wf_cleanDev (s : State) (l : Nat) (hw : Memory.wf s.mem = true) : Memory.wf (s.cleanDev l).mem = true := by
  unfold State.cleanDev
  split
  · split
    · simp only [State.setVale, State.stackWrite]
      exact LineOps.wf_toCells _ _ hw
    · exact hw
  · exact hw

/-- What a write does first to a line that is dirty under another owner (R95). -/
def cleanFor (s : State) (l c : Nat) : State :=
  match s.valeFind l with
  | some v => if v.dirty && v.owner != c then s.cleanLine l else s
  | none => s

/-- What a write leaves in the Vale, once the line is there and clean for its new owner (R95). -/
def writeHere (s : State) (l c : Nat) (m : LineMask) (d : Line) : State :=
  let n := LineOps.merge m (s.homeLine l) d
  ((s.unverify l m).setVale { line := l, data := n, owner := c, dirty := true }).retest l n

theorem memWrite_eq (s : State) (l c : Nat) (m : LineMask) (d : Line) :
    s.memWrite l c m d = writeHere ((cleanFor (s.fillHome l c) l c).fillHome l c) l c m d := rfl

/-- A line of device memory that is made clean reads as before. -/
theorem cleanFor_spec (s : State) (l c : Nat) (h : s.paKind (128 * l) = .device) (hw : Memory.wf s.mem = true) :
    (∀ x, (cleanFor s l c).devLine x = s.devLine x) ∧ Memory.wf (cleanFor s l c).mem = true ∧ (cleanFor s l c).cores = s.cores := by
  unfold cleanFor
  split
  · rename_i v hv
    split
    · rename_i hd
      have hd : v.dirty = true := by simp at hd; exact hd.1
      have e : s.cleanLine l = s.cleanDev l := by
        unfold State.cleanLine
        simp only [hv, hd, Bool.not_true, Bool.false_eq_true, if_false, h]
      rw [e]
      exact ⟨fun x => devLine_cleanDev s l x hw, wf_cleanDev s l hw, cores_cleanDev s l⟩
    · exact ⟨fun _ => rfl, hw, rfl⟩
  · exact ⟨fun _ => rfl, hw, rfl⟩

/-- A write at the home of a line of device memory whose page is not retired (R99). -/
theorem homeWrite_device (s : State) (l c : Nat) (m : LineMask) (d : Line) (h : s.paKind (128 * l) = .device) (hd : s.dbgOwner l = none)
    (hp : s.pageRetired (128 * l) = false) : s.homeWrite l c m d = s.memWrite l c m d := by
  unfold State.homeWrite
  simp only [hd]
  have e : s.settleView (128 * l) = s := by unfold State.settleView; simp only [h]
  rw [e]
  simp [State.homeFault, h, hp]

/-- What a write at the home of a line of device memory does: the masked bytes of that line, and nothing else that is stored. -/
theorem homeWrite_spec (s : State) (l c : Nat) (m : LineMask) (d : Line) (h : s.paKind (128 * l) = .device) (hd : s.dbgOwner l = none)
    (hp : s.pageRetired (128 * l) = false) (hw : Memory.wf s.mem = true) :
    (∀ x, (s.homeWrite l c m d).devLine x = if x = l then LineOps.merge m (s.devLine l) d else s.devLine x)
    ∧ Memory.wf (s.homeWrite l c m d).mem = true ∧ (s.homeWrite l c m d).cores = s.cores := by
  have hf : ∀ u : State, u.fillHome l c = u.fillDev l c := by
    intro u
    unfold State.fillHome
    simp only [paKind_device h u]
  rw [homeWrite_device s l c m d h hd hp, memWrite_eq, hf, hf]
  obtain ⟨hu, hm, hc⟩ := cleanFor_spec (s.fillDev l c) l c (paKind_device h _) (by rw [mem_fillDev]; exact hw)
  generalize cleanFor (s.fillDev l c) l c = u at hu hm hc ⊢
  obtain ⟨v, hv, _, hdat⟩ := find_fillDev u l c
  have hl : (u.fillDev l c).homeLine l = s.devLine l := by
    simp only [State.homeLine, hv, hdat, hu, devLine_fillDev]
  unfold writeHere
  simp only [hl]
  have hr := retest_stored (((u.fillDev l c).unverify l m).setVale { line := l, data := LineOps.merge m (s.devLine l) d, owner := c, dirty := true }) l
    (LineOps.merge m (s.devLine l) d)
  refine ⟨fun x => ?_, ?_, ?_⟩
  · rw [hr.devLine, devLine_setVale, (unverify_stored _ l m).devLine, devLine_fillDev, hu, devLine_fillDev]
  · rw [hr.mem]
    show Memory.wf (u.fillDev l c).mem = true
    rw [mem_fillDev]; exact hm
  · rw [hr.cores]
    show (u.fillDev l c).cores = s.cores
    rw [cores_fillDev, hc, cores_fillDev]

/-- What a write of a number at the home does: its bytes, and no other. -/
theorem homeWriteN_spec (s : State) (pa n c v : Nat) (h : s.paKind (128 * (pa / 128)) = .device) (hd : s.dbgOwner (pa / 128) = none)
    (hp : s.pageRetired (128 * (pa / 128)) = false) (hw : Memory.wf s.mem = true) (hn : pa % 128 + n ≤ 128) :
    (∀ a, a < pa ∨ pa + n ≤ a → LineOps.get ((s.homeWriteN pa n c v).devLine (a / 128)) (a % 128) 1 = LineOps.get (s.devLine (a / 128)) (a % 128) 1)
    ∧ (∀ i < n, LineOps.get ((s.homeWriteN pa n c v).devLine ((pa + i) / 128)) ((pa + i) % 128) 1 = v / 256 ^ i % 256)
    ∧ Memory.wf (s.homeWriteN pa n c v).mem = true ∧ (s.homeWriteN pa n c v).cores = s.cores := by
  obtain ⟨hl, hm, hc⟩ := homeWrite_spec s (pa / 128) c (LineOps.mask (pa % 128) n) (LineOps.set 0#1024 (pa % 128) n v) h hd hp hw
  refine ⟨fun a ha => ?_, fun i hi => ?_, hm, hc⟩
  · unfold State.homeWriteN
    rw [hl]
    split
    · rename_i e
      have hb : a % 128 < 128 := Nat.mod_lt _ (by decide)
      rw [LineOps.get_merge _ _ _ hb, LineOps.getLsbD_mask _ _ _ hb, if_neg]
      · rw [e]
      · simp; omega
    · rfl
  · unfold State.homeWriteN
    rw [hl, if_pos (by omega), show (pa + i) % 128 = pa % 128 + i by omega, LineOps.get_merge _ _ _ (by omega), LineOps.getLsbD_mask _ _ _ (by omega),
      if_pos (by simp; omega), LineOps.get_set_in _ hn hi]

/-! ## The first-level cache -/

theorem l1Find_l1Set (s : State) (c : Nat) (l : L1Line) (x : Nat) (hc : c < s.cores.length) :
    l1Find (l1Set s c l) c x = if x = l.line then some l else l1Find s c x := by
  have put : ∀ k : List L1Line, (k.filter (fun u => u.line != l.line) ++ [l]).find? (fun u => u.line == x) =
      if x = l.line then some l else k.find? (fun u => u.line == x) := by
    intro k
    induction k with
    | nil =>
      by_cases h : x = l.line
      · simp [h]
      · simp [h, Ne.symm h]
    | cons a k ih =>
      by_cases ha : a.line = l.line
      · simp only [List.filter_cons, ha, bne_self_eq_false, Bool.false_eq_true, if_false, ih, List.find?_cons]
        by_cases h : x = l.line
        · simp [h]
        · have e : (l.line == x) = false := by simpa using Ne.symm h
          simp [h, e]
      · simp only [List.filter_cons, bne_iff_ne, ne_eq, ha, not_false_iff, if_true, List.cons_append, List.find?_cons, ih]
        by_cases h : x = l.line
        · have e : (a.line == x) = false := by simpa [h] using ha
          simp [h ▸ e, h]
        · simp [h]
  unfold l1Find l1Set
  rw [State.core_updCore s c _ hc]
  exact put _

theorem core_l1Set_ne (s : State) (c d : Nat) (l : L1Line) (h : c ≠ d) : (l1Set s c l).core d = s.core d := State.core_updCore_ne s c d _ h

theorem glen_updCore (s : State) (c d : Nat) (f : Core → Core) (h : ∀ k, (f k).glen = k.glen) : ((s.updCore c f).core d).glen = (s.core d).glen := by
  by_cases e : c = d
  · subst e
    by_cases hc : c < s.cores.length
    · rw [State.core_updCore s c f hc, h]
    · simp [State.updCore, State.setCore, State.core, hc]
  · rw [State.core_updCore_ne s c d f e]

theorem glen_l1Set (s : State) (c d : Nat) (l : L1Line) : ((l1Set s c l).core d).glen = (s.core d).glen := glen_updCore s c d _ (fun _ => rfl)

theorem devLine_l1Set (s : State) (c : Nat) (l : L1Line) (x : Nat) : (l1Set s c l).devLine x = s.devLine x := by
  simp [l1Set, State.updCore, State.setCore, State.devLine, State.valeFind, State.stackRead, State.encOf, State.keysFor]

theorem length_l1Set (s : State) (c : Nat) (l : L1Line) : (l1Set s c l).cores.length = s.cores.length := by
  simp [l1Set, State.updCore, State.setCore]

/-- A fill leaves every byte as the core sees it. -/
theorem l1Fill_spec (s : State) (c l x : Nat) (n : Option Nat) (h : s.paKind (128 * l) = .device) (hd : s.dbgOwner l = none) (hc : c < s.cores.length) :
    (∃ k, l1Find (l1Fill s c l x n) c l = some k ∧ k.line = l ∧ k.data = ((l1Find s c l).map L1Line.data).getD (s.devLine l))
    ∧ (∀ y, y ≠ l → l1Find (l1Fill s c l x n) c y = l1Find s c y) ∧ (∀ y, (l1Fill s c l x n).devLine y = s.devLine y)
    ∧ (∀ d, d ≠ c → (l1Fill s c l x n).core d = s.core d) ∧ (∀ d, ((l1Fill s c l x n).core d).glen = (s.core d).glen)
    ∧ (l1Fill s c l x n).cores.length = s.cores.length := by
  unfold l1Fill
  split
  · rename_i k hk
    exact ⟨⟨k, hk, by simpa using List.find?_some hk, by simp [hk]⟩, fun _ _ => rfl, fun _ => rfl, fun _ _ => rfl, fun _ => rfl, rfl⟩
  · rename_i hk
    have hr : s.homeRead l x = (s.fillDev l x, (s.fillDev l x).homeLine l) := by
      unfold State.homeRead
      simp only [hd]
      have : s.fillHome l x = s.fillDev l x := by unfold State.fillHome; simp only [h]
      rw [this]
    obtain ⟨v, hv, _, hdat⟩ := find_fillDev s l x
    have hl : (s.fillDev l x).homeLine l = s.devLine l := by simp only [State.homeLine, hv, hdat]
    have hcl : c < (s.fillDev l x).cores.length := by rw [cores_fillDev]; exact hc
    have hk' : ∀ y, l1Find (s.fillDev l x) c y = l1Find s c y := by intro y; simp [l1Find, State.core, cores_fillDev]
    simp only [hr, hl]
    refine ⟨⟨{ line := l, ctx := x, data := s.devLine l, dirty := 0#128, count := n, lease := none }, ?_, rfl, ?_⟩, fun y hy => ?_, fun y => ?_, fun d hdc => ?_, fun d => ?_, ?_⟩
    · rw [l1Find_l1Set _ _ _ _ hcl]; simp
    · simp [hk]
    · rw [l1Find_l1Set _ _ _ _ hcl, if_neg (by exact hy), hk']
    · rw [devLine_l1Set, devLine_fillDev]
    · rw [core_l1Set_ne _ _ _ _ (Ne.symm hdc)]; simp [State.core, cores_fillDev]
    · rw [glen_l1Set]; simp [State.core, cores_fillDev]
    · rw [length_l1Set, cores_fillDev]

/-! ## The operations that are outstanding -/

/-- The outstanding operations are the same, but for the results that some of them now have. -/
def SameOps (s u : State) : Prop := u.ops.map (fun o => (o.id, o.tid, o.kind)) = s.ops.map (fun o => (o.id, o.tid, o.kind))

namespace SameOps

variable {s u v : State}

theorem trans (h : SameOps s u) (h' : SameOps u v) : SameOps s v := Eq.trans h' h

theorem of (h : u.ops = s.ops) : SameOps s u := by simp [SameOps, h]

theorem foldl {α : Type} (l : List α) (f : State → α → State) (s : State) (h : ∀ s a, SameOps s (f s a)) : SameOps s (l.foldl f s) := by
  induction l generalizing s with
  | nil => exact .of rfl
  | cons a as ih => exact (h s a).trans (ih (f s a))

theorem result (s : State) (i : Nat) (v : Option Nat) : SameOps s (s.updOp i (fun p => { p with result := v })) := by
  simp only [SameOps, State.updOp, List.map_map]
  refine List.map_congr_left (fun o _ => ?_)
  simp only [Function.comp]
  split <;> rfl

theorem any (h : SameOps s u) (p : Nat → Nat → OpKind → Bool) : u.ops.any (fun o => p o.id o.tid o.kind) = s.ops.any (fun o => p o.id o.tid o.kind) := by
  have e : ∀ l : List Op, l.any (fun o => p o.id o.tid o.kind) = (l.map (fun o => (o.id, o.tid, o.kind))).any (fun x => p x.1 x.2.1 x.2.2) := by
    intro l; simp [List.any_map]; rfl
  rw [e, e, h]

end SameOps

theorem wordDone_ops (s : State) (o : Op) (w : WordReq) (v : Nat) : SameOps s (s.wordDone o w v) := by
  unfold State.wordDone
  refine SameOps.trans (u := if w.cpl then s.timedWrite o.tid (w.pa / 128) else s) (.of ?_) (.result _ _ _)
  split <;> rfl

theorem logRefused_ops (s : State) (a b c : Nat) (m : Bool) (v : W64) (d e : Nat) (w : W64) : (s.logRefused a b c m v d e w).ops = s.ops := by
  unfold State.logRefused State.log
  repeat' split
  all_goals rfl

theorem peerTest_ops (s : State) (w : PeerWait) (d : Line) (e : Bool) : SameOps s (s.peerTest w d e) := by
  unfold State.peerTest
  simp only
  repeat' (first | split | exact .of rfl | exact .of (logRefused_ops ..))

theorem wordRefused_ops (s : State) (o : Op) (v : Nat) : SameOps s (s.wordRefused o v) := by
  unfold State.wordRefused
  refine SameOps.trans (.of ?_) (.result _ _ _)
  exact logRefused_ops s 0 o.ctx o.core true o.va 7 6 _

theorem waitShut_ops (s : State) (o : Op) (w : WordReq) : SameOps s (s.waitShut o w) := by
  unfold State.waitShut
  refine SameOps.trans (.of ?_) (.result _ _ _)
  exact (logRefused_ops (s.peerRead w.size).1 0 o.ctx o.core true o.va 7 2 _).trans (by rw [peerRead_free])

theorem peerShut_ops (s : State) (w : PeerWait) : SameOps s (s.peerShut w) := .of (logRefused_ops ..)

theorem wordTest_ops (s : State) (o : Op) (w : WordReq) (d : Line) (e : Bool) : SameOps s (s.wordTest o w d e) := by
  unfold State.wordTest
  simp only
  repeat' (first | split | exact .of rfl | exact wordDone_ops .. | exact wordRefused_ops ..)

theorem retest_ops (s : State) (line : Nat) (d : Line) : SameOps s (s.retest line d) := by
  refine SameOps.trans (.foldl _ _ _ (fun s o => ?_)) (.foldl _ _ _ (fun s w => ?_))
  · repeat' (first | split | exact .of rfl | exact wordTest_ops .. | exact waitShut_ops ..)
  · repeat' (first | split | exact .of rfl | exact peerTest_ops .. | exact peerShut_ops ..)

theorem homeWrite_ops (s : State) (l c : Nat) (m : LineMask) (d : Line) (h : s.paKind (128 * l) = .device) (hd : s.dbgOwner l = none) :
    SameOps s (s.homeWrite l c m d) := by
  have hf : ∀ u : State, (u.fillHome l c).ops = u.ops := by
    intro u
    unfold State.fillHome
    simp only [paKind_device h u]
    unfold State.fillDev; split <;> rfl
  have hc : ∀ u : State, (cleanFor u l c).ops = u.ops := by
    intro u
    unfold cleanFor State.cleanLine
    simp only [paKind_device h u]
    unfold State.cleanDev
    repeat' split
    all_goals simp only [State.setVale, State.stackWrite]
  cases hp : s.pageRetired (128 * l) with
  | true =>
    have e : s.settleView (128 * l) = s := by unfold State.settleView; simp only [h]
    have e' : s.homeFault (128 * l) = some (0x0C, 3) := by simp [State.homeFault, h, hp]
    unfold State.homeWrite
    simp only [hd, e, e']
    exact .of (logRefused_ops ..)
  | false =>
  rw [homeWrite_device s l c m d h hd hp, memWrite_eq]
  refine SameOps.trans (.of ?_) (retest_ops _ _ _)
  show ((cleanFor (s.fillHome l c) l c).fillHome l c).ops = s.ops
  rw [hf, hc, hf]

/-! ## Stores -/

/-- What a write-back from a core's cache does: it changes at most the bytes of its line. -/
theorem cacheWrite_spec (s : State) (c l x : Nat) (m : LineMask) (d : Line) (h : s.paKind (128 * l) = .device) (hd : s.dbgOwner l = none)
    (hp : s.pageRetired (128 * l) = false) (hw : Memory.wf s.mem = true) :
    (∀ y, y ≠ l → (cacheWrite s c l x m d).devLine y = s.devLine y) ∧ (cacheWrite s c l x m d).cores = s.cores ∧ SameOps s (cacheWrite s c l x m d) := by
  obtain ⟨h1, _, h3⟩ := homeWrite_spec s l x m d h hd hp hw
  have hh : (∀ y, y ≠ l → (s.homeWrite l x m d).devLine y = s.devLine y) ∧ (s.homeWrite l x m d).cores = s.cores ∧ SameOps s (s.homeWrite l x m d) :=
    ⟨fun y hy => by rw [h1, if_neg hy], h3, homeWrite_ops s l x m d h hd⟩
  unfold cacheWrite
  split
  · split
    · exact hh
    · have r := logRefused_stored s 0 x c false (BitVec.ofNat 64 (128 * l)) 0x07 2 0#64
      exact ⟨fun y _ => r.devLine y, r.cores, .of (logRefused_ops ..)⟩
  · exact hh

theorem l1Clean_spec (s : State) (c l : Nat) (h : s.paKind (128 * l) = .device) (hd : s.dbgOwner l = none) (hp : s.pageRetired (128 * l) = false)
    (hw : Memory.wf s.mem = true) (hc : c < s.cores.length) :
    (∀ y, (l1Find (l1Clean s c l) c y).map L1Line.data = (l1Find s c y).map L1Line.data) ∧ (∀ y, y ≠ l → (l1Clean s c l).devLine y = s.devLine y)
    ∧ (∀ d, d ≠ c → (l1Clean s c l).core d = s.core d) ∧ (∀ d, ((l1Clean s c l).core d).glen = (s.core d).glen)
    ∧ (l1Clean s c l).cores.length = s.cores.length ∧ SameOps s (l1Clean s c l) := by
  unfold l1Clean
  split
  · exact ⟨fun _ => rfl, fun _ _ => rfl, fun _ _ => rfl, fun _ => rfl, rfl, .of rfl⟩
  · rename_i k hk
    have hl : k.line = l := by simpa using List.find?_some hk
    split
    · exact ⟨fun _ => rfl, fun _ _ => rfl, fun _ _ => rfl, fun _ => rfl, rfl, .of rfl⟩
    · obtain ⟨h1, h3, h4⟩ := cacheWrite_spec s c l k.ctx k.dirty k.data h hd hp hw
      have hcl : c < (cacheWrite s c l k.ctx k.dirty k.data).cores.length := by rw [h3]; exact hc
      refine ⟨fun y => ?_, fun y hy => ?_, fun d hdc => ?_, fun d => ?_, ?_, ?_⟩
      · rw [l1Find_l1Set _ _ _ _ hcl]
        split
        · rename_i e; simp only at e; subst e; simp [hl, hk]
        · simp [l1Find, State.core, h3]
      · rw [devLine_l1Set, h1 y hy]
      · rw [core_l1Set_ne _ _ _ _ (Ne.symm hdc)]; simp [State.core, h3]
      · rw [glen_l1Set]; simp [State.core, h3]
      · rw [length_l1Set, h3]
      · exact h4.trans (.of rfl)

theorem coreByte_core {s u : State} {c : Nat} (h1 : ∀ y, (l1Find u c y).map L1Line.data = (l1Find s c y).map L1Line.data)
    (h2 : ∀ y, l1Find s c y = none → u.devLine y = s.devLine y) (a : Nat) : coreByte u c a = coreByte s c a := by
  unfold coreByte
  rw [h1]
  cases e : l1Find s c (a / 128) with
  | some k => rfl
  | none => simp [h2 _ e]

/-- The L1's line after a store has merged its bytes. -/
theorem coreByte_l1Set (s : State) (c x pa n v : Nat) (k : L1Line) (hc : c < s.cores.length) (hn : pa % 128 + n ≤ 128) (hl : l1Find s c (pa / 128) = some k)
    (hk : k.line = pa / 128) :
    let u := l1Set s c { k with ctx := x, data := LineOps.set k.data (pa % 128) n v, dirty := k.dirty ||| LineOps.mask (pa % 128) n, count := none, lease := none }
    (∀ a, a < pa ∨ pa + n ≤ a → coreByte u c a = coreByte s c a) ∧ (∀ i < n, coreByte u c (pa + i) = v / 256 ^ i % 256) := by
  intro u
  have hf : ∀ y, l1Find u c y = if y = k.line then some { k with ctx := x, data := LineOps.set k.data (pa % 128) n v, dirty := k.dirty ||| LineOps.mask (pa % 128) n, count := none, lease := none } else l1Find s c y :=
    fun y => l1Find_l1Set _ _ _ _ hc
  have hdv : ∀ y, u.devLine y = s.devLine y := devLine_l1Set _ _ _
  refine ⟨fun a ha => ?_, fun i hi => ?_⟩
  · unfold coreByte
    rw [hf, hdv]
    split
    · rename_i e
      rw [e, hk, hl]
      simp only [Option.map_some, Option.getD_some]
      exact LineOps.get_set_out _ (Nat.mod_lt _ (by decide)) (by rw [hk] at e; omega)
    · rfl
  · unfold coreByte
    rw [hf, hdv, if_pos (by rw [hk]; omega), show (pa + i) % 128 = pa % 128 + i by omega]
    simp only [Option.map_some, Option.getD_some]
    exact LineOps.get_set_in _ hn hi

/-- What a store of ordinary data does (R148, R150): the core sees its bytes and no other changes. -/
theorem l1Store_spec (s : State) (c x pa n v : Nat) (hint : Hint) (h : s.paKind (128 * (pa / 128)) = .device) (hd : s.dbgOwner (pa / 128) = none)
    (hr : s.pageRetired (128 * (pa / 128)) = false) (hw : Memory.wf s.mem = true) (hc : c < s.cores.length) (hn : pa % 128 + n ≤ 128) :
    (∀ a, a < pa ∨ pa + n ≤ a → coreByte (l1Store s c x pa n v hint) c a = coreByte s c a)
    ∧ (∀ i < n, coreByte (l1Store s c x pa n v hint) c (pa + i) = v / 256 ^ i % 256)
    ∧ ((∀ k, l1Find s c (pa / 128) = some k → k.ctx = x) → ∀ a, (a < pa ∨ pa + n ≤ a ∨ hint ≠ .stream ∨ l1Find s c (pa / 128) ≠ none) →
        homeByte (l1Store s c x pa n v hint) a = homeByte s a)
    ∧ (∀ d, d ≠ c → (l1Store s c x pa n v hint).core d = s.core d) ∧ (∀ d, ((l1Store s c x pa n v hint).core d).glen = (s.core d).glen)
    ∧ SameOps s (l1Store s c x pa n v hint) ∧ (l1Store s c x pa n v hint).cores.length = s.cores.length
    ∧ (l1Find s c (pa / 128) = none → hint = .stream → l1Find (l1Store s c x pa n v hint) c (pa / 128) = none) := by
  unfold l1Store
  simp only
  cases hp : l1Find s c (pa / 128) with
  | none =>
    by_cases hs : hint = .stream
    · subst hs
      simp only [beq_self_eq_true, Option.isNone_none, Bool.and_self, if_true]
      obtain ⟨h1, h2, _, h4⟩ := homeWriteN_spec s pa n x v h hd hr hw hn
      have hl1 : ∀ y, l1Find (s.homeWriteN pa n x v) c y = l1Find s c y := by intro y; simp [l1Find, State.core, h4]
      have hb : ∀ a, l1Find s c (a / 128) = none → coreByte (s.homeWriteN pa n x v) c a = homeByte (s.homeWriteN pa n x v) a := by
        intro a ha; unfold coreByte homeByte; rw [hl1, ha]; rfl
      refine ⟨fun a ha => ?_, fun i hi => ?_, fun _ a ha => ?_, fun d _ => ?_, fun d => ?_, homeWrite_ops _ _ _ _ _ h hd, by rw [h4], fun _ _ => by rw [hl1, hp]⟩
      · unfold coreByte
        rw [hl1]
        cases e : l1Find s c (a / 128) with
        | some k => rfl
        | none => exact h1 a ha
      · rw [hb _ (by rw [show (pa + i) / 128 = pa / 128 by omega, hp])]
        exact h2 i hi
      · exact h1 a (by simpa [or_assoc] using ha)
      · simp [State.core, h4]
      · simp [State.core, h4]
    · have hb' : (hint == Hint.stream) = false := by simpa using hs
      simp only [hb', Bool.false_and, Bool.false_eq_true, if_false]
      obtain ⟨⟨k, hk, hkl, hkd⟩, f2, f3, f4, f5, f6⟩ := l1Fill_spec s c (pa / 128) x none h hd hc
      have hcl : c < (l1Fill s c (pa / 128) x none).cores.length := by rw [f6]; exact hc
      simp only [hk]
      obtain ⟨g1, g2⟩ := coreByte_l1Set (l1Fill s c (pa / 128) x none) c x pa n v k hcl hn hk hkl
      have hb : ∀ a, coreByte (l1Fill s c (pa / 128) x none) c a = coreByte s c a := by
        intro a
        unfold coreByte
        rw [f3]
        by_cases e : a / 128 = pa / 128
        · rw [e, hk, hp]; simp [hkd, hp]
        · rw [f2 _ e]
      refine ⟨fun a ha => (g1 a ha).trans (hb a), g2, fun _ a _ => ?_, fun d hdc => ?_, fun d => ?_, ?_, ?_, fun _ e => absurd e hs⟩
      · unfold homeByte; rw [devLine_l1Set, f3]
      · rw [core_l1Set_ne _ _ _ _ (Ne.symm hdc), f4 d hdc]
      · rw [glen_l1Set, f5]
      · refine .of ?_
        show (l1Fill s c (pa / 128) x none).ops = s.ops
        unfold l1Fill
        simp only [hp]
        unfold State.homeRead State.fillHome
        simp only [hd, h]
        unfold State.fillDev
        split <;> rfl
      · rw [length_l1Set, f6]
  | some k0 =>
    have hl0 : k0.line = pa / 128 := by simpa using List.find?_some hp
    simp only [Option.isNone_some, Bool.and_false, Bool.false_eq_true, if_false]
    obtain ⟨c1, c2, c3, c4, c5, c6⟩ := l1Clean_spec s c (pa / 128) h hd hr hw hc
    generalize hu : (if (k0.ctx != x) = true then l1Clean s c (pa / 128) else s) = u
    have U : (∀ y, (l1Find u c y).map L1Line.data = (l1Find s c y).map L1Line.data) ∧ (∀ y, y ≠ pa / 128 → u.devLine y = s.devLine y)
        ∧ (∀ d, d ≠ c → u.core d = s.core d) ∧ (∀ d, (u.core d).glen = (s.core d).glen) ∧ u.cores.length = s.cores.length ∧ SameOps s u
        ∧ (k0.ctx = x → u = s) := by
      subst hu
      split
      · rename_i e; exact ⟨c1, c2, c3, c4, c5, c6, fun e' => by simp [e'] at e⟩
      · exact ⟨fun _ => rfl, fun _ _ => rfl, fun _ _ => rfl, fun _ => rfl, rfl, .of rfl, fun _ => rfl⟩
    obtain ⟨u1, u2, u3, u4, u5, u6, u7⟩ := U
    have hne : ∃ k, l1Find u c (pa / 128) = some k := by
      have := u1 (pa / 128)
      rw [hp] at this
      cases e : l1Find u c (pa / 128) with
      | some k => exact ⟨k, rfl⟩
      | none => rw [e] at this; simp at this
    obtain ⟨k, hk⟩ := hne
    have hfill : l1Fill u c (pa / 128) x none = u := by unfold l1Fill; simp only [hk]
    have hkl : k.line = pa / 128 := by simpa using List.find?_some hk
    have hcl : c < u.cores.length := by rw [u5]; exact hc
    simp only [hfill, hk]
    obtain ⟨g1, g2⟩ := coreByte_l1Set u c x pa n v k hcl hn hk hkl
    have hb : ∀ a, coreByte u c a = coreByte s c a := coreByte_core u1 (fun y hy => by
      by_cases e : y = pa / 128
      · subst e; rw [hp] at hy; cases hy
      · exact u2 y e)
    refine ⟨fun a ha => (g1 a ha).trans (hb a), g2, fun hx a _ => ?_, fun d hdc => ?_, fun d => ?_, u6.trans (.of rfl), ?_, fun e => by cases e⟩
    · unfold homeByte; rw [devLine_l1Set, u7 (hx k0 rfl)]
    · rw [core_l1Set_ne _ _ _ _ (Ne.symm hdc), u3 d hdc]
    · rw [glen_l1Set, u4]
    · rw [length_l1Set, u5]

theorem fillHome_device (s : State) (l c : Nat) (h : s.paKind (128 * l) = .device) : s.fillHome l c = s.fillDev l c := by
  unfold State.fillHome; simp only [h]

theorem dbgOwner_fillDev (s : State) (l c x : Nat) : (s.fillDev l c).dbgOwner x = s.dbgOwner x := by
  unfold State.fillDev; split <;> rfl

end Sys2Proof.Machine
end

