-- ==== Sys2Proof/Laws/Words.lean ====
section
/-! SUPPORT. What each shape of a word answers when the word can issue: no later proof unfolds the operand stage. -/

namespace Sys2Proof.Machine

theorem withGrp_some {s : State} {g : Grp} (f : Grp → State) (h : s.grp = some g) : withGrp s f = .next (f g) := by
  simp [withGrp, h]

theorem laneTrap_none {s : State} {g : Grp} {ts : List Thread} {f : Thread → Option (Nat × Nat × W64)} {rps : List (Nat × Replay)}
    (h : ∀ t ∈ ts, f t = none) : laneTrap s g ts f rps = none := by
  have : ts.findSome? f = none := List.findSome?_eq_none_iff.2 h
  simp [laneTrap, this]

/-- The operand stage of a word that can issue. -/
theorem prepare_ready {w : Spec} {s : State} {g : Grp} (h : Ready w s g) : prepare w g s = .go (lanesRead w s g) (afterReads w s g) := by
  have hf : (executing g w.h).find? (fun t => !flagsFit t (flagsOf s g w.a w.b)) = none := by
    rw [List.find?_eq_none]
    intro t ht
    simp [h.flags t ht]
  have hp : (freshLanes g w.h).all (fun t => popsReady s t w.srcs) = true := List.all_eq_true.2 h.pops
  have hc : (executing g w.h).filterMap (fun t => (refusal s t (needCells t w)).map (fun c => (t, c))) = [] := by
    rw [List.filterMap_eq_nil_iff]
    intro t ht
    simp [h.cells t ht]
  have h1 := laneTrap_none (s := s) (g := g) (rps := []) h.pre
  have h2 := laneTrap_none (s := s) (g := g) (rps := []) (ts := freshLanes g w.h)
    (f := fun t => (exhaust t (w.of t)).map (fun p => (0x04, p.1, BitVec.ofNat 64 p.2))) (fun t ht => by simp [h.bound t ht])
  have h3 := laneTrap_none (s := s) (g := g) (rps := []) h.queues
  have hr := h.room
  have hs := h.streams
  unfold freshLanes at hp h2 h3 hs
  simp [prepare, h.pending, hf, hr, hs, hp, hc, h1, h2, h3, lanesRead, afterReads]

theorem fixedWord_ready {w : Spec} {s : State} {g : Grp} (lat : Nat) (f : List Lane → Lane → Res) (h : Ready w s g) :
    fixedWord w lat f s = .next (afterFixed w lat s g (f (lanesRead w s g))) := by
  simp [fixedWord, withGrp_some _ h.group, prepare_ready h, afterFixed]

theorem actWord_ready {w : Spec} {s : State} {g : Grp} (f : Grp → List Lane → State → State) (h : Ready w s g) :
    actWord w f s = .next (f g (lanesRead w s g) (afterReads w s g)) := by
  simp [actWord, withGrp_some _ h.group, prepare_ready h]

/-! ## Checks after the reads -/

theorem reported_none {l : List (Nat × Option (Nat × Nat × Nat × W64))} (h : ∀ p ∈ l, p.2 = none) : reported l = none := by
  have : l.filterMap (fun p => p.2.map (fun f => (p.1, f))) = [] := by
    rw [List.filterMap_eq_nil_iff]
    intro p hp
    simp [h p hp]
  simp [reported, this]

/-- No lane's check fails. -/
theorem checked_ok {s : State} {g : Grp} {ls : List Lane} {f : Lane → Option (Nat × Nat × Nat × W64)} (k : State) (h : ∀ l ∈ ls, f l = none) :
    checked s g ls f k = k := by
  unfold checked
  rw [reported_none]
  intro p hp
  obtain ⟨l, hl, rfl⟩ := List.mem_map.1 hp
  exact h l hl

theorem failing_ok {l : List LaneRes} (h : ∀ r ∈ l, ∃ t, r = .ok t) : failing l = none := by
  induction l with
  | nil => rfl
  | cons r rs ih =>
    obtain ⟨t, rfl⟩ := h r (by simp)
    exact ih (fun x hx => h x (by simp [hx]))

theorem missing_ok {l : List LaneRes} (h : ∀ r ∈ l, ∃ t, r = .ok t) : missing l = none := by
  induction l with
  | nil => rfl
  | cons r rs ih =>
    obtain ⟨t, rfl⟩ := h r (by simp)
    exact ih (fun x hx => h x (by simp [hx]))

/-- Every check of every lane passes. -/
theorem checkLanes_ok {s0 s : State} {g : Grp} {rs : List LaneChecks} (k : State) (h : ∀ p ∈ rs, ∀ r ∈ p.2, ∃ t, r = .ok t) :
    checkLanes s0 s g rs k = k := by
  have h1 : reported (rs.map (fun p => (p.1.t.id, failing p.2))) = none := by
    refine reported_none (fun p hp => ?_)
    obtain ⟨q, hq, rfl⟩ := List.mem_map.1 hp
    exact failing_ok (h q hq)
  have h2 : reported ((rs.map (fun p => (p.1.t.id, failing p.2))).map (fun p => (p.1, match p.2 with
      | some (st, c, sub, a) => if st ≤ 2 then some (st, c, sub, a) else none
      | none => none))) = none := by
    refine reported_none (fun p hp => ?_)
    obtain ⟨q, hq, rfl⟩ := List.mem_map.1 hp
    obtain ⟨x, hx, rfl⟩ := List.mem_map.1 hq
    simp [failing_ok (h x hx)]
  have h3 : rs.filterMap (fun p => missing p.2) = [] := by
    rw [List.filterMap_eq_nil_iff]
    intro p hp
    exact missing_ok (h p hp)
  unfold checkLanes
  dsimp only
  split
  · rename_i hx
    exact absurd (h2.symm.trans hx) (by simp)
  · rw [h3, h1]

/-! ## Words of a variable latency -/

/-- The operations of a word whose values do not change the state. -/
theorem values_pure (v : State → Lane → W64) (ls : List Lane) (s : State) (l0 : List (Lane × NewOp)) :
    ls.foldl (fun (acc : List (Lane × NewOp) × State) l => (acc.1 ++ [(l, ({ kind := .value (v acc.2 l), va := 0#64 } : NewOp))], acc.2)) (l0, s)
      = (l0 ++ ls.map (fun l => (l, ({ kind := .value (v s l), va := 0#64 } : NewOp))), s) := by
  induction ls generalizing l0 with
  | nil => simp
  | cons l ls ih => simp [ih]

/-- A word of a variable latency that can issue. -/
theorem variableWord_ready {w : Spec} {s : State} {g : Grp} (v : State → Lane → W64) (h : Ready w s g) :
    variableWord w (fun s _ l => (v s l, s)) s
      = .next (afterOps w s g ((lanesRead w s g).map (fun l => (l, { kind := .value (v (afterReads w s g) l), va := 0#64 })))) := by
  simp [variableWord, withGrp_some _ h.group, prepare_ready h, afterOps, values_pure v]

/-! ## The other shapes of a word -/

/-- What a binding word does to a thread, with the lookup written once. -/
theorem onBinding_eq (a : VName) (f : Thread → Binding → Thread) : onBinding a f = fun t => ((lookupName t a.val).map (f t)).getD t := by
  funext t; unfold onBinding; split <;> simp [*]

/-- R190: a binding word of unbound names takes EXHAUST in its executing lanes. -/
theorem bindingWord_unbound {h : Hd} {a : VName} {ok : Binding → Bool} {f : Thread → Binding → Thread} {s : State} {g : Grp} (hr : Ready { h := h } s g)
   (hne : lanesRead { h := h } s g ≠ [])  (hb : ∀ l ∈ lanesRead { h := h } s g, lookupName l.t a.val = none) :
  bindingWord h a ok f s = .next (wordTrap (afterReads { h := h } s g) g 0x04 3 (BitVec.ofNat 64 a.val) ((lanesRead { h := h } s g).map (fun l => l.t.id))
        (replaysOf (lanesRead { h := h } s g))) := by
  unfold bindingWord
  rw [actWord_ready _ hr]
  have : (lanesRead { h := h } s g).filter (bindFails a ok) = lanesRead { h := h } s g := by
    rw [List.filter_eq_self]
    intro l hl
    simp [bindFails, hb l hl]
  simp [this, hne]

/-- An SFU function that is exact everywhere is a word of a variable latency. -/
theorem sfuWord_exact {h : Hd} {d : Dst} {a : Src} (f : Nat → Nat) {s : State} {g : Grp} (hr : Ready { h := h, srcs := [Opnd.cell a], dst := Dest.ofDst d false, a := true } s g) :
   sfuWord h d a (fun x => some (f x)) s = .next (afterOps { h := h, srcs := [Opnd.cell a], dst := Dest.ofDst d false, a := true } s g
     ((lanesRead { h := h, srcs := [Opnd.cell a], dst := Dest.ofDst d false, a := true } s g).map (fun l => (l, { kind := .value (BitVec.ofNat 64 (f (elemAt 32 0 (l.v 0)))), va := 0#64 })))) :=
  variableWord_ready (fun _ l => BitVec.ofNat 64 (f (elemAt 32 0 (l.v 0)))) hr

/-- When every lane fails at the same point, that fault is reported with all of them. -/
theorem reported_all {st c sub : Nat} {f : Lane → Option (Nat × Nat × Nat × W64)} {v : Lane → W64} {l : Lane} {ls : List Lane} (hst : st ≤ 1000) (h : ∀ x ∈ l :: ls, f x = some (st, c, sub, v x)) :
   reported ((l :: ls).map (fun l => (l.t.id, f l))) = some (c, sub, v l, (l :: ls).map (fun x => x.t.id)) := by
  have e1 : ((l :: ls).map (fun l => (l.t.id, f l))).filterMap (fun p => p.2.map (fun f => (p.1, f))) = (l :: ls).map (fun x => (x.t.id, (st, c, sub, v x))) := by
    rw [List.filterMap_map]
    rw [← List.filterMap_eq_map]
    apply List.filterMap_congr
    intro x hx
    simp [h x hx]
  have e2 : ((l :: ls).map (fun x => (x.t.id, (st, c, sub, v x)))).foldl (fun m p => min m p.2.1) 1000 = st := by
    have : ∀ (xs : List Lane) (m : Nat), st ≤ m → xs ≠ [] ∨ m = st → (xs.map (fun x => (x.t.id, (st, c, sub, v x)))).foldl (fun m p => min m p.2.1) m = st := by
      intro xs
      induction xs with
      | nil => intro m _ hm; simpa using hm
      | cons x xs ih => 
        intro m hm _
        exact ih (min m st) (by omega) (by right; omega)
    exact this (l :: ls) 1000 hst (by simp)
  unfold reported
  dsimp only
  rw [e1]
  have e3 : ((l :: ls).map (fun x => (x.t.id, (st, c, sub, v x)))).filter (fun p => p.2.1 == st) = (l :: ls).map (fun x => (x.t.id, (st, c, sub, v x))) := by
    rw [List.filter_eq_self]; intro p hp; obtain ⟨x, -, rfl⟩ := List.mem_map.1 hp; simp
  rw [e2, e3]
  simp only [List.map_cons]
  congr 4
  simp [List.filter_map, Function.comp_def]

/-- When every lane fails alike, the word takes that fault. -/
theorem checked_all {s : State} {g : Grp} {st c sub : Nat} {f : Lane → Option (Nat × Nat × Nat × W64)} {v : Lane → W64} {l : Lane} {ls : List Lane} (k : State) (hst : st ≤ 1000) (h : ∀ x ∈ l :: ls, f x = some (st, c, sub, v x)) :
  checked s g (l :: ls) f k = wordTrap s g c sub (v l) ((l :: ls).map (fun x => x.t.id)) (replaysOf (l :: ls)) := by
  unfold checked
  rw [reported_all hst h]

/-- No named flag is busy. -/
theorem busyFlag_none {ts : List Thread} {m : BitVec 12} (h : ∀ t ∈ ts, ∀ f < 12, m.getLsbD f = true → flagOf t f = 0) : busyFlag ts m = none := by
  unfold busyFlag
  rw [List.findSome?_eq_none_iff]
  intro f hf
  split
  · rename_i hm
    simp only [Option.map_eq_none_iff, List.find?_eq_none]
    intro t ht
    simp [h t ht f (by simpa using hf) hm]
  · rfl

/-- Some named flag is busy. -/
theorem busyFlag_some {ts : List Thread} {m : BitVec 12} (h : ∃ t ∈ ts, ∃ f < 12, m.getLsbD f = true ∧ flagOf t f ≠ 0) : ∃ x, busyFlag ts m = some x := by
  rw [← Option.isSome_iff_exists, Option.isSome_iff_ne_none]
  intro e
  unfold busyFlag at e
  rw [List.findSome?_eq_none_iff] at e
  obtain ⟨t, ht, f, hf, hm, hx⟩ := h
  have := e f (by simpa using hf)
  simp only [hm, if_true, Option.map_eq_none_iff, List.find?_eq_none] at this
  exact absurd (this t ht) (by simpa using hx)

/-- A barrier word whose members all have left goes on. -/
theorem barrierWait_done {s : State} {g : Grp} {h : Hd} (hb : ∀ t ∈ g.mem, ∀ u, s.thread t.id = some u → ∀ b, u.bar ≠ some (b, false)) : barrierWait s g h = finishWord s g h := by
  unfold barrierWait
  split
  · rename_i hx
    rw [List.any_eq_true] at hx
    obtain ⟨t, ht, hx⟩ := hx
    split at hx
    · rename_i u hu
      split at hx
      · rename_i b hbar
        exact absurd hbar (hb t ht u hu b)
      · cases hx
    · cases hx
  · rfl

/-- A load whose checks pass. -/
theorem loadWord_ready {w : Spec} {m : MemAddr} {n sx cnt : Nat} {hint : Hint} {stash : Bool} {chk : State → Lane → W64 → LaneRes} {s : State} {g : Grp} {T : Lane → Target}
   (hr : Ready w s g) (hc : ∀ l ∈ lanesRead w s g, chk (afterReads w s g) l (memEa m n l) = .ok (T l)) :
   loadWord w m n sx hint cnt stash chk s = .next (finishWord (watched (issueOps (afterReads w s g) g w ((lanesRead w s g).map (fun l =>
          (l, { kind := .load (T l) n sx hint cnt, va := memEa m n l })))) g
        ((lanesRead w s g).map (fun l => (l, memEa m n l))) n stash true false) g w.h) := by
  unfold loadWord
  rw [withGrp_some _ hr.group, prepare_ready hr]
  dsimp only
  rw [checkLanes_ok]
  · have e : (((((lanesRead w s g).map (fun l => (l, memEa m n l))).map (fun p => (p.1, [chk (afterReads w s g) p.1 p.2]))).zip ((lanesRead w s g).map (fun l => (l, memEa m n l)))).map
        (fun p => (p.1.1, ({ kind := .load (okTarget p.1.2) n sx hint cnt, va := p.2.2 } : NewOp)))) = (lanesRead w s g).map (fun l => (l, { kind := .load (T l) n sx hint cnt, va := memEa m n l })) := by
      simp only [List.map_map, List.zip_map', Function.comp_def]
      apply List.map_congr_left
      intro l hl
      simp [hc l hl, okTarget]
    rw [e]
  · intro p hp r hr'
    simp only [List.map_map, List.mem_map, Function.comp_def] at hp
    obtain ⟨l, hl, rfl⟩ := hp
    simp only [List.mem_singleton] at hr'
    exact ⟨T l, hr'.trans (hc l hl)⟩

/-- A store whose checks pass. -/
theorem storeWord_ready {w : Spec} {m : MemAddr} {n : Nat} {hint : Hint} {stash : Bool} {data : Lane → BitVec 128} {chk : State → Lane → W64 → LaneRes} {s : State} {g : Grp} {T : Lane → Target}
   (hr : Ready w s g) (hc : ∀ l ∈ lanesRead w s g, chk (afterReads w s g) l (memEa m n l) = .ok (T l)) :
   storeWord w m n hint stash data chk s = .next (finishWord (watched (issueOps (afterReads w s g) g w ((lanesRead w s g).map (fun l =>
          (l, { kind := .store (T l) n hint (data l), va := memEa m n l })))) g
        ((lanesRead w s g).map (fun l => (l, memEa m n l))) n stash false true) g w.h) := by
  unfold storeWord
  rw [withGrp_some _ hr.group, prepare_ready hr]
  dsimp only
  rw [checkLanes_ok]
  · have e : (((((lanesRead w s g).map (fun l => (l, memEa m n l))).map (fun p => (p.1, [chk (afterReads w s g) p.1 p.2]))).zip ((lanesRead w s g).map (fun l => (l, memEa m n l)))).map
        (fun p => (p.1.1, ({ kind := .store (okTarget p.1.2) n hint (data p.1.1), va := p.2.2 } : NewOp)))) = (lanesRead w s g).map (fun l => (l, { kind := .store (T l) n hint (data l), va := memEa m n l })) := by
      simp only [List.map_map, List.zip_map', Function.comp_def]
      apply List.map_congr_left
      intro l hl
      simp [hc l hl, okTarget]
    rw [e]
  · intro p hp r hr'
    simp only [List.map_map, List.mem_map, Function.comp_def] at hp
    obtain ⟨l, hl, rfl⟩ := hp
    simp only [List.mem_singleton] at hr'
    exact ⟨T l, hr'.trans (hc l hl)⟩

/-- A word of the ATM group whose checks pass. -/
theorem atmWord_ready {w : Spec} {n sc : Nat} {op : Lane → WordOp} {limit : State → Lane → Option Nat} {s : State} {g : Grp} {T : Lane → Target} (hr : Ready w s g)
  (hc : ∀ l ∈ lanesRead w s g, laneGlobal (afterReads w s g) l.t.core l.t { wordAcc (l.v 0) n n with await := (op l).isAwait } = .ok (T l)) :
  atmWord w n sc op limit s = .next (finishWord (watched (sendWord (afterReads w s g) g w n sc ((lanesRead w s g).map (fun l => (l, [.ok (T l)]))) op
        (limit (afterReads w s g))) g ((lanesRead w s g).map (fun l => (l, l.v 0))) n false true true) g w.h) := by
  unfold atmWord
  rw [withGrp_some _ hr.group, prepare_ready hr]
  dsimp only
  have : (lanesRead w s g).map (fun l => (l, [laneGlobal (afterReads w s g) l.t.core l.t { wordAcc (l.v 0) n n with await := (op l).isAwait }])) = (lanesRead w s g).map (fun l => (l, [.ok (T l)])) := by
    apply List.map_congr_left
    intro l hl
    rw [hc l hl]
  rw [this, checkLanes_ok]
  intro p hp r hr'
  obtain ⟨l, hl, rfl⟩ := List.mem_map.1 hp
  exact ⟨T l, by simpa using hr'⟩

/-- A task instruction whose checks pass. -/
theorem taskWord_ready {w : Spec} {al : Nat} {pre : Lane → Option (Nat × Nat × Nat × W64)} {op : Lane → WordOp} {s : State} {g : Grp} {T : Lane → Target} (hr : Ready w s g)
  (hc : ∀ l ∈ lanesRead w s g, pre l = none ∧ laneGlobal (afterReads w s g) l.t.core l.t (wordAcc (l.v 0) (if al = 128 then 128 else 8) al) = .ok (T l)) :
  taskWord w al pre op s = .next (finishWord (sendWord (afterReads w s g) g w 8 2 ((lanesRead w s g).map (fun l => (l, [.ok (T l), .ok (.l1 0)]))) op
        (fun _ => none)) g w.h) := by
  unfold taskWord
  rw [withGrp_some _ hr.group, prepare_ready hr]
  dsimp only
  have : (lanesRead w s g).map (fun l => (l, [laneGlobal (afterReads w s g) l.t.core l.t (wordAcc (l.v 0) (if al = 128 then 128 else 8) al), (match pre l with
        | some (st, c, sub, a) => .bad st c sub a
        | none => .ok (.l1 0))])) = (lanesRead w s g).map (fun l => (l, [.ok (T l), .ok (.l1 0)])) := by
    apply List.map_congr_left
    intro l hl
    rw [(hc l hl).1, (hc l hl).2]
  erw [this]
  rw [checkLanes_ok]
  intro p hp r hr'
  obtain ⟨l, hl, rfl⟩ := List.mem_map.1 hp
  simp only [List.mem_cons, List.not_mem_nil, or_false] at hr'
  obtain rfl | rfl := hr' <;> exact ⟨_, rfl⟩

/-- A copy command whose operands are good is queued. -/
theorem commandWord_ready {h : Hd} {srcs : List Opnd} {ctr : Option Src} {mk : State → Grp → Lane → Option W64 → Option CopyCmd} {s : State} {g : Grp} {c : Lane → CopyCmd} {w : Spec}
   (hw : w = { h := h, srcs := srcs ++ (match ctr with | some c => [.src c true] | none => []), dst := Dest.queue .cpc, b := true }) (hr : Ready w s g)
   (hc : ∀ l ∈ lanesRead w s g, mk (afterReads w s g) g l (ctr.map (fun _ => l.v 3)) = some (c l)) :
   commandWord h srcs ctr mk s = .next (finishWord (((lanesRead w s g).map c).foldl (fun s c => pushCmd (countUp s c.tid (none, c.setb)) g.core c) (afterReads w s g)) g h) := by
  subst hw
  unfold commandWord
  rw [withGrp_some _ hr.group]
  have e := prepare_ready hr
  dsimp only
  cases ctr
  all_goals
    dsimp only at e hc ⊢
    rw [e]
    dsimp only
    have e1 := List.map_congr_left (fun l hl => congrArg (fun x => (l, x)) (hc l hl))
    rw [e1, checked_ok]
    · congr 3
      simp [List.filterMap_map]
    · intro l hl
      simp [List.any_map, Function.comp_def]

/-- A window instruction that its check admits acts for its first executing lane. -/
theorem windowWord_ready {w : Spec} {chk : State → Grp → Lane → Option (Nat × Nat × W64)} {act : State → Grp → Lane → List Lane → State} {s : State} {g : Grp} {l : Lane} {ls : List Lane}
   (hr : Ready w s g) (hl : lanesRead w s g = l :: ls) (hc : chk (afterReads w s g) g l = none) :
   windowWord w chk act s = .next (finishWord (act (afterReads w s g) g l (l :: ls)) g w.h) := by
  unfold windowWord
  rw [withGrp_some _ hr.group, prepare_ready hr, hl]
  simp [hc]

/-- A matrix command whose checks pass is pushed once for each row. -/
theorem pushWord_ready {w : Spec} {chk : Lane → Option (Nat × Nat × Nat × W64)} {mk : Lane → MtxKind} {s : State} {g : Grp} (hr : Ready w s g)
   (hc : ∀ l ∈ rowLeads (lanesRead w s g), chk l = none) : pushWord w chk mk s =
     .next (finishWord ((rowLeads (lanesRead w s g)).foldl (fun u l => pushMtx u g l (pushersOf (lanesRead w s g) l.t.slot) (mk l))
        (afterReads w s g)) g w.h) := by
  unfold pushWord
  rw [withGrp_some _ hr.group, prepare_ready hr]
  dsimp only
  have e := checked_ok (s := afterReads w s g) (g := g) (ls := lanesRead w s g) (f := fun l => ((rowLeads (lanesRead w s g)).find? (fun x => x.t.slot == l.t.slot)).bind chk)
   (finishWord ((rowLeads (lanesRead w s g)).foldl (fun u l => pushMtx u g l (pushersOf (lanesRead w s g) l.t.slot) (mk l)) (afterReads w s g)) g w.h) ?_
  · rw [e]
  intro l hl
  cases hx : (rowLeads (lanesRead w s g)).find? (fun x => x.t.slot == l.t.slot) with
  | none => rfl
  | some x => exact hc x (List.mem_of_find?_eq_some hx)

/-- A word of a stopped loop acts on it. -/
theorem stoppedWord_ready {h : Hd} {act : State → Nat → Loop → State} {w : Spec} {s : State} {g : Grp} {l : Lane} {x : Loop} (hw : w = { h := h, mtx := true }) (hr : Ready w s g) (hl : rowLeads (lanesRead w s g) = [l])
   (hc : ∀ y ∈ lanesRead w s g, stoppedBy (afterReads w s g) y.t = some x) (hc' : stoppedBy (afterReads w s g) l.t = some x) :
   stoppedWord h act s = .next (finishWord (clearEngine (act (afterReads w s g) g.core x) g.core l.t.slot l.t.gang) g h) := by
  subst hw
  unfold stoppedWord
  rw [withGrp_some _ hr.group, prepare_ready hr]
  dsimp only
  rw [hl, checked_ok _ (fun y hy => by simp [hc y hy])]
  simp [hc']

end Sys2Proof.Machine
end

