-- ==== Sys2Proof/Tests/Slice0.lean ====
section
/-! SUPPORT. The model's own tests: words written out from the spec's encodings decode to the instruction they stand for; terms
that are no instruction word are refused by Instr.wf; one small state for each hypothesis of the obligations; and one result of
the spec's arithmetic for each family. -/

open Sys2Proof Sys2Proof.Machine
namespace Sys2Proof.Tests
def H : Hd := { ga := { neg := false, p := 7 }, gb := { neg := false, p := 7 }, y := false }

def readyB (w : Spec) (s : State) (g : Grp) : Bool :=
  decide (s.grp = some g) && (pendingOf s w g (executing g w.h)).isNone
  && (executing g w.h).all (fun t => flagsFit t (flagsOf s g w.a w.b))
  && pushFits s g ((executing g w.h).filter (fun t => !namesArray w || holdsArray s t)) w.dst.push
  && (freshLanes g w.h).all (fun t => popsReady s t w.srcs) && streamsReady s (freshLanes g w.h) w.srcs
  && (executing g w.h).all (fun t => (refusal s t (needCells t w)).isNone && (w.pre t).isNone)
  && (freshLanes g w.h).all (fun t => (exhaust t (w.of t)).isNone && (queueFault s w (freshLanes g w.h) t).isNone)

theorem ready_of {w : Spec} {s : State} {g : Grp} (h : readyB w s g = true) : Ready w s g := by
  simp only [readyB, Bool.and_eq_true, List.all_eq_true, decide_eq_true_eq, Option.isNone_iff_eq_none] at h
  obtain ⟨⟨⟨⟨⟨⟨⟨h1, h2⟩, h3⟩, h4⟩, h5⟩, h6⟩, h7⟩, h8⟩ := h
  exact ⟨h1, h2, h3, h4, h5, h6, fun t m => (h7 t m).1, fun t m => (h7 t m).2, fun t m => (h8 t m).1, fun t m => (h8 t m).2⟩

/-- One thread of a running task at core 0, about to issue, with names bound. -/
def one (f : Thread → Thread) : State :=
  { (State.reset.withFetchWord 64 0) with agenda := [], focus := some (0, 3) }.updThread 0 f

def b32 (v : Nat) : Binding := { value := BitVec.ofNat 64 v, wide := false, count := 3#4, pend := none, prod := 0#64 }
def b64 (v : Nat) : Binding := { value := BitVec.ofNat 64 v, wide := true, count := 3#4, pend := none, prod := 0#64 }

def given (ns : List (Nat × Binding)) : State := one (fun t => { t with names := ns })

def entry0 : Entry :=
  { uid := 3, index := some 0, ctx := 0, pc := placedAt, members := [0], ready := 0, yieldEnd := 0, overdueAt := none, rdv := false, own := false,
    run := none, lastIssue := none, first := none }

def grpOf (s : State) : Grp :=
  s.grp.getD { core := 0, uid := 3, entry := entry0, run := { clause := placedClause 0#64, released := false, issued := false, stall := none }, mem := [] }


/-- The word world: the thread of `one` holds the names n: 1 = 5, 2 = 8, 3 and 4 addresses of its region, 5 a code address, 6 an odd code address; windows 0 plain,
2 a ring, 3 mapped; the core holds a translation; the array is the gang's. -/
def ring0 : Ring := { rc := 1, ss := 1, stages := [.used 1, .free], fptr := 0, pptr := 0, rptr := 0, holder := none }
def ringFree : Ring := { rc := 1, ss := 1, stages := [.free, .free], fptr := 0, pptr := 0, rptr := 0, holder := none }
def map0 : Mapping := { base := 0x28000#64, ext := 2, slots := [{ granule := none, dirty := 0#256 }] }

def world (f : Thread → Thread) : State :=
  (((one (fun t => f { t with names :=
      [(1, b32 5), (2, b32 8), (3, b64 0x20080), (4, b64 0x20100), (5, b64 0x10010), (6, b64 0x10012), (7, b32 0xFFFFFFFF), (8, b32 1), (9, b64 0x30000), (10, b32 0),
       (11, b32 0x300), (12, b32 0x13), (13, b32 3)] })).updTask 1 (fun k => { k with
        regions := k.regions ++ [{ base := 0x20000, ext := 128, mode := 3, scope := 0, act := 0 }, { base := 0x30000, ext := 128, mode := 4, scope := 0, act := 0 }] })).updGang 2
      (fun g => { g with arr := true, windows := [[{ fs := 0, s := 8, kind := .plain }, { fs := 0, s := 0, kind := .absent }, { fs := 8, s := 2, kind := .ring ring0 },
        { fs := 10, s := 1, kind := .mapped map0 }, { fs := 11, s := 2, kind := .ring ringFree }] ++ List.replicate 11 { fs := 0, s := 0, kind := .absent }] })).updCore 0
    (fun k => { k with array := { k.array with gang := some 2 }, tlb := [{ ctx := 0, va := 0, bits := 18, walk := .leaf 0 true true true }] })

def w0 : State := world id
def g0 : Grp := grpOf w0


set_option maxRecDepth 20000

/-! ## Decoding -/

def decodesTo (l : List (W64 × Instr)) : Bool := l.all (fun p => decide (decode p.1 = .ok p.2))
theorem test_decode_ctl : decodesTo [
    (0x001DFC7F0FFFFFFF#64, .nop H),
    (0x00DDFC7F0FE0FFFD#64, .bra H 0xFFFD#16),
    (0x011DCC7F003FFFFF#64, .brx H (.val 1)),
    (0x01DDCC042FE00010#64, .call H 4 2#4 0x10#16),
    (0x021DCC04203FFFFF#64, .callx H 4 2#4 (.val 1)),
    (0x029DCC7F003FFFFF#64, .ret H (.val 1)),
    (0x0324BCFF0FFFFFFF#64, .exit { ga := { neg := true, p := 1 }, gb := { neg := false, p := 2 }, y := true }),
    (0x03DDFC7F0FE00801#64, .waitf H 0x801#12),
    (0x045DFC7F0FE00064#64, .nap H 100#16)] = true := by decide

theorem test_decode_int : decodesTo [
    (0x101DEC042020BFFF#64, .iadd H .s8 (.val 4 2#4) (.val 1) (.reg (.val 2))),
    (0x109DE8042020BFFF#64, .isub H .n16 (.val 4 2#4) (.val 1) (.reg (.val 2))),
    (0x111DC0042020BFFF#64, .imul H .s32 (.val 4 2#4) (.val 1) (.reg (.val 2))),
    (0x119DCC042020BFFF#64, .imulhi H .n64 (.val 4 2#4) (.val 1) (.reg (.val 2))),
    (0x141DE4042020BFFF#64, .imin H .s16 (.val 4 2#4) (.val 1) (.reg (.val 2))),
    (0x149DF0042020BFFF#64, .imax H .n8 (.val 4 2#4) (.val 1) (.reg (.val 2))),
    (0x105DC00420208000#64, .iadd H .s32 (.val 4 2#4) (.val 1) (.imm 0x8000#16)),
    (0x121DC804202081FF#64, .imad H .s64 (.val 4 2#4) (.val 1) (.val 2) (.val 3)),
    (0x129DCC04202081FF#64, .imadw H .n64 (.val 4 2#4) (.val 1) (.val 2) (.val 3)),
    (0x161DF004202081FF#64, .isad H .n8 (.val 4 2#4) (.val 1) (.val 2) (.val 3)),
    (0x181DEC04202081FF#64, .iclamp H .s8 (.val 4 2#4) (.val 1) (.val 2) (.val 3)),
    (0x131DCC0420208585#64, .iaddc H .n64 (.val 4 2#4) (.val 1) (.val 2) ({ neg := true, p := 3 }) 5),
    (0x139DC40420208386#64, .isubb H .n32 (.val 4 2#4) (.val 1) (.val 2) ({ neg := false, p := 7 }) 6),
    (0x151DE404203FFFFF#64, .iabs H .s16 (.val 4 2#4) (.val 1)),
    (0x159DC804203FFFFF#64, .ineg H .s64 (.val 4 2#4) (.val 1)),
    (0x169DC204202081FF#64, .idot4 H true false (.val 4 2#4) (.val 1) (.val 2) (.val 3)),
    (0x171DC104202081FF#64, .idot8 H false true (.val 4 2#4) (.val 1) (.val 2) (.val 3)),
    (0x179DCC042020BF8B#64, .lea H (.val 4 2#4) (.val 1) (.reg (.val 2) 3 true)),
    (0x17DDCC042020FFF8#64, .lea H (.val 4 2#4) (.val 1) (.imm 0xFFF8#16))] = true := by decide

theorem test_decode_bit : decodesTo [
    (0x201DFC042020BFFF#64, .and H .b32 (.val 4 2#4) (.val 1) (.reg (.val 2))),
    (0x209DCC042020BFFF#64, .or H .n64 (.val 4 2#4) (.val 1) (.reg (.val 2))),
    (0x211DC0042020BFFF#64, .xor H .s32 (.val 4 2#4) (.val 1) (.reg (.val 2))),
    (0x221DEC042020BFFF#64, .shl H .s8 (.val 4 2#4) (.val 1) (.reg (.val 2))),
    (0x229DE8042020BFFF#64, .shr H .n16 (.val 4 2#4) (.val 1) (.reg (.val 2))),
    (0x231DFC042020BFFF#64, .sar H .b32 (.val 4 2#4) (.val 1) (.reg (.val 2))),
    (0x239DC4042020BFFF#64, .rotl H .n32 (.val 4 2#4) (.val 1) (.reg (.val 2))),
    (0x269DC8042020BFFF#64, .bfx H .s64 (.val 4 2#4) (.val 1) (.reg (.val 2))),
    (0x219DFD04202081E8#64, .lop3 H .b32 (.val 4 2#4) (.val 1) (.val 2) (.val 3) 0xE8#8),
    (0x241DC604202081FF#64, .fshf H .n32 true false (.val 4 2#4) (.val 1) (.val 2) (.val 3)),
    (0x249DCC04203FFFFF#64, .popc H .n64 (.val 4 2#4) (.val 1)),
    (0x251DCC04203FFFFF#64, .clz H .n64 (.val 4 2#4) (.val 1)),
    (0x259DCC04203FFFFF#64, .ctz H .n64 (.val 4 2#4) (.val 1)),
    (0x261DCC04203FFFFF#64, .brev H .n64 (.val 4 2#4) (.val 1)),
    (0x271DFC04202081FF#64, .bfi H .b32 (.val 4 2#4) (.val 1) (.val 2) (.val 3)),
    (0x279DFC04202081FF#64, .perm H (.val 4 2#4) (.val 1) (.val 2) (.val 3))] = true := by decide

theorem test_decode_prd : decodesTo [
    (0x301DC20200208182#64, .isetp H .s32 2 (.val 1) (.reg (.val 2) .lt (.or ({ neg := false, p := 3 })))),
    (0x305DCF0200200005#64, .isetp H .n64 2 (.val 1) (.imm 5#16 .ge)),
    (0x309DD8060020BF8C#64, .fsetp H .bf16 6 (.val 1) (.val 2) .gtu .none),
    (0x311DFD010042C216#64, .plop H 1 ({ neg := false, p := 2 }) ({ neg := true, p := 3 }) ({ neg := false, p := 4 }) 0x96#8),
    (0x319DF404202086FF#64, .sel H .i4s (.val 4 2#4) (.val 1) (.val 2) ({ neg := true, p := 5 })),
    (0x321DC4042FFFFFFF#64, .p2v H (.val 4 2#4)),
    (0x32DDFC7F0020007F#64, .v2p H (.val 1) (.imm 0x7F#16))] = true := by decide

theorem test_decode_flt : decodesTo [
    (0x401DD0042020BFFF#64, .fadd H .f32 .rne (.val 4 2#4) (.val 1) (.reg (.val 2))),
    (0x409DD5042020BFFF#64, .fsub H .f16 .rz (.val 4 2#4) (.val 1) (.reg (.val 2))),
    (0x411DDA042020BFFF#64, .fmul H .bf16 .rup (.val 4 2#4) (.val 1) (.reg (.val 2))),
    (0x405DD00420203FC0#64, .fadd H .f32 .rne (.val 4 2#4) (.val 1) (.imm 0x3FC0#16)),
    (0x419DD304202081FF#64, .ffma H .f32 .rdn (.val 4 2#4) (.val 1) (.val 2) (.val 3)),
    (0x421DD1042020BFFF#64, .fmin H .f32 true (.val 4 2#4) (.val 1) (.reg (.val 2))),
    (0x429DD4042020BFFF#64, .fmax H .f16 false (.val 4 2#4) (.val 1) (.reg (.val 2))),
    (0x431DD904203FFFFF#64, .frnd H .bf16 .rz (.val 4 2#4) (.val 1)),
    (0x439DD0042020BFFF#64, .fscale H .f32 .rne (.val 4 2#4) (.val 1) (.val 2)),
    (0x441DD404203FFFFF#64, .fclass H .f16 (.val 4 2#4) (.val 1)),
    (0x449DD604202081FF#64, .fdot2 H .f16 .rup (.val 4 2#4) (.val 1) (.val 2) (.val 3))] = true := by decide

theorem test_decode_cvt : decodesTo [
    (0x501DDC09111FFF94#64, .cvt H .e4m3 .rne (.val 9 1#4) (.val 8) { sel := 0, sat := true, sty := .f32 }),
    (0x509DD5042020BFA9#64, .cvtpk H .f16 .rz (.val 4 2#4) (.val 1) (.val 2) { sel := 1, sat := false, sty := .s16 }),
    (0x511DEC04202081B4#64, .cvt8pk H .s8 .rne (.val 4 2#4) (.val 1) (.val 2) (some (.val 3)) { sel := 1, sat := true, sty := .f32 }),
    (0x519DD804203FFFED#64, .cvtupk H .bf16 .rne (.val 4 2#4) (.val 1) { sel := 3, sat := false, sty := .i4s }),
    (0x521DD00420208187#64, .qblk H .f32 .rne (.val 4 2#4) (.val 1) (.val 2) (.val 3) 7),
    (0x529DD8042020BF81#64, .dqblk H .bf16 .rne (.val 4 2#4) (.val 1) (.val 2) 1)] = true := by decide

theorem test_decode_sfu : decodesTo [
    (0x601DD004107FFFFF#64, .rcp H (.val 4 1#4) (.val 3)),
    (0x609DD004107FFFFF#64, .rsq H (.val 4 1#4) (.val 3)),
    (0x611DD004107FFFFF#64, .sqrt H (.val 4 1#4) (.val 3)),
    (0x619DD004107FFFFF#64, .exp2 H (.val 4 1#4) (.val 3)),
    (0x621DD004107FFFFF#64, .log2 H (.val 4 1#4) (.val 3)),
    (0x629DD004107FFFFF#64, .sinpi H (.val 4 1#4) (.val 3)),
    (0x631DD004107FFFFF#64, .cospi H (.val 4 1#4) (.val 3)),
    (0x639DD004107FFFFF#64, .tanh H (.val 4 1#4) (.val 3)),
    (0x641DC4042FFFFFFF#64, .rnd H (.val 4 2#4)),
    (0x649DD0042FFFFFFF#64, .rndf H (.val 4 2#4))] = true := by decide

theorem test_decode_xln : decodesTo [
    (0x701DD6042020BFFF#64, .xshf H .f16 .down (.val 4 2#4) (.val 1) (.reg (.val 2))),
    (0x70DDCC0420200001#64, .xbfly H .n64 (.val 4 2#4) (.val 1) (.imm 1#16)),
    (0x711DFC042020BFFF#64, .xbcast H .b32 (.val 4 2#4) (.val 1) (.reg (.val 2))),
    (0x719DD00610BFFF80#64, .redx H .f32 (.val 6 1#4) (.val 5) .add),
    (0x721DC804203FFF8A#64, .scanx H .s64 (.val 4 2#4) (.val 1) .max true),
    (0x729DFD03015FFFFF#64, .vote H (.any 3) ({ neg := true, p := 2 })),
    (0x729DCF04205FFF81#64, .vote H (.ballot (.val 4 2#4) true) ({ neg := false, p := 2 })),
    (0x731DCC04203FFF80#64, .xmatch H true (.val 4 2#4) (.val 1) false),
    (0x739DFC010FFFFFFF#64, .elect H 1),
    (0x741DC704209FFFFF#64, .xcount H (.val 4 2#4) (.predBelow ({ neg := false, p := 4 })))] = true := by decide

theorem test_decode_cel : decodesTo [
    (0x805DC0042FE00064#64, .mov H .s32 (.val 4 2#4) (.imm 100#16)),
    (0x801DCC711EFFFFFF#64, .mov H .n64 (.push .mxc) (.reg (.pop .st1))),
    (0x80DDFC7F00A00001#64, .drop H 5 1#4),
    (0x815DFC7F0DE0000E#64, .keep H 111 14#4),
    (0x819DFC7F001FFFFF#64, .free H 0),
    (0x821DC8042020BFFF#64, .pair H .s64 (.val 4 2#4) (.val 1) (.val 2)),
    (0x829DCC6E203FFFFF#64, .split H .n64 110 2#4 (.val 1)),
    (0x831DFE0420FFFFFF#64, .cellq H (.val 4 2#4) (.pch 7)),
    (0x831DFF042FFFFFFF#64, .cellq H (.val 4 2#4) .lane)] = true := by decide

theorem test_decode_mem : decodesTo [
    (0x901DCB042020BFFF#64, .ld H .s64 .counted (.val 4 2#4) (.reg (.val 1) (.val 2) true) 63),
    (0x905DF1042F000040#64, .ld H .n8 .stream (.val 4 2#4) (.imm (.spec .zero) 0x40#16) 0),
    (0x909DFE7F00208180#64, .st H .b32 .keep (.val 1) (.val 2) false (.val 3)),
    (0x911DD7042020BF80#64, .lds H .f16 true (.val 4 2#4) (.reg (.val 1) (.val 2) false)),
    (0x919DEC7F003E41C0#64, .sts H .s8 (.val 1) (.spec .lane) true (.val 3)),
    (0x925DE80420200008#64, .ldp H .n16 (.val 4 2#4) (.imm (.val 1) 8#16)),
    (0x929DFC6E2020BF80#64, .ldv H .plain 110 2#4 (.reg (.val 1) (.val 2) false) 0),
    (0x931DFC7F00208340#64, .stv H .plain (.val 1) (.val 2) true 6),
    (0x939DFE7F00208180#64, .pfl H .keep (.reg (.val 1) (.val 2) false) (some (.val 3)))] = true := by decide

theorem test_decode_atm : decodesTo [
    (0xA01DD4042020BFF7#64, .atom H .f16 (.val 4 2#4) (.val 1) (.val 2) .fadd 7),
    (0xA09DFC7F0020BFA6#64, .ared H .b32 (.val 1) (.val 2) .exch 2),
    (0xA11DCC0420208190#64, .acas H .n64 (.val 4 2#4) (.val 1) (.val 2) (.val 3) 1),
    (0xA19DC00420208183#64, .await H .s32 (.val 4 2#4) (.val 1) (.val 2) (.val 3) .lt 0),
    (0xA25DFC7F0FE00016#64, .fence H .rel 5),
    (0xA29DC47F0020BFA0#64, .cntdec H (.val 1) (.val 2) 2),
    (0xA31DC47F0020BFA0#64, .bararv H .nul (.val 1) (.val 2) 2),
    (0xA39DC404202081A0#64, .barwt H (.val 4 2#4) (.val 1) (.val 2) (.val 3) 2)] = true := by decide

theorem test_decode_cpy : decodesTo [
    (0xB01DFD7F0020A87F#64, .cpy H .stream (.val 1) (.val 2) .b16 true false),
    (0xB09DFC73102081FF#64, .cpyb H (.val 1) (.val 2) (.val 3) none),
    (0xB11DFC7310208185#64, .cploop H (.val 1) (.val 2) (.val 3) (some (.val 5))),
    (0xB1DDC5042FE0002F#64, .cpstat H true (.val 4 2#4) (.imm 0x2F#16)),
    (0xB21DFC7F002081FF#64, .gmap H (.val 1) (.val 2) (.val 3)),
    (0xB2DDFC7F0FE0000F#64, .gunmap H (.imm 15#16)),
    (0xB31DFC7F003FFFFF#64, .gflush H (.reg (.val 1))),
    (0xB3DDFC7F0FE00000#64, .ginv H (.imm 0#16)),
    (0xB41DFC7F003FFFFF#64, .ringcfg H (.reg (.val 1))),
    (0xB45DFD7F0FE00003#64, .ringcfgOff H (.imm 3#16)),
    (0xB4DDFC7F0FE00003#64, .rrel H (.imm 3#16)),
    (0xB55DFC7F0FE08102#64, .stbind H (.imm 0x8102#16))] = true := by decide

theorem test_decode_mtx : decodesTo [
    (0xC01DF97113DFFF83#64, .mwld H .bfp true (.val 30) 3),
    (0xC09DFC711FFFFFFF#64, .mwswap H),
    (0xC11DEC7110208185#64, .mloop H .s8 (.val 1) (.val 2) (.val 3) (.val 5)),
    (0xC11DFD7F0FFFFFFF#64, .mloopResume H),
    (0xC11DFE7F0FFFFFFF#64, .mloopAbort H),
    (0xC19DFC711020BFFF#64, .maccld H (.val 1) (.val 2)),
    (0xC21DFC711020BFFF#64, .maccst H (.val 1) (.val 2)),
    (0xC29DFC71102081FF#64, .mdrain H (.val 1) (.val 2) (.val 3)),
    (0xC31DFC71102081FF#64, .mepi H (.val 1) (.val 2) (.val 3)),
    (0xC39DFC7F0FFFFFFF#64, .mwait H),
    (0xC41DFC711FFFFFFF#64, .mzero H),
    (0xC4DDC4042FE00002#64, .mstat H (.val 4 2#4) 2)] = true := by decide

theorem test_decode_tsk : decodesTo [
    (0xD05DC47F0FE00003#64, .tjoin H (.imm 3#16)),
    (0xD09DC47F00BFFFFF#64, .tleave H (.reg (.val 5))),
    (0xD15DC47F0FE0003F#64, .tbar H (.imm 63#16)),
    (0xD19DFC7F0FFFFFFF#64, .gbar H),
    (0xD21DFC7F00DFFFFF#64, .tsubmit H (.val 6)),
    (0xD29DC4042020BFFF#64, .tdepadd H (.val 4 2#4) (.val 1) (.val 2)),
    (0xD31DCC7F002081FF#64, .tsignal H (.val 1) (.val 2) (.val 3)),
    (0xD3DDCC042FE00004#64, .tself H (.val 4 2#4) 4),
    (0xD41DCC042020BFFF#64, .cvswap H (.val 4 2#4) (.val 1) (.val 2)),
    (0xD49DFC7F00C1FFFF#64, .lstart H (.val 6) (.val 7)),
    (0xD51DC47F00253FFF#64, .lesc H (.val 1) (some 20)),
    (0xD59DC47F003FFFFF#64, .lres H (.val 1)),
    (0xD65DC4042FE0001F#64, .lframe H (.val 4 2#4) 31),
    (0xD6DDCC042FE00006#64, .lstat H (.val 4 2#4) 6)] = true := by decide

theorem test_decode_sys : decodesTo [
    (0xE05DFC7F0FE00021#64, .trap H 0x21#16),
    (0xE09DFC7F0FFFFFFF#64, .eret H),
    (0xE15DCC051FE0000B#64, .sysrd H true (.val 5 1#4) (.imm 0x0B#16)),
    (0xE19DC47F0020BFFF#64, .syswr H false (.val 1) (.reg (.val 2))),
    (0xE21DFD7F0FFFFFFF#64, .icinv H none),
    (0xE21DFC7F0020BFFF#64, .icinv H (some ((.val 1), (.val 2)))),
    (0xE29DC4042FFFFFFF#64, .ppoll H (.val 4 2#4)),
    (0xE35DFC7F0FE0BEEF#64, .bkpt H 0xBEEF#16)] = true := by decide

/-- R63, R145, R158: words of LD, LDS, LDP, ATOM, ACAS, AWAIT and BARWT with DST = nul and RDC = 0 (R61: bits [38:32] and [31:28]) are outside their rows. -/
theorem test_nul_destination : ([0x901DCB7F0020BFFF#64, 0x911DD77F0020BF80#64, 0x925DE87F00200008#64, 0xA01DD47F0020BFF7#64, 0xA11DCC7F00208190#64,
    0xA19DC07F00208183#64, 0xA39DC47F002081A0#64].all (fun x => decode x == .error (.illop 3))) = true := by decide

/-! ## Well-formedness -/

def dv : Dst := .val 4 2#4
def d0 : Dst := .val 4 0#4
def va : Src := .val 1
def refused (l : List Instr) : Bool := l.all (fun i => !i.wf)

/-- R63: a binding destination carries a read count of 1 to 15. -/
theorem test_wf_read_count : refused [.iadd H .s32 d0 va (.reg va), .isad H .s32 d0 va va va, .idot4 H true true d0 va va va,
    .idot8 H true true d0 va va va, .lea H d0 va (.imm 0), .and H .b32 d0 va (.reg va), .lop3 H .b32 d0 va va va 0,
    .shl H .b32 d0 va (.reg va), .fshf H .b32 true true d0 va va va, .popc H .b32 d0 va, .bfi H .b32 d0 va va va,
    .perm H d0 va va va, .sel H .b32 d0 va va H.ga, .p2v H d0, .fadd H .f32 .rne d0 va (.reg va), .ffma H .f32 .rne d0 va va va,
    .frnd H .f32 .rne d0 va, .fclass H .f32 d0 va, .fdot2 H .f16 .rne d0 va va va, .cvt H .f32 .rne d0 va ⟨0, false, .f16⟩,
    .dqblk H .f32 .rne d0 va va 1, .rcp H d0 va, .rnd H d0, .rndf H d0, .xshf H .b32 .idx d0 va (.reg va),
    .redx H .s32 d0 va .add, .vote H (.ballot d0 false) H.ga, .xmatch H false d0 va false, .xcount H d0 .exec,
    .mov H .b32 d0 (.reg va), .pair H .s64 d0 va va, .split H .s64 4 0 va, .cellq H d0 .lane, .call H 4 0 0, .callx H 4 0 va,
    .ld H .s32 .plain d0 (.imm va 0) 0, .lds H .s32 false d0 (.imm va 0), .ldp H .s32 d0 (.imm va 0),
    .ldv H .plain 4 0 (.imm va 0) 0, .atom H .s32 d0 va va .add 0, .acas H .s32 d0 va va va 0,
    .await H .s32 d0 va va va .eq 0, .barwt H d0 va va va 0, .cpstat H false d0 (.imm 0), .mstat H d0 0, .tself H d0 0,
    .cvswap H d0 va va, .lframe H d0 0, .lstat H d0 0, .sysrd H false d0 (.imm 0), .ppoll H d0, .qblk H .f32 .rne d0 va va va 1,
    .bararv H d0 va va 0, .tdepadd H d0 va va, .iabs H .s32 d0 va, .imadw H .s64 d0 va va va, .iaddc H .n32 d0 va va H.ga 1,
    .imad H .s32 d0 va va va, .bfx H .b32 d0 va (.reg va), .cvtpk H .f16 .rne d0 va va ⟨0, false, .f32⟩,
    .cvt8pk H .s8 .rne d0 va va (some va) ⟨0, false, .f32⟩, .cvtupk H .f16 .rne d0 va ⟨0, false, .i4s⟩] = true := by decide

/-- R197, R217, R224, R230, R145, R158, R253: the element types of each family. -/
theorem test_wf_types : refused [.iadd H .f32 dv va (.reg va), .imad H .b32 dv va va va, .imadw H .s32 dv va va va,
    .iaddc H .s32 dv va va H.ga 1, .iabs H .b32 dv va, .isad H .s64 dv va va va, .and H .s8 dv va (.reg va),
    .lop3 H .f32 dv va va va 0, .shl H .f16 dv va (.reg va), .fshf H .s32 true true dv va va va, .popc H .s8 dv va,
    .bfi H .s16 dv va va va, .isetp H .s8 1 va (.reg va .eq .none), .fsetp H .s32 1 va va .eq .none, .sel H .bfp dv va va H.ga,
    .fadd H .s32 .rne dv va (.reg va), .ffma H .e4m3 .rne dv va va va, .fmin H .b32 false dv va (.reg va), .frnd H .s32 .rne dv va,
    .fscale H .bfp .rne dv va va, .fclass H .n8 dv va, .fdot2 H .f32 .rne dv va va va, .cvt H .b32 .rne dv va ⟨0, false, .f16⟩,
    .cvtpk H .f32 .rne dv va va ⟨0, false, .f16⟩, .cvt8pk H .f16 .rne dv va va none ⟨0, false, .f16⟩,
    .cvtupk H .s8 .rne dv va ⟨0, false, .i4s⟩, .qblk H .s32 .rne dv va va va 1, .dqblk H .b32 .rne dv va va 1,
    .xshf H .bfp .idx dv va (.reg va), .redx H .b32 dv va .add, .redx H .f32 dv va .and, .mov H .bfp dv (.reg va),
    .pair H .s32 dv va va, .split H .n32 4 1 va, .ld H .bfp .plain dv (.imm va 0) 0, .st H .bfp .plain va va false va,
    .lds H .bfp false dv (.imm va 0), .sts H .bfp va va false va, .ldp H .s64 dv (.imm va 0), .atom H .s8 dv va va .add 0,
    .atom H .f32 dv va va .min 0, .ared H .s32 va va .fadd 0, .acas H .f32 dv va va va 0, .await H .b32 dv va va va .ge 0,
    .mwld H .s32 false va 0, .mloop H .f32 va va va va] = true := by decide

/-- R64, R199, R225, R147, R206: immediates, literals and the fields beside them. -/
theorem test_wf_fields : refused [.mov H .i4s dv (.imm 8), .mov H .i4s dv (.imm 16), .isetp H .s32 1 va (.imm 0 .le),
    .v2p H va (.imm 128), .drop H 1 15, .keep H 1 0, .keep H 1 15, .cvt H .f32 .rne dv va ⟨1, false, .s32⟩,
    .cvt H .f32 .rne dv va ⟨0, false, .bfp⟩, .cvt8pk H .s8 .rne dv va va none ⟨0, false, .f32⟩,
    .cvt8pk H .s8 .rne dv va va (some va) ⟨0, false, .f16⟩, .cvtupk H .f16 .rne dv va ⟨2, false, .s8⟩,
    .qblk H .f32 .rne dv va va va 0, .qblk H .f32 .rne (.push .mxa) va va va 1, .dqblk H .f32 .rne dv va va 0,
    .xshf H .b32 .idx dv (.pop .mxo) (.reg va), .xmatch H false dv (.pop .mxo) false, .call H 111 1 0,
    .split H .s64 111 1 va, .ld H .s32 .plain dv (.imm va 0) 1, .ld H .s32 .plain dv (.reg va va false) 1,
    .st H .s32 .counted va va false va, .ldv H .plain 5 1 (.imm va 0) 0, .stv H .plain va va false 5,
    .pfl H .plain (.imm va 0) (some va), .bararv H (.push .mxa) va va 0, .tdepadd H (.push .cpc) va va,
    .cpstat H false dv (.imm 1), .cpstat H false dv (.imm 0x30), .gunmap H (.imm 16), .rrel H (.imm 16), .stbind H (.imm 0x10),
    .mwld H .bfp false va 0, .mwld H .s8 false va 1, .mwld H .s8 false (.pop .mxo) 0, .mloop H .s8 (.pop .mxo) va va va,
    .maccld H (.pop .mxo) va, .mdrain H (.pop .mxo) va va, .mepi H (.pop .mxo) va va, .tjoin H (.imm 64), .tbar H (.imm 64),
    .sysrd H false dv (.imm 0x1C), .syswr H false va (.imm 0x1C), .sysrd H false .nul (.imm 0x0B), .ppoll H .nul, .mstat H .nul 0, .tself H .nul 0,
    .cvswap H (.push .mxa) va va, .cpstat H false .nul (.imm 0), .ld H .s32 .plain .nul (.imm va 0) 0, .lds H .s32 false .nul (.imm va 0),
    .ldp H .s32 .nul (.imm va 0), .atom H .s32 .nul va va .add 0, .acas H .s32 .nul va va va 0, .await H .s32 .nul va va va .eq 0,
    .barwt H .nul va va va 0] = true := by decide

/-- Each of the terms above is well formed once the field that was wrong is right. -/
theorem test_wf_accepts : [Instr.iadd H .s32 dv va (.reg va), .mov H .i4s dv (.imm 7), .drop H 1 14, .keep H 1 1,
    .cvt8pk H .s8 .rne dv va va (some va) ⟨0, false, .f32⟩, .qblk H .f32 .rne .nul va va va 1, .call H 110 1 0,
    .split H .s64 110 1 va, .ld H .s32 .counted dv (.reg va va false) 1, .ldv H .plain 4 1 (.imm va 0) 0,
    .cpstat H false dv (.imm 0x2F), .mwld H .bfp false va 1, .mwld H .s8 false va 0, .tjoin H (.imm 63),
    .sysrd H false dv (.imm 0x1B)].all Instr.wf = true := by decide

/-! ## Witnesses -/

/-! ### Words -/

theorem witness_CrossLaneWords : ∃ w r, Claim.crossWord (.xshf H .s32 .idx (.val 20 1#4) (.val 1) (.imm 0#16)) = some (w, r) ∧ Ready w w0 g0 :=
  ⟨_, _, rfl, ready_of (by decide)⟩

theorem witness_CellValueWords : ∃ w r, Claim.cellValueWord w0 (.mov H .s32 (.val 20 1#4) (.reg (.val 1))) = some (w, r) ∧ Ready w w0 g0 :=
  ⟨_, _, rfl, ready_of (by decide)⟩

theorem witness_IntegerGroup :
    (∃ w r, Claim.intWord (.iadd H .s32 (.val 20 1#4) (.val 1) (.reg (.val 2))) = some (w, r) ∧ Ready w w0 g0)
    ∧ (ElemTy.inI .s8 = true ∧ 3 < ElemTy.elems .s8) ∧ ElemTy.in64 .s64 = true ∧ ElemTy.inN .n64 = true ∧ ElemTy.inSad .n16 = true :=
  ⟨⟨_, _, rfl, ready_of (by decide)⟩, by decide, by decide, by decide, by decide⟩

theorem witness_BitGroup :
    (∃ w r, Claim.bitWord (.and H .n64 (.val 20 1#4) (.val 3) (.imm 15#16)) = some (w, r) ∧ Ready w w0 g0)
    ∧ ElemTy.inB .b32 = true ∧ (ElemTy.inIB .n16 = true ∧ 1 < ElemTy.elems .n16 ∧ 15 < ElemTy.bits .n16) ∧ ElemTy.inB .s64 = true ∧ 63 < ElemTy.bits .s64 :=
  ⟨⟨_, _, rfl, ready_of (by decide)⟩, by decide, by decide, by decide, by decide⟩

theorem witness_PredicateFloatAndConversionWords :
    (∃ w r, Claim.predWord (.isetp H .s32 2 (.val 1) (.reg (.val 2) .lt .none)) = some (w, r) ∧ Ready w w0 g0)
    ∧ (∃ w r, Claim.floatWord (.fadd H .f32 .rne (.val 20 1#4) (.val 1) (.reg (.val 2))) = some (w, r) ∧ Ready w w0 g0)
    ∧ (∃ w r, Claim.convWord (.cvt H .f32 .rne (.val 20 1#4) (.val 1) { sty := .s32, sel := 0, sat := false }) = some (w, r) ∧ Ready w w0 g0)
    ∧ ∃ w : Spec, w = { h := H, srcs := [Opnd.cell (.val 1), .const 3#64] } ∧ Ready w w0 g0 :=
  ⟨⟨_, _, rfl, ready_of (by decide)⟩, ⟨_, _, rfl, ready_of (by decide)⟩, ⟨_, _, rfl, ready_of (by decide)⟩, ⟨_, rfl, ready_of (by decide)⟩⟩

/-- A word of no operands is ready. -/
theorem ready_plain : Ready { h := H } w0 g0 := ready_of (by decide)

theorem bound_of {ls : List Lane} {n : Nat} {ok : Binding → Bool} (h : ls.all (fun l => match lookupName l.t n with
    | some b => ok b
    | none => false) = true) : Claim.bound ls n (fun b => ok b = true) := by
  intro l m
  have := List.all_eq_true.mp h l m
  split at this
  · exact ⟨_, ‹_›, this⟩
  · cases this

def wSticky : State := world (fun t => { t with names := [(1, { b32 5 with count := 15#4 })] })

theorem witness_BindingCounts :
    Claim.bound (lanesRead { h := H } w0 g0) 1 (fun b => decide (b.count ≠ 15#4 ∧ 2#4 ≤ b.count) = true)
    ∧ Claim.bound (lanesRead { h := H } w0 g0) 1 (fun b => decide (b.count ≠ 15#4 ∧ b.count.toNat + (11#4).toNat ≤ 14) = true)
    ∧ Ready { h := H } wSticky (grpOf wSticky)
    ∧ Claim.bound (lanesRead { h := H } wSticky (grpOf wSticky)) 1 (fun b => decide (b.count = 15#4) = true) :=
  ⟨bound_of (by decide), bound_of (by decide), ready_of (by decide), bound_of (by decide)⟩

theorem witness_BindingCounts_exhaust :
    (∃ f, Claim.exhausts (.drop H 50 1#4) = some (H, 50, f) ∧ (lanesRead { h := H } w0 g0).filter (fun l => f (lookupName l.t 50)) ≠ [])
    ∧ ((0x80DDFC7F00A0000F#64).extractLsb' 55 9 = 0x101#9 ∧ 14 < ((0x80DDFC7F00A0000F#64).extractLsb' 0 16).toNat)
    ∧ (0x815DFC7F00A00000#64).extractLsb' 55 9 = 0x102#9 ∧ (0x815DFC7F00A00000#64).extractLsb' 0 16 = 0#16 :=
  ⟨⟨_, rfl, by decide⟩, by decide, by decide⟩

theorem witness_ValueWords : ∃ w v, Claim.valueWord (.rcp H (.val 20 1#4) (.val 1)) = some (w, v) ∧ Ready w w0 g0 := ⟨_, _, rfl, ready_of (by decide)⟩

theorem witness_SfuWords : Ready (Claim.sfuSpec H (.val 20 1#4) (.val 1)) w0 g0 ∧ Ready (Claim.drawSpec H (.val 20 1#4)) w0 g0 :=
  ⟨ready_of (by decide), ready_of (by decide)⟩

def brxSpec (n : VName) : Spec := { h := H, srcs := [.src (.val n) true] }

theorem witness_TransferWords : Ready (brxSpec 5) w0 g0 ∧ (∀ l ∈ lanesRead (brxSpec 5) w0 g0, Claim.goodTarget (l.v 0))
    ∧ Ready (Claim.linkSpec H [] 20 1#4) w0 g0 ∧ Ready (Claim.linkSpec H [.src (.val 5) true] 20 1#4) w0 g0
    ∧ ∀ l ∈ lanesRead (Claim.linkSpec H [.src (.val 5) true] 20 1#4) w0 g0, Claim.goodTarget (l.v 0) :=
  ⟨ready_of (by decide), by unfold Claim.goodTarget; decide, ready_of (by decide), ready_of (by decide), by unfold Claim.goodTarget; decide⟩

theorem witness_MisalignedTargetTraps : (∃ l ls, Ready (brxSpec 6) w0 g0 ∧ lanesRead (brxSpec 6) w0 g0 = l :: ls ∧ ∀ x ∈ l :: ls, (x.v 0).extractLsb' 0 3 ≠ 0#3)
    ∧ ∃ l ls, Ready (Claim.linkSpec H [.src (.val 6) true] 20 1#4) w0 g0 ∧ lanesRead (Claim.linkSpec H [.src (.val 6) true] 20 1#4) w0 g0 = l :: ls
      ∧ ∀ x ∈ l :: ls, (x.v 0).extractLsb' 0 3 ≠ 0#3 := ⟨⟨_, _, ready_of (by decide), rfl, by decide⟩, _, _, ready_of (by decide), rfl, by decide⟩

theorem witness_ExitEnds : ∀ l ∈ lanesRead { h := H } w0 g0, l.t.rung = none := by decide

def wIlk : State := w0.updCtx 0 (fun c => { c with cfg := 0x4800000000000000#64 })
def wFlag : State := world (fun t => { t with flags := 1 :: List.replicate 11 0 })
def wIssued (f : Thread → Thread) : State :=
  (world f).updEntry 0 3 (fun e => { e with run := e.run.map (fun r => { r with issued := true }) })
def loadOp : Op :=
  { id := 90, issue := 90, tid := 0, core := 0, ctx := 0, pc := 0#64, va := 0x20080#64, kind := .load (.l1 0x20080) 4 0 .plain 0, toks := [],
    seta := none, setb := none, result := none, issuedAt := 0 }
def storeOp : Op := { loadOp with kind := .store (.l1 0x20080) 4 .plain 7#128 }
def wStoring : State := { w0 with ops := [{ storeOp with kind := .store (.home 0x30000) 8 .plain 7#128 }] }
def wIlkOut : State := { wIlk with ops := [storeOp] }
def mwaitSpec : Spec := { h := H, mtx := true }

theorem witness_WaitWords_waitf : w0.ilk g0.ctx = false ∧ (∀ l ∈ lanesRead { h := H } w0 g0, ∀ f < 12, (9#12).getLsbD f = true → flagOf l.t f = 0)
    ∧ Ready { h := H } wFlag (grpOf wFlag) ∧ wFlag.ilk (grpOf wFlag).ctx = false
    ∧ (∃ l ∈ lanesRead { h := H } wFlag (grpOf wFlag), ∃ f < 12, (9#12).getLsbD f = true ∧ flagOf l.t f ≠ 0)
    ∧ Ready { h := H } wIlk (grpOf wIlk) ∧ wIlk.ilk (grpOf wIlk).ctx = true ∧ (∀ l ∈ lanesRead { h := H } wIlk (grpOf wIlk), effectsOut wIlk l.t = false)
    ∧ Ready { h := H } wIlkOut (grpOf wIlkOut) ∧ wIlkOut.ilk (grpOf wIlkOut).ctx = true
    ∧ (∃ l ∈ lanesRead { h := H } wIlkOut (grpOf wIlkOut), effectsOut wIlkOut l.t = true) :=
  ⟨by decide, by decide, ready_of (by decide), by decide, by decide, ready_of (by decide), by decide, by decide, ready_of (by decide), by decide, by decide⟩

theorem witness_WaitWords_nap : g0.run.issued = false ∧ lanesRead { h := H } w0 g0 ≠ []
    ∧ (wIssued id).grp = some (grpOf (wIssued id)) ∧ (grpOf (wIssued id)).run.issued = true ∧ ∀ t ∈ (grpOf (wIssued id)).mem, t.nap = none := by decide

theorem witness_WaitWords_fence : (∀ l ∈ lanesRead { h := H } w0 g0, fenceHolds (afterReads { h := H } w0 g0) .full l.t = true)
    ∧ Ready { h := H } wStoring (grpOf wStoring)
    ∧ (∃ l ∈ lanesRead { h := H } wStoring (grpOf wStoring), fenceHolds (afterReads { h := H } wStoring (grpOf wStoring)) .rel l.t = false)
    ∧ Ready mwaitSpec w0 g0 ∧ ∀ c ∈ (w0.core g0.core).array.commands, ∀ p ∈ c.pushers, ∀ l ∈ lanesRead mwaitSpec w0 g0, l.t.id ≠ p.1 :=
  ⟨by decide, ready_of (by decide), by decide, ready_of (by decide), by decide⟩

def wTeam : State := (world (fun t => { t with teams := 0x20#64 })).updGang 2 (fun g => { g with
  teams := [{ id := 5, size := 1, members := [0], arrived := [], urgency := 0, firstAt := 0, lastAt := 0 }] })
def teamSpec : Spec := Claim.idSpec H (.imm 5#16)
def badSpec : Spec := Claim.idSpec H (.reg (.val 11))

theorem freed_of {s : State} {l : List Thread} (h : l.all (fun t => match s.thread t.id with
    | some u => u.bar.isNone
    | none => true) = true) : ∀ t ∈ l, ∀ u, s.thread t.id = some u → ∀ b, u.bar ≠ some (b, false) := by
  intro t m u hu b hb
  have := List.all_eq_true.mp h t m
  simp [hu, hb] at this

theorem witness_TeamWords : Ready teamSpec w0 g0 ∧ (∀ l ∈ lanesRead teamSpec w0 g0, Claim.teamId l ≤ 63 ∧ l.t.teams.getLsbD (Claim.teamId l) = false)
    ∧ Ready teamSpec wTeam (grpOf wTeam) ∧ (grpOf wTeam).run.issued = false
    ∧ (∀ l ∈ lanesRead teamSpec wTeam (grpOf wTeam), Claim.teamId l ≤ 63 ∧ l.t.teams.getLsbD (Claim.teamId l) = true)
    ∧ (wIssued id).grp = some (grpOf (wIssued id)) ∧ (grpOf (wIssued id)).run.issued = true
    ∧ (∀ t ∈ (grpOf (wIssued id)).mem, ∀ u, (wIssued id).thread t.id = some u → ∀ b, u.bar ≠ some (b, false))
    ∧ (∀ l ∈ lanesRead teamSpec wTeam (grpOf wTeam), (afterReads teamSpec wTeam (grpOf wTeam)).released l.t = true)
    ∧ Ready { h := H } wStoring (grpOf wStoring) ∧ (grpOf wStoring).run.issued = false
    ∧ ∃ l ∈ lanesRead { h := H } wStoring (grpOf wStoring), (afterReads { h := H } wStoring (grpOf wStoring)).released l.t = false :=
  ⟨ready_of (by decide), by unfold Claim.teamId; decide, ready_of (by decide), by decide, by unfold Claim.teamId; decide, by decide, by decide,
    freed_of (by decide), by decide, ready_of (by decide), by decide, by decide⟩

theorem witness_TeamFaults : (∃ l ls, lanesRead teamSpec wTeam (grpOf wTeam) = l :: ls ∧ ∀ x ∈ l :: ls, Claim.teamId x ≤ 63 ∧ x.t.teams.getLsbD (Claim.teamId x) = true)
    ∧ (∃ l ls, lanesRead teamSpec w0 g0 = l :: ls ∧ ∀ x ∈ l :: ls, Claim.teamId x ≤ 63 ∧ x.t.teams.getLsbD (Claim.teamId x) = false)
    ∧ ∃ l ls, Ready badSpec w0 g0 ∧ lanesRead badSpec w0 g0 = l :: ls ∧ ∀ x ∈ l :: ls, 63 < Claim.teamId x :=
  ⟨⟨_, _, rfl, by unfold Claim.teamId; decide⟩, ⟨_, _, rfl, by unfold Claim.teamId; decide⟩, _, _, ready_of (by decide), rfl, by unfold Claim.teamId; decide⟩

def rdSpec (v : BitVec 16) : Spec := Claim.sysrdSpec H true (.val 20 1#4) (.imm v)
def wrSpec (n : VName) (v : BitVec 16) : Spec := Claim.syswrSpec H true (.val n) (.imm v)
def wPriv : State := w0.updCtx 0 (fun c => { c with cfg := 0x8800000000000000#64 })

theorem witness_SystemRegisterReads : Ready (rdSpec 0x1B#16) w0 g0 ∧ Ready (rdSpec 0x13#16) w0 g0
    ∧ (∀ l ∈ lanesRead (rdSpec 0x1B#16) w0 g0, elemAt 32 0 (l.v 0) ≤ 0x1B) ∧ Claim.noConversion (lanesRead (rdSpec 0x13#16) w0 g0) 0
    ∧ (w0.core 0).array.gang = some 2 ∧ (State.reset.core 0).array.gang = none :=
  ⟨ready_of (by decide), ready_of (by decide), by decide, by unfold Claim.noConversion; decide, rfl, rfl⟩

theorem witness_SystemRegisterWrites : Ready (wrSpec 5 0x19#16) w0 g0 ∧ Ready (wrSpec 1 0x06#16) wPriv (grpOf wPriv)
    ∧ (∀ l ∈ lanesRead (wrSpec 5 0x19#16) w0 g0, elemAt 32 0 (l.v 1) ≤ 0x1B ∧ (Claim.privileged (elemAt 32 0 (l.v 1)) → w0.priv l.t.ctx = true)
      ∧ (elemAt 32 0 (l.v 1) = 0x19 ∨ elemAt 32 0 (l.v 1) = 0x1A → (l.v 0).extractLsb' 48 16 = 0#16 ∧ (l.v 0).extractLsb' 0 3 = 0#3))
    ∧ (∀ l ∈ lanesRead (wrSpec 1 0x06#16) wPriv (grpOf wPriv), elemAt 32 0 (l.v 1) ≤ 0x1B ∧ (Claim.privileged (elemAt 32 0 (l.v 1)) → wPriv.priv l.t.ctx = true)
      ∧ (elemAt 32 0 (l.v 1) = 0x19 ∨ elemAt 32 0 (l.v 1) = 0x1A → (l.v 0).extractLsb' 48 16 = 0#16 ∧ (l.v 0).extractLsb' 0 3 = 0#3))
    ∧ Claim.noConversion (lanesRead (wrSpec 5 0x19#16) w0 g0) 1 ∧ Claim.noConversion (lanesRead (wrSpec 1 0x06#16) wPriv (grpOf wPriv)) 1 :=
  ⟨ready_of (by decide), ready_of (by decide), by unfold Claim.privileged; decide, by unfold Claim.privileged; decide, by unfold Claim.noConversion; decide,
    by unfold Claim.noConversion; decide⟩

theorem witness_PrivilegedWriteTraps : ∃ l ls, Ready (wrSpec 1 0x06#16) w0 g0 ∧ lanesRead (wrSpec 1 0x06#16) w0 g0 = l :: ls
    ∧ ∀ x ∈ l :: ls, Claim.privileged (elemAt 32 0 (x.v 1)) ∧ w0.priv x.t.ctx = false := ⟨_, _, ready_of (by decide), rfl, by unfold Claim.privileged; decide⟩

theorem witness_WrittenRegisterReadsBack : ∃ t ∈ w0.threads, t.ctx < w0.contexts.length ∧ w0.thread t.id = some t := by
  exact ⟨_, List.mem_cons_self, by decide, rfl⟩

theorem witness_InstructionCacheInvalidates : lanesRead { h := H } w0 g0 ≠ []
    ∧ Ready { h := H, srcs := [.src (.val 5) true, .src (.val 1) false] } w0 g0 := ⟨by decide, ready_of (by decide)⟩

def wGrant : State := w0.updCtx 0 (fun c => { c with dbg := 0x8000000000000000#64 })
def wHandler : State := world (fun t => { t with trap := { t.trap with th := true } })

theorem witness_TrapWords : Ready { h := H } wGrant (grpOf wGrant) ∧ grantActive (afterReads { h := H } wGrant (grpOf wGrant)) (grpOf wGrant).ctx = true ∧ grantActive (afterReads { h := H } w0 g0) g0.ctx = false ∧ Ready { h := H } wHandler (grpOf wHandler)
    ∧ (∀ l ∈ lanesRead { h := H } wHandler (grpOf wHandler), l.t.trap.th = true)
    ∧ ∃ l ls, lanesRead { h := H } w0 g0 = l :: ls ∧ ∀ x ∈ l :: ls, x.t.trap.th = false :=
  ⟨ready_of (by decide), by decide, by decide, ready_of (by decide), by decide, _, _, rfl, by decide⟩

/-! ### Taking a fault -/

def tvec : State := w0.updCtx 0 (fun c => { c with trapvec := 0x10040#64 })
def flt (code : Nat) : Flt :=
  { code := code, sub := 1, addr := 0#64, mask := [0], epc := 0x10008#64, back := none, defer := false, src := 0 }

set_option maxRecDepth 4000 in
theorem witness_TrapEntry : ∃ t, tvec.thread 0 = some t ∧ t.exited = false ∧ t.trap.th = false ∧ (flt 5).kills = false ∧ (flt 5).fails = false ∧ (tvec.ctx t.ctx).trapvec ≠ 0#64
    ∧ (flt 5).mask = [t.id] ∧ t.core < tvec.cores.length := ⟨_, rfl, by decide⟩

/-- A fault in a handler; one of disposition F outside a handler; another where TRAPVEC is 0. -/
theorem witness_FaultFailsTask : (∃ t, wHandler.thread 0 = some t ∧ t.trap.th = true) ∧ (∃ t, tvec.thread 0 = some t ∧ t.trap.th = false)
    ∧ (flt 0x0D).kills = false ∧ (flt 0x0D).fails = true ∧ (flt 5).fails = false ∧ (w0.ctx 0).trapvec = 0#64 := ⟨⟨_, rfl, by decide⟩, ⟨_, rfl, by decide⟩, by decide⟩

/-! ### Memory words -/

theorem witness_MemoryWords :
    (∃ f, Claim.loadForm (.ld H .s32 .plain (.val 20 1#4) (.imm (.val 3) 4#16) 0) = some f ∧ Ready f.w w0 g0
      ∧ ∀ l ∈ lanesRead f.w w0 g0, Claim.placed (afterReads f.w w0 g0) f.stash false f.n l (memEa f.m f.n l) (.l1 0x20084))
    ∧ (∃ f, Claim.loadForm (.lds H .s32 false (.val 20 1#4) (.imm (.val 10) 4#16)) = some f ∧ Ready f.w w0 g0
      ∧ ∀ l ∈ lanesRead f.w w0 g0, Claim.placed (afterReads f.w w0 g0) f.stash false f.n l (memEa f.m f.n l) (.glen 0 4))
    ∧ (∃ f, Claim.storeForm (.st H .s32 .plain (.val 3) (.val 2) false (.val 1)) = some f ∧ Ready f.w w0 g0
      ∧ ∀ l ∈ lanesRead f.w w0 g0, Claim.placed (afterReads f.w w0 g0) f.stash true f.n l (memEa f.m f.n l) (.l1 0x20088))
    ∧ (∃ f, Claim.storeForm (.sts H .s32 (.val 10) (.val 2) false (.val 1)) = some f ∧ Ready f.w w0 g0
      ∧ ∀ l ∈ lanesRead f.w w0 g0, Claim.placed (afterReads f.w w0 g0) f.stash true f.n l (memEa f.m f.n l) (.glen 0 8)) :=
  ⟨⟨_, rfl, ready_of (by decide), by unfold Claim.placed; decide⟩, ⟨_, rfl, ready_of (by decide), by unfold Claim.placed; decide⟩,
    ⟨_, rfl, ready_of (by decide), by unfold Claim.placed; decide⟩, ⟨_, rfl, ready_of (by decide), by unfold Claim.placed; decide⟩⟩

theorem witness_MemoryWordFrame : grantActive w0 g0.ctx = false := by decide

def ldpSpec : Spec := { h := H, srcs := memOpnds (.imm (.val 3) 4#16) true, dst := Dest.ofDst (.val 20 1#4) true, a := true }
def pflSpec : Spec := { h := H, srcs := memOpnds (.imm (.val 3) 4#16) true }
def pflCount : Spec := { h := H, srcs := memOpnds (.reg (.val 3) (.val 10) false) true ++ [.src (.val 2) false] }
/-- The page is known, and is not readable. -/
def wShut : State := w0.updCore 0 (fun k => { k with tlb := [{ ctx := 0, va := 0, bits := 18, walk := .leaf 0 false false true }] })

theorem witness_PrefetchAndProbe : Ready pflSpec w0 g0
    ∧ (∀ l ∈ lanesRead pflSpec w0 g0, pflLine (afterReads pflSpec w0 g0) l.t (memEa (.imm (.val 3) 4#16) 4 l) = .ok (.l1 0x20084)) ∧ Ready ldpSpec w0 g0
    ∧ ∀ l ∈ lanesRead ldpSpec w0 g0, laneGlobal (afterReads ldpSpec w0 g0) l.t.core l.t (loadAcc (memEa (.imm (.val 3) 4#16) (memWidth .s32) l) (memWidth .s32))
        = .ok (.l1 0x20084) := ⟨ready_of (by decide), by decide, ready_of (by decide), by decide⟩

theorem witness_PrefetchAndProbe_more : Ready pflCount w0 g0
    ∧ (∀ l ∈ lanesRead pflCount w0 g0, pflLine (afterReads pflCount w0 g0) l.t (memEa (.reg (.val 3) (.val 10) false) 4 l) = .ok (.l1 0x20080)) ∧ Ready ldpSpec wShut (grpOf wShut)
    ∧ ∀ l ∈ lanesRead ldpSpec wShut (grpOf wShut), Claim.probed (laneGlobal (afterReads ldpSpec wShut (grpOf wShut)) l.t.core l.t
        (loadAcc (memEa (.imm (.val 3) 4#16) (memWidth .s32) l) (memWidth .s32))) (.l1 0) (some 7) := by
  refine ⟨ready_of (by decide), by decide, ready_of (by decide), ?_⟩
  intro l hl
  obtain rfl := List.mem_singleton.1 hl
  exact ⟨4, 1, 0x20084#64, by decide, by decide⟩

def qSpec : Spec :=
  { h := H, srcs := [.src (.val 10) false, .src (.val 11) false, .src (.val 10) false], dst := Dest.ofDst .nul false, a := Dest.binds .nul, b := true }
def dqSpec : Spec := { h := H, srcs := [.src (.val 11) false, .src (.val 1) false], dst := Dest.ofDst (.val 20 1#4) false, a := true }

def allOk (l : List LaneRes) : Bool := l.all (fun x => match x with
  | .ok _ => true
  | _ => false)

theorem ok_of {l : List LaneRes} (h : allOk l = true) : ∀ x ∈ l, ∃ T, x = .ok T := by
  intro x m
  have := List.all_eq_true.mp h x m
  cases x with
  | ok t => exact ⟨t, rfl⟩
  | miss => cases this
  | bad => cases this

theorem witness_BlockConversionsIssue : Ready qSpec w0 g0 ∧ (∀ l ∈ lanesRead qSpec w0 g0, ∀ x ∈ qblkChecks (afterReads qSpec w0 g0) .f32 (5 + 1) l, ∃ T, x = .ok T)
    ∧ Ready dqSpec w0 g0 ∧ ∀ l ∈ lanesRead dqSpec w0 g0, ∀ x ∈ dqblkChecks (afterReads dqSpec w0 g0) (5 + 1) l, ∃ T, x = .ok T :=
  ⟨ready_of (by decide), fun l m => ok_of (by
      have h : ∀ l ∈ lanesRead qSpec w0 g0, allOk (qblkChecks (afterReads qSpec w0 g0) .f32 (5 + 1) l) = true := by decide
      exact h l m), ready_of (by decide), fun l m => ok_of (by
      have h : ∀ l ∈ lanesRead dqSpec w0 g0, allOk (dqblkChecks (afterReads dqSpec w0 g0) (5 + 1) l) = true := by decide
      exact h l m)⟩

theorem witness_HomeWords :
    (∃ f, Claim.atmForm (.atom H .s32 (.val 20 1#4) (.val 3) (.val 1) .add 0) = some f ∧ Ready f.w w0 g0
      ∧ ∀ l ∈ lanesRead f.w w0 g0, laneGlobal (afterReads f.w w0 g0) l.t.core l.t (wordAcc (l.v 0) f.n f.n) = .ok (.home 0x20080))
    ∧ ∃ f, Claim.taskForm (.tsignal H (.val 3) (.val 4) (.val 1)) = some f ∧ Ready f.w w0 g0
      ∧ ∀ l ∈ lanesRead f.w w0 g0, f.fits l
        ∧ laneGlobal (afterReads f.w w0 g0) l.t.core l.t (wordAcc (l.v 0) (if f.align = 128 then 128 else 8) f.align) = .ok (.home 0x20080) :=
  ⟨⟨_, rfl, ready_of (by decide), by decide⟩, _, rfl, ready_of (by decide), by decide⟩

def lsSpec : Spec := { h := H, srcs := [.src (.val 3) true, .src (.val 4) true], b := true }
def rung1 : RungState :=
  { entry := 0x10000#64, escOnly := false, grec := { threads := 1, cores := 1, arr := false, wins := [] }, nst := 0, frames := 0x20400#64,
    numbered := 0, arr := 0, taken := 0, pending := [], launches := 0 }
def ladder1 : Ladder :=
  { obj := 0x20100#64, n := 4, fsz := 16, slim := 100, res := 0x20200#64, wma := 0#64, user := 0#64, rungs := [rung1, rung1], zeroed := true,
    due := [], writes := [], nextWr := 0, finished := [], watermark := 0, wmDue := [], retired := 0, placed := 1 }
def wRung : State :=
  (world (fun t => { t with rung := some { task := 1, rung := 0, item := 2#32, seq := 0#32, frame := [] } })).updTask 1 (fun k => { k with ladder := some ladder1 })
def lescSpec (s : State) : Spec := { h := H, srcs := [.src (.val 1) false], pre := lescPre s (executing (grpOf s) H) none, extra := lescNames s none }
def lresSpec (s : State) : Spec := { h := H, srcs := [.src (.val 1) false], pre := lresPre s }

theorem witness_LadderWords : Ready lsSpec w0 g0
    ∧ (∀ l ∈ lanesRead lsSpec w0 g0, laneGlobal (afterReads lsSpec w0 g0) l.t.core l.t (wordAcc (l.v 0) 320 128) = .ok (.home 0x20080)
      ∧ laneGlobal (afterReads lsSpec w0 g0) l.t.core l.t (objAcc (l.v 1)) = .ok (.l1 0x20100))
    ∧ Ready (lescSpec wRung) wRung (grpOf wRung) ∧ (∀ l ∈ lanesRead (lescSpec wRung) wRung (grpOf wRung), bitsAt (elemAt 32 0 (l.v 0)) 31 24 = 0)
    ∧ Ready (lresSpec wRung) wRung (grpOf wRung) := ⟨ready_of (by decide), by decide, ready_of (by decide), by decide, ready_of (by decide)⟩

/-! ### Copies and windows -/

theorem witness_CopyWords : Ready (Claim.cpySpec H (.val 3) (.val 4)) w0 g0
    ∧ (∀ l ∈ lanesRead (Claim.cpySpec H (.val 3) (.val 4)) w0 g0,
      copySide (afterReads (Claim.cpySpec H (.val 3) (.val 4)) w0 g0) l.t (l.v 0) (cpyBytes .b16) (cpyBytes .b16) false false = .ok (.l1 0x20080)
      ∧ copySide (afterReads (Claim.cpySpec H (.val 3) (.val 4)) w0 g0) l.t (l.v 1) (cpyBytes .b16) (cpyBytes .b16) false true = .ok (.l1 0x20100))
    ∧ Ready { h := H, srcs := [Opnd.index (.imm 0#16)], dst := Dest.ofDst (.val 20 1#4) false, a := true } w0 g0 :=
  ⟨ready_of (by decide), by decide, ready_of (by decide)⟩

def wLoop : State := world (fun t => { t with names := t.names ++ [(14, b32 0x20004)] })

theorem witness_CopyCommandWords : (∃ w mk, Claim.commandForm (.cpyb H (.val 3) (.val 4) (.val 2) none) = some (w, mk) ∧ Ready w w0 g0
      ∧ ∀ l ∈ lanesRead w w0 g0, (mk (afterReads w w0 g0) g0 l).isSome = true)
    ∧ (∃ w mk, Claim.commandForm (.cploop H (.val 3) (.val 14) (.val 10) none) = some (w, mk) ∧ Ready w wLoop (grpOf wLoop)
      ∧ ∀ l ∈ lanesRead w wLoop (grpOf wLoop), (mk (afterReads w wLoop (grpOf wLoop)) (grpOf wLoop) l).isSome = true)
    ∧ ∀ l ∈ lanesRead (Claim.cpySpec H (.val 3) (.val 4)) w0 g0, (l.v 0).extractLsb' 0 4 = 0#4 ∧ (l.v 1).extractLsb' 0 4 = 0#4 :=
  ⟨⟨_, _, rfl, ready_of (by decide), by decide⟩, ⟨_, _, rfl, ready_of (by decide), by decide⟩, by decide⟩

def gmapSpec : Spec := { h := H, srcs := [.src (.val 3) true, .src (.val 10) false, .src (.val 8) false] }
def wGmap : State := world (fun t => { t with names := t.names.map (fun p => if p.1 = 3 then (3, b64 0x20000) else p) })

theorem witness_WindowWords : (∃ l ls, Ready gmapSpec wGmap (grpOf wGmap) ∧ (grpOf wGmap).run.issued = false ∧ lanesRead gmapSpec wGmap (grpOf wGmap) = l :: ls
      ∧ gmapFault (afterReads gmapSpec wGmap (grpOf wGmap)) l = none)
    ∧ ((wIssued id).grp = some (grpOf (wIssued id)) ∧ (grpOf (wIssued id)).run.issued = true
      ∧ ∀ x ∈ (wIssued id).gangs, ∀ r ∈ x.gmaps, ∀ t ∈ (grpOf (wIssued id)).mem, t.id ∉ r.tids)
    ∧ (∃ l ls, Ready (Claim.winSpec H true (.imm 3#16)) w0 g0 ∧ lanesRead (Claim.winSpec H true (.imm 3#16)) w0 g0 = l :: ls
      ∧ Claim.isMapped (afterReads (Claim.winSpec H true (.imm 3#16)) w0 g0) l)
    ∧ ∃ l ls x, Ready (Claim.winSpec H false (.imm 3#16)) w0 g0 ∧ lanesRead (Claim.winSpec H false (.imm 3#16)) w0 g0 = l :: ls
      ∧ Claim.isMapped (afterReads (Claim.winSpec H false (.imm 3#16)) w0 g0) l ∧ (afterReads (Claim.winSpec H false (.imm 3#16)) w0 g0).gang l.t.gang = some x :=
  ⟨⟨_, _, ready_of (by decide), by decide, rfl, by decide⟩, by decide, ⟨_, _, ready_of (by decide), rfl, by unfold Claim.isMapped; exact ⟨by decide, _, _, rfl, rfl⟩⟩,
    _, _, _, ready_of (by decide), rfl, by unfold Claim.isMapped; exact ⟨by decide, _, _, rfl, rfl⟩, rfl⟩

def cfgArg : SrcI := .imm 0x0000#16

theorem witness_StreamWords : (∃ l ls x, Ready (Claim.winSpec H false (.imm 0#16)) w0 g0 ∧ lanesRead (Claim.winSpec H false (.imm 0#16)) w0 g0 = l :: ls
      ∧ ownWindow (afterReads (Claim.winSpec H false (.imm 0#16)) w0 g0) l (Claim.winArg l % 16) = some x ∧ x.kind = .plain
      ∧ 2 ≤ stageCount x.s (bitsAt (Claim.winArg l) 7 4 + 1) ∧ ringsOn (afterReads (Claim.winSpec H false (.imm 0#16)) w0 g0) l.t.core < 8)
    ∧ (∃ l ls r, Ready (Claim.winSpec H false (.imm 4#16)) w0 g0 ∧ lanesRead (Claim.winSpec H false (.imm 4#16)) w0 g0 = l :: ls
      ∧ ringWin (afterReads (Claim.winSpec H false (.imm 4#16)) w0 g0) l.t (Claim.winArg l % 16) = some r
      ∧ ringIdle (afterReads (Claim.winSpec H false (.imm 4#16)) w0 g0) l.t.core l.t.gang (Claim.winArg l % 16) r = true)
    ∧ (∃ l ls r x, Ready (Claim.winSpec H false (.imm 2#16)) w0 g0 ∧ lanesRead (Claim.winSpec H false (.imm 2#16)) w0 g0 = l :: ls ∧ Claim.winArg l ≤ 15
      ∧ ringWin (afterReads (Claim.winSpec H false (.imm 2#16)) w0 g0) l.t (Claim.winArg l) = some r ∧ r.inuse ≠ 0
      ∧ (afterReads (Claim.winSpec H false (.imm 2#16)) w0 g0).gang l.t.gang = some x)
    ∧ ∀ l ∈ rowLeads (lanesRead (Claim.winSpec H false (.imm 0x104#16)) w0 g0), bindFault (afterReads (Claim.winSpec H false (.imm 0x104#16)) w0 g0) l = false :=
  ⟨⟨_, _, _, ready_of (by decide), rfl, rfl, rfl, by decide, by decide⟩, ⟨_, _, _, ready_of (by decide), rfl, rfl, by decide⟩,
    ⟨_, _, _, _, ready_of (by decide), rfl, by decide, rfl, by decide, rfl⟩, by decide⟩

/-! ### The array -/

def wArr (f : MtxArray → MtxArray) : State := w0.updCore 0 (fun k => { k with array := f k.array })
def cmd (k : MtxKind) : MtxCmd := { id := 80, kind := k, slot := 0, gang := 2, task := 1, ctx := 0, pushers := [(0, none)], pend := [], pc := 0x10008#64 }
/-- A loop of one step of one row: N = 1, M = 1 in the fields of R255. -/
def loopCmd (word : W32) : MtxCmd := cmd (.loop .s8 0x20100#64 0x20200#64 word 0#32)
def wPushed : State := wArr (fun a => { a with queue := [cmd .wswap] })

theorem witness_WaitWords_mwait : Ready mwaitSpec wPushed (grpOf wPushed)
    ∧ ∃ c ∈ (wPushed.core (grpOf wPushed).core).array.commands, ∃ p ∈ c.pushers, ∃ l ∈ lanesRead mwaitSpec wPushed (grpOf wPushed), l.t.id = p.1 :=
  ⟨ready_of (by decide), by decide⟩

def loop1 (word : W32) : Loop :=
  { cmd := loopCmd word, stopped := false, fcode := 0, hold := none, mark := false, epi := Epi.none, kind32 := true, tileFor := some 0, shadowFor := none, drain := [], waitOn := none, part := [] }
def wStopped : State := wArr (fun a => { a with loop := some { loop1 0#32 with stopped := true } })

theorem witness_MatrixCommandsQueue : ∃ w ok k, Claim.mtxForm (.maccld H (.val 4) (.val 8)) = some (w, ok, k) ∧ Ready w w0 g0
    ∧ ∀ l ∈ rowLeads (lanesRead w w0 g0), ok l := ⟨_, _, _, rfl, ready_of (by decide), by decide⟩

theorem witness_StoppedLoopWords : ∃ l, Ready mwaitSpec wStopped (grpOf wStopped) ∧ rowLeads (lanesRead mwaitSpec wStopped (grpOf wStopped)) = [l]
    ∧ (∀ y ∈ lanesRead mwaitSpec wStopped (grpOf wStopped), stoppedBy (afterReads mwaitSpec wStopped (grpOf wStopped)) y.t = some { loop1 0#32 with stopped := true })
    ∧ stoppedBy (afterReads mwaitSpec wStopped (grpOf wStopped)) l.t = some { loop1 0#32 with stopped := true } := ⟨_, ready_of (by decide), rfl, by decide, by decide⟩

/-! ### Events of issue -/

def hdr0 : Header := { eng := 4, cnt := 0, wait := 0#12, seta := 15, setb := 15, dist := 0, notch := false, spo := 0#16, live := 0 }
def codeLine : Line := (0x031DFC7F0FFFFFFF#64 ++ hdr0.pack).zeroExtend 1024
def atHeader (f : Entry → Entry) (t : Thread → Thread) : State := (world t).updCore 0 (fun k => { k with
  entries := [f entry0], pipeA := none, pipeB := none, icache := [{ ctx := 0, va := 512, line := 512, data := codeLine }] })
def wHead : State := atHeader id id
def clause0 : Clause := { addr := placedAt, hdr := hdr0, words := [0x031DFC7F0FFFFFFF#64], idx := 0 }
def wRdv : State := atHeader (fun e => { e with rdv := true }) id

theorem witness_IssueEvents_start : ∃ e, wHead.entry 0 3 = some e ∧ e.run = none ∧ e.own = false ∧ e.rdv = false ∧ running wHead e.ctx = true
    ∧ fetchClause wHead 0 e.ctx (wHead.members e) e.pc = .ok clause0 wHead ∧ notchStage wHead 0 e.ctx (wHead.members e) clause0.hdr e.pc = none
    ∧ ((wHead.ctx e.ctx).preempt = none ∨ clause0.hdr.notch = false) ∧ hasXln clause0 = false ∧ waitHolds wHead e.ctx (wHead.members e) clause0.hdr = true
    ∧ distHolds wHead e.ctx (wHead.members e) clause0.hdr = true ∧ (wHead.core 0).pipe (onA clause0.hdr.eng) = none :=
  ⟨entry0, rfl, rfl, rfl, rfl, by decide, rfl, by decide, by decide, by decide, by decide, by decide, by decide⟩

theorem witness_IssueEvents_rendezvous : ∃ e, wRdv.entry 0 3 = some e ∧ e.run = none ∧ e.rdv = true ∧ rowComplete wRdv 0 0 e.ctx e.pc = true :=
  ⟨{ entry0 with rdv := true }, rfl, rfl, rfl, by decide⟩

def wOld : State := atHeader (fun e => { e with ready := 1024, yieldEnd := 1 }) id
def wLate : State := { wOld with clk := 1 }

theorem witness_IssueEvents_timers : ∃ e, wLate.entry 0 3 = some e ∧ (wLate.ctx e.ctx).promise.getLsbD 0 = true ∧ e.overdueAt = none
    ∧ (wLate.ctx e.ctx).fairlim.toNat ≤ e.ready ∧ e.yieldEnd ≠ 0 ∧ e.yieldEnd ≤ wLate.clk := ⟨{ entry0 with ready := 1024, yieldEnd := 1 }, rfl, by decide⟩

def due0 : InFlight := { tok := 70, due := 0, late := true, names := [(30, b32 1)], preds := [], cvt := false }
def wDue : State := world (fun t => { t with flight := [due0] })
def wOp (o : Op) : State := { w0 with ops := [o] }
def opOf (k : OpKind) : Op := { loadOp with kind := k }
def word0 : WordReq := { pa := 0x20080, op := .atom false .add .s32 1#64, size := 4, scope := 0, cpl := false, limit := none, here := false, tried := none }

theorem witness_IssueEvents_values : (∃ t, wDue.thread 0 = some t ∧ t.flight.find? (fun f => f.tok == 70) = some due0 ∧ due0.due ≤ wDue.clk)
    ∧ ((wOp (opOf (.value 7#64))).op 90 = some (opOf (.value 7#64)))
    ∧ ((wOp { opOf (.word word0) with result := some 3 }).op 90 = some { opOf (.word word0) with result := some 3 })
    ∧ (orderAllows (wOp loadOp) loadOp = true ∧ ∃ t, (wOp loadOp).thread 0 = some t ∧ targetWaits (wOp loadOp) t 90 (settled (wOp loadOp) t 0x20080#64 (.l1 0x20080)) = false)
    ∧ orderAllows (wOp (opOf (.dqblk (0, 0x300) .f32 6 .rne 0))) (opOf (.dqblk (0, 0x300) .f32 6 .rne 0)) = true
    ∧ ∃ t, (wOp (opOf .cpwait)).thread 0 = some t ∧ (wOp (opOf .cpwait)).commandsOf t = 0 ∧ (wOp (opOf .cpwait)).copiesOf t = false :=
  ⟨⟨_, rfl, by decide, by decide⟩, by decide, by decide, ⟨by decide, _, rfl, by decide⟩, by decide, _, rfl, by decide, by decide⟩

/-- Two threads of one lane: the older is blocked on allocation in a pool that the younger fills. -/
def crowd (cells : Nat) : List (Nat × Binding) := (List.range cells).map (fun n => (n, b32 0))
def other (f : Thread → Thread) (s : State) : State :=
  { s with threads := s.threads ++ [f { Thread.atLaunch 1 0 1 0 0 1 2 1 placedAt 0 with names := [(1, b64 0)] }] }
def wBlocked : State :=
  other id ((world (fun t => { t with blocked := some { since := 0, cap := true, need := 5, arb := true } })).updCtx 0 (fun c => { c with cellcap := 16 }))
def wQuota : State :=
  other (fun t => { t with id := 3, slot := 3, parked := true, spilled := true }) (other (fun t => { t with id := 2, slot := 2, parked := true, spilled := true }) wBlocked)

theorem witness_IssueEvents_arbiter : (∃ b cap rest v, arbitrated wBlocked 0 0 = (b, cap) :: rest
      ∧ youngest ((eligible wBlocked b cap).filter (fun t => decide (0 < freePrints wBlocked t.core t.lane t.ctx))) = some v)
    ∧ ∃ b cap rest v, arbitrated wQuota 0 0 = (b, cap) :: rest
      ∧ youngest ((eligible wQuota b cap).filter (fun t => decide (0 < freePrints wQuota t.core t.lane t.ctx))) = none ∧ youngest (eligible wQuota b cap) = some v
      ∧ v.quotaDue = false := ⟨⟨_, _, _, _, rfl, rfl⟩, _, _, _, _, rfl, rfl, rfl, rfl⟩

def wVictim : State := world (fun t => { t with victimOf := some 1 })
def wParked : State := world (fun t => { t with parked := true, spilled := true })
def wNap : State := world (fun t => { t with nap := some 0 })

theorem witness_IssueEvents_cells : (∃ t, wVictim.thread 0 = some t ∧ t.victimOf = some 1 ∧ holdsPending t = false ∧ t.zombies = [])
    ∧ (∃ t, wParked.thread 0 = some t ∧ reloadable wParked t = true ∧ (∀ u ∈ wParked.laneThreads t.core t.lane, u.id < 0 → reloadable wParked u = false) ∧ t.halted = none)
    ∧ ∃ t, wNap.thread 0 = some t ∧ t.nap = some 0 ∧ 0 ≤ wNap.clk := ⟨⟨_, rfl, by decide⟩, ⟨_, rfl, by decide⟩, _, rfl, by decide⟩

/-! ### Events of the memory system -/

def stOp : Op := opOf (.store (.l1 0x20080) 4 .plain 7#128)
/-- The page of the operation's address has been retired since its check. -/
def wGone (o : Op) : State := { wOp o with retired := [2] }
def qOp : Op := opOf (.qblk (0, 0) (0, 0x300) .f32 6 .rne 0)

theorem witness_MemoryEvents_stores : ((wOp stOp).op 90 = some stOp ∧ orderAllows (wOp stOp) stOp = true
      ∧ ∃ t, (wOp stOp).thread 0 = some t ∧ targetWaits (wOp stOp) t 90 (settled (wOp stOp) t 0x20080#64 (.l1 0x20080)) = false
        ∧ accessLate (wOp stOp) stOp (settled (wOp stOp) t 0x20080#64 (.l1 0x20080)) 4 (some 7) = none)
    ∧ (∃ t, (wGone stOp).thread 0 = some t ∧ accessLate (wGone stOp) stOp (settled (wGone stOp) t 0x20080#64 (.l1 0x20080)) 4 (some 7) = some (0x0C, 3))
    ∧ (wOp qOp).op 90 = some qOp ∧ orderAllows (wOp qOp) qOp = true := ⟨⟨by decide, by decide, _, rfl, by decide, by decide⟩, ⟨_, rfl, by decide⟩, by decide, by decide⟩

/-- Window 0 shows plain mantissas of width 2 over one view line; the view range starts at the bottom of the view addresses. -/
def frw0 : Frw :=
  { Frw.reset with en := true, fmt := 1#4, w := 2#4, view := 0x010000000000#64, lines := 1#64, mpl := 0x100000#64, spl := 0x200000#64 }
def viewLine : Nat := 0x010000000000 / 128
def wView (dirty : Bool) : State := { w0 with frw := w0.frw.set 0 frw0, vale := if dirty then [{ line := viewLine, data := 0#1024, owner := 0, dirty := true }] else [] }
def wL1 : State := w0.updCore 0 (fun k => { k with l1 := [{ line := 0x401, ctx := 0, data := 0#1024, dirty := 1#128, count := none, lease := none }] })
def wWalk : State := { w0 with walks := [{ die := 0, ctx := 0, page := 7, cores := [0] }] }

theorem witness_MemoryEvents_lines : (l1Find wL1 0 0x401 ≠ none ∧ wL1.viewBusy (128 * 0x401) = false)
    ∧ (wWalk.walks.find? (fun w => w.die == 0 && w.ctx == 0 && w.page == 7)).isSome = true
    ∧ (w0.paKind (128 * 0x401) = .device ∧ w0.valeFind 0x401 = none ∧ w0.pageRetired (128 * 0x401) = false)
    ∧ ((wView false).paKind (128 * viewLine) = .view 0 ∧ (wView false).valeFind viewLine = none ∧ (wView false).viewBusy (128 * viewLine) = false
      ∧ (wView false).homeFault (128 * viewLine) = none)
    ∧ ∃ v, (wView true).paKind (128 * viewLine) = .view 0 ∧ (wView true).valeFind viewLine = some v :=
  ⟨by decide, by decide, by decide, by decide, _, by decide, rfl⟩

def wordOp (w : WordReq) : Op := opOf (.word w)
def wWord (w : WordReq) : State := wOp (wordOp w)
def word1 : WordReq := { word0 with op := .submit none none, size := 8 }
def word2 : WordReq := { word0 with op := .await .s32 .eq 0#64 }
def word3 : WordReq := { word0 with pa := 0x010000000000 }
def wViewWord : State := { wWord word3 with frw := w0.frw.set 0 frw0 }
def word4 : WordReq := { word2 with here := true, limit := some 0 }

theorem witness_MemoryEvents_homes :
    (orderAllows (wWord word0) (wordOp word0) = true ∧ submitReady (wWord word0) (wordOp word0) word0 = true ∧ (wWord word0).viewBusy word0.pa = false
      ∧ (wWord word0).paKind word0.pa = .device ∧ (wWord word0).pageRetired word0.pa = false ∧ (wWord word0).dbgWindow word0.pa = none ∧ word0.op.waits = false ∧ word0.cpl = false)
    ∧ (orderAllows (wWord word1) (wordOp word1) = true ∧ submitReady (wWord word1) (wordOp word1) word1 = true)
    ∧ (orderAllows (wWord word2) (wordOp word2) = true ∧ submitReady (wWord word2) (wordOp word2) word2 = true ∧ word2.op.waits = true)
    ∧ (orderAllows wViewWord (wordOp word3) = true ∧ submitReady wViewWord (wordOp word3) word3 = true ∧ wViewWord.paKind word3.pa = .view 0)
    ∧ ((wGone (wordOp word0)).paKind word0.pa = .device ∧ (wGone (wordOp word0)).pageRetired word0.pa = true)
    ∧ (awaitEarly (wWord word4) (wordOp word4) word4 = true ∧ (wWord word4).dbgWindow word4.pa = none) := by decide

/-! ### Errors -/

def wVale (dirty : Bool) : State := { w0 with vale := [{ line := 0x401, data := 0#1024, owner := 0, dirty := dirty }] }

def wClean : State := w0.updCore 0 (fun k => { k with l1 := [{ line := 0x401, ctx := 0, data := 0#1024, dirty := 0#128, count := none, lease := none }] })

theorem witness_ErrorEvents : (∃ v, (wVale false).valeFind 0x401 = some v ∧ v.dirty = false) ∧ (∃ v, (wVale true).valeFind 0x401 = some v ∧ v.dirty = true)
    ∧ (w0.paKind (128 * 0x401) = .device ∧ w0.valeFind 0x401 = none) ∧ ownsIn w0 0 0 .cell = true ∧ ownsIn wClean 0 0 .l1Clean = true
    ∧ ∃ g a u, (w0.core 0).array.gang = some 2 ∧ w0.gang 2 = some g ∧ w0.free = (a, u) :=
  ⟨⟨_, rfl, rfl⟩, ⟨_, rfl, rfl⟩, by decide, by decide, by decide, _, _, _, rfl, rfl, rfl⟩

/-! ### Copies and windows -/

def cc : CopyCmd :=
  { id := 60, tid := 0, ctx := 0, gang := 2, task := 1, loop := false, src := 0x20080#64, dst := 0x20100#64, stride := 0#64, len := 16, iters := 1,
    ssp := false, dsp := false, stat := false, tag := 0, ring := none, shn := .plain, dhn := .plain, ctr := none, setb := none, pc := 0x10008#64, issue := 60 }
def ccRing : CopyCmd := { cc with len := 256, dsp := true, ring := some 4 }
def ccCtr : CopyCmd := { cc with ctr := some 0x20080#64 }
def runCmd (c : CopyCmd) : CopyRun := { cmd := c, prog := 0, iter := 0, stage := none, atEnd := false, waits := false, lines := [] }
def wQueue : State := w0.updCore 0 (fun k => { k with cpq := [.cmd cc] })
def wRun (r : CopyRun) : State := w0.updCore 0 (fun k => { k with cprun := [r] })

theorem witness_CopyEvents_commands :
    (∃ b r u, u = wQueue.updCore 0 refillQueue ∧ nextCommand u [] (u.core 0).cpq = some (b, .cmd cc, r) ∧ slotsUsed (u.core 0) < Config.cpRun ∧ acquiring u cc.tid cc.id = false)
    ∧ (∃ g, runOf (wRun (runCmd ccRing)) 0 60 = some (runCmd ccRing) ∧ engineRuns (wRun (runCmd ccRing)) ccRing.ctx = true ∧ fillReady (wRun (runCmd ccRing)) 0 ccRing = true
      ∧ cmdRing (wRun (runCmd ccRing)) 0 ccRing = some (4, g))
    ∧ (lineSpan (wRun (runCmd cc)) 0 (runCmd cc) = (0x20080#64, 0x20100#64, 16) ∧ lineSide (wRun (runCmd cc)) 0 cc 0x20080#64 16 false false = .ok (.l1 0x20080)
      ∧ lineSide (wRun (runCmd cc)) 0 cc 0x20100#64 16 false true = .ok (.l1 0x20100) ∧ engineWaits (wRun (runCmd cc)) 0 2 (.l1 0x20080) = false
      ∧ engineWaits (wRun (runCmd cc)) 0 2 (.l1 0x20100) = false ∧ fillWaits (wRun (runCmd cc)) 0 (runCmd cc) 16 = false
      ∧ windowLate (wRun (runCmd cc)) 0 (.l1 0x20100) 16 (some 0) = none)
    ∧ runOf (wRun { runCmd cc with atEnd := true }) 0 60 = some { runCmd cc with atEnd := true }
    ∧ ∃ g k, (wRun { runCmd ccCtr with atEnd := true }).gang 2 = some g ∧ (wRun { runCmd ccCtr with atEnd := true }).task 1 = some k
      ∧ checkGlobal (wRun { runCmd ccCtr with atEnd := true }) 0 g k (wordAcc 0x20080#64 8 8) = .ok (.home 0x20080)
      ∧ (wRun { runCmd ccCtr with atEnd := true }).viewBusy 0x20080 = false ∧ (wRun { runCmd ccCtr with atEnd := true }).paKind 0x20080 = .device
      ∧ (wRun { runCmd ccCtr with atEnd := true }).dbgWindow 0x20080 = none :=
  ⟨⟨_, _, _, rfl, rfl, by decide, by decide⟩, ⟨_, by decide, by decide, by decide, rfl⟩, by decide, by decide, _, _, rfl, rfl, by decide, by decide, by decide,
    by decide⟩

def copyLane : CopyLane := { tid := 0, size := 4, sva := 0x20080#64, src := .l1 0x20080, dva := 0x20100#64, dst := .l1 0x20100 }
def cpOp : Op := opOf (.copy .plain [copyLane])

theorem witness_CopyEvents_copy : (Claim.copyLanes (wOp cpOp) [copyLane]).all (fun p => (copyLate (wOp cpOp) cpOp p).isNone) = true ∧ (wOp cpOp).op 90 = some cpOp ∧ orderAllows (wOp cpOp) cpOp = true
    ∧ ∀ p ∈ Claim.copyLanes (wOp cpOp) [copyLane], targetWaits (wOp cpOp) p.1 90 (Claim.copySrc (wOp cpOp) p) = false
      ∧ targetWaits (wOp cpOp) p.1 90 (Claim.copyDst (wOp cpOp) p) = false := by unfold Claim.copyLanes Claim.copySrc Claim.copyDst; decide

def req0 : GmapReq := { core := 0, win := 0, tids := [0], base := 0x20000#64, ext := 1 }
def wMapping : State := w0.updGang 2 (fun g => { g with gmaps := [req0] })
def wbOp : Op := { opOf (.winWb 0 3 false [0]) with id := 91 }

theorem witness_CopyEvents_windows : (∃ g, wMapping.gangs.find? (fun g => g.gmaps.any (fun r => r.core == 0 && r.win == 0)) = some g
      ∧ g.gmaps.find? (fun r => r.core == 0 && r.win == 0) = some req0 ∧ running wMapping g.ctx = true)
    ∧ (∃ g rest va pa, (wOp { loadOp with va := 0x28004#64, kind := .load (.window 0 3 0x28004#64 0x28004) 4 0 .plain 0 }).gangs.filter
        (fun g => g.saved.isNone && decide (g.base ≤ 0) && decide (0 < g.base + g.cores)) = g :: rest
      ∧ touching (wOp { loadOp with va := 0x28004#64, kind := .load (.window 0 3 0x28004#64 0x28004) 4 0 .plain 0 }) g 0 3 0 = some (va, pa))
    ∧ ∃ t g h u, (wOp wbOp).ops.find? (Op.ofWindow 0 3) = some wbOp ∧ (wOp wbOp).thread 0 = some t ∧ (wOp wbOp).gang t.gang = some g
      ∧ u = windowClean (wOp wbOp) g 0 3 ∧ u.gang g.id = some h :=
  ⟨⟨_, rfl, rfl, by decide⟩, ⟨_, _, _, _, rfl, rfl⟩, _, _, _, _, rfl, rfl, rfl, rfl, rfl⟩

/-! ### The array -/

def wCmd (k : MtxKind) : State := wArr (fun a => { a with queue := [cmd k] })

theorem witness_MatrixEvents_begin : (engineRuns (wCmd (.loop .s8 0#64 0#64 0#32 0#32)) 0 = true
      ∧ mayBegin (arrayOf (wCmd (.loop .s8 0#64 0#64 0#32 0#32)) 0) (cmd (.loop .s8 0#64 0#64 0#32 0#32)) = true)
    ∧ (mayBegin (arrayOf (wCmd (.wld .s8 0 false 0x20100#64)) 0) (cmd (.wld .s8 0 false 0x20100#64)) = true)
    ∧ (∃ v, mayBegin (arrayOf (wCmd .zero) 0) (cmd .zero) = true ∧ beginEffect (wCmd .zero) 0 (cmd .zero) = .ok v)
    ∧ (∀ p ∈ (cmd .zero).pushers, acquiring (wCmd .zero) p.1 80 = false) := ⟨by decide, by decide, ⟨_, by decide, rfl⟩, by decide⟩

/-- A loop word of one step of one row whose panel is in Glen and whose weights are those of the active plane (R255). -/
def lw : W32 := 0#32
def wLoaded : State := wArr (fun a => { a with flight := [(cmd .zero, Epi.none)] })
def wStep (f : Loop → Loop) (n : Nat) : State :=
  wArr (fun a => { a with loop := some (f (loop1 lw)), mprog := n, active := { status := 2, ty := .s8, wm := 0, data := List.replicate 32 0#1024 } })

theorem witness_MatrixEvents_end : (∃ c e, (arrayOf wLoaded 0).flight.find? (fun p => !isWld p.1 || (loadingTile (arrayOf wLoaded 0) == some p.1 &&
      (arrayOf wLoaded 0).shadow.status == 2)) = some (c, e))
    ∧ ∃ l, (arrayOf (wStep id 64) 0).flight = [] ∧ loopFinished (arrayOf (wStep id 64) 0) = some l := ⟨⟨_, _, rfl⟩, _, rfl, rfl⟩


def loopG : Loop := { loop1 lw with cmd := cmd (.loop .s8 0#64 0#64 lw 0#32) }
def wTile (glen : Bool) (base : W64) : State :=
  (wArr (fun a => { a with flight := [(cmd (.wld .i4s 0 glen base), Epi.none)], shadow := { status := 1, ty := .i4s, wm := 0, data := [] } })).updGang 2
    (fun g => { g with windows := [[{ fs := 0, s := 24, kind := .plain }]] })
def wDrain : State := wStep (fun l => { l with drain := [(0, 0, 9#32)] }) 0

def isBad (r : Option (MtxCmd × Option Loop × TileRes)) : Bool := match r with
  | some (_, none, .bad _) => true
  | _ => false

def isTile (r : Option (MtxCmd × Option Loop × TileRes)) : Bool := match r with
  | some (_, _, .ok _ _) => true
  | _ => false

theorem tile_of {r : Option (MtxCmd × Option Loop × TileRes)} (h : isTile r = true) : ∃ c l lines u, r = some (c, l, .ok lines u) := by
  unfold isTile at h
  split at h
  · exact ⟨_, _, _, _, rfl⟩
  · cases h

theorem witness_MatrixEvents_steps : (∃ c l lines u, fetchNow (wTile true 0#64) 0 = some (c, l, .ok lines u))
    ∧ (∃ rows u, (arrayOf (wStep (fun _ => loopG) 0) 0).loop = some loopG ∧ engineRuns (wStep (fun _ => loopG) 0) 0 = true
      ∧ (arrayOf (wStep (fun _ => loopG) 0) 0).mprog < LoopWord.steps lw ∧ tileReady (arrayOf (wStep (fun _ => loopG) 0) 0) loopG .s8 lw = some true
      ∧ drainRoom (wStep (fun _ => loopG) 0) 0 loopG lw 0 = true ∧ panelOf (wStep (fun _ => loopG) 0) 0 loopG .s8 0#64 lw 0#32 0 = .ok rows u)
    ∧ (∃ l, (arrayOf wDrain 0).loop = some l ∧ ∃ d ∈ l.drain, d.1 ≤ wDrain.clk)
    ∧ (∃ c f, fetchNow (wTile true 0x80000#64) 0 = some (c, none, .bad f))
    ∧ ∃ l f u, fetchNow (wStep id 0) 0 = none ∧ loopFailure (wStep id 0) 0 = some (l, f, u) :=
  ⟨tile_of (by decide +kernel), ⟨_, _, rfl, by decide, by decide, by decide, by decide, rfl⟩, ⟨_, rfl, _, List.mem_cons_self, by decide⟩, ⟨_, _, rfl⟩, _, _, _, rfl, rfl⟩

/-! ### Tasks -/

/-- Page tables that map the low 2 MB to themselves, and a task record at 0x1000 whose gang record at 0x2000 asks for one thread: lines of the Vale. -/
def line (n : Nat) (d : Line) : ValeLine := { line := n / 128, data := d, owner := 0, dirty := false }
def tables : List ValeLine := [line 0x40000 0x41001#1024, line 0x41000 0x42001#1024, line 0x42000 0x1F#1024]
def records : List ValeLine :=
  [line 0x1000 (0x2000#1024 <<< 384), line 0x2000 0x100#1024, line 0x2080 0#1024, line 0x3000 0#1024, line 0x0 0#1024, line 0x80 0#1024]

def wPaged : State := { w0 with vale := tables ++ records }.updCtx 0 (fun c => { c with root := 0x40000#64 })

def task0 (rec : W64) (state : Nat) : Task := Task.atSubmit 9 0 rec rec.toNat 0 state
def wTask (k : Task) : State := { wPaged with tasks := [k] }
def gr1 : GangRec := { threads := 1, cores := 1, arr := false, wins := [] }
def kPlace : Task := { task0 0x1000#64 2 with ctl := 0x100000000#64, grec := some gr1, dispatched := true }
def wEmpty : State := { w0 with threads := [] }

theorem witness_TaskEvents_run :
    (dispatchable (wTask (task0 0x1000#64 2)) (task0 0x1000#64 2) = true
      ∧ leastReason (dispatchChecks (wTask (task0 0x1000#64 2)) (task0 0x1000#64 2)).reasons = 0)
    ∧ (dispatchable (wTask (task0 0x3000#64 2)) (task0 0x3000#64 2) = true
      ∧ leastReason (dispatchChecks (wTask (task0 0x3000#64 2)) (task0 0x3000#64 2)).reasons ≠ 0)
    ∧ (engineRuns (wTask kPlace) 0 = true ∧ kPlace.fail = 0 ∧ kPlace.placed < ctlGangs kPlace.ctl.toNat ∧ kPlace.state ≤ 3 ∧ blockOk 1 gr1 = true
      ∧ blockSlots (wTask kPlace) 1 1 gr1 = some [[0]] ∧ dieReady (wTask kPlace) (dieOf 1) = some none)
    ∧ ∃ g, wEmpty.gang 2 = some g ∧ retires wEmpty g = true :=
  ⟨by decide +kernel, by decide +kernel, by decide +kernel, _, rfl, by decide +kernel⟩

def edge (ph rix six off : Nat) : Task := { task0 0x1000#64 4 with
  regions := [{ base := 0x20000, ext := 1, mode := 3, scope := 0, act := 0 }, { base := 0x30000, ext := 1, mode := 1, scope := 0, act := 0 }]
  cursor := { ph := ph, rix := rix, six := six, off := off } }
def okE {α β : Type} : Except α β → Bool
  | .ok _ => true
  | .error _ => false
theorem okE_of {α β : Type} {x : Except α β} (h : okE x = true) : ∃ v, x = .ok v := by
  cases x with
  | ok v => exact ⟨v, rfl⟩
  | error => cases h
def edgeS : Task := { edge 2 0 0 0 with ctl := 0x0100000000000000#64 }
def edgeT : Task := { edgeS with succl := some 0x4000#64 }
theorem read_of {r : Except (Nat × Nat × W64) (State × Nat)} {n : Nat} (h : (match r with
    | .ok (_, v) => v == n
    | .error _ => false) = true) : ∃ u, r = .ok (u, n) := by
  cases r with
  | ok p => exact ⟨p.1, by simp at h; rw [← h]⟩
  | error => cases h

def sigTask : Task := { edge 3 0 0 0 with recAddr := 0x5000#64 }
def wSig : State := { wTask sigTask with vale := line 0x5000 (0x6000#1024 <<< 512) :: tables }

theorem witness_TaskEvents_edge : engineRuns (wTask (edge 1 0 0 0)) 0 = true
    ∧ ((edge 1 2 0 0).regions[2]? = none ∧ (∃ r, (edge 1 1 0 0).regions[1]? = some r ∧ r.edges = false) ∧ ∃ r, (edge 1 0 0 0).regions[0]? = some r ∧ r.edges = true
        ∧ 0 < r.bytes ∧ translateDirect (wTask (edge 1 0 0 0)) 0 (BitVec.ofNat 64 (r.base + 0)) { r := false, w := false, x := false } = .ok 0x20000
        ∧ (wTask (edge 1 0 0 0)).viewBusy 0x20000 = false)
    ∧ (successors (edge 2 0 0 0) ≤ 0 ∧ 0 < successors edgeS ∧ edgeS.succl = none ∧ (∃ l, readList (wTask edgeS) edgeS = .ok l) ∧ edgeT.succl = some 0x4000#64)
    ∧ (okE (unitRead (wTask (edge 3 0 0 0)) 0 0x1018#64 8) = true ∧ okE (unitRead (wTask (edge 3 0 0 0)) 0 0x1040#64 8) = true)
    ∧ (∃ u, unitRead wSig 0 0x5040#64 8 = .ok (u, 0x6000)) ∧ BitVec.ofNat 64 (bitsAt 0x6000 47 3 * 8) ≠ 0#64 ∧ (unitWord wSig 0 0x6000#64 0).2 = none ∧ (unitWord wSig 0 0x40000000#64 0).2 ≠ none :=
  ⟨by decide +kernel, ⟨rfl, ⟨_, rfl, by decide +kernel⟩, _, rfl, by decide +kernel, by decide +kernel, by decide +kernel, by decide +kernel⟩, ⟨by decide +kernel, by decide +kernel, rfl, okE_of (by decide +kernel), rfl⟩, by decide +kernel,
    read_of (by decide +kernel), by decide, by decide +kernel, by decide +kernel⟩

/-! ### Ladders -/

/-- A ladder object at 0x7000 with one item and one rung; its gang record at 0x7200 asks for one core. -/
def objLines : List ValeLine :=
  [line 0x7000 ((0x100000000#1024 ||| (0x7400#1024 <<< 128)) ||| ((0x7600#1024 <<< 192) ||| (0x7200#1024 <<< 576))), line 0x7080 0#1024, line 0x7100 0#1024, line 0x7200 0#1024,
   line 0x7280 0#1024, line 0x8000 0#1024, line 0xA000 (1#1024 <<< 896), line 0x9000 0#1024, line 0x9080 0#1024, line 0x9100 0#1024]
def kLad : Task := { task0 0x8000#64 2 with lobj := some 0x7000#64 }
def wLad (k : Task) : State := { wTask k with vale := objLines ++ tables }
def inCtx (s : State) : State := s.updCtx 0 (fun c => { c with dispatched := true })
def kLadBad : Task := { kLad with lobj := some 0x9000#64 }
def kLadRec : Task := { kLad with recAddr := 0xA000#64 }

theorem rungs_of {α : Type} {x : Except α Ladder} (h : (match x with
    | .ok l => !l.rungs.isEmpty
    | .error _ => false) = true) : ∃ l r rs, x = .ok l ∧ l.rungs = r :: rs := by
  cases x with
  | error => cases h
  | ok l => cases hr : l.rungs with
    | nil => simp [hr] at h
    | cons r rs => exact ⟨l, r, rs, rfl, hr⟩

theorem errE_of {α β γ : Type} {x : Except (α × β) γ} (h : (!okE x) = true) : ∃ e f, x = .error (e, f) := by
  cases x with
  | ok => cases h
  | error e => exact ⟨e.1, e.2, rfl⟩

theorem witness_LadderEvents_dispatch :
    (dispatchable (wLad kLad) kLad = true ∧ ladderTaskReason (inCtx (wLad kLad)) kLad = 0
      ∧ ∃ l r rs, readLadder (inCtx (wLad kLad)) kLad = .ok l ∧ l.rungs = r :: rs)
    ∧ (dispatchable (wLad kLadRec) kLadRec = true ∧ ladderTaskReason (inCtx (wLad kLadRec)) kLadRec ≠ 0
      ∧ ∃ l r rs, readLadder (inCtx (wLad kLadRec)) kLadRec = .ok l ∧ l.rungs = r :: rs)
    ∧ dispatchable (wLad kLadBad) kLadBad = true ∧ ladderTaskReason (inCtx (wLad kLadBad)) kLadBad = 0 ∧ ∃ e fs, readLadder (inCtx (wLad kLadBad)) kLadBad = .error (e, fs) :=
  ⟨⟨by decide +kernel, by decide +kernel, rungs_of (by decide +kernel)⟩, ⟨by decide +kernel, by decide +kernel, rungs_of (by decide +kernel)⟩, by decide +kernel, by decide +kernel,
    errE_of (by decide +kernel)⟩

def kRun (l : Ladder) : Task := { task0 0x8000#64 3 with dispatched := true, ladder := some l }
def frameW : LadderWrite := .frame 0 1 0 [] none
def resW : LadderWrite := .result 0 0 1#64 none
def lFrame : Ladder := { ladder1 with writes := [frameW] }
def lRes : Ladder := { ladder1 with writes := [resW] }
def lStarve : Ladder := { ladder1 with rungs := [rung1, { rung1 with arr := 1, pending := [(0, [], 101)] }] }
def lDue : Ladder := { ladder1 with due := [{ rung := 0, index := 0, frames := [[]] }] }
def lMark : Ladder := { ladder1 with wma := 0x20300#64, wmDue := [1], watermark := 1 }
def lBad : Ladder := { lRes with res := 0x40000000#64 }
def lBadMark : Ladder := { lMark with wma := 0x40000000#64 }
def triedOk (r : Option (State × Option (Nat × Nat × W64))) : Bool := match r with
  | some (_, none) => true
  | _ => false
def triedBad (r : Option (State × Option (Nat × Nat × W64))) : Bool := match r with
  | some (_, some _) => true
  | _ => false

theorem tried_ok {r : Option (State × Option (Nat × Nat × W64))} (h : triedOk r = true) : ∃ u, r = some (u, none) := by
  unfold triedOk at h
  split at h
  · exact ⟨_, rfl⟩
  · cases h

theorem tried_bad {r : Option (State × Option (Nat × Nat × W64))} (h : triedBad r = true) : ∃ u code sub a, r = some (u, some (code, sub, a)) := by
  unfold triedBad at h
  split at h
  · exact ⟨_, _, _, _, rfl⟩
  · cases h

theorem witness_LadderEvents_run :
    (∃ u, tryWrite (wTask (kRun lFrame)) (kRun lFrame) lFrame frameW = some (u, none)) ∧ (∃ r, (Claim.arrived lFrame 0 1 0 []).rungs[1]? = some r)
    ∧ (∃ r p ps, lStarve.rungs[1]? = some r ∧ ((wTask (kRun lStarve)).ctx 0).st = 1 ∧ r.waiting ≠ 0 ∧ r.waiting < Config.W ∧ r.pending = p :: ps ∧ lStarve.slim < p.2.2)
    ∧ (engineRuns (wTask (kRun lDue)) 0 = true ∧ blockOk 1 rung1.grec = true ∧ blockSlots (wTask (kRun lDue)) 1 1 rung1.grec = some [[0]]
      ∧ dieReady (wTask (kRun lDue)) (dieOf 1) = some none)
    ∧ (∃ u, tryWrite (wTask (kRun lRes)) (kRun lRes) lRes resW = some (u, none)) ∧ (∃ u, tryWatermark (wTask (kRun lMark)) (kRun lMark) lMark = some (u, none))
    ∧ (∃ u code sub a, tryWrite (wTask (kRun lBad)) (kRun lBad) lBad resW = some (u, some (code, sub, a)))
    ∧ ∃ u code sub a, lBadMark.writes.find? (fun w => w.number == 7) = none ∧ tryWatermark (wTask (kRun lBadMark)) (kRun lBadMark) lBadMark = some (u, some (code, sub, a)) := by
  refine ⟨tried_ok (by decide +kernel), ⟨_, rfl⟩, ⟨_, _, _, rfl, by decide +kernel, by decide +kernel, by decide +kernel, rfl, by decide +kernel⟩, by decide +kernel, tried_ok (by decide +kernel),
    tried_ok (by decide +kernel), tried_bad (by decide +kernel), ?_⟩
  obtain ⟨u, c, x, a, h⟩ := tried_bad (r := tryWatermark (wTask (kRun lBadMark)) (kRun lBadMark) lBadMark) (by decide +kernel)
  exact ⟨u, c, x, a, rfl, h⟩

/-! ### Contexts -/

def hdrN : Header := { hdr0 with notch := true, live := 15 }
def pre (s : State) : State := s.updCtx 0 (fun c => { c with st := 2, busy := true, preempt := some 0 })
def wNotch : State := pre ((atHeader id id).updCore 0 (fun k => { k with icache := [{ ctx := 0, va := 512, line := 512, data := (0x031DFC7F0FFFFFFF#64 ++ hdrN.pack).zeroExtend 1024 }] }))
def wWaiting : State := pre ((atHeader (fun e => { e with run := some { clause := clause0, released := true, issued := false, stall := some (3, 0#64) } })) id)
def wSave : State := pre (world (fun t => { t with stopped := true }))
def wLimit : State := { wSave with clk := 262144 }
def wSlice : State :=
  { (w0.updCtx 0 (fun c => { c with slice := 1#64 })).updCtx 1 (fun c => { c with st := 3, busy := true, restore := true }) with clk := 65536 }

theorem witness_ContextEvents_saved :
    (∃ t, wNotch.thread 0 = some t ∧ (wNotch.ctx t.ctx).preempt = some 0 ∧ t.exited = false ∧ t.parked = false ∧ t.stopped = false ∧ t.halted = none ∧ t.victimOf = none
      ∧ atNotch wNotch t = true)
    ∧ (∃ t, wWaiting.thread 0 = some t ∧ atNotch wWaiting t = false ∧ atWait wWaiting t = true)
    ∧ savable wSave 0 = true
    ∧ ((wLimit.ctx 0).preempt = some 0 ∧ (wLimit.ctx 0).notchlim ≠ 0#32 ∧ 0 + (wLimit.ctx 0).notchlim.toNat ≤ wLimit.clk)
    ∧ (wSlice.ctx 0).st = 1 ∧ (wSlice.ctx 0).preempt = none ∧ (wSlice.ctx 0).busy = false ∧ ((wSlice.ctx 0).slice.extractLsb' 0 32).toNat = 1
      ∧ (wSlice.ctx 0).sliceAt + 65536 * 1 ≤ wSlice.clk ∧ waitsForSeats wSlice 1 = true :=
  ⟨⟨_, rfl, by decide⟩, ⟨_, rfl, by decide⟩, by decide +kernel, by decide, by decide⟩

def ident1 : Identity := { Identity.reset with started := true, ready := true, recov := true, state := 1, attBusy := true, retiredFuse := false }
def wReady (s : State) : State := { s with ident := ident1 }
def inState (n : Nat) : State := wReady (w0.updCtx 0 (fun c => { c with st := n }))

theorem witness_ContextEvents_commands : (inState 0).ident.ready = true ∧ (∀ n ∈ [0, 1, 3, 5], ((inState n).ctx 0).busy = false ∧ ((inState n).ctx 0).st = n)
    ∧ (inState 0).ident.state ≠ 3 ∧ quotaFits (inState 0) 0 = true ∧ 0 < (inState 0).contexts.length := by decide +kernel

/-! ### The host, security and power -/

def wFrw (w : Frw) : State := wReady { w0 with frw := w0.frw.set 0 w }

theorem witness_HostEvents_windows : (wFrw Frw.reset).ident.ready = true ∧ (frwOf (wFrw Frw.reset) 0).en = false ∧ (0x10000#64).getLsbD 29 = false
    ∧ (frwOf (wFrw frw0) 0).en = true ∧ (0x80000000#64).getLsbD 31 = true ∧ (0x80000000#64).getLsbD 29 = false ∧ (0x80000000#64).getLsbD 30 = false
    ∧ (frwOf (wFrw { frw0 with flush := true }) 0).flush = true := by decide

def wSub : State := wReady { wPaged with vale := line 0xB000 0x40000000000000010000000000000000#1024 :: tables }
def grant0 : Grant := { w0 := 0x9800000000000000#64 ||| 0x0001000000000000#64, w1 := 0x1000#64 }
def wPeer : State := { wSub with grants := wSub.grants.set 0 grant0 }

theorem witness_HostEvents_accesses :
    (wSub.ident.ready = true ∧ (wSub.ctx 0).st = 1 ∧ translateDirect wSub 0 0xB000#64 rightsRW = .ok 0xB000 ∧ wSub.paKind 0xB000 = .device ∧ wSub.dbgMeets (0xB000, 128) = false
      ∧ (submit (wSub.stampWrite (0xB000 / 128)) 0 0xB000#64 0xB000 (some 0) none).ok = true)
    ∧ (wSub.pageRetired 0x1000 = false ∧ wSub.dbgWindow 0x1000 = none ∧ ∃ q u, wSub.free = (q, u))
    ∧ grantFor wPeer 1 (.write 5#128) 0x1000 8 = some grant0 ∧ grantFor wPeer 1 .read 0x1000 8 = some grant0 :=
  ⟨by decide +kernel, ⟨by decide, by decide, _, _, rfl⟩, by decide, by decide⟩

theorem witness_HostEvents_registers : (wReady w0).ident.ready = true ∧ ((wReady w0).ctx 1).st = 0 ∧ { w0 with ident := { ident1 with ready := false } }.ident.ready = false := by
  decide

def wIdle : State := { State.reset with ident := ident1 }
def wPower : State := { wIdle with power := State.reset.power.set 0 { req := 2, st := 0, goal := some (2, 0), next := none } }

theorem witness_SecurityAndPowerEvents : wIdle.ident.recov = true ∧ wIdle.ident.state = 1 ∧ (∀ k < 8, granuleLive wIdle (8 * 0 + k) = false) ∧ (∀ c ∈ wIdle.contexts, c.st = 0)
    ∧ wIdle.ident.attBusy = true ∧ (∃ p, wIdle.power[0]? = some p ∧ p.goal = none)
    ∧ ∃ p, wPower.power[0]? = some p ∧ p.goal = some (2, 0) ∧ 0 ≤ wPower.clk ∧ seatedOn wPower 0 = [] ∧ p.next = none :=
  ⟨rfl, rfl, by decide +kernel, by decide, rfl, ⟨_, rfl, rfl⟩, _, rfl, rfl, by decide, by decide +kernel, rfl⟩

/-! ### Debugging -/

def edit0 (cmd : Nat) : Edit := { cmd := cmd, names := [], preds := 0#8, draw := 0#64, pc := placedAt }
def granted (s : State) : State := wReady (s.updCtx 0 (fun c => { c with dbg := 0x8000000000000000#64, dbgCtl := 4#64 }))
def wHalted (cmd : Nat) : State := granted (world (fun t => { t with halted := some (2#8, 0#16), edit := some (edit0 cmd) }))
def wSampled : State := { granted wHead with clk := 256 }

/-- The page of the window has been retired. -/
def wLost (cmd : Nat) : State := { wHalted cmd with retired := [(wHalted cmd).dbgBase 0 / 65536] }

def wRetired : State := { wHalted 1 with ident := { ident1 with state := 3 } }

theorem witness_DebugEvents :
    (∀ cmd ∈ [1, 2], grantActive (wHalted cmd) 0 = true ∧ ((wHalted cmd).ctx 0).st = 1 ∧ ∃ t ∈ (wHalted cmd).threads, t.halted = some (2#8, 0#16) ∧ t.edit = some (edit0 cmd)
      ∧ t.parked = false ∧ refusal (wHalted cmd) t (((editedNames (edit0 cmd)).map (fun p => p.2.cells)).sum - (t.names.map (fun p => p.2.cells)).sum) = none)
    ∧ (0 < (wHalted 1).dbgSpan 0 ∧ debuggerOf (wHalted 1) 0 = 0 ∧ State.dbgHeld 0 = true ∧ (wHalted 1).dbgRead 0 0 = some 4)
    ∧ (((wHalted 1).dbgWrite 0 0 1).isSome = true ∧ ((wHalted 1).dbgWrite 0 0x10 1).isNone = true)
    ∧ ((wHalted 1).dbgShut 0 0 = false ∧ wRetired.dbgShut 0 0x200 = true ∧ State.dbgHeld 0x200 = false ∧ (wHalted 1).homeFault ((wHalted 1).dbgBase 0 + 0x200) = none)
    ∧ ((wHalted 1).pageRetired ((wHalted 1).dbgBase 0) = false ∧ (wLost 1).pageRetired ((wLost 1).dbgBase 0) = true ∧ grantActive (wLost 1) 0 = true)
    ∧ (grantActive wSampled 0 = true ∧ sampleOn wSampled 0 = true ∧ firstObserved wSampled 0 ≤ 0 ∧ 0 < firstObserved wSampled 0 + observedCores wSampled 0
      ∧ (sampleState (wSampled.core 0) 0).2 + samplePeriod wSampled 0 ≤ wSampled.clk ∧ (sampleNext wSampled 0 0 0).isSome = true)
    ∧ (sampleNext { granted w0 with clk := 256 } 1 0 0).isNone = true := by decide +kernel

/-! ### Encoding, the step, frames and bindings -/

theorem witness_EncodeDecode : (Instr.iadd H .s32 (.val 4 2#4) (.val 1) (.reg (.val 2))).wf = true
    ∧ (Instr.iadd H .s32 (.val 4 2#4) (.val 1) (.reg (.val 2))).isEvent = false
    ∧ encode (.iadd H .s32 (.val 4 2#4) (.val 1) (.reg (.val 2))) = some 0x101DC0042020BFFF#64 := by decide

theorem witness_DecodeEncode : decode 0x001DFC7F0FFFFFFF#64 = .ok (.nop H) := rfl

/-- The reserved group, and the first code beyond the functions of CTL and of SYS. -/
theorem witness_UnassignedOpcodesRejected : ∀ p ∈ [(0xFFFFFFFFFFFFFFFF#64, 15, 31), (0x049DFC7F0FFFFFFF#64, 0, 9), (0xE39DFC7F0FFFFFFF#64, 14, 7)],
    (p.1.extractLsb' 55 9).toNat = 32 * p.2.1 + p.2.2 ∧ Claim.groupMembers.getD p.2.1 0 ≤ p.2.2 := by decide

def wNop : State := State.reset.withFetchWord 64 0x001DFC7F0FFFFFFF
def uNop : State := { wNop with agenda := [], focus := some (0, 3) }

theorem witness_StepRunsDecoded_word : ∃ g, wNop.agenda = .issue 0 3 :: [] ∧ uNop.grp = some g ∧ running uNop g.ctx = true ∧ pipeOpen uNop 0 3 g.a = true ∧ g.mem ≠ []
    ∧ maySelect { wNop with agenda := [] } 0 3 = true ∧ (∀ p, wNop.power[dieOf 0]? = some p → p.st = 0)
    ∧ takeDeferred (takePipe uNop 0 3 g.a) 0 g.mem (wordDue (g.clause.words.getD g.clause.idx 0#64)) g.pc (some g.clause) = none
    ∧ quotaTrap (takePipe uNop 0 3 g.a) g = none ∧ decodeIn g.clause.hdr.eng g.clause.isLast (g.clause.words.getD g.clause.idx 0#64) = .ok (.nop H) :=
  ⟨_, rfl, rfl, by decide, by decide, by decide, by decide, by intro p hp; cases hp; rfl, by decide, by decide, rfl⟩

/-- The word of the step is fetched from the instruction cache, or from the Vale where the cache does not hold its line. -/
theorem witness_StepRunsDecoded_fetch : (wHead.threads.all (fun t => match wHead.task t.task with
      | some k => regionOk k 0x10000 8 [6]
      | none => false) = true)
    ∧ translate wHead 0 0 placedAt rightsX = .ok 0x10000 ∧ pageClear wHead 0 1 = true ∧ wHead.paKind 0x10000 ≠ .peer
    ∧ ((wHead.core 0).icache.find? (fun l => l.ctx == 0 && l.va == placedAt.toNat / 128)).isSome = true ∧ wHead.dbgRefuses 0 0x10000 8 false = false
    ∧ translate w0 0 0 placedAt rightsX = .ok 0x10000 ∧ (w0.core 0).icache.find? (fun l => l.ctx == 0 && l.va == placedAt.toNat / 128) = none ∧ l1Current w0 0 512 = none
    ∧ w0.viewBusy 0x10000 = false := by decide

theorem witness_StepKeepsMemory : Memory.wf wNop.mem = true ∧ ∃ t, step wNop = .next t := by
  refine ⟨rfl, ?_⟩
  cases h : step wNop with
  | next t => exact ⟨t, rfl⟩
  | fault f => have : (match step wNop with
      | .next _ => true
      | _ => false) = true := by decide +kernel
               rw [h] at this; cases this
  | refused r => have : (match step wNop with
      | .next _ => true
      | _ => false) = true := by decide +kernel
                 rw [h] at this; cases this

theorem witness_ComputeWordFrame : ∃ w r, Claim.fixedInstr w0 (.iadd H .s32 (.val 20 1#4) (.val 1) (.reg (.val 2))) = some (w, 4, r) ∧ Ready w w0 g0 :=
  ⟨_, _, rfl, ready_of (by decide)⟩

def addSpec : Spec := typedSpec H .s32 (.val 20 1#4) [Opnd.of .s32 (.val 1), Opnd.of .s32 (.val 1)]

/-- A name read once, a name read twice, and a sticky name. -/
theorem witness_ReadsCount : Ready addSpec w0 g0 ∧ (∃ t b, t ∈ freshLanes g0 H ∧ lookupName t 1 = some b ∧ countOf 1 (valNames (addSpec.of t)) = 2 ∧ b.count ≠ 15#4)
    ∧ ∃ t b, t ∈ freshLanes (grpOf wSticky) H ∧ lookupName t 1 = some b ∧ 0 < countOf 1 (valNames (addSpec.of t)) ∧ b.count = 15#4 :=
  ⟨ready_of (by decide), ⟨_, _, List.mem_cons_self, rfl, by decide, by decide⟩, _, _, List.mem_cons_self, rfl, by decide, by decide⟩

theorem witness_FixedResultInFlight : ∃ w r l, Claim.fixedInstr w0 (.iadd H .s32 (.val 20 1#4) (.val 1) (.reg (.val 2))) = some (w, 4, r) ∧ Ready w w0 g0
    ∧ l ∈ lanesRead w w0 g0 ∧ w.dst.names ≠ [] := ⟨_, _, _, rfl, ready_of (by decide), List.mem_cons_self, by decide⟩

theorem witness_FixedResultInFlight_interlocked : ∃ w r l, Claim.fixedInstr wIlk (.iadd H .s32 (.val 20 1#4) (.val 1) (.reg (.val 2))) = some (w, 4, r)
    ∧ Ready w wIlk (grpOf wIlk) ∧ wIlk.ilk (grpOf wIlk).ctx = true ∧ lanesRead w wIlk (grpOf wIlk) = [l] ∧ w.dst.names ≠ [] :=
  ⟨_, _, _, rfl, ready_of (by decide), by decide, rfl, by decide⟩

/-- A page on the list whose verification is asked for. -/
def wPage : State :=
  { wPaged with vale := line 0x9000 (1#1024 ||| (0x10000#1024 <<< 128)) :: line 0x9080 0#1024 :: tables }.updCtx 0 (fun c => { c with digt := 0x9000#64, verifying := [1] })

def listed (d : Digest) : Bool := match d with
  | .listed .. => true
  | _ => false

theorem witness_PagesVerified : 1 ∈ (wPage.ctx 0).verifying ∧ pageWaits wPage 0 1 = false ∧ listed (digestOf wPage 0 1) = true := by decide +kernel

/-! ## Results, each of one word on a small state: hand calculation from the rule named, or the spec's own example -/

def first (s : State) (i : Instr) : Option InFlight := match exec i s with
  | .next t => (t.thread 0).bind (fun t => t.flight.head?)
  | _ => none

/-- The value that a word of fixed latency puts in flight for lane 0, with the names given. -/
def out (ns : List (Nat × Binding)) (i : Instr) : Option W64 := ((first (given ns) i).bind (fun f => f.names.head?)).map (fun p => p.2.value)
def outP (ns : List (Nat × Binding)) (i : Instr) : Option (Nat × Bool) := (first (given ns) i).bind (fun f => f.preds.head?)
def d : Dst := .val 20 1#4
def r (n : VName) : SrcI := .reg (.val n)
def p7 : Pred := { neg := false, p := 7 }
def np7 : Pred := { neg := true, p := 7 }
def ns1 : List (Nat × Binding) := [(1, b32 5), (2, b32 8), (3, b32 3), (4, b32 0xFFFFFFFF), (5, b64 0x20080), (6, b32 0x01FF80FF), (7, b32 0x01010101)]

-- INT (R201 to R204)
theorem test_iadd : out ns1 (.iadd H .s8 d (.val 6) (r 7)) = some 0x02008100#64 := by decide
theorem test_isub : out ns1 (.isub H .n32 d (.val 1) (r 2)) = some 0xFFFFFFFD#64 := by decide
theorem test_imul : out [(1, b32 0x0003FFFF), (2, b32 0x00050002)] (.imul H .n16 d (.val 1) (r 2)) = some 0x000FFFFE#64 := by decide
theorem test_imulhi_n : out ns1 (.imulhi H .n32 d (.val 4) (r 4)) = some 0xFFFFFFFE#64 := by decide
theorem test_imulhi_s : out ns1 (.imulhi H .s32 d (.val 4) (r 1)) = some 0xFFFFFFFF#64 := by decide
theorem test_imin : out ns1 (.imin H .s32 d (.val 1) (r 4)) = some 0xFFFFFFFF#64 := by decide
theorem test_imax : out ns1 (.imax H .s32 d (.val 1) (r 4)) = some 5#64 := by decide
theorem test_imad : out ns1 (.imad H .s32 d (.val 1) (.val 2) (.val 3)) = some 43#64 := by decide
theorem test_imadw_s : out ns1 (.imadw H .s64 d (.val 4) (.val 2) (.val 5)) = some 0x20078#64 := by decide
theorem test_imadw_n : out ns1 (.imadw H .n64 d (.val 4) (.val 2) (.val 5)) = some 0x800020078#64 := by decide
theorem test_iaddc : (first (given ns1) (.iaddc H .n32 d (.val 4) (.val 4) p7 3)).map (fun f => (f.names.map (fun p => p.2.value), f.preds)) = some ([0xFFFFFFFF#64], [(3, true)]) := by decide
theorem test_isubb : (first (given ns1) (.isubb H .n32 d (.val 1) (.val 2) np7 3)).map (fun f => (f.names.map (fun p => p.2.value), f.preds)) = some ([0xFFFFFFFD#64], [(3, true)]) := by decide
theorem test_iabs : out [(1, b32 0x80000000)] (.iabs H .s32 d (.val 1)) = some 0x80000000#64 := by decide
theorem test_ineg : out ns1 (.ineg H .s32 d (.val 1)) = some 0xFFFFFFFB#64 := by decide
theorem test_isad : out ns1 (.isad H .n8 d (.val 6) (.val 7) (.val 1)) = some 0x280#64 := by decide
theorem test_idot4 : out ns1 (.idot4 H true false d (.val 6) (.val 7) (.val 1)) = some 0xFFFFFF84#64 := by decide
theorem test_idot8 : (first (given [(1, b32 0x80000021), (2, b32 0x11111111), (3, b32 10)]) (.idot8 H true true d (.val 1) (.val 2) (.val 3))).map
    (fun f => (f.names.map (fun p => p.2.value), f.cvt)) = some ([13#64], true) := by decide
theorem test_lea_sx : out [(2, b64 0x20080), (5, b32 0xFFFFFFFF)] (.lea H d (.val 2) (.reg (.val 5) 3 true)) = some 0x20078#64 := by decide
theorem test_lea_imm : out [(2, b64 0x20080)] (.lea H d (.val 2) (.imm 0xFFC0#16)) = some 0x20040#64 := by decide
theorem test_iclamp : out ns1 (.iclamp H .s32 d (.val 3) (.val 2) (.val 1)) = some 5#64 := by decide

-- BIT (R206)
theorem test_and : out ns1 (.and H .b32 d (.val 1) (r 3)) = some 1#64 := by decide
theorem test_or : out ns1 (.or H .b32 d (.val 1) (r 2)) = some 13#64 := by decide
theorem test_xor : out ns1 (.xor H .n64 d (.val 5) (.imm 0x80#16)) = some 0x20000#64 := by decide
theorem test_lop3 : out ns1 (.lop3 H .b32 d (.val 1) (.val 2) (.val 3) 0x96#8) = some 14#64 := by decide
theorem test_shl : out ns1 (.shl H .s8 d (.val 6) (r 7)) = some 0x02FE00FE#64 := by decide
theorem test_shr : out ns1 (.shr H .s32 d (.val 4) (.imm 32#16)) = some 0#64 := by decide
theorem test_sar : out ns1 (.sar H .s32 d (.val 4) (.imm 40#16)) = some 0xFFFFFFFF#64 := by decide
theorem test_rotl : out ns1 (.rotl H .n32 d (.val 6) (.imm 36#16)) = some 0x1FF80FF0#64 := by decide
theorem test_fshf_left : out ns1 (.fshf H .b32 false false d (.val 1) (.val 4) (.val 3)) = some 0x2F#64 := by decide
theorem test_fshf_clamp : out [(1, b32 5), (2, b32 7), (3, b32 40)] (.fshf H .b32 true true d (.val 1) (.val 2) (.val 3)) = some 5#64 := by decide
theorem test_popc : out ns1 (.popc H .b32 d (.val 6)) = some 18#64 := by decide
theorem test_clz : out [(1, b32 0)] (.clz H .b32 d (.val 1)) = some 32#64 := by decide
theorem test_ctz : out ns1 (.ctz H .n64 d (.val 5)) = some 7#64 := by decide
theorem test_brev : out ns1 (.brev H .b32 d (.val 1)) = some 0xA0000000#64 := by decide
theorem test_bfx : out [(1, b32 0x00F80000)] (.bfx H .s32 d (.val 1) (.imm 0x0514#16)) = some 0x0F#64 := by decide
theorem test_bfx_past : out [(1, b32 0x80000000)] (.bfx H .s32 d (.val 1) (.imm 0x041E#16)) = some 0xFFFFFFFE#64 := by decide
theorem test_bfi : out [(1, b32 0xFFFFFFFF), (2, b32 0x0408), (3, b32 0)] (.bfi H .b32 d (.val 1) (.val 2) (.val 3)) = some 0xFFFFF0FF#64 := by decide
theorem test_perm : out [(1, b32 0x03020180), (2, b32 0x07060504), (3, b32 0x8740)] (.perm H d (.val 1) (.val 2) (.val 3)) = some 0xFF070480#64 := by decide

-- PRD (R208, R209)
theorem test_isetp : outP ns1 (.isetp H .s32 2 (.val 4) (.reg (.val 1) .lt .none)) = some (2, true) := by decide
theorem test_isetp_imm : outP ns1 (.isetp H .n32 2 (.val 4) (.imm 0xFFFF#16 .lt)) = some (2, false) := by decide
theorem test_fsetp : outP [(1, b32 0x80000000), (2, b32 0)] (.fsetp H .f32 1 (.val 1) (.val 2) .eq (.and p7)) = some (1, true) := by decide
theorem test_fsetp_nan : outP [(1, b32 0x7FC00000), (2, b32 0)] (.fsetp H .f32 1 (.val 1) (.val 2) .ltu .none) = some (1, true) := by decide
theorem test_plop : outP ns1 (.plop H 1 p7 np7 p7 0x20#8) = some (1, true) := by decide
theorem test_sel : out ns1 (.sel H .n32 d (.val 1) (.val 2) np7) = some 8#64 := by decide
theorem test_p2v : (first (one (fun t => { t with preds := 0x05#8 })) (.p2v H d)).map (fun f => f.names.map (fun p => p.2.value)) = some [0x85#64] := by decide
theorem test_v2p : (first (given [(3, b32 0x04)]) (.v2p H (.val 3) (.imm 6#16))).map (fun f => f.preds) = some [(1, false), (2, true)] := by decide

-- FLT (R219 to R223)
theorem test_fadd : out [(1, b32 0x3F800000), (2, b32 0x33800000)] (.fadd H .f32 .rne d (.val 1) (r 2)) = some 0x3F800000#64 := by decide
theorem test_fadd_up : out [(1, b32 0x3F800000), (2, b32 0x33800000)] (.fadd H .f32 .rup d (.val 1) (r 2)) = some 0x3F800001#64 := by decide
theorem test_fsub : out [(1, b32 0x3F800000)] (.fsub H .f32 .rdn d (.val 1) (r 1)) = some 0x80000000#64 := by decide
theorem test_fmul : out [(1, b32 0x3F800800)] (.fmul H .f32 .rne d (.val 1) (r 1)) = some 0x3F801000#64 := by decide
theorem test_fmul_nan : out [(1, b32 0x7F800000), (2, b32 0)] (.fmul H .f32 .rne d (.val 1) (r 2)) = some 0x7FC00000#64 := by decide
theorem test_ffma : out [(1, b32 0x3F800800), (3, b32 0xBF800000)] (.ffma H .f32 .rne d (.val 1) (.val 1) (.val 3)) = some 0x3A000400#64 := by decide
theorem test_fmin : out [(1, b32 0x80000000), (2, b32 0)] (.fmin H .f32 false d (.val 2) (r 1)) = some 0x80000000#64 := by decide
theorem test_fmax_nan : out [(1, b32 0x7FC00001), (2, b32 0x3F800000)] (.fmax H .f32 true d (.val 1) (r 2)) = some 0x7FC00000#64 := by decide
theorem test_frnd : out [(1, b32 0xBF400000)] (.frnd H .f32 .rz d (.val 1)) = some 0x80000000#64 := by decide
theorem test_fscale : out [(1, b32 0x3F800000), (2, b32 0xFFFFFF6B)] (.fscale H .f32 .rne d (.val 1) (.val 2)) = some 1#64 := by decide
theorem test_fclass : out [(1, b32 0x7FC08001)] (.fclass H .f32 d (.val 1)) = some 0x200#64 := by decide
theorem test_fdot2 : out [(1, b32 0x40003F80), (2, b32 0x40404040), (3, b32 0x3F800000)] (.fdot2 H .bf16 .rne d (.val 1) (.val 2) (.val 3)) = some 0x41200000#64 := by decide

-- CVT (R227, the table of results)
theorem test_cvt_s32 : out [(1, b32 0x4F32D05E)] (.cvt H .s32 .rne d (.val 1) { sel := 0, sat := false, sty := .f32 }) = some 0xB2D05E00#64 := by decide
theorem test_cvt_bf16 : out [(1, b32 0x3C01)] (.cvt H .bf16 .rup d (.val 1) { sel := 0, sat := false, sty := .f16 }) = some 0x3F81#64 := by decide
theorem test_cvtpk : out [(1, b32 0x3F800000), (2, b32 0xC0000000)] (.cvtpk H .f16 .rne d (.val 1) (.val 2) { sel := 0, sat := false, sty := .f32 }) = some 0xC0003C00#64 := by decide
theorem test_cvt8pk : out [(1, b32 300), (2, b32 0xFFFFFF38), (3, b32 0x12345678)] (.cvt8pk H .s8 .rne d (.val 1) (.val 2) (some (.val 3)) { sel := 1, sat := true, sty := .s32 }) = some 0x807F5678#64 := by decide
theorem test_cvtupk : (first (given [(1, b32 0x8721)]) (.cvtupk H .s16 .rne d (.val 1) { sel := 1, sat := false, sty := .i4s })).map (fun f => (f.names.map (fun p => p.2.value), f.cvt)) = some ([7#64], true) := by decide

-- CEL (R189 to R196)
theorem test_mov : out [(1, b32 5)] (.mov H .s64 d (.imm 0xFFFF#16)) = some 0xFFFFFFFFFFFFFFFF#64 := by decide
theorem test_pair : out ns1 (.pair H .n64 d (.val 1) (.val 2)) = some 0x800000005#64 := by decide
theorem test_split : (first (given [(5, b64 0x123456789)]) (.split H .n64 20 1#4 (.val 5))).map (fun f => f.names.map (fun p => (p.1, p.2.value))) = some [(20, 0x23456789#64), (21, 1#64)] := by decide

/-- The names of lane 0 after a word. -/
def namesAfter (s : State) (i : Instr) : Option (List (Nat × BitVec 4)) := match exec i s with
  | .next t => (t.thread 0).map (fun t => t.names.map (fun p => (p.1, p.2.count)))
  | _ => none

theorem test_drop : namesAfter (given [(1, b32 5)]) (.drop H 1 2#4) = some [(1, 1#4)] := by decide
theorem test_drop_all : namesAfter (given [(1, b32 5)]) (.drop H 1 0#4) = some [] := by decide
theorem test_keep : namesAfter (given [(1, b32 5)]) (.keep H 1 11#4) = some [(1, 14#4)] := by decide
theorem test_free : namesAfter wSticky (.free H 1) = some [] := by decide
theorem test_read_counts : namesAfter (given [(1, { b32 5 with count := 1#4 }), (2, { b32 6 with count := 15#4 })]) (.iadd H .s32 d (.val 1) (r 2)) = some [(2, 15#4)] := by decide

-- XLN (R213 to R216): three lanes of one row
def laneT (id lane v : Nat) : Thread := { Thread.atLaunch id 0 0 lane 0 1 2 id placedAt 0 with names := [(5, b32 v)] }
def three (a b c : Nat × Nat) : State :=
  ({ (one id) with threads := [laneT 0 a.1 a.2, laneT 1 b.1 b.2, laneT 2 c.1 c.2] }).updEntry 0 3 (fun e => { e with members := [0, 1, 2] })
def outs (s : State) (i : Instr) : Option (List (List W64)) := match exec i s with
  | .next t => some (t.threads.map (fun t => t.flight.flatMap (fun f => f.names.map (fun p => p.2.value))))
  | _ => none
def outPs (s : State) (i : Instr) : Option (List (List (Nat × Bool))) := match exec i s with
  | .next t => some (t.threads.map (fun t => t.flight.flatMap (fun f => f.preds)))
  | _ => none
def row3 : State := three (0, 0x4B800000) (1, 0x3F800000) (32, 0xCB800000)

theorem test_xshf : outs row3 (.xshf H .b32 .down d (.val 5) (.imm 1#16)) = some [[0x3F800000#64], [0#64], [0#64]] := by decide
theorem test_xbfly : outs row3 (.xbfly H .b32 d (.val 5) (.imm 33#16)) = some [[0#64], [0xCB800000#64], [0x3F800000#64]] := by decide
theorem test_xbcast : outs row3 (.xbcast H .b32 d (.val 5) (.imm 32#16)) = some [[0xCB800000#64], [0xCB800000#64], [0xCB800000#64]] := by decide
theorem test_redx : outs row3 (.redx H .f32 d (.val 5) .add) = some [[0x3F800000#64], [0x3F800000#64], [0x3F800000#64]] := by decide +kernel
theorem test_scanx : outs (three (0, 5) (1, 7) (32, 9)) (.scanx H .s32 d (.val 5) .add true) = some [[0#64], [5#64], [12#64]] := by decide +kernel
theorem test_vote : outs row3 (.vote H (.ballot d false) p7) = some [[0x100000003#64], [0x100000003#64], [0x100000003#64]] := by decide
theorem test_vote_all : outPs row3 (.vote H (.all 1) np7) = some [[(1, false)], [(1, false)], [(1, false)]] := by decide
theorem test_match : outs (three (0, 7) (1, 8) (32, 7)) (.xmatch H false d (.val 5) false) = some [[0x100000001#64], [2#64], [0x100000001#64]] := by decide
theorem test_elect : outPs row3 (.elect H 1) = some [[(1, true)], [(1, false)], [(1, false)]] := by decide
theorem test_xcount : outs row3 (.xcount H d .below) = some [[0#64], [1#64], [2#64]] := by decide

-- SFU (R231, R232)
theorem test_rcp : Sfu.rcp 0x40400000 = 0x3EAAAAAB := by decide
theorem test_rcp_zero : Sfu.rcp 0x80000000 = 0xFF800000 := by decide
theorem test_rsq : Sfu.rsq 0x40800000 = 0x3F000000 := by decide
theorem test_sqrt : Sfu.sqrt 0x40000000 = 0x3FB504F3 := by decide +kernel
theorem test_exp2 : Sfu.exp2 0x3F000000 = some 0x3FB504F3 := by decide +kernel
theorem test_exp2_int : Sfu.exp2 0xC3150000 = some 1 := by decide +kernel
theorem test_log2 : Sfu.log2 0x40400000 = some 0x3FCAE00D := by decide +kernel
theorem test_sinpi : Sfu.sinpi 0x3E800000 = some 0x3F3504F3 := by decide +kernel
theorem test_cospi : Sfu.cospi 0x3F000000 = some 0 := by decide +kernel
theorem test_tanh : Sfu.tanh 0x3F800000 = some 0x3F42F7D6 := by decide +kernel

-- Blocks (R229's example): the scale and the first mantissas
theorem test_qblk : leNat (Memory.readN ((qblkDo (w0.updCore 0 (fun k => { k with glen := Memory.writeN [] 0 (leBytes 0x3E800000BFA0000040400000 12) })) (0, 0) (0, 0x300) .f32 4 .rne 0).1.core 0).glen 0x300 2) = 0x01D7 := by
  decide +kernel

-- Memory: accesses as they are performed (R149, R150, R159 to R164)
def nextOf (s : State) (i : Instr) : State := match exec i s with
  | .next t => t
  | _ => State.reset
def loading (sx : Nat) (n : Nat) : State :=
  { (world (fun t => { t with names := [(30, { b32 0 with pend := some 77 })] })) with
    ops := [{ loadOp with toks := [77], kind := .load (.l1 0x20080) n sx .plain 0 }], vale := [{ line := 0x401, data := 0xF2F1F0#1024, owner := 0, dirty := false }] }

theorem test_load_signed : ((nextOf (loading 8 1) (.valueArrival 90)).thread 0).map (fun t => t.names.map (fun p => (p.2.value, p.2.pend))) = some [(0xFFFFFFF0#64, none)] := by decide +kernel
theorem test_load_half : ((nextOf (loading 0 2) (.valueArrival 90)).thread 0).map (fun t => t.names.map (fun p => p.2.value)) = some [0xF1F0#64] := by decide +kernel
theorem test_store : (((nextOf (wOp stOp) (.storePerformed 90)).core 0).l1.map (fun l => (l.line, LineOps.get l.data 0 8, l.dirty))) = [(0x401, 7, 0xF#128)] := by decide +kernel

/-- What an operation does at its home on the word 5: the value answered, whether it is done, and the word after. -/
def atHome (op : WordOp) (size : Nat) (v : Nat) : Nat × Bool × Nat :=
  let w : WordReq := { word0 with op := op, size := size }
  let o := wordDo { wWord w with vale := [{ line := 0x401, data := BitVec.ofNat 1024 v, owner := 0, dirty := false }] } (wordOp w) w
  (o.val, o.ok, (o.s.homeReadN 0x20080 size 0).2)

theorem test_atom_add : atHome (.atom false .add .n32 7#64) 4 5 = (5, true, 12) := by decide +kernel
theorem test_atom_min : atHome (.atom false .min .s32 0xFFFFFFFF#64) 4 5 = (5, true, 0xFFFFFFFF) := by decide +kernel
theorem test_acas : atHome (.cas false 5#64 9#64) 4 5 = (5, true, 9) := by decide +kernel
theorem test_acas_differs : atHome (.cas false 6#64 9#64) 4 5 = (5, true, 5) := by decide +kernel
theorem test_cvswap : atHome (.swap 9#64) 8 5 = (5, true, 9) := by decide +kernel

/-- The one member's trap registers after a word. -/
def trapAfter (s : State) (i : Instr) : Option TrapRegs := ((nextOf s i).thread 0).map (fun t => t.trap)
theorem test_trap : (trapAfter tvec (.trap H 0x0121#16)).map (fun t => (t.code, t.sub, t.addr, t.th)) = some (0x0B, 0x21, 0x121#64, true) := by decide
theorem test_trap_epc : (trapAfter tvec (.trap H 0x0121#16)).map (fun t => (t.epc, t.hdr, t.inmask)) = some (0x10010#64, true, true) := by decide
theorem test_trap_goes_to_vector : ((nextOf tvec (.trap H 0#16)).thread 0).map (fun t => t.pc) = some 0x10040#64 := by decide
theorem test_eret : ((nextOf wHandler (.eret H)).thread 0).map (fun t => t.trap.th) = some false := by decide
theorem test_exhaust : (trapAfter tvec (.drop H 50 1#4)).map (fun t => (t.code, t.sub, t.addr)) = some (0x04, 3, 50#64) := by decide
theorem test_misaligned_load : (trapAfter (tvec) (.ld H .s32 .plain d (.imm (.val 3) 2#16) 0)).map (fun t => (t.code, t.sub, t.addr)) = some (0x05, 1, 0x20082#64) := by decide
theorem test_bra : ((nextOf w0 (.bra H 0xFFFE#16)).thread 0).map (fun t => t.pc) = some 0xFFF8#64 := by decide
theorem test_call_links : (first w0 (.call H 20 1#4 4#16)).map (fun f => f.names.map (fun p => (p.1, p.2.value, p.2.wide))) = some [(20, 0x10010#64, true)] := by decide
theorem test_nap : ((nextOf w0 (.nap H 100#16)).thread 0).map (fun t => t.nap) = some (some 100) := by decide
theorem test_syswr_seed : ((nextOf w0 (.syswr H true (.val 5) (.imm 0x10#16))).ctx 0).seed = 0x10010#64 := by decide
theorem test_syswr_privileged : (trapAfter tvec (.syswr H true (.val 5) (.imm 0x05#16))).map (fun t => (t.code, t.sub)) = some (0x07, 7) := by decide
theorem test_tjoin : ((nextOf w0 (.tjoin H (.imm 5#16))).thread 0).map (fun t => t.teams) = some 0x20#64 := by decide
theorem test_exit : ((nextOf w0 (.exit H)).thread 0).isNone = true := by decide
theorem test_ringcfg : ((nextOf w0 (.ringcfg H (.imm 0x0310#16))).gang 2).bind (fun g => (g.window 0 0).map (fun w => w.kind)) =
    some (.ring { rc := 3, ss := 2, stages := [.free, .free, .free, .free], fptr := 0, pptr := 0, rptr := 0, holder := none }) := by decide
theorem test_store_event_needs_op : exec (.storePerformed 5) w0 = .next w0 := rfl
theorem test_context_create : ((nextOf (inState 0) (.ctxCreate 0)).ctx 0).st = 1 := by decide +kernel
theorem test_debug_read_halt : (nextOf (wHalted 1) (.debugWindowAccess 64 0 0x10000 false 0#64)).lastRead = 0x8002000000000000#128 := by decide +kernel
/-- R31: a clear in the clk of a set leaves the bit where another thread has set it, and clears one that the thread itself has set. -/
def wDecoded (who : Option Nat) : State := setFmtrsv w0 0 who 2#2
theorem test_fmtrsv_clear : [some 0, some 1, none].map (fun who => ((wDecoded who).thread 0).map (fun t =>
    sysRead (sysWrite (wDecoded who) t 0x13 3#64) t 0x13)) = [some 0#64, some 2#64, some 2#64] := by decide
theorem test_power_idle : ((nextOf (wReady w0) (.powerReqIdle 3)).power[3]?).map (fun p => (p.req, p.goal)) = some (1, some (1, 0)) := by decide

/-! ### Bytes of a store -/

def stHome : Op := { opOf (.store (.home 0x30000) 4 .plain 7#128) with va := 0x30000#64 }
def stGlen : Op := { opOf (.store (.glen 0 64) 4 .plain 7#128) with va := 64#64 }

theorem witness_StoredBytes :
    (∃ t, Claim.StoreDue (wOp stOp) 90 stOp t (.l1 0x20080) 4 .plain 7#128 ∧ (wOp stOp).paKind (128 * (0x20080 / 128)) = .device
      ∧ (wOp stOp).dbgOwner (0x20080 / 128) = none ∧ (wOp stOp).pageRetired (128 * (0x20080 / 128)) = false ∧ (wOp stOp).dbgRefuses stOp.ctx 0x20080 4 true = false ∧ ∀ p ∈ (wOp stOp).ops, p.tid = t.id → stOp.id < p.id → ∀ w, p.kind = .word w → w.pa / 128 ≠ 0x20080 / 128)
    ∧ (∃ t, Claim.StoreDue (wOp stHome) 90 stHome t (.home 0x30000) 4 .plain 7#128 ∧ (wOp stHome).dbgOwner (0x30000 / 128) = none
      ∧ (wOp stHome).dbgRefuses stHome.ctx 0x30000 4 true = false
      ∧ l1Find (wOp stHome) t.core (0x30000 / 128) = none)
    ∧ ∃ t, Claim.StoreDue (wOp stGlen) 90 stGlen t (.glen 0 64) 4 .plain 7#128 ∧ Memory.wf ((wOp stGlen).core 0).glen = true :=
  ⟨⟨_, ⟨rfl, rfl, by decide, ⟨_, rfl, rfl⟩, by decide, by decide +kernel, by decide +kernel⟩, by decide +kernel, by decide +kernel, by decide, by decide +kernel, by
      intro p hp _ hid; simp only [wOp, List.mem_singleton] at hp; subst hp; exact absurd hid (by decide)⟩,
   ⟨_, ⟨rfl, rfl, by decide, ⟨_, rfl, rfl⟩, by decide, by decide +kernel, by decide +kernel⟩, by decide +kernel, by decide +kernel, by decide +kernel⟩,
   ⟨_, ⟨rfl, rfl, by decide, ⟨_, rfl, rfl⟩, by decide, by decide +kernel, by decide +kernel⟩, by decide +kernel⟩⟩

/-! ### Counter and barrier words -/

/-- A state whose home holds the word `v` at 0x1008. -/
def wHeldWord (v : Nat) : State := State.reset.homeWriteN 0x1008 8 0 v

theorem witness_CounterAndBarrierWords : (∀ v ∈ [0x0000000100000000, 0x4000000000000005, 0x8000000700030002], (wHeldWord v).paKind (128 * (0x1008 / 128)) = .device
      ∧ (wHeldWord v).dbgOwner (0x1008 / 128) = none ∧ (wHeldWord v).pageRetired (128 * (0x1008 / 128)) = false ∧ Memory.wf (wHeldWord v).mem = true ∧ Claim.homeWord64 (wHeldWord v) 0x1008 = BitVec.ofNat 64 v)
    ∧ (Claim.refuses 0x0000000100000000#64 0x1008)
    ∧ (¬ Claim.refuses 0x4000000000000005#64 0x1008 ∧ (0x4000000000000005#64).getLsbD 63 = false ∧ 2 < ((0x4000000000000005#64).extractLsb' 0 32).toNat)
    ∧ ¬ Claim.refuses 0x8000000700030002#64 0x1008 ∧ (0x8000000700030002#64).getLsbD 63 = true :=
  ⟨by decide +kernel, by unfold Claim.refuses; decide, by unfold Claim.refuses; decide, by unfold Claim.refuses; decide⟩

end Sys2Proof.Tests
end

section
/-! SUPPORT. A step whose next move issues a word, from the agenda through selection to the decoded instruction (R21, R61, R63, R298), and the fetch of one word whose
checks pass (R284, R337). -/

namespace Sys2Proof.Machine

/-! ## From the agenda to exec -/

/-- A step makes the first move of its agenda. -/
theorem step_of_agenda {s : State} {m : Move} {rest : List Move} (h : s.agenda = m :: rest) :
    step s = settleMove s (runMove m { s with agenda := rest }) := by
  unfold step
  rw [h]

/-- R298, R432: a group that may be selected acts at once on a die in RUN. -/
theorem select_of_maySelect {core uid : Nat} {s : State} {act : State → Out} {merge : Bool} (hm : maySelect s core uid merge = true)
    (hp : ∀ p, s.power[dieOf core]? = some p → p.st = 0) : select core uid s act merge = act s := by
  unfold select
  rw [hm, if_neg (by decide)]
  cases h : s.power[dieOf core]? with
  | none => rfl
  | some p => exact if_pos (hp p h)

/-- R21, R63, R67: the pipe that admits the group is taken, and the attempt runs the decoded instruction. Only before the issue of the word has begun can a fault
be due at it. -/
theorem issueWord_of_decodes {s u : State} {core uid : Nat} {g : Grp} {i : Instr} (hu : u = { s with focus := some (core, uid) }) (hg : u.grp = some g)
    (hr : running u g.ctx = true) (ho : pipeOpen u core uid g.a = true) (hm : g.mem ≠ [])
    (hf : g.run.issued = false →
      takeDeferred (takePipe u core uid g.a) core g.mem (wordDue (g.clause.words.getD g.clause.idx 0#64)) g.pc (some g.clause) = none
      ∧ quotaTrap (takePipe u core uid g.a) g = none)
    (hd : decodeIn g.clause.hdr.eng g.clause.isLast (g.clause.words.getD g.clause.idx 0#64) = .ok i) :
    issueWord s core uid = .run i (takePipe u core uid g.a) := by
  have admitted : (!running u g.ctx || !pipeOpen u core uid g.a || g.mem.isEmpty) = false := by simp [hr, ho, hm]
  subst hu
  unfold issueWord
  simp only [hg, admitted, hd]
  cases hi : g.run.issued with
  | true => rfl
  | false =>
    obtain ⟨noDeferred, noQuota⟩ := hf hi
    simp only [noDeferred, noQuota, Bool.false_eq_true, if_false]

/-- A move whose attempt runs an instruction is its exec, with the issue slots settled. -/
theorem issueMove_of_run {s t : State} {core uid : Nat} {i : Instr} (h : issueWord s core uid = .run i t) :
    issueMove core uid s = settleIssue s core uid (exec i t) := by
  unfold issueMove
  rw [h]

/-- R298: a step that issues a word for a selected group is exec of the instruction that the attempt runs. -/
theorem step_of_issueWord {s t : State} {core uid : Nat} {rest : List Move} {i : Instr} (ha : s.agenda = .issue core uid :: rest)
    (hs : maySelect { s with agenda := rest } core uid = true) (hp : ∀ p, s.power[dieOf core]? = some p → p.st = 0)
    (hi : issueWord { s with agenda := rest } core uid = .run i t) :
    step s = settleMove s (settleIssue { s with agenda := rest } core uid (exec i t)) :=
  calc step s = settleMove s (select core uid { s with agenda := rest } (issueMove core uid)) := step_of_agenda ha
    _ = settleMove s (issueMove core uid { s with agenda := rest }) := by rw [select_of_maySelect hs hp]
    _ = settleMove s (settleIssue { s with agenda := rest } core uid (exec i t)) := by rw [issueMove_of_run hi]

/-! ## The fetch of one word -/

/-- R337: the fetch of a word whose region, translation, window and page pass their checks waits at the Vale or reads the instruction cache. -/
theorem fetchWord_of_checks {s : State} {core c pa : Nat} {ms : List Thread} {va : W64}
    (hx : ∀ t ∈ ms, ∃ k, s.task t.task = some k ∧ regionOk k va.toNat 8 [6] = true) (ht : translate s core c va rightsX = .ok pa)
    (hd : s.dbgRefuses c pa 8 false = false) (hp : pageClear s c (va.toNat / 65536) = true) :
    fetchWord s core c ms va = if fetchWaits s core c va pa then .wait else .ok (icacheRead s core c va pa).1 (icacheRead s core c va pa).2 := by
  unfold fetchWord
  rw [if_neg, ht]
  · simp only [hd, hp, Bool.not_true, Bool.false_eq_true, if_false]
  · rw [List.any_eq_true]
    rintro ⟨t, hmem, undeclared⟩
    obtain ⟨k, hk, declared⟩ := hx t hmem
    simp [hk, declared] at undeclared

/-- R284: a line of the instruction cache gives the word, and nothing changes. -/
theorem icacheRead_of_hit {s : State} {core c pa : Nat} {va : W64} {l : ILine} (h : icacheFind s core c va = some l) :
    icacheRead s core c va pa = (BitVec.ofNat 64 (LineOps.get l.data (pa % 128) 8), s) := by
  unfold icacheRead
  rw [h]

/-- R284: the word of a line that neither the instruction cache nor the L1 holds is that of the line's home. -/
theorem icacheRead_of_homeFill {s : State} {core c pa : Nat} {va : W64} (hi : icacheFind s core c va = none) (hl : l1Current s core (pa / 128) = none)
    (hk : s.paKind pa ≠ .peer) : (icacheRead s core c va pa).1 = BitVec.ofNat 64 (LineOps.get (s.homeRead (pa / 128) c).2 (pa % 128) 8) := by
  unfold icacheRead
  simp [hi, hl, hk]

/-- R91: a fetch that the instruction cache serves does not reach the Vale. -/
theorem fetchWaits_of_hit {s : State} {core c pa : Nat} {va : W64} {l : ILine} (h : icacheFind s core c va = some l) : fetchWaits s core c va pa = false := by
  simp [fetchWaits, h]

/-- R91: only a view under a flush holds a fetch back. -/
theorem fetchWaits_of_not_viewBusy {s : State} {core c pa : Nat} {va : W64} (h : s.viewBusy pa = false) : fetchWaits s core c va pa = false := by
  simp [fetchWaits, h]

/-! ## The statement -/

/-- Settles O50: the step goes through selection and the attempt at the word, the fetch through its checks and then the instruction cache or the fill. -/
theorem stepRunsDecoded : Obligations.StepRunsDecoded := by
  unfold Obligations.StepRunsDecoded
  refine ⟨?_, ?_⟩
  · intro s u core uid rest g i ha hu hg hr ho hm hs hp hf hd
    exact step_of_issueWord ha hs hp (issueWord_of_decodes hu hg hr ho hm hf hd)
  · intro s core c pa ms va hx ht hd hp hk
    rw [fetchWord_of_checks hx ht hd hp]
    refine ⟨fun l hit => ?cached, fun miss hl hv => ?filled⟩
    case cached => rw [fetchWaits_of_hit hit, icacheRead_of_hit hit, if_neg Bool.false_ne_true]
    case filled => exact ⟨_, by rw [fetchWaits_of_not_viewBusy hv, icacheRead_of_homeFill miss hl hk, if_neg Bool.false_ne_true]⟩

end Sys2Proof.Machine
end

section
/-! SUPPORT. Every step leaves a next state (R21, R293, R374): a word answers for the group in focus and an event always, an attempt at a word has its group in focus, and
what follows a move keeps a next state. -/

namespace Sys2Proof.Machine

/-- The answer is a next state: the device goes on. -/
def GoesOn (o : Out) : Prop := ∃ t, o = .next t

theorem goesOn_next (s : State) : GoesOn (.next s) := ⟨s, rfl⟩

/-! ## What an instruction answers -/

/-- The two forms of an answer (R61, R293): an event's is a next state, a word's is what it does for the group in focus. -/
inductive Answer (s : State) : Bool → Out → Prop
  | event (t : State) : Answer s true (.next t)
  | word (f : Grp → State) : Answer s false (withGrp s f)

/-- R61: the rows that the encoder has a word for are those that are no events. -/
theorem encode_isSome (i : Instr) : (encode i).isSome = !i.isEvent := by
  cases i with
  | lea _ _ _ b => cases b <;> rfl
  | isetp _ _ _ _ f => cases f <;> rfl
  | vote _ f _ => cases f <;> rfl
  | xcount _ _ f => cases f <;> rfl
  | cellq _ _ f => cases f <;> rfl
  | lesc _ _ b => cases b <;> rfl
  | icinv _ r => cases r <;> rfl
  | _ => rfl

/-- R61, R293: exec answers as the kind of the instruction has it. The words of several forms answer so in each. -/
theorem exec_answer (i : Instr) (s : State) : Answer s i.isEvent (exec i s) := by
  cases i with
  | lea _ _ _ b => cases b <;> constructor
  | isetp _ _ _ _ f => cases f <;> constructor
  | vote _ f _ => cases f <;> constructor
  | xcount _ _ f => cases f <;> constructor
  | cellq _ _ f => cases f <;> constructor
  | icinv _ r => cases r <;> constructor
  | _ => constructor

/-- An answer is a next state where, for a word, a group is in focus: only without one has a word no effect to give (log entry 51). -/
theorem Answer.goesOn {s : State} {isEvent : Bool} {o : Out} (h : Answer s isEvent o) (hg : isEvent = false → s.grp.isSome = true) : GoesOn o := by
  cases h with
  | event t => exact goesOn_next t
  | word f =>
    obtain ⟨g, hg⟩ := Option.isSome_iff_exists.1 (hg rfl)
    exact ⟨f g, withGrp_some f hg⟩

/-- R293, R374: every event leaves a next state, and every word for a group: a fault of the word is a trap of the group's threads. -/
theorem exec_goesOn (i : Instr) {s : State} (hg : i.isEvent = false → s.grp.isSome = true) : GoesOn (exec i s) := (exec_answer i s).goesOn hg

/-- A row without a word is an event, and leaves a next state in every state. -/
theorem exec_goesOn_of_encode_none {i : Instr} (h : ¬ (encode i).isSome = true) (s : State) : GoesOn (exec i s) :=
  exec_goesOn i (fun word => absurd (by rw [encode_isSome, word]; rfl) h)

/-! ## The group of an attempt -/

/-- A group is in focus where the same core and group are in focus and the tables agree. -/
theorem SameTable.grp_isSome {s u : State} (h : SameTable s u) (hf : u.focus = s.focus) : u.grp.isSome = s.grp.isSome := by
  unfold State.grp
  rw [hf]
  cases s.focus with
  | none => rfl
  | some p =>
    simp only [h.entry]
    cases s.entry p.1 p.2 with
    | none => rfl
    | some e => cases hr : e.run <;> simp only [hr, Option.isSome]

/-- Taking a pipe leaves the table. -/
theorem takePipe_table (s : State) (core uid : Nat) (a : Bool) : SameTable s (takePipe s core uid a) :=
  .updCore _ _ _ (fun k => by cases a <;> rfl)

/-- R21, R293: an attempt runs its instruction for the group that it found in focus, which takes its pipe. -/
theorem issueWord_run {s t : State} {core uid : Nat} {i : Instr} (h : issueWord s core uid = .run i t) :
    ∃ g, State.grp { s with focus := some (core, uid) } = some g ∧ t = takePipe { s with focus := some (core, uid) } core uid g.a := by
  unfold issueWord at h
  dsimp only at h
  split at h
  next => cases h
  next g hg =>
  refine ⟨g, hg, ?_⟩
  split at h
  · cases h
  split at h
  -- A word that issued before and is not complete: only the decoding can stop it.
  · split at h <;> cases h
    rfl
  -- A new word: a deferred fault, a quota and the decoding can stop it.
  split at h
  · cases h
  split at h
  · cases h
  split at h <;> cases h
  rfl

/-- R293: the instruction of an attempt has its group in focus. -/
theorem issueWord_run_grp {s t : State} {core uid : Nat} {i : Instr} (h : issueWord s core uid = .run i t) : t.grp.isSome = true := by
  obtain ⟨g, hg, rfl⟩ := issueWord_run h
  rw [(takePipe_table _ core uid g.a).grp_isSome rfl, hg]
  rfl

/-! ## What surrounds an answer keeps it a next state -/

theorem settleIssue_goesOn (s : State) (core uid : Nat) {o : Out} (h : GoesOn o) : GoesOn (settleIssue s core uid o) := by
  obtain ⟨t, rfl⟩ := h
  unfold settleIssue
  dsimp only
  split <;> exact goesOn_next _

theorem leavePipe_goesOn (s : State) (core uid : Nat) {o : Out} (h : GoesOn o) : GoesOn (leavePipe s core uid o) := by
  obtain ⟨t, rfl⟩ := h
  unfold leavePipe
  -- Each branch is the answer itself or a next state in its place.
  repeat' split
  all_goals exact goesOn_next _

theorem settleMove_goesOn (s : State) {o : Out} (h : GoesOn o) : GoesOn (settleMove s o) := by
  obtain ⟨t, rfl⟩ := h
  exact goesOn_next _

/-- R432: a group that may not act, or whose die is not in RUN, leaves a next state without acting. -/
theorem select_goesOn (core uid : Nat) (s : State) (act : State → Out) (merge : Bool) (h : GoesOn (act s)) : GoesOn (select core uid s act merge) := by
  unfold select
  split
  · exact goesOn_next _
  split
  · exact h
  split
  · exact h
  split <;> exact goesOn_next _

/-! ## Every move leaves a next state -/

/-- R21, R374: an attempt at a word leaves a next state, whether the word issues, stalls or faults. -/
theorem issueMove_goesOn (core uid : Nat) (s : State) : GoesOn (issueMove core uid s) := by
  cases h : issueWord s core uid with
  | no => exact ⟨s, by unfold issueMove; rw [h]⟩
  | stop t => exact ⟨t, by unfold issueMove; rw [h]⟩
  | run i t =>
    rw [issueMove_of_run h]
    exact settleIssue_goesOn s core uid (exec_goesOn i (fun _ => issueWord_run_grp h))

/-- R21, R293, R374: the events with conditions of their own, the other rows, and the moves without a row. A word listed as an event is passed over. -/
theorem runMove_goesOn (m : Move) (s : State) : GoesOn (runMove m s) := by
  unfold runMove
  split
  next core uid merge =>
    exact select_goesOn core uid s _ merge (leavePipe_goesOn s core uid (exec_goesOn (.clauseStart core uid merge) (fun word => nomatch word)))
  next c core => exact exec_goesOn (.stallSample c core) (fun word => nomatch word)
  next e _ _ =>
    split
    case isTrue => exact goesOn_next s
    case isFalse noWord => exact exec_goesOn_of_encode_none noWord s
  next core uid => exact select_goesOn core uid s _ false (issueMove_goesOn core uid s)
  next c => exact goesOn_next _
  next c v => exact goesOn_next _
  next => exact goesOn_next _

/-- A step with an empty agenda makes the move that the device makes by itself (log entry 1). -/
theorem step_of_noAgenda {s : State} (h : s.agenda = []) : step s = settleMove s (runMove (autoMove s) s) := by
  unfold step
  rw [h]

/-- Settles O60: a step is a move and what settles it, and every move leaves a next state. -/
theorem everyStepMoves : Obligations.EveryStepMoves := by
  unfold Obligations.EveryStepMoves
  intro s
  cases h : s.agenda with
  | nil =>
    rw [step_of_noAgenda h]
    exact settleMove_goesOn s (runMove_goesOn (autoMove s) s)
  | cons m rest =>
    rw [step_of_agenda h]
    exact settleMove_goesOn s (runMove_goesOn m _)

end Sys2Proof.Machine
end

section
/-! SUPPORT. SYSRD and the fields of the system registers (R384 to R386, R389): a word put together from fields reads each field back. -/

namespace Sys2Proof.Machine

/-! ## The fields of a word put together from parts -/

/-- `Claim.fields` for a word of any width: each field's lowest bit, width and value. -/
def FieldsOf {n : Nat} (x : BitVec n) (l : List (Nat × Nat × Nat)) : Prop := ∀ p ∈ l, (x.extractLsb' p.1 p.2.1).toNat = p.2.2

theorem fields_iff_fieldsOf (x : W64) (l : List (Nat × Nat × Nat)) : Claim.fields x l ↔ FieldsOf x l := Iff.rfl

/-- A list of fields, moved up above `n` further bits. -/
def fieldsAbove (n : Nat) (l : List (Nat × Nat × Nat)) : List (Nat × Nat × Nat) := l.map (fun p => (p.1 + n, p.2))

@[simp] theorem fieldsAbove_append (n : Nat) (l l' : List (Nat × Nat × Nat)) : fieldsAbove n (l ++ l') = fieldsAbove n l ++ fieldsAbove n l' :=
  List.map_append

@[simp] theorem fieldsAbove_nil (n : Nat) : fieldsAbove n [] = [] := rfl

@[simp] theorem fieldsAbove_cons (n : Nat) (p : Nat × Nat × Nat) (l : List (Nat × Nat × Nat)) :
    fieldsAbove n (p :: l) = (p.1 + n, p.2) :: fieldsAbove n l := rfl

namespace FieldsOf

variable {m n : Nat} {x : BitVec m} {y : BitVec n} {l l' : List (Nat × Nat × Nat)}

theorem whole {v : Nat} (h : x.toNat = v) : FieldsOf x [(0, m, v)] := by
  intro p hp
  obtain rfl := List.mem_singleton.1 hp
  rw [BitVec.extractLsb'_eq_self, h]

theorem mono (h : FieldsOf x l) (hl : l' ⊆ l) : FieldsOf x l' := fun p hp => h p (hl hp)

/-- The fields of the low part stay, where they lie within it, and those of the high part move up. -/
theorem append (h : FieldsOf x l) (h' : FieldsOf y l') (hl : ∀ p ∈ l', p.1 + p.2.1 ≤ n) :
    FieldsOf (x ++ y) (fieldsAbove n l ++ l') := by
  intro p hp
  rcases List.mem_append.1 hp with hp | hp
  · obtain ⟨q, hq, rfl⟩ := List.mem_map.1 hp
    rw [BitVec.extractLsb'_append_eq_of_le (Nat.le_add_left n q.1), Nat.add_sub_cancel]
    exact h q hq
  · rw [BitVec.extractLsb'_append_eq_of_add_le (hl p hp)]
    exact h' p hp

/-- One further field below. -/
theorem snoc {v : Nat} (h : FieldsOf x l) (hy : y.toNat = v) : FieldsOf (x ++ y) (fieldsAbove n l ++ [(0, n, v)]) :=
  h.append (whole hy) (fun p hp => by obtain rfl := List.mem_singleton.1 hp; exact (Nat.zero_add n).le)

/-- A field extended with zeros. -/
theorem zeroExtend {k v : Nat} (hx : x.toNat = v) : FieldsOf (x.zeroExtend (m + k)) [(m, k, 0), (0, m, v)] := by
  intro p hp
  rcases List.mem_cons.1 hp with rfl | hp
  · have small : x.toNat < 2 ^ (m + k) := x.isLt.trans_le (Nat.pow_le_pow_right two_pos (Nat.le_add_right m k))
    simp [Nat.shiftRight_eq_div_pow, Nat.mod_eq_of_lt small, Nat.div_eq_of_lt x.isLt]
  · obtain rfl := List.mem_singleton.1 hp
    rw [BitVec.extractLsb'_setWidth_of_le (by simp), BitVec.extractLsb'_eq_self, hx]

end FieldsOf

/-! ## The registers of several fields -/

/-- R386: the fields of FLTINFO. -/
theorem fltinfo_fields (r : TrapRegs) : Claim.fields r.info [(48, 16, 0), (32, 16, r.ord.toNat), (24, 8, 0), (21, 3, r.src % 8), (20, 1, r.th.toNat),
    (19, 1, r.hdr.toNat), (18, 1, r.rpl.toNat), (17, 1, r.defer.toNat), (16, 1, r.inmask.toNat), (8, 8, r.sub % 256), (0, 8, r.code % 256)] := by
  have info := ((((((((((FieldsOf.whole (x := 0#16) rfl).snoc (y := r.ord) rfl).snoc (y := 0#8) rfl).snoc (BitVec.toNat_ofNat r.src 3)).snoc
    (BitVec.toNat_ofBool r.th)).snoc (BitVec.toNat_ofBool r.hdr)).snoc (BitVec.toNat_ofBool r.rpl)).snoc (BitVec.toNat_ofBool r.defer)).snoc
    (BitVec.toNat_ofBool r.inmask)).snoc (BitVec.toNat_ofNat r.sub 8)).snoc (BitVec.toNat_ofNat r.code 8)
  rw [fields_iff_fieldsOf, TrapRegs.info]
  simpa using info

/-- The nine bits of MSTATE about a plane (R252). -/
def Plane.bits (p : Plane) : BitVec 9 := BitVec.ofNat 2 p.status ++ (if p.status = 0 then 0#7 else p.ty.code ++ BitVec.ofNat 3 p.wm)

theorem plane_fields (p : Plane) : FieldsOf p.bits (Claim.planeFields p 0) := by
  have content : FieldsOf (if p.status = 0 then 0#7 else p.ty.code ++ BitVec.ofNat 3 p.wm)
      [(3, 4, if p.status = 0 then 0 else p.ty.code.toNat), (0, 3, if p.status = 0 then 0 else p.wm % 8)] := by
    by_cases h : p.status = 0
    · simp only [h, if_true]
      exact (FieldsOf.whole (x := 0#4) rfl).snoc (y := 0#3) rfl
    · simp only [h, if_false]
      exact (FieldsOf.whole (x := p.ty.code) rfl).snoc (BitVec.toNat_ofNat p.wm 3)
  exact (FieldsOf.whole (BitVec.toNat_ofNat p.status 2)).append content (by simp)

theorem planeFields_above (n lo : Nat) (p : Plane) : fieldsAbove n (Claim.planeFields p lo) = Claim.planeFields p (lo + n) := by
  simp [fieldsAbove, Claim.planeFields, Nat.add_right_comm]

theorem planeFields_fit (p : Plane) : ∀ q ∈ Claim.planeFields p 0, q.1 + q.2.1 ≤ 9 := by simp [Claim.planeFields]

/-- MSTATE with what it says about the loop read field by field. -/
theorem MtxArray.state_eq (a : MtxArray) : a.state = 0#24 ++ BitVec.ofNat 8 ((a.loop.map Loop.fcode).getD 0)
    ++ BitVec.ofNat 2 ((a.loop.map (fun l => if l.stopped = true then 2 else 1)).getD 0) ++ BitVec.ofBool a.s32acc
    ++ BitVec.ofBool ((a.loop.map Loop.mark).getD false) ++ a.active.bits ++ a.shadow.bits ++ BitVec.ofNat 3 a.queue.length ++ 0#7 := by
  unfold MtxArray.state
  cases a.loop <;> rfl

/-- R252: the fields of MSTATE. -/
theorem mstate_fields (a : MtxArray) : Claim.fields a.state ([(40, 24, 0), (32, 8, (a.loop.map Loop.fcode).getD 0 % 256),
    (30, 2, (a.loop.map (fun l => if l.stopped = true then 2 else 1)).getD 0), (29, 1, a.s32acc.toNat), (28, 1, ((a.loop.map Loop.mark).getD false).toNat),
    (7, 3, a.queue.length % 8), (0, 7, 0)] ++ Claim.planeFields a.active 19 ++ Claim.planeFields a.shadow 10) := by
  have running : (BitVec.ofNat 2 ((a.loop.map (fun l => if l.stopped = true then 2 else 1)).getD 0)).toNat
      = (a.loop.map (fun l => if l.stopped = true then 2 else 1)).getD 0 := by
    cases a.loop with
    | none => rfl
    | some l => cases h : l.stopped <;> simp [h]
  have parts := ((((((((FieldsOf.whole (x := 0#24) rfl).snoc (BitVec.toNat_ofNat ((a.loop.map Loop.fcode).getD 0) 8)).snoc running).snoc
    (BitVec.toNat_ofBool a.s32acc)).snoc (BitVec.toNat_ofBool ((a.loop.map Loop.mark).getD false))).append (plane_fields a.active) (planeFields_fit _)).append
    (plane_fields a.shadow) (planeFields_fit _)).snoc (BitVec.toNat_ofNat a.queue.length 3)).snoc (y := 0#7) rfl
  rw [a.state_eq]
  refine parts.mono ?_
  intro p
  simp only [fieldsAbove_append, fieldsAbove_cons, fieldsAbove_nil, planeFields_above, List.mem_append, List.mem_cons]
  tauto

/-! ## SYSRD -/

/-- R31: no lane waits for its decoding conversions. -/
theorem convWaits_false {ls : List Lane} {k : Nat} (h : Claim.noConversion ls k) : convWaits ls k = false := by
  unfold convWaits
  simp only [List.any_eq_false, Bool.and_eq_true, beq_iff_eq, not_and, Bool.not_eq_true]
  exact fun l hl hi => h l hl hi

/-- R389: SYSRD of a register of R384 issues. -/
theorem sysrdReads : Claim.SysrdReads := by
  rintro h wide d i s g w rfl ready listed free
  unfold Claim.sysrdSpec at ready listed free ⊢
  have inMap : ∀ l ∈ lanesRead { h := h, srcs := [Opnd.index i], dst := Dest.ofDst d wide, a := true } s g,
      (if 0x1B < elemAt 32 0 (l.v 0) then some (0, 0x07, 5, 0#64) else none : Option (Nat × Nat × Nat × W64)) = none :=
    fun l hl => if_neg (Nat.not_lt.2 (listed l hl))
  change execSysrd h wide d i s = _
  unfold execSysrd
  rw [withGrp_some _ ready.group]
  dsimp only
  rw [prepare_ready ready]
  dsimp only
  rw [convWaits_false free, checked_ok _ inMap]
  rfl

/-- R31, R187, R233, R252, R304, R385, R386, R396: what each register reads. -/
theorem registerValues : Claim.RegisterValues := by
  rintro s t c a r rfl rfl rfl
  refine ⟨?_, ?_, ?_, ?_, ?_, ?_, ?_, ?_⟩
  · intro p hp
    fin_cases hp <;> rfl
  · exact FieldsOf.zeroExtend (k := 52) (BitVec.toNat_ofNat (s.ctx t.ctx).cellcap 12)
  · exact ((FieldsOf.whole (x := 0#32) rfl).snoc (BitVec.toNat_ofNat _ 16)).snoc (BitVec.toNat_ofNat _ 16)
  · exact fltinfo_fields t.trap
  · exact ((FieldsOf.whole (x := 0#57) rfl).snoc (BitVec.toNat_ofBool _)).snoc (BitVec.toNat_ofNat _ 6)
  · simp only [sysRead]
    cases s.ilk t.ctx with
    | true => exact FieldsOf.zeroExtend (x := 1#1) (k := 63) rfl
    | false => exact FieldsOf.zeroExtend (x := 0#1) (k := 63) rfl
  · intro other
    simp [sysRead, other]
  · intro holds
    refine ⟨?_, ?_⟩
    · simp only [sysRead, holds, beq_self_eq_true, if_true]
      exact FieldsOf.zeroExtend (k := 55) (BitVec.toNat_ofNat _ 9)
    · simp only [sysRead, holds, beq_self_eq_true, if_true]
      exact mstate_fields _

/-- Settles O7: the word issues with what it reads, and each register reads its fields. -/
theorem systemRegisterReads : Obligations.SystemRegisterReads := by
  unfold Obligations.SystemRegisterReads
  exact ⟨sysrdReads, registerValues⟩

end Sys2Proof.Machine
end

section
/-! SUPPORT. SYSWR and what SYSRD reads after it (R31, R384, R386, R389): a write is an update of one record, of the context or of the thread, and a read
looks at one register. -/

namespace Sys2Proof.Machine

/-! ## Cells of a lane after an update -/

/-- A thread's seat: its core, its lane and its context, and the cells that the pools count for it (R170, R179). -/
structure Seat where
  core : Nat
  lane : Nat
  ctx : Nat
  held : Nat
  kept : Nat

def Thread.seat (t : Thread) : Seat :=
  { core := t.core, lane := t.lane, ctx := t.ctx, held := if t.parked then 0 else t.cells, kept := t.heldFor }

/-- The seats of a lane. -/
def State.seats (s : State) (core lane : Nat) : List Seat :=
  (s.threads.map Thread.seat).filter (fun x => x.core == core && x.lane == lane && ((s.ctx x.ctx).st == 1 || (s.ctx x.ctx).st == 2))

namespace State

variable {s : State} {core lane : Nat}

theorem laneThreads_seats (s : State) (core lane : Nat) : (s.laneThreads core lane).map Thread.seat = s.seats core lane := by
  unfold seats
  rw [List.filter_map]
  rfl

/-- The cells taken from a lane's pool are counted over its seats. -/
theorem poolUsed_eq_seats (s : State) (core lane : Nat) : s.poolUsed core lane = ((s.seats core lane).map (fun x => x.held + x.kept)).sum := by
  rw [← laneThreads_seats, List.map_map]
  rfl

/-- So are the cells of a context in it. -/
theorem ctxCells_eq_seats (s : State) (core lane ctx : Nat) :
    s.ctxCells core lane ctx = (((s.seats core lane).filter (fun x => x.ctx == ctx)).map Seat.held).sum := by
  rw [← laneThreads_seats, List.filter_map, List.map_map]
  rfl

/-- An update of a context that keeps its status keeps the seats of every lane. -/
theorem seats_updCtx {c : Nat} {f : Context → Context} (hf : ∀ k, (f k).st = k.st) : (s.updCtx c f).seats core lane = s.seats core lane := by
  have st (d : Nat) : ((s.updCtx c f).ctx d).st = (s.ctx d).st := by
    by_cases same : c = d
    · subst same
      by_cases hc : c < s.contexts.length
      · rw [ctx_updCtx s c f hc, hf]
      · simp [updCtx, setCtx, ctx, hc]
    · rw [ctx_updCtx_ne s c d f same]
  unfold seats
  simp only [updCtx_threads, st]

/-- An update of a thread that keeps its seat keeps the seats of every lane. -/
theorem seats_updThread {i : Nat} {f : Thread → Thread} (hf : ∀ t, (f t).seat = t.seat) : (s.updThread i f).seats core lane = s.seats core lane := by
  have seat (t : Thread) : (if t.id = i then f t else t).seat = t.seat := by
    split
    · exact hf t
    · rfl
  have threads : (s.updThread i f).threads.map Thread.seat = s.threads.map Thread.seat := by
    rw [updThread, List.map_map]
    exact List.map_congr_left (fun t _ => seat t)
  unfold seats
  rw [threads]
  rfl

end State

/-! ## What SYSRD reads after an update -/

/-- The registers of R384 that a context holds, as SYSRD reads them. -/
def Context.sysReg (c : Context) (i : Nat) : Option W64 :=
  match i with
  | 0x03 => some (c.promise.zeroExtend 64)
  | 0x04 => some (c.fairlim.zeroExtend 64)
  | 0x05 => some (c.yieldspan.zeroExtend 64)
  | 0x06 => some ((BitVec.ofNat 12 c.cellcap).zeroExtend 64)
  | 0x08 => some c.spillcnt
  | 0x10 => some c.seed
  | 0x12 => some c.dropleak
  | 0x13 => some (c.fmtrsv.zeroExtend 64)
  | 0x14 => some (c.watch.getD 0 0#64)
  | 0x15 => some (c.watch.getD 1 0#64)
  | 0x16 => some (c.watch.getD 2 0#64)
  | 0x17 => some (c.watch.getD 3 0#64)
  | 0x18 => some (c.notchlim.zeroExtend 64)
  | 0x1A => some c.trapvec
  | _ => none

theorem sysRead_of_sysReg {s : State} {t : Thread} {i : Nat} {x : W64} (h : (s.ctx t.ctx).sysReg i = some x) : sysRead s t i = x := by
  unfold Context.sysReg at h
  split at h <;> cases h <;> rfl

/-- An update of the thread's context changes what the thread reads of a register only with the register itself, or, for CELLFREE, with CELLCAP. -/
theorem sysRead_updCtx {s : State} {t : Thread} {f : Context → Context} {j : Nat} (hc : t.ctx < s.contexts.length) (cfg : ∀ c, (f c).cfg = c.cfg)
    (st : ∀ c, (f c).st = c.st) (cap : j = 0x07 → ∀ c, (f c).cellcap = c.cellcap) (reg : ∀ c, (f c).sysReg j = c.sysReg j) :
    sysRead (s.updCtx t.ctx f) t j = sysRead s t j := by
  cases h : (s.ctx t.ctx).sysReg j with
  | some x =>
    rw [sysRead_of_sysReg h, sysRead_of_sysReg (x := x) (by rw [State.ctx_updCtx s _ f hc, reg, h])]
  | none =>
    have priv : (s.updCtx t.ctx f).priv t.ctx = s.priv t.ctx := by rw [State.priv, State.ctx_updCtx s _ f hc, cfg]; rfl
    have ilk : (s.updCtx t.ctx f).ilk t.ctx = s.ilk t.ctx := by rw [State.ilk, State.ctx_updCtx s _ f hc, cfg]; rfl
    -- The registers of the context are no case here, and the others look at the context for CFG, CELLCAP and the seats alone.
    unfold sysRead
    split <;> simp_all [Context.sysReg, State.poolFree, State.poolUsed_eq_seats, State.ctxCells_eq_seats, State.seats_updCtx]

/-- An update of a thread that keeps its seat changes what a thread reads of a register only through the thread itself. -/
theorem sysRead_updThread {s : State} {i : Nat} {f : Thread → Thread} (hf : ∀ t, (f t).seat = t.seat) (u : Thread) (j : Nat) :
    sysRead (s.updThread i f) u j = sysRead s u j := by
  unfold sysRead
  simp only [State.updThread_ctx, State.updThread_core, State.updThread_clk, State.updThread_priv, State.updThread_ilk, State.poolFree,
    State.poolUsed_eq_seats, State.ctxCells_eq_seats, State.seats_updThread hf] <;> rfl

/-! ## The bits that a write leaves -/

/-- A mask of the low bits keeps a field at the bottom of the word. -/
theorem zeroExtend_extract_low (n : Nat) (v : W64) : (v.extractLsb' 0 n).zeroExtend 64 = v &&& BitVec.ofNat 64 (2 ^ n - 1) := by
  ext k hk
  have mask : (BitVec.ofNat 64 (2 ^ n - 1)).getLsbD k = decide (k < n) := by
    rw [BitVec.getLsbD_ofNat, Nat.testBit_two_pow_sub_one, decide_eq_true hk, Bool.true_and]
  rw [BitVec.getElem_and, ← BitVec.getLsbD_eq_getElem (x := BitVec.ofNat 64 _), mask]
  simp [BitVec.getLsbD_eq_getElem, hk, Bool.and_comm]

/-! ## What SYSWR updates -/

/-- The registers of R384 that SYSWR writes in the context. -/
def contextRegs : List Nat := [0x03, 0x04, 0x05, 0x06, 0x08, 0x10, 0x12, 0x13, 0x14, 0x15, 0x16, 0x17, 0x18, 0x1A]

/-- R384, R389: SYSWR of a register of the context leaves the others as the thread reads them, but CELLFREE after CELLCAP. -/
theorem sysRead_sysWrite_context {s : State} {t : Thread} {i j : Nat} (v : W64) (hc : t.ctx < s.contexts.length) (hi : i ∈ contextRegs) (hj : j ≠ i)
    (free : ¬ (i = 0x06 ∧ j = 0x07)) : sysRead (sysWrite s t i v) t j = sysRead s t j := by
  unfold contextRegs at hi
  fin_cases hi
  all_goals
    simp only [sysWrite, clearFmtrsv]
    refine sysRead_updCtx hc (fun _ => rfl) (fun _ => rfl) (fun cellfree _ => ?_) (fun c => ?_)
    · simp_all
    · unfold Context.sysReg
      split <;> simp_all

/-- SYSWR of a register of the context leaves every thread. -/
theorem sysWrite_context_thread {i : Nat} (s : State) (t : Thread) (v : W64) (hi : i ∈ contextRegs) (k : Nat) : (sysWrite s t i v).thread k = s.thread k := by
  unfold contextRegs at hi
  fin_cases hi <;> rfl

/-- R304: FAIRLIM is at least 16. -/
theorem fairlim_readBack (v : W64) : (BitVec.ofNat 16 (max 16 (v.extractLsb' 0 16).toNat)).zeroExtend 64 = Claim.readBack 0x04 v := by
  change _ = if (v &&& 0xFFFF#64).toNat < 16 then 16#64 else v &&& 0xFFFF#64
  rw [show v &&& 0xFFFF#64 = (v.extractLsb' 0 16).zeroExtend 64 from (zeroExtend_extract_low 16 v).symm, BitVec.toNat_setWidth_of_le (by decide)]
  generalize v.extractLsb' 0 16 = x
  split
  next small => rw [max_eq_left small.le]; rfl
  next large => rw [max_eq_right (Nat.le_of_not_lt large), BitVec.ofNat_toNat, BitVec.setWidth_eq]

/-- R187: CELLCAP lies between 8 and the cells of a lane. -/
theorem cellcap_readBack (v : W64) :
    (BitVec.ofNat 12 (min Config.cellsPerLane (max 8 (v.extractLsb' 0 12).toNat))).zeroExtend 64 = Claim.readBack 0x06 v := by
  change _ = if (v &&& 0xFFF#64).toNat < 8 then 8#64 else if Config.cellsPerLane < (v &&& 0xFFF#64).toNat then 2048#64 else v &&& 0xFFF#64
  rw [show v &&& 0xFFF#64 = (v.extractLsb' 0 12).zeroExtend 64 from (zeroExtend_extract_low 12 v).symm, BitVec.toNat_setWidth_of_le (by decide)]
  generalize v.extractLsb' 0 12 = x
  split
  next small => rw [max_eq_left small.le]; rfl
  next atLeast =>
    rw [max_eq_right (Nat.le_of_not_lt atLeast)]
    split
    next large => rw [min_eq_left large.le]; rfl
    next within => rw [min_eq_right (Nat.le_of_not_lt within), BitVec.ofNat_toNat, BitVec.setWidth_eq]

/-- R31, R187, R304, R386, R396: a register of the context, but FMTRSV, holds what SYSWR wrote, within its bits and limits. -/
theorem sysRead_sysWrite_context_self {s : State} {t : Thread} {i : Nat} (v : W64) (hc : t.ctx < s.contexts.length) (hi : i ∈ contextRegs) (hf : i ≠ 0x13) :
    sysRead (sysWrite s t i v) t i = Claim.readBack i v := by
  simp only [contextRegs, List.mem_cons, List.not_mem_nil, or_false] at hi
  rcases hi with promise | fairlim | yieldspan | cellcap | spillcnt | seed | dropleak | fmtrsv | watch | watch | watch | watch | notchlim | trapvec
  all_goals
    subst i
    simp only [sysRead, sysWrite, State.ctx_updCtx _ _ _ hc]
  · exact zeroExtend_extract_low 3 v
  · exact fairlim_readBack v
  · exact zeroExtend_extract_low 16 v
  · exact cellcap_readBack v
  -- SPILLCNT, SEED and DROPLEAK keep the word.
  iterate 3 rfl
  · exact absurd rfl hf
  -- WATCH0 to WATCH3 keep it under their mask.
  iterate 4 rfl
  · exact zeroExtend_extract_low 32 v
  · rfl

/-! ## FMTRSV -/

/-- A bit of a union of pairs' bits. -/
theorem getLsbD_foldl_or {α : Type} {n : Nat} (l : List (α × BitVec n)) (m : BitVec n) (k : Nat) :
    (l.foldl (fun m p => m ||| p.2) m).getLsbD k = (m.getLsbD k || l.any (fun p => p.2.getLsbD k)) := by
  induction l generalizing m with
  | nil => simp
  | cons p l ih => simp [ih, Bool.or_assoc]

/-- R31: a clear leaves the bits that another thread or the array has set in the same clk. -/
theorem fmtrsvKept_getLsbD (s : State) (c tid k : Nat) : (fmtrsvKept s c tid).getLsbD k =
    (decide ((s.ctx c).fmtrsvSet.2 = s.clk) && (s.ctx c).fmtrsvSet.1.any (fun p => decide (p.1 ≠ some tid) && p.2.getLsbD k)) := by
  unfold fmtrsvKept
  dsimp only
  split
  next now => simp [now, getLsbD_foldl_or, List.any_filter, bne, beq_eq_decide]
  next before => simp [before]

/-- R31: a bit of FMTRSV after a write: it stays where the write does not name it, or where it is kept. -/
theorem sysRead_fmtrsv_written {s : State} {t : Thread} (v : W64) (hc : t.ctx < s.contexts.length) (k : Nat) :
    (sysRead (sysWrite s t 0x13 v) t 0x13).getLsbD k
      = ((sysRead s t 0x13).getLsbD k && (!v.getLsbD k || (fmtrsvKept s t.ctx t.id).getLsbD k)) := by
  simp only [sysRead, sysWrite, clearFmtrsv, State.ctx_updCtx _ _ _ hc]
  generalize fmtrsvKept s t.ctx t.id = kept
  by_cases hk : k < 2
  · have inWord : k < 64 := by omega
    simp [hk, inWord]
  · simp [BitVec.getLsbD_of_ge _ _ (Nat.le_of_not_lt hk)]

/-! ## The registers of a thread -/

/-- A thread after its write of DRAW (R233). -/
def Thread.setDraw (t : Thread) (v : W64) : Thread := { t with draw := v }

/-- A thread after its write of EPC: it resumes there at a header, and replays nothing (R381, R386). -/
def Thread.setEpc (t : Thread) (v : W64) : Thread :=
  { t with trap := { t.trap with epc := v, hdr := true, rpl := false }, faultAt := none, replay := none }

@[simp] theorem Thread.setDraw_seat (t : Thread) (v : W64) : (t.setDraw v).seat = t.seat := rfl
@[simp] theorem Thread.setEpc_seat (t : Thread) (v : W64) : (t.setEpc v).seat = t.seat := rfl

theorem sysWrite_draw (s : State) (t : Thread) (v : W64) : sysWrite s t 0x11 v = s.updThread t.id (fun u => u.setDraw v) := rfl

theorem sysWrite_epc (s : State) (t : Thread) (v : W64) : sysWrite s t 0x19 v = s.updThread t.id (fun u => u.setEpc v) := rfl

/-- R233: a write of DRAW leaves the other registers as the thread reads them. -/
theorem sysRead_sysWrite_draw {j : Nat} (s : State) (t : Thread) (v : W64) (hj : j ≠ 0x11) :
    sysRead (sysWrite s t 0x11 v) (t.setDraw v) j = sysRead s t j := by
  rw [sysWrite_draw, sysRead_updThread (fun u => u.setDraw_seat v)]
  unfold sysRead Thread.setDraw
  dsimp only
  split <;> simp_all

/-- R386: a write of EPC leaves the other registers as the thread reads them, but FLTINFO. -/
theorem sysRead_sysWrite_epc {j : Nat} (s : State) (t : Thread) (v : W64) (hj : j ≠ 0x19) (info : j ≠ 0x0B) :
    sysRead (sysWrite s t 0x19 v) (t.setEpc v) j = sysRead s t j := by
  rw [sysWrite_epc, sysRead_updThread (fun u => u.setEpc_seat v)]
  unfold sysRead Thread.setEpc
  dsimp only
  split <;> simp_all

/-! ## The statement -/

/-- Settles O10: a register of the context or of the thread, FMTRSV bit by bit, EPC with HDR and RPL, and the writes that are ignored. -/
theorem writtenRegisterReadsBack : Obligations.WrittenRegisterReadsBack := by
  unfold Obligations.WrittenRegisterReadsBack
  intro s t v hc ht
  have drawn : (sysWrite s t 0x11 v).thread t.id = some (t.setDraw v) := State.thread_updThread_self (fun u => u.setDraw v) (fun _ => rfl) ht
  have resumed : (sysWrite s t 0x19 v).thread t.id = some (t.setEpc v) := State.thread_updThread_self (fun u => u.setEpc v) (fun _ => rfl) ht
  refine ⟨fun i hi => ?_, ?_, ⟨_, resumed, rfl⟩, ?_⟩
  · have place : i ∈ contextRegs ∨ i = 0x11 ∨ i = 0x19 := by
      revert hi
      revert i
      decide
    rcases place with inContext | rfl | rfl
    case inl =>
      refine ⟨t, (sysWrite_context_thread s t v inContext _).trans ht, sysRead_sysWrite_context_self v hc inContext, fun j _ hj free _ => ?_⟩
      exact sysRead_sysWrite_context v hc inContext hj free
    case inr.inl => exact ⟨_, drawn, fun _ => rfl, fun j _ hj _ _ => sysRead_sysWrite_draw s t v hj⟩
    case inr.inr => exact ⟨_, resumed, fun _ => rfl, fun j _ hj _ info => sysRead_sysWrite_epc s t v hj (fun e => info ⟨rfl, e⟩)⟩
  · intro u hu k _
    have same : u = t := by
      rw [sysWrite_context_thread s t v (by decide), ht] at hu
      exact (Option.some.inj hu).symm
    rw [same, sysRead_fmtrsv_written v hc, fmtrsvKept_getLsbD]
  · intro i hi
    fin_cases hi <;> rfl

end Sys2Proof.Machine
end

section
/-! SUPPORT. The words that compute and the reads of a word (R66 to R73): each word of a fixed latency is a `fixedWord`, each value word a `variableWord`, and what
the laws of the issue say of the two shapes holds of the words. -/

namespace Sys2Proof.Machine

/-! ## The words of a fixed latency and of a value known at issue -/

/-- R201: IABS with its case split written out. -/
theorem iabs_eq_ite (t : ElemTy) : iabs t = map1 t (fun x => if x < 0 then -x else x) := by
  unfold iabs
  congr 1
  funext x
  split <;> omega

/-- R201: ICLAMP with its comparisons written out. -/
theorem iclamp_eq_ite (t : ElemTy) :
    iclamp t = map3 t (fun x lo hi => if hi < (if x < lo then lo else x) then hi else (if x < lo then lo else x)) := by
  unfold iclamp
  congr 1
  funext x lo hi
  split <;> split <;> omega

theorem exec_of_intWord {i : Instr} {w : Spec} {r : List Lane → Lane → Res} (h : Claim.intWord i = some (w, r)) (s : State) :
    exec i s = fixedWord w Config.latA r s := by
  unfold Claim.intWord at h
  split at h <;> cases h
  case h_11 h t d a => exact congrArg (fun f => op1 h t d a f s) (iabs_eq_ite t)
  case h_18 h t d a lo hi => exact congrArg (fun f => op3 h t d a lo hi f s) (iclamp_eq_ite t)
  all_goals rfl

theorem exec_of_bitWord {i : Instr} {w : Spec} {r : List Lane → Lane → Res} (h : Claim.bitWord i = some (w, r)) (s : State) :
    exec i s = fixedWord w Config.latA r s := by
  unfold Claim.bitWord at h
  split at h <;> cases h <;> rfl

theorem exec_of_predWord {i : Instr} {w : Spec} {r : List Lane → Lane → Res} (h : Claim.predWord i = some (w, r)) (s : State) :
    exec i s = fixedWord w Config.latA r s := by
  unfold Claim.predWord at h
  split at h <;> cases h <;> rfl

/-- The words of XCOUNT count by the length of a list. -/
theorem exec_of_crossWord {i : Instr} {w : Spec} {r : List Lane → Lane → Res} (h : Claim.crossWord i = some (w, r)) (s : State) :
    exec i s = fixedWord w Config.latX r s := by
  unfold Claim.crossWord at h
  split at h <;> cases h
  case h_12 | h_13 | h_14 | h_15 => simp only [List.countP_eq_length_filter]; rfl
  all_goals rfl

theorem exec_of_floatWord {i : Instr} {w : Spec} {r : List Lane → Lane → Res} (h : Claim.floatWord i = some (w, r)) (s : State) :
    exec i s = fixedWord w Config.latA r s := by
  unfold Claim.floatWord at h
  split at h <;> cases h <;> rfl

theorem exec_of_convWord {i : Instr} {w : Spec} {r : List Lane → Lane → Res} (h : Claim.convWord i = some (w, r)) (s : State) :
    exec i s = fixedWord w Config.latA r s := by
  unfold Claim.convWord at h
  split at h <;> cases h <;> rfl

theorem exec_of_cellValueWord {s : State} {i : Instr} {w : Spec} {r : List Lane → Lane → Res} (h : Claim.cellValueWord s i = some (w, r)) :
    exec i s = fixedWord w Config.latA r s := by
  unfold Claim.cellValueWord at h
  split at h <;> cases h <;> rfl

/-- Which group a word of a fixed latency is of, with the latency of the group (R69). -/
theorem fixedInstr_cases {s : State} {i : Instr} {w : Spec} {lat : Nat} {r : List Lane → Lane → Res} (h : Claim.fixedInstr s i = some (w, lat, r)) :
    (lat = Config.latA ∧ (Claim.intWord i = some (w, r) ∨ Claim.bitWord i = some (w, r) ∨ Claim.predWord i = some (w, r) ∨ Claim.floatWord i = some (w, r)
      ∨ Claim.convWord i = some (w, r) ∨ Claim.cellValueWord s i = some (w, r)))
    ∨ (lat = Config.latX ∧ Claim.crossWord i = some (w, r)) := by
  unfold Claim.fixedInstr at h
  split at h <;> cases h <;> simp_all [Config.latA, Config.latX]

/-- R69: a word of a fixed latency is a `fixedWord` of its operands, latency and results. -/
theorem exec_of_fixedInstr {s : State} {i : Instr} {w : Spec} {lat : Nat} {r : List Lane → Lane → Res} (h : Claim.fixedInstr s i = some (w, lat, r)) :
    exec i s = fixedWord w lat r s := by
  rcases fixedInstr_cases h with ⟨rfl, int | bit | pred | float | conv | cell⟩ | ⟨rfl, cross⟩
  · exact exec_of_intWord int s
  · exact exec_of_bitWord bit s
  · exact exec_of_predWord pred s
  · exact exec_of_floatWord float s
  · exact exec_of_convWord conv s
  · exact exec_of_cellValueWord cell
  · exact exec_of_crossWord cross s

theorem exec_fixedInstr_ready {s : State} {g : Grp} {i : Instr} {w : Spec} {lat : Nat} {r : List Lane → Lane → Res}
    (h : Claim.fixedInstr s i = some (w, lat, r)) (ready : Ready w s g) : exec i s = .next (afterFixed w lat s g (r (lanesRead w s g))) :=
  (exec_of_fixedInstr h).trans (fixedWord_ready lat r ready)

theorem exec_of_valueWord {i : Instr} {w : Spec} {v : State → Lane → W64} (h : Claim.valueWord i = some (w, v)) (s : State) :
    exec i s = variableWord w (fun s _ l => (v s l, s)) s := by
  unfold Claim.valueWord at h
  split at h <;> cases h <;> rfl

/-- Settles O3: each of the words is a `variableWord` of a value that leaves the state, and such a word issues. -/
theorem valueWords : Obligations.ValueWords := by
  unfold Obligations.ValueWords
  intro i w v s g word ready
  exact (exec_of_valueWord word s).trans (variableWord_ready v ready)

/-! ## The frame -/

/-- Settles O54: the frames of the two shapes of a word. -/
theorem computeWordFrame : Obligations.ComputeWordFrame := by
  unfold Obligations.ComputeWordFrame
  intro i w s g ready
  refine ⟨fun lat r fixed => ?_, fun v word => ?_⟩
  · exact ⟨_, exec_fixedInstr_ready fixed ready, afterFixed_issued lat (r (lanesRead w s g)) ready.group⟩
  · obtain ⟨frame, table⟩ := issueOps_frame (ops := (lanesRead w s g).map (fun l => (l, { kind := .value (v (afterReads w s g) l), va := 0#64 }))) ready.group
      (fun p hp => by obtain ⟨l, hl, rfl⟩ := List.mem_map.1 hp; exact hl)
    exact ⟨_, valueWords i w v s g word ready, finish_issued w.h ready.group frame table⟩

/-! ## Results in flight -/

theorem ofDst_nodup (d : Dst) (wide : Bool) : ((Dest.ofDst d wide).names.map Prod.fst).Nodup := by
  cases d with
  | val n k => exact List.nodup_singleton n.val
  | push q => exact List.nodup_nil
  | nul => exact List.nodup_nil

section
variable {i : Instr} {w : Spec} {r : List Lane → Lane → Res}

theorem intWord_nodup (h : Claim.intWord i = some (w, r)) : (w.dst.names.map Prod.fst).Nodup := by
  unfold Claim.intWord at h
  split at h <;> cases h <;> exact ofDst_nodup _ _

theorem bitWord_nodup (h : Claim.bitWord i = some (w, r)) : (w.dst.names.map Prod.fst).Nodup := by
  unfold Claim.bitWord at h
  split at h <;> cases h <;> exact ofDst_nodup _ _

/-- SEL and P2V bind a name, the other words of the PRD group a predicate. -/
theorem predWord_nodup (h : Claim.predWord i = some (w, r)) : (w.dst.names.map Prod.fst).Nodup := by
  unfold Claim.predWord at h
  split at h <;> cases h
  case h_5 | h_6 => exact ofDst_nodup _ _
  all_goals exact List.nodup_nil

/-- VOTE.ALL, VOTE.ANY, VOTE.UNI and ELECT bind a predicate, the other words of the XLN group a name. -/
theorem crossWord_nodup (h : Claim.crossWord i = some (w, r)) : (w.dst.names.map Prod.fst).Nodup := by
  unfold Claim.crossWord at h
  split at h <;> cases h
  case h_6 | h_7 | h_8 | h_11 => exact List.nodup_nil
  all_goals exact ofDst_nodup _ _

theorem floatWord_nodup (h : Claim.floatWord i = some (w, r)) : (w.dst.names.map Prod.fst).Nodup := by
  unfold Claim.floatWord at h
  split at h <;> cases h <;> exact ofDst_nodup _ _

theorem convWord_nodup (h : Claim.convWord i = some (w, r)) : (w.dst.names.map Prod.fst).Nodup := by
  unfold Claim.convWord at h
  split at h <;> cases h <;> exact ofDst_nodup _ _

/-- SPLIT binds two neighbouring names (R195), the other words one. -/
theorem cellValueWord_nodup {s : State} (h : Claim.cellValueWord s i = some (w, r)) : (w.dst.names.map Prod.fst).Nodup := by
  unfold Claim.cellValueWord at h
  split at h <;> cases h
  case h_3 => simp
  all_goals exact ofDst_nodup _ _

/-- No word of a fixed latency binds a name twice. -/
theorem fixedInstr_nodup {s : State} {lat : Nat} (h : Claim.fixedInstr s i = some (w, lat, r)) : (w.dst.names.map Prod.fst).Nodup := by
  rcases fixedInstr_cases h with ⟨-, int | bit | pred | float | conv | cell⟩ | ⟨-, cross⟩
  · exact intWord_nodup int
  · exact bitWord_nodup bit
  · exact predWord_nodup pred
  · exact floatWord_nodup float
  · exact convWord_nodup conv
  · exact cellValueWord_nodup cell
  · exact crossWord_nodup cross

end

/-- The thread of a lane that was read stands in the state after the reads. -/
theorem afterReads_lane {w : Spec} {s : State} {g : Grp} (hg : s.grp = some g) {l : Lane} (hl : l ∈ lanesRead w s g) :
    ∃ t, (afterReads w s g).thread l.t.id = some t := by
  obtain ⟨t, member, same⟩ := lanesRead_id hl
  obtain ⟨u, hu, -, -⟩ := (afterReads_issued (k := .fixed) (w := w) hg).members t.id t (grp_member hg (executing_sub member)).1
  exact ⟨u, same ▸ hu⟩

theorem afterReads_clk (w : Spec) (s : State) (g : Grp) (hg : s.grp = some g) : (afterReads w s g).clk = s.clk := by
  simpa [State.outer] using congrArg State.clk (afterReads_issued (k := .fixed) (w := w) hg).device

/-- Settles O59: the results go in flight in `bindFixed`, and the end of the word leaves what its threads hold. -/
theorem fixedResultInFlight : Obligations.FixedResultInFlight := by
  unfold Obligations.FixedResultInFlight
  intro i w lat r s g l fixed ready hl writes
  obtain ⟨t0, read⟩ := afterReads_lane ready.group hl
  obtain ⟨f, held, due, late, names, preds⟩ := bindFixed_flight (afterReads w s g) g w.dst lat ((lanesRead w s g).map (fun l => (l, r (lanesRead w s g) l)))
    (l, r (lanesRead w s g) l) (x := t0.held) (List.mem_map.2 ⟨l, hl, rfl⟩) writes (fixedInstr_nodup fixed) ⟨t0, read, rfl⟩
  rw [afterReads_clk w s g ready.group] at due
  rw [afterReads_ilk w s g ready.group] at held late
  obtain ⟨u, hu, inFlight, trusted, interlocked⟩ := heldAt_finishWord _ g w.h held
  refine ⟨_, u, f, exec_fixedInstr_ready fixed ready, hu, inFlight, due, late, names, preds, fun mode t1 h1 => ?_, fun mode alone => ?_⟩
  · obtain rfl : t0 = t1 := Option.some.inj (read.symm.trans h1)
    obtain ⟨sameNames, samePreds⟩ := trusted mode
    exact ⟨lookupName_congr sameNames, congrArg Prod.fst samePreds, congrArg Prod.snd samePreds⟩
  · obtain ⟨bound, pending⟩ := interlocked mode (fun q hq same => by
      obtain ⟨m, hm, rfl⟩ := List.mem_map.1 hq
      rw [alone m hm same])
    exact ⟨fun x hx => ⟨_, bound x hx, rfl, rfl, rfl, rfl⟩, pending⟩

/-! ## Reads -/

/-- R66: a word without EXHAUST reads no name more often than its count allows. -/
theorem count_of_not_exhaust {t : Thread} {l : List Opnd} (h : exhaust t l = none) {n : Nat} {b : Binding} (hn : n ∈ valNames l) (hb : lookupName t n = some b)
    (hc : b.count ≠ 15#4) : countOf n (valNames l) ≤ b.count.toNat := by
  have := (List.findSome?_eq_none_iff.1 h) n hn
  simpa [hb, hc] using this

/-- Settles O58: the thread stands after the reads as its own reads leave it, and they count each name once. -/
theorem readsCount : Obligations.ReadsCount := by
  unfold Obligations.ReadsCount
  intro w s g t n k b ready fresh hb hk pos
  obtain ⟨member, noReplay⟩ := List.mem_filter.1 fresh
  have read : n ∈ valNames (w.of t) := by
    obtain ⟨m, hm⟩ := List.length_pos_iff_exists_mem.1 (hk ▸ pos)
    obtain ⟨hm, e⟩ := List.mem_filter.1 hm
    exact (beq_iff_eq.1 e) ▸ hm
  refine readLanes_thread s w (executing g w.h) t _ member (fun u hu => (grp_member ready.group (executing_sub hu)).1) (fun q st => ?_)
  rw [readThread_counts q (w.of t) st t (Option.isNone_iff_eq_none.1 noReplay) n read, ← hk]
  unfold countReads
  rw [hb]
  dsimp only
  split
  · exact hb
  case isFalse hc =>
    have le : k ≤ b.count.toNat := hk ▸ count_of_not_exhaust (ready.bound t fresh) read hb hc
    by_cases e : b.count.toNat = k
    · rw [if_pos e.le, if_pos e, lookupName_freeName]
    · rw [if_neg (by omega), if_neg e, lookupName_setName]

end Sys2Proof.Machine
end

section
/-! SUPPORT. The events of issue, binding and cells (R71, R72, R139, R181 to R183, R293 to R300, R312): what the operation of each answers where it takes place. -/

namespace Sys2Proof.Machine

/-! ## Clauses and groups -/

/-- R293: an entry whose clause is fetched, with nothing to stop it at its header, starts it. -/
theorem startEntry_begins {core uid : Nat} {e : Entry} {s u : State} {c : Clause} (he : s.entry core uid = some e) (idle : e.run = none) (shared : e.own = false)
    (runs : running s e.ctx = true) (fetch : fetchClause s core e.ctx (s.members e) e.pc = .ok c u) (he' : u.entry core uid = some e)
    (same : u.members e = s.members e) (notch : notchStage u core e.ctx (s.members e) c.hdr e.pc = none)
    (goes : (u.ctx e.ctx).preempt = none ∨ c.hdr.notch = false) (noXln : hasXln c = false) (wait : waitHolds u e.ctx (s.members e) c.hdr = true)
    (dist : distHolds u e.ctx (s.members e) c.hdr = true) (free : (u.core core).pipe (onA c.hdr.eng) = none) :
    startEntry s core uid false = some (beginClause u core uid (s.members e) c e.ctx) := by
  have passes : ((u.ctx e.ctx).preempt.isSome && c.hdr.notch) = false := by rcases goes with h | h <;> simp [h]
  simp [startEntry, he, idle, shared, runs, fetch, notch, passes, noXln, he', same, wait, dist, free]

/-- R296: a row that stands whole at its rendezvous is merged. -/
theorem rendezvous_merges {core uid : Nat} {e : Entry} {s : State} (he : s.entry core uid = some e) (idle : e.run = none) (rdv : e.rdv = true)
    (complete : rowComplete s core (((s.members e).map Thread.slot).headD 0) e.ctx e.pc = true) :
    rendezvous s core uid = some (mergeEntries s core (rowEntries s core (((s.members e).map Thread.slot).headD 0) e.ctx e.pc)).1 := by
  unfold rendezvous
  rw [he]
  simp only [rdv, idle, complete, Bool.not_true, Option.isSome_none, Bool.or_self, Bool.false_eq_true, if_false, if_true]

theorem clausesStart : Claim.ClausesStart := by
  unfold Claim.ClausesStart
  intro core uid e s he idle
  refine ⟨fun c u shared _ runs fetch he' same notch goes noXln wait dist free => ?_, fun slot rdv hslot complete => ?_⟩
  · exact happens_some (startEntry_begins he idle shared runs fetch he' same notch goes noXln wait dist free)
  · subst hslot
    exact happens_some (rendezvous_merges he idle rdv complete)

theorem groupTimers : Claim.GroupTimers := by
  unfold Claim.GroupTimers
  intro core uid e s he
  refine ⟨fun fairness first waited => ?_, fun span ended => ?_⟩
  · exact happens_some (r := overdue s core uid) (by simp [overdue, he, fair, fairness, first, waited])
  · exact happens_some (r := yieldEnds s core uid) (by simp [yieldEnds, he, span, ended])

/-! ## Values -/

/-- R71: any operation but CPSTAT's wait, of a thread that stands, arrives by `arrive`. -/
theorem valueArrives_eq_arrive {id : Nat} {o : Op} {t : Thread} {s : State} (ho : s.op id = some o) (ht : s.thread o.tid = some t) (kind : o.kind ≠ .cpwait) :
    valueArrives s id = arrive s id := by
  unfold valueArrives
  rw [ho]
  dsimp only
  rw [ht]
  split
  case h_1 wait _ => exact absurd wait kind
  case h_2 wait _ => exact absurd wait kind
  case h_3 => rfl

theorem exec_valueArrival {id : Nat} {o : Op} {t : Thread} {s u : State} (ho : s.op id = some o) (ht : s.thread o.tid = some t) (kind : o.kind ≠ .cpwait)
    (h : arrive s id = some u) : exec (.valueArrival id) s = .next u :=
  happens_some ((valueArrives_eq_arrive ho ht kind).trans h)

theorem valuesArrive : Claim.ValuesArrive := by
  unfold Claim.ValuesArrive
  refine ⟨fun tid tok t f s ht hf due => ?_, fun id o t s ho ht => ⟨?value, ?word, ?load, ?lateLoad, ?dqblk, ?cpstat⟩⟩
  · exact happens_some (r := fixedBind s tid tok) (by simp [fixedBind, ht, hf, due])
  case value =>
    intro v kind pending
    exact exec_valueArrival ho ht (by simp [kind]) (by simp [arrive, ho, ht, kind, pending])
  case word =>
    intro w v kind done
    exact exec_valueArrival ho ht (by simp [kind]) (by simp [arrive, ho, done])
  case load =>
    intro tg n sx hint cnt u v kind pending order free allowed read
    exact exec_valueArrival ho ht (by simp [kind]) (by simp [arrive, ho, ht, kind, pending, order, free, allowed, read])
  case lateLoad =>
    intro tg n sx hint cnt f u v kind pending order free late read
    exact exec_valueArrival ho ht (by simp [kind]) (by simp [arrive, ho, ht, kind, pending, order, free, late, read])
  case dqblk =>
    intro slot ty w r e kind pending order
    exact exec_valueArrival ho ht (by simp [kind]) (by simp [arrive, ho, ht, kind, pending, order])
  case cpstat =>
    intro kind noCommand noCopy
    exact happens_some (r := valueArrives s id) (by simp [valueArrives, ho, ht, kind, noCommand, noCopy])

/-! ## Cells -/

/-- R181: the arbiter acts for the first blocked thread for which it can do something. -/
theorem arbiter_of_first {core lane : Nat} {b : Thread} {cap : Bool} {rest : List (Thread × Bool)} {s u : State} (first : arbitrated s core lane = (b, cap) :: rest)
    (h : arbitrate s b cap = some u) : exec (.allocationArbiter core lane) s = .next u :=
  happens_some (r := arbiter s core lane) (by simp [arbiter, first, h])

/-- R183: the oldest thread of its lane that can be reloaded enters its place again. -/
theorem reload_of_oldest {tid : Nat} {t : Thread} {s : State} (ht : s.thread tid = some t) (fits : reloadable s t = true)
    (oldest : ∀ u ∈ s.laneThreads t.core t.lane, u.id < tid → reloadable s u = false) (runs : t.halted = none) :
    reload s tid = some (reenter (s.updThread tid (fun t => { t with parked := false, spilled := false })) tid) := by
  have noOlder : (s.laneThreads t.core t.lane).any (fun u => decide (u.id < tid) && reloadable s u) = false := by
    simpa only [List.any_eq_false, Bool.and_eq_true, decide_eq_true_eq, not_and, Bool.not_eq_true] using oldest
  unfold reload
  rw [ht]
  dsimp only
  rw [noOlder, fits, runs]
  rfl

theorem cellsArbitrated : Claim.CellsArbitrated := by
  unfold Claim.CellsArbitrated
  refine ⟨fun core lane b cap rest v s first => ⟨fun fits => ?_, fun noPrint young owes => ?_⟩, fun tid b t s ht victim arrived zombies => ?_,
    fun tid t s ht fits oldest runs => ?_, fun tid k t s ht nap ends => ?_⟩
  · exact arbiter_of_first first (by simp only [arbitrate, fits])
  · exact arbiter_of_first first (by simp [arbitrate, noPrint, young, owes])
  · exact happens_some (r := evict s tid) (by simp [evict, ht, victim, arrived, zombies])
  · exact happens_some (reload_of_oldest ht fits oldest runs)
  · exact happens_some (r := napEnds s tid) (by simp [napEnds, ht, nap, ends])

/-- Settles O34: each event where its rule lets it take place. -/
theorem issueEvents : Obligations.IssueEvents := by
  unfold Obligations.IssueEvents
  exact ⟨clausesStart, groupTimers, valuesArrive, cellsArbitrated⟩

end Sys2Proof.Machine
end

section
/-! SUPPORT. The decoder against the encoder (R61 to R65, R75): when each check of the decoder passes, that what it accepts of a word is a well-formed instruction whose encoding is that word, and that it reads every encoding back. -/
namespace Sys2Proof
open Machine

/-! ## Words as fields -/

/-- The fields of a word, the head and the destination each as one (R61): `Enc.rf` packs those with three fields below SA, `Enc.im` those with an immediate. -/
def Fields.word (opc : BitVec 9) (f : Bool) (h : Hd) (t : ElemTy) (hn : BitVec 2) (d : BitVec 7 × BitVec 4) (sa : BitVec 7) (low : BitVec 21) : Fields :=
  ⟨opc, f, h.ga.toBits, h.gb.toBits, t.code, hn, h.y, d.1, d.2, sa, low⟩

theorem extractLsb'_one {n : Nat} (x : BitVec n) (i : Nat) : x.extractLsb' i 1 = BitVec.ofBool (x.getLsbD i) := by
  apply BitVec.eq_of_getLsbD_eq
  intro j hj
  obtain rfl : j = 0 := by omega
  simp

theorem Pred.toBits_ofBits (b : BitVec 4) : (Pred.ofBits b).toBits = b := by revert b; decide
theorem ElemTy.code_ofCode (c : BitVec 4) : (ElemTy.ofCode c).code = c := by revert c; decide
theorem Rnd.code_ofCode (c : BitVec 2) : (Rnd.ofCode c).code = c := by revert c; decide
theorem Hint.code_ofCode (c : BitVec 2) : (Hint.ofCode c).code = c := by revert c; decide

namespace Fields

/-- R61: no bit of a word is outside its fields. -/
theorem pack_unpack (x : W64) : pack (unpack x) = x := by
  simp only [pack, unpack, ← extractLsb'_one, BitVec.extractLsb'_append_extractLsb'_eq_extractLsb', BitVec.extractLsb'_eq_self]

theorem low_eq_append (w : Fields) : w.low = w.sb ++ w.sc ++ w.sd := by
  simp only [sb, sc, sd, BitVec.extractLsb'_append_extractLsb'_eq_extractLsb', BitVec.extractLsb'_eq_self]

theorem low_eq_imm (w : Fields) : w.low = w.mid ++ w.imm := by
  simp only [mid, imm, BitVec.extractLsb'_append_extractLsb'_eq_extractLsb', BitVec.extractLsb'_eq_self]

theorem eq_word (w : Fields) : w = word w.opc w.f (Dec.hd w) (ElemTy.ofCode w.ty) w.hn (w.dst, w.rdc) w.sa w.low := by
  simp only [word, Dec.hd, Pred.toBits_ofBits, ElemTy.code_ofCode]

theorem eq_word_reg (w : Fields) (hf : w.f = false) :
    w = word w.opc false (Dec.hd w) (ElemTy.ofCode w.ty) w.hn (w.dst, w.rdc) w.sa (w.sb ++ w.sc ++ w.sd) := by
  rw [← hf, ← low_eq_append]
  exact eq_word w

theorem eq_word_imm (w : Fields) (hf : w.f = true) (hm : w.mid = 0#5) :
    w = word w.opc true (Dec.hd w) (ElemTy.ofCode w.ty) w.hn (w.dst, w.rdc) w.sa (0#5 ++ w.imm) := by
  rw [← hf, ← hm, ← low_eq_imm]
  exact eq_word w

section
variable (opc : BitVec 9) (f : Bool) (h : Hd) (t : ElemTy) (hn : BitVec 2) (d : BitVec 7 × BitVec 4) (sa sb sc sd : BitVec 7) (v : BitVec 16) (low : BitVec 21)

@[simp] theorem word_f : (word opc f h t hn d sa low).f = f := rfl
@[simp] theorem word_ty : (word opc f h t hn d sa low).ty = t.code := rfl
@[simp] theorem word_hn : (word opc f h t hn d sa low).hn = hn := rfl
@[simp] theorem word_dst : (word opc f h t hn d sa low).dst = d.1 := rfl
@[simp] theorem word_rdc : (word opc f h t hn d sa low).rdc = d.2 := rfl
@[simp] theorem word_sa : (word opc f h t hn d sa low).sa = sa := rfl
@[simp] theorem word_hd : Dec.hd (word opc f h t hn d sa low) = h := hd_low ..
@[simp] theorem word_sb : (word opc f h t hn d sa (sb ++ sc ++ sd)).sb = sb := sb_low ..
@[simp] theorem word_sc : (word opc f h t hn d sa (sb ++ sc ++ sd)).sc = sc := sc_low ..
@[simp] theorem word_sd : (word opc f h t hn d sa (sb ++ sc ++ sd)).sd = sd := sd_low ..
@[simp] theorem word_mid : (word opc f h t hn d sa (0#5 ++ v)).mid = 0#5 := mid_low ..
@[simp] theorem word_imm : (word opc f h t hn d sa (0#5 ++ v)).imm = v := imm_low ..

end

end Fields

/-! ## When a check of the decoder passes, and what it answers -/

@[simp] theorem ElemTy.code_inj {t u : ElemTy} : t.code = u.code ↔ t = u :=
  ⟨fun h => by rw [← ElemTy.ofCode_code t, h, ElemTy.ofCode_code], congrArg _⟩

namespace Dec

section
variable {α β : Type} {u : Unit} {c : Bool} {e : DecodeError} {w : Fields} {x : BitVec 7}

@[simp] theorem bind_eq_ok {m : Except DecodeError α} {f : α → Except DecodeError β} {b : β} : (m >>= f) = .ok b ↔ ∃ a, m = .ok a ∧ f a = .ok b := by
  cases m with
  | ok a => exact ⟨fun h => ⟨a, rfl, h⟩, fun ⟨_, e, h⟩ => by cases e; exact h⟩
  | error e => exact ⟨nofun, nofun⟩

@[simp] theorem pure_eq_ok {a b : α} : (pure a : Except DecodeError α) = .ok b ↔ a = b := iff_of_eq (Except.ok.injEq a b)

@[simp] theorem map_eq_ok {m : Except DecodeError α} {f : α → β} {b : β} : f <$> m = .ok b ↔ ∃ a, m = .ok a ∧ f a = b := by
  rw [← bind_pure_comp, bind_eq_ok]
  simp only [pure_eq_ok]

@[simp] theorem need_eq_ok : need c e = .ok u ↔ c = true := by cases c <;> simp [need]
@[simp] theorem row_eq_ok : row c = .ok u ↔ c = true := need_eq_ok
@[simp] theorem lit_eq_ok : lit c = .ok u ↔ c = true := need_eq_ok
@[simp] theorem rsv_eq_ok : rsv c = .ok u ↔ c = true := need_eq_ok
@[simp] theorem formR_eq_ok : formR w = .ok u ↔ w.f = false := by simp [formR]
@[simp] theorem formI_eq_ok : formI w = .ok u ↔ w.f = true ∧ w.mid = 0#5 := by simp [formI]
@[simp] theorem formRI_eq_ok : formRI w = .ok u ↔ w.f = false ∨ w.mid = 0#5 := by simp [formRI]
@[simp] theorem hn0_eq_ok : hn0 w = .ok u ↔ w.hn = 0#2 := by simp [hn0]
@[simp] theorem nul_eq_ok : nul x = .ok u ↔ x = 127#7 := by simp [nul]
@[simp] theorem nulSC_eq_ok : nulSC w = .ok u ↔ w.f = true ∨ w.sc = 127#7 := by cases h : w.f <;> simp [nulSC, h]
@[simp] theorem nulSD_eq_ok : nulSD w = .ok u ↔ w.f = true ∨ w.sd = 127#7 := by cases h : w.f <;> simp [nulSD, h]

theorem ofCode_eq_iff {c : BitVec 4} {t : ElemTy} : ElemTy.ofCode c = t ↔ c = t.code :=
  ⟨fun h => h ▸ (ElemTy.code_ofCode c).symm, fun h => h ▸ ElemTy.ofCode_code t⟩

@[simp] theorem tyIs_eq_ok {t : ElemTy} : tyIs w t = .ok u ↔ w.ty = t.code := by simp [tyIs, ofCode_eq_iff]
@[simp] theorem tyIn_eq_ok {p : ElemTy → Bool} {t : ElemTy} : tyIn w p = .ok t ↔ p t = true ∧ w.ty = t.code := by
  simp only [tyIn, bind_eq_ok, row_eq_ok, pure_eq_ok, ofCode_eq_iff, exists_const]
  exact ⟨fun ⟨h, e⟩ => ⟨by rwa [← ofCode_eq_iff.2 e], e⟩, fun ⟨h, e⟩ => ⟨by rwa [ofCode_eq_iff.2 e], e⟩⟩

end

theorem eq_code_of_src {x : BitVec 7} {a : Src} (h : src x = .ok a) : x = a.code := by
  unfold src at h
  dsimp only at h
  split at h
  · cases h; simp [Src.code]
  · split at h <;> cases h <;> (apply BitVec.eq_of_toNat_eq; simpa [Src.code])

@[simp] theorem src_eq_ok {x : BitVec 7} {a : Src} : src x = .ok a ↔ x = a.code := ⟨eq_code_of_src, fun h => h ▸ src_code a⟩
@[simp] theorem code_inj {a b : Src} : a.code = b.code ↔ a = b := by rw [← src_eq_ok, src_code, Except.ok.injEq]

section
variable {w : Fields} {d : Dst} {u : Unit}

theorem dst_of_row (hr : dstRow w = .ok u) (hd : dstOp w = .ok d) : (w.dst, w.rdc) = Enc.dst d ∧ d.wf = true := by
  have code {n : Nat} (h : w.dst.toNat = n) : w.dst = BitVec.ofNat 7 n := by rw [← h, BitVec.ofNat_toNat, BitVec.setWidth_eq]
  rw [dstRow, row_eq_ok] at hr
  unfold dstOp at hd
  simp only [beq_iff_eq] at hd
  split_ifs at hd with name nul mxa mxc cpc special <;> cases hd
  · simpa [Enc.dst, Dst.wf, name] using hr
  · simpa [Enc.dst, Dst.wf, code nul] using hr
  · simpa [Enc.dst, Dst.wf, code mxa] using hr
  · simpa [Enc.dst, Dst.wf, code mxc] using hr
  · simpa [Enc.dst, Dst.wf, code cpc] using hr

theorem dst_of_rowVN (hr : dstRowVN w = .ok u) (hd : dstOp w = .ok d) : (w.dst, w.rdc) = Enc.dst d ∧ d.valNul = true := by
  simp only [dstRowVN, bind_eq_ok, row_eq_ok] at hr
  obtain ⟨_, row, noQueue⟩ := hr
  obtain ⟨e, wf⟩ := dst_of_row row hd
  have : w.dst = (Enc.dst d).1 := congrArg Prod.fst e
  refine ⟨e, ?_⟩
  cases d with
  | val n k => exact wf
  | push q => cases q <;> simp [this, Enc.dst] at noQueue
  | nul => rfl

theorem dst_of_rowVQ (hr : dstRowVQ w = .ok u) (hd : dstOp w = .ok d) : (w.dst, w.rdc) = Enc.dst d ∧ d.valPush = true := by
  simp only [dstRowVQ, bind_eq_ok, row_eq_ok] at hr
  obtain ⟨_, row, noNul⟩ := hr
  obtain ⟨e, wf⟩ := dst_of_row row hd
  have : w.dst = (Enc.dst d).1 := congrArg Prod.fst e
  refine ⟨e, ?_⟩
  cases d with
  | val n k => exact wf
  | push q => rfl
  | nul => simp [this, Enc.dst] at noNul

theorem dst_of_rowV (hr : dstRowV w = .ok u) (hd : dstOp w = .ok d) : (w.dst, w.rdc) = Enc.dst d ∧ d.isVal = true := by
  simp only [dstRowV, bind_eq_ok, row_eq_ok] at hr
  obtain ⟨_, row, noNul⟩ := hr
  obtain ⟨e, wf⟩ := dst_of_rowVN row hd
  have : w.dst = (Enc.dst d).1 := congrArg Prod.fst e
  refine ⟨e, ?_⟩
  cases d with
  | val n k => exact wf
  | push q => exact absurd wf (by simp [Dst.valNul])
  | nul => simp [this, Enc.dst] at noNul

end

section
variable {w : Fields} {u : Unit}

@[simp] theorem dstNone_eq_ok : dstNone w = .ok u ↔ (w.dst, w.rdc) = Enc.nd := by simp [dstNone, Enc.nd]

theorem dstQueue_eq_ok {n : Nat} : dstQueue w n = .ok u ↔ w.dst.toNat = n ∧ w.rdc = 1#4 := by simp [dstQueue]
@[simp] theorem dstQueue_mxc : dstQueue w 113 = .ok u ↔ (w.dst, w.rdc) = Enc.dst (.push .mxc) := by
  simp [dstQueue_eq_ok, Enc.dst, ← BitVec.toNat_inj]
@[simp] theorem dstQueue_cpc : dstQueue w 115 = .ok u ↔ (w.dst, w.rdc) = Enc.dst (.push .cpc) := by
  simp [dstQueue_eq_ok, Enc.dst, ← BitVec.toNat_inj]

@[simp] theorem dstPred_eq_ok {p : PName} : dstPred w = .ok p ↔ (w.dst, w.rdc) = Enc.pname p := by
  have : ∀ (x : BitVec 7) (p : PName), (x.toNat < 8 ∧ (x.extractLsb' 0 3).toFin = p) ↔ x = BitVec.ofNat 7 p.val := by decide
  simp [dstPred, Enc.pname, ← this, and_assoc, and_comm]

theorem eq_f7_iff {x : BitVec 7} {n : VName} : x = Enc.f7 n.val ↔ x.toNat = n.val := by rw [← BitVec.toNat_inj, name_val]

@[simp] theorem dstName_eq_ok {n : VName} : dstName w = .ok n ↔ (w.dst, w.rdc) = Enc.name n w.rdc ∧ n.val ≤ 110 ∧ w.rdc ≠ 0#4 := by
  have : w.dst = BitVec.ofNat 7 n.val ↔ w.dst.toNat = n.val := eq_f7_iff
  simp only [Enc.name, Prod.mk.injEq, this, and_true]
  unfold dstName
  dsimp only
  split_ifs with h1 h2 <;> simp_all [Fin.ext_iff]
  · omega
  · intro e; omega

@[simp] theorem bindName_eq_ok {x : BitVec 7} {n : VName} : bindName x = .ok n ↔ x = Enc.f7 n.val := by
  rw [eq_f7_iff]
  unfold bindName
  dsimp only
  split_ifs with h <;> simp [Fin.ext_iff]
  all_goals omega

@[simp] theorem nameRow_eq_ok {x : BitVec 7} {n : VName} : nameRow x = .ok n ↔ x = Enc.f7 n.val := by
  rw [eq_f7_iff]
  unfold nameRow
  dsimp only
  split_ifs with h <;> simp [Fin.ext_iff]
  omega

@[simp] theorem predRow_eq_ok {x : BitVec 7} {p : Pred} : predRow x = .ok p ↔ x = Enc.pr p := by
  have : ∀ x : BitVec 7, x.extractLsb' 4 3 = 0#3 → x = Enc.pr (Pred.ofBits (x.extractLsb' 0 4)) := by decide
  constructor
  · intro h
    simp only [predRow, bind_eq_ok, rsv_eq_ok, pure_eq_ok, beq_iff_eq] at h
    obtain ⟨_, high, rfl⟩ := h
    exact this x high
  · rintro rfl
    exact predRow_pr p

@[simp] theorem srcOpt_eq_ok {x : BitVec 7} {a : Option Src} : srcOpt x = .ok a ↔ x = Enc.opt a := by
  constructor
  · intro h
    unfold srcOpt at h
    split at h
    case isTrue nul => cases h; exact eq_of_beq nul
    case isFalse =>
      simp only [bind_eq_ok, src_eq_ok, pure_eq_ok] at h
      obtain ⟨b, rfl, rfl⟩ := h
      rfl
  · rintro rfl
    exact srcOpt_opt a

@[simp] theorem noQueue_eq_ok {a : Src} : noQueue a.code = .ok u ↔ a.noQueue = true := by
  cases a with
  | pop q => cases q <;> simp [noQueue, Src.code, Src.noQueue]
  | val n => simp [noQueue_code (.val n) rfl, Src.noQueue]
  | spec q => simp [noQueue_code (.spec q) rfl, Src.noQueue]

@[simp] theorem srcNoQ_eq_ok {x : BitVec 7} {a : Src} : srcNoQ x = .ok a ↔ x = a.code ∧ a.noQueue = true := by
  constructor
  · intro h
    simp only [srcNoQ, bind_eq_ok, src_eq_ok, need_eq_ok, pure_eq_ok] at h
    obtain ⟨b, rfl, _, inside, rfl⟩ := h
    refine ⟨rfl, ?_⟩
    cases b with
    | pop q => cases q <;> simp [Src.code] at inside
    | val n => rfl
    | spec q => rfl
  · rintro ⟨rfl, h⟩
    exact srcNoQ_code a h

end

section
variable {opc : BitVec 9} {f : Bool} {h : Hd} {t : ElemTy} {hn : BitVec 2} {d e : Dst} {sa : BitVec 7} {low : BitVec 21} {u : Unit}

@[simp] theorem dstOp_word : dstOp (.word opc f h t hn (Enc.dst d) sa low) = .ok e ↔ d = e := by
  rw [Fields.word, dstOp_dst, Except.ok.injEq]
end
end Dec

/-- R63: what the decoder accepts of a word is a well-formed instruction, and the word is its encoding. -/
def Sound (w : Fields) (m : Except DecodeError Instr) : Prop := ∀ i, m = .ok i → i.wf = true ∧ encode i = some w.pack

namespace Sound
variable {w : Fields} {opc : BitVec 9} {k : Fields → Except DecodeError Instr}

theorem formR (ho : w.opc = opc)
    (hk : ∀ h t hn d sa (sb sc sd : BitVec 7), Sound (.word opc false h t hn d sa (sb ++ sc ++ sd)) (k (.word opc false h t hn d sa (sb ++ sc ++ sd)))) :
    Sound w (Dec.formR w >>= fun _ => k w) := by
  intro i hi
  rw [Dec.bind_eq_ok] at hi
  obtain ⟨_, form, hi⟩ := hi
  rw [Dec.formR_eq_ok] at form
  rw [w.eq_word_reg form, ho] at hi ⊢
  exact hk _ _ _ _ _ _ _ _ i hi

theorem formI (ho : w.opc = opc)
    (hk : ∀ h t hn d sa (v : BitVec 16), Sound (.word opc true h t hn d sa (0#5 ++ v)) (k (.word opc true h t hn d sa (0#5 ++ v)))) :
    Sound w (Dec.formI w >>= fun _ => k w) := by
  intro i hi
  rw [Dec.bind_eq_ok] at hi
  obtain ⟨_, form, hi⟩ := hi
  rw [Dec.formI_eq_ok] at form
  rw [w.eq_word_imm form.1 form.2, ho] at hi ⊢
  exact hk _ _ _ _ _ _ i hi

theorem formRI (ho : w.opc = opc)
    (hr : ∀ h t hn d sa (sb sc sd : BitVec 7), Sound (.word opc false h t hn d sa (sb ++ sc ++ sd)) (k (.word opc false h t hn d sa (sb ++ sc ++ sd))))
    (hi : ∀ h t hn d sa (v : BitVec 16), Sound (.word opc true h t hn d sa (0#5 ++ v)) (k (.word opc true h t hn d sa (0#5 ++ v)))) :
    Sound w (Dec.formRI w >>= fun _ => k w) := by
  intro i h
  rw [Dec.bind_eq_ok] at h
  obtain ⟨_, form, h⟩ := h
  rw [Dec.formRI_eq_ok] at form
  cases hf : w.f with
  | false =>
    rw [w.eq_word_reg hf, ho] at h ⊢
    exact hr _ _ _ _ _ _ _ _ i h
  | true =>
    rw [w.eq_word_imm hf (form.resolve_left (by simp [hf])), ho] at h ⊢
    exact hi _ _ _ _ _ _ i h

end Sound

namespace Dec
section
variable {opc : BitVec 9} {f : Bool} {h : Hd} {t : ElemTy} {hn : BitVec 2} {d : BitVec 7 × BitVec 4} {e : Dst} {sa sb sc sd : BitVec 7} {v : BitVec 16} {low : BitVec 21} {u : Unit}

@[simp] theorem sbI_reg : sbI (.word opc false h t hn d sa (sb ++ sc ++ sd)) = SrcI.reg <$> src sb := by simp [sbI]
@[simp] theorem sbI_imm : sbI (.word opc true h t hn d sa (0#5 ++ v)) = .ok (.imm v) := by simp [sbI]
@[simp] theorem saI_reg : saI (.word opc false h t hn d sa (sb ++ sc ++ sd)) = SrcI.reg <$> src sa := by simp [saI]
@[simp] theorem saI_imm : saI (.word opc true h t hn d sa (0#5 ++ v)) = .ok (.imm v) := by simp [saI]

@[simp] theorem maddr_reg : maddr (.word opc false h t hn d sa (sb ++ sc ++ sd)) = (do let a ← src sa; let b ← src sb; return .reg a b (sd.getLsbD 6)) := by simp [maddr]
@[simp] theorem maddr_imm : maddr (.word opc true h t hn d sa (0#5 ++ v)) = (MemAddr.imm · v) <$> src sa := by simp [maddr]
@[simp] theorem cntLit_reg {c : Bool} : cntLit (.word opc false h t hn d sa (sb ++ sc ++ sd)) c = .ok u ↔ c = true ∨ sd.extractLsb' 0 6 = 0#6 := by simp [cntLit]
@[simp] theorem cntLit_imm {c : Bool} : cntLit (.word opc true h t hn d sa (0#5 ++ v)) c = .ok () := by simp [cntLit]
@[simp] theorem cntOf_reg : cntOf (.word opc false h t hn d sa (sb ++ sc ++ sd)) = (sd.extractLsb' 0 6).toFin := by simp [cntOf]
@[simp] theorem cntOf_imm : cntOf (.word opc true h t hn d sa (0#5 ++ v)) = 0 := by simp [cntOf]

@[simp] theorem icmp_eq_ok {n : Nat} {c : ICmp} : icmp n = .ok c ↔ n = Enc.icmp c := by
  refine ⟨fun h => ?_, fun h => by subst h; cases c <;> rfl⟩
  unfold icmp at h
  split at h <;> cases h <;> rfl
@[simp] theorem fcmp_eq_ok {n : Nat} {c : FCmp} : fcmp n = .ok c ↔ n = Enc.fcmp c := by
  refine ⟨fun h => ?_, fun h => by subst h; cases c <;> rfl⟩
  unfold fcmp at h
  split at h <;> cases h <;> rfl
@[simp] theorem redOp_eq_ok {n : Nat} {c : RedOp} : redOp n = .ok c ↔ n = Enc.redOp c := by
  refine ⟨fun h => ?_, fun h => by subst h; cases c <;> rfl⟩
  unfold redOp at h
  split at h <;> cases h <;> rfl
@[simp] theorem atomOp_eq_ok {n : Nat} {c : AtomOp} : atomOp n = .ok c ↔ n = Enc.atomOp c := by
  refine ⟨fun h => ?_, fun h => by subst h; cases c <;> rfl⟩
  unfold atomOp at h
  split at h <;> cases h <;> rfl
@[simp] theorem awaitCond_eq_ok {n : Nat} {c : AwaitCond} : awaitCond n = .ok c ↔ n = Enc.awaitCond c := by
  refine ⟨fun h => ?_, fun h => by subst h; cases c <;> rfl⟩
  unfold awaitCond at h
  split at h <;> cases h <;> rfl

@[simp] theorem combine_eq_ok {w : Fields} {m : Combine} : combine w = .ok m ↔ w.hn = Enc.combHn m ∧ w.sc = Enc.combSc m := by
  have three : ∀ c : BitVec 2, c = 0#2 ∨ c = 1#2 ∨ c = 2#2 ∨ c = 3#2 := by decide
  unfold combine
  obtain h | h | h | h := three w.hn <;> cases m <;> simp [h, Enc.combHn, Enc.combSc, Enc.nulF]

@[simp] theorem scope_reg : scope (.word opc false h t hn d sa (sb ++ sc ++ sd)) = (sd.extractLsb' 4 3).toFin := by simp [scope]
theorem atomTy_word {q : AtomOp} {ty : ElemTy} (low : sd.toNat % 16 = Enc.atomOp q) (hty : atomTy (.word opc false h t hn d sa (sb ++ sc ++ sd)) = .ok ty) : q.accepts t = true ∧ ty = t := by
  have names : atomOp (Fields.sd (.word opc false h t hn d sa (sb ++ sc ++ sd)) |>.extractLsb' 0 4).toNat = .ok q := by simp [low]
  rw [atomTy, names] at hty
  simp at hty
  exact ⟨hty.2 ▸ hty.1, hty.2.symm⟩

theorem dst_wf (row : dstRow (.word opc f h t hn d sa low) = .ok u) (op : dstOp (.word opc f h t hn d sa low) = .ok e) : d = Enc.dst e ∧ e.wf = true := dst_of_row row op
theorem dst_valNul (row : dstRowVN (.word opc f h t hn d sa low) = .ok u) (op : dstOp (.word opc f h t hn d sa low) = .ok e) : d = Enc.dst e ∧ e.valNul = true := dst_of_rowVN row op
theorem dst_valPush (row : dstRowVQ (.word opc f h t hn d sa low) = .ok u) (op : dstOp (.word opc f h t hn d sa low) = .ok e) : d = Enc.dst e ∧ e.valPush = true := dst_of_rowVQ row op
theorem dst_isVal (row : dstRowV (.word opc f h t hn d sa low) = .ok u) (op : dstOp (.word opc f h t hn d sa low) = .ok e) : d = Enc.dst e ∧ e.isVal = true := dst_of_rowV row op

end
end Dec

/-! ## The literals of a word, read and written again -/

namespace Enc
theorem b1_bit {x : BitVec 2} (h : x[1] = false) : b1 x[0] = x := by revert h; revert x; decide
theorem b2_bits (x : BitVec 2) : b2 x[1] x[0] = x := by revert x; decide
theorem f7_low3 {x : BitVec 7} (h : x.extractLsb' 3 4 = 0#4) : f7 ((x.extractLsb' 0 3).toFin : Fin 8).val = x := by revert h; revert x; decide
theorem low3_ne {x : BitVec 7} (h : x.extractLsb' 0 3 ≠ 0#3) : ((x.extractLsb' 0 3).toFin : Fin 8) ≠ 0 := by revert h; revert x; decide
theorem lea_bits {x : BitVec 7} (h : x.extractLsb' 4 3 = 0#3) : (0 : BitVec 3) ++ BitVec.ofBool x[3] ++ (BitVec.ofFin (x.extractLsb' 0 3).toFin : BitVec 3) = x := by revert h; revert x; decide
theorem lut_high {x : BitVec 2} {y : BitVec 7} (h : x[1] = false) : b1 ((BitVec.ofBool x[0] ++ y).getLsbD 7) = x := by revert h; revert x y; decide
theorem lut_low {b : Bool} {y : BitVec 7} : (BitVec.ofBool b ++ y).extractLsb' 0 7 = y := by revert b y; decide
theorem wait_bits {x : BitVec 16} (h : x.toNat < 4096) : (0 : BitVec 4) ++ x.extractLsb' 0 12 = x := by
  apply BitVec.eq_of_toNat_eq
  rw [BitVec.toNat_append]
  simpa using h
theorem f7_icmp {x : BitVec 7} {c : ICmp} (high : x.extractLsb' 3 4 = 0#4) (low : x.toNat % 8 = icmp c) : f7 (icmp c) = x := by
  rw [← low]; clear low; revert high; revert x; decide
theorem f7_fcmp {x : BitVec 7} {c : FCmp} (high : x.extractLsb' 4 3 = 0#3) (low : x.toNat % 16 = fcmp c) : f7 (fcmp c) = x := by
  rw [← low]; clear low; revert high; revert x; decide
theorem f7_redOp {x : BitVec 7} {c : RedOp} (high : x.extractLsb' 4 3 = 0#3) (mid : x[3] = false) (low : x.toNat % 8 = redOp c) : f7 (redOp c) = x := by
  rw [← low]; clear low; revert high mid; revert x; decide
theorem scan_bits {x : BitVec 7} {c : RedOp} (high : x.extractLsb' 4 3 = 0#3) (low : x.toNat % 8 = redOp c) : (0 : BitVec 3) ++ BitVec.ofBool x[3] ++ BitVec.ofNat 3 (redOp c) = x := by
  have : ∀ x : BitVec 7, x.extractLsb' 4 3 = 0#3 → (0 : BitVec 3) ++ BitVec.ofBool (x.getLsbD 3) ++ BitVec.ofNat 3 (x.toNat % 8) = x := by decide
  exact low ▸ this x high
theorem bit_bits {x : BitVec 7} (h : x.extractLsb' 1 6 = 0#6) : (0 : BitVec 6) ++ BitVec.ofBool x[0] = x := by revert h; revert x; decide
theorem cvt_cvtLit (w : Fields) : cvt (Dec.cvtLit w) = w.sd := by
  have : ∀ x : BitVec 7, x.extractLsb' 5 2 ++ BitVec.ofBool (x.getLsbD 4) ++ x.extractLsb' 0 4 = x := by decide
  simpa [cvt, Dec.cvtLit, ElemTy.code_ofCode, -BitVec.toFin_extractLsb'] using this w.sd
theorem drop_bits {x : BitVec 16} (h : x.toNat ≤ 14) : (0 : BitVec 12) ++ x.extractLsb' 0 4 = x := by
  apply BitVec.eq_of_toNat_eq
  rw [BitVec.toNat_append]
  simp
  omega
theorem cnt_bits (x : BitVec 7) : BitVec.ofBool x[6] ++ (BitVec.ofFin (x.extractLsb' 0 6).toFin : BitVec 6) = x := by revert x; decide
theorem cnt_zero {x : BitVec 7} (h : x.extractLsb' 0 6 = 0#6) : BitVec.ofBool x[6] ++ (BitVec.ofFin (0 : Fin 64) : BitVec 6) = x := by revert h; revert x; decide
theorem scl_bits {x : BitVec 7} (h : x.extractLsb' 0 6 = 0#6) : BitVec.ofBool x[6] ++ (0 : BitVec 6) = x := cnt_zero h
theorem b2_kind {x : BitVec 2} (h : x = 0#2 ∨ x = 3#2) : b2 (x == 3#2) (x == 3#2) = x := by obtain rfl | rfl := h <;> rfl
theorem atm_bits {x : BitVec 7} {n : Nat} (low : x.toNat % 16 = n) : atm (x.extractLsb' 4 3).toFin n = x := by
  rw [← low]; clear low; revert x; decide
theorem atm_zero {x : BitVec 7} (low : x.extractLsb' 0 4 = 0#4) : atm (x.extractLsb' 4 3).toFin 0 = x := by revert low; revert x; decide
theorem fence_bits {x : BitVec 16} {k : FenceKind} (high : x.toNat < 32) (low : x.toNat % 4 = (fenceKind k).toNat) :
    (0 : BitVec 11) ++ (BitVec.ofFin (x.extractLsb' 2 3).toFin : BitVec 3) ++ fenceKind k = x := by
  have : ∀ n : Fin 32, (0 : BitVec 11) ++ (BitVec.ofFin ((BitVec.ofNat 16 n).extractLsb' 2 3).toFin : BitVec 3) ++ BitVec.ofNat 2 (n % 4) = BitVec.ofNat 16 n := by decide
  simpa [low] using this ⟨x.toNat, high⟩
theorem cpy_bits {x : BitVec 7} {z : CpySize} (low : x.extractLsb' 0 3 = 0#3) (high : x.toNat >>> 5 % 4 = (cpySize z).toNat) :
    cpySize z ++ BitVec.ofBool x[4] ++ BitVec.ofBool x[3] ++ (0 : BitVec 3) = x := by
  have : ∀ x : BitVec 7, x.extractLsb' 0 3 = 0#3 → BitVec.ofNat 2 (x.toNat >>> 5 % 4) ++ BitVec.ofBool (x.getLsbD 4) ++ BitVec.ofBool (x.getLsbD 3) ++ (0 : BitVec 3) = x := by decide
  simpa [high] using this x low
theorem ofNat16_toNat (x : BitVec 16) : BitVec.ofNat 16 x.toNat = x := by simp
theorem hn_cases (x : BitVec 2) : x = 0#2 ∨ x = 1#2 ∨ x = 2#2 ∨ x = 3#2 := by revert x; decide
end Enc

theorem immOk_of_inFT {t : ElemTy} {v : BitVec 16} (ht : t.inFT = true) : immOk t v = true := by cases t <;> simp [ElemTy.inFT, immOk] at ht ⊢

theorem ElemTy.of_inN {t : ElemTy} (h : t.inN = true) : (if (t == .n64) = true then ElemTy.n64 else .n32) = t := by cases t <;> simp [ElemTy.inN] at h ⊢

@[simp] theorem Hint.ofCode_eq_counted {x : BitVec 2} : Hint.ofCode x = .counted ↔ x = 3#2 := by revert x; decide

theorem cntOk_reg {x : BitVec 2} {y : BitVec 7} {a b : Src} {scl : Bool} (h : x = 3#2 ∨ y.extractLsb' 0 6 = 0#6) :
    cntOk (Hint.ofCode x) (.reg a b scl) (y.extractLsb' 0 6).toFin = true := by
  obtain rfl | h := h
  · rfl
  · rw [h]; simp [cntOk]

theorem and_ok {a b : Bool} (ha : a = true) (hb : b = true) : (a && b) = true := Bool.and_eq_true_iff.2 ⟨ha, hb⟩

/-- A word that the encoder gives is the word it is shown to be. -/
theorem encode_eq {i : Instr} {x y : W64} (he : encode i = some y) (h : y = x) : encode i = some x := h ▸ he

/-! ## The rows that several functions share -/

section
variable {w : Fields} {opc : BitVec 9} {p : ElemTy → Bool}

theorem rI2_sound {mk : Hd → ElemTy → Dst → Src → SrcI → Instr} (ho : w.opc = opc)
    (wf : ∀ h t d a b, (p t && d.wf && b.wf t) = true → (mk h t d a b).wf = true)
    (enc : ∀ h t d a b, encode (mk h t d a b) = some (Enc.rIm opc h t 0 (Enc.dst d) a b)) : Sound w (Dec.rI2 w p mk) := by
  apply Sound.formRI ho
  · intro h t hn d sa sb sc sd i hi
    simp at hi
    obtain ⟨ht, rfl, ⟨_, row⟩, rfl, rfl, d, op, a, rfl, b, rfl, rfl⟩ := hi
    obtain ⟨rfl, hd⟩ := Dec.dst_wf row op
    exact ⟨wf _ _ _ _ _ (by simp [ht, hd, SrcI.wf]), enc ..⟩
  · intro h t hn d sa v i hi
    simp at hi
    obtain ⟨ht, rfl, ⟨_, row⟩, hv, d, op, a, rfl, rfl⟩ := hi
    obtain ⟨rfl, hd⟩ := Dec.dst_wf row op
    exact ⟨wf _ _ _ _ _ (by simp [ht, hd, hv, SrcI.wf]), enc ..⟩

theorem r1_sound {mk : Hd → ElemTy → Dst → Src → Instr} (ho : w.opc = opc)
    (wf : ∀ h t d a, (p t && d.wf) = true → (mk h t d a).wf = true)
    (enc : ∀ h t d a, encode (mk h t d a) = some (Enc.s1 opc h t 0 (Enc.dst d) a)) : Sound w (Dec.r1 w p mk) := by
  apply Sound.formR ho
  intro h t hn d sa sb sc sd i hi
  simp at hi
  obtain ⟨ht, rfl, ⟨_, row⟩, rfl, rfl, rfl, d, op, a, rfl, rfl⟩ := hi
  obtain ⟨rfl, hd⟩ := Dec.dst_wf row op
  exact ⟨wf _ _ _ _ (by simp [ht, hd]), enc ..⟩

theorem r3_sound {mk : Hd → ElemTy → Dst → Src → Src → Src → Instr} (ho : w.opc = opc)
    (wf : ∀ h t d a b c, (p t && d.wf) = true → (mk h t d a b c).wf = true)
    (enc : ∀ h t d a b c, p t = true → encode (mk h t d a b c) = some (Enc.s3 opc h t 0 (Enc.dst d) a b c)) : Sound w (Dec.r3 w p mk) := by
  apply Sound.formR ho
  intro h t hn d sa sb sc sd i hi
  simp at hi
  obtain ⟨ht, rfl, ⟨_, row⟩, rfl, d, op, a, rfl, b, rfl, c, rfl, rfl⟩ := hi
  obtain ⟨rfl, hd⟩ := Dec.dst_wf row op
  exact ⟨wf _ _ _ _ _ _ (by simp [ht, hd]), enc _ _ _ _ _ _ ht⟩

theorem f2_sound {mk : Hd → ElemTy → Rnd → Dst → Src → SrcI → Instr} (ho : w.opc = opc)
    (wf : ∀ h t r d a b, (ElemTy.inFT t && d.wf && b.wf t) = true → (mk h t r d a b).wf = true)
    (enc : ∀ h t r d a b, encode (mk h t r d a b) = some (Enc.rIm opc h t r.code (Enc.dst d) a b)) : Sound w (Dec.f2 w mk) := by
  apply Sound.formRI ho
  · intro h t hn d sa sb sc sd i hi
    simp at hi
    obtain ⟨ht, ⟨_, row⟩, rfl, rfl, d, op, a, rfl, b, rfl, rfl⟩ := hi
    obtain ⟨rfl, hd⟩ := Dec.dst_wf row op
    exact ⟨wf _ _ _ _ _ _ (by simp [ht, hd, SrcI.wf]), encode_eq (enc ..) (by rw [Rnd.code_ofCode]; rfl)⟩
  · intro h t hn d sa v i hi
    simp at hi
    obtain ⟨ht, ⟨_, row⟩, d, op, a, rfl, rfl⟩ := hi
    obtain ⟨rfl, hd⟩ := Dec.dst_wf row op
    exact ⟨wf _ _ _ _ _ _ (by simp [ht, hd, immOk_of_inFT ht, SrcI.wf]), encode_eq (enc ..) (by rw [Rnd.code_ofCode]; rfl)⟩

theorem fmm_sound {mk : Hd → ElemTy → Bool → Dst → Src → SrcI → Instr} (ho : w.opc = opc)
    (wf : ∀ h t n d a b, (ElemTy.inFT t && d.wf && b.wf t) = true → (mk h t n d a b).wf = true)
    (enc : ∀ h t n d a b, encode (mk h t n d a b) = some (Enc.rIm opc h t (Enc.b1 n) (Enc.dst d) a b)) : Sound w (Dec.fmm w mk) := by
  apply Sound.formRI ho
  · intro h t hn d sa sb sc sd i hi
    simp at hi
    obtain ⟨ht, hn1, ⟨_, row⟩, rfl, rfl, d, op, a, rfl, b, rfl, rfl⟩ := hi
    obtain ⟨rfl, hd⟩ := Dec.dst_wf row op
    exact ⟨wf _ _ _ _ _ _ (by simp [ht, hd, SrcI.wf]), encode_eq (enc ..) (by rw [Enc.b1_bit hn1]; rfl)⟩
  · intro h t hn d sa v i hi
    simp at hi
    obtain ⟨ht, hn1, ⟨_, row⟩, d, op, a, rfl, rfl⟩ := hi
    obtain ⟨rfl, hd⟩ := Dec.dst_wf row op
    exact ⟨wf _ _ _ _ _ _ (by simp [ht, hd, immOk_of_inFT ht, SrcI.wf]), encode_eq (enc ..) (by rw [Enc.b1_bit hn1]; rfl)⟩

theorem sfu_sound {mk : Hd → Dst → Src → Instr} (ho : w.opc = opc) (wf : ∀ h d a, d.wf = true → (mk h d a).wf = true)
    (enc : ∀ h d a, encode (mk h d a) = some (Enc.s1 opc h .f32 0 (Enc.dst d) a)) : Sound w (Dec.sfu w mk) := by
  apply Sound.formR ho
  intro h t hn d sa sb sc sd i hi
  simp at hi
  obtain ⟨rfl, rfl, ⟨_, row⟩, rfl, rfl, rfl, d, op, a, rfl, rfl⟩ := hi
  obtain ⟨rfl, hd⟩ := Dec.dst_wf row op
  exact ⟨wf _ _ _ hd, enc ..⟩

theorem bare_sound {t : ElemTy} {mk : Hd → Instr} (ho : w.opc = opc) (wf : ∀ h, (mk h).wf = true)
    (enc : ∀ h, encode (mk h) = some (Enc.s0 opc h t Enc.nd)) : Sound w (Dec.bare w t mk) := by
  apply Sound.formR ho
  intro h t hn d sa sb sc sd i hi
  simp at hi
  obtain ⟨rfl, rfl, rfl, rfl, rfl, rfl, rfl, rfl⟩ := hi
  exact ⟨wf _, enc _⟩

theorem only1_sound {t : ElemTy} {mk : Hd → Src → Instr} (ho : w.opc = opc) (wf : ∀ h a, (mk h a).wf = true)
    (enc : ∀ h a, encode (mk h a) = some (Enc.s1 opc h t 0 Enc.nd a)) : Sound w (Dec.only1 w t mk) := by
  apply Sound.formR ho
  intro h t hn d sa sb sc sd i hi
  simp at hi
  obtain ⟨rfl, rfl, rfl, rfl, rfl, rfl, a, rfl, rfl⟩ := hi
  exact ⟨wf .., enc ..⟩

theorem only1I_sound {t : ElemTy} {ok : BitVec 16 → Bool} {mk : Hd → SrcI → Instr} (ho : w.opc = opc)
    (reg : ∀ h a, (mk h (.reg a)).wf = true) (imm : ∀ h v, ok v = true → (mk h (.imm v)).wf = true)
    (enc : ∀ h a, encode (mk h a) = some (Enc.sIm opc h t 0 Enc.nd a)) : Sound w (Dec.only1I w t ok mk) := by
  apply Sound.formRI ho
  · intro h t hn d sa sb sc sd i hi
    simp at hi
    obtain ⟨rfl, rfl, rfl, rfl, rfl, rfl, a, rfl, rfl⟩ := hi
    exact ⟨reg .., enc ..⟩
  · intro h t hn d sa v i hi
    simp at hi
    obtain ⟨rfl, rfl, rfl, rfl, hv, rfl⟩ := hi
    exact ⟨imm _ _ hv, enc ..⟩

theorem mtx_sound {mk : Hd → Instr} (ho : w.opc = opc) (wf : ∀ h, (mk h).wf = true)
    (enc : ∀ h, encode (mk h) = some (Enc.s0 opc h .b32 (Enc.dst (.push .mxc)))) : Sound w (Dec.mtx w mk) := by
  apply Sound.formR ho
  intro h t hn d sa sb sc sd i hi
  simp at hi
  obtain ⟨rfl, rfl, rfl, rfl, rfl, rfl, rfl, rfl⟩ := hi
  exact ⟨wf _, enc _⟩

theorem carry_sound {mk : Hd → ElemTy → Dst → Src → Src → Pred → PName → Instr} (ho : w.opc = opc)
    (wf : ∀ h t d a b ci co, (ElemTy.inN t && d.wf) = true → (mk h t d a b ci co).wf = true)
    (enc : ∀ h t d a b ci co, encode (mk h t d a b ci co) = some (Enc.rf opc h t 0 (Enc.dst d) a.code b.code (Enc.pr ci) (Enc.f7 co.val))) :
    Sound w (Dec.carry w mk) := by
  apply Sound.formR ho
  intro h t hn d sa sb sc sd i hi
  simp [-BitVec.toFin_extractLsb'] at hi
  obtain ⟨ht, rfl, ⟨_, row⟩, ci, rfl, high, d, op, a, rfl, b, rfl, rfl⟩ := hi
  obtain ⟨rfl, hd⟩ := Dec.dst_wf row op
  exact ⟨wf _ _ _ _ _ _ _ (by simp [ht, hd]), encode_eq (enc ..) (by rw [Enc.f7_low3 high]; rfl)⟩

theorem idot_sound {mk : Hd → Bool → Bool → Dst → Src → Src → Src → Instr} (ho : w.opc = opc)
    (wf : ∀ h x y d a b c, d.wf = true → (mk h x y d a b c).wf = true)
    (enc : ∀ h x y d a b c, encode (mk h x y d a b c) = some (Enc.s3 opc h .s32 (Enc.b2 x y) (Enc.dst d) a b c)) : Sound w (Dec.idot w mk) := by
  apply Sound.formR ho
  intro h t hn d sa sb sc sd i hi
  simp at hi
  obtain ⟨rfl, ⟨_, row⟩, rfl, d, op, a, rfl, b, rfl, c, rfl, rfl⟩ := hi
  obtain ⟨rfl, hd⟩ := Dec.dst_wf row op
  exact ⟨wf _ _ _ _ _ _ _ hd, encode_eq (enc ..) (by rw [Enc.b2_bits]; rfl)⟩

theorem xmove_sound {mk : Hd → ElemTy → Dst → Src → SrcI → Instr} (ho : w.opc = opc)
    (wf : ∀ h t d a b, (ElemTy.notBfp t && d.wf && a.noQueue && b.noQueue) = true → (mk h t d a b).wf = true)
    (enc : ∀ h t d a b, encode (mk h t d a b) = some (Enc.rIm opc h t 0 (Enc.dst d) a b)) : Sound w (Dec.xmove w mk) := by
  apply Sound.formRI ho
  · intro h t hn d sa sb sc sd i hi
    simp at hi
    obtain ⟨ht, rfl, ⟨_, row⟩, ⟨_, ha⟩, ⟨_, hb⟩, rfl, rfl, d, op, a, rfl, b, rfl, rfl⟩ := hi
    obtain ⟨rfl, hd⟩ := Dec.dst_wf row op
    rw [Dec.noQueue_eq_ok] at ha hb
    exact ⟨wf _ _ _ _ _ (by simp [ht, hd, ha, hb, SrcI.noQueue]), enc ..⟩
  · intro h t hn d sa v i hi
    simp at hi
    obtain ⟨ht, rfl, ⟨_, row⟩, ⟨_, ha⟩, d, op, a, rfl, rfl⟩ := hi
    obtain ⟨rfl, hd⟩ := Dec.dst_wf row op
    rw [Dec.noQueue_eq_ok] at ha
    exact ⟨wf _ _ _ _ _ (by simp [ht, hd, ha, SrcI.noQueue]), enc ..⟩
end

/-! ## The rows of one function each -/

section
variable {w : Fields}

theorem bra_sound (ho : w.opc = 0x001) : Sound w (Dec.ctl w 1) := by
  apply Sound.formI ho
  intro h t hn d sa v i hi
  simp at hi
  obtain ⟨rfl, rfl, rfl, rfl, rfl⟩ := hi
  exact ⟨rfl, rfl⟩

theorem call_sound (ho : w.opc = 0x003) : Sound w (Dec.ctl w 3) := by
  apply Sound.formI ho
  intro h t hn d sa v i hi
  simp at hi
  obtain ⟨rfl, rfl, n, ⟨name, hn, hk⟩, rfl, rfl⟩ := hi
  exact ⟨and_ok (decide_eq_true hn) (bne_iff_ne.2 hk), encode_eq rfl (by rw [← name]; rfl)⟩

theorem callx_sound (ho : w.opc = 0x004) : Sound w (Dec.ctl w 4) := by
  apply Sound.formR ho
  intro h t hn d sa sb sc sd i hi
  simp at hi
  obtain ⟨rfl, rfl, n, ⟨name, hn, hk⟩, rfl, rfl, rfl, a, rfl, rfl⟩ := hi
  exact ⟨and_ok (decide_eq_true hn) (bne_iff_ne.2 hk), encode_eq rfl (by rw [← name]; rfl)⟩

theorem waitf_sound (ho : w.opc = 0x007) : Sound w (Dec.ctl w 7) := by
  apply Sound.formI ho
  intro h t hn d sa v i hi
  simp at hi
  obtain ⟨rfl, rfl, rfl, rfl, low, rfl⟩ := hi
  exact ⟨rfl, encode_eq rfl (by rw [Enc.wait_bits low]; rfl)⟩

theorem nap_sound (ho : w.opc = 0x008) : Sound w (Dec.ctl w 8) := by
  apply Sound.formI ho
  intro h t hn d sa v i hi
  simp at hi
  obtain ⟨rfl, rfl, rfl, rfl, rfl⟩ := hi
  exact ⟨rfl, rfl⟩

theorem lea_sound (ho : w.opc = 0x02F) : Sound w (Dec.int w 15) := by
  apply Sound.formRI ho
  · intro h t hn d sa sb sc sd i hi
    simp [-BitVec.toFin_extractLsb'] at hi
    obtain ⟨rfl, rfl, ⟨_, row⟩, rfl, high, d, op, a, rfl, b, rfl, rfl⟩ := hi
    obtain ⟨rfl, hd⟩ := Dec.dst_wf row op
    exact ⟨hd, encode_eq rfl (by rw [Enc.lea_bits high]; rfl)⟩
  · intro h t hn d sa v i hi
    simp at hi
    obtain ⟨rfl, rfl, ⟨_, row⟩, d, op, a, rfl, rfl⟩ := hi
    obtain ⟨rfl, hd⟩ := Dec.dst_wf row op
    exact ⟨hd, rfl⟩

theorem lop3_sound (ho : w.opc = 0x043) : Sound w (Dec.bit w 3) := by
  apply Sound.formR ho
  intro h t hn d sa sb sc sd i hi
  simp at hi
  obtain ⟨ht, hn1, ⟨_, row⟩, d, op, a, rfl, b, rfl, c, rfl, rfl⟩ := hi
  obtain ⟨rfl, hd⟩ := Dec.dst_wf row op
  exact ⟨and_ok ht hd, encode_eq rfl (by rw [Enc.lut_high hn1, Enc.lut_low]; rfl)⟩

theorem fshf_sound (ho : w.opc = 0x048) : Sound w (Dec.bit w 8) := by
  apply Sound.formR ho
  intro h t hn d sa sb sc sd i hi
  simp at hi
  obtain ⟨ht, ⟨_, row⟩, rfl, d, op, a, rfl, b, rfl, c, rfl, rfl⟩ := hi
  obtain ⟨rfl, hd⟩ := Dec.dst_wf row op
  exact ⟨and_ok (by simpa using ht) hd, encode_eq rfl (by rw [Enc.b2_bits]; rfl)⟩

theorem perm_sound (ho : w.opc = 0x04F) : Sound w (Dec.bit w 15) := by
  refine r3_sound (p := fun t => t == .b32) (mk := fun h _ d a b c => .perm h d a b c) ho (fun _ _ _ _ _ _ hw => ?_) (fun _ t _ _ _ _ ht => ?_)
  · exact (Bool.and_eq_true_iff.1 hw).2
  · rw [eq_of_beq ht]; rfl

theorem isetp_sound (ho : w.opc = 0x060) : Sound w (Dec.prd w 0) := by
  apply Sound.formRI ho
  · intro h t hn d sa sb sc sd i hi
    simp at hi
    obtain ⟨ht, q, rfl, m, ⟨rfl, rfl⟩, high, c, low, a, rfl, b, rfl, rfl⟩ := hi
    exact ⟨and_ok ht rfl, encode_eq rfl (by rw [Enc.f7_icmp high low]; rfl)⟩
  · intro h t hn d sa v i hi
    obtain rfl | rfl | rfl | rfl := Enc.hn_cases hn
    all_goals
      simp at hi
      obtain ⟨ht, q, rfl, a, rfl, rfl⟩ := hi
      exact ⟨and_ok ht rfl, rfl⟩

theorem fsetp_sound (ho : w.opc = 0x061) : Sound w (Dec.prd w 1) := by
  apply Sound.formR ho
  intro h t hn d sa sb sc sd i hi
  simp at hi
  obtain ⟨ht, q, rfl, m, ⟨rfl, rfl⟩, high, c, low, a, rfl, b, rfl, rfl⟩ := hi
  exact ⟨ht, encode_eq rfl (by rw [Enc.f7_fcmp high low]; rfl)⟩

theorem plop_sound (ho : w.opc = 0x062) : Sound w (Dec.prd w 2) := by
  apply Sound.formR ho
  intro h t hn d sa sb sc sd i hi
  simp at hi
  obtain ⟨rfl, hn1, q, rfl, a, rfl, b, rfl, c, rfl, rfl⟩ := hi
  exact ⟨rfl, encode_eq rfl (by rw [Enc.lut_high hn1, Enc.lut_low]; rfl)⟩

theorem sel_sound (ho : w.opc = 0x063) : Sound w (Dec.prd w 3) := by
  apply Sound.formR ho
  intro h t hn d sa sb sc sd i hi
  simp at hi
  obtain ⟨ht, rfl, ⟨_, row⟩, q, rfl, rfl, d, op, a, rfl, b, rfl, rfl⟩ := hi
  obtain ⟨rfl, hd⟩ := Dec.dst_wf row op
  exact ⟨and_ok ht hd, rfl⟩

theorem p2v_sound (ho : w.opc = 0x064) : Sound w (Dec.prd w 4) := by
  apply Sound.formR ho
  intro h t hn d sa sb sc sd i hi
  simp at hi
  obtain ⟨rfl, rfl, ⟨_, row⟩, rfl, rfl, rfl, rfl, d, op, rfl⟩ := hi
  obtain ⟨rfl, hd⟩ := Dec.dst_wf row op
  exact ⟨hd, rfl⟩

theorem v2p_sound (ho : w.opc = 0x065) : Sound w (Dec.prd w 5) := by
  apply Sound.formRI ho
  · intro h t hn d sa sb sc sd i hi
    simp at hi
    obtain ⟨rfl, rfl, rfl, rfl, rfl, a, rfl, b, rfl, rfl⟩ := hi
    exact ⟨rfl, rfl⟩
  · intro h t hn d sa v i hi
    simp at hi
    obtain ⟨rfl, rfl, rfl, hv, a, rfl, rfl⟩ := hi
    exact ⟨decide_eq_true hv, rfl⟩

theorem ffma_sound (ho : w.opc = 0x083) : Sound w (Dec.flt w 3) := by
  apply Sound.formR ho
  intro h t hn d sa sb sc sd i hi
  simp at hi
  obtain ⟨ht, ⟨_, row⟩, rfl, d, op, a, rfl, b, rfl, c, rfl, rfl⟩ := hi
  obtain ⟨rfl, hd⟩ := Dec.dst_wf row op
  exact ⟨and_ok ht hd, encode_eq rfl (by rw [Rnd.code_ofCode]; rfl)⟩

theorem frnd_sound (ho : w.opc = 0x086) : Sound w (Dec.flt w 6) := by
  apply Sound.formR ho
  intro h t hn d sa sb sc sd i hi
  simp at hi
  obtain ⟨ht, ⟨_, row⟩, rfl, rfl, rfl, d, op, a, rfl, rfl⟩ := hi
  obtain ⟨rfl, hd⟩ := Dec.dst_wf row op
  exact ⟨and_ok ht hd, encode_eq rfl (by rw [Rnd.code_ofCode]; rfl)⟩

theorem fscale_sound (ho : w.opc = 0x087) : Sound w (Dec.flt w 7) := by
  apply Sound.formR ho
  intro h t hn d sa sb sc sd i hi
  simp at hi
  obtain ⟨ht, ⟨_, row⟩, rfl, rfl, d, op, a, rfl, b, rfl, rfl⟩ := hi
  obtain ⟨rfl, hd⟩ := Dec.dst_wf row op
  exact ⟨and_ok ht hd, encode_eq rfl (by rw [Rnd.code_ofCode]; rfl)⟩

theorem fdot2_sound (ho : w.opc = 0x089) : Sound w (Dec.flt w 9) := by
  apply Sound.formR ho
  intro h t hn d sa sb sc sd i hi
  simp at hi
  obtain ⟨ht, ⟨_, row⟩, rfl, d, op, a, rfl, b, rfl, c, rfl, rfl⟩ := hi
  obtain ⟨rfl, hd⟩ := Dec.dst_wf row op
  exact ⟨and_ok (by simpa using ht) hd, encode_eq rfl (by rw [Rnd.code_ofCode]; rfl)⟩

theorem cvt_sound (ho : w.opc = 0x0A0) : Sound w (Dec.cvtG w 0) := by
  apply Sound.formR ho
  intro h t hn d sa sb sc sd i hi
  simp at hi
  obtain ⟨ht, ⟨_, row⟩, rfl, rfl, hl, d, op, a, rfl, rfl⟩ := hi
  obtain ⟨rfl, hd⟩ := Dec.dst_wf row op
  exact ⟨and_ok (and_ok ht hd) hl, encode_eq rfl (by rw [Rnd.code_ofCode, Enc.cvt_cvtLit, Fields.word_sd]; rfl)⟩

theorem cvtpk_sound (ho : w.opc = 0x0A1) : Sound w (Dec.cvtG w 1) := by
  apply Sound.formR ho
  intro h t hn d sa sb sc sd i hi
  simp at hi
  obtain ⟨ht, ⟨_, row⟩, rfl, hl, d, op, a, rfl, b, rfl, rfl⟩ := hi
  obtain ⟨rfl, hd⟩ := Dec.dst_wf row op
  exact ⟨and_ok (and_ok ht hd) hl, encode_eq rfl (by rw [Rnd.code_ofCode, Enc.cvt_cvtLit, Fields.word_sd]; rfl)⟩

theorem cvt8pk_sound (ho : w.opc = 0x0A2) : Sound w (Dec.cvtG w 2) := by
  apply Sound.formR ho
  intro h t hn d sa sb sc sd i hi
  simp at hi
  obtain ⟨ht, ⟨_, row⟩, _, _, hl, d, op, a, rfl, b, rfl, c, rfl, rfl⟩ := hi
  obtain ⟨rfl, hd⟩ := Dec.dst_wf row op
  rw [opt_bne] at hl
  exact ⟨and_ok (and_ok ht hd) hl, encode_eq rfl (by rw [Rnd.code_ofCode, Enc.cvt_cvtLit, Fields.word_sd]; rfl)⟩

theorem cvtupk_sound (ho : w.opc = 0x0A3) : Sound w (Dec.cvtG w 3) := by
  apply Sound.formR ho
  intro h t hn d sa sb sc sd i hi
  simp at hi
  obtain ⟨ht, ⟨_, row⟩, rfl, rfl, hl, d, op, a, rfl, rfl⟩ := hi
  obtain ⟨rfl, hd⟩ := Dec.dst_wf row op
  exact ⟨and_ok (and_ok ht hd) hl, encode_eq rfl (by rw [Rnd.code_ofCode, Enc.cvt_cvtLit, Fields.word_sd]; rfl)⟩

theorem qblk_sound (ho : w.opc = 0x0A4) : Sound w (Dec.cvtG w 4) := by
  apply Sound.formR ho
  intro h t hn d sa sb sc sd i hi
  simp [-BitVec.toFin_extractLsb'] at hi
  obtain ⟨ht, ⟨_, row⟩, high, low, d, op, a, rfl, b, rfl, c, rfl, rfl⟩ := hi
  obtain ⟨rfl, hd⟩ := Dec.dst_valNul row op
  exact ⟨and_ok (and_ok ht hd) (bne_iff_ne.2 (Enc.low3_ne low)), encode_eq rfl (by rw [Rnd.code_ofCode, Enc.f7_low3 high]; rfl)⟩

theorem dqblk_sound (ho : w.opc = 0x0A5) : Sound w (Dec.cvtG w 5) := by
  apply Sound.formR ho
  intro h t hn d sa sb sc sd i hi
  simp [-BitVec.toFin_extractLsb'] at hi
  obtain ⟨ht, ⟨_, row⟩, rfl, high, low, d, op, a, rfl, b, rfl, rfl⟩ := hi
  obtain ⟨rfl, hd⟩ := Dec.dst_wf row op
  exact ⟨and_ok (and_ok ht hd) (bne_iff_ne.2 (Enc.low3_ne low)), encode_eq rfl (by rw [Rnd.code_ofCode, Enc.f7_low3 high]; rfl)⟩

theorem rnd_sound (ho : w.opc = 0x0C8) : Sound w (Dec.sfuG w 8) := by
  apply Sound.formR ho
  intro h t hn d sa sb sc sd i hi
  simp at hi
  obtain ⟨rfl, rfl, ⟨_, row⟩, rfl, rfl, rfl, rfl, d, op, rfl⟩ := hi
  obtain ⟨rfl, hd⟩ := Dec.dst_wf row op
  exact ⟨hd, rfl⟩

theorem rndf_sound (ho : w.opc = 0x0C9) : Sound w (Dec.sfuG w 9) := by
  apply Sound.formR ho
  intro h t hn d sa sb sc sd i hi
  simp at hi
  obtain ⟨rfl, rfl, ⟨_, row⟩, rfl, rfl, rfl, rfl, d, op, rfl⟩ := hi
  obtain ⟨rfl, hd⟩ := Dec.dst_wf row op
  exact ⟨hd, rfl⟩
end

section
variable {w : Fields}

theorem xshf_sound (ho : w.opc = 0x0E0) : Sound w (Dec.xln w 0) := by
  apply Sound.formRI ho
  · intro h t hn d sa sb sc sd i hi
    obtain rfl | rfl | rfl | rfl := Enc.hn_cases hn
    case inr.inr.inr => simp at hi
    all_goals
      simp at hi
      obtain ⟨ht, ⟨_, row⟩, ⟨_, ha⟩, ⟨_, hb⟩, rfl, rfl, d, op, a, rfl, b, rfl, rfl⟩ := hi
      obtain ⟨rfl, hd⟩ := Dec.dst_wf row op
      rw [Dec.noQueue_eq_ok] at ha hb
      exact ⟨and_ok (and_ok (and_ok ht hd) ha) hb, rfl⟩
  · intro h t hn d sa v i hi
    obtain rfl | rfl | rfl | rfl := Enc.hn_cases hn
    case inr.inr.inr => simp at hi
    all_goals
      simp at hi
      obtain ⟨ht, ⟨_, row⟩, ⟨_, ha⟩, d, op, a, rfl, rfl⟩ := hi
      obtain ⟨rfl, hd⟩ := Dec.dst_wf row op
      rw [Dec.noQueue_eq_ok] at ha
      exact ⟨and_ok (and_ok (and_ok ht hd) ha) rfl, rfl⟩

theorem redx_sound (ho : w.opc = 0x0E3) : Sound w (Dec.xln w 3) := by
  apply Sound.formR ho
  intro h t hn d sa sb sc sd i hi
  simp at hi
  obtain ⟨_, rfl, ⟨_, row⟩, ⟨_, ha⟩, rfl, rfl, high, mid, q, low, hq, d, op, a, rfl, rfl⟩ := hi
  obtain ⟨rfl, hd⟩ := Dec.dst_wf row op
  rw [Dec.noQueue_eq_ok] at ha
  exact ⟨and_ok (and_ok hq hd) ha, encode_eq rfl (by rw [Enc.f7_redOp high mid low]; rfl)⟩

theorem scanx_sound (ho : w.opc = 0x0E4) : Sound w (Dec.xln w 4) := by
  apply Sound.formR ho
  intro h t hn d sa sb sc sd i hi
  simp at hi
  obtain ⟨_, rfl, ⟨_, row⟩, ⟨_, ha⟩, rfl, rfl, high, q, low, hq, d, op, a, rfl, rfl⟩ := hi
  obtain ⟨rfl, hd⟩ := Dec.dst_wf row op
  rw [Dec.noQueue_eq_ok] at ha
  exact ⟨and_ok (and_ok hq hd) ha, encode_eq rfl (by rw [Enc.scan_bits high low]; rfl)⟩

theorem vote_sound (ho : w.opc = 0x0E5) : Sound w (Dec.xln w 5) := by
  apply Sound.formR ho
  intro h t hn d sa sb sc sd i hi
  obtain rfl | rfl | rfl | rfl := Enc.hn_cases hn
  case inr.inr.inr =>
    simp at hi
    obtain ⟨rfl, ⟨_, row⟩, rfl, rfl, q, rfl, high, d, op, rfl⟩ := hi
    obtain ⟨rfl, hd⟩ := Dec.dst_wf row op
    exact ⟨hd, encode_eq rfl (by rw [Enc.bit_bits high]; rfl)⟩
  all_goals
    simp at hi
    obtain ⟨rfl, d, rfl, rfl, rfl, rfl, q, rfl, rfl⟩ := hi
    exact ⟨rfl, rfl⟩

theorem xmatch_sound (ho : w.opc = 0x0E6) : Sound w (Dec.xln w 6) := by
  apply Sound.formR ho
  intro h t hn d sa sb sc sd i hi
  simp at hi
  obtain ⟨ht, rfl, ⟨_, row⟩, ⟨_, ha⟩, rfl, rfl, high, d, op, a, rfl, rfl⟩ := hi
  obtain ⟨rfl, hd⟩ := Dec.dst_wf row op
  rw [Dec.noQueue_eq_ok] at ha
  refine ⟨and_ok hd ha, ?_⟩
  obtain rfl | rfl := ht <;> exact encode_eq rfl (by rw [Enc.bit_bits high]; rfl)

theorem elect_sound (ho : w.opc = 0x0E7) : Sound w (Dec.xln w 7) := by
  apply Sound.formR ho
  intro h t hn d sa sb sc sd i hi
  simp at hi
  obtain ⟨rfl, rfl, q, rfl, rfl, rfl, rfl, rfl, rfl⟩ := hi
  exact ⟨rfl, rfl⟩

theorem xcount_sound (ho : w.opc = 0x0E8) : Sound w (Dec.xln w 8) := by
  apply Sound.formR ho
  intro h t hn d sa sb sc sd i hi
  obtain rfl | rfl | rfl | rfl := Enc.hn_cases hn
  case inr.inr.inl | inr.inr.inr =>
    simp at hi
    obtain ⟨rfl, ⟨_, row⟩, rfl, rfl, rfl, q, rfl, d, op, rfl⟩ := hi
    obtain ⟨rfl, hd⟩ := Dec.dst_wf row op
    exact ⟨hd, rfl⟩
  all_goals
    simp at hi
    obtain ⟨rfl, ⟨_, row⟩, rfl, rfl, rfl, rfl, d, op, rfl⟩ := hi
    obtain ⟨rfl, hd⟩ := Dec.dst_wf row op
    exact ⟨hd, rfl⟩

theorem mov_sound (ho : w.opc = 0x100) : Sound w (Dec.cel w 0) := by
  apply Sound.formRI ho
  · intro h t hn d sa sb sc sd i hi
    simp at hi
    obtain ⟨ht, rfl, ⟨_, row⟩, rfl, rfl, rfl, d, op, a, rfl, rfl⟩ := hi
    obtain ⟨rfl, hd⟩ := Dec.dst_wf row op
    exact ⟨and_ok (and_ok ht hd) rfl, rfl⟩
  · intro h t hn d sa v i hi
    simp at hi
    obtain ⟨ht, rfl, ⟨_, row⟩, rfl, hv, d, op, rfl⟩ := hi
    obtain ⟨rfl, hd⟩ := Dec.dst_wf row op
    exact ⟨and_ok (and_ok ht hd) hv, rfl⟩

theorem drop_sound (ho : w.opc = 0x101) : Sound w (Dec.cel w 1) := by
  apply Sound.formI ho
  intro h t hn d sa v i hi
  simp at hi
  obtain ⟨rfl, rfl, rfl, hv, a, rfl, rfl⟩ := hi
  exact ⟨decide_eq_true (by simp; omega), encode_eq rfl (by rw [Enc.drop_bits hv]; rfl)⟩

theorem keep_sound (ho : w.opc = 0x102) : Sound w (Dec.cel w 2) := by
  apply Sound.formI ho
  intro h t hn d sa v i hi
  simp at hi
  obtain ⟨rfl, rfl, rfl, ⟨lo, hv⟩, a, rfl, rfl⟩ := hi
  exact ⟨and_ok (decide_eq_true (by simp; omega)) (decide_eq_true (by simp; omega)), encode_eq rfl (by rw [Enc.drop_bits hv]; rfl)⟩

theorem free_sound (ho : w.opc = 0x103) : Sound w (Dec.cel w 3) := by
  apply Sound.formR ho
  intro h t hn d sa sb sc sd i hi
  simp at hi
  obtain ⟨rfl, rfl, rfl, rfl, rfl, rfl, a, rfl, rfl⟩ := hi
  exact ⟨rfl, rfl⟩

theorem pair_sound (ho : w.opc = 0x104) : Sound w (Dec.cel w 4) := by
  apply Sound.formR ho
  intro h t hn d sa sb sc sd i hi
  simp at hi
  obtain ⟨ht, rfl, ⟨_, row⟩, rfl, rfl, d, op, a, rfl, b, rfl, rfl⟩ := hi
  obtain ⟨rfl, hd⟩ := Dec.dst_isVal row op
  exact ⟨and_ok ht hd, rfl⟩

theorem split_sound (ho : w.opc = 0x105) : Sound w (Dec.cel w 5) := by
  apply Sound.formR ho
  intro h t hn d sa sb sc sd i hi
  simp at hi
  obtain ⟨ht, rfl, n, ⟨name, hn, hk⟩, rfl, rfl, rfl, a, rfl, rfl⟩ := hi
  exact ⟨and_ok (and_ok ht (decide_eq_true hn)) (bne_iff_ne.2 hk), encode_eq rfl (by rw [← name]; rfl)⟩

theorem cellq_sound (ho : w.opc = 0x106) : Sound w (Dec.cel w 6) := by
  apply Sound.formR ho
  intro h t hn d sa sb sc sd i hi
  obtain rfl | rfl | rfl | rfl := Enc.hn_cases hn
  case inr.inr.inr =>
    simp at hi
    obtain ⟨rfl, ⟨_, row⟩, rfl, rfl, rfl, rfl, d, op, rfl⟩ := hi
    obtain ⟨rfl, hd⟩ := Dec.dst_isVal row op
    exact ⟨hd, rfl⟩
  all_goals
    simp at hi
    obtain ⟨rfl, ⟨_, row⟩, rfl, rfl, rfl, d, op, a, rfl, rfl⟩ := hi
    obtain ⟨rfl, hd⟩ := Dec.dst_isVal row op
    exact ⟨hd, rfl⟩
end

section
variable {w : Fields}

theorem ld_sound (ho : w.opc = 0x120) : Sound w (Dec.mem w 0) := by
  apply Sound.formRI ho
  · intro h t hn d sa sb sc sd i hi
    simp [-BitVec.toFin_extractLsb'] at hi
    obtain ⟨ht, ⟨_, row⟩, rfl, cnt, d, op, a, rfl, b, rfl, rfl⟩ := hi
    obtain ⟨rfl, hd⟩ := Dec.dst_valPush row op
    exact ⟨and_ok (and_ok ht hd) (cntOk_reg cnt), encode_eq rfl (by rw [Hint.code_ofCode, Enc.mem, Enc.cnt_bits]; rfl)⟩
  · intro h t hn d sa v i hi
    simp at hi
    obtain ⟨ht, ⟨_, row⟩, d, op, a, rfl, rfl⟩ := hi
    obtain ⟨rfl, hd⟩ := Dec.dst_valPush row op
    exact ⟨and_ok (and_ok ht hd) rfl, encode_eq rfl (by rw [Hint.code_ofCode]; rfl)⟩

theorem st_sound (ho : w.opc = 0x121) : Sound w (Dec.mem w 1) := by
  apply Sound.formR ho
  intro h t hn d sa sb sc sd i hi
  simp at hi
  obtain ⟨ht, hint, rfl, low, a, rfl, b, rfl, c, rfl, rfl⟩ := hi
  exact ⟨and_ok ht (bne_iff_ne.2 (mt Hint.ofCode_eq_counted.1 hint)), encode_eq rfl (by rw [Hint.code_ofCode, Enc.store, Enc.scl_bits low]; rfl)⟩

theorem lds_sound (ho : w.opc = 0x122) : Sound w (Dec.mem w 2) := by
  apply Sound.formRI ho
  · intro h t hn d sa sb sc sd i hi
    simp at hi
    obtain ⟨ht, kind, ⟨_, row⟩, rfl, low, d, op, a, rfl, b, rfl, rfl⟩ := hi
    obtain ⟨rfl, hd⟩ := Dec.dst_valPush row op
    exact ⟨and_ok ht hd, encode_eq rfl (by rw [Enc.b2_kind kind, Enc.mem, Enc.cnt_zero low]; rfl)⟩
  · intro h t hn d sa v i hi
    simp at hi
    obtain ⟨ht, kind, ⟨_, row⟩, d, op, a, rfl, rfl⟩ := hi
    obtain ⟨rfl, hd⟩ := Dec.dst_valPush row op
    exact ⟨and_ok ht hd, encode_eq rfl (by rw [Enc.b2_kind kind]; rfl)⟩

theorem sts_sound (ho : w.opc = 0x123) : Sound w (Dec.mem w 3) := by
  apply Sound.formR ho
  intro h t hn d sa sb sc sd i hi
  simp at hi
  obtain ⟨ht, rfl, rfl, low, a, rfl, b, rfl, c, rfl, rfl⟩ := hi
  exact ⟨ht, encode_eq rfl (by rw [Enc.store, Enc.scl_bits low]; rfl)⟩

theorem ldp_sound (ho : w.opc = 0x124) : Sound w (Dec.mem w 4) := by
  apply Sound.formRI ho
  · intro h t hn d sa sb sc sd i hi
    simp at hi
    obtain ⟨ht, rfl, ⟨_, row⟩, rfl, low, d, op, a, rfl, b, rfl, rfl⟩ := hi
    obtain ⟨rfl, hd⟩ := Dec.dst_valPush row op
    exact ⟨and_ok ht hd, encode_eq rfl (by rw [Enc.mem, Enc.cnt_zero low]; rfl)⟩
  · intro h t hn d sa v i hi
    simp at hi
    obtain ⟨ht, rfl, ⟨_, row⟩, d, op, a, rfl, rfl⟩ := hi
    obtain ⟨rfl, hd⟩ := Dec.dst_valPush row op
    exact ⟨and_ok ht hd, rfl⟩

theorem ldv_sound (ho : w.opc = 0x125) : Sound w (Dec.mem w 5) := by
  apply Sound.formRI ho
  · intro h t hn ⟨dst, rdc⟩ sa sb sc sd i hi
    simp [-BitVec.toFin_extractLsb'] at hi
    obtain ⟨rfl, n, rfl, ⟨even, hk⟩, rfl, cnt, a, rfl, b, rfl, rfl⟩ := hi
    exact ⟨and_ok (and_ok (decide_eq_true even) (bne_iff_ne.2 hk)) (cntOk_reg cnt), encode_eq rfl (by rw [Hint.code_ofCode, Enc.mem, Enc.cnt_bits]; rfl)⟩
  · intro h t hn ⟨dst, rdc⟩ sa v i hi
    simp at hi
    obtain ⟨rfl, n, rfl, ⟨even, hk⟩, a, rfl, rfl⟩ := hi
    exact ⟨and_ok (and_ok (decide_eq_true even) (bne_iff_ne.2 hk)) rfl, encode_eq rfl (by rw [Hint.code_ofCode]; rfl)⟩

theorem stv_sound (ho : w.opc = 0x126) : Sound w (Dec.mem w 6) := by
  apply Sound.formR ho
  intro h t hn d sa sb sc sd i hi
  simp at hi
  obtain ⟨rfl, hint, rfl, n, rfl, even, low, a, rfl, b, rfl, rfl⟩ := hi
  exact ⟨and_ok (bne_iff_ne.2 (mt Hint.ofCode_eq_counted.1 hint)) (decide_eq_true even), encode_eq rfl (by rw [Hint.code_ofCode, Enc.store, Enc.scl_bits low]; rfl)⟩

theorem pfl_sound (ho : w.opc = 0x127) : Sound w (Dec.mem w 7) := by
  apply Sound.formRI ho
  · intro h t hn d sa sb sc sd i hi
    simp at hi
    obtain ⟨rfl, rfl, low, a, rfl, b, rfl, c, rfl, rfl⟩ := hi
    exact ⟨rfl, encode_eq rfl (by rw [Hint.code_ofCode, Enc.mem, Enc.cnt_zero low]; rfl)⟩
  · intro h t hn d sa v i hi
    simp at hi
    obtain ⟨rfl, rfl, a, rfl, rfl⟩ := hi
    exact ⟨rfl, encode_eq rfl (by rw [Hint.code_ofCode]; rfl)⟩

theorem atom_sound (ho : w.opc = 0x140) : Sound w (Dec.atm w 0) := by
  apply Sound.formR ho
  intro h t hn d sa sb sc sd i hi
  simp [-BitVec.toFin_extractLsb'] at hi
  obtain ⟨_, ty, rfl, ⟨_, row⟩, rfl, q, low, d, op, a, rfl, b, rfl, rfl⟩ := hi
  obtain ⟨rfl, hd⟩ := Dec.dst_valPush row op
  obtain ⟨ht, rfl⟩ := Dec.atomTy_word low ty
  exact ⟨and_ok ht hd, encode_eq rfl (by rw [Enc.atm_bits low]; rfl)⟩

theorem ared_sound (ho : w.opc = 0x141) : Sound w (Dec.atm w 1) := by
  apply Sound.formR ho
  intro h t hn d sa sb sc sd i hi
  simp [-BitVec.toFin_extractLsb'] at hi
  obtain ⟨_, ty, rfl, rfl, rfl, q, low, a, rfl, b, rfl, rfl⟩ := hi
  obtain ⟨ht, rfl⟩ := Dec.atomTy_word low ty
  exact ⟨ht, encode_eq rfl (by rw [Enc.atm_bits low]; rfl)⟩

theorem acas_sound (ho : w.opc = 0x142) : Sound w (Dec.atm w 2) := by
  apply Sound.formR ho
  intro h t hn d sa sb sc sd i hi
  simp [-BitVec.toFin_extractLsb'] at hi
  obtain ⟨ht, rfl, ⟨_, row⟩, low, d, op, a, rfl, b, rfl, c, rfl, rfl⟩ := hi
  obtain ⟨rfl, hd⟩ := Dec.dst_valPush row op
  exact ⟨and_ok ht hd, encode_eq rfl (by rw [Enc.atm_zero low]; rfl)⟩

theorem await_sound (ho : w.opc = 0x143) : Sound w (Dec.atm w 3) := by
  apply Sound.formR ho
  intro h t hn d sa sb sc sd i hi
  simp [-BitVec.toFin_extractLsb'] at hi
  obtain ⟨ht, rfl, ⟨_, row⟩, q, low, hq, d, op, a, rfl, b, rfl, c, rfl, rfl⟩ := hi
  obtain ⟨rfl, hd⟩ := Dec.dst_valPush row op
  exact ⟨and_ok (and_ok ht hq) hd, encode_eq rfl (by rw [Enc.atm_bits low]; rfl)⟩

theorem fence_sound (ho : w.opc = 0x144) : Sound w (Dec.atm w 4) := by
  apply Sound.formI ho
  intro h t hn d sa v i hi
  simp [-BitVec.toFin_extractLsb'] at hi
  obtain ⟨rfl, rfl, rfl, rfl, high, hi⟩ := hi
  split at hi <;> cases hi
  all_goals exact ⟨rfl, encode_eq rfl (by rw [Enc.fence_bits high ‹_›]; rfl)⟩

theorem cntdec_sound (ho : w.opc = 0x145) : Sound w (Dec.atm w 5) := by
  apply Sound.formR ho
  intro h t hn d sa sb sc sd i hi
  simp [-BitVec.toFin_extractLsb'] at hi
  obtain ⟨rfl, rfl, rfl, rfl, low, a, rfl, b, rfl, rfl⟩ := hi
  exact ⟨rfl, encode_eq rfl (by rw [Enc.atm_zero low]; rfl)⟩

theorem bararv_sound (ho : w.opc = 0x146) : Sound w (Dec.atm w 6) := by
  apply Sound.formR ho
  intro h t hn d sa sb sc sd i hi
  simp [-BitVec.toFin_extractLsb'] at hi
  obtain ⟨rfl, rfl, ⟨_, row⟩, rfl, low, d, op, a, rfl, b, rfl, rfl⟩ := hi
  obtain ⟨rfl, hd⟩ := Dec.dst_valNul row op
  exact ⟨hd, encode_eq rfl (by rw [Enc.atm_zero low]; rfl)⟩

theorem barwt_sound (ho : w.opc = 0x147) : Sound w (Dec.atm w 7) := by
  apply Sound.formR ho
  intro h t hn d sa sb sc sd i hi
  simp [-BitVec.toFin_extractLsb'] at hi
  obtain ⟨rfl, rfl, ⟨_, row⟩, low, d, op, a, rfl, b, rfl, c, rfl, rfl⟩ := hi
  obtain ⟨rfl, hd⟩ := Dec.dst_valPush row op
  exact ⟨hd, encode_eq rfl (by rw [Enc.atm_zero low]; rfl)⟩

theorem cpy_sound (ho : w.opc = 0x160) : Sound w (Dec.cpyG w 0) := by
  apply Sound.formR ho
  intro h t hn d sa sb sc sd i hi
  simp at hi
  obtain ⟨rfl, rfl, rfl, low, hi⟩ := hi
  split at hi <;> simp at hi
  all_goals
    obtain ⟨a, rfl, b, rfl, rfl⟩ := hi
    exact ⟨rfl, encode_eq rfl (by rw [Hint.code_ofCode, Enc.cpy_bits low ‹_›]; rfl)⟩

theorem cpyb_sound (ho : w.opc = 0x161) : Sound w (Dec.cpyG w 1) := by
  apply Sound.formR ho
  intro h t hn d sa sb sc sd i hi
  simp at hi
  obtain ⟨rfl, rfl, rfl, a, rfl, b, rfl, c, rfl, e, rfl, rfl⟩ := hi
  exact ⟨rfl, rfl⟩

theorem cploop_sound (ho : w.opc = 0x162) : Sound w (Dec.cpyG w 2) := by
  apply Sound.formR ho
  intro h t hn d sa sb sc sd i hi
  simp at hi
  obtain ⟨rfl, rfl, rfl, a, rfl, b, rfl, c, rfl, e, rfl, rfl⟩ := hi
  exact ⟨rfl, rfl⟩

theorem cpstat_sound (ho : w.opc = 0x163) : Sound w (Dec.cpyG w 3) := by
  apply Sound.formRI ho
  · intro h t hn d sa sb sc sd i hi
    simp at hi
    obtain ⟨rfl, hn1, ⟨_, row⟩, rfl, rfl, rfl, d, op, a, rfl, rfl⟩ := hi
    obtain ⟨rfl, hd⟩ := Dec.dst_isVal row op
    exact ⟨and_ok hd rfl, encode_eq rfl (by rw [Enc.b1_bit hn1]; rfl)⟩
  · intro h t hn d sa v i hi
    simp at hi
    obtain ⟨rfl, hn1, ⟨_, row⟩, rfl, hv, d, op, rfl⟩ := hi
    obtain ⟨rfl, hd⟩ := Dec.dst_isVal row op
    exact ⟨and_ok hd (by simpa using hv), encode_eq rfl (by rw [Enc.b1_bit hn1]; rfl)⟩

theorem gmap_sound (ho : w.opc = 0x164) : Sound w (Dec.cpyG w 4) := by
  apply Sound.formR ho
  intro h t hn d sa sb sc sd i hi
  simp at hi
  obtain ⟨rfl, rfl, rfl, rfl, a, rfl, b, rfl, c, rfl, rfl⟩ := hi
  exact ⟨rfl, rfl⟩

theorem ringcfg_sound (ho : w.opc = 0x168) : Sound w (Dec.cpyG w 8) := by
  apply Sound.formRI ho
  · intro h t hn d sa sb sc sd i hi
    obtain rfl | rfl | rfl | rfl := Enc.hn_cases hn
    case inr.inr.inl | inr.inr.inr => simp at hi
    all_goals
      simp at hi
      obtain ⟨rfl, rfl, rfl, rfl, rfl, a, rfl, rfl⟩ := hi
      exact ⟨rfl, rfl⟩
  · intro h t hn d sa v i hi
    obtain rfl | rfl | rfl | rfl := Enc.hn_cases hn
    case inr.inr.inl | inr.inr.inr => simp at hi
    all_goals
      simp at hi
      obtain ⟨rfl, rfl, rfl, rfl⟩ := hi
      exact ⟨rfl, rfl⟩

theorem stbind_sound (ho : w.opc = 0x16A) : Sound w (Dec.cpyG w 10) := by
  apply only1I_sound (ok := fun v => v &&& 0x7EF0#16 == 0#16) (mk := .stbind) ho
  · exact fun _ _ => rfl
  · intro h v hv
    exact hv
  · exact fun _ a => by cases a <;> rfl

theorem mwld_sound (ho : w.opc = 0x180) : Sound w (Dec.mtxG w 0) := by
  apply Sound.formR ho
  intro h t hn d sa sb sc sd i hi
  simp [-BitVec.toFin_extractLsb'] at hi
  obtain ⟨ht, hn1, rfl, rfl, rfl, high, width, a, ⟨rfl, ha⟩, rfl⟩ := hi
  exact ⟨and_ok (and_ok ha ht) (beq_iff_eq.2 width), encode_eq rfl (by rw [Enc.b1_bit hn1, Enc.f7_low3 high]; rfl)⟩

theorem mloop_sound (ho : w.opc = 0x182) : Sound w (Dec.mtxG w 2) := by
  apply Sound.formR ho
  intro h t hn d sa sb sc sd i hi
  obtain rfl | rfl | rfl | rfl := Enc.hn_cases hn
  case inl =>
    simp at hi
    obtain ⟨ht, rfl, a, ⟨rfl, ha⟩, b, ⟨rfl, hb⟩, c, ⟨rfl, hc⟩, e, ⟨rfl, he⟩, rfl⟩ := hi
    exact ⟨and_ok (and_ok (and_ok (and_ok ht ha) hb) hc) he, rfl⟩
  case inr.inr.inr => simp at hi
  all_goals
    simp at hi
    obtain ⟨rfl, rfl, rfl, rfl, rfl, rfl, rfl⟩ := hi
    exact ⟨rfl, rfl⟩

theorem maccld_sound (ho : w.opc = 0x183) : Sound w (Dec.mtxG w 3) := by
  apply Sound.formR ho
  intro h t hn d sa sb sc sd i hi
  simp at hi
  obtain ⟨rfl, rfl, rfl, rfl, rfl, a, ⟨rfl, ha⟩, b, ⟨rfl, hb⟩, rfl⟩ := hi
  exact ⟨and_ok ha hb, rfl⟩

theorem maccst_sound (ho : w.opc = 0x184) : Sound w (Dec.mtxG w 4) := by
  apply Sound.formR ho
  intro h t hn d sa sb sc sd i hi
  simp at hi
  obtain ⟨rfl, rfl, rfl, rfl, rfl, a, ⟨rfl, ha⟩, b, ⟨rfl, hb⟩, rfl⟩ := hi
  exact ⟨and_ok ha hb, rfl⟩

theorem mdrain_sound (ho : w.opc = 0x185) : Sound w (Dec.mtxG w 5) := by
  apply Sound.formR ho
  intro h t hn d sa sb sc sd i hi
  simp at hi
  obtain ⟨rfl, rfl, rfl, rfl, a, ⟨rfl, ha⟩, b, ⟨rfl, hb⟩, c, ⟨rfl, hc⟩, rfl⟩ := hi
  exact ⟨and_ok (and_ok ha hb) hc, rfl⟩

theorem mepi_sound (ho : w.opc = 0x186) : Sound w (Dec.mtxG w 6) := by
  apply Sound.formR ho
  intro h t hn d sa sb sc sd i hi
  simp at hi
  obtain ⟨rfl, rfl, rfl, rfl, a, ⟨rfl, ha⟩, b, ⟨rfl, hb⟩, c, ⟨rfl, hc⟩, rfl⟩ := hi
  exact ⟨and_ok (and_ok ha hb) hc, rfl⟩

theorem mstat_sound (ho : w.opc = 0x189) : Sound w (Dec.mtxG w 9) := by
  apply Sound.formI ho
  intro h t hn d sa v i hi
  simp at hi
  obtain ⟨rfl, rfl, ⟨_, row⟩, rfl, hi⟩ := hi
  split_ifs at hi
  simp at hi
  obtain ⟨d, op, rfl⟩ := hi
  obtain ⟨rfl, hd⟩ := Dec.dst_isVal row op
  exact ⟨hd, encode_eq rfl (by rw [Enc.ofNat16_toNat]; rfl)⟩

theorem tdepadd_sound (ho : w.opc = 0x1A5) : Sound w (Dec.tsk w 5) := by
  apply Sound.formR ho
  intro h t hn d sa sb sc sd i hi
  simp at hi
  obtain ⟨rfl, rfl, ⟨_, row⟩, rfl, rfl, d, op, a, rfl, b, rfl, rfl⟩ := hi
  obtain ⟨rfl, hd⟩ := Dec.dst_valNul row op
  exact ⟨hd, rfl⟩

theorem tsignal_sound (ho : w.opc = 0x1A6) : Sound w (Dec.tsk w 6) := by
  apply Sound.formR ho
  intro h t hn d sa sb sc sd i hi
  simp at hi
  obtain ⟨rfl, rfl, rfl, rfl, a, rfl, b, rfl, c, rfl, rfl⟩ := hi
  exact ⟨rfl, rfl⟩

theorem tself_sound (ho : w.opc = 0x1A7) : Sound w (Dec.tsk w 7) := by
  apply Sound.formI ho
  intro h t hn d sa v i hi
  simp at hi
  obtain ⟨rfl, rfl, ⟨_, row⟩, rfl, hi⟩ := hi
  split_ifs at hi
  simp at hi
  obtain ⟨d, op, rfl⟩ := hi
  obtain ⟨rfl, hd⟩ := Dec.dst_isVal row op
  exact ⟨hd, encode_eq rfl (by rw [Enc.ofNat16_toNat]; rfl)⟩

theorem cvswap_sound (ho : w.opc = 0x1A8) : Sound w (Dec.tsk w 8) := by
  apply Sound.formR ho
  intro h t hn d sa sb sc sd i hi
  simp at hi
  obtain ⟨rfl, rfl, ⟨_, row⟩, rfl, rfl, d, op, a, rfl, b, rfl, rfl⟩ := hi
  obtain ⟨rfl, hd⟩ := Dec.dst_isVal row op
  exact ⟨hd, rfl⟩

theorem lstart_sound (ho : w.opc = 0x1A9) : Sound w (Dec.tsk w 9) := by
  apply Sound.formR ho
  intro h t hn d sa sb sc sd i hi
  simp at hi
  obtain ⟨rfl, rfl, rfl, rfl, rfl, a, rfl, b, rfl, rfl⟩ := hi
  exact ⟨rfl, rfl⟩

theorem lesc_sound (ho : w.opc = 0x1AA) : Sound w (Dec.tsk w 10) := by
  apply Sound.formR ho
  intro h t hn d sa sb sc sd i hi
  simp at hi
  obtain ⟨rfl, rfl, rfl, rfl, rfl, hi⟩ := hi
  split_ifs at hi with nul
  · simp at hi
    obtain ⟨a, rfl, rfl⟩ := hi
    exact ⟨rfl, by rw [nul]; rfl⟩
  · simp at hi
    obtain ⟨n, rfl, a, rfl, rfl⟩ := hi
    exact ⟨rfl, rfl⟩

theorem lframe_sound (ho : w.opc = 0x1AC) : Sound w (Dec.tsk w 12) := by
  apply Sound.formI ho
  intro h t hn d sa v i hi
  simp at hi
  obtain ⟨rfl, rfl, ⟨_, row⟩, rfl, hi⟩ := hi
  split_ifs at hi
  simp at hi
  obtain ⟨d, op, rfl⟩ := hi
  obtain ⟨rfl, hd⟩ := Dec.dst_isVal row op
  exact ⟨hd, encode_eq rfl (by rw [Enc.ofNat16_toNat]; rfl)⟩

theorem lstat_sound (ho : w.opc = 0x1AD) : Sound w (Dec.tsk w 13) := by
  apply Sound.formI ho
  intro h t hn d sa v i hi
  simp at hi
  obtain ⟨rfl, rfl, ⟨_, row⟩, rfl, hi⟩ := hi
  split_ifs at hi
  simp at hi
  obtain ⟨d, op, rfl⟩ := hi
  obtain ⟨rfl, hd⟩ := Dec.dst_isVal row op
  exact ⟨hd, encode_eq rfl (by rw [Enc.ofNat16_toNat]; rfl)⟩

theorem trap_sound (ho : w.opc = 0x1C0) : Sound w (Dec.sys w 0) := by
  apply Sound.formI ho
  intro h t hn d sa v i hi
  simp at hi
  obtain ⟨rfl, rfl, rfl, rfl, rfl⟩ := hi
  exact ⟨rfl, rfl⟩

theorem sysrd_sound (ho : w.opc = 0x1C2) : Sound w (Dec.sys w 2) := by
  apply Sound.formRI ho
  · intro h t hn d sa sb sc sd i hi
    simp at hi
    obtain ⟨ht, rfl, ⟨_, row⟩, rfl, rfl, rfl, d, op, a, rfl, rfl⟩ := hi
    obtain ⟨rfl, hd⟩ := Dec.dst_isVal row op
    exact ⟨and_ok hd rfl, encode_eq rfl (by rw [ElemTy.of_inN ht]; rfl)⟩
  · intro h t hn d sa v i hi
    simp at hi
    obtain ⟨ht, rfl, ⟨_, row⟩, rfl, hv, d, op, rfl⟩ := hi
    obtain ⟨rfl, hd⟩ := Dec.dst_isVal row op
    exact ⟨and_ok hd (decide_eq_true hv), encode_eq rfl (by rw [ElemTy.of_inN ht]; rfl)⟩

theorem syswr_sound (ho : w.opc = 0x1C3) : Sound w (Dec.sys w 3) := by
  apply Sound.formRI ho
  · intro h t hn d sa sb sc sd i hi
    simp at hi
    obtain ⟨ht, rfl, rfl, rfl, rfl, a, rfl, b, rfl, rfl⟩ := hi
    exact ⟨rfl, encode_eq rfl (by rw [ElemTy.of_inN ht]; rfl)⟩
  · intro h t hn d sa v i hi
    simp at hi
    obtain ⟨ht, rfl, rfl, hv, a, rfl, rfl⟩ := hi
    exact ⟨decide_eq_true hv, encode_eq rfl (by rw [ElemTy.of_inN ht]; rfl)⟩

theorem icinv_sound (ho : w.opc = 0x1C4) : Sound w (Dec.sys w 4) := by
  apply Sound.formR ho
  intro h t hn d sa sb sc sd i hi
  obtain rfl | rfl | rfl | rfl := Enc.hn_cases hn
  case inl =>
    simp at hi
    obtain ⟨rfl, rfl, rfl, rfl, a, rfl, b, rfl, rfl⟩ := hi
    exact ⟨rfl, rfl⟩
  case inr.inl =>
    simp at hi
    obtain ⟨rfl, rfl, rfl, rfl, rfl, rfl, rfl⟩ := hi
    exact ⟨rfl, rfl⟩
  all_goals simp at hi

theorem ppoll_sound (ho : w.opc = 0x1C5) : Sound w (Dec.sys w 5) := by
  apply Sound.formR ho
  intro h t hn d sa sb sc sd i hi
  simp at hi
  obtain ⟨rfl, rfl, ⟨_, row⟩, rfl, rfl, rfl, rfl, d, op, rfl⟩ := hi
  obtain ⟨rfl, hd⟩ := Dec.dst_isVal row op
  exact ⟨hd, rfl⟩

theorem bkpt_sound (ho : w.opc = 0x1C6) : Sound w (Dec.sys w 6) := by
  apply Sound.formI ho
  intro h t hn d sa v i hi
  simp at hi
  obtain ⟨rfl, rfl, rfl, rfl, rfl⟩ := hi
  exact ⟨rfl, rfl⟩
end

/-- R75: the group and the function that an opcode names, and that it is assigned. -/
theorem opc_parts {w : Fields} {n : Nat} (g : Nat) (ho : w.opc = BitVec.ofNat 9 (32 * g + n)) (hg : g < 15) (hn : n < groupSize g) :
    opcAssigned w.opc = true ∧ w.opc.toNat / 32 = g ∧ w.opc.toNat % 32 = n := by
  have size : ∀ g : Fin 15, groupSize g ≤ 17 := by decide
  have hn' : n ≤ 16 := by have := size ⟨g, hg⟩; dsimp only at this; omega
  have code : w.opc.toNat = 32 * g + n := by rw [ho]; simp; omega
  have group : w.opc.toNat / 32 = g := by omega
  have fn : w.opc.toNat % 32 = n := by omega
  refine ⟨?_, group, fn⟩
  rw [opcAssigned, group, fn]
  exact decide_eq_true hn

/-! ## The groups of the opcode table (R75) -/

section
variable {w : Fields} {fn : Nat}

theorem ctl_sound (ho : w.opc = BitVec.ofNat 9 (0 + fn)) (hf : fn < 9) : Sound w (Dec.ctl w fn) :=
  match fn, hf with
  | 0, _ => bare_sound ho (fun _ => rfl) (fun _ => rfl)
  | 1, _ => bra_sound ho
  | 2, _ => only1_sound ho (fun _ _ => rfl) (fun _ _ => rfl)
  | 3, _ => call_sound ho
  | 4, _ => callx_sound ho
  | 5, _ => only1_sound ho (fun _ _ => rfl) (fun _ _ => rfl)
  | 6, _ => bare_sound ho (fun _ => rfl) (fun _ => rfl)
  | 7, _ => waitf_sound ho
  | 8, _ => nap_sound ho
  | k + 9, hf => absurd hf (by omega)

theorem int_sound (ho : w.opc = BitVec.ofNat 9 (32 + fn)) (hf : fn < 17) : Sound w (Dec.int w fn) :=
  match fn, hf with
  | 0, _ => rI2_sound ho (fun _ _ _ _ _ => id) (fun _ _ _ _ _ => rfl)
  | 1, _ => rI2_sound ho (fun _ _ _ _ _ => id) (fun _ _ _ _ _ => rfl)
  | 2, _ => rI2_sound ho (fun _ _ _ _ _ => id) (fun _ _ _ _ _ => rfl)
  | 3, _ => rI2_sound ho (fun _ _ _ _ _ => id) (fun _ _ _ _ _ => rfl)
  | 4, _ => r3_sound ho (fun _ _ _ _ _ _ => id) (fun _ _ _ _ _ _ _ => rfl)
  | 5, _ => r3_sound ho (fun _ _ _ _ _ _ => id) (fun _ _ _ _ _ _ _ => rfl)
  | 6, _ => carry_sound ho (fun _ _ _ _ _ _ _ => id) (fun _ _ _ _ _ _ _ => rfl)
  | 7, _ => carry_sound ho (fun _ _ _ _ _ _ _ => id) (fun _ _ _ _ _ _ _ => rfl)
  | 8, _ => rI2_sound ho (fun _ _ _ _ _ => id) (fun _ _ _ _ _ => rfl)
  | 9, _ => rI2_sound ho (fun _ _ _ _ _ => id) (fun _ _ _ _ _ => rfl)
  | 10, _ => r1_sound ho (fun _ _ _ _ => id) (fun _ _ _ _ => rfl)
  | 11, _ => r1_sound ho (fun _ _ _ _ => id) (fun _ _ _ _ => rfl)
  | 12, _ => r3_sound ho (fun _ _ _ _ _ _ => id) (fun _ _ _ _ _ _ _ => rfl)
  | 13, _ => idot_sound ho (fun _ _ _ _ _ _ _ => id) (fun _ _ _ _ _ _ _ => rfl)
  | 14, _ => idot_sound ho (fun _ _ _ _ _ _ _ => id) (fun _ _ _ _ _ _ _ => rfl)
  | 15, _ => lea_sound ho
  | 16, _ => r3_sound ho (fun _ _ _ _ _ _ => id) (fun _ _ _ _ _ _ _ => rfl)
  | k + 17, hf => absurd hf (by omega)

theorem bit_sound (ho : w.opc = BitVec.ofNat 9 (64 + fn)) (hf : fn < 16) : Sound w (Dec.bit w fn) :=
  match fn, hf with
  | 0, _ => rI2_sound ho (fun _ _ _ _ _ => id) (fun _ _ _ _ _ => rfl)
  | 1, _ => rI2_sound ho (fun _ _ _ _ _ => id) (fun _ _ _ _ _ => rfl)
  | 2, _ => rI2_sound ho (fun _ _ _ _ _ => id) (fun _ _ _ _ _ => rfl)
  | 3, _ => lop3_sound ho
  | 4, _ => rI2_sound ho (fun _ _ _ _ _ => id) (fun _ _ _ _ _ => rfl)
  | 5, _ => rI2_sound ho (fun _ _ _ _ _ => id) (fun _ _ _ _ _ => rfl)
  | 6, _ => rI2_sound ho (fun _ _ _ _ _ => id) (fun _ _ _ _ _ => rfl)
  | 7, _ => rI2_sound ho (fun _ _ _ _ _ => id) (fun _ _ _ _ _ => rfl)
  | 8, _ => fshf_sound ho
  | 9, _ => r1_sound ho (fun _ _ _ _ => id) (fun _ _ _ _ => rfl)
  | 10, _ => r1_sound ho (fun _ _ _ _ => id) (fun _ _ _ _ => rfl)
  | 11, _ => r1_sound ho (fun _ _ _ _ => id) (fun _ _ _ _ => rfl)
  | 12, _ => r1_sound ho (fun _ _ _ _ => id) (fun _ _ _ _ => rfl)
  | 13, _ => rI2_sound ho (fun _ _ _ _ _ => id) (fun _ _ _ _ _ => rfl)
  | 14, _ => r3_sound ho (fun _ _ _ _ _ _ => id) (fun _ _ _ _ _ _ _ => rfl)
  | 15, _ => perm_sound ho
  | k + 16, hf => absurd hf (by omega)

theorem prd_sound (ho : w.opc = BitVec.ofNat 9 (96 + fn)) (hf : fn < 6) : Sound w (Dec.prd w fn) :=
  match fn, hf with
  | 0, _ => isetp_sound ho
  | 1, _ => fsetp_sound ho
  | 2, _ => plop_sound ho
  | 3, _ => sel_sound ho
  | 4, _ => p2v_sound ho
  | 5, _ => v2p_sound ho
  | k + 6, hf => absurd hf (by omega)

theorem flt_sound (ho : w.opc = BitVec.ofNat 9 (128 + fn)) (hf : fn < 10) : Sound w (Dec.flt w fn) :=
  match fn, hf with
  | 0, _ => f2_sound ho (fun _ _ _ _ _ _ => id) (fun _ _ _ _ _ _ => rfl)
  | 1, _ => f2_sound ho (fun _ _ _ _ _ _ => id) (fun _ _ _ _ _ _ => rfl)
  | 2, _ => f2_sound ho (fun _ _ _ _ _ _ => id) (fun _ _ _ _ _ _ => rfl)
  | 3, _ => ffma_sound ho
  | 4, _ => fmm_sound ho (fun _ _ _ _ _ _ => id) (fun _ _ _ _ _ _ => rfl)
  | 5, _ => fmm_sound ho (fun _ _ _ _ _ _ => id) (fun _ _ _ _ _ _ => rfl)
  | 6, _ => frnd_sound ho
  | 7, _ => fscale_sound ho
  | 8, _ => r1_sound ho (fun _ _ _ _ => id) (fun _ _ _ _ => rfl)
  | 9, _ => fdot2_sound ho
  | k + 10, hf => absurd hf (by omega)

theorem cvtG_sound (ho : w.opc = BitVec.ofNat 9 (160 + fn)) (hf : fn < 6) : Sound w (Dec.cvtG w fn) :=
  match fn, hf with
  | 0, _ => cvt_sound ho
  | 1, _ => cvtpk_sound ho
  | 2, _ => cvt8pk_sound ho
  | 3, _ => cvtupk_sound ho
  | 4, _ => qblk_sound ho
  | 5, _ => dqblk_sound ho
  | k + 6, hf => absurd hf (by omega)

theorem sfuG_sound (ho : w.opc = BitVec.ofNat 9 (192 + fn)) (hf : fn < 10) : Sound w (Dec.sfuG w fn) :=
  match fn, hf with
  | 0, _ => sfu_sound ho (fun _ _ _ => id) (fun _ _ _ => rfl)
  | 1, _ => sfu_sound ho (fun _ _ _ => id) (fun _ _ _ => rfl)
  | 2, _ => sfu_sound ho (fun _ _ _ => id) (fun _ _ _ => rfl)
  | 3, _ => sfu_sound ho (fun _ _ _ => id) (fun _ _ _ => rfl)
  | 4, _ => sfu_sound ho (fun _ _ _ => id) (fun _ _ _ => rfl)
  | 5, _ => sfu_sound ho (fun _ _ _ => id) (fun _ _ _ => rfl)
  | 6, _ => sfu_sound ho (fun _ _ _ => id) (fun _ _ _ => rfl)
  | 7, _ => sfu_sound ho (fun _ _ _ => id) (fun _ _ _ => rfl)
  | 8, _ => rnd_sound ho
  | 9, _ => rndf_sound ho
  | k + 10, hf => absurd hf (by omega)

theorem xln_sound (ho : w.opc = BitVec.ofNat 9 (224 + fn)) (hf : fn < 9) : Sound w (Dec.xln w fn) :=
  match fn, hf with
  | 0, _ => xshf_sound ho
  | 1, _ => xmove_sound ho (fun _ _ _ _ _ => id) (fun _ _ _ _ _ => rfl)
  | 2, _ => xmove_sound ho (fun _ _ _ _ _ => id) (fun _ _ _ _ _ => rfl)
  | 3, _ => redx_sound ho
  | 4, _ => scanx_sound ho
  | 5, _ => vote_sound ho
  | 6, _ => xmatch_sound ho
  | 7, _ => elect_sound ho
  | 8, _ => xcount_sound ho
  | k + 9, hf => absurd hf (by omega)

theorem cel_sound (ho : w.opc = BitVec.ofNat 9 (256 + fn)) (hf : fn < 7) : Sound w (Dec.cel w fn) :=
  match fn, hf with
  | 0, _ => mov_sound ho
  | 1, _ => drop_sound ho
  | 2, _ => keep_sound ho
  | 3, _ => free_sound ho
  | 4, _ => pair_sound ho
  | 5, _ => split_sound ho
  | 6, _ => cellq_sound ho
  | k + 7, hf => absurd hf (by omega)

theorem mem_sound (ho : w.opc = BitVec.ofNat 9 (288 + fn)) (hf : fn < 8) : Sound w (Dec.mem w fn) :=
  match fn, hf with
  | 0, _ => ld_sound ho
  | 1, _ => st_sound ho
  | 2, _ => lds_sound ho
  | 3, _ => sts_sound ho
  | 4, _ => ldp_sound ho
  | 5, _ => ldv_sound ho
  | 6, _ => stv_sound ho
  | 7, _ => pfl_sound ho
  | k + 8, hf => absurd hf (by omega)

theorem atm_sound (ho : w.opc = BitVec.ofNat 9 (320 + fn)) (hf : fn < 8) : Sound w (Dec.atm w fn) :=
  match fn, hf with
  | 0, _ => atom_sound ho
  | 1, _ => ared_sound ho
  | 2, _ => acas_sound ho
  | 3, _ => await_sound ho
  | 4, _ => fence_sound ho
  | 5, _ => cntdec_sound ho
  | 6, _ => bararv_sound ho
  | 7, _ => barwt_sound ho
  | k + 8, hf => absurd hf (by omega)

theorem cpyG_sound (ho : w.opc = BitVec.ofNat 9 (352 + fn)) (hf : fn < 11) : Sound w (Dec.cpyG w fn) :=
  match fn, hf with
  | 0, _ => cpy_sound ho
  | 1, _ => cpyb_sound ho
  | 2, _ => cploop_sound ho
  | 3, _ => cpstat_sound ho
  | 4, _ => gmap_sound ho
  | 5, _ => only1I_sound ho (fun _ _ => rfl) (fun _ _ => id) (fun _ a => by cases a <;> rfl)
  | 6, _ => only1I_sound ho (fun _ _ => rfl) (fun _ _ => id) (fun _ a => by cases a <;> rfl)
  | 7, _ => only1I_sound ho (fun _ _ => rfl) (fun _ _ => id) (fun _ a => by cases a <;> rfl)
  | 8, _ => ringcfg_sound ho
  | 9, _ => only1I_sound ho (fun _ _ => rfl) (fun _ _ => id) (fun _ a => by cases a <;> rfl)
  | 10, _ => stbind_sound ho
  | k + 11, hf => absurd hf (by omega)

theorem mtxG_sound (ho : w.opc = BitVec.ofNat 9 (384 + fn)) (hf : fn < 10) : Sound w (Dec.mtxG w fn) :=
  match fn, hf with
  | 0, _ => mwld_sound ho
  | 1, _ => mtx_sound ho (fun _ => rfl) (fun _ => rfl)
  | 2, _ => mloop_sound ho
  | 3, _ => maccld_sound ho
  | 4, _ => maccst_sound ho
  | 5, _ => mdrain_sound ho
  | 6, _ => mepi_sound ho
  | 7, _ => bare_sound ho (fun _ => rfl) (fun _ => rfl)
  | 8, _ => mtx_sound ho (fun _ => rfl) (fun _ => rfl)
  | 9, _ => mstat_sound ho
  | k + 10, hf => absurd hf (by omega)

theorem tsk_sound (ho : w.opc = BitVec.ofNat 9 (416 + fn)) (hf : fn < 14) : Sound w (Dec.tsk w fn) :=
  match fn, hf with
  | 0, _ => only1I_sound ho (fun _ _ => rfl) (fun _ _ => id) (fun _ a => by cases a <;> rfl)
  | 1, _ => only1I_sound ho (fun _ _ => rfl) (fun _ _ => id) (fun _ a => by cases a <;> rfl)
  | 2, _ => only1I_sound ho (fun _ _ => rfl) (fun _ _ => id) (fun _ a => by cases a <;> rfl)
  | 3, _ => bare_sound ho (fun _ => rfl) (fun _ => rfl)
  | 4, _ => only1_sound ho (fun _ _ => rfl) (fun _ _ => rfl)
  | 5, _ => tdepadd_sound ho
  | 6, _ => tsignal_sound ho
  | 7, _ => tself_sound ho
  | 8, _ => cvswap_sound ho
  | 9, _ => lstart_sound ho
  | 10, _ => lesc_sound ho
  | 11, _ => only1_sound ho (fun _ _ => rfl) (fun _ _ => rfl)
  | 12, _ => lframe_sound ho
  | 13, _ => lstat_sound ho
  | k + 14, hf => absurd hf (by omega)

theorem sys_sound (ho : w.opc = BitVec.ofNat 9 (448 + fn)) (hf : fn < 7) : Sound w (Dec.sys w fn) :=
  match fn, hf with
  | 0, _ => trap_sound ho
  | 1, _ => bare_sound ho (fun _ => rfl) (fun _ => rfl)
  | 2, _ => sysrd_sound ho
  | 3, _ => syswr_sound ho
  | 4, _ => icinv_sound ho
  | 5, _ => ppoll_sound ho
  | 6, _ => bkpt_sound ho
  | k + 7, hf => absurd hf (by omega)

end

theorem ctl_fields (fn : Nat) (hf : fn < 9) (w : Fields) (ho : w.opc = BitVec.ofNat 9 (0 + fn)) : Dec.fields w = Dec.ctl w fn := by
  obtain ⟨assigned, group, code⟩ := opc_parts (0) ho (by decide) hf
  exact fields_ctl w fn assigned group code

theorem int_fields (fn : Nat) (hf : fn < 17) (w : Fields) (ho : w.opc = BitVec.ofNat 9 (32 + fn)) : Dec.fields w = Dec.int w fn := by
  obtain ⟨assigned, group, code⟩ := opc_parts (1) ho (by decide) hf
  exact fields_int w fn assigned group code

theorem bit_fields (fn : Nat) (hf : fn < 16) (w : Fields) (ho : w.opc = BitVec.ofNat 9 (64 + fn)) : Dec.fields w = Dec.bit w fn := by
  obtain ⟨assigned, group, code⟩ := opc_parts (2) ho (by decide) hf
  exact fields_bit w fn assigned group code

theorem prd_fields (fn : Nat) (hf : fn < 6) (w : Fields) (ho : w.opc = BitVec.ofNat 9 (96 + fn)) : Dec.fields w = Dec.prd w fn := by
  obtain ⟨assigned, group, code⟩ := opc_parts (3) ho (by decide) hf
  exact fields_prd w fn assigned group code

theorem flt_fields (fn : Nat) (hf : fn < 10) (w : Fields) (ho : w.opc = BitVec.ofNat 9 (128 + fn)) : Dec.fields w = Dec.flt w fn := by
  obtain ⟨assigned, group, code⟩ := opc_parts (4) ho (by decide) hf
  exact fields_flt w fn assigned group code

theorem cvtG_fields (fn : Nat) (hf : fn < 6) (w : Fields) (ho : w.opc = BitVec.ofNat 9 (160 + fn)) : Dec.fields w = Dec.cvtG w fn := by
  obtain ⟨assigned, group, code⟩ := opc_parts (5) ho (by decide) hf
  exact fields_cvtG w fn assigned group code

theorem sfuG_fields (fn : Nat) (hf : fn < 10) (w : Fields) (ho : w.opc = BitVec.ofNat 9 (192 + fn)) : Dec.fields w = Dec.sfuG w fn := by
  obtain ⟨assigned, group, code⟩ := opc_parts (6) ho (by decide) hf
  exact fields_sfuG w fn assigned group code

theorem xln_fields (fn : Nat) (hf : fn < 9) (w : Fields) (ho : w.opc = BitVec.ofNat 9 (224 + fn)) : Dec.fields w = Dec.xln w fn := by
  obtain ⟨assigned, group, code⟩ := opc_parts (7) ho (by decide) hf
  exact fields_xln w fn assigned group code

theorem cel_fields (fn : Nat) (hf : fn < 7) (w : Fields) (ho : w.opc = BitVec.ofNat 9 (256 + fn)) : Dec.fields w = Dec.cel w fn := by
  obtain ⟨assigned, group, code⟩ := opc_parts (8) ho (by decide) hf
  exact fields_cel w fn assigned group code

theorem mem_fields (fn : Nat) (hf : fn < 8) (w : Fields) (ho : w.opc = BitVec.ofNat 9 (288 + fn)) : Dec.fields w = Dec.mem w fn := by
  obtain ⟨assigned, group, code⟩ := opc_parts (9) ho (by decide) hf
  exact fields_mem w fn assigned group code

theorem atm_fields (fn : Nat) (hf : fn < 8) (w : Fields) (ho : w.opc = BitVec.ofNat 9 (320 + fn)) : Dec.fields w = Dec.atm w fn := by
  obtain ⟨assigned, group, code⟩ := opc_parts (10) ho (by decide) hf
  exact fields_atm w fn assigned group code

theorem cpyG_fields (fn : Nat) (hf : fn < 11) (w : Fields) (ho : w.opc = BitVec.ofNat 9 (352 + fn)) : Dec.fields w = Dec.cpyG w fn := by
  obtain ⟨assigned, group, code⟩ := opc_parts (11) ho (by decide) hf
  exact fields_cpyG w fn assigned group code

theorem mtxG_fields (fn : Nat) (hf : fn < 10) (w : Fields) (ho : w.opc = BitVec.ofNat 9 (384 + fn)) : Dec.fields w = Dec.mtxG w fn := by
  obtain ⟨assigned, group, code⟩ := opc_parts (12) ho (by decide) hf
  exact fields_mtxG w fn assigned group code

theorem tsk_fields (fn : Nat) (hf : fn < 14) (w : Fields) (ho : w.opc = BitVec.ofNat 9 (416 + fn)) : Dec.fields w = Dec.tsk w fn := by
  obtain ⟨assigned, group, code⟩ := opc_parts (13) ho (by decide) hf
  exact fields_tsk w fn assigned group code

theorem sys_fields (fn : Nat) (hf : fn < 7) (w : Fields) (ho : w.opc = BitVec.ofNat 9 (448 + fn)) : Dec.fields w = Dec.sys w fn := by
  obtain ⟨assigned, group, code⟩ := opc_parts (14) ho (by decide) hf
  exact fields_sys w fn assigned group code

/-- R75: an assigned opcode is one of the functions of a group. -/
theorem opc_of_assigned {w : Fields} (ha : opcAssigned w.opc = true) :
    ∃ g n, g < 15 ∧ n < groupSize g ∧ w.opc = BitVec.ofNat 9 (32 * g + n) := by
  have hn : w.opc.toNat % 32 < groupSize (w.opc.toNat / 32) := of_decide_eq_true ha
  have bound : w.opc.toNat < 512 := w.opc.isLt
  refine ⟨w.opc.toNat / 32, w.opc.toNat % 32, ?_, hn, ?_⟩
  · by_contra top
    rw [show w.opc.toNat / 32 = 15 by omega] at hn
    exact absurd hn (Nat.not_lt_zero _)
  · rw [Nat.div_add_mod, BitVec.ofNat_toNat, BitVec.setWidth_eq]

/-- R63: the decoder accepts only the encodings of well-formed instructions. -/
theorem fields_sound (w : Fields) : Sound w (Dec.fields w) := by
  cases ha : opcAssigned w.opc with
  | false =>
    intro i hi
    simp [Dec.fields, ha] at hi
  | true =>
    obtain ⟨g, n, hg, hn, ho⟩ := opc_of_assigned ha
    match g, hg with
    | 0, _ => exact ctl_fields n hn w ho ▸ ctl_sound ho hn
    | 1, _ => exact int_fields n hn w ho ▸ int_sound ho hn
    | 2, _ => exact bit_fields n hn w ho ▸ bit_sound ho hn
    | 3, _ => exact prd_fields n hn w ho ▸ prd_sound ho hn
    | 4, _ => exact flt_fields n hn w ho ▸ flt_sound ho hn
    | 5, _ => exact cvtG_fields n hn w ho ▸ cvtG_sound ho hn
    | 6, _ => exact sfuG_fields n hn w ho ▸ sfuG_sound ho hn
    | 7, _ => exact xln_fields n hn w ho ▸ xln_sound ho hn
    | 8, _ => exact cel_fields n hn w ho ▸ cel_sound ho hn
    | 9, _ => exact mem_fields n hn w ho ▸ mem_sound ho hn
    | 10, _ => exact atm_fields n hn w ho ▸ atm_sound ho hn
    | 11, _ => exact cpyG_fields n hn w ho ▸ cpyG_sound ho hn
    | 12, _ => exact mtxG_fields n hn w ho ▸ mtxG_sound ho hn
    | 13, _ => exact tsk_fields n hn w ho ▸ tsk_sound ho hn
    | 14, _ => exact sys_fields n hn w ho ▸ sys_sound ho hn
    | k + 15, h => exact absurd h (by omega)

/-- Settles O48: the decoder reads a word by its fields (`Fields.unpack`), accepts only the fields of the encoding of a well-formed instruction (`fields_sound`, by the groups of the opcode table), and no bit of a word is outside its fields (`Fields.pack_unpack`). -/
theorem decodeEncode : Obligations.DecodeEncode := by
  intro x i hi
  obtain ⟨wf, enc⟩ := fields_sound (Fields.unpack x) i hi
  exact ⟨wf, by rw [enc, Fields.pack_unpack]⟩

/-! ## Every encoding is read back (R61 to R65) -/

namespace Enc
@[simp] theorem nulF_eq_nul : nulF = 127#7 ↔ True := iff_true_intro rfl
@[simp] theorem b1_hi_bit (b : Bool) : (b1 b)[1] = false := b1_hi b
@[simp] theorem b1_lo_bit (b : Bool) : (b1 b)[0] = b := b1_lo b
@[simp] theorem b2_hi_bit (a b : Bool) : (b2 a b)[1] = a := b2_hi a b
@[simp] theorem b2_lo_bit (a b : Bool) : (b2 a b)[0] = b := b2_lo a b
@[simp] theorem pr_inj {p q : Pred} : pr p = pr q ↔ p = q := by rw [← Dec.predRow_eq_ok, predRow_pr, Except.ok.injEq]
@[simp] theorem f7_name_inj {n m : VName} : f7 n.val = f7 m.val ↔ n = m := by rw [← Dec.nameRow_eq_ok, nameRow_f7, Except.ok.injEq]
@[simp] theorem name_inj {n m : VName} {k l : BitVec 4} : name n k = name m l ↔ n = m ∧ k = l := by rw [name, name, Prod.mk.injEq, ← f7_name_inj]; rfl
end Enc

namespace Dec
section
variable {opc : BitVec 9} {f : Bool} {h : Hd} {t : ElemTy} {hn : BitVec 2} {d : Dst} {sa : BitVec 7} {low : BitVec 21}

@[simp] theorem dstRow_word (hd : d.wf = true) : dstRow (.word opc f h t hn (Enc.dst d) sa low) = .ok () := dstRow_dst _ _ _ _ _ _ _ _ _ d hd
@[simp] theorem dstRowVN_word (hd : d.valNul = true) : dstRowVN (.word opc f h t hn (Enc.dst d) sa low) = .ok () := dstRowVN_dst _ _ _ _ _ _ _ _ _ d hd
@[simp] theorem dstRowVQ_word (hd : d.valPush = true) : dstRowVQ (.word opc f h t hn (Enc.dst d) sa low) = .ok () := dstRowVQ_dst _ _ _ _ _ _ _ _ _ d hd
@[simp] theorem dstRowV_word (hd : d.isVal = true) : dstRowV (.word opc f h t hn (Enc.dst d) sa low) = .ok () := dstRowV_dst _ _ _ _ _ _ _ _ _ d hd
end
end Dec

section
variable {opc : BitVec 9} {h : Hd} {t : ElemTy} {hn : BitVec 2} {d : BitVec 7 × BitVec 4} {sa sb sc sd : BitVec 7} {v : BitVec 16} {i : Instr}
  {m : Unit → Except DecodeError Instr}

/-! A word of the register or the immediate form passes the check of its form, and is read by the checks that follow. -/

theorem decode_reg (hm : Dec.fields (.word opc false h t hn d sa (sb ++ sc ++ sd)) = Dec.formR (.word opc false h t hn d sa (sb ++ sc ++ sd)) >>= m) (ok : m () = .ok i) :
    decode (Enc.rf opc h t hn d sa sb sc sd) = .ok i :=
  (decode_rf ..).trans (hm.trans ok)

theorem decode_imm (hm : Dec.fields (.word opc true h t hn d sa (0#5 ++ v)) = Dec.formI (.word opc true h t hn d sa (0#5 ++ v)) >>= m) (ok : m () = .ok i) :
    decode (Enc.im opc h t hn d sa v) = .ok i := by
  have form : Dec.formI (.word opc true h t hn d sa (0#5 ++ v)) = .ok () := by simp
  exact (decode_im ..).trans (hm.trans (by rw [form]; exact ok))

theorem decode_either_reg (hm : Dec.fields (.word opc false h t hn d sa (sb ++ sc ++ sd)) = Dec.formRI (.word opc false h t hn d sa (sb ++ sc ++ sd)) >>= m) (ok : m () = .ok i) :
    decode (Enc.rf opc h t hn d sa sb sc sd) = .ok i :=
  (decode_rf ..).trans (hm.trans ok)

theorem decode_either_imm (hm : Dec.fields (.word opc true h t hn d sa (0#5 ++ v)) = Dec.formRI (.word opc true h t hn d sa (0#5 ++ v)) >>= m) (ok : m () = .ok i) :
    decode (Enc.im opc h t hn d sa v) = .ok i := by
  have form : Dec.formRI (.word opc true h t hn d sa (0#5 ++ v)) = .ok () := by simp
  exact (decode_im ..).trans (hm.trans (by rw [form]; exact ok))
end

section
variable {opc : BitVec 9} {h : Hd} {t : ElemTy} {d : Dst} {a b c : Src} {k : SrcI} {p : ElemTy → Bool}

theorem decode_rI2 {mk : Hd → ElemTy → Dst → Src → SrcI → Instr} (hg : ∀ w : Fields, w.opc = opc → Dec.fields w = Dec.rI2 w p mk)
    (hw : (p t && d.wf && k.wf t) = true) : decode (Enc.rIm opc h t 0 (Enc.dst d) a k) = .ok (mk h t d a k) := by
  simp only [Bool.and_eq_true] at hw
  obtain ⟨⟨ht, hd⟩, hk⟩ := hw
  cases k with
  | reg b => exact decode_either_reg (hg _ rfl) (by simp [ht, hd])
  | imm v => exact decode_either_imm (hg _ rfl) (by simp [ht, hd, show immOk t v = true from hk])

theorem decode_r1 {mk : Hd → ElemTy → Dst → Src → Instr} (hg : ∀ w : Fields, w.opc = opc → Dec.fields w = Dec.r1 w p mk)
    (hw : (p t && d.wf) = true) : decode (Enc.s1 opc h t 0 (Enc.dst d) a) = .ok (mk h t d a) := by
  simp only [Bool.and_eq_true] at hw
  exact decode_reg (hg _ rfl) (by simp [hw])

theorem decode_r3 {mk : Hd → ElemTy → Dst → Src → Src → Src → Instr} (hg : ∀ w : Fields, w.opc = opc → Dec.fields w = Dec.r3 w p mk)
    (hw : (p t && d.wf) = true) : decode (Enc.s3 opc h t 0 (Enc.dst d) a b c) = .ok (mk h t d a b c) := by
  simp only [Bool.and_eq_true] at hw
  exact decode_reg (hg _ rfl) (by simp [hw])

theorem decode_f2 {r : Rnd} {mk : Hd → ElemTy → Rnd → Dst → Src → SrcI → Instr} (hg : ∀ w : Fields, w.opc = opc → Dec.fields w = Dec.f2 w mk)
    (hw : (t.inFT && d.wf && k.wf t) = true) : decode (Enc.rIm opc h t r.code (Enc.dst d) a k) = .ok (mk h t r d a k) := by
  simp only [Bool.and_eq_true] at hw
  obtain ⟨⟨ht, hd⟩, _⟩ := hw
  cases k with
  | reg b => exact decode_either_reg (hg _ rfl) (by simp [ht, hd, Rnd.ofCode_code])
  | imm v => exact decode_either_imm (hg _ rfl) (by simp [ht, hd, Rnd.ofCode_code])

theorem decode_fmm {n : Bool} {mk : Hd → ElemTy → Bool → Dst → Src → SrcI → Instr} (hg : ∀ w : Fields, w.opc = opc → Dec.fields w = Dec.fmm w mk)
    (hw : (t.inFT && d.wf && k.wf t) = true) : decode (Enc.rIm opc h t (Enc.b1 n) (Enc.dst d) a k) = .ok (mk h t n d a k) := by
  simp only [Bool.and_eq_true] at hw
  obtain ⟨⟨ht, hd⟩, _⟩ := hw
  cases k with
  | reg b => exact decode_either_reg (hg _ rfl) (by simp [ht, hd])
  | imm v => exact decode_either_imm (hg _ rfl) (by simp [ht, hd])

theorem decode_sfu {mk : Hd → Dst → Src → Instr} (hg : ∀ w : Fields, w.opc = opc → Dec.fields w = Dec.sfu w mk) (hd : d.wf = true) :
    decode (Enc.s1 opc h .f32 0 (Enc.dst d) a) = .ok (mk h d a) :=
  decode_reg (hg _ rfl) (by simp [hd])

theorem decode_bare {mk : Hd → Instr} (hg : ∀ w : Fields, w.opc = opc → Dec.fields w = Dec.bare w t mk) : decode (Enc.s0 opc h t Enc.nd) = .ok (mk h) :=
  decode_reg (hg _ rfl) (by simp)

theorem decode_only1 {mk : Hd → Src → Instr} (hg : ∀ w : Fields, w.opc = opc → Dec.fields w = Dec.only1 w t mk) :
    decode (Enc.s1 opc h t 0 Enc.nd a) = .ok (mk h a) :=
  decode_reg (hg _ rfl) (by simp)

theorem decode_only1I {ok : BitVec 16 → Bool} {mk : Hd → SrcI → Instr} (hg : ∀ w : Fields, w.opc = opc → Dec.fields w = Dec.only1I w t ok mk)
    (hk : ∀ v, k = .imm v → ok v = true) : decode (Enc.sIm opc h t 0 Enc.nd k) = .ok (mk h k) := by
  cases k with
  | reg a => exact decode_either_reg (hg _ rfl) (by simp)
  | imm v => exact decode_either_imm (hg _ rfl) (by simp [hk v rfl])

theorem decode_mtx {mk : Hd → Instr} (hg : ∀ w : Fields, w.opc = opc → Dec.fields w = Dec.mtx w mk) :
    decode (Enc.s0 opc h .b32 (Enc.dst (.push .mxc))) = .ok (mk h) :=
  decode_reg (hg _ rfl) (by simp)

theorem decode_carry {ci : Pred} {co : PName} {mk : Hd → ElemTy → Dst → Src → Src → Pred → PName → Instr}
    (hg : ∀ w : Fields, w.opc = opc → Dec.fields w = Dec.carry w mk) (hw : (t.inN && d.wf) = true) :
    decode (Enc.rf opc h t 0 (Enc.dst d) a.code b.code (Enc.pr ci) (Enc.f7 co.val)) = .ok (mk h t d a b ci co) := by
  simp only [Bool.and_eq_true] at hw
  exact decode_reg (hg _ rfl) (by simp [hw, p7_high, p7_low, -BitVec.toFin_extractLsb'])

theorem decode_idot {x y : Bool} {mk : Hd → Bool → Bool → Dst → Src → Src → Src → Instr} (hg : ∀ w : Fields, w.opc = opc → Dec.fields w = Dec.idot w mk)
    (hd : d.wf = true) : decode (Enc.s3 opc h .s32 (Enc.b2 x y) (Enc.dst d) a b c) = .ok (mk h x y d a b c) :=
  decode_reg (hg _ rfl) (by simp [hd])

theorem decode_xmove {mk : Hd → ElemTy → Dst → Src → SrcI → Instr} (hg : ∀ w : Fields, w.opc = opc → Dec.fields w = Dec.xmove w mk)
    (hw : (t.notBfp && d.wf && a.noQueue && k.noQueue) = true) : decode (Enc.rIm opc h t 0 (Enc.dst d) a k) = .ok (mk h t d a k) := by
  simp only [Bool.and_eq_true] at hw
  obtain ⟨⟨⟨ht, hd⟩, ha⟩, hk⟩ := hw
  cases k with
  | reg b => exact decode_either_reg (hg _ rfl) (by simp [ht, hd, ha, show b.noQueue = true from hk])
  | imm v => exact decode_either_imm (hg _ rfl) (by simp [ht, hd, ha])
end

/-! ## The literals of an encoding, read back in the form that `simp` gives the checks -/

namespace Enc
@[simp] theorem name_rdc (n : VName) (k : BitVec 4) : (name n k).2 = k := rfl
@[simp] theorem name_dst_eq {n m : VName} {k : BitVec 4} : (name n k).1 = f7 m.val ↔ n = m := f7_name_inj
@[simp] theorem name_eq {n m : VName} {k l : BitVec 4} : ((name n k).1, k) = name m l ↔ n = m ∧ k = l := name_inj
@[simp] theorem f7_ne_nul (n : VName) : f7 n.val = 127#7 ↔ False := iff_false_intro (ne_of_beq_false (name_beq n))
@[simp] theorem lut_bits (l : BitVec 8) : BitVec.ofBool l[7] ++ l.extractLsb' 0 7 = l := lut_eq l
@[simp] theorem icmp_bits (c : ICmp) : (f7 (icmp c)).toNat % 8 = icmp c := by cases c <;> rfl
@[simp] theorem fcmp_bits (c : FCmp) : (f7 (fcmp c)).toNat % 16 = fcmp c := by cases c <;> rfl
@[simp] theorem redOp_bits (c : RedOp) : (f7 (redOp c)).toNat % 8 = redOp c := by cases c <;> rfl
@[simp] theorem redOp_bit3 (c : RedOp) : (f7 (redOp c))[3] = false := redop_3 c
@[simp] theorem scan_op (x : Bool) (c : RedOp) : (0#3 ++ BitVec.ofBool x ++ BitVec.ofNat 3 (redOp c)).toNat % 8 = redOp c := by cases x <;> cases c <;> rfl
@[simp] theorem scan_bit3 (x : Bool) (c : RedOp) : (0#3 ++ BitVec.ofBool x ++ BitVec.ofNat 3 (redOp c))[3] = x := scan_3 x c
@[simp] theorem bit_bit0 (x : Bool) : (0#6 ++ BitVec.ofBool x)[0] = x := bit_lo x
@[simp] theorem lea_bit3 (sx : Bool) (sh : Fin 8) : (0#3 ++ BitVec.ofBool sx ++ (BitVec.ofFin sh : BitVec 3))[3] = sx := lea_sx sx sh
@[simp] theorem cnt_bit6 (x : Bool) (k : BitVec 6) : (BitVec.ofBool x ++ k)[6] = x := by revert x k; decide
@[simp] theorem cnt_low6 (x : Bool) (k : BitVec 6) : (BitVec.ofBool x ++ k).extractLsb' 0 6 = k := by revert x k; decide
@[simp] theorem cnt_eq_zero (k : Fin 64) : (BitVec.ofFin k : BitVec 6) = 0#6 ↔ k = 0 := by revert k; decide
@[simp] theorem hint_code_eq (a : Hint) : a.code = 3#2 ↔ a = .counted := by cases a <;> decide
@[simp] theorem b2_self_eq (x : Bool) : (b2 x x == 3#2) = x := b2_is x
@[simp] theorem b2_self_zero (x : Bool) : b2 x x = 0#2 ↔ x = false := by cases x <;> decide
@[simp] theorem atomOp_lt (q : AtomOp) : atomOp q < 16 := by cases q <;> decide
@[simp] theorem awaitCond_lt (q : AwaitCond) : awaitCond q < 16 := by cases q <;> decide
@[simp] theorem cpy_low3 (z : CpySize) (x y : Bool) : (cpySize z ++ BitVec.ofBool x ++ BitVec.ofBool y ++ 0#3).extractLsb' 0 3 = 0#3 := eq_of_beq (cpy_low z x y)
@[simp] theorem cpy_high2 (z : CpySize) (x y : Bool) : (cpySize z ++ BitVec.ofBool x ++ BitVec.ofBool y ++ 0#3).toNat >>> 5 % 4 = (cpySize z).toNat := cpy_z z x y
@[simp] theorem cpy_bit4 (z : CpySize) (x y : Bool) : (cpySize z ++ BitVec.ofBool x ++ BitVec.ofBool y ++ 0#3)[4] = x := cpy_ss z x y
@[simp] theorem cpy_bit3 (z : CpySize) (x y : Bool) : (cpySize z ++ BitVec.ofBool x ++ BitVec.ofBool y ++ 0#3)[3] = y := cpy_ds z x y
@[simp] theorem wide_ty (x : Bool) : ((if x = true then ElemTy.n64 else ElemTy.n32) == ElemTy.n64) = x := by cases x <;> rfl
@[simp] theorem wide_inN (x : Bool) : (if x = true then ElemTy.n64 else ElemTy.n32).inN = true := by cases x <;> rfl
@[simp] theorem wide_match (x : Bool) : ((if x = true then ElemTy.n64 else ElemTy.b32) == ElemTy.n64) = x := by cases x <;> rfl
theorem cvt_bit6 {l : CvtLit} {m : Bool} (h : l.wfPk8 m = true) : (cvt l)[6] = false := cvt_6 l m h
theorem opt_of_wfPk8 {l : CvtLit} {o : Option Src} (h : l.wfPk8 o.isSome = true) : opt o = 127#7 ∨ l.sty.inPk = false := by
  obtain ⟨sel, sat, sty⟩ := l
  cases o with
  | none => exact .inl rfl
  | some a => cases sty <;> simp [CvtLit.wfPk8, ElemTy.inPk] at h ⊢
end Enc

namespace Dec
section
variable {opc : BitVec 9} {h : Hd} {t : ElemTy} {hn : BitVec 2} {d : BitVec 7 × BitVec 4} {sa sb sc : BitVec 7}
@[simp] theorem cvtLit_word {l : CvtLit} : cvtLit (.word opc false h t hn d sa (sb ++ sc ++ Enc.cvt l)) = l := by
  rw [cvtLit, Fields.word_sd]
  exact cvt_lit l
theorem atomTy_atm {q : AtomOp} {s : Fin 8} (hq : q.accepts t = true) :
    atomTy (.word opc false h t hn d sa (sb ++ sc ++ Enc.atm s (Enc.atomOp q))) = .ok t := by
  have names : atomOp (Fields.sd (.word opc false h t hn d sa (sb ++ sc ++ Enc.atm s (Enc.atomOp q))) |>.extractLsb' 0 4).toNat = .ok q := by
    rw [Fields.word_sd, atm_op, atomOp_val]
  rw [atomTy, names]
  simp [hq]
end
end Dec

/-! The rows of one function each, form by form; a hypothesis `hw` is the case of `Instr.wf` for the row. -/

section
variable {h : Hd} {t : ElemTy} {r : Rnd} {hint : Hint} {d : Dst} {a b c e : Src} {o : Option Src} {n : VName} {k : BitVec 4} {q : PName} {p₁ p₂ p₃ : Pred} {v : BitVec 16}
  {m : Combine} {ic : ICmp} {fc : FCmp} {l : BitVec 8} {cl : CvtLit} {wm : Fin 8} {xm : XMode} {ro : RedOp} {ao : AtomOp} {ac : AwaitCond} {fk : FenceKind} {z : CpySize}
  {sh sc : Fin 8} {cnt : Fin 64} {x y sx : Bool} {u : BitVec 12}

theorem decode_bra : decode (Enc.im 0x001 h .b32 0 Enc.nd Enc.nulF v) = .ok (.bra h v) :=
  decode_imm (ctl_fields 1 (by omega) _ rfl) (by simp)

theorem decode_call (hw : (decide (n.val ≤ 110) && k != 0#4) = true) : decode (Enc.im 0x003 h .n64 0 (Enc.name n k) Enc.nulF v) = .ok (.call h n k v) := by
  simp at hw
  exact decode_imm (ctl_fields 3 (by omega) _ rfl) (by simp [hw])

theorem decode_callx (hw : (decide (n.val ≤ 110) && k != 0#4) = true) : decode (Enc.s1 0x004 h .n64 0 (Enc.name n k) a) = .ok (.callx h n k a) := by
  simp at hw
  exact decode_reg (ctl_fields 4 (by omega) _ rfl) (by simp [hw])

theorem decode_waitf : decode (Enc.im 0x007 h .b32 0 Enc.nd Enc.nulF ((0 : BitVec 4) ++ u)) = .ok (.waitf h u) :=
  decode_imm (ctl_fields 7 (by omega) _ rfl) (by simp [wait_val, of_decide_eq_true (wait_lt u)])

theorem decode_nap : decode (Enc.im 0x008 h .b32 0 Enc.nd Enc.nulF v) = .ok (.nap h v) :=
  decode_imm (ctl_fields 8 (by omega) _ rfl) (by simp)

theorem decode_lea_reg (hw : d.wf = true) :
    decode (Enc.rf 0x02F h .n64 0 (Enc.dst d) a.code b.code Enc.nulF ((0 : BitVec 3) ++ BitVec.ofBool sx ++ (BitVec.ofFin sh : BitVec 3))) = .ok (.lea h d a (.reg b sh sx)) :=
  decode_either_reg (int_fields 15 (by omega) _ rfl) (by simp [lea_lit, lea_sh, hw, -BitVec.toFin_extractLsb'])

theorem decode_lea_imm (hw : d.wf = true) : decode (Enc.im 0x02F h .n64 0 (Enc.dst d) a.code v) = .ok (.lea h d a (.imm v)) :=
  decode_either_imm (int_fields 15 (by omega) _ rfl) (by simp [hw])

theorem decode_lop3 (hw : (t.inB && d.wf) = true) :
    decode (Enc.rf 0x043 h t (Enc.b1 (l.getLsbD 7)) (Enc.dst d) a.code b.code c.code (l.extractLsb' 0 7)) = .ok (.lop3 h t d a b c l) := by
  simp at hw
  exact decode_reg (bit_fields 3 (by omega) _ rfl) (by simp [hw])

theorem decode_fshf (hw : ((t == .b32 || t == .n32) && d.wf) = true) : decode (Enc.s3 0x048 h t (Enc.b2 x y) (Enc.dst d) a b c) = .ok (.fshf h t x y d a b c) := by
  simp at hw
  exact decode_reg (bit_fields 8 (by omega) _ rfl) (by simp [hw])

theorem decode_isetp_reg (hw : (t.inI32 && true) = true) :
    decode (Enc.rf 0x060 h t (Enc.combHn m) (Enc.pname q) a.code b.code (Enc.combSc m) (Enc.f7 (Enc.icmp ic))) = .ok (.isetp h t q a (.reg b ic m)) := by
  simp at hw
  exact decode_either_reg (prd_fields 0 (by omega) _ rfl) (by simp [icmp_lit, hw])

theorem decode_fsetp (hw : t.inFT = true) :
    decode (Enc.rf 0x061 h t (Enc.combHn m) (Enc.pname q) a.code b.code (Enc.combSc m) (Enc.f7 (Enc.fcmp fc))) = .ok (.fsetp h t q a b fc m) :=
  decode_reg (prd_fields 1 (by omega) _ rfl) (by simp [fcmp_lit, hw])

theorem decode_plop :
    decode (Enc.rf 0x062 h .b32 (Enc.b1 (l.getLsbD 7)) (Enc.pname q) (Enc.pr p₁) (Enc.pr p₂) (Enc.pr p₃) (l.extractLsb' 0 7)) = .ok (.plop h q p₁ p₂ p₃ l) :=
  decode_reg (prd_fields 2 (by omega) _ rfl) (by simp)

theorem decode_sel (hw : (t.notBfp && d.wf) = true) : decode (Enc.rf 0x063 h t 0 (Enc.dst d) a.code b.code (Enc.pr p₁) Enc.nulF) = .ok (.sel h t d a b p₁) := by
  simp at hw
  exact decode_reg (prd_fields 3 (by omega) _ rfl) (by simp [hw])

theorem decode_p2v (hw : d.wf = true) : decode (Enc.s0 0x064 h .n32 (Enc.dst d)) = .ok (.p2v h d) :=
  decode_reg (prd_fields 4 (by omega) _ rfl) (by simp [hw])

theorem decode_v2p_reg : decode (Enc.rf 0x065 h .b32 0 Enc.nd a.code b.code Enc.nulF Enc.nulF) = .ok (.v2p h a (.reg b)) :=
  decode_either_reg (prd_fields 5 (by omega) _ rfl) (by simp)

theorem decode_v2p_imm (hw : (decide (v.toNat < 128)) = true) : decode (Enc.im 0x065 h .b32 0 Enc.nd a.code v) = .ok (.v2p h a (.imm v)) := by
  simp at hw
  exact decode_either_imm (prd_fields 5 (by omega) _ rfl) (by simp [hw])

theorem decode_ffma (hw : (t.inFT && d.wf) = true) : decode (Enc.s3 0x083 h t r.code (Enc.dst d) a b c) = .ok (.ffma h t r d a b c) := by
  simp at hw
  exact decode_reg (flt_fields 3 (by omega) _ rfl) (by simp [Rnd.ofCode_code, hw])

theorem decode_frnd (hw : (t.inFT && d.wf) = true) : decode (Enc.s1 0x086 h t r.code (Enc.dst d) a) = .ok (.frnd h t r d a) := by
  simp at hw
  exact decode_reg (flt_fields 6 (by omega) _ rfl) (by simp [Rnd.ofCode_code, hw])

theorem decode_fscale (hw : (t.inFT && d.wf) = true) : decode (Enc.s2 0x087 h t r.code (Enc.dst d) a b) = .ok (.fscale h t r d a b) := by
  simp at hw
  exact decode_reg (flt_fields 7 (by omega) _ rfl) (by simp [Rnd.ofCode_code, hw])

theorem decode_fdot2 (hw : ((t == .f16 || t == .bf16) && d.wf) = true) : decode (Enc.s3 0x089 h t r.code (Enc.dst d) a b c) = .ok (.fdot2 h t r d a b c) := by
  simp at hw
  exact decode_reg (flt_fields 9 (by omega) _ rfl) (by simp [Rnd.ofCode_code, hw])

theorem decode_cvt (hw : (t.inCvt && d.wf && cl.wfCvt) = true) :
    decode (Enc.rf 0x0A0 h t r.code (Enc.dst d) a.code Enc.nulF Enc.nulF (Enc.cvt cl)) = .ok (.cvt h t r d a cl) := by
  simp at hw
  exact decode_reg (cvtG_fields 0 (by omega) _ rfl) (by simp [Rnd.ofCode_code, hw])

theorem decode_cvtpk (hw : (t.inPk && d.wf && cl.wfCvt) = true) :
    decode (Enc.rf 0x0A1 h t r.code (Enc.dst d) a.code b.code Enc.nulF (Enc.cvt cl)) = .ok (.cvtpk h t r d a b cl) := by
  simp at hw
  exact decode_reg (cvtG_fields 1 (by omega) _ rfl) (by simp [Rnd.ofCode_code, hw])

theorem decode_cvt8pk (hw : (t.inPk8 && d.wf && cl.wfPk8 o.isSome) = true) :
    decode (Enc.rf 0x0A2 h t r.code (Enc.dst d) a.code b.code (Enc.opt o) (Enc.cvt cl)) = .ok (.cvt8pk h t r d a b o cl) := by
  simp at hw
  exact decode_reg (cvtG_fields 2 (by omega) _ rfl) (by simp [Rnd.ofCode_code, opt_bne, Enc.cvt_bit6 hw.2, Enc.opt_of_wfPk8 hw.2, hw])

theorem decode_cvtupk (hw : (t.inPk && d.wf && cl.wfUpk) = true) :
    decode (Enc.rf 0x0A3 h t r.code (Enc.dst d) a.code Enc.nulF Enc.nulF (Enc.cvt cl)) = .ok (.cvtupk h t r d a cl) := by
  simp at hw
  exact decode_reg (cvtG_fields 3 (by omega) _ rfl) (by simp [Rnd.ofCode_code, hw])

theorem decode_qblk (hw : (t.inFT && d.valNul && wm != 0) = true) :
    decode (Enc.rf 0x0A4 h t r.code (Enc.dst d) a.code b.code c.code (Enc.f7 wm.val)) = .ok (.qblk h t r d a b c wm) := by
  simp at hw
  exact decode_reg (cvtG_fields 4 (by omega) _ rfl) (by simp [Rnd.ofCode_code, p7_high, p7_low, p7_zero, hw, -BitVec.toFin_extractLsb'])

theorem decode_dqblk (hw : (t.inFT && d.wf && wm != 0) = true) :
    decode (Enc.rf 0x0A5 h t r.code (Enc.dst d) a.code b.code Enc.nulF (Enc.f7 wm.val)) = .ok (.dqblk h t r d a b wm) := by
  simp at hw
  exact decode_reg (cvtG_fields 5 (by omega) _ rfl) (by simp [Rnd.ofCode_code, p7_high, p7_low, p7_zero, hw, -BitVec.toFin_extractLsb'])

theorem decode_rnd (hw : d.wf = true) : decode (Enc.s0 0x0C8 h .n32 (Enc.dst d)) = .ok (.rnd h d) :=
  decode_reg (sfuG_fields 8 (by omega) _ rfl) (by simp [hw])

theorem decode_rndf (hw : d.wf = true) : decode (Enc.s0 0x0C9 h .f32 (Enc.dst d)) = .ok (.rndf h d) :=
  decode_reg (sfuG_fields 9 (by omega) _ rfl) (by simp [hw])

theorem decode_xshf_reg (hw : (t.notBfp && d.wf && a.noQueue && b.noQueue) = true) :
    decode (Enc.rf 0x0E0 h t (Enc.xmode xm) (Enc.dst d) a.code b.code Enc.nulF Enc.nulF) = .ok (.xshf h t xm d a (.reg b)) := by
  simp at hw
  exact decode_either_reg (xln_fields 0 (by omega) _ rfl) (by cases xm <;> simp [Enc.xmode, hw])

theorem decode_xshf_imm (hw : (t.notBfp && d.wf && a.noQueue && true) = true) :
    decode (Enc.im 0x0E0 h t (Enc.xmode xm) (Enc.dst d) a.code v) = .ok (.xshf h t xm d a (.imm v)) := by
  simp at hw
  exact decode_either_imm (xln_fields 0 (by omega) _ rfl) (by cases xm <;> simp [Enc.xmode, hw])

theorem decode_redx (hw : (ro.accepts t && d.wf && a.noQueue) = true) :
    decode (Enc.rf 0x0E3 h t 0 (Enc.dst d) a.code Enc.nulF Enc.nulF (Enc.f7 (Enc.redOp ro))) = .ok (.redx h t d a ro) := by
  simp at hw
  exact decode_reg (xln_fields 3 (by omega) _ rfl) (by simp [redop_hi, red_in _ _ hw.1.1, hw])

theorem decode_scanx (hw : (ro.accepts t && d.wf && a.noQueue) = true) :
    decode (Enc.rf 0x0E4 h t 0 (Enc.dst d) a.code Enc.nulF Enc.nulF ((0 : BitVec 3) ++ BitVec.ofBool x ++ BitVec.ofNat 3 (Enc.redOp ro))) = .ok (.scanx h t d a ro x) := by
  simp at hw
  exact decode_reg (xln_fields 4 (by omega) _ rfl) (by simp [scan_hi, red_in _ _ hw.1.1, hw])

theorem decode_vote_all : decode (Enc.rf 0x0E5 h .b32 0 (Enc.pname q) (Enc.pr p₁) Enc.nulF Enc.nulF Enc.nulF) = .ok (.vote h (.all q) p₁) :=
  decode_reg (xln_fields 5 (by omega) _ rfl) (by simp)

theorem decode_vote_any : decode (Enc.rf 0x0E5 h .b32 1 (Enc.pname q) (Enc.pr p₁) Enc.nulF Enc.nulF Enc.nulF) = .ok (.vote h (.any q) p₁) :=
  decode_reg (xln_fields 5 (by omega) _ rfl) (by simp)

theorem decode_vote_uni : decode (Enc.rf 0x0E5 h .b32 2 (Enc.pname q) (Enc.pr p₁) Enc.nulF Enc.nulF Enc.nulF) = .ok (.vote h (.uni q) p₁) :=
  decode_reg (xln_fields 5 (by omega) _ rfl) (by simp)

theorem decode_vote_ballot (hw : d.wf = true) :
    decode (Enc.rf 0x0E5 h .n64 3 (Enc.dst d) (Enc.pr p₁) Enc.nulF Enc.nulF ((0 : BitVec 6) ++ BitVec.ofBool x)) = .ok (.vote h (.ballot d x) p₁) :=
  decode_reg (xln_fields 5 (by omega) _ rfl) (by simp [bit_hi, hw])

theorem decode_xmatch (hw : (d.wf && a.noQueue) = true) :
    decode (Enc.rf 0x0E6 h (if x then .n64 else .b32) 0 (Enc.dst d) a.code Enc.nulF Enc.nulF ((0 : BitVec 6) ++ BitVec.ofBool y)) = .ok (.xmatch h x d a y) := by
  simp at hw
  exact decode_reg (xln_fields 6 (by omega) _ rfl) (by simp [bit_hi, hw])

theorem decode_elect : decode (Enc.rf 0x0E7 h .b32 0 (Enc.pname q) Enc.nulF Enc.nulF Enc.nulF Enc.nulF) = .ok (.elect h q) :=
  decode_reg (xln_fields 7 (by omega) _ rfl) (by simp)

theorem decode_xcount_exec (hw : d.wf = true) : decode (Enc.rf 0x0E8 h .n32 0 (Enc.dst d) Enc.nulF Enc.nulF Enc.nulF Enc.nulF) = .ok (.xcount h d .exec) :=
  decode_reg (xln_fields 8 (by omega) _ rfl) (by simp [hw])

theorem decode_xcount_below (hw : d.wf = true) : decode (Enc.rf 0x0E8 h .n32 1 (Enc.dst d) Enc.nulF Enc.nulF Enc.nulF Enc.nulF) = .ok (.xcount h d .below) :=
  decode_reg (xln_fields 8 (by omega) _ rfl) (by simp [hw])

theorem decode_xcount_pred (hw : d.wf = true) : decode (Enc.rf 0x0E8 h .n32 2 (Enc.dst d) (Enc.pr p₁) Enc.nulF Enc.nulF Enc.nulF) = .ok (.xcount h d (.pred p₁)) :=
  decode_reg (xln_fields 8 (by omega) _ rfl) (by simp [hw])

theorem decode_xcount_predBelow (hw : d.wf = true) :
    decode (Enc.rf 0x0E8 h .n32 3 (Enc.dst d) (Enc.pr p₁) Enc.nulF Enc.nulF Enc.nulF) = .ok (.xcount h d (.predBelow p₁)) :=
  decode_reg (xln_fields 8 (by omega) _ rfl) (by simp [hw])

theorem decode_mov_reg (hw : (t.notBfp && d.wf && true) = true) : decode (Enc.s1 0x100 h t 0 (Enc.dst d) a) = .ok (.mov h t d (.reg a)) := by
  simp at hw
  exact decode_either_reg (cel_fields 0 (by omega) _ rfl) (by simp [hw])

theorem decode_mov_imm (hw : (t.notBfp && d.wf && immOk t v) = true) : decode (Enc.im 0x100 h t 0 (Enc.dst d) Enc.nulF v) = .ok (.mov h t d (.imm v)) := by
  simp at hw
  exact decode_either_imm (cel_fields 0 (by omega) _ rfl) (by simp [hw])

theorem decode_drop (hw : (decide (k.toNat ≤ 14)) = true) : decode (Enc.im 0x101 h .b32 0 Enc.nd (Enc.f7 n.val) ((0 : BitVec 12) ++ k)) = .ok (.drop h n k) := by
  simp at hw
  exact decode_imm (cel_fields 1 (by omega) _ rfl) (by simp [drop_val, drop_nat, hw])

theorem decode_keep (hw : (decide (1 ≤ k.toNat) && decide (k.toNat ≤ 14)) = true) :
    decode (Enc.im 0x102 h .b32 0 Enc.nd (Enc.f7 n.val) ((0 : BitVec 12) ++ k)) = .ok (.keep h n k) := by
  simp at hw
  exact decode_imm (cel_fields 2 (by omega) _ rfl) (by simp [drop_val, drop_nat, hw])

theorem decode_free : decode (Enc.rf 0x103 h .b32 0 Enc.nd (Enc.f7 n.val) Enc.nulF Enc.nulF Enc.nulF) = .ok (.free h n) :=
  decode_reg (cel_fields 3 (by omega) _ rfl) (by simp)

theorem decode_pair (hw : (t.in64 && d.isVal) = true) : decode (Enc.s2 0x104 h t 0 (Enc.dst d) a b) = .ok (.pair h t d a b) := by
  simp at hw
  exact decode_reg (cel_fields 4 (by omega) _ rfl) (by simp [hw])

theorem decode_split (hw : (t.in64 && decide (n.val ≤ 110) && k != 0#4) = true) : decode (Enc.s1 0x105 h t 0 (Enc.name n k) a) = .ok (.split h t n k a) := by
  simp at hw
  exact decode_reg (cel_fields 5 (by omega) _ rfl) (by simp [hw])

theorem decode_cellq_state (hw : d.isVal = true) :
    decode (Enc.rf 0x106 h .b32 0 (Enc.dst d) (Enc.f7 n.val) Enc.nulF Enc.nulF Enc.nulF) = .ok (.cellq h d (.state n)) :=
  decode_reg (cel_fields 6 (by omega) _ rfl) (by simp [hw])

theorem decode_cellq_pcl (hw : d.isVal = true) : decode (Enc.rf 0x106 h .b32 1 (Enc.dst d) (Enc.f7 n.val) Enc.nulF Enc.nulF Enc.nulF) = .ok (.cellq h d (.pcl n)) :=
  decode_reg (cel_fields 6 (by omega) _ rfl) (by simp [hw])

theorem decode_cellq_pch (hw : d.isVal = true) : decode (Enc.rf 0x106 h .b32 2 (Enc.dst d) (Enc.f7 n.val) Enc.nulF Enc.nulF Enc.nulF) = .ok (.cellq h d (.pch n)) :=
  decode_reg (cel_fields 6 (by omega) _ rfl) (by simp [hw])

theorem decode_cellq_lane (hw : d.isVal = true) : decode (Enc.rf 0x106 h .b32 3 (Enc.dst d) Enc.nulF Enc.nulF Enc.nulF Enc.nulF) = .ok (.cellq h d .lane) :=
  decode_reg (cel_fields 6 (by omega) _ rfl) (by simp [hw])

theorem decode_ld_reg (hw : (t.notBfp && d.valPush && (hint == .counted || cnt == 0)) = true) :
    decode (Enc.rf 0x120 h t hint.code (Enc.dst d) a.code b.code Enc.nulF (BitVec.ofBool x ++ (BitVec.ofFin cnt : BitVec 6))) = .ok (.ld h t hint d (.reg a b x) cnt) := by
  simp at hw
  exact decode_either_reg (mem_fields 0 (by omega) _ rfl) (by simp [Hint.ofCode_code, hw, -BitVec.toFin_extractLsb'])

theorem decode_ld_imm (hw : (t.notBfp && d.valPush && cnt == 0) = true) :
    decode (Enc.im 0x120 h t hint.code (Enc.dst d) a.code v) = .ok (.ld h t hint d (.imm a v) cnt) := by
  simp at hw
  exact decode_either_imm (mem_fields 0 (by omega) _ rfl) (by simp [Hint.ofCode_code, hw])

theorem decode_st (hw : (t.notBfp && hint != .counted) = true) : decode (Enc.store 0x121 h t hint.code a b x c.code) = .ok (.st h t hint a b x c) := by
  simp at hw
  exact decode_reg (mem_fields 1 (by omega) _ rfl) (by simp [Hint.ofCode_code, hw])

theorem decode_lds_reg (hw : (t.notBfp && d.valPush) = true) :
    decode (Enc.rf 0x122 h t (Enc.b2 y y) (Enc.dst d) a.code b.code Enc.nulF (BitVec.ofBool x ++ (BitVec.ofFin 0 : BitVec 6))) = .ok (.lds h t y d (.reg a b x)) := by
  simp at hw
  exact decode_either_reg (mem_fields 2 (by omega) _ rfl) (by cases y <;> simp [hw])

theorem decode_lds_imm (hw : (t.notBfp && d.valPush) = true) : decode (Enc.im 0x122 h t (Enc.b2 y y) (Enc.dst d) a.code v) = .ok (.lds h t y d (.imm a v)) := by
  simp at hw
  exact decode_either_imm (mem_fields 2 (by omega) _ rfl) (by cases y <;> simp [hw])

theorem decode_sts (hw : t.notBfp = true) : decode (Enc.store 0x123 h t 0 a b x c.code) = .ok (.sts h t a b x c) :=
  decode_reg (mem_fields 3 (by omega) _ rfl) (by simp [hw])

theorem decode_ldp_reg (hw : (t.inLdp && d.valPush) = true) :
    decode (Enc.rf 0x124 h t 0 (Enc.dst d) a.code b.code Enc.nulF (BitVec.ofBool x ++ (BitVec.ofFin 0 : BitVec 6))) = .ok (.ldp h t d (.reg a b x)) := by
  simp at hw
  exact decode_either_reg (mem_fields 4 (by omega) _ rfl) (by simp [hw])

theorem decode_ldp_imm (hw : (t.inLdp && d.valPush) = true) : decode (Enc.im 0x124 h t 0 (Enc.dst d) a.code v) = .ok (.ldp h t d (.imm a v)) := by
  simp at hw
  exact decode_either_imm (mem_fields 4 (by omega) _ rfl) (by simp [hw])

theorem decode_ldv_reg (hw : (decide (n.val % 2 = 0) && k != 0#4 && (hint == .counted || cnt == 0)) = true) :
    decode (Enc.rf 0x125 h .b32 hint.code (Enc.name n k) a.code b.code Enc.nulF (BitVec.ofBool x ++ (BitVec.ofFin cnt : BitVec 6))) = .ok (.ldv h hint n k (.reg a b x) cnt) := by
  simp at hw
  exact decode_either_reg (mem_fields 5 (by omega) _ rfl) (by simp [Hint.ofCode_code, hw, -BitVec.toFin_extractLsb'])

theorem decode_ldv_imm (hw : (decide (n.val % 2 = 0) && k != 0#4 && cnt == 0) = true) :
    decode (Enc.im 0x125 h .b32 hint.code (Enc.name n k) a.code v) = .ok (.ldv h hint n k (.imm a v) cnt) := by
  simp at hw
  exact decode_either_imm (mem_fields 5 (by omega) _ rfl) (by simp [Hint.ofCode_code, hw])

theorem decode_stv (hw : (hint != .counted && decide (n.val % 2 = 0)) = true) :
    decode (Enc.store 0x126 h .b32 hint.code a b x (Enc.f7 n.val)) = .ok (.stv h hint a b x n) := by
  simp at hw
  exact decode_reg (mem_fields 6 (by omega) _ rfl) (by simp [Hint.ofCode_code, hw])

theorem decode_pfl_reg :
    decode (Enc.rf 0x127 h .b32 hint.code Enc.nd a.code b.code (Enc.opt o) (BitVec.ofBool x ++ (BitVec.ofFin 0 : BitVec 6))) = .ok (.pfl h hint (.reg a b x) o) :=
  decode_either_reg (mem_fields 7 (by omega) _ rfl) (by simp [Hint.ofCode_code])

theorem decode_pfl_imm (hw : o.isNone = true) : decode (Enc.im 0x127 h .b32 hint.code Enc.nd a.code v) = .ok (.pfl h hint (.imm a v) o) := by
  simp at hw
  exact decode_either_imm (mem_fields 7 (by omega) _ rfl) (by simp [Hint.ofCode_code, hw])

theorem decode_atom (hw : (ao.accepts t && d.valPush) = true) :
    decode (Enc.rf 0x140 h t 0 (Enc.dst d) a.code b.code Enc.nulF (Enc.atm sc (Enc.atomOp ao))) = .ok (.atom h t d a b ao sc) := by
  simp at hw
  exact decode_reg (atm_fields 0 (by omega) _ rfl) (by simp [atm_scope, atm_op, Dec.atomTy_atm, hw, -BitVec.toFin_extractLsb'])

theorem decode_ared (hw : (ao.accepts t) = true) :
    decode (Enc.rf 0x141 h t 0 Enc.nd a.code b.code Enc.nulF (Enc.atm sc (Enc.atomOp ao))) = .ok (.ared h t a b ao sc) :=
  decode_reg (atm_fields 1 (by omega) _ rfl) (by simp [atm_scope, atm_op, Dec.atomTy_atm, hw, -BitVec.toFin_extractLsb'])

theorem decode_acas (hw : (t.inCas && d.valPush) = true) :
    decode (Enc.rf 0x142 h t 0 (Enc.dst d) a.code b.code c.code (Enc.atm sc 0)) = .ok (.acas h t d a b c sc) := by
  simp at hw
  exact decode_reg (atm_fields 2 (by omega) _ rfl) (by simp [atm_scope, atm_op, hw, -BitVec.toFin_extractLsb'])

theorem decode_await (hw : (t.inCas && ac.accepts t && d.valPush) = true) :
    decode (Enc.rf 0x143 h t 0 (Enc.dst d) a.code b.code c.code (Enc.atm sc (Enc.awaitCond ac))) = .ok (.await h t d a b c ac sc) := by
  simp at hw
  exact decode_reg (atm_fields 3 (by omega) _ rfl) (by simp [atm_scope, atm_op, hw, -BitVec.toFin_extractLsb'])

theorem decode_fence : decode (Enc.im 0x144 h .b32 0 Enc.nd Enc.nulF ((0 : BitVec 11) ++ (BitVec.ofFin sc : BitVec 3) ++ Enc.fenceKind fk)) = .ok (.fence h fk sc) :=
  decode_imm (atm_fields 4 (by omega) _ rfl) (by cases fk <;> simp [of_decide_eq_true (fence_lt ..), fence_sc, fence_acq, fence_rel, fence_full, -BitVec.toFin_extractLsb'])

theorem decode_cntdec : decode (Enc.rf 0x145 h .n32 0 Enc.nd a.code b.code Enc.nulF (Enc.atm sc 0)) = .ok (.cntdec h a b sc) :=
  decode_reg (atm_fields 5 (by omega) _ rfl) (by simp [atm_scope, atm_op, -BitVec.toFin_extractLsb'])

theorem decode_bararv (hw : d.valNul = true) : decode (Enc.rf 0x146 h .n32 0 (Enc.dst d) a.code b.code Enc.nulF (Enc.atm sc 0)) = .ok (.bararv h d a b sc) :=
  decode_reg (atm_fields 6 (by omega) _ rfl) (by simp [atm_scope, atm_op, hw, -BitVec.toFin_extractLsb'])

theorem decode_barwt (hw : d.valPush = true) : decode (Enc.rf 0x147 h .n32 0 (Enc.dst d) a.code b.code c.code (Enc.atm sc 0)) = .ok (.barwt h d a b c sc) :=
  decode_reg (atm_fields 7 (by omega) _ rfl) (by simp [atm_scope, atm_op, hw, -BitVec.toFin_extractLsb'])

theorem decode_cpy :
    decode (Enc.rf 0x160 h .b32 hint.code Enc.nd a.code b.code (Enc.cpySize z ++ BitVec.ofBool x ++ BitVec.ofBool y ++ (0 : BitVec 3)) Enc.nulF) = .ok (.cpy h hint a b z x y) :=
  decode_reg (cpyG_fields 0 (by omega) _ rfl) (by cases z <;> simp [Hint.ofCode_code, cpy_b4, cpy_b8, cpy_b16])

theorem decode_cpyb : decode (Enc.rf 0x161 h .b32 0 (Enc.dst (.push .cpc)) a.code b.code c.code (Enc.opt o)) = .ok (.cpyb h a b c o) :=
  decode_reg (cpyG_fields 1 (by omega) _ rfl) (by simp)

theorem decode_cploop : decode (Enc.rf 0x162 h .b32 0 (Enc.dst (.push .cpc)) a.code b.code c.code (Enc.opt o)) = .ok (.cploop h a b c o) :=
  decode_reg (cpyG_fields 2 (by omega) _ rfl) (by simp)

theorem decode_cpstat_reg (hw : (d.isVal && true) = true) : decode (Enc.s1 0x163 h .n32 (Enc.b1 x) (Enc.dst d) a) = .ok (.cpstat h x d (.reg a)) := by
  simp at hw
  exact decode_either_reg (cpyG_fields 3 (by omega) _ rfl) (by simp [hw])

theorem decode_cpstat_imm (hw : (d.isVal && (v == 0#16 || (decide (0x10 ≤ v.toNat) && decide (v.toNat < 0x30)))) = true) :
    decode (Enc.im 0x163 h .n32 (Enc.b1 x) (Enc.dst d) Enc.nulF v) = .ok (.cpstat h x d (.imm v)) := by
  simp at hw
  exact decode_either_imm (cpyG_fields 3 (by omega) _ rfl) (by simp [hw])

theorem decode_gmap : decode (Enc.s3 0x164 h .b32 0 Enc.nd a b c) = .ok (.gmap h a b c) :=
  decode_reg (cpyG_fields 4 (by omega) _ rfl) (by simp)

theorem decode_ringcfg_reg : decode (Enc.s1 0x168 h .b32 0 Enc.nd a) = .ok (.ringcfg h (.reg a)) :=
  decode_either_reg (cpyG_fields 8 (by omega) _ rfl) (by simp)

theorem decode_ringcfg_imm : decode (Enc.im 0x168 h .b32 0 Enc.nd Enc.nulF v) = .ok (.ringcfg h (.imm v)) :=
  decode_either_imm (cpyG_fields 8 (by omega) _ rfl) (by simp)

theorem decode_ringcfgOff_reg : decode (Enc.s1 0x168 h .b32 1 Enc.nd a) = .ok (.ringcfgOff h (.reg a)) :=
  decode_either_reg (cpyG_fields 8 (by omega) _ rfl) (by simp)

theorem decode_ringcfgOff_imm : decode (Enc.im 0x168 h .b32 1 Enc.nd Enc.nulF v) = .ok (.ringcfgOff h (.imm v)) :=
  decode_either_imm (cpyG_fields 8 (by omega) _ rfl) (by simp)

theorem decode_mwld (hw : (a.noQueue && t.inWeight && ((t == .bfp) == (wm != 0))) = true) :
    decode (Enc.rf 0x180 h t (Enc.b1 x) (Enc.dst (.push .mxc)) a.code Enc.nulF Enc.nulF (Enc.f7 wm.val)) = .ok (.mwld h t x a wm) := by
  simp at hw
  exact decode_reg (mtxG_fields 0 (by omega) _ rfl) (by simp [p7_high, p7_low, hw, -BitVec.toFin_extractLsb'])

theorem decode_mloop (hw : (t.inAct && a.noQueue && b.noQueue && c.noQueue && e.noQueue) = true) :
    decode (Enc.rf 0x182 h t 0 (Enc.dst (.push .mxc)) a.code b.code c.code e.code) = .ok (.mloop h t a b c e) := by
  simp at hw
  exact decode_reg (mtxG_fields 2 (by omega) _ rfl) (by simp [hw])

theorem decode_mloopResume : decode (Enc.rf 0x182 h .b32 1 Enc.nd Enc.nulF Enc.nulF Enc.nulF Enc.nulF) = .ok (.mloopResume h) :=
  decode_reg (mtxG_fields 2 (by omega) _ rfl) (by simp)

theorem decode_mloopAbort : decode (Enc.rf 0x182 h .b32 2 Enc.nd Enc.nulF Enc.nulF Enc.nulF Enc.nulF) = .ok (.mloopAbort h) :=
  decode_reg (mtxG_fields 2 (by omega) _ rfl) (by simp)

theorem decode_maccld (hw : (a.noQueue && b.noQueue) = true) : decode (Enc.s2 0x183 h .b32 0 (Enc.dst (.push .mxc)) a b) = .ok (.maccld h a b) := by
  simp at hw
  exact decode_reg (mtxG_fields 3 (by omega) _ rfl) (by simp [hw])

theorem decode_maccst (hw : (a.noQueue && b.noQueue) = true) : decode (Enc.s2 0x184 h .b32 0 (Enc.dst (.push .mxc)) a b) = .ok (.maccst h a b) := by
  simp at hw
  exact decode_reg (mtxG_fields 4 (by omega) _ rfl) (by simp [hw])

theorem decode_mdrain (hw : (a.noQueue && b.noQueue && c.noQueue) = true) : decode (Enc.s3 0x185 h .b32 0 (Enc.dst (.push .mxc)) a b c) = .ok (.mdrain h a b c) := by
  simp at hw
  exact decode_reg (mtxG_fields 5 (by omega) _ rfl) (by simp [hw])

theorem decode_mepi (hw : (a.noQueue && b.noQueue && c.noQueue) = true) : decode (Enc.s3 0x186 h .b32 0 (Enc.dst (.push .mxc)) a b c) = .ok (.mepi h a b c) := by
  simp at hw
  exact decode_reg (mtxG_fields 6 (by omega) _ rfl) (by simp [hw])

theorem decode_mstat (hw : d.isVal = true) : decode (Enc.im 0x189 h .n32 0 (Enc.dst d) Enc.nulF (BitVec.ofNat 16 i.val)) = .ok (.mstat h d i) :=
  decode_imm (mtxG_fields 9 (by omega) _ rfl) (by simp [Nat.mod_eq_of_lt (i.isLt.trans (by omega : _ < 65536)), hw])

theorem decode_tdepadd (hw : d.valNul = true) : decode (Enc.s2 0x1A5 h .n32 0 (Enc.dst d) a b) = .ok (.tdepadd h d a b) :=
  decode_reg (tsk_fields 5 (by omega) _ rfl) (by simp [hw])

theorem decode_tsignal : decode (Enc.s3 0x1A6 h .n64 0 Enc.nd a b c) = .ok (.tsignal h a b c) :=
  decode_reg (tsk_fields 6 (by omega) _ rfl) (by simp)

theorem decode_tself (hw : d.isVal = true) : decode (Enc.im 0x1A7 h .n64 0 (Enc.dst d) Enc.nulF (BitVec.ofNat 16 i.val)) = .ok (.tself h d i) :=
  decode_imm (tsk_fields 7 (by omega) _ rfl) (by simp [Nat.mod_eq_of_lt (i.isLt.trans (by omega : _ < 65536)), hw])

theorem decode_cvswap (hw : d.isVal = true) : decode (Enc.s2 0x1A8 h .n64 0 (Enc.dst d) a b) = .ok (.cvswap h d a b) :=
  decode_reg (tsk_fields 8 (by omega) _ rfl) (by simp [hw])

theorem decode_lstart : decode (Enc.s2 0x1A9 h .b32 0 Enc.nd a b) = .ok (.lstart h a b) :=
  decode_reg (tsk_fields 9 (by omega) _ rfl) (by simp)

theorem decode_lesc_none : decode (Enc.rf 0x1AA h .n32 0 Enc.nd a.code Enc.nulF Enc.nulF Enc.nulF) = .ok (.lesc h a none) :=
  decode_reg (tsk_fields 10 (by omega) _ rfl) (by simp)

theorem decode_lesc_some : decode (Enc.rf 0x1AA h .n32 0 Enc.nd a.code (Enc.f7 n.val) Enc.nulF Enc.nulF) = .ok (.lesc h a (some n)) :=
  decode_reg (tsk_fields 10 (by omega) _ rfl) (by simp)

theorem decode_lframe (hw : d.isVal = true) : decode (Enc.im 0x1AC h .n32 0 (Enc.dst d) Enc.nulF (BitVec.ofNat 16 i.val)) = .ok (.lframe h d i) :=
  decode_imm (tsk_fields 12 (by omega) _ rfl) (by simp [Nat.mod_eq_of_lt (i.isLt.trans (by omega : _ < 65536)), hw])

theorem decode_lstat (hw : d.isVal = true) : decode (Enc.im 0x1AD h .n64 0 (Enc.dst d) Enc.nulF (BitVec.ofNat 16 i.val)) = .ok (.lstat h d i) :=
  decode_imm (tsk_fields 13 (by omega) _ rfl) (by simp [Nat.mod_eq_of_lt (i.isLt.trans (by omega : _ < 65536)), hw])

theorem decode_trap : decode (Enc.im 0x1C0 h .b32 0 Enc.nd Enc.nulF v) = .ok (.trap h v) :=
  decode_imm (sys_fields 0 (by omega) _ rfl) (by simp)

theorem decode_sysrd_reg (hw : (d.isVal && true) = true) : decode (Enc.s1 0x1C2 h (if x then .n64 else .n32) 0 (Enc.dst d) a) = .ok (.sysrd h x d (.reg a)) := by
  simp at hw
  exact decode_either_reg (sys_fields 2 (by omega) _ rfl) (by simp [hw])

theorem decode_sysrd_imm (hw : (d.isVal && decide (v.toNat ≤ 0x1B)) = true) :
    decode (Enc.im 0x1C2 h (if x then .n64 else .n32) 0 (Enc.dst d) Enc.nulF v) = .ok (.sysrd h x d (.imm v)) := by
  simp at hw
  exact decode_either_imm (sys_fields 2 (by omega) _ rfl) (by simp [hw])

theorem decode_syswr_reg : decode (Enc.rf 0x1C3 h (if x then .n64 else .n32) 0 Enc.nd a.code b.code Enc.nulF Enc.nulF) = .ok (.syswr h x a (.reg b)) :=
  decode_either_reg (sys_fields 3 (by omega) _ rfl) (by simp)

theorem decode_syswr_imm (hw : (decide (v.toNat ≤ 0x1B)) = true) :
    decode (Enc.im 0x1C3 h (if x then .n64 else .n32) 0 Enc.nd a.code v) = .ok (.syswr h x a (.imm v)) := by
  simp at hw
  exact decode_either_imm (sys_fields 3 (by omega) _ rfl) (by simp [hw])

theorem decode_icinv_none : decode (Enc.rf 0x1C4 h .b32 1 Enc.nd Enc.nulF Enc.nulF Enc.nulF Enc.nulF) = .ok (.icinv h none) :=
  decode_reg (sys_fields 4 (by omega) _ rfl) (by simp)

theorem decode_icinv_some : decode (Enc.s2 0x1C4 h .b32 0 Enc.nd a b) = .ok (.icinv h (some (a, b))) :=
  decode_reg (sys_fields 4 (by omega) _ rfl) (by simp)

theorem decode_ppoll (hw : d.isVal = true) : decode (Enc.s0 0x1C5 h .n32 (Enc.dst d)) = .ok (.ppoll h d) :=
  decode_reg (sys_fields 5 (by omega) _ rfl) (by simp [hw])

theorem decode_bkpt : decode (Enc.im 0x1C6 h .b32 0 Enc.nd Enc.nulF v) = .ok (.bkpt h v) :=
  decode_imm (sys_fields 6 (by omega) _ rfl) (by simp)

theorem decode_perm (hw : d.wf = true) : decode (Enc.s3 0x04F h .b32 0 (Enc.dst d) a b c) = .ok (.perm h d a b c) :=
  decode_r3 (p := fun t => t == .b32) (mk := fun h _ d a b c => .perm h d a b c) (bit_fields 15 (by omega)) hw

theorem decode_isetp_imm (hw : (t.inI32 && (ic == .eq || ic == .ne || ic == .lt || ic == .ge)) = true) :
    decode (Enc.im 0x060 h t (Enc.icmpHn ic) (Enc.pname q) a.code v) = .ok (.isetp h t q a (.imm v ic)) := by
  simp at hw
  obtain ⟨ht, ((rfl | rfl) | rfl) | rfl⟩ := hw <;> exact decode_either_imm (prd_fields 0 (by omega) _ rfl) (by simp [Enc.icmpHn, ht])

theorem decode_stbind {k : SrcI} (hk : ∀ v, k = .imm v → (v &&& 0x7EF0#16 == 0#16) = true) : decode (Enc.sIm 0x16A h .b32 0 Enc.nd k) = .ok (.stbind h k) :=
  decode_only1I (ok := fun v => v &&& 0x7EF0#16 == 0#16) (cpyG_fields 10 (by omega)) hk

end

/-- R61 to R65: a well-formed instruction word has an encoding, and the decoder reads it back. Each is read by the lemma of its row, or of the shape of its row. -/
theorem decodes_encoding (i : Instr) (hw : i.wf = true) (word : i.isEvent = false) : ∃ y, encode i = some y ∧ decode y = .ok i := by
  cases i with
  | nop => exact ⟨_, rfl, decode_bare (ctl_fields 0 (by omega))⟩
  | bra => exact ⟨_, rfl, decode_bra⟩
  | brx => exact ⟨_, rfl, decode_only1 (ctl_fields 2 (by omega))⟩
  | call => exact ⟨_, rfl, decode_call hw⟩
  | callx => exact ⟨_, rfl, decode_callx hw⟩
  | ret => exact ⟨_, rfl, decode_only1 (ctl_fields 5 (by omega))⟩
  | exit => exact ⟨_, rfl, decode_bare (ctl_fields 6 (by omega))⟩
  | waitf => exact ⟨_, rfl, decode_waitf⟩
  | nap => exact ⟨_, rfl, decode_nap⟩
  | iadd => exact ⟨_, rfl, decode_rI2 (int_fields 0 (by omega)) hw⟩
  | isub => exact ⟨_, rfl, decode_rI2 (int_fields 1 (by omega)) hw⟩
  | imul => exact ⟨_, rfl, decode_rI2 (int_fields 2 (by omega)) hw⟩
  | imulhi => exact ⟨_, rfl, decode_rI2 (int_fields 3 (by omega)) hw⟩
  | imad => exact ⟨_, rfl, decode_r3 (int_fields 4 (by omega)) hw⟩
  | imadw => exact ⟨_, rfl, decode_r3 (int_fields 5 (by omega)) hw⟩
  | iaddc => exact ⟨_, rfl, decode_carry (int_fields 6 (by omega)) hw⟩
  | isubb => exact ⟨_, rfl, decode_carry (int_fields 7 (by omega)) hw⟩
  | imin => exact ⟨_, rfl, decode_rI2 (int_fields 8 (by omega)) hw⟩
  | imax => exact ⟨_, rfl, decode_rI2 (int_fields 9 (by omega)) hw⟩
  | iabs => exact ⟨_, rfl, decode_r1 (int_fields 10 (by omega)) hw⟩
  | ineg => exact ⟨_, rfl, decode_r1 (int_fields 11 (by omega)) hw⟩
  | isad => exact ⟨_, rfl, decode_r3 (int_fields 12 (by omega)) hw⟩
  | idot4 => exact ⟨_, rfl, decode_idot (int_fields 13 (by omega)) hw⟩
  | idot8 => exact ⟨_, rfl, decode_idot (int_fields 14 (by omega)) hw⟩
  | lea _ _ _ f =>
    cases f with
    | reg _ _ _ => exact ⟨_, rfl, decode_lea_reg hw⟩
    | imm _ => exact ⟨_, rfl, decode_lea_imm hw⟩
  | iclamp => exact ⟨_, rfl, decode_r3 (int_fields 16 (by omega)) hw⟩
  | and => exact ⟨_, rfl, decode_rI2 (bit_fields 0 (by omega)) hw⟩
  | or => exact ⟨_, rfl, decode_rI2 (bit_fields 1 (by omega)) hw⟩
  | xor => exact ⟨_, rfl, decode_rI2 (bit_fields 2 (by omega)) hw⟩
  | lop3 => exact ⟨_, rfl, decode_lop3 hw⟩
  | shl => exact ⟨_, rfl, decode_rI2 (bit_fields 4 (by omega)) hw⟩
  | shr => exact ⟨_, rfl, decode_rI2 (bit_fields 5 (by omega)) hw⟩
  | sar => exact ⟨_, rfl, decode_rI2 (bit_fields 6 (by omega)) hw⟩
  | rotl => exact ⟨_, rfl, decode_rI2 (bit_fields 7 (by omega)) hw⟩
  | fshf => exact ⟨_, rfl, decode_fshf hw⟩
  | popc => exact ⟨_, rfl, decode_r1 (bit_fields 9 (by omega)) hw⟩
  | clz => exact ⟨_, rfl, decode_r1 (bit_fields 10 (by omega)) hw⟩
  | ctz => exact ⟨_, rfl, decode_r1 (bit_fields 11 (by omega)) hw⟩
  | brev => exact ⟨_, rfl, decode_r1 (bit_fields 12 (by omega)) hw⟩
  | bfx => exact ⟨_, rfl, decode_rI2 (bit_fields 13 (by omega)) hw⟩
  | bfi => exact ⟨_, rfl, decode_r3 (bit_fields 14 (by omega)) hw⟩
  | perm => exact ⟨_, rfl, decode_perm hw⟩
  | isetp _ _ _ _ f =>
    cases f with
    | reg _ _ _ => exact ⟨_, rfl, decode_isetp_reg hw⟩
    | imm _ _ => exact ⟨_, rfl, decode_isetp_imm hw⟩
  | fsetp => exact ⟨_, rfl, decode_fsetp hw⟩
  | plop => exact ⟨_, rfl, decode_plop⟩
  | sel => exact ⟨_, rfl, decode_sel hw⟩
  | p2v => exact ⟨_, rfl, decode_p2v hw⟩
  | v2p _ _ f =>
    cases f with
    | reg _ => exact ⟨_, rfl, decode_v2p_reg⟩
    | imm _ => exact ⟨_, rfl, decode_v2p_imm hw⟩
  | fadd => exact ⟨_, rfl, decode_f2 (flt_fields 0 (by omega)) hw⟩
  | fsub => exact ⟨_, rfl, decode_f2 (flt_fields 1 (by omega)) hw⟩
  | fmul => exact ⟨_, rfl, decode_f2 (flt_fields 2 (by omega)) hw⟩
  | ffma => exact ⟨_, rfl, decode_ffma hw⟩
  | fmin => exact ⟨_, rfl, decode_fmm (flt_fields 4 (by omega)) hw⟩
  | fmax => exact ⟨_, rfl, decode_fmm (flt_fields 5 (by omega)) hw⟩
  | frnd => exact ⟨_, rfl, decode_frnd hw⟩
  | fscale => exact ⟨_, rfl, decode_fscale hw⟩
  | fclass => exact ⟨_, rfl, decode_r1 (flt_fields 8 (by omega)) hw⟩
  | fdot2 => exact ⟨_, rfl, decode_fdot2 hw⟩
  | cvt => exact ⟨_, rfl, decode_cvt hw⟩
  | cvtpk => exact ⟨_, rfl, decode_cvtpk hw⟩
  | cvt8pk => exact ⟨_, rfl, decode_cvt8pk hw⟩
  | cvtupk => exact ⟨_, rfl, decode_cvtupk hw⟩
  | qblk => exact ⟨_, rfl, decode_qblk hw⟩
  | dqblk => exact ⟨_, rfl, decode_dqblk hw⟩
  | rcp => exact ⟨_, rfl, decode_sfu (sfuG_fields 0 (by omega)) hw⟩
  | rsq => exact ⟨_, rfl, decode_sfu (sfuG_fields 1 (by omega)) hw⟩
  | sqrt => exact ⟨_, rfl, decode_sfu (sfuG_fields 2 (by omega)) hw⟩
  | exp2 => exact ⟨_, rfl, decode_sfu (sfuG_fields 3 (by omega)) hw⟩
  | log2 => exact ⟨_, rfl, decode_sfu (sfuG_fields 4 (by omega)) hw⟩
  | sinpi => exact ⟨_, rfl, decode_sfu (sfuG_fields 5 (by omega)) hw⟩
  | cospi => exact ⟨_, rfl, decode_sfu (sfuG_fields 6 (by omega)) hw⟩
  | tanh => exact ⟨_, rfl, decode_sfu (sfuG_fields 7 (by omega)) hw⟩
  | rnd => exact ⟨_, rfl, decode_rnd hw⟩
  | rndf => exact ⟨_, rfl, decode_rndf hw⟩
  | xshf _ _ _ _ _ f =>
    cases f with
    | reg _ => exact ⟨_, rfl, decode_xshf_reg hw⟩
    | imm _ => exact ⟨_, rfl, decode_xshf_imm hw⟩
  | xbfly => exact ⟨_, rfl, decode_xmove (xln_fields 1 (by omega)) hw⟩
  | xbcast => exact ⟨_, rfl, decode_xmove (xln_fields 2 (by omega)) hw⟩
  | redx => exact ⟨_, rfl, decode_redx hw⟩
  | scanx => exact ⟨_, rfl, decode_scanx hw⟩
  | vote _ f _ =>
    cases f with
    | all _ => exact ⟨_, rfl, decode_vote_all⟩
    | any _ => exact ⟨_, rfl, decode_vote_any⟩
    | uni _ => exact ⟨_, rfl, decode_vote_uni⟩
    | ballot _ _ => exact ⟨_, rfl, decode_vote_ballot hw⟩
  | xmatch => exact ⟨_, rfl, decode_xmatch hw⟩
  | elect => exact ⟨_, rfl, decode_elect⟩
  | xcount _ _ f =>
    cases f with
    | exec => exact ⟨_, rfl, decode_xcount_exec hw⟩
    | below => exact ⟨_, rfl, decode_xcount_below hw⟩
    | pred _ => exact ⟨_, rfl, decode_xcount_pred hw⟩
    | predBelow _ => exact ⟨_, rfl, decode_xcount_predBelow hw⟩
  | mov _ _ _ f =>
    cases f with
    | reg _ => exact ⟨_, rfl, decode_mov_reg hw⟩
    | imm _ => exact ⟨_, rfl, decode_mov_imm hw⟩
  | drop => exact ⟨_, rfl, decode_drop hw⟩
  | keep => exact ⟨_, rfl, decode_keep hw⟩
  | free => exact ⟨_, rfl, decode_free⟩
  | pair => exact ⟨_, rfl, decode_pair hw⟩
  | split => exact ⟨_, rfl, decode_split hw⟩
  | cellq _ _ f =>
    cases f with
    | state _ => exact ⟨_, rfl, decode_cellq_state hw⟩
    | pcl _ => exact ⟨_, rfl, decode_cellq_pcl hw⟩
    | pch _ => exact ⟨_, rfl, decode_cellq_pch hw⟩
    | lane => exact ⟨_, rfl, decode_cellq_lane hw⟩
  | ld _ _ _ _ f _ =>
    cases f with
    | reg _ _ _ => exact ⟨_, rfl, decode_ld_reg hw⟩
    | imm _ _ => exact ⟨_, rfl, decode_ld_imm hw⟩
  | st => exact ⟨_, rfl, decode_st hw⟩
  | lds _ _ _ _ f =>
    cases f with
    | reg _ _ _ => exact ⟨_, rfl, decode_lds_reg hw⟩
    | imm _ _ => exact ⟨_, rfl, decode_lds_imm hw⟩
  | sts => exact ⟨_, rfl, decode_sts hw⟩
  | ldp _ _ _ f =>
    cases f with
    | reg _ _ _ => exact ⟨_, rfl, decode_ldp_reg hw⟩
    | imm _ _ => exact ⟨_, rfl, decode_ldp_imm hw⟩
  | ldv _ _ _ _ f _ =>
    cases f with
    | reg _ _ _ => exact ⟨_, rfl, decode_ldv_reg hw⟩
    | imm _ _ => exact ⟨_, rfl, decode_ldv_imm hw⟩
  | stv => exact ⟨_, rfl, decode_stv hw⟩
  | pfl _ _ f _ =>
    cases f with
    | reg _ _ _ => exact ⟨_, rfl, decode_pfl_reg⟩
    | imm _ _ => exact ⟨_, rfl, decode_pfl_imm hw⟩
  | atom => exact ⟨_, rfl, decode_atom hw⟩
  | ared => exact ⟨_, rfl, decode_ared hw⟩
  | acas => exact ⟨_, rfl, decode_acas hw⟩
  | await => exact ⟨_, rfl, decode_await hw⟩
  | fence => exact ⟨_, rfl, decode_fence⟩
  | cntdec => exact ⟨_, rfl, decode_cntdec⟩
  | bararv => exact ⟨_, rfl, decode_bararv hw⟩
  | barwt => exact ⟨_, rfl, decode_barwt hw⟩
  | cpy => exact ⟨_, rfl, decode_cpy⟩
  | cpyb => exact ⟨_, rfl, decode_cpyb⟩
  | cploop => exact ⟨_, rfl, decode_cploop⟩
  | cpstat _ _ _ f =>
    cases f with
    | reg _ => exact ⟨_, rfl, decode_cpstat_reg hw⟩
    | imm _ => exact ⟨_, rfl, decode_cpstat_imm hw⟩
  | gmap => exact ⟨_, rfl, decode_gmap⟩
  | gunmap => exact ⟨_, rfl, decode_only1I (cpyG_fields 5 (by omega)) (fun _ e => by subst e; exact hw)⟩
  | gflush => exact ⟨_, rfl, decode_only1I (cpyG_fields 6 (by omega)) (fun _ e => by subst e; exact hw)⟩
  | ginv => exact ⟨_, rfl, decode_only1I (cpyG_fields 7 (by omega)) (fun _ e => by subst e; exact hw)⟩
  | ringcfg _ f =>
    cases f with
    | reg _ => exact ⟨_, rfl, decode_ringcfg_reg⟩
    | imm _ => exact ⟨_, rfl, decode_ringcfg_imm⟩
  | ringcfgOff _ f =>
    cases f with
    | reg _ => exact ⟨_, rfl, decode_ringcfgOff_reg⟩
    | imm _ => exact ⟨_, rfl, decode_ringcfgOff_imm⟩
  | rrel => exact ⟨_, rfl, decode_only1I (cpyG_fields 9 (by omega)) (fun _ e => by subst e; exact hw)⟩
  | stbind => exact ⟨_, rfl, decode_stbind (fun _ e => by subst e; exact hw)⟩
  | mwld => exact ⟨_, rfl, decode_mwld hw⟩
  | mwswap => exact ⟨_, rfl, decode_mtx (mtxG_fields 1 (by omega))⟩
  | mloop => exact ⟨_, rfl, decode_mloop hw⟩
  | mloopResume => exact ⟨_, rfl, decode_mloopResume⟩
  | mloopAbort => exact ⟨_, rfl, decode_mloopAbort⟩
  | maccld => exact ⟨_, rfl, decode_maccld hw⟩
  | maccst => exact ⟨_, rfl, decode_maccst hw⟩
  | mdrain => exact ⟨_, rfl, decode_mdrain hw⟩
  | mepi => exact ⟨_, rfl, decode_mepi hw⟩
  | mwait => exact ⟨_, rfl, decode_bare (mtxG_fields 7 (by omega))⟩
  | mzero => exact ⟨_, rfl, decode_mtx (mtxG_fields 8 (by omega))⟩
  | mstat => exact ⟨_, rfl, decode_mstat hw⟩
  | tjoin => exact ⟨_, rfl, decode_only1I (tsk_fields 0 (by omega)) (fun _ e => by subst e; exact hw)⟩
  | tleave => exact ⟨_, rfl, decode_only1I (tsk_fields 1 (by omega)) (fun _ e => by subst e; exact hw)⟩
  | tbar => exact ⟨_, rfl, decode_only1I (tsk_fields 2 (by omega)) (fun _ e => by subst e; exact hw)⟩
  | gbar => exact ⟨_, rfl, decode_bare (tsk_fields 3 (by omega))⟩
  | tsubmit => exact ⟨_, rfl, decode_only1 (tsk_fields 4 (by omega))⟩
  | tdepadd => exact ⟨_, rfl, decode_tdepadd hw⟩
  | tsignal => exact ⟨_, rfl, decode_tsignal⟩
  | tself => exact ⟨_, rfl, decode_tself hw⟩
  | cvswap => exact ⟨_, rfl, decode_cvswap hw⟩
  | lstart => exact ⟨_, rfl, decode_lstart⟩
  | lesc _ _ f =>
    cases f with
    | none => exact ⟨_, rfl, decode_lesc_none⟩
    | some _ => exact ⟨_, rfl, decode_lesc_some⟩
  | lres => exact ⟨_, rfl, decode_only1 (tsk_fields 11 (by omega))⟩
  | lframe => exact ⟨_, rfl, decode_lframe hw⟩
  | lstat => exact ⟨_, rfl, decode_lstat hw⟩
  | trap => exact ⟨_, rfl, decode_trap⟩
  | eret => exact ⟨_, rfl, decode_bare (sys_fields 1 (by omega))⟩
  | sysrd _ _ _ f =>
    cases f with
    | reg _ => exact ⟨_, rfl, decode_sysrd_reg hw⟩
    | imm _ => exact ⟨_, rfl, decode_sysrd_imm hw⟩
  | syswr _ _ _ f =>
    cases f with
    | reg _ => exact ⟨_, rfl, decode_syswr_reg⟩
    | imm _ => exact ⟨_, rfl, decode_syswr_imm hw⟩
  | icinv _ f =>
    cases f with
    | none => exact ⟨_, rfl, decode_icinv_none⟩
    | some _ => exact ⟨_, rfl, decode_icinv_some⟩
  | ppoll => exact ⟨_, rfl, decode_ppoll hw⟩
  | bkpt => exact ⟨_, rfl, decode_bkpt⟩
  | _ => cases word

/-- Settles O47: the encoding of an event is none (`encode_isSome`), and that of an instruction word is read back as the word (`decodes_encoding`, constructor by constructor). -/
theorem encodeDecode : Obligations.EncodeDecode := by
  intro i hw
  cases event : i.isEvent with
  | true =>
    have none : encode i = none := by rw [← Option.not_isSome_iff_eq_none, encode_isSome, event]; decide
    exact ⟨nofun, fun x hx => by rw [none] at hx; cases hx⟩
  | false =>
    obtain ⟨y, enc, dec⟩ := decodes_encoding i hw event
    refine ⟨fun _ => ⟨y, enc⟩, fun x hx => ?_⟩
    rw [enc] at hx
    cases hx
    exact dec

/-- Settles O46: each word is decoded by evaluation. -/
theorem decodesKnownWords : Obligations.DecodesKnownWords := by
  unfold Obligations.DecodesKnownWords
  refine ⟨?_, ?_, ?_, ?_, ?_, ?_, ?_, ?_, ?_, ?_, ?_, ?_, ?_, ?_⟩ <;> decide

theorem getD_groupMembers : ∀ g < 16, Claim.groupMembers.getD g 0 = groupSize g := by decide

/-- Settles O49: the function number is past the size of its group, so that the opcode is not assigned, which is the decoder's first check. -/
theorem unassignedOpcodesRejected : Obligations.UnassignedOpcodesRejected := by
  unfold Obligations.UnassignedOpcodesRejected
  intro x group f hg hf hx hn
  have opc : (Fields.unpack x).opc.toNat = 32 * group + f := hx
  have size : groupSize group ≤ f := getD_groupMembers group hg ▸ hn
  have un : opcAssigned (Fields.unpack x).opc = false := by
    unfold opcAssigned
    rw [opc, Nat.mul_add_mod, Nat.mod_eq_of_lt hf, Nat.mul_add_div (by decide), Nat.div_eq_of_lt hf]
    simpa using size
  simp [decode, Dec.fields, un]

end Sys2Proof
end

section
/-! SUPPORT. Device memory at reset (log entry 3), and the words that load and store (R107, R146, R149 to R154): each form of a load or a store, the operations that its
lanes issue, and what it leaves as it was at its issue (R397). -/

namespace Sys2Proof.Machine

/-- Settles O52: device memory lists no byte at reset, and an unlisted one reads 0. -/
theorem resetMemoryCanonical : Obligations.ResetMemoryCanonical := ⟨rfl, fun a => Memory.read_below (m := []) (lo := a + 1) rfl (Nat.lt_succ_self a)⟩

/-! ## The forms of loads and stores -/

/-- The check of a lane's access of `n` bytes, to the stash (R154) or to global memory (R149, R150). -/
def accessCheck (stash write : Bool) (n : Nat) (s : State) (l : Lane) (va : W64) : LaneRes :=
  if stash then laneStash s l.t va n n else laneGlobal s l.t.core l.t (if write then storeAcc va n else loadAcc va n)

/-- R107: a lane's access is placed where its check passes. -/
theorem placed_iff {s : State} {stash write : Bool} {n : Nat} {l : Lane} {va : W64} {T : Target} :
    Claim.placed s stash write n l va T ↔ accessCheck stash write n s l va = .ok T := by
  cases stash <;> exact Iff.rfl

/-- R149, R152, R154: LD, LDS and LDV are the loads of their forms. -/
theorem exec_of_loadForm {i : Instr} {f : Claim.LoadForm} (h : Claim.loadForm i = some f) (s : State) :
    exec i s = loadWord f.w f.m f.n f.sx f.hint f.cnt f.stash (accessCheck f.stash false f.n) s := by
  unfold Claim.loadForm at h
  split at h <;> cases h <;> rfl

/-- R150, R152, R154: ST, STS and STV are the stores of their forms. -/
theorem exec_of_storeForm {i : Instr} {f : Claim.StoreForm} (h : Claim.storeForm i = some f) (s : State) :
    exec i s = storeWord f.w f.m f.n f.hint f.stash f.data (accessCheck f.stash true f.n) s := by
  unfold Claim.storeForm at h
  split at h <;> cases h <;> rfl

theorem loadsIssue : Claim.LoadsIssue := by
  unfold Claim.LoadsIssue
  intro i f s g T form ready pass
  exact (exec_of_loadForm form s).trans (loadWord_ready ready (fun l hl => placed_iff.1 (pass l hl)))

theorem storesIssue : Claim.StoresIssue := by
  unfold Claim.StoresIssue
  intro i f s g T form ready pass
  exact (exec_of_storeForm form s).trans (storeWord_ready ready (fun l hl => placed_iff.1 (pass l hl)))

/-- R146: an index without SCL is scaled by 1. -/
theorem effectiveAddress : Claim.EffectiveAddress := fun l _ _ _ _ =>
  ⟨congrArg (l.v 0 + ·) (BitVec.mul_one _), rfl, rfl⟩

/-- Settles O27: the words of each form, and the three address forms. -/
theorem memoryWords : Obligations.MemoryWords := ⟨loadsIssue, storesIssue, effectiveAddress⟩

/-! ## The frame -/

/-- R397: without debug access, a word that issues operations for its lanes and ends leaves all but its group, its names and the outstanding operations. -/
theorem unwatchedOps_frame {w : Spec} {s : State} {g : Grp} {ops : List (Lane × NewOp)} (hg : s.grp = some g) (quiet : grantActive s g.ctx = false)
    (ho : ∀ p ∈ ops, p.1 ∈ lanesRead w s g) (ls : List (Lane × W64)) (n : Nat) (stash load store : Bool) :
    Issued .operation g.entry.members (namesOf w g) s
      (finishWord (watched (issueOps (afterReads w s g) g w ops) g ls n stash load store) g w.h) := by
  obtain ⟨hi, ht⟩ := issueOps_frame hg ho
  rw [watched_none ((grantActive_issued hi g.ctx).trans quiet)]
  exact finish_issued w.h hg hi ht

/-- Settles O55: a load or a store answers with its operations outstanding and nothing watched. -/
theorem memoryWordFrame : Obligations.MemoryWordFrame := by
  unfold Obligations.MemoryWordFrame
  intro i s g T quiet
  refine ⟨fun f form ready pass => ⟨_, loadsIssue i f s g T form ready pass, ?_⟩, fun f form ready pass => ⟨_, storesIssue i f s g T form ready pass, ?_⟩⟩
  all_goals exact unwatchedOps_frame ready.group quiet (List.forall_mem_map.2 (fun _ hl => hl)) _ _ _ _ _

end Sys2Proof.Machine
end

section
/-! SUPPORT. The events of the memory system (R87, R88, R93, R94, R99, R104, R150, R151, R157, R166, R229): what the operation of each answers where it takes place. -/

namespace Sys2Proof.Machine

/-! ## What the home admits -/

/-- R99: the home admits an access to device memory on a page in use. -/
theorem homeFault_device {s : State} {pa : Nat} (device : s.paKind pa = .device) (inUse : s.pageRetired pa = false) : s.homeFault pa = none := by
  simp [State.homeFault, device, inUse]

/-- R99: it refuses one to a page that has been retired, with RAS. -/
theorem homeFault_retired {s : State} {pa : Nat} (device : s.paKind pa = .device) (retired : s.pageRetired pa = true) : s.homeFault pa = some (0x0C, 3) := by
  simp [State.homeFault, device, retired]

/-- R399: outside the debug windows no wait finds a record closed. -/
theorem waitClosed_outside {s : State} {o : Op} {w : WordReq} (outside : s.dbgWindow w.pa = none) : s.waitClosed o w = false := by
  simp [State.waitClosed, State.dbgRefuses, outside]

/-- R94: the home refuses no operation on a word of device memory that stands on a page in use and in no debug window. -/
theorem homeRefuses_device {s : State} {o : Op} {w : WordReq} (device : s.paKind w.pa = .device) (inUse : s.pageRetired w.pa = false)
    (outside : s.dbgWindow w.pa = none) : homeRefuses s o w = none := by
  simp [homeRefuses, device, homeFault_device device inUse, outside, waitClosed_outside outside]

/-! ## Stores -/

theorem storesPerformed : Claim.StoresPerformed := by
  unfold Claim.StoresPerformed
  intro id o t s ho ht order
  refine ⟨fun tg n hint data kind free allowed => ?_, fun tg n hint data f kind free late => ?_, fun src slot ty w r j kind pending noToken => ?_⟩
  · exact happens_some (r := storeDone s id) (by simp [storeDone, ho, ht, kind, order, free, allowed])
  · exact happens_some (r := storeDone s id) (by simp [storeDone, ho, ht, kind, order, free, late])
  · exact happens_some (r := storeDone s id) (by simp [storeDone, ho, ht, kind, order, pending, noToken])

/-! ## Lines -/

theorem linesMove : Claim.LinesMove := by
  unfold Claim.LinesMove
  refine ⟨fun core line s held idle => ?writeBack, fun die ctx page w s u found hu => ?walk, fun line ctx s device absent inUse => ?fill,
    fun line ctx n s view absent idle admitted => ?viewFill, fun line n v s view held => ?split⟩
  case writeBack => exact happens_some (r := l1Evict s core line) (by simp [l1Evict, held, idle])
  case walk =>
    subst hu
    exact happens_some (r := walkDone s die ctx page) (by unfold walkDone; rw [found]; rfl)
  case fill => exact happens_some (r := valeFills s line ctx) (by simp [valeFills, device, absent, inUse])
  case viewFill => exact happens_some (r := colFills s line ctx) (by simp [colFills, view, absent, idle, admitted])
  case split => exact happens_some (r := colWritesBack s line) (by simp [colWritesBack, view, held])

/-! ## Operations at their homes -/

/-- R94: an operation that its order lets act, on a word that no flush holds back, is refused or performed at its home. -/
theorem exec_homeWordOperation {id : Nat} {o : Op} {w : WordReq} {s : State} (ho : s.op id = some o) (kind : o.kind = .word w) (pending : o.result = none)
    (away : w.here = false) (order : orderAllows s o = true) (ready : submitReady s o w = true) (idle : s.viewBusy w.pa = false) (ours : s.paKind w.pa ≠ .peer) :
    exec (.homeWordOperation id) s = .next ((homeRefuses s o w).elim (homeDoes s o w) (fun u => wordEnd u id)) :=
  happens_some (r := homeOp s id) (by
    simp only [homeOp, ho, kind, pending, away, order, ready, idle, ours]
    cases homeRefuses s o w <;> rfl)

/-- The state in which an operation without a wait acts: the core's copy of the line, and what a submission writes back, are home (R157, R328). -/
def flushedFor (s : State) (o : Op) (w : WordReq) : State :=
  match w.op with
  | .submit _ l => submitFlush (l1Flush s o.core (w.pa / 128)) o l
  | _ => l1Flush s o.core (w.pa / 128)

theorem flushedFor_submit {s : State} {o : Op} {w : WordReq} {q : Option Nat} {l : Option W64} (submits : w.op = .submit q l) :
    flushedFor s o w = submitFlush (l1Flush s o.core (w.pa / 128)) o l := by
  unfold flushedFor
  rw [submits]

theorem flushedFor_word {s : State} {o : Op} {w : WordReq} (noSubmit : ∀ q l, w.op ≠ .submit q l) : flushedFor s o w = l1Flush s o.core (w.pa / 128) := by
  unfold flushedFor
  split
  case h_1 q l submits => exact absurd submits (noSubmit q l)
  case h_2 => rfl

/-- R94, R157: an operation without a wait is performed, or left without effect but for the value that it answers. -/
theorem homeDoes_acts {s : State} {o : Op} {w : WordReq} (acts : w.op.waits = false) (plain : w.cpl = false) :
    homeDoes s o w = wordEnd (if (wordDo (Claim.handsOn (flushedFor s o w) o w) o w).ok then
      (wordDo (Claim.handsOn (flushedFor s o w) o w) o w).s.updOp o.id (fun p => { p with result := some (wordDo (Claim.handsOn (flushedFor s o w) o w) o w).val })
      else (flushedFor s o w).wordRefused o (wordDo (Claim.handsOn (flushedFor s o w) o w) o w).val) o.id := by
  simp only [homeDoes, acts, plain, Bool.false_eq_true, if_false]
  rfl

theorem homesPerform : Claim.HomesPerform := by
  unfold Claim.HomesPerform
  intro id o w s ho kind
  refine ⟨fun pending away order ready idle => ⟨?acts, ?submits, ?waits, ?view, ?retired⟩, ?expires⟩
  case acts =>
    intro u r device inUse outside acts plain noSubmit hu hr
    subst hu hr
    rw [exec_homeWordOperation ho kind pending away order ready idle (by simp [device]), homeRefuses_device device inUse outside, Option.elim_none,
      homeDoes_acts acts plain, flushedFor_word noSubmit, State.op_id ho]
  case submits =>
    intro q l u r submits device inUse outside plain hu hr
    subst hu hr
    rw [exec_homeWordOperation ho kind pending away order ready idle (by simp [device]), homeRefuses_device device inUse outside, Option.elim_none,
      homeDoes_acts (by rw [submits]; rfl) plain, flushedFor_submit submits, State.op_id ho]
  case waits =>
    intro u v d x device inUse outside waits hu hread hx
    rw [exec_homeWordOperation ho kind pending away order ready idle (by simp [device]), homeRefuses_device device inUse outside, ← State.op_id ho]
    subst hu hx
    simp only [Option.elim, homeDoes, waits, if_true, hread]
  case view =>
    intro n u v view inUse hread
    rw [exec_homeWordOperation ho kind pending away order ready idle (by simp [view])]
    simp [homeRefuses, view, inUse, hread]
  case retired =>
    intro u v device retired hread
    rw [exec_homeWordOperation ho kind pending away order ready idle (by simp [device])]
    simp [homeRefuses, device, homeFault_retired device retired, hread, State.op_id ho]
  case expires =>
    intro u d stands pending early device inUse outside hread
    exact happens_some (r := awaitExpire s id) (by
      simp [awaitExpire, ho, kind, stands, pending, early, device, homeFault_device device inUse, waitClosed_outside outside, hread])

/-- Settles O35: each event where its rule lets it take place. -/
theorem memoryEvents : Obligations.MemoryEvents := ⟨storesPerformed, linesMove, homesPerform⟩

end Sys2Proof.Machine
end

section
/-! SUPPORT. The events of errors (R97 to R100, R235, R383) and of the check of a code page (R382): what the operation of each answers where it takes place. -/

namespace Sys2Proof.Machine

/-! ## Errors -/

/-- R383: an error in a store other than a parity store or a clean L1 line ends the context that owns data in it, or is counted. -/
theorem softError_owned {s : State} {core c : Nat} {st : CoreStore} (owned : ownsIn s core c st = true) (noParity : st ≠ .parityStore) (noClean : st ≠ .l1Clean)
    (bad : Bool) : softError s core c st bad = some (if bad then killContext s c 0x0C else countCorrected s) := by
  simp [softError, owned]

/-- R383: one in a clean line of an L1 drops the line, or is counted. -/
theorem softError_clean {s : State} {core c : Nat} (owned : ownsIn s core c .l1Clean = true) (bad : Bool) :
    softError s core c .l1Clean bad = some (if bad then dropCleanLine s core c else countCorrected s) := by
  simp [softError, owned]

theorem errorsHandled : Claim.ErrorsHandled := by
  unfold Claim.ErrorsHandled
  refine ⟨fun line s held => ?correctable, fun line v s held clean => ?clean, fun line way v s held dirty => ?dirty, fun line way s absent => ?locked,
    fun line c q s u device absent free => ?stack, fun core c st s owned noParity noClean => ⟨?_, ?_⟩, fun core c s owned => ⟨?_, ?_⟩,
    fun core gid g a s u holds hg free => ?array⟩
  case correctable => exact happens_some (if_pos (by simpa [Option.isSome_iff_ne_none] using held))
  case clean => exact happens_some (r := cleanError s line) (by simp [cleanError, held, clean])
  case dirty => exact happens_some (r := dirtyError s line way) (by simp [dirtyError, held, dirty])
  case locked =>
    have e : dirtyError s line way = (lockedOwner s line).map (fun c => rasSteps s line c way 1) := by simp [dirtyError, absent]
    exact congrArg (fun r => happens s r) e
  case stack => exact happens_some (r := stackError s line c) (by simp [stackError, device, absent, free])
  case array => exact happens_some (r := arrayError s core) (by simp [arrayError, holds, hg, free])
  · exact happens_some (softError_owned owned noParity noClean true)
  · exact happens_some (softError_owned owned noParity noClean false)
  · exact happens_some (softError_clean owned true)
  · exact happens_some (softError_clean owned false)

/-! ## Code pages -/

theorem pagesVerified : Claim.PagesVerified := by
  unfold Claim.PagesVerified
  intro c page d entry s asked idle listed
  refine happens_some (r := verifyPage s c page) ?_
  simp only [verifyPage, List.contains_iff_mem.2 asked, idle, listed, Bool.not_true, Bool.or_self, Bool.false_eq_true, if_false]
  split <;> rfl

/-- Settles O37: the errors, and the check of a listed page. -/
theorem errorEvents : Obligations.ErrorEvents := ⟨errorsHandled, pagesVerified⟩

end Sys2Proof.Machine
end

section
/-! SUPPORT. The events of the host and the peers (R89 to R91, R283, R421 to R424, R426, R427, R432): what a write of a window's CTL, an access to memory and a write of a
register of the control window answer. -/

namespace Sys2Proof.Machine

/-! ## Windows -/

/-- R91: a flush that is complete takes effect. -/
theorem exec_frwFlushComplete {n : Nat} {s : State} (flushing : (frwOf s n).flush = true) : exec (.frwFlushComplete n) s = .next (s.flushView n) :=
  happens_some (r := flushDone s n) (if_pos flushing)

theorem windowsControlled : Claim.WindowsControlled := by
  unfold Claim.WindowsControlled
  intro n v s hn ready
  refine ⟨fun w hw off noClear => ?enable, fun on noClear => ?disable, fun on enabled noClear => ?flush, fun on enabled noFlush => ?clear, fun u flushing hu => ?complete⟩
  case enable =>
    subst hw
    exact congrArg Host.Outcome.next ((hostCtl_ready s n _ hn ready).trans (ctlWrite_enables s n _ (by simp [frwEn]) (by rw [BitVec.getLsbD_or, noClear]; rfl) off))
  case disable =>
    exact congrArg Host.Outcome.next ((hostCtl_ready s n _ hn ready).trans (ctlWrite_closes s n _ (by simp [frwEn]) (by rw [BitVec.getLsbD_and, noClear]; rfl) on))
  case flush =>
    exact congrArg Host.Outcome.next ((hostCtl_ready s n _ hn ready).trans (ctlWrite_flushes s n _ (by simp [enabled]) (by rw [BitVec.getLsbD_or, noClear]; rfl) (by simp) on))
  case clear =>
    exact congrArg Host.Outcome.next ((hostCtl_ready s n _ hn ready).trans (ctlWrite_clearsRsv s n _ (by simp [enabled]) (by simp) (by rw [BitVec.getLsbD_or, noFlush]; rfl) on))
  case complete =>
    subst hu
    exact exec_frwFlushComplete flushing

/-! ## Accesses -/

/-- R326, R423: a submission of an aligned record in device memory, outside the debug windows, is the home's. -/
theorem hostSubmit_admitted {s : State} {c q pa : Nat} {v : W64} (resident : (s.ctx c).st = 1) (aligned : v.toNat % 128 = 0)
    (place : translateDirect s c v rightsRW = .ok pa) (device : s.paKind pa = .device) (outside : s.dbgMeets (pa, 128) = false)
    (ok : (submit (s.stampWrite (pa / 128)) c v pa (some q) none).ok = true) :
    hostSubmit s c q v = (submit (s.stampWrite (pa / 128)) c v pa (some q) none).s := by
  simp [hostSubmit, resident, aligned, place, device, outside, ok]

/-- R283, R421: an access of the host to device memory, on a page in use and outside the debug windows, by a free context's tag (log entry 43). -/
theorem memoryAccess_admitted {s u : State} {pa n : Nat} {v q : W64} (write : Bool) (device : s.paKind pa = .device) (inUse : s.pageRetired pa = false)
    (outside : s.dbgWindow pa = none) (free : s.free = (q, u)) :
    memoryAccess s write pa n v = if write then u.agentWriteN pa n (q.toNat % 64) v.toNat
      else { ((u.stampRead (pa / 128)).homeReadN pa n (q.toNat % 64)).1 with
        lastRead := BitVec.ofNat 128 ((u.stampRead (pa / 128)).homeReadN pa n (q.toNat % 64)).2 } := by
  simp [memoryAccess, device, inUse, outside, free]

/-- R421: an aligned access outside control space, after READY, is one of memory. -/
theorem hostAccess_memory {s : State} {pa n : Nat} {v : W64} (write : Bool) (size : n ∈ [1, 2, 4, 8]) (aligned : pa % n = 0) (ready : s.ident.ready = true)
    (memory : pa < 0x8000000000000 ∨ 0x8000100000000 ≤ pa) : hostAccess s write pa n v = some (memoryAccess s write pa n v) := by
  have noControl : (decide (0x8000000000000 ≤ pa) && decide (pa < 0x8000100000000)) = false := by
    rw [Bool.and_eq_false_iff, decide_eq_false_iff_not, decide_eq_false_iff_not]
    omega
  simp only [hostAccess, List.contains_iff_mem.2 size, aligned, ready, noControl]
  simp

/-- R283, R427: an access of a peer that a grant admits, on a page in use and outside the debug windows, acts under the grant's context. -/
theorem peerDoes_granted {s : State} {peer pa n : Nat} {acc : PeerAcc} {g : Grant} (size : Peer.sized acc n = true) (aligned : pa % n = 0)
    (grant : grantFor s peer acc pa n = some g) (ready : s.ident.ready = true) (device : s.paKind pa = .device) (inUse : s.pageRetired pa = false)
    (outside : s.dbgWindow pa = none) : peerDoes s peer acc pa n = some (peerActs s (g.w1.extractLsb' 40 6).toNat pa n acc) := by
  simp [peerDoes, size, aligned, grant, ready, device, homeFault_device device inUse, outside]

theorem hostAccesses : Claim.HostAccesses := by
  unfold Claim.HostAccesses
  refine ⟨fun c q pa v s r hc hq ready resident aligned place device outside hr ok => ?submission,
    fun pa n v q s u size aligned ready device inUse outside memory free => ⟨?write, ?read⟩,
    fun peer pa n c g s size aligned ready device inUse outside hc => ⟨fun v grant => ?peerWrite, fun grant => ?peerRead⟩, fun levels s named => ?links⟩
  case submission =>
    subst hr
    have inRange : (decide (Config.contexts ≤ c) || decide (64 ≤ q)) = false := by simp [hc, hq]
    show Host.Outcome.next (if (decide (Config.contexts ≤ c) || decide (64 ≤ q)) = true then s else whenReady s _ (fun s => hostSubmit s c q v)) = _
    rw [inRange, whenReady, if_neg Bool.false_ne_true, if_pos ready, hostSubmit_admitted resident aligned place device outside ok]
  case write => exact happens_some ((hostAccess_memory true size aligned ready memory).trans (congrArg some (memoryAccess_admitted true device inUse outside free)))
  case read => exact happens_some ((hostAccess_memory false size aligned ready memory).trans (congrArg some (memoryAccess_admitted false device inUse outside free)))
  case peerWrite =>
    subst hc
    exact happens_some (peerDoes_granted (List.contains_iff_mem.2 size) aligned grant ready device inUse outside)
  case peerRead =>
    subst hc
    exact happens_some (peerDoes_granted (List.contains_iff_mem.2 size) aligned grant ready device inUse outside)
  case links =>
    have kept : levels.filter (fun p => decide (p.1 < 1024) && decide (3 ≤ p.2) && decide (p.2 ≤ 7)) = levels := by
      rw [List.filter_eq_self]
      intro p hp
      obtain ⟨peer, low, high⟩ := named p hp
      simp [peer, low, high]
    exact congrArg (fun l => Host.Outcome.next { s with levels := l }) kept

/-! ## Registers -/

/-- R421: a write of an aligned word of the control window. -/
theorem exec_registerWrite {off : Nat} {v : W64} {s : State} (aligned : off % 8 = 0) : exec (.registerWrite off v) s = .next (barWrite s off v) :=
  congrArg Host.Outcome.next (if_pos aligned)

/-- R421, R428: outside the identity block a write before READY is refused. -/
theorem barWrite_notReady {s : State} {off : Nat} {v : W64} (outside : 0x10000 ≤ off) (early : s.ident.ready = false) :
    barWrite s off v = hostRefused s (bar0 off) := by
  simp [barWrite, Nat.not_lt.2 outside, early]

/-- R432: the REQ registers stand at 0x10000. -/
theorem barWrite_power {s : State} {d : Nat} {v : W64} (hd : d < 8) (ready : s.ident.ready = true) :
    barWrite s (0x10000 + 8 * d) v = powerRequest s d (v.extractLsb' 0 2).toNat := by
  simp [barWrite, ready, show 0x10000 + 8 * d < 0x10040 by omega]

/-- R424: the error log's tail stands at 0x20008. -/
theorem barWrite_logTail {s : State} {v : W64} (ready : s.ident.ready = true) : barWrite s 0x20008 v = { s with eltail := v.toNat } := by
  simp [barWrite, ready]

/-- R422: register `r` of context `c` stands at 0x100000 + 0x100 c + r. -/
theorem barWrite_context {s : State} {c r : Nat} {v : W64} (hc : c < 64) (hr : r < 0x38) (ready : s.ident.ready = true) :
    barWrite s (0x100000 + 0x100 * c + r) v = contextWrite s c r v := by
  have number : (0x100000 + 0x100 * c + r - 0x100000) / 256 = c := by omega
  have register : (0x100000 + 0x100 * c + r) % 256 = r := by omega
  unfold barWrite
  dsimp only
  rw [if_neg (by omega), if_neg (by simp [ready]), if_neg (by omega), if_neg (by omega), if_neg (by simp; omega), if_pos (by simp; omega), number, register,
    if_neg (by omega)]

theorem registerWrites : Claim.RegisterWrites := by
  unfold Claim.RegisterWrites
  refine fun v s => ⟨fun ready => ?tail, fun d hd ready => ?power, fun c hc ready free => ⟨?cfg, ?root⟩, fun off early outside aligned => ?refused⟩
  case tail => rw [exec_registerWrite (by decide), barWrite_logTail ready]
  case power => rw [exec_registerWrite (by omega), barWrite_power hd ready]
  case cfg =>
    rw [exec_registerWrite (by omega), ← Nat.add_zero (0x100000 + 0x100 * c), barWrite_context hc (by decide) ready]
    simp [contextWrite, free]
  case root =>
    rw [exec_registerWrite (by omega), show 0x100008 + 0x100 * c = 0x100000 + 0x100 * c + 8 by omega, barWrite_context hc (by decide) ready]
    simp [contextWrite, free]
  case refused => rw [exec_registerWrite aligned, barWrite_notReady outside early]

/-- Settles O43: the windows, the accesses and the registers. -/
theorem hostEvents : Obligations.HostEvents := ⟨windowsControlled, hostAccesses, registerWrites⟩

end Sys2Proof.Machine
end

section
/-! SUPPORT. What the operations on the state do to the memory of the device (log entry 3). A lemma `f_mem` says that `f` leaves the memory as it is, a lemma
`f_wf` that it keeps it in canonical form: the memory changes where a line is written to the stacks, and such a line leaves it in canonical form. What holds by
definition is closed `by rfl`: as the term `rfl` simp would take it for a definitional rule, and not use it in the side goal of a fold. -/

namespace Sys2Proof.Machine

/-! ## Cases and folds -/

@[simp] theorem ite_mem (c : Prop) [Decidable c] (s u : State) : (if c then s else u).mem = if c then s.mem else u.mem := apply_ite State.mem c s u

theorem ite_wf {c : Prop} [Decidable c] {s u : State} (hs : Memory.wf s.mem = true) (hu : Memory.wf u.mem = true) :
    Memory.wf (if c then s else u).mem = true := by
  split
  · exact hs
  · exact hu

@[simp] theorem foldl_mem {α : Type} (l : List α) (f : State → α → State) (s : State) (h : ∀ s a, (f s a).mem = s.mem) :
    (l.foldl f s).mem = s.mem := by
  induction l generalizing s with
  | nil => rfl
  | cons a as ih => exact (ih (f s a)).trans (h s a)

theorem foldl_wf {α : Type} (l : List α) (f : State → α → State) {s : State} (hw : Memory.wf s.mem = true)
    (h : ∀ s a, Memory.wf s.mem = true → Memory.wf (f s a).mem = true) : Memory.wf (l.foldl f s).mem = true :=
  List.foldlRecOn l f (motive := fun u : State => Memory.wf u.mem = true) hw fun u hu a _ => h u a hu

@[simp] theorem foldl_fst_mem {α β : Type} (l : List α) (f : State × β → α → State × β) (p : State × β) (h : ∀ p a, (f p a).1.mem = p.1.mem) :
    (l.foldl f p).1.mem = p.1.mem := by
  induction l generalizing p with
  | nil => rfl
  | cons a as ih => exact (ih (f p a)).trans (h p a)

@[simp] theorem foldl_snd_mem {α β : Type} (l : List α) (f : β × State → α → β × State) (p : β × State) (h : ∀ p a, (f p a).2.mem = p.2.mem) :
    (l.foldl f p).2.mem = p.2.mem := by
  induction l generalizing p with
  | nil => rfl
  | cons a as ih => exact (ih (f p a)).trans (h p a)

theorem foldl_fst_wf {α β : Type} (l : List α) (f : State × β → α → State × β) {p : State × β} (hw : Memory.wf p.1.mem = true)
    (h : ∀ p a, Memory.wf p.1.mem = true → Memory.wf (f p a).1.mem = true) : Memory.wf (l.foldl f p).1.mem = true :=
  List.foldlRecOn l f (motive := fun q : State × β => Memory.wf q.1.mem = true) hw fun q hq a _ => h q a hq

theorem foldl_snd_wf {α β : Type} (l : List α) (f : β × State → α → β × State) {p : β × State} (hw : Memory.wf p.2.mem = true)
    (h : ∀ p a, Memory.wf p.2.mem = true → Memory.wf (f p a).2.mem = true) : Memory.wf (l.foldl f p).2.mem = true :=
  List.foldlRecOn l f (motive := fun q : β × State => Memory.wf q.2.mem = true) hw fun q hq a _ => h q a hq

/-! ## The one write to the stacks -/

/-- Only this function changes the memory of the device, and what it leaves is in canonical form. -/
@[simp] theorem State.stackWrite_wf (s : State) (line : Nat) (d : Line) (hw : Memory.wf s.mem = true) : Memory.wf (s.stackWrite line d).mem = true := by
  have written : (s.stackWrite line d).mem = LineOps.toCells s.mem line d := by simp only [State.stackWrite]
  rw [written]
  exact LineOps.wf_toCells line d hw

/-! ## Free choices and peers -/

@[simp] theorem State.freeWords_mem (s : State) (m : Nat) : (State.freeWords s m).1.mem = s.mem := by
  induction m generalizing s with
  | zero => rfl
  | succ n ih => exact ih s.free.2

@[simp] theorem State.peerRead_mem (s : State) (n : Nat) : (State.peerRead s n).1.mem = s.mem := by simp [State.peerRead]

/-! ## The debug window (R398 to R403) -/

theorem State.dbgWrite_mem (s : State) (c off v : Nat) {u : State} (hu : State.dbgWrite s c off v = some u) : u.mem = s.mem := by
  unfold State.dbgWrite at hu
  dsimp only at hu
  split at hu
  · cases hu
  · split at hu
    · obtain ⟨x, -, rfl⟩ := Option.map_eq_some_iff.mp hu
      exact State.setCtx_mem _ _ _
    · split at hu
      · cases hu
      · split at hu
        · cases hu
        · obtain ⟨e, -, rfl⟩ := Option.map_eq_some_iff.mp hu
          exact State.updThread_mem _ _ _

@[simp] theorem State.dbgRefused_mem (s : State) (c pa : Nat) : (State.dbgRefused s c pa).mem = s.mem := by simp [State.dbgRefused]

@[simp] theorem State.dbgStore_mem (s : State) (c line : Nat) (m : LineMask) (d : Line) : (State.dbgStore s c line m d).mem = s.mem := by
  unfold State.dbgStore
  grind [foldl_mem, State.dbgWrite_mem, State.dbgRefused_mem]

/-! ## The stacks, the Vale and the homes (R81 to R94) -/

@[simp] theorem State.setLease_mem (s : State) (l : Lease) : (State.setLease s l).mem = s.mem := by rfl

@[simp] theorem State.stampWrite_mem (s : State) (line : Nat) : (State.stampWrite s line).mem = s.mem := by rfl

@[simp] theorem State.stampRead_mem (s : State) (line : Nat) : (State.stampRead s line).mem = s.mem := by rfl

@[simp] theorem State.setClock_mem (s : State) (tid c : Nat) : (State.setClock s tid c).mem = s.mem := by rfl

@[simp] theorem State.timedWrite_mem (s : State) (tid line : Nat) : (State.timedWrite s tid line).mem = s.mem := by rfl

@[simp] theorem State.releaseAt_mem (s : State) (line time : Nat) : (State.releaseAt s line time).mem = s.mem := by simp [State.releaseAt]

@[simp] theorem State.wordDone_mem (s : State) (o : Op) (w : WordReq) (v : Nat) : (State.wordDone s o w v).mem = s.mem := by simp [State.wordDone]

@[simp] theorem State.accessRefused_mem (s : State) (o : Op) (tid code sub : Nat) (va addr : W64) :
    (State.accessRefused s o tid code sub va addr).mem = s.mem := by simp [State.accessRefused]

@[simp] theorem State.wordRefused_mem (s : State) (o : Op) (v : Nat) : (State.wordRefused s o v).mem = s.mem := by simp [State.wordRefused]

@[simp] theorem State.wordTest_mem (s : State) (o : Op) (w : WordReq) (d : Line) (early : Bool) : (State.wordTest s o w d early).mem = s.mem := by
  unfold State.wordTest
  split <;> simp

@[simp] theorem State.peerAnswer_mem (s : State) (w : PeerWait) (v : Nat) : (State.peerAnswer s w v).mem = s.mem := by rfl

@[simp] theorem State.peerRefused_mem (s : State) (c pa code sub : Nat) :
    (State.peerRefused s c pa code sub).mem = s.mem := by simp [State.peerRefused]

@[simp] theorem State.peerTest_mem (s : State) (w : PeerWait) (d : Line) (early : Bool) : (State.peerTest s w d early).mem = s.mem := by
  unfold State.peerTest
  split <;> simp

@[simp] theorem State.waitShut_mem (s : State) (o : Op) (w : WordReq) : (State.waitShut s o w).mem = s.mem := by simp [State.waitShut]

@[simp] theorem State.peerShut_mem (s : State) (w : PeerWait) : (State.peerShut s w).mem = s.mem := by simp [State.peerShut]

@[simp] theorem State.retest_mem (s : State) (line : Nat) (d : Line) : (State.retest s line d).mem = s.mem := by
  unfold State.retest
  grind [foldl_mem, State.waitShut_mem, State.wordTest_mem, State.peerShut_mem, State.peerTest_mem]

@[simp] theorem State.setVale_mem (s : State) (v : ValeLine) : (State.setVale s v).mem = s.mem := by rfl

@[simp] theorem State.dropVale_mem (s : State) (line : Nat) : (State.dropVale s line).mem = s.mem := by rfl

@[simp] theorem State.fillDev_mem (s : State) (line ctx : Nat) : (State.fillDev s line ctx).mem = s.mem := by
  unfold State.fillDev
  split <;> simp

@[simp] theorem State.cleanDev_wf (s : State) (line : Nat) (hw : Memory.wf s.mem = true) : Memory.wf (State.cleanDev s line).mem = true := by
  unfold State.cleanDev
  (repeat' split) <;> simp [hw]

@[simp] theorem State.unverify_mem (s : State) (line : Nat) (m : LineMask) : (State.unverify s line m).mem = s.mem := by rfl

@[simp] theorem State.writeDev_wf (s : State) (line ctx : Nat) (m : LineMask) (d : Line) (hw : Memory.wf s.mem = true) :
    Memory.wf (State.writeDev s line ctx m d).mem = true := by
  unfold State.writeDev
  dsimp only
  (repeat' split) <;> simp [hw]

@[simp] theorem State.devWriteBytes_wf (s : State) (ctx pa : Nat) (l : List Byte) (hw : Memory.wf s.mem = true) :
    Memory.wf (State.devWriteBytes s ctx pa l).mem = true := by
  unfold State.devWriteBytes
  exact foldl_wf _ _ (by simp [hw]) fun s a hw => by simp [hw]

@[simp] theorem State.planeWrite_wf (s : State) (ctx pa : Nat) (l : List Byte) (hw : Memory.wf s.mem = true) :
    Memory.wf (State.planeWrite s ctx pa l).mem = true := by
  unfold State.planeWrite
  split <;> simp [hw]

@[simp] theorem State.colSplit_wf (s : State) (n line ctx : Nat) (d : Line) (hw : Memory.wf s.mem = true) :
    Memory.wf (State.colSplit s n line ctx d).mem = true := by
  unfold State.colSplit
  dsimp only
  (repeat' split) <;> simp [hw]

@[simp] theorem State.markRsv_mem (s : State) (n die : Nat) : (State.markRsv s n die).mem = s.mem := by rfl

@[simp] theorem State.fillViewOne_mem (s : State) (n line ctx : Nat) : (State.fillViewOne s n line ctx).mem = s.mem := by
  unfold State.fillViewOne
  split <;> simp

@[simp] theorem State.fillView_mem (s : State) (n line ctx : Nat) : (State.fillView s n line ctx).mem = s.mem := by simp [State.fillView]

@[simp] theorem State.cleanLine_wf (s : State) (line : Nat) (hw : Memory.wf s.mem = true) : Memory.wf (State.cleanLine s line).mem = true := by
  unfold State.cleanLine
  (repeat' split) <;> simp [hw]

@[simp] theorem State.flushView_wf (s : State) (n : Nat) (hw : Memory.wf s.mem = true) : Memory.wf (State.flushView s n).mem = true := by
  unfold State.flushView
  exact foldl_wf _ _ (by simp [hw]) fun s a hw => by simp [hw]

@[simp] theorem State.settleView_wf (s : State) (pa : Nat) (hw : Memory.wf s.mem = true) : Memory.wf (State.settleView s pa).mem = true := by
  unfold State.settleView
  (repeat' split) <;> simp [hw]

@[simp] theorem State.fillHome_wf (s : State) (line ctx : Nat) (hw : Memory.wf s.mem = true) : Memory.wf (State.fillHome s line ctx).mem = true := by
  unfold State.fillHome
  split <;> simp [hw]

@[simp] theorem State.homeRead_wf (s : State) (line ctx : Nat) (hw : Memory.wf s.mem = true) :
    Memory.wf (State.homeRead s line ctx).1.mem = true := by
  unfold State.homeRead
  split <;> simp [hw]

@[simp] theorem State.memWrite_wf (s : State) (line ctx : Nat) (m : LineMask) (d : Line) (hw : Memory.wf s.mem = true) :
    Memory.wf (State.memWrite s line ctx m d).mem = true := by
  unfold State.memWrite
  dsimp only
  rw [State.retest_mem, State.setVale_mem, State.unverify_mem]
  apply State.fillHome_wf
  split
  · split <;> simp [hw]
  · simp [hw]

@[simp] theorem State.homeWrite_wf (s : State) (line ctx : Nat) (m : LineMask) (d : Line) (hw : Memory.wf s.mem = true) :
    Memory.wf (State.homeWrite s line ctx m d).mem = true := by
  unfold State.homeWrite
  dsimp only
  (repeat' split) <;> simp [hw]

@[simp] theorem State.dbgTouch_mem (s : State) (c off : Nat) : (State.dbgTouch s c off).mem = s.mem := by simp [State.dbgTouch]

@[simp] theorem State.homeReadN_wf (s : State) (pa n ctx : Nat) (hw : Memory.wf s.mem = true) :
    Memory.wf (State.homeReadN s pa n ctx).1.mem = true := by simp [State.homeReadN, hw]

@[simp] theorem State.homeWriteN_wf (s : State) (pa n ctx v : Nat) (hw : Memory.wf s.mem = true) :
    Memory.wf (State.homeWriteN s pa n ctx v).mem = true := by simp [State.homeWriteN, hw]

@[simp] theorem State.agentWriteN_wf (s : State) (pa n ctx v : Nat) (hw : Memory.wf s.mem = true) :
    Memory.wf (State.agentWriteN s pa n ctx v).mem = true := by simp [State.agentWriteN, hw]

/-! ## The data paths of a core (R113, R119, R148) -/

@[simp] theorem l1Set_mem (s : State) (core : Nat) (l : L1Line) : (l1Set s core l).mem = s.mem := by rfl

@[simp] theorem l1Drop_mem (s : State) (core line : Nat) : (l1Drop s core line).mem = s.mem := by rfl

@[simp] theorem cacheWrite_wf (s : State) (core line ctx : Nat) (m : LineMask) (d : Line) (hw : Memory.wf s.mem = true) :
    Memory.wf (cacheWrite s core line ctx m d).mem = true := by
  unfold cacheWrite
  (repeat' split) <;> simp [hw]

@[simp] theorem l1Clean_wf (s : State) (core line : Nat) (hw : Memory.wf s.mem = true) : Memory.wf (l1Clean s core line).mem = true := by
  unfold l1Clean
  (repeat' split) <;> simp [hw]

@[simp] theorem l1Flush_wf (s : State) (core line : Nat) (hw : Memory.wf s.mem = true) :
    Memory.wf (l1Flush s core line).mem = true := by simp [l1Flush, hw]

@[simp] theorem l1Fill_wf (s : State) (core line ctx : Nat) (count : Option Nat) (hw : Memory.wf s.mem = true) :
    Memory.wf (l1Fill s core line ctx count).mem = true := by
  unfold l1Fill
  split <;> simp [hw]

@[simp] theorem l1Count_mem (s : State) (core line : Nat) : (l1Count s core line).mem = s.mem := by
  unfold l1Count
  (repeat' split) <;> simp

@[simp] theorem l1Load_wf (s : State) (core ctx pa n : Nat) (hint : Hint) (cnt : Nat) (now : Bool) (hw : Memory.wf s.mem = true) :
    Memory.wf (l1Load s core ctx pa n hint cnt now).1.mem = true := by
  unfold l1Load
  grind [l1Count_mem, State.homeReadN_wf, l1Fill_wf]

@[simp] theorem l1Store_wf (s : State) (core ctx pa n v : Nat) (hint : Hint) (hw : Memory.wf s.mem = true) :
    Memory.wf (l1Store s core ctx pa n v hint).mem = true := by
  unfold l1Store
  grind [State.homeWriteN_wf, l1Clean_wf, l1Fill_wf, l1Set_mem]

@[simp] theorem l1Range_wf (s : State) (core : Nat) (hit : Nat → Bool) (inv : Bool) (hw : Memory.wf s.mem = true) :
    Memory.wf (l1Range s core hit inv).mem = true := by
  unfold l1Range
  refine foldl_wf _ _ hw fun s l hs => ?_
  split <;> simp [hs]

@[simp] theorem leaseFill_wf (s : State) (core ctx line time : Nat) (hw : Memory.wf s.mem = true) :
    Memory.wf (leaseFill s core ctx line time).mem = true := by simp [leaseFill, hw]

@[simp] theorem dropStale_mem (s : State) (core time : Nat) : (dropStale s core time).mem = s.mem := by rfl

@[simp] theorem acquired_mem (s : State) (tid time : Nat) : (acquired s tid time).mem = s.mem := by
  unfold acquired
  split <;> simp

@[simp] theorem coupledLoad_wf (s : State) (core ctx tid pa n : Nat) (hw : Memory.wf s.mem = true) :
    Memory.wf (coupledLoad s core ctx tid pa n).1.mem = true := by
  unfold coupledLoad
  dsimp only
  (repeat' split) <;> simp [hw]

@[simp] theorem coupledStore_wf (s : State) (core ctx tid pa n v : Nat) (hw : Memory.wf s.mem = true) :
    Memory.wf (coupledStore s core ctx tid pa n v).mem = true := by
  unfold coupledStore
  (repeat' split) <;> simp [hw]

@[simp] theorem glenWriteN_mem (s : State) (core off n v : Nat) : (glenWriteN s core off n v).mem = s.mem := by rfl

@[simp] theorem glenWriteBytes_mem (s : State) (core off : Nat) (l : List Byte) : (glenWriteBytes s core off l).mem = s.mem := by rfl

@[simp] theorem updWindow_mem (s : State) (gid c w : Nat) (f : Window → Window) : (updWindow s gid c w f).mem = s.mem := by rfl

@[simp] theorem granuleRead_wf (s : State) (pa ctx : Nat) (hw : Memory.wf s.mem = true) : Memory.wf (granuleRead s pa ctx).1.mem = true := by
  unfold granuleRead
  split <;> simp [hw]

@[simp] theorem granuleWrite_wf (s : State) (core pa ctx : Nat) (dirty : BitVec 256) (bytes : List Byte) (hw : Memory.wf s.mem = true) :
    Memory.wf (granuleWrite s core pa ctx dirty bytes).mem = true := by
  unfold granuleWrite
  dsimp only
  (repeat' split) <;> simp [hw]

@[simp] theorem slotCleanPart_wf (s : State) (g : Gang) (c w i : Nat) (part : BitVec 256) (hw : Memory.wf s.mem = true) :
    Memory.wf (slotCleanPart s g c w i part).mem = true := by
  unfold slotCleanPart
  (repeat' split) <;> simp [hw]

@[simp] theorem slotClean_wf (s : State) (g : Gang) (c w i : Nat) (hw : Memory.wf s.mem = true) :
    Memory.wf (slotClean s g c w i).mem = true := by simp [slotClean, hw]

@[simp] theorem windowClean_wf (s : State) (g : Gang) (c w : Nat) (hw : Memory.wf s.mem = true) : Memory.wf (windowClean s g c w).mem = true := by
  unfold windowClean
  grind [foldl_wf, slotClean_wf]

@[simp] theorem windowTouch_wf (s : State) (gid c w : Nat) (va : W64) (pa : Nat) (hw : Memory.wf s.mem = true) :
    Memory.wf (windowTouch s gid c w va pa).1.mem = true := by
  unfold windowTouch
  dsimp only
  (repeat' split) <;> simp [hw]

@[simp] theorem slotDirty_mem (s : State) (gid c w : Nat) (va : W64) (n : Nat) : (slotDirty s gid c w va n).mem = s.mem := by rfl

@[simp] theorem updRing_mem (s : State) (gid c w : Nat) (f : Ring → Ring) : (updRing s gid c w f).mem = s.mem := by rfl

@[simp] theorem glenCount_mem (s : State) (gid core off : Nat) : (glenCount s gid core off).mem = s.mem := by
  unfold glenCount
  (repeat' split) <;> simp

@[simp] theorem readTarget_wf (s : State) (t : Thread) (tg : Target) (n : Nat) (hint : Hint) (cnt : Nat) (now : Bool) (hw : Memory.wf s.mem = true) :
    Memory.wf (readTarget s t tg n hint cnt now).1.mem = true := by
  unfold readTarget
  grind [l1Load_wf, coupledLoad_wf, windowTouch_wf, glenCount_mem, State.peerRead_mem]

@[simp] theorem writeTarget_wf (s : State) (t : Thread) (tg : Target) (n v : Nat) (hint : Hint) (hw : Memory.wf s.mem = true) :
    Memory.wf (writeTarget s t tg n v hint).mem = true := by
  unfold writeTarget
  grind [l1Store_wf, coupledStore_wf, windowTouch_wf, slotDirty_mem, glenWriteN_mem]

/-! ## The convergence table (R292 to R296) -/

@[simp] theorem leaveTable_mem (s : State) (core tid : Nat) : (leaveTable s core tid).mem = s.mem := by rfl

@[simp] theorem newEntry_mem (s : State) (core ctx : Nat) (pc : W64) (ms : List Nat) (above : Option Nat) (ready yield : Nat) (issued : Option Nat) :
    (newEntry s core ctx pc ms above ready yield issued).mem = s.mem := by rfl

@[simp] theorem enterTable_mem (s : State) (tid : Nat) (pc : W64) (issued : Option Nat) : (enterTable s tid pc issued).mem = s.mem := by
  unfold enterTable
  dsimp only
  (repeat' split) <;> simp

@[simp] theorem resumeAt_mem (s : State) (core ctx : Nat) (ms : List Nat) (c : Clause) (issued : Bool) (last : Option Nat) :
    (resumeAt s core ctx ms c issued last).mem = s.mem := by
  unfold resumeAt
  exact foldl_mem _ _ _ fun s a => by simp

@[simp] theorem detach_mem (s : State) (tid : Nat) : (detach s tid).mem = s.mem := by
  unfold detach
  (repeat' split) <;> simp

@[simp] theorem reenter_mem (s : State) (tid : Nat) : (reenter s tid).mem = s.mem := by
  unfold reenter
  (repeat' split) <;> simp

@[simp] theorem releasePipe_mem (s : State) (core uid : Nat) (a : Bool) : (releasePipe s core uid a).mem = s.mem := by rfl

@[simp] theorem clauseLeft_mem (s : State) (last : W64) (ids : List Nat) : (clauseLeft s last ids).mem = s.mem := by
  unfold clauseLeft
  exact foldl_mem _ _ _ fun s a => by simp

@[simp] theorem endClause_mem (s : State) (core uid : Nat) (fall last : W64) (next : List (Nat × W64)) :
    (endClause s core uid fall last next).mem = s.mem := by
  unfold endClause
  grind [foldl_mem, State.updThread_mem, clauseLeft_mem, releasePipe_mem, State.updCore_mem, enterTable_mem, State.updEntry_mem, newEntry_mem]

/-! ## The end of threads, tasks and contexts (R310, R313 to R317) -/

@[simp] theorem releaseBar_mem (s : State) (b : Bar) (ids : List Nat) : (releaseBar s b ids).mem = s.mem := by
  unfold releaseBar
  grind [foldl_mem, State.updThread_mem, acquired_mem]

@[simp] theorem settleTeam_mem (s : State) (gid id : Nat) : (settleTeam s gid id).mem = s.mem := by
  unfold settleTeam
  grind [foldl_mem, State.updGang_mem, State.updThread_mem, releaseBar_mem]

@[simp] theorem settleGbar_mem (s : State) (gid : Nat) : (settleGbar s gid).mem = s.mem := by
  unfold settleGbar
  split <;> simp

@[simp] theorem leaveTeams_mem (s : State) (gid tid : Nat) : (leaveTeams s gid tid).mem = s.mem := by
  unfold leaveTeams
  split <;> simp

@[simp] theorem sweepRow_mem (s : State) (core slot gid : Nat) : (sweepRow s core slot gid).mem = s.mem := by simp [sweepRow]

@[simp] theorem sweepThread_mem (s : State) (tid : Nat) : (sweepThread s tid).mem = s.mem := by
  unfold sweepThread
  split <;> simp

@[simp] theorem logBlames_mem (s : State) (t : Thread) : (logBlames s t).mem = s.mem := by simp [logBlames]

@[simp] theorem exitThread_mem (s : State) (tid : Nat) : (exitThread s tid).mem = s.mem := by
  unfold exitThread
  split <;> simp

theorem afterFlush_wf (s : State) (pa : Nat) (va : W64) (hw : Memory.wf s.mem = true) {u : State} (hu : afterFlush s pa va = .ok u) :
    Memory.wf u.mem = true := by
  unfold afterFlush at hu
  grind [State.settleView_wf]

theorem unitWrite_wf (s : State) (c : Nat) (va : W64) (n v : Nat) (hw : Memory.wf s.mem = true) {u : State} (hu : unitWrite s c va n v = .ok u) :
    Memory.wf u.mem = true := by
  unfold unitWrite at hu
  grind [afterFlush_wf, State.agentWriteN_wf]

@[simp] theorem readsRefused_mem (s : State) (agent c : Nat) (fs : List (Nat × Nat × W64)) :
    (readsRefused s agent c fs).mem = s.mem := by simp [readsRefused]

theorem unitRead_wf (s : State) (c : Nat) (va : W64) (n : Nat) (hw : Memory.wf s.mem = true) {u : State} {v : Nat}
    (hu : unitRead s c va n = .ok (u, v)) : Memory.wf u.mem = true := by
  unfold unitRead at hu
  grind [State.peerRead_mem, afterFlush_wf, State.homeReadN_wf]

@[simp] theorem unitWord_wf (s : State) (c : Nat) (va : W64) (v time : Nat) (hw : Memory.wf s.mem = true) :
    Memory.wf (unitWord s c va v time).1.mem = true := by
  unfold unitWord
  dsimp only
  (repeat' split) <;> simp [hw]

@[simp] theorem recWrite_wf (s : State) (c : Nat) (va : W64) (n v : Nat) (hw : Memory.wf s.mem = true) :
    Memory.wf (recWrite s c va n v).mem = true := by
  unfold recWrite
  grind [unitWrite_wf, State.logRefused_mem]

@[simp] theorem publish_wf (s : State) (task : Nat) (hw : Memory.wf s.mem = true) : Memory.wf (publish s task).mem = true := by
  unfold publish
  split <;> simp [hw]

@[simp] theorem publishCursor_wf (s : State) (task : Nat) (hw : Memory.wf s.mem = true) : Memory.wf (publishCursor s task).mem = true := by
  unfold publishCursor
  split <;> simp [hw]

@[simp] theorem enterEdge_wf (s : State) (task : Nat) (hw : Memory.wf s.mem = true) :
    Memory.wf (enterEdge s task).mem = true := by simp [enterEdge, hw]

theorem objectWrite_wf (c : Nat) (p : State × Option Nat) (w : W64 × Nat) (hp : Memory.wf p.1.mem = true) :
    Memory.wf (objectWrite c p w).1.mem = true := by
  unfold objectWrite
  split
  next v hu => exact unitWrite_wf _ _ _ _ _ hp hu
  next => simp [hp]

@[simp] theorem writeObject_wf (s : State) (k : Task) (hw : Memory.wf s.mem = true) : Memory.wf (writeObject s k).1.mem = true := by
  unfold writeObject
  split
  · exact hw
  · exact foldl_fst_wf _ _ hw fun p w hp => objectWrite_wf _ p w hp

@[simp] theorem toEdge_wf (s : State) (task : Nat) (hw : Memory.wf s.mem = true) : Memory.wf (toEdge s task).mem = true := by
  unfold toEdge
  grind [writeObject_wf, enterEdge_wf, State.updTask_mem]

@[simp] theorem failTask_wf (s : State) (task code : Nat) (hw : Memory.wf s.mem = true) : Memory.wf (failTask s task code).mem = true := by
  unfold failTask
  dsimp only
  (repeat' split) <;> simp [hw]

@[simp] theorem terminate_wf (s : State) (c code : Nat) (hw : Memory.wf s.mem = true) : Memory.wf (terminate s c code).mem = true := by
  unfold terminate
  exact foldl_wf _ _ (by simp [hw]) fun s a hw => by simp [hw]

/-! ## The end of a word, bindings and traps -/

@[simp] theorem stallHold_mem (s : State) (g : Grp) (cls : Nat) (blame : W64) : (stallHold s g cls blame).mem = s.mem := by rfl

@[simp] theorem stallFree_mem (s : State) (g : Grp) (cls : Nat) (blame : W64) : (stallFree s g cls blame).mem = s.mem := by rfl

@[simp] theorem issueMark_mem (s : State) (g : Grp) (h : Hd) : (issueMark s g h).mem = s.mem := by simp [issueMark]

@[simp] theorem markIssued_mem (s : State) (g : Grp) (h : Hd) : (markIssued s g h).mem = s.mem := by simp [markIssued]

@[simp] theorem finishWith_mem (s : State) (g : Grp) (h : Hd) (nx : Nat → W64) : (finishWith s g h nx).mem = s.mem := by
  unfold finishWith
  grind [foldl_mem, issueMark_mem, State.updThread_mem, endClause_mem]

@[simp] theorem finishWord_mem (s : State) (g : Grp) (h : Hd) : (finishWord s g h).mem = s.mem := by
  unfold finishWord
  grind [foldl_mem, finishWith_mem, issueMark_mem, State.updThread_mem, State.updEntry_mem]

@[simp] theorem bindName_mem (s : State) (tid n : Nat) (b : Binding) : (bindName s tid n b).mem = s.mem := by
  unfold bindName
  split <;> simp

@[simp] theorem fillToken_mem (s : State) (tid tok : Nat) (v : W64) : (fillToken s tid tok v).mem = s.mem := by rfl

@[simp] theorem fillQueues_mem (s : State) (tok : Nat) (v : W64) (core : Nat) : (fillQueues s tok v core).mem = s.mem := by rfl

@[simp] theorem setFmtrsv_mem (s : State) (c : Nat) (who : Option Nat) (bits : BitVec 2) : (setFmtrsv s c who bits).mem = s.mem := by rfl

@[simp] theorem clearFmtrsv_mem (s : State) (c tid : Nat) (bits : BitVec 2) : (clearFmtrsv s c tid bits).mem = s.mem := by rfl

@[simp] theorem bindDue_mem (s : State) (tid : Nat) (f : InFlight) : (bindDue s tid f).mem = s.mem := by
  unfold bindDue
  dsimp only
  split <;> simp

@[simp] theorem trapGoes_wf (s : State) (f : Flt) (tid : Nat) (hw : Memory.wf s.mem = true) : Memory.wf (trapGoes s f tid).mem = true := by
  unfold trapGoes
  dsimp only
  (repeat' split) <;> simp [hw]

@[simp] theorem takeTrap_wf (s : State) (core : Nat) (ms : List Thread) (f : Flt) (rps : List (Nat × Replay)) (hw : Memory.wf s.mem = true) :
    Memory.wf (takeTrap s core ms f rps).mem = true := by
  unfold takeTrap
  refine foldl_wf _ _ ?_ fun s t hs => trapGoes_wf _ _ _ hs
  rw [foldl_mem _ _ _ fun s t => by simp, foldl_mem _ _ _ fun s t => by simp]
  exact hw

@[simp] theorem wordTrap_wf (s : State) (g : Grp) (code sub : Nat) (addr : W64) (ids : List Nat) (rps : List (Nat × Replay))
    (hw : Memory.wf s.mem = true) : Memory.wf (wordTrap s g code sub addr ids rps).mem = true := by simp [wordTrap, hw]

@[simp] theorem headerTrap_wf (s : State) (core : Nat) (ms : List Thread) (code sub : Nat) (addr hdr : W64) (ids : List Nat)
    (hw : Memory.wf s.mem = true) : Memory.wf (headerTrap s core ms code sub addr hdr ids).mem = true :=
  takeTrap_wf s core ms _ [] hw

@[simp] theorem returnFrom_mem (s : State) (core ctx : Nat) (ids : List Nat) : (returnFrom s core ctx ids).mem = s.mem := by
  unfold returnFrom
  grind [foldl_mem, State.updThread_mem, enterTable_mem, resumeAt_mem]

/-! ## Flags (R58 to R60) -/

@[simp] theorem countUp_mem (s : State) (tid : Nat) (f : Option Nat × Option Nat) : (countUp s tid f).mem = s.mem := by rfl

@[simp] theorem countDown_mem (s : State) (tid : Nat) (f : Option Nat) : (countDown s tid f).mem = s.mem := by
  unfold countDown
  split <;> simp

/-! ## Operands and the two shapes of a word (R62, R71 to R73) -/

theorem popStreams_mem (s : State) (t : Thread) (l : List PopQ) {v : List W64} {u : State} (hu : popStreams s t l = some (v, u)) : u.mem = s.mem := by
  induction l generalizing s v u with
  | nil => cases hu; rfl
  | cons q qs ih =>
    unfold popStreams at hu
    grind [updRing_mem]

theorem laneTrap_wf (s : State) (g : Grp) (ts : List Thread) (f : Thread → Option (Nat × Nat × W64)) (rps : List (Nat × Replay))
    (hw : Memory.wf s.mem = true) {u : State} (hu : laneTrap s g ts f rps = some u) : Memory.wf u.mem = true := by
  unfold laneTrap at hu
  grind [wordTrap_wf]

@[simp] theorem popRows_mem (s : State) (ts : List Thread) (l : List Opnd) : (popRows s ts l).2.mem = s.mem := by
  unfold popRows
  refine foldl_snd_mem _ _ _ fun p t => ?_
  split
  next hp => exact popStreams_mem _ _ _ hp
  next => rfl

@[simp] theorem readLanes_mem (s : State) (w : Spec) (ts : List Thread) : (readLanes s w ts).2.mem = s.mem := by
  unfold readLanes
  refine (foldl_snd_mem _ _ _ fun p t => ?_).trans (popRows_mem s ts w.srcs)
  exact State.updThread_mem _ _ _

@[simp] theorem unblocked_mem (s : State) (g : Grp) (ex : List Thread) : (unblocked s g ex).mem = s.mem := by
  unfold unblocked
  exact foldl_mem _ _ _ fun s a => by simp

theorem prepare_go_mem {w : Spec} {g : Grp} {s u : State} {ls : List Lane} (h : prepare w g s = .go ls u) : u.mem = s.mem := by
  unfold prepare at h
  dsimp only at h
  split at h
  · cases h
  · split at h
    · cases h
    · split at h
      · cases h
      · split at h
        · cases h
        · split at h
          · cases h
          · split at h
            · cases h
            · split at h
              · cases h
              · cases h
                exact readLanes_mem _ _ _

theorem prepare_done_wf {w : Spec} {g : Grp} {s u : State} (hw : Memory.wf s.mem = true) (h : prepare w g s = .done u) : Memory.wf u.mem = true := by
  unfold prepare at h
  dsimp only at h
  split at h
  · cases h
    simp [hw]
  · split at h
    · cases h
      simp [hw]
    · split at h
      · cases h
        rw [stallFree_mem, foldl_mem _ _ _ fun s t => by simp]
        simp [hw]
      · split at h
        · cases h
          rw [stallFree_mem, foldl_mem _ _ _ fun s t => by simp]
          simp [hw]
        · split at h
          next h1 =>
            cases h
            exact laneTrap_wf _ _ _ _ _ hw h1
          · split at h
            next h1 =>
              cases h
              exact laneTrap_wf _ _ _ _ _ hw h1
            · split at h
              next h1 =>
                cases h
                exact laneTrap_wf _ _ _ _ _ hw h1
              · cases h

@[simp] theorem pushCells_mem (s : State) (g : Grp) (q : PushQ) (cells : List (Thread × QCell)) : (pushCells s g q cells).mem = s.mem := by
  unfold pushCells
  grind [foldl_mem, State.updCore_mem, State.updRow_mem, State.fresh_mem]

@[simp] theorem bindFixed_mem (s : State) (g : Grp) (d : Dest) (lat : Nat) (rs : List (Lane × Res)) : (bindFixed s g d lat rs).mem = s.mem := by
  unfold bindFixed
  split <;> simp

@[simp] theorem tokensFor_mem (s : State) (d : Dest) : (tokensFor s d).2.mem = s.mem := by rfl

@[simp] theorem bindPending_mem (s : State) (g : Grp) (d : Dest) (l : Lane) (toks : List Nat) :
    (bindPending s g d l toks).mem = s.mem := by simp [bindPending]

@[simp] theorem pushPending_mem (s : State) (g : Grp) (d : Dest) (ls : List (Lane × List Nat)) : (pushPending s g d ls).mem = s.mem := by
  unfold pushPending
  split <;> simp

@[simp] theorem issueOps_mem (s : State) (g : Grp) (w : Spec) (ops : List (Lane × NewOp)) : (issueOps s g w ops).mem = s.mem := by
  unfold issueOps
  simp

/-! ## Debug records (R404 to R406) -/

@[simp] theorem dbgRecord_wf (s : State) (c : Nat) (r : List W64) (hw : Memory.wf s.mem = true) : Memory.wf (dbgRecord s c r).mem = true := by
  unfold dbgRecord
  grind [foldl_wf, State.updCtx_mem, State.agentWriteN_wf, State.dbgTouch_mem]

@[simp] theorem traceRecord_wf (s : State) (core c : Nat) (ms : List Thread) (hdr : Header) (pc : W64) (hw : Memory.wf s.mem = true) :
    Memory.wf (traceRecord s core c ms hdr pc).mem = true := by
  unfold traceRecord
  grind [dbgRecord_wf]

@[simp] theorem stopRecord_wf (s : State) (core c : Nat) (ms stop : List Thread) (reason : BitVec 8) (ord : BitVec 16) (pc : W64)
    (hw : Memory.wf s.mem = true) : Memory.wf (stopRecord s core c ms stop reason ord pc).mem = true := by
  unfold stopRecord
  split <;> simp [hw]

@[simp] theorem watchHits_wf (s : State) (g : Grp) (ls : List (Thread × List Touch)) (hw : Memory.wf s.mem = true) :
    Memory.wf (watchHits s g ls).mem = true := by
  unfold watchHits
  grind [foldl_wf, dbgRecord_wf, State.updThread_mem]

end Sys2Proof.Machine
end

section
/-! SUPPORT. What the issue of a word, its access and its answer do to the memory of the device. -/

namespace Sys2Proof.Machine

/-! ## From a header to an issued word (R57, R284, R305) -/

@[simp] theorem icacheRead_wf (s : State) (core ctx : Nat) (va : W64) (pa : Nat) (hw : Memory.wf s.mem = true) :
    Memory.wf (icacheRead s core ctx va pa).2.mem = true := by
  unfold icacheRead
  dsimp only
  (repeat' split) <;> simp [hw]

theorem fetchWord_wf (s : State) (core c : Nat) (ms : List Thread) (va : W64) (hw : Memory.wf s.mem = true) {u : State} {v : W64}
    (hu : fetchWord s core c ms va = .ok v u) : Memory.wf u.mem = true := by
  unfold fetchWord at hu
  grind [icacheRead_wf]

theorem fetchWords_wf (s : State) (core c : Nat) (ms : List Thread) (va : W64) (m : Nat) (hw : Memory.wf s.mem = true) {u : State} {v : (List W64)}
    (hu : fetchWords s core c ms va m = .ok v u) : Memory.wf u.mem = true := by
  induction m generalizing s va u v with
  | zero => cases hu; exact hw
  | succ n ih =>
    unfold fetchWords at hu
    grind [fetchWord_wf]

theorem fetchClause_wf (s : State) (core c : Nat) (ms : List Thread) (va : W64) (hw : Memory.wf s.mem = true) {u : State} {v : Clause}
    (hu : fetchClause s core c ms va = .ok v u) : Memory.wf u.mem = true := by
  unfold fetchClause at hu
  split at hu
  case h_5 h s1 h1 =>
    split at hu
    · cases hu
    · dsimp only at hu
      split at hu
      case h_1 ws s2 h2 =>
        cases hu
        exact fetchWords_wf _ _ _ _ _ _ (fetchWord_wf _ _ _ _ _ hw h1) h2
      all_goals cases hu
  all_goals cases hu

@[simp] theorem requestWalk_mem (s : State) (core c page : Nat) : (requestWalk s core c page).mem = s.mem := by
  unfold requestWalk
  split <;> simp

@[simp] theorem requestVerify_mem (s : State) (c page : Nat) : (requestVerify s c page).mem = s.mem := by rfl

@[simp] theorem dropBadTlb_mem (s : State) (core c : Nat) (va : W64) : (dropBadTlb s core c va).mem = s.mem := by rfl

theorem takeDeferred_wf (s : State) (core : Nat) (ms : List Thread) (due : Deferred → Bool) (epc : W64) (back : Option Clause)
    (hw : Memory.wf s.mem = true) {u : State} (hu : takeDeferred s core ms due epc back = some u) : Memory.wf u.mem = true := by
  unfold takeDeferred at hu
  split at hu
  · cases hu
  · cases hu
    apply takeTrap_wf
    rw [foldl_mem _ _ _ fun s t => by simp]
    exact hw

@[simp] theorem haltThread_mem (s : State) (t : Thread) (r : BitVec 8) (ord : BitVec 16) (hdr : W64) : (haltThread s t r ord hdr).mem = s.mem := by
  unfold haltThread
  grind [State.updThread_mem, leaveTable_mem, State.dbgTouch_mem]

theorem notchStage_wf (s : State) (core c : Nat) (ms : List Thread) (h : Header) (hdr : W64) (hw : Memory.wf s.mem = true) {u : State}
    (hu : notchStage s core c ms h hdr = some (some u)) : Memory.wf u.mem = true := by
  unfold notchStage at hu
  dsimp only at hu
  split at hu
  · cases hu
  · split at hu
    · cases hu
      exact headerTrap_wf _ _ _ _ _ _ _ _ hw
    · split at hu
      next h1 =>
        cases hu
        exact takeDeferred_wf _ _ _ _ _ _ hw h1
      · split at hu
        · cases hu
        · split at hu
          · split at hu <;> cases hu
            rw [foldl_mem _ _ _ fun s t => by simp]
            exact hw
          · cases hu
            apply stopRecord_wf
            rw [foldl_mem _ _ _ fun s t => by simp]
            exact hw

@[simp] theorem splitRows_mem (s : State) (core uid : Nat) (e : Entry) : (splitRows s core uid e).mem = s.mem := by
  unfold splitRows
  dsimp only
  split
  · rfl
  · rw [foldl_mem _ _ _ (fun s r => by simp), State.updEntry_mem]

@[simp] theorem mergeEntries_mem (s : State) (core : Nat) (es : List Entry) : (mergeEntries s core es).1.mem = s.mem := by
  unfold mergeEntries
  split <;> simp

@[simp] theorem beginClause_wf (s : State) (core uid : Nat) (ms : List Thread) (c : Clause) (ctx : Nat) (hw : Memory.wf s.mem = true) :
    Memory.wf (beginClause s core uid ms c ctx).mem = true := by
  unfold beginClause
  apply traceRecord_wf
  rw [foldl_mem _ _ _ fun s t => by simp]
  simp [hw]

theorem startEntry_wf (s0 : State) (core uid : Nat) (merge : Bool) (hw : Memory.wf s0.mem = true) {u : State}
    (hu : startEntry s0 core uid merge = some u) : Memory.wf u.mem = true := by
  unfold startEntry at hu
  split at hu
  · cases hu
  next e0 _ =>
    split at hu
    · cases hu
    · dsimp only at hu
      split at hu
      · split at hu
        · cases hu
        · cases hu
          simp [hw]
      · cases hu
      · split at hu
        · cases hu
        · cases hu
          simp [hw]
      · cases hu
        simp only [dropBadTlb_mem]
        apply headerTrap_wf
        split <;> simp [hw]
      next c s hc =>
        have hs := fetchClause_wf _ _ _ _ _ hw hc
        split at hu
        next r hr => exact notchStage_wf _ _ _ _ _ _ hs (hr.trans (congrArg some hu))
        · split at hu
          · cases hu
          · split at hu
            · split at hu <;> cases hu
              simp [hs]
            · -- The clause begins for the entry, or for the one that it is merged into.
              have joined : Memory.wf (if merge && !hasXln c then mergeEntries s core (e0 :: absorbed s core e0) else (s, some uid)).1.mem = true := by
                split <;> simp [hs]
              generalize (if merge && !hasXln c then mergeEntries s core (e0 :: absorbed s core e0) else (s, some uid)) = p at hu joined
              split at hu
              · cases hu
              · split at hu
                · cases hu
                · split at hu
                  next r hr =>
                    split at hr
                    · cases hr
                    · exact notchStage_wf _ _ _ _ _ _ joined (hr.trans (congrArg some hu))
                  · split at hu <;> cases hu
                    exact beginClause_wf _ _ _ _ _ _ joined

@[simp] theorem takePipe_mem (s : State) (core uid : Nat) (a : Bool) : (takePipe s core uid a).mem = s.mem := by rfl

@[simp] theorem decodeTrap_wf (s : State) (g : Grp) (e : DecodeError) (hw : Memory.wf s.mem = true) : Memory.wf (decodeTrap s g e).mem = true := by
  unfold decodeTrap
  split <;> simp [hw]

theorem quotaTrap_wf (s : State) (g : Grp) (hw : Memory.wf s.mem = true) {u : State} (hu : quotaTrap s g = some u) : Memory.wf u.mem = true := by
  unfold quotaTrap at hu
  grind [Option.map_eq_some_iff, wordTrap_wf]

/-! ## Accesses that are performed (R160, R267) -/

@[simp] theorem retarget_mem (s : State) (gid : Nat) : (retarget s gid).mem = s.mem := by rfl

@[simp] theorem lateRefused_mem (s : State) (o : Op) (tid : Nat) (f : Nat × Nat) (va : W64) (pa : Nat) :
    (lateRefused s o tid f va pa).mem = s.mem := by simp [lateRefused]

@[simp] theorem deliver_mem (s : State) (o : Op) (v bytes : Nat) : (deliver s o v bytes).mem = s.mem := by simp [deliver]

@[simp] theorem endOp_mem (s : State) (o : Op) : (endOp s o).mem = s.mem := by simp [endOp]

@[simp] theorem takesOver_mem (s : State) (o : Op) : (takesOver s o).mem = s.mem := by
  unfold takesOver
  split <;> simp

@[simp] theorem wordArrives_wf (s : State) (o : Op) (hw : Memory.wf s.mem = true) : Memory.wf (wordArrives s o).mem = true := by
  unfold wordArrives
  split <;> simp [hw]

theorem arrive_wf (s : State) (id : Nat) (hw : Memory.wf s.mem = true) {u : State} (hu : arrive s id = some u) : Memory.wf u.mem = true := by
  unfold arrive at hu
  split at hu
  · cases hu
  next o _ =>
    split at hu
    · cases hu
      simp [hw]
    · split at hu
      · cases hu
      · split at hu
        · cases hu
          simp [hw]
        · dsimp only at hu
          split at hu
          · cases hu
          · split at hu <;> cases hu <;> simp [hw]
        · split at hu
          · cases hu
          · cases hu
            simp [hw]
        · cases hu

@[simp] theorem pushedOut_wf (s : State) (t : Thread) (o : Op) (tg : Target) (hw : Memory.wf s.mem = true) :
    Memory.wf (pushedOut s t o tg).mem = true := by
  unfold pushedOut
  (repeat' split) <;> simp [hw]

@[simp] theorem qblkDo_mem (s : State) (src slot : Nat × Nat) (ty : ElemTy) (w : Nat) (r : Rnd) (j : Nat) :
    (qblkDo s src slot ty w r j).1.mem = s.mem := by rfl

theorem storeDone_wf (s : State) (id : Nat) (hw : Memory.wf s.mem = true) {u : State} (hu : storeDone s id = some u) : Memory.wf u.mem = true := by
  unfold storeDone at hu
  split at hu
  · cases hu
  · split at hu
    · cases hu
    · split at hu
      · dsimp only at hu
        split at hu
        · cases hu
        · cases hu
          split <;> simp [hw]
      · split at hu
        · cases hu
        · dsimp only at hu
          split at hu <;> cases hu <;> simp [hw]
      · cases hu

/-! ## The atomic units of the home Vales (R157 to R168) -/

@[simp] theorem l1RangeVa_wf (s : State) (core c base len : Nat) (inv : Bool) (hw : Memory.wf s.mem = true) :
    Memory.wf (l1RangeVa s core c base len inv).mem = true := by
  unfold l1RangeVa
  split <;> simp [hw]

theorem unitWords_wf (s : State) (c : Nat) (va : W64) (m : Nat) (hw : Memory.wf s.mem = true) {u : State} {v : List Nat}
    (hu : unitWords s c va m = .ok (u, v)) : Memory.wf u.mem = true := by
  induction m generalizing s va u v with
  | zero => cases hu; exact hw
  | succ n ih =>
    unfold unitWords at hu
    grind [unitRead_wf]

@[simp] theorem appendTask_wf (s : State) (id : Nat) (hw : Memory.wf s.mem = true) : Memory.wf (appendTask s id).mem = true := by
  unfold appendTask
  split
  · exact hw
  next k _ =>
    dsimp only
    apply recWrite_wf
    cases h1 : unitRead s k.ctx (k.recAddr + 0x18#64) 8 with
    | error f =>
      dsimp only
      split <;> (repeat' apply recWrite_wf) <;> simp [hw]
    | ok p =>
      have h2 := unitRead_wf _ _ _ _ hw h1
      dsimp only
      cases h3 : unitWords p.1 k.ctx (k.recAddr + 0x80#64) 24 with
      | error f =>
        dsimp only
        cases ctlOk p.2 <;> split <;> (repeat' apply recWrite_wf) <;> simp [h2]
      | ok q =>
        have h4 := unitWords_wf _ _ _ _ h2 h3
        dsimp only
        split <;> (repeat' apply recWrite_wf) <;> simp [h4]

@[simp] theorem homeWord_wf (s : State) (pa ctx : Nat) (hw : Memory.wf s.mem = true) :
    Memory.wf (homeWord s pa ctx).1.mem = true := by simp [homeWord, hw]

@[simp] theorem fire_wf (s : State) (c : Nat) (va : W64) (pa : Nat) (hw : Memory.wf s.mem = true) : Memory.wf (fire s c va pa).mem = true := by
  unfold fire
  dsimp only
  (repeat' split) <;> simp [hw]

@[simp] theorem barrierArrives_wf (s : State) (c pa : Nat) (n : W32) (hw : Memory.wf s.mem = true) :
    Memory.wf (barrierArrives s c pa n).s.mem = true := by
  unfold barrierArrives
  dsimp only
  split <;> simp [hw]

@[simp] theorem decrement_wf (s : State) (c : Nat) (va : W64) (pa n : Nat) (hw : Memory.wf s.mem = true) :
    Memory.wf (decrement s c va pa n).s.mem = true := by
  unfold decrement
  grind [homeWord_wf, State.homeWriteN_wf, fire_wf]

@[simp] theorem submit_wf (s : State) (c : Nat) (va : W64) (pa : Nat) (queue : Option Nat) (lobj : Option W64) (hw : Memory.wf s.mem = true) :
    Memory.wf (submit s c va pa queue lobj).s.mem = true := by
  unfold submit
  grind [homeWord_wf, State.homeWriteN_wf, State.fresh_mem, appendTask_wf]

@[simp] theorem depAdd_wf (s : State) (c pa n : Nat) (hw : Memory.wf s.mem = true) : Memory.wf (depAdd s c pa n).s.mem = true := by
  unfold depAdd
  grind [homeWord_wf, State.homeWriteN_wf]

@[simp] theorem wordDo_wf (s : State) (o : Op) (w : WordReq) (hw : Memory.wf s.mem = true) : Memory.wf (wordDo s o w).s.mem = true := by
  unfold wordDo
  dsimp only
  (repeat' split) <;> simp [hw]

@[simp] theorem submitFlush_wf (s : State) (o : Op) (lobj : Option W64) (hw : Memory.wf s.mem = true) :
    Memory.wf (submitFlush s o lobj).mem = true := by
  unfold submitFlush
  grind [foldl_wf, l1RangeVa_wf]

@[simp] theorem wordEnd_mem (s : State) (id : Nat) : (wordEnd s id).mem = s.mem := by
  unfold wordEnd
  split <;> simp

@[simp] theorem peerOp_mem (s : State) (o : Op) (w : WordReq) (early : Bool) : (peerOp s o w early).mem = s.mem := by simp [peerOp]

theorem homeRefuses_wf (s : State) (o : Op) (w : WordReq) (hw : Memory.wf s.mem = true) {u : State} (hu : homeRefuses s o w = some u) :
    Memory.wf u.mem = true := by
  unfold homeRefuses at hu
  split at hu
  · split at hu
    · obtain ⟨f, -, rfl⟩ := Option.map_eq_some_iff.mp hu
      simp [hw]
    · cases hu
      simp [hw]
  · cases hu
    simp [hw]
  · split at hu
    · cases hu
      simp [hw]
    · split at hu <;> cases hu
      simp [hw]

@[simp] theorem homeDoes_wf (s : State) (o : Op) (w : WordReq) (hw : Memory.wf s.mem = true) : Memory.wf (homeDoes s o w).mem = true := by
  unfold homeDoes
  grind [l1Flush_wf, State.homeRead_wf, State.wordRefused_mem, State.wordTest_mem, State.updOp_mem, submitFlush_wf, State.timedWrite_mem, wordDo_wf,
    State.releaseAt_mem, wordEnd_mem]

theorem homeOp_wf (s : State) (id : Nat) (hw : Memory.wf s.mem = true) {u : State} (hu : homeOp s id = some u) : Memory.wf u.mem = true := by
  unfold homeOp at hu
  grind [peerOp_mem, homeRefuses_wf, wordEnd_mem, homeDoes_wf]

theorem peerExpire_wf (s : State) (id : Nat) (hw : Memory.wf s.mem = true) {u : State} (hu : peerExpire s id = some u) : Memory.wf u.mem = true := by
  unfold peerExpire at hu
  grind [State.peerRefused_mem, State.peerAnswer_mem, State.peerShut_mem, State.homeRead_wf, State.peerTest_mem]

theorem awaitExpire_wf (s : State) (id : Nat) (hw : Memory.wf s.mem = true) {u : State} (hu : awaitExpire s id = some u) :
    Memory.wf u.mem = true := by
  unfold awaitExpire at hu
  split at hu
  · exact peerExpire_wf _ _ hw hu
  · split at hu
    · split at hu
      · cases hu
      · split at hu
        · split at hu <;> cases hu
          simp [hw]
        · split at hu
          · obtain ⟨v, hv, rfl⟩ := Option.map_eq_some_iff.mp hu
            simp [homeRefuses_wf _ _ _ hw hv]
          · split at hu
            · cases hu
              rw [State.wordTest_mem]
              exact State.homeRead_wf _ _ _ hw
            · cases hu
    · cases hu

/-! ## The CTL group and teams -/

@[simp] theorem checked_wf (s : State) (g : Grp) (ls : List Lane) (f : Lane → Option (Nat × Nat × Nat × W64)) (k : State)
    (hw : Memory.wf s.mem = true) (hwk : Memory.wf k.mem = true) : Memory.wf (checked s g ls f k).mem = true := by
  unfold checked
  split <;> simp [hw, hwk]

@[simp] theorem transfer_mem (s : State) (g : Grp) (h : Hd) (ls : List Lane) (tgt : Lane → W64) :
    (transfer s g h ls tgt).mem = s.mem := by simp [transfer]

@[simp] theorem linkBind_mem (s : State) (g : Grp) (d : VName) (k : BitVec 4) (ls : List Lane) :
    (linkBind s g d k ls).mem = s.mem := by simp [linkBind]

@[simp] theorem joinTeam_mem (s : State) (t : Thread) (id : Nat) : (joinTeam s t id).mem = s.mem := by rfl

@[simp] theorem leaveTeam_mem (s : State) (t : Thread) (id : Nat) : (leaveTeam s t id).mem = s.mem := by simp [leaveTeam]

@[simp] theorem arriveTeam_mem (s : State) (t : Thread) (id : Nat) : (arriveTeam s t id).mem = s.mem := by simp [arriveTeam]

@[simp] theorem arriveGang_mem (s : State) (t : Thread) : (arriveGang s t).mem = s.mem := by simp [arriveGang]

@[simp] theorem barrierWait_mem (s : State) (g : Grp) (h : Hd) : (barrierWait s g h).mem = s.mem := by simp [barrierWait]

@[simp] theorem arrivals_wf (s0 s : State) (g : Grp) (ls : List Lane) (k : State) (hw : Memory.wf s0.mem = true) (hk : Memory.wf k.mem = true) :
    Memory.wf (arrivals s0 s g ls k).mem = true := by
  unfold arrivals
  split <;> simp [hw, hk]

/-! ## The MEM group -/

@[simp] theorem awaitWalks_mem (s : State) (g : Grp) (pages : List Nat) : (awaitWalks s g pages).mem = s.mem := by simp [awaitWalks]

@[simp] theorem refuseWord_wf (s : State) (g : Grp) (ls : List Lane) (code sub : Nat) (addr : W64) (ids : List Nat) (hw : Memory.wf s.mem = true) :
    Memory.wf (refuseWord s g ls code sub addr ids).mem = true := by simp [refuseWord, hw]

@[simp] theorem checkLanes_wf (s0 s : State) (g : Grp) (rs : List LaneChecks) (k : State) (hw : Memory.wf s.mem = true)
    (hws0 : Memory.wf s0.mem = true) (hwk : Memory.wf k.mem = true) : Memory.wf (checkLanes s0 s g rs k).mem = true := by
  unfold checkLanes
  dsimp only
  (repeat' split) <;> simp [hw, hws0, hwk]

@[simp] theorem watched_wf (s : State) (g : Grp) (ls : List (Lane × W64)) (n : Nat) (stash load store : Bool) (hw : Memory.wf s.mem = true) :
    Memory.wf (watched s g ls n stash load store).mem = true := by simp [watched, hw]

@[simp] theorem pflFill_wf (s : State) (t : Thread) (hint : Hint) (k : Nat) (r : LaneRes) (hw : Memory.wf s.mem = true) :
    Memory.wf (pflFill s t hint k r).mem = true := by
  unfold pflFill
  grind [State.fillHome_wf, l1Fill_wf, leaseFill_wf]

/-! ## The ATM group -/

@[simp] theorem sendWord_wf (s : State) (g : Grp) (w : Spec) (size scope : Nat) (rs : List LaneChecks) (op : Lane → WordOp)
    (limit : Lane → Option Nat) (hw : Memory.wf s.mem = true) : Memory.wf (sendWord s g w size scope rs op limit).mem = true := by
  unfold sendWord
  grind [foldl_wf, l1Flush_wf, issueOps_mem]

/-! ## The CPY group -/

@[simp] theorem issueCopy_mem (s : State) (g : Grp) (hint : Hint) (lanes : List CopyLane) : (issueCopy s g hint lanes).mem = s.mem := by
  unfold issueCopy
  grind [foldl_mem, countUp_mem, State.fresh_mem]

@[simp] theorem pushCmd_mem (s : State) (core : Nat) (c : CopyCmd) : (pushCmd s core c).mem = s.mem := by rfl

@[simp] theorem issueWinWb_mem (s : State) (g : Grp) (win : Nat) (unmap : Bool) (ls : List Lane) :
    (issueWinWb s g win unmap ls).mem = s.mem := by simp [issueWinWb]

@[simp] theorem updOwn_mem (s : State) (l : Lane) (w : Nat) (f : Window → Window) : (updOwn s l w f).mem = s.mem := by
  unfold updOwn
  split <;> simp

/-! ## The ladder words -/

@[simp] theorem updLadder_mem (s : State) (task : Nat) (f : Ladder → Ladder) : (updLadder s task f).mem = s.mem := by rfl

@[simp] theorem escalate_mem (s : State) (l : Lane) : (escalate s l).mem = s.mem := by
  unfold escalate
  split <;> simp

@[simp] theorem resolve_mem (s : State) (l : Lane) : (resolve s l).mem = s.mem := by
  unfold resolve
  split <;> simp

/-! ## The SYS group -/

@[simp] theorem sysWrite_mem (s : State) (t : Thread) (i : Nat) (v : W64) : (sysWrite s t i v).mem = s.mem := by
  unfold sysWrite
  split <;> simp

/-! ## The MTX group -/

@[simp] theorem pushMtx_mem (s : State) (g : Grp) (lead : Lane) (ps : List Lane) (kind : MtxKind) :
    (pushMtx s g lead ps kind).mem = s.mem := by simp [pushMtx]

@[simp] theorem deliverPushers_mem (s : State) (c : MtxCmd) : (deliverPushers s c).mem = s.mem := by simp [deliverPushers]

@[simp] theorem loopEnds_mem (s : State) (core : Nat) (l : Loop) : (loopEnds s core l).mem = s.mem := by simp [loopEnds]

@[simp] theorem releaseHeld_mem (s : State) (core : Nat) (l : Loop) : (releaseHeld s core l).mem = s.mem := by
  unfold releaseHeld
  split <;> simp

@[simp] theorem abortLoop_mem (s : State) (core : Nat) (l : Loop) : (abortLoop s core l).mem = s.mem := by simp [abortLoop]

@[simp] theorem updArray_mem (s : State) (core : Nat) (f : MtxArray → MtxArray) : (updArray s core f).mem = s.mem := by rfl

@[simp] theorem resumeLoop_mem (s : State) (core : Nat) : (resumeLoop s core).mem = s.mem := by rfl

@[simp] theorem clearEngine_mem (s : State) (core slot gid : Nat) : (clearEngine s core slot gid).mem = s.mem := by
  unfold clearEngine
  exact foldl_mem _ _ _ fun s a => by simp

end Sys2Proof.Machine
end

section
/-! SUPPORT. What the events of issue, of the memory system, of copies and of the matrix array do to the memory of the device. -/

namespace Sys2Proof.Machine

/-! ## Issue, binding and cells -/

theorem rendezvous_mem (s : State) (core uid : Nat) {u : State} (hu : rendezvous s core uid = some u) : u.mem = s.mem := by
  unfold rendezvous at hu
  grind [mergeEntries_mem]

theorem overdue_mem (s : State) (core uid : Nat) {u : State} (hu : overdue s core uid = some u) : u.mem = s.mem := by
  unfold overdue at hu
  grind [State.updEntry_mem]

theorem yieldEnds_mem (s : State) (core uid : Nat) {u : State} (hu : yieldEnds s core uid = some u) : u.mem = s.mem := by
  unfold yieldEnds at hu
  grind [State.updEntry_mem]

theorem fixedBind_mem (s : State) (tid tok : Nat) {u : State} (hu : fixedBind s tid tok = some u) : u.mem = s.mem := by
  unfold fixedBind at hu
  grind [bindDue_mem]

theorem valueArrives_wf (s : State) (id : Nat) (hw : Memory.wf s.mem = true) {u : State} (hu : valueArrives s id = some u) :
    Memory.wf u.mem = true := by
  unfold valueArrives at hu
  grind [endOp_mem, deliver_mem, arrive_wf]

theorem napEnds_mem (s : State) (tid : Nat) {u : State} (hu : napEnds s tid = some u) : u.mem = s.mem := by
  unfold napEnds at hu
  grind [State.updThread_mem]

theorem arbitrate_mem (s : State) (b : Thread) (cap : Bool) {u : State} (hu : arbitrate s b cap = some u) : u.mem = s.mem := by
  unfold arbitrate at hu
  grind [State.updThread_mem, detach_mem]

theorem arbiter_mem (s : State) (core lane : Nat) {u : State} (hu : arbiter s core lane = some u) : u.mem = s.mem := by
  obtain ⟨p, -, hp⟩ := List.exists_of_findSome?_eq_some hu
  exact arbitrate_mem _ _ _ hp

theorem evict_mem (s : State) (tid : Nat) {u : State} (hu : evict s tid = some u) : u.mem = s.mem := by
  unfold evict at hu
  grind [State.updThread_mem, State.updCtx_mem]

theorem reload_mem (s : State) (tid : Nat) {u : State} (hu : reload s tid = some u) : u.mem = s.mem := by
  unfold reload at hu
  grind [State.updThread_mem, reenter_mem]

/-! ## The memory system -/

theorem l1Evict_wf (s : State) (core line : Nat) (hw : Memory.wf s.mem = true) {u : State} (hu : l1Evict s core line = some u) :
    Memory.wf u.mem = true := by
  unfold l1Evict at hu
  grind [l1Flush_wf]

theorem walkDone_mem (s : State) (die ctx page : Nat) {u : State} (hu : walkDone s die ctx page = some u) : u.mem = s.mem := by
  unfold walkDone at hu
  grind [foldl_mem, State.updCore_mem]

theorem valeFills_mem (s : State) (line ctx : Nat) {u : State} (hu : valeFills s line ctx = some u) : u.mem = s.mem := by
  unfold valeFills at hu
  grind [State.fillDev_mem]

theorem colFills_mem (s : State) (line ctx : Nat) {u : State} (hu : colFills s line ctx = some u) : u.mem = s.mem := by
  unfold colFills at hu
  grind [State.fillView_mem]

theorem colWritesBack_wf (s : State) (line : Nat) (hw : Memory.wf s.mem = true) {u : State} (hu : colWritesBack s line = some u) :
    Memory.wf u.mem = true := by
  unfold colWritesBack at hu
  grind [State.dropVale_mem, State.cleanLine_wf]

@[simp] theorem countCorrected_mem (s : State) : (countCorrected s).mem = s.mem := by rfl

theorem cleanError_wf (s : State) (line : Nat) (hw : Memory.wf s.mem = true) {u : State} (hu : cleanError s line = some u) :
    Memory.wf u.mem = true := by
  unfold cleanError at hu
  grind [countCorrected_mem, State.fillHome_wf, State.dropVale_mem]

@[simp] theorem killContext_wf (s : State) (c code : Nat) (hw : Memory.wf s.mem = true) : Memory.wf (killContext s c code).mem = true := by
  unfold killContext
  split <;> simp [hw]

@[simp] theorem retirePage_mem (s : State) (pa : Nat) : (retirePage s pa).mem = s.mem := by simp [retirePage]

@[simp] theorem rasLog_mem (s : State) (agent core c sub addr : Nat) (frame : W64) :
    (rasLog s agent core c sub addr frame).mem = s.mem := by simp [rasLog]

@[simp] theorem rasSteps_wf (s : State) (line owner way sub : Nat) (hw : Memory.wf s.mem = true) :
    Memory.wf (rasSteps s line owner way sub).mem = true := by simp [rasSteps, hw]

theorem dirtyError_wf (s : State) (line way : Nat) (hw : Memory.wf s.mem = true) {u : State} (hu : dirtyError s line way = some u) :
    Memory.wf u.mem = true := by
  unfold dirtyError at hu
  split at hu
  · split at hu <;> cases hu
    exact rasSteps_wf _ _ _ _ _ hw
  · obtain ⟨c, -, rfl⟩ := Option.map_eq_some_iff.mp hu
    exact rasSteps_wf _ _ _ _ _ hw

theorem stackError_wf (s : State) (line ctx : Nat) (hw : Memory.wf s.mem = true) {u : State} (hu : stackError s line ctx = some u) :
    Memory.wf u.mem = true := by
  unfold stackError at hu
  grind [State.free_mem, rasSteps_wf]

@[simp] theorem dropCleanLine_mem (s : State) (core c : Nat) : (dropCleanLine s core c).mem = s.mem := by
  unfold dropCleanLine
  dsimp only
  split <;> simp

theorem softError_wf (s : State) (core c : Nat) (st : CoreStore) (bad : Bool) (hw : Memory.wf s.mem = true) {u : State}
    (hu : softError s core c st bad = some u) : Memory.wf u.mem = true := by
  unfold softError at hu
  grind [dropCleanLine_mem, countCorrected_mem, killContext_wf]

theorem arrayError_wf (s : State) (core : Nat) (hw : Memory.wf s.mem = true) {u : State} (hu : arrayError s core = some u) :
    Memory.wf u.mem = true := by
  unfold arrayError at hu
  grind [State.free_mem, rasLog_mem, killContext_wf]

@[simp] theorem codeIntegrity_wf (s : State) (c page sub : Nat) (hw : Memory.wf s.mem = true) :
    Memory.wf (codeIntegrity s c page sub).mem = true := by
  unfold codeIntegrity
  refine foldl_wf _ _ (by simp [hw]) fun s p hs => ?_
  split <;> simp [hs]

@[simp] theorem checkRefused_wf (s : State) (c page : Nat) (f : Nat × Nat × W64) (hw : Memory.wf s.mem = true) :
    Memory.wf (checkRefused s c page f).mem = true := by simp [checkRefused, hw]

theorem verifyPage_wf (s : State) (c page : Nat) (hw : Memory.wf s.mem = true) {u : State} (hu : verifyPage s c page = some u) :
    Memory.wf u.mem = true := by
  unfold verifyPage at hu
  split at hu
  · cases hu
  · dsimp only at hu
    split at hu
    · cases hu
      simp [hw]
    · cases hu
      simp [hw]
    · split at hu
      · cases hu
        simp [hw]
      · cases hu
        cases pageRefused s c page <;> simp [hw]

/-! ## The copy engine and the windows -/

theorem copyStarts_mem (s : State) (core : Nat) {u : State} (hu : copyStarts s core = some u) : u.mem = s.mem := by
  unfold copyStarts at hu
  grind [State.updCore_mem]

@[simp] theorem updRun_mem (s : State) (core cmd : Nat) (f : CopyRun → CopyRun) : (updRun s core cmd f).mem = s.mem := by rfl

@[simp] theorem dropRun_mem (s : State) (core cmd : Nat) : (dropRun s core cmd).mem = s.mem := by rfl

@[simp] theorem updCmdRing_mem (s : State) (core : Nat) (c : CopyCmd) (f : Ring → Ring) : (updCmdRing s core c f).mem = s.mem := by
  unfold updCmdRing
  split <;> simp

theorem fillStarts_mem (s : State) (core cmd : Nat) {u : State} (hu : fillStarts s core cmd = some u) : u.mem = s.mem := by
  unfold fillStarts at hu
  grind [updCmdRing_mem, updRun_mem]

@[simp] theorem pushStatus_mem (s : State) (c : CopyCmd) (kind code prog : Nat) : (pushStatus s c kind code prog).mem = s.mem := by rfl

@[simp] theorem payOwed_mem (s : State) (core issue : Nat) : (payOwed s core issue).mem = s.mem := by
  unfold payOwed
  refine foldl_mem _ _ _ fun s a => ?_
  split <;> simp

@[simp] theorem copyFails_mem (s : State) (core : Nat) (r : CopyRun) (kind code sub prog : Nat) (addr : W64) :
    (copyFails s core r kind code sub prog addr).mem = s.mem := by simp [copyFails]

@[simp] theorem lineFails_mem (s : State) (core : Nat) (r : CopyRun) (code sub : Nat) (addr : W64) :
    (lineFails s core r code sub addr).mem = s.mem := by simp [lineFails]

@[simp] theorem engineRead_wf (s : State) (core c gid : Nat) (tg : Target) (n : Nat) (hint : Hint) (now : Bool) (hw : Memory.wf s.mem = true) :
    Memory.wf (engineRead s core c gid tg n hint now).1.mem = true := by
  unfold engineRead
  grind [l1Load_wf, State.homeReadN_wf, windowTouch_wf, glenCount_mem, State.peerRead_mem]

@[simp] theorem engineWrite_wf (s : State) (core c gid : Nat) (tg : Target) (n v : Nat) (hint : Hint) (hw : Memory.wf s.mem = true) :
    Memory.wf (engineWrite s core c gid tg n v hint).mem = true := by
  unfold engineWrite
  grind [l1Store_wf, State.homeWriteN_wf, windowTouch_wf, slotDirty_mem, glenWriteN_mem]

theorem engineWalk_mem (s : State) (core c page : Nat) {u : State} (hu : engineWalk s core c page = some u) : u.mem = s.mem := by
  unfold engineWalk at hu
  grind [requestWalk_mem]

@[simp] theorem advance_mem (s : State) (core : Nat) (r : CopyRun) (n : Nat) (tg : Target) : (advance s core r n tg).mem = s.mem := by
  unfold advance
  dsimp only
  split
  · exact updRun_mem _ _ _ _
  · split <;> simp

@[simp] theorem touch_mem (s : State) (core : Nat) (c : CopyCmd) (sp : Nat × Nat) (tg : Target) (now : Bool) :
    (touch s core c sp tg now).mem = s.mem := by simp [touch]

theorem lineOp_wf (s : State) (core cmd : Nat) (hw : Memory.wf s.mem = true) {u : State} (hu : lineOp s core cmd = some u) :
    Memory.wf u.mem = true := by
  unfold lineOp at hu
  split at hu
  · cases hu
  · dsimp only at hu
    split at hu
    · cases hu
    · split at hu
      · split at hu
        · cases hu
          simp [hw]
        · obtain ⟨p, -, hp⟩ := Option.bind_eq_some_iff.mp hu
          exact (engineWalk_mem _ _ _ _ hp).symm ▸ hw
      · exact (engineWalk_mem _ _ _ _ hu).symm ▸ hw
      · split at hu
        · cases hu
        · split at hu <;> cases hu <;> simp [hw]

@[simp] theorem lineHome_wf (s : State) (core gid line : Nat) (hw : Memory.wf s.mem = true) : Memory.wf (lineHome s core gid line).mem = true := by
  unfold lineHome
  grind [foldl_wf, l1Clean_wf, slotCleanPart_wf]

@[simp] theorem copyEnds_mem (s : State) (core : Nat) (r : CopyRun) : (copyEnds s core r).mem = s.mem := by simp [copyEnds]

theorem counterSend_wf (s : State) (core cmd : Nat) (hw : Memory.wf s.mem = true) {u : State} (hu : counterSend s core cmd = some u) :
    Memory.wf u.mem = true := by
  unfold counterSend at hu
  split at hu
  · cases hu
  next r _ =>
    have hl : Memory.wf (r.lines.foldl (fun s l => lineHome s core r.cmd.gang l) s).mem = true :=
      foldl_wf _ _ hw fun s l hs => lineHome_wf _ _ _ _ hs
    dsimp only at hu
    split at hu
    · cases hu
    · split at hu
      · cases hu
        simp [hw]
      · split at hu
        · rw [engineWalk_mem _ _ _ _ hu]
          exact hw
        · split at hu <;> cases hu
          simp [hl]
        · split at hu
          · cases hu
          · split at hu
            · cases hu
              split <;> simp [hl]
            · cases hu
              simp [hl]
            · split at hu <;> cases hu
              · simp [hl]
              · split <;> simp [hl]

@[simp] theorem countSources_mem (s : State) (core : Nat) (tgs : List (Nat × Target)) : (countSources s core tgs).mem = s.mem := by
  unfold countSources
  refine (foldl_fst_mem _ _ _ fun p t => ?_).trans (foldl_mem _ _ _ fun s a => l1Count_mem _ _ _)
  dsimp only
  split
  · split
    · rfl
    · exact glenCount_mem _ _ _ _
  · rfl

@[simp] theorem copyReads_wf (s : State) (hint : Hint) (src : Thread × CopyLane → Target) (tl : List (Thread × CopyLane))
    (hw : Memory.wf s.mem = true) : Memory.wf (copyReads s hint src tl).1.mem = true := by
  unfold copyReads
  exact foldl_fst_wf _ _ hw fun p t hp => readTarget_wf _ _ _ _ _ _ _ hp

@[simp] theorem copyWrites_wf (s : State) (hint : Hint) (dst : Thread × CopyLane → Target) (tl : List (Thread × CopyLane)) (vs : List Nat)
    (hw : Memory.wf s.mem = true) : Memory.wf (copyWrites s hint dst tl vs).mem = true := by
  unfold copyWrites
  exact foldl_wf _ _ (by simp [hw]) fun s a hw => by simp [hw]

@[simp] theorem copyFinish_mem (s : State) (o : Op) (lanes : List CopyLane) : (copyFinish s o lanes).mem = s.mem := by simp [copyFinish]

@[simp] theorem refuseLate_mem (s0 : State) (o : Op) (s : State) (p : Thread × CopyLane) : (refuseLate s0 o s p).mem = s.mem := by
  unfold refuseLate
  split <;> simp

@[simp] theorem refuseValue_mem (s0 : State) (o : Op) (s : State) (x : (Thread × CopyLane) × Nat) : (refuseValue s0 o s x).mem = s.mem := by
  unfold refuseValue
  dsimp only
  split <;> simp

theorem copyDone_wf (s : State) (id : Nat) (hw : Memory.wf s.mem = true) {u : State} (hu : copyDone s id = some u) : Memory.wf u.mem = true := by
  unfold copyDone at hu
  split at hu
  · cases hu
  · split at hu
    · dsimp only at hu
      split at hu
      · cases hu
      · cases hu
        simp only [copyFinish_mem]
        rw [foldl_mem _ _ _ fun s a => by simp, foldl_mem _ _ _ fun s a => by simp]
        apply copyWrites_wf
        split <;> simp [hw]
    · cases hu

theorem gmapDone_wf (s : State) (core win : Nat) (hw : Memory.wf s.mem = true) {u : State} (hu : gmapDone s core win = some u) :
    Memory.wf u.mem = true := by
  unfold gmapDone at hu
  grind [foldl_wf, l1RangeVa_wf, updWindow_mem, retarget_mem, State.updGang_mem]

theorem windowFills_wf (s : State) (core win granule : Nat) (hw : Memory.wf s.mem = true) {u : State} (hu : windowFills s core win granule = some u) :
    Memory.wf u.mem = true := by
  obtain ⟨g, -, hg⟩ := List.exists_of_findSome?_eq_some hu
  obtain ⟨p, -, rfl⟩ := Option.map_eq_some_iff.mp hg
  exact windowTouch_wf _ _ _ _ _ _ hw

@[simp] theorem unmapWindow_mem (s : State) (g : Gang) (gc win : Nat) : (unmapWindow s g gc win).mem = s.mem := by
  unfold unmapWindow
  split
  · refine (updWindow_mem _ _ _ _ _).trans (foldl_mem _ _ _ fun s p => ?_)
    exact glenWriteBytes_mem _ _ _ _
  · rfl

@[simp] theorem unmapLines_wf (s : State) (g : Gang) (gc win : Nat) (hw : Memory.wf s.mem = true) : Memory.wf (unmapLines s g gc win).mem = true := by
  unfold unmapLines
  grind [foldl_wf, l1RangeVa_wf]

theorem writeBackDone_wf (s : State) (core win : Nat) (hw : Memory.wf s.mem = true) {u : State} (hu : writeBackDone s core win = some u) :
    Memory.wf u.mem = true := by
  unfold writeBackDone at hu
  split at hu
  · cases hu
  · split at hu
    next unmap _ g _ _ =>
      have cleaned : Memory.wf (windowClean (if unmap then unmapLines s g (core - g.base) win else s) g (core - g.base) win).mem = true :=
        windowClean_wf _ _ _ _ (ite_wf (unmapLines_wf _ _ _ _ hw) hw)
      cases hu
      rw [foldl_mem _ _ _ fun s t => by simp, State.dropOp_mem, foldl_mem _ _ _ fun s t => by simp]
      refine ite_wf ?_ cleaned
      split
      · simp [cleaned]
      · exact cleaned
    · cases hu

/-! ## The matrix array -/

@[simp] theorem blamePushers_mem (s : State) (core : Nat) (c : MtxCmd) (f : MtxFault) : (blamePushers s core c f).1.mem = s.mem := by
  unfold blamePushers
  grind [foldl_mem, State.logRefused_mem, State.log_mem, State.updThread_mem]

@[simp] theorem abandon_mem (s : State) (core : Nat) (c : MtxCmd) (f : MtxFault) : (abandon s core c f).mem = s.mem := by simp [abandon]

@[simp] theorem stopLoop_mem (s : State) (core : Nat) (l : Loop) (f : MtxFault) : (stopLoop s core l f).mem = s.mem := by
  unfold stopLoop
  dsimp only
  (repeat' split) <;> simp

theorem fetchLine_wf (s : State) (core : Nat) (c : MtxCmd) (addr : W64) (hw : Memory.wf s.mem = true) {ls : List Line} {u : State}
    (hu : fetchLine s core c addr = .ok ls u) : Memory.wf u.mem = true := by
  unfold fetchLine at hu
  split at hu
  · split at hu
    · cases hu
    · cases hu
    · split at hu <;> cases hu
      exact engineRead_wf _ _ _ _ _ _ _ _ hw
  · cases hu

theorem fetchLines_wf (s : State) (core : Nat) (c : MtxCmd) (addr : W64) (n : Nat) (hw : Memory.wf s.mem = true) {ls : List Line} {u : State}
    (hu : fetchLines s core c addr n = .ok ls u) : Memory.wf u.mem = true := by
  induction n generalizing s addr ls u with
  | zero =>
    cases hu
    exact hw
  | succ n ih =>
    unfold fetchLines at hu
    split at hu
    next h1 =>
      split at hu
      next h2 =>
        cases hu
        exact ih _ _ (fetchLine_wf _ _ _ _ hw h1) h2
      next hn => exact absurd hu (hn _ _)
    next hn => exact absurd hu (hn _ _)

theorem fetchTile_wf (s : State) (core : Nat) (c : MtxCmd) (glen : Bool) (base : W64) (ty : ElemTy) (wm : Nat) (hw : Memory.wf s.mem = true)
    {ls : List Line} {u : State} (hu : fetchTile s core c glen base ty wm = .ok ls u) : Memory.wf u.mem = true := by
  unfold fetchTile at hu
  dsimp only at hu
  split at hu
  · split at hu <;> cases hu
    exact hw
  · exact fetchLines_wf _ _ _ _ _ hw hu

theorem fetchNow_wf (s : State) (core : Nat) (hw : Memory.wf s.mem = true) {c : MtxCmd} {l : Option Loop} {ls : List Line} {u : State}
    (hu : fetchNow s core = some (c, l, .ok ls u)) : Memory.wf u.mem = true := by
  unfold fetchNow at hu
  dsimp only at hu
  split at hu
  · cases hu
  · split at hu
    · split at hu
      · split at hu
        · obtain ⟨-, -, hf⟩ : _ ∧ _ ∧ _ := by simpa using hu
          exact fetchTile_wf _ _ _ _ _ _ _ hw hf
        · cases hu
      · cases hu
    · split at hu
      · split at hu
        · obtain ⟨-, -, hf⟩ : _ ∧ _ ∧ _ := by simpa using hu
          exact fetchTile_wf _ _ _ _ _ _ _ hw hf
        · cases hu
      · cases hu
    · cases hu

theorem tileDone_wf (s : State) (core : Nat) (hw : Memory.wf s.mem = true) {u : State} (hu : tileDone s core = some u) : Memory.wf u.mem = true := by
  unfold tileDone at hu
  split at hu
  next h =>
    cases hu
    simp [fetchNow_wf _ _ hw h]
  · exact (engineWalk_mem _ _ _ _ hu).symm ▸ hw
  · cases hu

theorem drainRows_mem (s : State) (gid : Nat) (a : MtxArray) (e : Epi) (addr : W64) (stride : Nat) (l : List Nat) {u : State}
    (hu : drainRows s gid a e addr stride l = .ok u) : u.mem = s.mem := by
  induction l generalizing s with
  | nil => cases hu; rfl
  | cons m ms ih =>
    unfold drainRows at hu
    dsimp only at hu
    split at hu
    · cases hu
    · exact (ih _ hu).trans (glenWriteN_mem _ _ _ _ _)

theorem beginEffect_mem (s : State) (core : Nat) (c : MtxCmd) {u : State} (hu : beginEffect s core c = .ok u) : u.mem = s.mem := by
  cases hk : c.kind <;> simp only [beginEffect, hk] at hu
  case wswap =>
    split at hu <;> cases hu
    exact updArray_mem _ _ _
  case accld =>
    split at hu <;> cases hu
    exact updArray_mem _ _ _
  case accst =>
    split at hu <;> cases hu
    rw [foldl_mem _ _ _ fun s i => by simp]
  case drain =>
    split at hu
    · cases hu
    · split at hu <;> cases hu
      next h => exact drainRows_mem _ _ _ _ _ _ _ h
  case epi =>
    split at hu
    · split at hu <;> cases hu
      exact updArray_mem _ _ _
    · cases hu
      exact updArray_mem _ _ _
  case zero => exact Except.ok.inj hu ▸ updArray_mem _ _ _
  all_goals exact Except.ok.inj hu ▸ rfl

theorem commandBegins_mem (s : State) (core : Nat) {u : State} (hu : commandBegins s core = some u) : u.mem = s.mem := by
  unfold commandBegins at hu
  grind [updArray_mem, sweepRow_mem, abandon_mem, beginEffect_mem]

theorem commandCompletes_mem (s : State) (core : Nat) {u : State} (hu : commandCompletes s core = some u) : u.mem = s.mem := by
  unfold commandCompletes at hu
  grind [sweepRow_mem, deliverPushers_mem, updArray_mem, loopEnds_mem]

theorem panelStage_mem (s : State) (core : Nat) (l : Loop) (second : Bool) {u : State} {i j : Nat}
    (hu : panelStage s core l second = some (i, j, u)) : u.mem = s.mem := by
  unfold panelStage at hu
  grind [updRing_mem, updArray_mem]

theorem takeRow_mem (s : State) (core : Nat) (l : Loop) (len : Nat) {u : State} (hu : takeRow s core l len = some u) : u.mem = s.mem := by
  unfold takeRow at hu
  grind [updArray_mem, State.updRow_mem]

def PanelRes.KeepsMemOf (t : State) : PanelRes → Prop
  | .wait => True
  | .part s => s.mem = t.mem
  | .bad _ s => s.mem = t.mem
  | .ok _ s => s.mem = t.mem

theorem panelOf_mem (s : State) (core : Nat) (l : Loop) (act : ElemTy) (addr : W64) (word stride : W32) (mprog : Nat) :
    (panelOf s core l act addr word stride mprog).KeepsMemOf s := by
  unfold panelOf
  dsimp only
  split
  · split <;> rfl
  · split
    · rfl
    · split
      next h => exact takeRow_mem _ _ _ _ h
      · trivial
  · split
    · rfl
    · split
      · split
        · trivial
        · exact updArray_mem _ _ _
      next h =>
        have hs := panelStage_mem _ _ _ _ h
        split
        · trivial
        · split
          · split
            · exact hs
            · exact (updRing_mem _ _ _ _ _).trans hs
          · trivial

theorem stepLoop_mem (s : State) (core : Nat) {u : State} (hu : stepLoop s core = some u) : u.mem = s.mem := by
  unfold stepLoop at hu
  dsimp only at hu
  split at hu
  · cases hu
  next l _ =>
    split at hu
    next act addr _ word stride _ =>
      have hp := panelOf_mem s core l act addr word stride (arrayOf s core).mprog
      split at hu
      · cases hu
      · split at hu
        next h =>
          rw [h] at hp
          cases hu
          simpa [PanelRes.KeepsMemOf] using hp
        next h =>
          rw [h] at hp
          cases hu
          exact hp
        · cases hu
    · cases hu

theorem drainDue_mem (s : State) (core : Nat) {u : State} (hu : drainDue s core = some u) : u.mem = s.mem := by
  unfold drainDue at hu
  grind [foldl_mem, State.updThread_mem, updArray_mem]

theorem loopFailure_mem (s : State) (core : Nat) {l : Loop} {f : MtxFault} {u : State} (hu : loopFailure s core = some (l, f, u)) :
    u.mem = s.mem := by
  unfold loopFailure at hu
  dsimp only at hu
  split at hu
  · cases hu
  next l _ =>
    split at hu
    next act addr _ word stride _ =>
      have hp := panelOf_mem s core l act addr word stride (arrayOf s core).mprog
      split at hu
      · cases hu
      · split at hu
        · cases hu
          rfl
        · split at hu
          next h =>
            rw [h] at hp
            cases hu
            exact hp
          · cases hu
        · split at hu
          · split at hu <;> cases hu
            rfl
          · cases hu
    · cases hu

theorem engineFails_mem (s : State) (core : Nat) {u : State} (hu : engineFails s core = some u) : u.mem = s.mem := by
  unfold engineFails at hu
  split at hu
  · cases hu
    simp
  · split at hu
    next h =>
      cases hu
      simp [loopFailure_mem _ _ h]
    · obtain ⟨l, -, rfl⟩ := Option.map_eq_some_iff.mp hu
      exact abortLoop_mem _ _ _

end Sys2Proof.Machine
end

section
/-! SUPPORT. What the events of tasks, ladders, contexts, debug and the host do to the memory of the device. -/

namespace Sys2Proof.Machine

/-! ## The task engines -/

@[simp] theorem forget_mem (s : State) (task : Nat) : (forget s task).mem = s.mem := by rfl

@[simp] theorem refuseTask_wf (s : State) (k : Task) (agent reason : Nat) (hw : Memory.wf s.mem = true) :
    Memory.wf (refuseTask s k agent reason).mem = true := by simp [refuseTask, hw]

@[simp] theorem takeForwards_mem (s : State) (k : Task) : (takeForwards s k).mem = s.mem := by rfl

@[simp] theorem writeUsed_wf (s : State) (k : Task) (used : Option W64) (hw : Memory.wf s.mem = true) :
    Memory.wf (writeUsed s k used).mem = true := by
  unfold writeUsed
  split <;> simp [hw]

theorem dispatch_wf (s : State) (task : Nat) (hw : Memory.wf s.mem = true) {u : State} (hu : dispatch s task = some u) : Memory.wf u.mem = true := by
  unfold dispatch at hu
  grind [writeUsed_wf, readsRefused_mem, State.updCtx_mem, takeForwards_mem, State.updTask_mem, refuseTask_wf]

@[simp] theorem clearWindows_mem (s : State) (core : Nat) (g : GangRec) : (clearWindows s core g).mem = s.mem := by rfl

@[simp] theorem startCore_wf (s : State) (k : Task) (g : GangRec) (core : Nat) (hw : Memory.wf s.mem = true) :
    Memory.wf (startCore s k g core).mem = true := by
  unfold startCore
  grind [foldl_wf, l1RangeVa_wf, State.updCore_mem]

@[simp] theorem fillGranule_wf (s : State) (k : Task) (gid c w : Nat) (va : W64) (hw : Memory.wf s.mem = true) :
    Memory.wf (fillGranule s k gid c w va).mem = true := by
  unfold fillGranule
  split
  · split
    · simp [hw]
    · split
      · simp [hw]
      · split
        · simp [hw]
        next h1 =>
          have hs := afterFlush_wf _ _ _ hw h1
          split
          · simp [hs]
          next h2 => simp [afterFlush_wf _ _ _ hs h2]
  · simp [hw]
  · exact hw

@[simp] theorem prefill_wf (s : State) (k : Task) (gid : Nat) (g : GangRec) (hw : Memory.wf s.mem = true) :
    Memory.wf (prefill s k gid g).mem = true := by
  unfold prefill
  grind [foldl_wf, fillGranule_wf]

@[simp] theorem placeGang_wf (s : State) (k : Task) (g : GangRec) (base threads : Nat) (slots : List (List Nat)) (index : W32) (pc : W64)
    (rpc : Nat) (dress : Thread → Thread) (hw : Memory.wf s.mem = true) :
    Memory.wf (placeGang s k g base threads slots index pc rpc dress).mem = true := by
  unfold placeGang
  dsimp only
  refine foldl_wf _ _ ?_ fun s c hs => foldl_wf _ _ hs fun s sl hs => ?_
  · apply prefill_wf
    have hc := foldl_wf ((List.range g.cores).map (fun i => base + i)) (fun s c => clearWindows (startCore s k g c) c g) hw fun s c hs => by simp [hs]
    split
    · rw [foldl_mem _ _ _ fun s c => by simp]
      exact hc
    · exact hc
  · exact ite_wf hs (by simp [hs])

theorem dieReady_mem (s : State) (die : Nat) {u : State} (hu : dieReady s die = some (some u)) : u.mem = s.mem := by
  unfold dieReady at hu
  grind

theorem placement_wf (s : State) (task base : Nat) (hw : Memory.wf s.mem = true) {u : State} (hu : placement s task base = some u) :
    Memory.wf u.mem = true := by
  unfold placement at hu
  grind [dieReady_mem, placeGang_wf, State.updTask_mem, publish_wf]

@[simp] theorem freeGang_wf (s : State) (g : Gang) (hw : Memory.wf s.mem = true) : Memory.wf (freeGang s g).mem = true := by
  unfold freeGang
  refine foldl_wf _ _ hw fun s c hs => ?_
  dsimp only
  rw [State.updCore_mem]
  refine foldl_wf _ _ hs fun s w hs => ?_
  split <;> simp [hs]

@[simp] theorem ladderFails_wf (s : State) (k : Task) (code sub : Nat) (addr : W64) (hw : Memory.wf s.mem = true) :
    Memory.wf (ladderFails s k code sub addr).mem = true := by simp [ladderFails, hw]

@[simp] theorem afterRetire_wf (s : State) (task : Nat) (hw : Memory.wf s.mem = true) : Memory.wf (afterRetire s task).mem = true := by
  unfold afterRetire
  dsimp only
  (repeat' split) <;> simp [hw]

theorem retirement_wf (s : State) (gang : Nat) (hw : Memory.wf s.mem = true) {u : State} (hu : retirement s gang = some u) :
    Memory.wf u.mem = true := by
  unfold retirement at hu
  grind [freeGang_wf, State.updTask_mem, afterRetire_wf, publish_wf]

@[simp] theorem setCursor_wf (s : State) (task ph rix six off : Nat) (hw : Memory.wf s.mem = true) :
    Memory.wf (setCursor s task ph rix six off).mem = true := by simp [setCursor, hw]

@[simp] theorem endTask_wf (s : State) (k : Task) (st : Nat) (hw : Memory.wf s.mem = true) :
    Memory.wf (endTask s k st).mem = true := by simp [endTask, hw]

@[simp] theorem edgeLine_wf (s : State) (k : Task) (r : Region) (line : Nat) (hw : Memory.wf s.mem = true) :
    Memory.wf (edgeLine s k r line).mem = true := by
  unfold edgeLine
  refine foldl_wf _ _ hw fun s c hs => ?_
  split
  · simp [hs]
  · split <;> simp [hs]

@[simp] theorem edgeFrom_wf (s : State) (k : Task) (i : Nat) (hw : Memory.wf s.mem = true) : Memory.wf (edgeFrom s k i).mem = true := by
  unfold edgeFrom
  (repeat' split) <;> simp [hw]

@[simp] theorem edgeNext_wf (s : State) (k : Task) (r : Region) (hw : Memory.wf s.mem = true) : Memory.wf (edgeNext s k r).mem = true := by
  unfold edgeNext
  split <;> simp [hw]

theorem edgeStep_wf (s : State) (task : Nat) (hw : Memory.wf s.mem = true) {u : State} (hu : edgeStep s task = some u) : Memory.wf u.mem = true := by
  unfold edgeStep at hu
  grind [edgeFrom_wf, edgeNext_wf, edgeLine_wf]

@[simp] theorem decrementSuccessor_wf (s : State) (k : Task) (list : W64) (i : Nat) (hw : Memory.wf s.mem = true) :
    Memory.wf (decrementSuccessor s k list i).mem = true := by
  unfold decrementSuccessor
  grind [unitRead_wf, State.logRefused_mem, State.free_mem, decrement_wf, State.stampWrite_mem]

theorem successorStep_wf (s : State) (task : Nat) (hw : Memory.wf s.mem = true) {u : State} (hu : successorStep s task = some u) :
    Memory.wf u.mem = true := by
  unfold successorStep at hu
  grind [setCursor_wf, decrementSuccessor_wf, State.updTask_mem, State.logRefused_mem]

theorem signalStep_wf (s : State) (task : Nat) (hw : Memory.wf s.mem = true) {u : State} (hu : signalStep s task = some u) :
    Memory.wf u.mem = true := by
  unfold signalStep at hu
  grind [endTask_wf, unitWord_wf, State.notify_mem, State.logRefused_mem]

/-! ## The ladder units -/

@[simp] theorem zeroEntries_wf (s : State) (c : Nat) (base : W64) (n : Nat) (hw : Memory.wf s.mem = true) :
    Memory.wf (zeroEntries s c base n).1.mem = true := by
  induction n with
  | zero => exact hw
  | succ n ih =>
    unfold zeroEntries
    split
    next h =>
      rw [h] at ih
      exact ih
    next h =>
      rw [h] at ih
      exact unitWord_wf _ _ _ _ _ ih

@[simp] theorem zeroResults_wf (s : State) (c : Nat) (l : Ladder) (hw : Memory.wf s.mem = true) : Memory.wf (zeroResults s c l).1.mem = true := by
  unfold zeroResults
  grind [zeroEntries_wf, unitWord_wf]

theorem startLadder_wf (s : State) (task : Nat) (hw : Memory.wf s.mem = true) {u : State} (hu : startLadder s task = some u) :
    Memory.wf u.mem = true := by
  unfold startLadder at hu
  grind [State.updCtx_mem, writeUsed_wf, readsRefused_mem, refuseTask_wf, takeForwards_mem, State.updTask_mem, zeroResults_wf, ladderFails_wf]

theorem tryWrite_wf (s : State) (k : Task) (l : Ladder) (w : LadderWrite) (hw : Memory.wf s.mem = true) {u : State} {f : Option (Nat × Nat × W64)}
    (hu : tryWrite s k l w = some (u, f)) : Memory.wf u.mem = true := by
  unfold tryWrite at hu
  grind [unitWrite_wf, unitWord_wf]

@[simp] theorem sweepWriter_mem (s : State) (w : LadderWrite) : (sweepWriter s w).mem = s.mem := by
  unfold sweepWriter
  split <;> simp

theorem ladderArrives_wf (s : State) (task wr : Nat) (hw : Memory.wf s.mem = true) {u : State} (hu : ladderArrives s task wr = some u) :
    Memory.wf u.mem = true := by
  unfold ladderArrives at hu
  split at hu
  · cases hu
  · split at hu
    · cases hu
    · split at hu
      · split at hu
        next h =>
          cases hu
          simp [tryWrite_wf _ _ _ _ hw h]
        · cases hu
      · cases hu

theorem starves_mem (s : State) (task rung : Nat) {u : State} (hu : starves s task rung = some u) : u.mem = s.mem := by
  unfold starves at hu
  split at hu
  · cases hu
  · split at hu
    · cases hu
    · split at hu
      · cases hu
      · split at hu
        · cases hu
        · split at hu
          · cases hu
            exact State.updTask_mem _ _ _
          · split at hu
            · split at hu <;> cases hu
              exact State.updTask_mem _ _ _
            · cases hu

theorem rungPlacement_wf (s : State) (task core : Nat) (hw : Memory.wf s.mem = true) {u : State} (hu : rungPlacement s task core = some u) :
    Memory.wf u.mem = true := by
  unfold rungPlacement at hu
  split at hu
  · cases hu
  · split at hu
    · cases hu
    · split at hu
      · cases hu
      · split at hu
        · cases hu
        · split at hu
          · cases hu
          · split at hu
            · cases hu
            · split at hu
              · cases hu
              next h =>
                cases hu
                exact (dieReady_mem _ _ h).symm ▸ hw
              · cases hu
                split <;> simp [hw]

theorem resultWrites_wf (s : State) (task wr : Nat) (hw : Memory.wf s.mem = true) {u : State} (hu : resultWrites s task wr = some u) :
    Memory.wf u.mem = true := by
  unfold resultWrites at hu
  split at hu
  · cases hu
  · split at hu
    · cases hu
    · split at hu
      · split at hu
        next h =>
          cases hu
          simp [tryWrite_wf _ _ _ _ hw h]
        · cases hu
      · cases hu

theorem tryWatermark_wf (s : State) (k : Task) (l : Ladder) (hw : Memory.wf s.mem = true) {u : State} {f : Option (Nat × Nat × W64)}
    (hu : tryWatermark s k l = some (u, f)) : Memory.wf u.mem = true := by
  unfold tryWatermark at hu
  grind [unitWord_wf]

theorem watermarkWrites_wf (s : State) (task : Nat) (hw : Memory.wf s.mem = true) {u : State} (hu : watermarkWrites s task = some u) :
    Memory.wf u.mem = true := by
  unfold watermarkWrites at hu
  grind [tryWatermark_wf, afterRetire_wf, updLadder_mem]

theorem ladderWriteFails_wf (s : State) (task wr : Nat) (hw : Memory.wf s.mem = true) {u : State} (hu : ladderWriteFails s task wr = some u) :
    Memory.wf u.mem = true := by
  unfold ladderWriteFails at hu
  split at hu
  · cases hu
  · split at hu
    · cases hu
    · split at hu
      · split at hu
        next h =>
          cases hu
          simp [tryWrite_wf _ _ _ _ hw h]
        · cases hu
      · split at hu
        next h =>
          cases hu
          simp [tryWatermark_wf _ _ _ hw h]
        · cases hu

/-! ## Contexts -/

@[simp] theorem hostRefused_mem (s : State) (addr : W64) : (hostRefused s addr).mem = s.mem := by simp [hostRefused]

@[simp] theorem hostDiscarded_mem (s : State) (c : Nat) (addr : W64) : (hostDiscarded s c addr).mem = s.mem := by simp [hostDiscarded]

@[simp] theorem whenReady_mem (s : State) (off : Nat) (f : State → State) (hf : ∀ (a0 : State), (f a0).mem = a0.mem) :
    (whenReady s off f).mem = s.mem := by simp [whenReady, hf]

theorem whenReady_wf (s : State) (off : Nat) (f : State → State) (hw : Memory.wf s.mem = true)
    (hf : ∀ u, Memory.wf u.mem = true → Memory.wf (f u).mem = true) : Memory.wf (whenReady s off f).mem = true := by
  unfold whenReady
  split
  · exact hf s hw
  · simp [hw]

@[simp] theorem requestPreempt_mem (s : State) (c : Nat) : (requestPreempt s c).mem = s.mem := by simp [requestPreempt]

theorem notchStops_wf (s : State) (tid : Nat) (hw : Memory.wf s.mem = true) {u : State} (hu : notchStops s tid = some u) :
    Memory.wf u.mem = true := by
  unfold notchStops at hu
  grind [State.updThread_mem, detach_mem]

@[simp] theorem saveLadders_wf (s : State) (c : Nat) (hw : Memory.wf s.mem = true) : Memory.wf (saveLadders s c).mem = true := by
  unfold saveLadders
  grind [foldl_wf, writeObject_wf, failTask_wf, State.updTask_mem]

@[simp] theorem saveGang_mem (s0 s : State) (g : Gang) : (saveGang s0 s g).mem = s.mem := by
  unfold saveGang
  dsimp only
  refine (State.updGang_mem _ _ _).trans (foldl_mem _ _ _ fun s k => ?_)
  exact State.updCore_mem _ _ _

@[simp] theorem clearCores_wf (s : State) (c : Nat) (hw : Memory.wf s.mem = true) : Memory.wf (clearCores s c).mem = true := by
  unfold clearCores
  dsimp only
  refine foldl_wf _ _ hw fun s k hs => foldl_wf _ _ hs fun s l hl => ?_
  exact l1Flush_wf _ _ _ hl

theorem saveContext_wf (s : State) (c : Nat) (hw : Memory.wf s.mem = true) {u : State} (hu : saveContext s c = some u) : Memory.wf u.mem = true := by
  unfold saveContext at hu
  split at hu
  · cases hu
  · dsimp only at hu
    rw [← Option.some.inj hu, State.updCtx_mem]
    exact foldl_wf _ _ (clearCores_wf _ _ (saveLadders_wf _ _ hw)) fun u g hu => (saveGang_mem _ _ _).symm ▸ hu

theorem notchlimExpires_wf (s : State) (c : Nat) (hw : Memory.wf s.mem = true) {u : State} (hu : notchlimExpires s c = some u) :
    Memory.wf u.mem = true := by
  unfold notchlimExpires at hu
  grind [terminate_wf]

@[simp] theorem wakeDies_mem (s : State) (c : Nat) : (wakeDies s c).mem = s.mem := by
  unfold wakeDies
  grind [foldl_mem, dieReady_mem]

@[simp] theorem putBytes_mem (s : State) (core : Nat) (w : Gang) (l : List Host.Cell) : (putBytes s core w l).mem = s.mem := by rfl

@[simp] theorem restoreGang_mem (s : State) (g : Gang) : (restoreGang s g).mem = s.mem := by
  unfold restoreGang
  grind [foldl_mem, putBytes_mem, updArray_mem, State.updCore_mem, State.updGang_mem]

@[simp] theorem refillQueues_mem (s : State) (gs : List Gang) : (refillQueues s gs).mem = s.mem := by
  unfold refillQueues
  exact foldl_mem _ _ _ fun s a => by simp

@[simp] theorem restoreThread_mem (s : State) (tid : Nat) : (restoreThread s tid).mem = s.mem := by
  unfold restoreThread
  split <;> simp

@[simp] theorem takeSeats_mem (s : State) (c : Nat) : (takeSeats s c).mem = s.mem := by simp [takeSeats]

theorem seatMove_mem (s : State) (c : Nat) {u : State} (hu : seatMove s c = some u) : u.mem = s.mem := by
  unfold seatMove at hu
  grind [takeSeats_mem, State.updCtx_mem, wakeDies_mem]

@[simp] theorem setFail_mem (s : State) (c : Nat) (b : Bool) : (setFail s c b).mem = s.mem := by rfl

@[simp] theorem hostCommand_mem (s : State) (c : Nat) (okIn : List Nat) (act : State → State) (hact : ∀ (a0 : State), (act a0).mem = a0.mem) :
    (hostCommand s c okIn act).mem = s.mem := by simp [hostCommand, hact]

theorem hostCommand_wf (s : State) (c : Nat) (okIn : List Nat) (act : State → State) (hw : Memory.wf s.mem = true)
    (hact : ∀ u, Memory.wf u.mem = true → Memory.wf (act u).mem = true) : Memory.wf (hostCommand s c okIn act).mem = true := by
  unfold hostCommand
  split
  · exact hw
  · refine whenReady_wf _ _ _ hw fun u hu => ?_
    split
    · simp [hu]
    · split
      · exact hact _ (by simp [hu])
      · simp [hu]

@[simp] theorem clearTlb_mem (s : State) (c : Nat) : (clearTlb s c).mem = s.mem := by rfl

@[simp] theorem clearCode_mem (s : State) (c : Nat) : (clearCode s c).mem = s.mem := by rfl

@[simp] theorem createContext_mem (s : State) (c : Nat) : (createContext s c).mem = s.mem := by simp [createContext]

@[simp] theorem restoreCmd_mem (s : State) (c : Nat) : (restoreCmd s c).mem = s.mem := by
  unfold restoreCmd
  cases h : seatMove (s.updCtx c fun x => { x with busy := true, restore := true }) c with
  | none => simp [h]
  | some u => simpa [h] using seatMove_mem _ _ h

@[simp] theorem terminateCmd_wf (s : State) (c : Nat) (hw : Memory.wf s.mem = true) : Memory.wf (terminateCmd s c).mem = true := by
  unfold terminateCmd
  split
  · exact hw
  · refine whenReady_wf _ _ _ hw fun u hu => ?_
    split <;> simp [hu]

@[simp] theorem destroyContext_wf (s : State) (c : Nat) (hw : Memory.wf s.mem = true) : Memory.wf (destroyContext s c).mem = true := by
  unfold destroyContext
  split <;> simp [hw]

theorem sliceExpires_mem (s : State) (c : Nat) {u : State} (hu : sliceExpires s c = some u) : u.mem = s.mem := by
  unfold sliceExpires at hu
  grind [State.updCtx_mem, requestPreempt_mem]

/-! ## Debugging -/

theorem takesSample_wf (s : State) (c core : Nat) (hw : Memory.wf s.mem = true) {u : State} (hu : takesSample s c core = some u) :
    Memory.wf u.mem = true := by
  unfold takesSample at hu
  grind [State.updCore_mem, dbgRecord_wf]

theorem setHaltAll_mem (s : State) (c : Nat) (on : Bool) {u : State} (hu : setHaltAll s c on = some u) : u.mem = s.mem := by
  unfold setHaltAll at hu
  grind [State.dbgTouch_mem, State.updCtx_mem]

theorem takeCmd_mem (s : State) (c core slot lane cmd : Nat) {u : State} (hu : takeCmd s c core slot lane cmd = some u) : u.mem = s.mem := by
  unfold takeCmd at hu
  grind [State.updThread_mem, State.dbgTouch_mem, enterTable_mem]

@[simp] theorem windowRefused_mem (s : State) (c off : Nat) : (windowRefused s c off).mem = s.mem := by simp [windowRefused]

@[simp] theorem windowFault_mem (s : State) (c pa : Nat) (f : Nat × Nat) : (windowFault s c pa f).mem = s.mem := by simp [windowFault]

theorem windowAccess_wf (s : State) (agent c off : Nat) (write : Bool) (v : W64) (hw : Memory.wf s.mem = true) {u : State}
    (hu : windowAccess s agent c off write v = some u) : Memory.wf u.mem = true := by
  unfold windowAccess at hu
  grind [windowRefused_mem, windowFault_mem, State.agentWriteN_wf, State.homeReadN_wf, State.dbgWrite_mem, State.dbgTouch_mem]

/-! ## The host and the peers -/

@[simp] theorem setFrw_mem (s : State) (n : Nat) (w : Frw) : (setFrw s n w).mem = s.mem := by rfl

@[simp] theorem ctlWrite_mem (s : State) (n : Nat) (v : W64) : (ctlWrite s n v).mem = s.mem := by simp [ctlWrite]

@[simp] theorem hostCtl_mem (s : State) (n : Nat) (v : W64) : (hostCtl s n v).mem = s.mem := by simp [hostCtl]

theorem flushDone_wf (s : State) (n : Nat) (hw : Memory.wf s.mem = true) {u : State} (hu : flushDone s n = some u) : Memory.wf u.mem = true := by
  unfold flushDone at hu
  grind [State.flushView_wf]

@[simp] theorem frwRegWrite_mem (s : State) (n r : Nat) (v : W64) : (frwRegWrite s n r v).mem = s.mem := by simp [frwRegWrite]

@[simp] theorem hostSubmit_wf (s : State) (c q : Nat) (v : W64) (hw : Memory.wf s.mem = true) : Memory.wf (hostSubmit s c q v).mem = true := by
  unfold hostSubmit
  dsimp only
  (repeat' split) <;> simp [hw]

@[simp] theorem powerStart_mem (s : State) (die target : Nat) : (powerStart s die target).mem = s.mem := by
  unfold powerStart
  split <;> simp

@[simp] theorem powerRequest_mem (s : State) (die r : Nat) : (powerRequest s die r).mem = s.mem := by
  unfold powerRequest
  split <;> simp

@[simp] theorem hostPower_mem (s : State) (die r : Nat) : (hostPower s die r).mem = s.mem := by simp [hostPower]

@[simp] theorem dieSleeps_wf (s : State) (die target : Nat) (hw : Memory.wf s.mem = true) : Memory.wf (dieSleeps s die target).mem = true := by
  unfold dieSleeps
  grind [foldl_wf, l1Flush_wf, State.updCore_mem]

theorem powerReached_wf (s : State) (die : Nat) (hw : Memory.wf s.mem = true) {u : State} (hu : powerReached s die = some u) :
    Memory.wf u.mem = true := by
  unfold powerReached at hu
  grind [dieSleeps_wf, powerStart_mem]

@[simp] theorem setIdent_mem (s : State) (f : Identity → Identity) : (setIdent s f).mem = s.mem := by rfl

@[simp] theorem kmapWrites_mem (s : State) (off n : Nat) (v : W64) : (kmapWrites s off n v).mem = s.mem := by
  have written (u : State) (i g : Nat) : (if 768 ≤ g then u else if granuleLive s g then hostDiscarded u 0 (bar0 (off + i))
      else setIdent u (fun x => { x with kmap := setKmap x.kmap g (BitVec.ofNat 8 (v.toNat / 256 ^ i) &&& 0xBF#8) })).mem = u.mem := by
    rw [ite_mem, ite_mem, hostDiscarded_mem, setIdent_mem, ite_self, ite_self]
  unfold kmapWrites
  refine foldl_mem _ _ _ fun u i => (congrArg State.mem ?_).trans (written u i (off - 0x2000 + i))
  rfl

@[simp] theorem keyWrite_mem (s : State) (off : Nat) (v : W64) : (keyWrite s off v).mem = s.mem := by simp [keyWrite]

@[simp] theorem lcOpens_mem (s : State) : (lcOpens s).mem = s.mem := by simp [lcOpens]

@[simp] theorem lcRetires_wf (s : State) (hw : Memory.wf s.mem = true) : Memory.wf (lcRetires s).mem = true := by
  unfold lcRetires
  refine (setIdent_mem _ _).symm ▸ foldl_wf _ _ hw fun s c hs => ?_
  dsimp only
  split <;> split <;> simp [hs]

theorem signed_mem (s : State) {u : State} (hu : signed s = some u) : u.mem = s.mem := by
  unfold signed at hu
  grind [setIdent_mem]

@[simp] theorem bringUp_mem (s : State) : (bringUp s).mem = s.mem := by
  unfold bringUp
  exact setIdent_mem _ _

@[simp] theorem perst_mem (s : State) : (perst s).mem = s.mem := by simp [perst]

@[simp] theorem bootGo_mem (s : State) : (bootGo s).mem = s.mem := by simp [bootGo]

@[simp] theorem contextWrite_mem (s : State) (c r : Nat) (v : W64) : (contextWrite s c r v).mem = s.mem := by simp [contextWrite]

@[simp] theorem cmdWrite_wf (s : State) (c : Nat) (v : W64) (hw : Memory.wf s.mem = true) : Memory.wf (cmdWrite s c v).mem = true := by
  unfold cmdWrite
  generalize hs : (if v.getLsbD 15 then s.updCtx c (fun x => { x with lost := false }) else s) = s1
  have h1 : Memory.wf s1.mem = true := by
    rw [← hs]
    split <;> simp [hw]
  dsimp only
  split
  · exact h1
  · simp [h1]
  · simp [h1]
  · simp [h1]
  · exact terminateCmd_wf _ _ h1
  · simp [h1]
  · exact hostCommand_wf _ _ _ _ h1 fun u hu => destroyContext_wf u c hu
  · simp [h1]

@[simp] theorem identWrite_wf (s : State) (off : Nat) (v : W64) (hw : Memory.wf s.mem = true) : Memory.wf (identWrite s off v).mem = true := by
  unfold identWrite
  (repeat' split) <;> simp [hw]

@[simp] theorem barWrite_wf (s : State) (off : Nat) (v : W64) (hw : Memory.wf s.mem = true) : Memory.wf (barWrite s off v).mem = true := by
  unfold barWrite
  (repeat' split) <;> simp [hw]

@[simp] theorem memRefused_mem (s : State) (agent c pa code sub : Nat) : (memRefused s agent c pa code sub).mem = s.mem := by simp [memRefused]

@[simp] theorem stagingAccess_mem (s : State) (write : Bool) (pa n : Nat) (v : W64) :
    (stagingAccess s write pa n v).mem = s.mem := by simp [stagingAccess]

@[simp] theorem memoryAccess_wf (s : State) (write : Bool) (pa n : Nat) (v : W64) (hw : Memory.wf s.mem = true) :
    Memory.wf (memoryAccess s write pa n v).mem = true := by
  unfold memoryAccess
  dsimp only
  (repeat' split) <;> simp [hw]

theorem hostAccess_wf (s : State) (write : Bool) (pa n : Nat) (v : W64) (hw : Memory.wf s.mem = true) {u : State}
    (hu : hostAccess s write pa n v = some u) : Memory.wf u.mem = true := by
  unfold hostAccess at hu
  dsimp only at hu
  split at hu
  · cases hu
  · split at hu
    · split at hu
      · split at hu
        · rw [← Option.some.inj hu]
          exact barWrite_wf _ _ _ hw
        · split at hu
          · rw [← Option.some.inj hu, kmapWrites_mem]
            exact hw
          · cases hu
      · split at hu
        · rw [← Option.some.inj hu]
          exact hw
        · rw [← Option.some.inj hu, memRefused_mem]
          exact hw
    · split at hu
      · rw [← Option.some.inj hu]
        exact memoryAccess_wf _ _ _ _ _ hw
      · split at hu
        · rw [← Option.some.inj hu, stagingAccess_mem]
          exact hw
        · rw [← Option.some.inj hu, memRefused_mem]
          exact hw

@[simp] theorem peerWord_wf (s : State) (c pa n : Nat) (acc : PeerAcc) (hw : Memory.wf s.mem = true) :
    Memory.wf (peerWord s c pa n acc).s.mem = true := by
  unfold peerWord
  dsimp only
  (repeat' split) <;> simp [hw]

@[simp] theorem peerStarts_wf (s : State) (c pa n : Nat) (op : WordOp) (limit : W32) (hw : Memory.wf s.mem = true) :
    Memory.wf (peerStarts s c pa n op limit).mem = true := by
  unfold peerStarts
  dsimp only
  split <;> simp [hw]

@[simp] theorem peerActs_wf (s : State) (c pa n : Nat) (acc : PeerAcc) (hw : Memory.wf s.mem = true) :
    Memory.wf (peerActs s c pa n acc).mem = true := by
  unfold peerActs
  dsimp only
  (repeat' split) <;> simp [hw]

theorem peerDoes_wf (s : State) (peer : Nat) (acc : PeerAcc) (pa n : Nat) (hw : Memory.wf s.mem = true) {u : State}
    (hu : peerDoes s peer acc pa n = some u) : Memory.wf u.mem = true := by
  unfold peerDoes at hu
  grind [State.peerRefused_mem, peerActs_wf]

/-! ## The draw of a lane -/

@[simp] theorem drawLane_mem (s : State) (l : Lane) : (drawLane s l).2.mem = s.mem := by rfl

/-! ## Moves and the passing of a clk -/

@[simp] theorem classed_wf (s : State) (core : Nat) (hw : Memory.wf s.mem = true) : Memory.wf (classed s core).mem = true := by simp [classed, hw]

@[simp] theorem tick_wf (s : State) (hw : Memory.wf s.mem = true) : Memory.wf (tick s).mem = true := by simp [tick, hw]

@[simp] theorem loadLimit_mem (s : State) (c : Nat) (v : W32) : (loadLimit s c v).mem = s.mem := by simp [loadLimit]

@[simp] theorem rearm_mem (s s' : State) : (rearm s s').mem = s'.mem := by
  unfold rearm
  split <;> rfl

@[simp] theorem trimVale_wf (s : State) (n : Nat) (hw : Memory.wf s.mem = true) : Memory.wf (trimVale s n).mem = true := by
  induction n generalizing s with
  | zero => exact hw
  | succ n ih =>
    unfold trimVale
    dsimp only
    split
    · exact hw
    · exact ih _ (by simp [hw])

@[simp] theorem trimL1_wf (s : State) (core n : Nat) (hw : Memory.wf s.mem = true) : Memory.wf (trimL1 s core n).mem = true := by
  induction n generalizing s with
  | zero => exact hw
  | succ n ih =>
    unfold trimL1
    dsimp only
    split
    · exact hw
    · exact ih _ (by simp [hw])

@[simp] theorem dropSome_mem (s : State) {α : Type} (l : List α) (n : Nat) : (dropSome s l n).1.mem = s.mem := by
  induction n generalizing s l with
  | zero => rfl
  | succ n ih => exact ih _ _

@[simp] theorem trimCore_wf (s : State) (core : Nat) (hw : Memory.wf s.mem = true) : Memory.wf (trimCore s core).mem = true := by
  unfold trimCore
  simp [hw]

@[simp] theorem trim_wf (s : State) (hw : Memory.wf s.mem = true) : Memory.wf (trim s).mem = true := by
  unfold trim
  grind [foldl_wf, trimCore_wf, trimVale_wf]

end Sys2Proof.Machine
end

section
/-! SUPPORT. Every answer, and so every step, keeps the memory in canonical form. -/

namespace Sys2Proof.Machine

/-! ## Answers -/

/-- The next state that an answer gives, where it gives one, has its memory in canonical form. -/
def NextWf (o : Out) : Prop := ∀ u, o = .next u → Memory.wf u.mem = true

theorem nextWf_next {s : State} (hw : Memory.wf s.mem = true) : NextWf (.next s) := by
  rintro u ⟨⟩
  exact hw

theorem withGrp_nextWf {s : State} {f : Grp → State} (hf : ∀ g, Memory.wf (f g).mem = true) : NextWf (withGrp s f) := by
  unfold withGrp
  split
  · exact fun u hu => by cases hu
  · exact nextWf_next (hf _)

theorem happens_nextWf {s : State} {r : Option State} (hw : Memory.wf s.mem = true) (hr : ∀ u, r = some u → Memory.wf u.mem = true) :
    NextWf (happens s r) := by
  cases r with
  | none => exact nextWf_next hw
  | some u => exact nextWf_next (hr u rfl)

theorem happens_nextWf_of_mem {s : State} {r : Option State} (hw : Memory.wf s.mem = true) (hr : ∀ u, r = some u → u.mem = s.mem) :
    NextWf (happens s r) := happens_nextWf hw fun u hu => (hr u hu).symm ▸ hw

/-! ## The shapes of a word -/

theorem prepare_go_wf {w : Spec} {g : Grp} {s u : State} {ls : List Lane} (hw : Memory.wf s.mem = true) (h : prepare w g s = .go ls u) :
    Memory.wf u.mem = true := (prepare_go_mem h).symm ▸ hw

theorem actWord_nextWf {w : Spec} {s : State} {f : Grp → List Lane → State → State} (hw : Memory.wf s.mem = true)
    (hf : ∀ g ls u, Memory.wf u.mem = true → Memory.wf (f g ls u).mem = true) : NextWf (actWord w f s) := by
  refine withGrp_nextWf fun g => ?_
  split
  next h => exact prepare_done_wf hw h
  next h => exact hf _ _ _ (prepare_go_wf hw h)

theorem fixedWord_nextWf {w : Spec} {lat : Nat} {f : List Lane → Lane → Res} {s : State} (hw : Memory.wf s.mem = true) : NextWf (fixedWord w lat f s) :=
  actWord_nextWf (f := fun g ls s => finishWord (bindFixed s g w.dst lat (ls.map (fun l => (l, f ls l)))) g w.h) hw fun g ls u hu => by simp [hu]

theorem variableWord_nextWf {w : Spec} {f : State → List Lane → Lane → W64 × State} {s : State} (hw : Memory.wf s.mem = true)
    (hf : ∀ u ls l, (f u ls l).2.mem = u.mem) : NextWf (variableWord w f s) := by
  unfold variableWord
  refine actWord_nextWf hw fun g ls u hu => ?_
  rw [finishWord_mem, issueOps_mem]
  refine foldl_snd_wf _ _ hu fun p l hp => ?_
  exact (hf _ _ _).symm ▸ hp

theorem sfuWord_nextWf {h : Hd} {d : Dst} {a : Src} {f : Nat → Option Nat} {s : State} (hw : Memory.wf s.mem = true) : NextWf (sfuWord h d a f s) :=
  variableWord_nextWf hw fun u ls l => by split <;> simp

/-! ## Transfers, waits and teams -/

theorem jumpWord_nextWf {h : Hd} {a : Src} {s : State} (hw : Memory.wf s.mem = true) : NextWf (jumpWord h a s) :=
  actWord_nextWf hw fun g ls u hu => by simp [hu]

theorem execExit_nextWf {h : Hd} {s : State} (hw : Memory.wf s.mem = true) : NextWf (execExit h s) := by
  refine actWord_nextWf hw fun g ls u hu => checked_wf _ _ _ _ _ hu ?_
  rw [finishWith_mem, foldl_mem _ _ _ fun s l => exitThread_mem _ _]
  exact hu

theorem execWaitf_nextWf {h : Hd} {mask : BitVec 12} {s : State} (hw : Memory.wf s.mem = true) : NextWf (execWaitf h mask s) := by
  refine actWord_nextWf hw fun g ls u hu => ?_
  dsimp only
  split
  · split <;> simp [hu]
  · split <;> simp [hu]

theorem execNap_nextWf {h : Hd} {n : BitVec 16} {s : State} (hw : Memory.wf s.mem = true) : NextWf (execNap h n s) := by
  refine withGrp_nextWf fun g => ?_
  split
  · split <;> simp [hw]
  · split
    next hp => exact prepare_done_wf hw hp
    next hp =>
      have hu := prepare_go_wf hw hp
      split
      · simp [hu]
      · dsimp only
        rw [stallFree_mem, markIssued_mem, foldl_mem _ _ _ fun s l => by simp]
        exact hu

theorem execTjoin_nextWf {h : Hd} {id : SrcI} {s : State} (hw : Memory.wf s.mem = true) : NextWf (execTjoin h id s) := by
  refine actWord_nextWf hw fun g ls u hu => checked_wf _ _ _ _ _ hu ?_
  rw [finishWord_mem, foldl_mem _ _ _ fun s l => joinTeam_mem _ _ _]
  exact hu

theorem execTleave_nextWf {h : Hd} {id : SrcI} {s : State} (hw : Memory.wf s.mem = true) : NextWf (execTleave h id s) := by
  refine actWord_nextWf hw fun g ls u hu => checked_wf _ _ _ _ _ hu ?_
  rw [finishWord_mem, foldl_mem _ _ _ fun s l => leaveTeam_mem _ _ _]
  exact hu

theorem execTbar_nextWf {h : Hd} {id : SrcI} {s : State} (hw : Memory.wf s.mem = true) : NextWf (execTbar h id s) := by
  refine withGrp_nextWf fun g => ?_
  split
  · simp [hw]
  · split
    next hp => exact prepare_done_wf hw hp
    next hp =>
      have hu := prepare_go_wf hw hp
      refine checked_wf _ _ _ _ _ hu (arrivals_wf _ _ _ _ _ hw ?_)
      rw [barrierWait_mem, foldl_mem _ _ _ fun s l => arriveTeam_mem _ _ _]
      exact hu

theorem execGbar_nextWf {h : Hd} {s : State} (hw : Memory.wf s.mem = true) : NextWf (execGbar h s) := by
  refine withGrp_nextWf fun g => ?_
  split
  · simp [hw]
  · split
    next hp => exact prepare_done_wf hw hp
    next hp =>
      refine arrivals_wf _ _ _ _ _ hw ?_
      rw [barrierWait_mem, foldl_mem _ _ _ fun s l => arriveGang_mem _ _]
      exact prepare_go_wf hw hp

/-! ## Memory, homes and tasks -/

theorem loadWord_nextWf {w : Spec} {m : MemAddr} {n sx : Nat} {hint : Hint} {cnt : Nat} {stash : Bool} {chk : State → Lane → W64 → LaneRes} {s : State}
    (hw : Memory.wf s.mem = true) : NextWf (loadWord w m n sx hint cnt stash chk s) := by
  unfold loadWord
  refine actWord_nextWf hw fun g ls u hu => ?_
  simp [hu, hw]

theorem storeWord_nextWf {w : Spec} {m : MemAddr} {n : Nat} {hint : Hint} {stash : Bool} {data : Lane → BitVec 128}
    {chk : State → Lane → W64 → LaneRes} {s : State} (hw : Memory.wf s.mem = true) : NextWf (storeWord w m n hint stash data chk s) := by
  unfold storeWord
  refine actWord_nextWf hw fun g ls u hu => ?_
  simp [hu, hw]

theorem execLdp_nextWf {h : Hd} {ty : ElemTy} {d : Dst} {m : MemAddr} {s : State} (hw : Memory.wf s.mem = true) : NextWf (execLdp h ty d m s) := by
  unfold execLdp
  refine actWord_nextWf hw fun g ls u hu => checkLanes_wf _ _ _ _ _ hu hw ?_
  dsimp only
  rw [finishWord_mem]
  apply watched_wf
  rw [issueOps_mem, foldl_mem _ _ _ fun s p => dropBadTlb_mem _ _ _ _]
  exact hu

theorem execPfl_nextWf {h : Hd} {hint : Hint} {m : MemAddr} {cnt : Option Src} {s : State} (hw : Memory.wf s.mem = true) : NextWf (execPfl h hint m cnt s) := by
  unfold execPfl
  refine actWord_nextWf hw fun g ls u hu => ?_
  dsimp only
  split
  · simp [hw]
  · rw [finishWord_mem]
    exact foldl_wf _ _ hu fun s p hs => pflFill_wf _ _ _ _ _ hs

theorem execQblk_nextWf {h : Hd} {ty : ElemTy} {r : Rnd} {d : Dst} {a b c : Src} {wm : Fin 8} {s : State} (hw : Memory.wf s.mem = true) :
    NextWf (execQblk h ty r d a b c wm s) := by
  unfold execQblk
  refine actWord_nextWf hw fun g ls u hu => ?_
  simp [hu, hw]

theorem execDqblk_nextWf {h : Hd} {ty : ElemTy} {r : Rnd} {d : Dst} {a b : Src} {wm : Fin 8} {s : State} (hw : Memory.wf s.mem = true) :
    NextWf (execDqblk h ty r d a b wm s) := by
  unfold execDqblk
  refine actWord_nextWf hw fun g ls u hu => ?_
  simp [hu, hw]

theorem atmWord_nextWf {w : Spec} {size scope : Nat} {op : Lane → WordOp} {limit : State → Lane → Option Nat} {s : State} (hw : Memory.wf s.mem = true) :
    NextWf (atmWord w size scope op limit s) := by
  unfold atmWord
  refine actWord_nextWf hw fun g ls u hu => checkLanes_wf _ _ _ _ _ hu hw ?_
  rw [finishWord_mem]
  exact watched_wf _ _ _ _ _ _ _ (sendWord_wf _ _ _ _ _ _ _ _ hu)

theorem execFence_nextWf {h : Hd} {k : FenceKind} {sc : Fin 8} {s : State} (hw : Memory.wf s.mem = true) : NextWf (execFence h k sc s) := by
  unfold execFence
  refine actWord_nextWf hw fun g ls u hu => ?_
  split <;> simp [hu, hw]

theorem taskWord_nextWf {w : Spec} {align : Nat} {pre : Lane → Option (Nat × Nat × Nat × W64)} {op : Lane → WordOp} {s : State}
    (hw : Memory.wf s.mem = true) : NextWf (taskWord w align pre op s) := by
  unfold taskWord
  refine actWord_nextWf hw fun g ls u hu => ?_
  simp [hu, hw]

/-! ## Predicates and bindings -/

theorem execV2p_nextWf {h : Hd} {a : Src} {m : SrcI} {s : State} (hw : Memory.wf s.mem = true) : NextWf (execV2p h a m s) := by
  unfold execV2p
  refine actWord_nextWf hw fun g ls u hu => ?_
  dsimp only
  rw [finishWord_mem, foldl_mem _ _ _ fun s l => bindFixed_mem _ _ _ _ _]
  exact hu

theorem bindingWord_nextWf {h : Hd} {a : VName} {ok : Binding → Bool} {f : Thread → Binding → Thread} {s : State} (hw : Memory.wf s.mem = true) :
    NextWf (bindingWord h a ok f s) := by
  refine actWord_nextWf hw fun g ls u hu => ?_
  dsimp only
  split
  · simp [hu]
  · rw [finishWord_mem, foldl_mem _ _ _ fun s l => by simp]
    exact hu

/-! ## Copies and windows -/

theorem execCpy_nextWf {h : Hd} {hint : Hint} {a b : Src} {size : CpySize} {ssp dsp : Bool} {s : State} (hw : Memory.wf s.mem = true) :
    NextWf (execCpy h hint a b size ssp dsp s) := by
  unfold execCpy
  refine actWord_nextWf hw fun g ls u hu => ?_
  simp [hu, hw]

theorem commandWord_nextWf {h : Hd} {srcs : List Opnd} {ctr : Option Src} {mk : State → Grp → Lane → Option W64 → Option CopyCmd} {s : State}
    (hw : Memory.wf s.mem = true) : NextWf (commandWord h srcs ctr mk s) := by
  unfold commandWord
  refine actWord_nextWf hw fun g ls u hu => checked_wf _ _ _ _ _ hu ?_
  rw [finishWord_mem, foldl_mem _ _ _ fun s c => by simp]
  exact hu

theorem execCpstat_nextWf {h : Hd} {wait : Bool} {d : Dst} {sel : SrcI} {s : State} (hw : Memory.wf s.mem = true) : NextWf (execCpstat h wait d sel s) := by
  unfold execCpstat
  refine actWord_nextWf hw fun g ls u hu => ?_
  simp [hu]

theorem windowWord_nextWf {w : Spec} {chk : State → Grp → Lane → Option (Nat × Nat × W64)} {act : State → Grp → Lane → List Lane → State}
    {s : State} (hw : Memory.wf s.mem = true) (ha : ∀ u g l ls, (act u g l ls).mem = u.mem) : NextWf (windowWord w chk act s) := by
  refine withGrp_nextWf fun g => ?_
  split
  next hp => exact prepare_done_wf hw hp
  next hp => simp [prepare_go_wf hw hp]
  next hp =>
    have hu := prepare_go_wf hw hp
    split
    · simp [hu]
    · simp [ha, hu]

theorem execGmap_nextWf {h : Hd} {a b c : Src} {s : State} (hw : Memory.wf s.mem = true) : NextWf (execGmap h a b c s) := by
  refine withGrp_nextWf fun g => ?_
  split
  · split <;> simp [hw]
  · split
    next hp => exact prepare_done_wf hw hp
    next hp => simp [prepare_go_wf hw hp]
    next hp =>
      have hu := prepare_go_wf hw hp
      split <;> simp [hu]

theorem execGinv_nextWf {h : Hd} {w : SrcI} {s : State} (hw : Memory.wf s.mem = true) : NextWf (execGinv h w s) :=
  windowWord_nextWf hw fun u g l ls => by split <;> simp

theorem execRrel_nextWf {h : Hd} {w : SrcI} {s : State} (hw : Memory.wf s.mem = true) : NextWf (execRrel h w s) :=
  windowWord_nextWf hw fun u g l ls => by split <;> simp

theorem execRingcfgOff_nextWf {h : Hd} {w : SrcI} {s : State} (hw : Memory.wf s.mem = true) : NextWf (execRingcfgOff h w s) :=
  windowWord_nextWf hw fun _ _ _ _ => updOwn_mem _ _ _ _

theorem execStbind_nextWf {h : Hd} {w : SrcI} {s : State} (hw : Memory.wf s.mem = true) : NextWf (execStbind h w s) := by
  unfold execStbind
  refine actWord_nextWf hw fun g ls u hu => checked_wf _ _ _ _ _ hu ?_
  dsimp only
  rw [finishWord_mem, foldl_mem _ _ _ fun s l => by simp]
  exact hu

/-! ## Ladders -/

theorem execLstart_nextWf {h : Hd} {a b : Src} {s : State} (hw : Memory.wf s.mem = true) : NextWf (execLstart h a b s) := by
  unfold execLstart
  refine actWord_nextWf hw fun g ls u hu => ?_
  simp [hu, hw]

theorem execLesc_nextWf {h : Hd} {a : Src} {sb : Option VName} {s : State} (hw : Memory.wf s.mem = true) : NextWf (execLesc h a sb s) := by
  refine withGrp_nextWf fun g => ?_
  dsimp only
  split
  next hp => exact prepare_done_wf hw hp
  next hp =>
    have hu := prepare_go_wf hw hp
    refine checked_wf _ _ _ _ _ hu ?_
    rw [finishWith_mem, foldl_mem _ _ _ fun s l => exitThread_mem _ _, foldl_mem _ _ _ fun s l => escalate_mem _ _]
    exact hu

theorem execLres_nextWf {h : Hd} {a : Src} {s : State} (hw : Memory.wf s.mem = true) : NextWf (execLres h a s) := by
  refine withGrp_nextWf fun g => ?_
  split
  next hp => exact prepare_done_wf hw hp
  next hp =>
    dsimp only
    rw [finishWith_mem, foldl_mem _ _ _ fun s l => exitThread_mem _ _, foldl_mem _ _ _ fun s l => resolve_mem _ _]
    exact prepare_go_wf hw hp

/-! ## The system -/

theorem execEret_nextWf {h : Hd} {s : State} (hw : Memory.wf s.mem = true) : NextWf (execEret h s) := by
  refine actWord_nextWf hw fun g ls u hu => checked_wf _ _ _ _ _ hu ?_
  dsimp only
  rw [returnFrom_mem, finishWith_mem, foldl_mem _ _ _ fun s id => by simp]
  exact hu

theorem execSysrd_nextWf {h : Hd} {wide : Bool} {d : Dst} {i : SrcI} {s : State} (hw : Memory.wf s.mem = true) : NextWf (execSysrd h wide d i s) := by
  unfold execSysrd
  refine actWord_nextWf hw fun g ls u hu => ?_
  split <;> simp [hu, hw]

theorem execSyswr_nextWf {h : Hd} {wide : Bool} {a : Src} {i : SrcI} {s : State} (hw : Memory.wf s.mem = true) : NextWf (execSyswr h wide a i s) := by
  unfold execSyswr
  refine actWord_nextWf hw fun g ls u hu => ?_
  split
  · simp [hw]
  · refine checked_wf _ _ _ _ _ hu ?_
    rw [finishWord_mem, foldl_mem _ _ _ fun s l => sysWrite_mem _ _ _ _]
    exact hu

theorem execIcinv_nextWf {h : Hd} {r : Option (Src × Src)} {s : State} (hw : Memory.wf s.mem = true) : NextWf (execIcinv h r s) := by
  cases r with
  | none => exact actWord_nextWf hw fun g ls u hu => by dsimp only; split <;> simp [hu]
  | some p => exact actWord_nextWf hw fun g ls u hu => by simp [hu]

theorem execBkpt_nextWf {h : Hd} {tag : BitVec 16} {s : State} (hw : Memory.wf s.mem = true) : NextWf (execBkpt h tag s) := by
  refine actWord_nextWf hw fun g ls u hu => ?_
  dsimp only
  rw [finishWord_mem]
  refine ite_wf ?_ hu
  rw [foldl_mem _ _ _ fun s l => by simp]
  exact hu

/-! ## The matrix array -/

theorem pushWord_nextWf {w : Spec} {chk : Lane → Option (Nat × Nat × Nat × W64)} {mk : Lane → MtxKind} {s : State} (hw : Memory.wf s.mem = true) :
    NextWf (pushWord w chk mk s) := by
  unfold pushWord
  refine actWord_nextWf hw fun g ls u hu => checked_wf _ _ _ _ _ hu ?_
  rw [finishWord_mem, foldl_mem _ _ _ fun s l => pushMtx_mem _ _ _ _ _]
  exact hu

theorem stoppedWord_nextWf {h : Hd} {act : State → Nat → Loop → State} {s : State} (hw : Memory.wf s.mem = true)
    (ha : ∀ u core l, (act u core l).mem = u.mem) :
    NextWf (stoppedWord h act s) := by
  unfold stoppedWord
  refine actWord_nextWf hw fun g ls u hu => checked_wf _ _ _ _ _ hu ?_
  rw [finishWord_mem, foldl_mem _ _ _ fun s l => by split <;> simp [ha]]
  exact hu

theorem execMwait_nextWf {h : Hd} {s : State} (hw : Memory.wf s.mem = true) : NextWf (execMwait h s) := by
  unfold execMwait
  refine actWord_nextWf hw fun g ls u hu => ?_
  split <;> simp [hu, hw]

/-! ## An instruction -/

/-- Every event keeps the memory in canonical form. -/
theorem exec_event_nextWf {s : State} {i : Instr} (hw : Memory.wf s.mem = true) (he : i.isEvent = true) : NextWf (exec i s) := by
  cases i with
  | clauseStart => exact happens_nextWf hw fun _ => startEntry_wf _ _ _ _ hw
  | rowRendezvous => exact happens_nextWf_of_mem hw fun _ => rendezvous_mem _ _ _
  | groupOverdue => exact happens_nextWf_of_mem hw fun _ => overdue_mem _ _ _
  | yieldSpanEnd => exact happens_nextWf_of_mem hw fun _ => yieldEnds_mem _ _ _
  | fixedLatencyBind => exact happens_nextWf_of_mem hw fun _ => fixedBind_mem _ _ _
  | valueArrival => exact happens_nextWf hw fun _ => valueArrives_wf _ _ hw
  | allocationArbiter => exact happens_nextWf_of_mem hw fun _ => arbiter_mem _ _ _
  | threadEviction => exact happens_nextWf_of_mem hw fun _ => evict_mem _ _
  | threadReload => exact happens_nextWf_of_mem hw fun _ => reload_mem _ _
  | storePerformed => exact happens_nextWf hw fun _ => storeDone_wf _ _ hw
  | l1LineWriteBack => exact happens_nextWf hw fun _ => l1Evict_wf _ _ _ hw
  | tlbMissWalk => exact happens_nextWf_of_mem hw fun _ => walkDone_mem _ _ _ _
  | homeWordOperation => exact happens_nextWf hw fun _ => homeOp_wf _ _ hw
  | awaitLimitExpiry => exact happens_nextWf hw fun _ => awaitExpire_wf _ _ hw
  | valeFill => exact happens_nextWf_of_mem hw fun _ => valeFills_mem _ _ _
  | colViewFill => exact happens_nextWf_of_mem hw fun _ => colFills_mem _ _ _
  | colWriteBackSplit => exact happens_nextWf hw fun _ => colWritesBack_wf _ _ hw
  | valeCleanUncorrectable => exact happens_nextWf hw fun _ => cleanError_wf _ _ hw
  | valeDirtyUncorrectable => exact happens_nextWf hw fun _ => dirtyError_wf _ _ _ hw
  | stackReadUncorrectable => exact happens_nextWf hw fun _ => stackError_wf _ _ _ hw
  | coreSoftError => exact happens_nextWf hw fun _ => softError_wf _ _ _ _ _ hw
  | arrayParityError => exact happens_nextWf hw fun _ => arrayError_wf _ _ hw
  | pageVerify => exact happens_nextWf hw fun _ => verifyPage_wf _ _ _ hw
  | copyCommandStart => exact happens_nextWf_of_mem hw fun _ => copyStarts_mem _ _
  | copyLineOp => exact happens_nextWf hw fun _ => lineOp_wf _ _ _ hw
  | ringFillStart => exact happens_nextWf_of_mem hw fun _ => fillStarts_mem _ _ _
  | copyPerformed => exact happens_nextWf hw fun _ => copyDone_wf _ _ hw
  | counterDecrementSend => exact happens_nextWf hw fun _ => counterSend_wf _ _ _ hw
  | gmapCompletion => exact happens_nextWf hw fun _ => gmapDone_wf _ _ _ hw
  | windowFill => exact happens_nextWf hw fun _ => windowFills_wf _ _ _ _ hw
  | windowWriteBackDone => exact happens_nextWf hw fun _ => writeBackDone_wf _ _ _ hw
  | mtxCommandBegin => exact happens_nextWf_of_mem hw fun _ => commandBegins_mem _ _
  | mtxCommandComplete => exact happens_nextWf_of_mem hw fun _ => commandCompletes_mem _ _
  | tileFetchComplete => exact happens_nextWf hw fun _ => tileDone_wf _ _ hw
  | loopStep => exact happens_nextWf_of_mem hw fun _ => stepLoop_mem _ _
  | drainDelivery => exact happens_nextWf_of_mem hw fun _ => drainDue_mem _ _
  | engineFailure => exact happens_nextWf_of_mem hw fun _ => engineFails_mem _ _
  | taskDispatch => exact happens_nextWf hw fun _ => dispatch_wf _ _ hw
  | gangPlacement => exact happens_nextWf hw fun _ => placement_wf _ _ _ hw
  | gangRetirement => exact happens_nextWf hw fun _ => retirement_wf _ _ hw
  | edgeWriteBackLine => exact happens_nextWf hw fun _ => edgeStep_wf _ _ hw
  | successorDecrement => exact happens_nextWf hw fun _ => successorStep_wf _ _ hw
  | signalWrite => exact happens_nextWf hw fun _ => signalStep_wf _ _ hw
  | ladderDispatch => exact happens_nextWf hw fun _ => startLadder_wf _ _ hw
  | ladderArrival => exact happens_nextWf hw fun _ => ladderArrives_wf _ _ _ hw
  | starvationLimitExpiry => exact happens_nextWf_of_mem hw fun _ => starves_mem _ _ _
  | rungLaunchPlacement => exact happens_nextWf hw fun _ => rungPlacement_wf _ _ _ hw
  | resultEntryWrite => exact happens_nextWf hw fun _ => resultWrites_wf _ _ _ hw
  | watermarkWrite => exact happens_nextWf hw fun _ => watermarkWrites_wf _ _ hw
  | ladderWriteFailure => exact happens_nextWf hw fun _ => ladderWriteFails_wf _ _ _ hw
  | notchStop => exact happens_nextWf hw fun _ => notchStops_wf _ _ hw
  | contextSave => exact happens_nextWf hw fun _ => saveContext_wf _ _ hw
  | notchlimExpiry => exact happens_nextWf hw fun _ => notchlimExpires_wf _ _ hw
  | sliceExpiry => exact happens_nextWf_of_mem hw fun _ => sliceExpires_mem _ _
  | napExpiry => exact happens_nextWf_of_mem hw fun _ => napEnds_mem _ _
  | stallSample => exact happens_nextWf hw fun _ => takesSample_wf _ _ _ hw
  | hostMemoryAccess => exact happens_nextWf hw fun _ => hostAccess_wf _ _ _ _ _ hw
  | peerAccess => exact happens_nextWf hw fun _ => peerDoes_wf _ _ _ _ _ hw
  | frwFlushComplete => exact happens_nextWf hw fun _ => flushDone_wf _ _ hw
  | powerStateReached => exact happens_nextWf hw fun _ => powerReached_wf _ _ hw
  | debugHaltall => exact happens_nextWf_of_mem hw fun _ => setHaltAll_mem _ _ _
  | debugRun => exact happens_nextWf_of_mem hw fun _ => takeCmd_mem _ _ _ _ _ _
  | debugStep => exact happens_nextWf_of_mem hw fun _ => takeCmd_mem _ _ _ _ _ _
  | debugWindowAccess => exact happens_nextWf hw fun _ => windowAccess_wf _ _ _ _ _ _ hw
  | attestationSignatureDone => exact happens_nextWf_of_mem hw fun _ => signed_mem _
  | valeCorrectableError =>
    refine happens_nextWf_of_mem hw fun u hu => ?_
    split at hu <;> cases hu
    exact countCorrected_mem s
  | linkChange => exact nextWf_next hw
  | ctxCreate c => exact nextWf_next ((hostCommand_mem _ _ _ _ fun u => createContext_mem u c).symm ▸ hw)
  | ctxPreempt c => exact nextWf_next ((hostCommand_mem _ _ _ _ fun u => requestPreempt_mem u c).symm ▸ hw)
  | ctxTlbinv c => exact nextWf_next ((hostCommand_mem _ _ _ _ fun u => clearTlb_mem u c).symm ▸ hw)
  | ctxRestore c => exact nextWf_next ((hostCommand_mem _ _ _ _ fun u => restoreCmd_mem u c).symm ▸ hw)
  | ctxTerminate c => exact nextWf_next (terminateCmd_wf s c hw)
  | ctxDestroy c => exact nextWf_next (hostCommand_wf _ _ _ _ hw fun u => destroyContext_wf u c)
  | ctxCmdLostClear => exact nextWf_next (ite_wf hw ((whenReady_mem _ _ _ fun u => State.updCtx_mem _ _ _).symm ▸ hw))
  | queueSubmissionWrite c q v => exact nextWf_next (ite_wf hw (whenReady_wf _ _ _ hw fun u => hostSubmit_wf u c q v))
  | frwEnable | frwDisable | frwFlush | frwRsvClear => exact nextWf_next ((hostCtl_mem _ _ _).symm ▸ hw)
  | registerWrite off v => exact nextWf_next (ite_wf (barWrite_wf s off v hw) hw)
  | kmapWrite off v => exact nextWf_next (ite_wf ((keyWrite_mem s off v).symm ▸ hw) hw)
  | lcOpen => exact nextWf_next ((lcOpens_mem s).symm ▸ hw)
  | lcRetire => exact nextWf_next (lcRetires_wf s hw)
  | attcmdSign => exact nextWf_next ((setIdent_mem _ _).symm ▸ hw)
  | bootcmdGo => exact nextWf_next ((bootGo_mem s).symm ▸ hw)
  | perstDeassert => exact nextWf_next ((perst_mem s).symm ▸ hw)
  | powerReqRun | powerReqIdle | powerReqRetain | powerReqOff => exact nextWf_next ((hostPower_mem _ _ _).symm ▸ hw)
  | _ => cases he

/-- Every word keeps the memory in canonical form. What no case names is a word of fixed latency (R69). -/
theorem exec_word_nextWf {s : State} {i : Instr} (hw : Memory.wf s.mem = true) (he : ¬ i.isEvent = true) : NextWf (exec i s) := by
  cases i with dsimp only [exec]
  -- Words of fixed latency with more than one form.
  | lea _ _ _ f => cases f <;> exact fixedWord_nextWf hw
  | isetp _ _ _ _ f => cases f <;> exact fixedWord_nextWf hw
  | cellq _ _ f => cases f <;> exact fixedWord_nextWf hw
  | vote _ f => cases f <;> exact fixedWord_nextWf hw
  | xcount _ _ f => cases f <;> exact fixedWord_nextWf hw
  | v2p => exact execV2p_nextWf hw
  -- Words of variable latency.
  | rcp | rsq | sqrt | exp2 | log2 | sinpi | cospi | tanh => exact sfuWord_nextWf hw
  | rnd | rndf => exact variableWord_nextWf hw fun u ls l => drawLane_mem u l
  | ppoll | tself | mstat | lframe | lstat => exact variableWord_nextWf hw fun _ _ _ => rfl
  | sysrd => exact execSysrd_nextWf hw
  | cpstat => exact execCpstat_nextWf hw
  -- Transfers, waits and teams.
  | nop => exact actWord_nextWf hw fun g ls u hu => by simp [hu]
  | bra => exact actWord_nextWf hw fun g ls u hu => by simp [hu]
  | call => exact actWord_nextWf hw fun g ls u hu => by simp [hu]
  | callx => exact actWord_nextWf hw fun g ls u hu => by simp [hu]
  | brx | ret => exact jumpWord_nextWf hw
  | exit => exact execExit_nextWf hw
  | waitf => exact execWaitf_nextWf hw
  | nap => exact execNap_nextWf hw
  | tjoin => exact execTjoin_nextWf hw
  | tleave => exact execTleave_nextWf hw
  | tbar => exact execTbar_nextWf hw
  | gbar => exact execGbar_nextWf hw
  | fence => exact execFence_nextWf hw
  | mwait => exact execMwait_nextWf hw
  -- Bindings.
  | drop | keep | free => exact bindingWord_nextWf hw
  -- Memory, homes and tasks.
  | ld =>
    unfold execLd
    exact loadWord_nextWf hw
  | lds =>
    unfold execLds
    exact loadWord_nextWf hw
  | ldv =>
    unfold execLdv
    exact loadWord_nextWf hw
  | st =>
    unfold execSt
    exact storeWord_nextWf hw
  | sts =>
    unfold execSts
    exact storeWord_nextWf hw
  | stv =>
    unfold execStv
    exact storeWord_nextWf hw
  | ldp => exact execLdp_nextWf hw
  | pfl => exact execPfl_nextWf hw
  | qblk => exact execQblk_nextWf hw
  | dqblk => exact execDqblk_nextWf hw
  | atom | ared | acas | await | cntdec | bararv | barwt => exact atmWord_nextWf hw
  | tsubmit | tdepadd | tsignal | cvswap => exact taskWord_nextWf hw
  | lstart => exact execLstart_nextWf hw
  | lesc => exact execLesc_nextWf hw
  | lres => exact execLres_nextWf hw
  -- Copies and windows.
  | cpy => exact execCpy_nextWf hw
  | cpyb | cploop => exact commandWord_nextWf hw
  | gmap => exact execGmap_nextWf hw
  | gunmap | gflush => exact windowWord_nextWf hw fun _ _ _ _ => issueWinWb_mem _ _ _ _ _
  | ginv => exact execGinv_nextWf hw
  | ringcfg => exact windowWord_nextWf hw fun _ _ _ _ => updOwn_mem _ _ _ _
  | ringcfgOff => exact execRingcfgOff_nextWf hw
  | rrel => exact execRrel_nextWf hw
  | stbind => exact execStbind_nextWf hw
  -- The matrix array.
  | mwld | mwswap | mloop | maccld | maccst | mdrain | mepi | mzero => exact pushWord_nextWf hw
  | mloopResume => exact stoppedWord_nextWf hw fun _ _ _ => resumeLoop_mem _ _
  | mloopAbort => exact stoppedWord_nextWf hw abortLoop_mem
  -- The system.
  | trap => exact actWord_nextWf hw fun g ls u hu => takeTrap_wf _ _ _ _ _ hu
  | eret => exact execEret_nextWf hw
  | syswr => exact execSyswr_nextWf hw
  | icinv => exact execIcinv_nextWf hw
  | bkpt => exact execBkpt_nextWf hw
  | clauseStart | rowRendezvous | groupOverdue | yieldSpanEnd | fixedLatencyBind | valueArrival | allocationArbiter | threadEviction | threadReload
  | storePerformed | l1LineWriteBack | tlbMissWalk | homeWordOperation | awaitLimitExpiry | valeFill | colViewFill | colWriteBackSplit
  | valeCleanUncorrectable | valeDirtyUncorrectable | stackReadUncorrectable | coreSoftError | arrayParityError | pageVerify | copyCommandStart
  | copyLineOp | ringFillStart | copyPerformed | counterDecrementSend | gmapCompletion | windowFill | windowWriteBackDone | mtxCommandBegin
  | mtxCommandComplete | tileFetchComplete | loopStep | drainDelivery | engineFailure | taskDispatch | gangPlacement | gangRetirement
  | edgeWriteBackLine | successorDecrement | signalWrite | ladderDispatch | ladderArrival | starvationLimitExpiry | rungLaunchPlacement
  | resultEntryWrite | watermarkWrite | ladderWriteFailure | notchStop | contextSave | notchlimExpiry | sliceExpiry | napExpiry | stallSample
  | hostMemoryAccess | peerAccess | frwFlushComplete | powerStateReached | debugHaltall | debugRun | debugStep | debugWindowAccess
  | attestationSignatureDone | valeCorrectableError | linkChange | ctxCreate | ctxPreempt | ctxTlbinv | ctxRestore | ctxTerminate | ctxDestroy
  | ctxCmdLostClear | queueSubmissionWrite | frwEnable | frwDisable | frwFlush | frwRsvClear | registerWrite | kmapWrite | lcOpen | lcRetire
  | attcmdSign | bootcmdGo | perstDeassert | powerReqRun | powerReqIdle | powerReqRetain | powerReqOff => exact absurd rfl he
  | _ => exact fixedWord_nextWf hw

theorem exec_nextWf {s : State} (i : Instr) (hw : Memory.wf s.mem = true) : NextWf (exec i s) := by
  by_cases he : i.isEvent = true
  · exact exec_event_nextWf hw he
  · exact exec_word_nextWf hw he

/-! ## A step -/

theorem issueWord_run_mem {s t : State} {core uid : Nat} {i : Instr} (h : issueWord s core uid = .run i t) : t.mem = s.mem := by
  obtain ⟨g, -, rfl⟩ := issueWord_run h
  exact takePipe_mem _ _ _ _

theorem issueWord_stop_wf {s t : State} {core uid : Nat} (hw : Memory.wf s.mem = true) (h : issueWord s core uid = .stop t) : Memory.wf t.mem = true := by
  unfold issueWord at h
  dsimp only at h
  split at h
  · cases h
  next g _ =>
    have hp : Memory.wf (takePipe { s with focus := some (core, uid) } core uid g.a).mem = true := (takePipe_mem _ _ _ _).symm ▸ hw
    split at h
    · cases h
    · split at h
      · split at h <;> cases h
      · split at h
        next hd =>
          cases h
          exact takeDeferred_wf _ _ _ _ _ _ hp hd
        · split at h
          next hq =>
            cases h
            exact quotaTrap_wf _ _ hp hq
          · split at h <;> cases h
            exact decodeTrap_wf _ _ _ hp

theorem settleIssue_nextWf {s : State} {core uid : Nat} {o : Out} (ho : NextWf o) : NextWf (settleIssue s core uid o) := by
  unfold settleIssue
  split
  next t =>
    have ht := ho t rfl
    split
    · apply nextWf_next
      rw [State.updCore_mem]
      exact ht
    · exact nextWf_next ht
  · exact ho

theorem issueMove_nextWf {s : State} {core uid : Nat} (hw : Memory.wf s.mem = true) : NextWf (issueMove core uid s) := by
  unfold issueMove
  split
  · exact nextWf_next hw
  next h => exact nextWf_next (issueWord_stop_wf hw h)
  next h => exact settleIssue_nextWf (exec_nextWf _ ((issueWord_run_mem h).symm ▸ hw))

theorem leavePipe_nextWf {s : State} {core uid : Nat} {o : Out} (hw : Memory.wf s.mem = true) (ho : NextWf o) : NextWf (leavePipe s core uid o) := by
  unfold leavePipe
  split
  next t _ _ =>
    have ht := ho t rfl
    split
    · split
      · split
        · apply nextWf_next
          split <;> exact hw
        · split
          · exact ho
          · apply nextWf_next
            rw [State.updCore_mem, State.updEntry_mem]
            exact ht
      · exact ho
    · exact ho
  · exact ho

theorem select_nextWf {s : State} {core uid : Nat} {act : State → Out} {merge : Bool} (hw : Memory.wf s.mem = true) (ha : NextWf (act s)) :
    NextWf (select core uid s act merge) := by
  unfold select
  split
  · exact nextWf_next hw
  · split
    · exact ha
    · split
      · exact ha
      · split <;> exact nextWf_next hw

theorem runMove_nextWf {s : State} (m : Move) (hw : Memory.wf s.mem = true) : NextWf (runMove m s) := by
  unfold runMove
  split
  · exact select_nextWf hw (leavePipe_nextWf hw (exec_nextWf _ hw))
  · exact exec_nextWf _ (ite_wf (classed_wf _ _ hw) hw)
  · split
    · exact nextWf_next hw
    · exact exec_nextWf _ hw
  · exact select_nextWf hw (issueMove_nextWf hw)
  · next c =>
    apply nextWf_next
    cases h : seatMove s c with
    | none => exact hw
    | some u => exact (seatMove_mem _ _ h).symm ▸ hw
  · exact nextWf_next ((loadLimit_mem _ _ _).symm ▸ hw)
  · exact nextWf_next (ite_wf hw (tick_wf _ hw))

theorem settleMove_nextWf {s : State} {o : Out} (ho : NextWf o) : NextWf (settleMove s o) := by
  unfold settleMove
  split
  next t => exact nextWf_next (trim_wf _ ((rearm_mem s t).symm ▸ ho t rfl))
  · exact ho

/-- Every step keeps the memory in canonical form: only the write of a line to the stacks changes it, and that write normalises it. -/
theorem step_nextWf {s : State} (hw : Memory.wf s.mem = true) : NextWf (step s) := by
  cases h : s.agenda with
  | nil =>
    rw [step_of_noAgenda h]
    exact settleMove_nextWf (runMove_nextWf _ hw)
  | cons m rest =>
    rw [step_of_agenda h]
    exact settleMove_nextWf (runMove_nextWf _ hw)

/-- Settles O53: `stackWrite` is the one function that changes memory, and every function of the model keeps the canonical form up to the step. -/
theorem stepKeepsMemory : Obligations.StepKeepsMemory := by
  unfold Obligations.StepKeepsMemory
  intro s t hw ht
  exact step_nextWf hw t ht

end Sys2Proof.Machine
end

section
/-! SUPPORT. The copy words and the window words (R127, R136 to R144): what each answers where its checks pass. -/

namespace Sys2Proof.Machine

/-! ## CPY and CPSTAT -/

/-- R127, R130: CPY's checks pass where both sides do, and where a counted hint stands on a destination in the Glen. -/
theorem cpyChecks_pass {s : State} {hint : Hint} {n : Nat} {ssp dsp : Bool} {l : Lane} {T U : Target} (counted : hint = .counted → dsp = true)
    (src : copySide s l.t (l.v 0) n n ssp false = .ok T) (dst : copySide s l.t (l.v 1) n n dsp true = .ok U) :
    cpyChecks s hint n ssp dsp l = [.ok T, .ok U, .ok (.l1 0)] := by
  have noCount : (hint == .counted && !dsp) = false := by
    rw [Bool.and_eq_false_iff, beq_eq_false_iff_ne, Bool.not_eq_false']
    exact Decidable.not_or_of_imp counted
  simp [cpyChecks, src, dst, noCount]

/-- R397: the bytes that a lane of CPY reads and writes, as a debugger watches them. -/
def cpyTouches (n : Nat) (ssp dsp : Bool) (l : Lane) : Thread × List Touch :=
  (l.t, [{ addr := l.v 0, size := n, stash := ssp, load := true, store := false }, { addr := l.v 1, size := n, stash := dsp, load := false, store := true }])

theorem copyIssues : Claim.CopyIssues := by
  unfold Claim.CopyIssues
  intro h hint a b size ssp dsp s g T U ready counted pass
  refine ⟨(lanesRead (Claim.cpySpec h a b) s g).map (cpyTouches (cpyBytes size) ssp dsp), (withGrp_some _ ready.group).trans (congrArg Host.Outcome.next ?_)⟩
  unfold Claim.cpySpec at *
  have checks := List.map_congr_left (fun l hl => congrArg (Prod.mk l) (cpyChecks_pass counted (pass l hl).1 (pass l hl).2))
  rw [prepare_ready ready]
  dsimp only
  rw [checks, checkLanes_ok, List.map_map]
  · rfl
  · simp only [List.forall_mem_map]
    intro l _ r hr
    simp only [List.mem_cons, List.not_mem_nil, or_false] at hr
    obtain rfl | rfl | rfl := hr <;> exact ⟨_, rfl⟩

theorem copyStatusIssues : Claim.CopyStatusIssues := by
  unfold Claim.CopyStatusIssues
  intro h wait d sel w s g hw ready
  subst hw
  have waits (l : Lane) (x y : OpKind) : (if (wait && elemAt 32 0 (l.v 0) == 0) = true then x else y) = if wait = true ∧ Claim.winArg l = 0 then x else y :=
    if_congr (by simp [Claim.winArg]) rfl rfl
  refine (withGrp_some _ ready.group).trans ?_
  rw [prepare_ready ready]
  simp only [waits]
  rfl

/-- Settles O30: each of the two words issues once its operands and checks pass. -/
theorem copyWords : Obligations.CopyWords := ⟨copyIssues, copyStatusIssues⟩

/-! ## CPYB and CPLOOP -/

theorem copyCommandsQueue : Claim.CopyCommandsQueue := by
  unfold Claim.CopyCommandsQueue
  intro i w mk s g c form ready limits
  unfold Claim.commandForm at form
  split at form <;> cases form
  case h_1 h a b c => exact commandWord_ready (ctr := none) rfl ready limits
  case h_2 h a b c k => exact commandWord_ready (ctr := some k) rfl ready limits
  case h_3 h a b c => exact commandWord_ready (ctr := none) rfl ready limits
  case h_4 h a b c k => exact commandWord_ready (ctr := some k) rfl ready limits

theorem copyBlockCommand : Claim.CopyBlockCommand := by
  unfold Claim.CopyBlockCommand
  intro s g l src dst plain hint
  exact ⟨_, if_pos (by simp [src, dst, plain, hint]), rfl, by simp [plain], by simp [plain], rfl, rfl, rfl, rfl, rfl, rfl, rfl, rfl⟩

/-- Settles O31: the forms of the words that queue a command, and the command of a CPYB to a plain address. -/
theorem copyCommandWords : Obligations.CopyCommandWords := ⟨copyCommandsQueue, copyBlockCommand⟩

/-! ## Mapped windows -/

/-- R117: the group of a GMAP goes on once no mapping in progress on its core waits for its members. -/
theorem gmapPending_false {s : State} {g : Grp} (ended : ∀ x ∈ s.gangs, ∀ r ∈ x.gmaps, ∀ t ∈ g.mem, t.id ∉ r.tids) :
    s.gangs.any (fun x => x.gmaps.any (fun r => r.core == g.core && g.mem.any (fun t => r.tids.contains t.id))) = false := by
  simp only [List.any_eq_false, Bool.and_eq_true, List.any_eq_true, List.contains_iff_mem]
  rintro x hx ⟨r, hr, -, t, ht, named⟩
  exact ended x hx r hr t ht named

theorem gmapWaits : Claim.GmapWaits := by
  unfold Claim.GmapWaits
  intro h a b c w s g hw
  subst hw
  refine ⟨fun l ls ready first lanes pass => ?_, fun hg issued ended => ?_⟩
  · refine (withGrp_some _ ready.group).trans ?_
    rw [first, prepare_ready ready, lanes]
    simp only [pass, Bool.false_eq_true, if_false]
  · refine (withGrp_some _ hg).trans ?_
    rw [issued, gmapPending_false ended, if_pos rfl, if_neg Bool.false_ne_true]

/-- R135, R141: a mapped window within the window numbers passes the check. -/
theorem mappedFault_mapped {s : State} {l : Lane} (mapped : Claim.isMapped s l) : mappedFault s l = none := by
  unfold Claim.isMapped Claim.winArg at mapped
  obtain ⟨number, x, m, own, kind⟩ := mapped
  obtain ⟨fs, n, k⟩ := x
  subst kind
  simp [mappedFault, Nat.not_lt.2 number, own]

theorem mappedWindowWords : Claim.MappedWindowWords := by
  unfold Claim.MappedWindowWords
  intro h w s g l ls
  refine ⟨fun ready lanes mapped => ⟨?_, ?_⟩, fun x ready lanes mapped gang => ?_⟩
  · exact windowWord_ready ready lanes (mappedFault_mapped mapped)
  · exact windowWord_ready ready lanes (mappedFault_mapped mapped)
  · unfold Claim.winSpec at *
    show execGinv h w s = _
    rw [execGinv, windowWord_ready (chk := fun s _ l => mappedFault s l) ready lanes (mappedFault_mapped mapped), gang]
    rfl

/-- Settles O32: GMAP before and after it has issued, and the words of a mapped window. -/
theorem windowWords : Obligations.WindowWords := ⟨gmapWaits, mappedWindowWords⟩

/-! ## Rings and streams -/

/-- R125, R135, R142: a plain window with room for two stages, on a core with fewer than eight rings, passes RINGCFG's check. -/
theorem ringcfgFault_plain {s : State} {l : Lane} {x : Window} (number : Claim.winArg l ≤ 65535) (own : ownWindow s l (Claim.winArg l % 16) = some x)
    (plain : x.kind = .plain) (room : 2 ≤ stageCount x.s (bitsAt (Claim.winArg l) 7 4 + 1)) (rings : ringsOn s l.t.core < 8)
    (unmapped : gmapOn s l (Claim.winArg l % 16) = false) : ringcfgFault s l = none := by
  obtain ⟨fs, n, k⟩ := x
  subst plain
  unfold Claim.winArg at *
  simp [ringcfgFault, Nat.not_lt.2 number, own, Nat.not_lt.2 room, Nat.not_le.2 rings, unmapped]

/-- R129, R142: an idle ring passes RINGCFG.off's check. -/
theorem ringoffFault_idle {s : State} {l : Lane} {r : Ring} (number : Claim.winArg l ≤ 65535) (ring : ringWin s l.t (Claim.winArg l % 16) = some r)
    (idle : ringIdle s l.t.core l.t.gang (Claim.winArg l % 16) r = true) : ringoffFault s l = none := by
  unfold Claim.winArg at *
  simp [ringoffFault, Nat.not_lt.2 number, ring, idle]

/-- R143: a ring with a stage in use passes RREL's check. -/
theorem rrelFault_inUse {s : State} {l : Lane} {r : Ring} (number : Claim.winArg l ≤ 15) (ring : ringWin s l.t (Claim.winArg l) = some r) (used : r.inuse ≠ 0) :
    rrelFault s l = none := by
  unfold Claim.winArg at *
  simp [rrelFault, Nat.not_lt.2 number, ring, used]

theorem ringWords : Claim.RingWords := by
  unfold Claim.RingWords Claim.winSpec
  intro h w s u g l ls ready lanes hu
  subst hu
  refine ⟨fun x ss hss number own plain room rings unmapped => ?_, fun r number ring idle => ?_, fun r x number ring used gang => ?_⟩
  · subst hss
    show execRingcfg h w s = _
    rw [execRingcfg, windowWord_ready (chk := fun s _ l => ringcfgFault s l) ready lanes (ringcfgFault_plain number own plain room rings unmapped)]
    rfl
  · show execRingcfgOff h w s = _
    rw [execRingcfgOff, windowWord_ready (chk := fun s _ l => ringoffFault s l) ready lanes (ringoffFault_idle number ring idle)]
    rfl
  · show execRrel h w s = _
    rw [execRrel, windowWord_ready (chk := fun s _ l => rrelFault s l) ready lanes (rrelFault_inUse number ring used), gang]
    rfl

theorem streamsBind : Claim.StreamsBind := by
  unfold Claim.StreamsBind
  intro h w s g ready pass
  have noBad : (rowLeads (lanesRead (Claim.winSpec h false w) s g)).filter (bindFault (afterReads (Claim.winSpec h false w) s g)) = [] := by
    rw [List.filter_eq_nil_iff]
    intro l hl
    simp [pass l hl]
  refine (withGrp_some _ ready.group).trans (congrArg Host.Outcome.next ?_)
  unfold Claim.winSpec at *
  rw [prepare_ready ready]
  dsimp only
  rw [noBad, checked_ok]
  · rfl
  · exact fun _ _ => rfl

/-- Settles O33: the three words of a ring, and the binding of a stream for each row. -/
theorem streamWords : Obligations.StreamWords := ⟨ringWords, streamsBind⟩

end Sys2Proof.Machine
end

section
/-! SUPPORT. The events of the copy engine and the windows (R116, R117, R122, R126, R127, R130 to R132, R141): what the operation of each answers where it takes place. -/

namespace Sys2Proof.Machine

/-! ## Commands -/

/-- R132: a line operation whose two sides can be accessed, with nothing that it waits for, moves its bytes. -/
theorem lineOp_of_accessible {s : State} {core cmd n : Nat} {r : CopyRun} {src dst : W64} {x y : Target} (run : runOf s core cmd = some r)
    (pauses : (r.atEnd || !engineRuns s r.cmd.ctx || (r.cmd.ring.isSome && r.stage.isNone) || slotWaits s core r) = false) (span : lineSpan s core r = (src, dst, n))
    (hx : lineSide s core r.cmd src n r.cmd.ssp false = .ok x) (hy : lineSide s core r.cmd dst n r.cmd.dsp true = .ok y)
    (waits : (engineWaits s core r.cmd.gang x || engineWaits s core r.cmd.gang y || fillWaits s core r n) = false) :
    lineOp s core cmd = some (
      let read := engineRead (touch s core r.cmd (countedSpan s r.cmd src x) x (lastTouch s core r src n x)) core r.cmd.ctx r.cmd.gang x n r.cmd.shn (lastTouch s core r src n x)
      if (windowLate read.1 r.cmd.ctx y n (some read.2)).isSome then lineFails read.1 core r 0x07 2 dst
      else advance (engineWrite read.1 core r.cmd.ctx r.cmd.gang y n read.2 r.cmd.dhn) core { r with waits := false } n y) := by
  simp only [lineOp, run, pauses, span, hx, hy, failing, missing, okTarget, waits, Bool.false_eq_true, if_false]
  split <;> rfl

theorem copyCommandsRun : Claim.CopyCommandsRun := by
  unfold Claim.CopyCommandsRun
  refine ⟨?start, ?fill, ?line, ?uncounted, ?counted⟩
  case start =>
    intro core before rest c s u hu first slot order
    subst hu
    exact happens_some (r := copyStarts s core) (by simp [copyStarts, first, Nat.not_le.2 slot, order])
  case fill =>
    intro core cmd w r g s run fills unstaged goes runs ready slot ring
    have hasSlot : (r.waits && decide (Config.cpRun ≤ slotsUsed (s.core core))) = false := by simpa using slot
    exact happens_some (r := fillStarts s core cmd) (by simp [fillStarts, run, fills, unstaged, goes, runs, ready, hasSlot, ring])
  case line =>
    intro core cmd n v r src dst x y s u run goes runs staged slot span order hx hy fromFree toFree read admitted
    have hasStage : (r.cmd.ring.isSome && r.stage.isNone) = false := by simpa [Option.isSome_iff_ne_none] using staged
    refine happens_some ((lineOp_of_accessible run (by simp [goes, runs, hasStage, slot]) span hx hy (by simp [fromFree, toFree, order])).trans ?_)
    simp [read, admitted]
  case uncounted =>
    intro core cmd r s run ended runs noCounter
    exact happens_some (r := counterSend s core cmd) (by simp [counterSend, run, ended, runs, noCounter])
  case counted =>
    intro core cmd va r g k tg s u o run ended runs counter gang task place idle linesIdle hu device outside ho
    have noFlush : r.lines.any (fun l => s.viewBusy (128 * l)) = false := by simpa [List.any_eq_false] using linesIdle
    subst hu ho
    exact happens_some (r := counterSend s core cmd) (by
      simp only [counterSend, run, ended, runs, counter, gang, task, place, idle, noFlush, device, outside, Bool.not_true, Bool.or_self, Bool.false_eq_true, if_false,
        Option.isSome_none])

/-! ## Copies of lanes -/

theorem copiesPerformed : Claim.CopiesPerformed := by
  unfold Claim.CopiesPerformed
  intro id o hint lanes ok vs w s u ho kind order free hok read hw
  have noWait : (Claim.copyLanes s lanes).any (fun p => targetWaits s p.1 o.id (Claim.copySrc s p) || targetWaits s p.1 o.id (Claim.copyDst s p)) = false := by
    rw [List.any_eq_false]
    intro p hp
    obtain ⟨src, dst⟩ := free p hp
    simp [src, dst]
  unfold Claim.copyLanes Claim.copySrc Claim.copyDst at *
  subst hok hw
  exact happens_some (r := copyDone s id) (by simp [copyDone, ho, kind, order, noWait, read])

/-! ## Windows -/

theorem windowsServed : Claim.WindowsServed := by
  unfold Claim.WindowsServed
  refine ⟨?maps, ?fills, ?writes⟩
  case maps =>
    intro core win g r s u gang request runs hu
    subst hu
    exact happens_some (r := gmapDone s core win) (by simp [gmapDone, gang, request, runs])
  case fills =>
    intro core win granule g rest va pa s first touched
    exact happens_some (r := windowFills s core win granule) (by simp [windowFills, first, touched])
  case writes =>
    intro core win o unmap tids t g h s u oldest kind ht hg hu hh
    subst hu
    exact happens_some (r := writeBackDone s core win) (by simp [writeBackDone, oldest, kind, ht, hg, hh])

/-- Settles O38: the commands, the copies and the windows. -/
theorem copyEvents : Obligations.CopyEvents := ⟨copyCommandsRun, copiesPerformed, windowsServed⟩

end Sys2Proof.Machine
end

section
/-! SUPPORT. The words that act at the home of a word (R157 to R165, R344 to R349), the words that wait (R169, R261, R311, R312), and PFL and LDP (R155, R156): what each
answers once its operands have been read and its checks pass. -/

namespace Sys2Proof.Machine

/-! ## Words at a home -/

/-- R159 to R165: each form of the ATM group is an ATM word of its operands, bytes, scope, operation and limit. -/
theorem exec_of_atmForm {i : Instr} {f : Claim.AtmForm} (h : Claim.atmForm i = some f) (s : State) :
    exec i s = atmWord f.w f.n f.scope f.op (fun s => Claim.limitClk s f.limit) s := by
  unfold Claim.atmForm at h
  split at h <;> cases h <;> rfl

theorem atomicsIssue : Claim.AtomicsIssue := by
  unfold Claim.AtomicsIssue
  intro i f s g T form ready pass
  exact (exec_of_atmForm form s).trans (atmWord_ready ready pass)

/-- R345 to R349: each task instruction that sends an operation is a task word, and an operand within its limit passes the check that goes with it. -/
theorem exec_of_taskForm {i : Instr} {f : Claim.TaskForm} (h : Claim.taskForm i = some f) :
    ∃ limit : Lane → Option (Nat × Nat × Nat × W64), (∀ l, f.fits l → limit l = none) ∧ ∀ s, exec i s = taskWord f.w f.align limit f.op s := by
  unfold Claim.taskForm at h
  split at h <;> cases h
  case h_1 | h_2 => exact ⟨fun _ => none, fun _ _ => rfl, fun _ => rfl⟩
  case h_3 => exact ⟨_, fun _ fits => if_neg (Nat.not_lt.2 fits), fun _ => rfl⟩
  case h_4 => exact ⟨_, fun _ ⟨low, high⟩ => if_neg (by simp [low, high]), fun _ => rfl⟩

theorem taskWordsIssue : Claim.TaskWordsIssue := by
  unfold Claim.TaskWordsIssue
  intro i f s g T form ready pass
  obtain ⟨limit, fits, eq⟩ := exec_of_taskForm form
  exact (eq s).trans (taskWord_ready ready (fun l hl => ⟨fits l (pass l hl).1, (pass l hl).2⟩))

/-- Settles O28: the forms of the ATM group and of the task instructions. -/
theorem homeWords : Obligations.HomeWords := ⟨atomicsIssue, taskWordsIssue⟩

/-! ## Words that wait -/

/-- R73: the reads of a word leave the outstanding effects as they are. -/
theorem afterReads_effectsOut {w : Spec} {s : State} {g : Grp} (hg : s.grp = some g) (t : Thread) : effectsOut (afterReads w s g) t = effectsOut s t := by
  rw [effectsOut, afterReads_ops w s g hg, ← effectsOut]

theorem waitfWaits : Claim.WaitfWaits := by
  unfold Claim.WaitfWaits
  intro h mask s g ready
  have mode := afterReads_ilk { h := h } s g ready.group g.ctx
  rw [show exec (.waitf h mask) s = execWaitf h mask s from rfl, execWaitf, actWord_ready _ ready, mode]
  dsimp only
  refine ⟨⟨fun trusted zero => ?free, fun trusted ⟨l, hl, busy⟩ => ?busy⟩, fun locked performed => ?quiet, fun locked ⟨l, hl, out⟩ => ?outstanding⟩
  case free =>
    rw [trusted, busyFlag_none (List.forall_mem_map.2 zero)]
    rfl
  case busy =>
    obtain ⟨flag, found⟩ := busyFlag_some (ts := (lanesRead { h := h } s g).map Lane.t) ⟨l.t, List.mem_map_of_mem hl, busy⟩
    rw [trusted, found]
    exact ⟨_, rfl⟩
  case quiet =>
    have noneOut : ((lanesRead { h := h } s g).map Lane.t).any (effectsOut (afterReads { h := h } s g)) = false :=
      List.any_eq_false.2 (List.forall_mem_map.2 (fun l hl => by simp [afterReads_effectsOut ready.group, performed l hl]))
    rw [locked, noneOut]
    rfl
  case outstanding =>
    have someOut : ((lanesRead { h := h } s g).map Lane.t).any (effectsOut (afterReads { h := h } s g)) = true :=
      List.any_eq_true.2 ⟨l.t, List.mem_map_of_mem hl, (afterReads_effectsOut ready.group l.t).trans out⟩
    rw [locked, someOut]
    rfl

theorem napSleeps : Claim.NapSleeps := by
  unfold Claim.NapSleeps
  intro h n s g
  refine ⟨fun ready fresh pos lanes => ?sleeps, fun ready fresh => ?zero, fun hg issued awake => ?wakes⟩
  case sleeps =>
    refine (withGrp_some _ ready.group).trans ?_
    rw [fresh, prepare_ready ready]
    simp [pos, lanes]
  case zero =>
    refine (withGrp_some _ ready.group).trans ?_
    rw [fresh, prepare_ready ready]
    rfl
  case wakes =>
    have noNap : g.mem.any (fun t => t.nap.isSome) = false := by
      rw [List.any_eq_false]
      intro t ht
      simp [awake t ht]
    refine (withGrp_some _ hg).trans ?_
    rw [issued, noNap, if_pos rfl, if_neg Bool.false_ne_true]

/-- R169: FENCE, once its operands are read, goes on where its conditions hold in every lane. -/
theorem exec_fence {h : Hd} {k : FenceKind} {sc : Fin 8} {s : State} {g : Grp} (ready : Ready { h := h } s g) :
    exec (.fence h k sc) s = .next (if (lanesRead { h := h } s g).all (fun l => fenceHolds (afterReads { h := h } s g) k l.t)
      then finishWord (afterReads { h := h } s g) g h else stallHold s g 9 0#64) := by
  refine (withGrp_some _ ready.group).trans ?_
  rw [prepare_ready ready]

/-- R261: the commands that an executing lane pushed. -/
theorem pushed_iff {c : MtxCmd} {ls : List Lane} :
    c.pushers.any (fun p => ls.any (fun l => l.t.id == p.1)) = true ↔ ∃ p ∈ c.pushers, ∃ l ∈ ls, l.t.id = p.1 := by
  simp [List.any_eq_true]

theorem fenceAndMwaitWait : Claim.FenceAndMwaitWait := by
  unfold Claim.FenceAndMwaitWait
  intro h s g
  refine ⟨fun k sc ready holds => ?_, fun k sc ready ⟨l, hl, fails⟩ => ?_, fun w hw ready => ?_⟩
  · rw [exec_fence ready, if_pos (List.all_eq_true.2 holds)]
  · rw [exec_fence ready, if_neg (fun all => by simp [List.all_eq_true.1 all l hl] at fails)]
  · subst hw
    rw [show exec (.mwait h) s = execMwait h s from rfl, execMwait, withGrp_some _ ready.group, prepare_ready ready]
    dsimp only
    refine ⟨fun noneLeft => ?goesOn, fun left => ?waits⟩
    case goesOn =>
      rw [List.find?_eq_none.2 (fun c hc pushed => ?_)]
      obtain ⟨p, hp, l, hl, own⟩ := pushed_iff.1 pushed
      exact noneLeft c hc p hp l hl own
    case waits =>
      obtain ⟨c, hc, pushed⟩ := left
      split
      case h_1 first found => exact ⟨_, rfl⟩
      case h_2 noneFound => exact absurd (pushed_iff.2 pushed) (List.find?_eq_none.1 noneFound c hc)

/-- Settles O24: the words that wait, each where it goes on and where it does not. -/
theorem waitWords : Obligations.WaitWords := ⟨waitfWaits, napSleeps, fenceAndMwaitWait⟩

/-! ## PFL and LDP -/

/-- R155: PFL waits for no walk where no lane's check asks for one. -/
theorem pfl_noWalk {s : State} {m : MemAddr} {ls : List Lane} (known : ∀ l ∈ ls, ∀ p, pflLine s l.t (memEa m 4 l) ≠ .miss p) :
    (ls.map (fun l => (l, pflLine s l.t (memEa m 4 l)))).filterMap (fun p => missing [p.2]) = [] := by
  rw [List.filterMap_eq_nil_iff]
  refine List.forall_mem_map.2 (fun l hl => ?_)
  have noMiss := known l hl
  cases check : pflLine s l.t (memEa m 4 l) with
  | miss p => exact absurd check (noMiss p)
  | ok T => rfl
  | bad st code sub a => rfl

/-- R155: PFL whose walks are known fills its lines, and counts one read where it has no count operand. -/
theorem prefetchIssues {h : Hd} {hint : Hint} {m : MemAddr} {cnt : Option Src} {w : Spec} {s : State} {g : Grp}
    (hw : w = { h := h, srcs := memOpnds m true ++ cnt.toList.map (fun c => .src c false) }) (ready : Ready w s g)
    (known : ∀ l ∈ lanesRead w s g, ∀ p, pflLine (afterReads w s g) l.t (memEa m 4 l) ≠ .miss p) :
    exec (.pfl h hint m cnt) s = .next (finishWord ((lanesRead w s g).foldl (fun u l =>
      pflFill u l.t hint (cnt.elim 1 (fun _ => elemAt 32 0 (l.v 2))) (pflLine (afterReads w s g) l.t (memEa m 4 l))) (afterReads w s g)) g h) := by
  subst hw
  refine (withGrp_some _ ready.group).trans (congrArg Host.Outcome.next ?_)
  have reads := prepare_ready ready
  cases cnt
  all_goals
    dsimp only [Option.toList, List.map] at reads known ⊢
    rw [reads]
    dsimp only
    rw [pfl_noWalk known, List.foldl_map]
    rfl

/-- R156: what LDP makes of a lane's check: the fault's code as a status, or the place that the load reads. -/
theorem probeCheck_probed {r : LaneRes} {T : Target} {bad : Option Nat} (h : Claim.probed r T bad) :
    probeCheck r = (bad, .ok (bad.elim T (fun _ => .l1 0))) := by
  cases bad with
  | none => exact congrArg probeCheck (show r = .ok T from h)
  | some code =>
    obtain ⟨st, sub, a, rfl, stage⟩ := (show ∃ st sub a, r = .bad st code sub a ∧ (st = 3 ∨ st = 4) from h)
    exact if_pos stage

/-- R156: the lanes of LDP with their addresses, the codes of those that fail, and the places of the others. -/
theorem probes_known {s : State} {m : MemAddr} {n : Nat} {ls : List Lane} {T : Lane → Target} {bad : Lane → Option Nat}
    (checks : ∀ l ∈ ls, Claim.probed (laneGlobal s l.t.core l.t (loadAcc (memEa m n l) n)) (T l) (bad l)) :
    (ls.map (fun l => (l, memEa m n l))).map (fun p => (p, probeCheck (laneGlobal s p.1.t.core p.1.t (loadAcc p.2 n))))
      = ls.map (fun l => ((l, memEa m n l), bad l, LaneRes.ok ((bad l).elim (T l) (fun _ => .l1 0)))) := by
  rw [List.map_map]
  exact List.map_congr_left (fun l hl => congrArg (Prod.mk (l, memEa m n l)) (probeCheck_probed (checks l hl)))

/-- R156: LDP whose walks are known issues a load of each lane that passes, a status of each that does not, whose entry leaves the TLB, and is watched for the loads. -/
theorem probesIssue {h : Hd} {t : ElemTy} {d : Dst} {m : MemAddr} {w : Spec} {s : State} {g : Grp} {T : Lane → Target} {bad : Lane → Option Nat}
    (hw : w = { h := h, srcs := memOpnds m true, dst := Dest.ofDst d true, a := true }) (ready : Ready w s g)
    (checks : ∀ l ∈ lanesRead w s g, Claim.probed (laneGlobal (afterReads w s g) l.t.core l.t (loadAcc (memEa m (memWidth t) l) (memWidth t))) (T l) (bad l)) :
    exec (.ldp h t d m) s = .next (finishWord (watched (issueOps (((lanesRead w s g).filter (fun l => (bad l).isSome)).foldl (fun u l =>
        dropBadTlb u g.core g.ctx (memEa m (memWidth t) l)) (afterReads w s g)) g w ((lanesRead w s g).map (fun l =>
        (l, { kind := Claim.probeKind t (T l) (bad l), va := memEa m (memWidth t) l })))) g
      (((lanesRead w s g).filter (fun l => (bad l).isNone)).map (fun l => (l, memEa m (memWidth t) l))) (memWidth t) false true false) g h) := by
  subst hw
  refine (withGrp_some _ ready.group).trans (congrArg Host.Outcome.next ?_)
  rw [prepare_ready ready]
  dsimp only
  rw [probes_known checks, checkLanes_ok _ (by simp)]
  simp only [List.filter_map, List.map_map, List.foldl_map, Function.comp_def, okTarget]
  refine congrArg (fun ops => finishWord (watched (issueOps _ g _ ops) g _ _ _ _ _) g h) (List.map_congr_left (fun l _ => ?_))
  cases bad l <;> rfl

/-- Settles O14: PFL without and with a count, and LDP. -/
theorem prefetchAndProbe : Obligations.PrefetchAndProbe := by
  unfold Obligations.PrefetchAndProbe
  intro h s g m
  refine ⟨fun hint w hw ready known => ?_, fun hint c w hw ready known => prefetchIssues (cnt := some c) hw ready known,
    fun t d w T bad hw ready checks => probesIssue hw ready checks⟩
  exact prefetchIssues (cnt := none) (hw.trans (by simp)) ready known

end Sys2Proof.Machine
end

section
/-! SUPPORT. CNTDEC at the home of its word (R162 to R164, R168): the words of counters and barriers by their fields, what a decrement makes of them, and that it
changes no other byte. -/

namespace Sys2Proof.Machine

/-! ## The words of R162 -/

/-- A counter word of `count`, with its bits UF and T. -/
def counterWord (uf t : Bool) (count : Nat) : W64 := BitVec.ofNat 64 (2 ^ 62 * t.toNat + 2 ^ 61 * uf.toNat + count)

/-- A barrier word, with its bit OVR and its fields PHASE, EXPECT and ARRIVED. -/
def barrierWord (ovr : Bool) (phase expect arrived : Nat) : W64 :=
  BitVec.ofNat 64 (2 ^ 63 + 2 ^ 62 * ovr.toNat + 2 ^ 32 * phase + 2 ^ 16 * expect + arrived)

/-! A field of a word is a digit of its number, so that `omega` compares words field by field. -/

theorem extractLsb'_toNat_div (w : W64) (i n : Nat) : (w.extractLsb' i n).toNat = w.toNat / 2 ^ i % 2 ^ n := by
  rw [BitVec.extractLsb'_toNat, Nat.shiftRight_eq_div_pow]

theorem extractLsb'_eq_zero {w : W64} {i n : Nat} : w.extractLsb' i n = 0#n ↔ w.toNat / 2 ^ i % 2 ^ n = 0 := by
  rw [← extractLsb'_toNat_div, BitVec.toNat_eq]
  simp

theorem getLsbD_toNat (w : W64) (i : Nat) : (w.getLsbD i).toNat = w.toNat / 2 ^ i % 2 := Nat.toNat_testBit _ _

theorem getLsbD_eq_iff {w : W64} {i : Nat} {b : Bool} : w.getLsbD i = b ↔ w.toNat / 2 ^ i % 2 = b.toNat := by
  rw [← getLsbD_toNat]
  cases b <;> simp

theorem counterWord_toNat {uf t : Bool} {count : Nat} (h : count < 2 ^ 32) : (counterWord uf t count).toNat = 2 ^ 62 * t.toNat + 2 ^ 61 * uf.toNat + count := by
  have := uf.toNat_lt
  have := t.toNat_lt
  rw [counterWord, BitVec.toNat_ofNat]
  omega

theorem counterWord_fields {uf t : Bool} {count : Nat} (h : count < 2 ^ 32) : ((counterWord uf t count).extractLsb' 0 32).toNat = count
    ∧ (counterWord uf t count).getLsbD 61 = uf ∧ (counterWord uf t count).getLsbD 62 = t ∧ (counterWord uf t count).getLsbD 63 = false
    ∧ (counterWord uf t count).extractLsb' 32 29 = 0#29 := by
  have := uf.toNat_lt
  have := t.toNat_lt
  simp only [extractLsb'_eq_zero, extractLsb'_toNat_div, getLsbD_eq_iff, counterWord_toNat h, Bool.toNat_false]
  omega

/-- A word that is no barrier and has no reserved bit is the counter word of its fields. -/
theorem counterWord_of_fields {w : W64} (counter : w.getLsbD 63 = false) (reserved : w.extractLsb' 32 29 = 0#29) :
    w = counterWord (w.getLsbD 61) (w.getLsbD 62) (w.extractLsb' 0 32).toNat := by
  have low : (w.extractLsb' 0 32).toNat < 2 ^ 32 := BitVec.isLt _
  have := w.isLt
  rw [getLsbD_eq_iff, Bool.toNat_false] at counter
  rw [extractLsb'_eq_zero] at reserved
  apply BitVec.eq_of_toNat_eq
  rw [counterWord_toNat low]
  simp only [extractLsb'_toNat_div, getLsbD_toNat]
  omega

theorem barrierWord_toNat {ovr : Bool} {phase expect arrived : Nat} (hp : phase < 2 ^ 16) (he : expect < 2 ^ 16) (ha : arrived < 2 ^ 16) :
    (barrierWord ovr phase expect arrived).toNat = 2 ^ 63 + 2 ^ 62 * ovr.toNat + 2 ^ 32 * phase + 2 ^ 16 * expect + arrived := by
  have := ovr.toNat_lt
  rw [barrierWord, BitVec.toNat_ofNat]
  omega

theorem barrierWord_fields {ovr : Bool} {phase expect arrived : Nat} (hp : phase < 2 ^ 16) (he : expect < 2 ^ 16) (ha : arrived < 2 ^ 16) :
    ((barrierWord ovr phase expect arrived).extractLsb' 0 16).toNat = arrived ∧ ((barrierWord ovr phase expect arrived).extractLsb' 16 16).toNat = expect
    ∧ ((barrierWord ovr phase expect arrived).extractLsb' 32 16).toNat = phase ∧ (barrierWord ovr phase expect arrived).extractLsb' 48 14 = 0#14
    ∧ (barrierWord ovr phase expect arrived).getLsbD 62 = ovr ∧ (barrierWord ovr phase expect arrived).getLsbD 63 = true := by
  have := ovr.toNat_lt
  simp only [extractLsb'_eq_zero, extractLsb'_toNat_div, getLsbD_eq_iff, barrierWord_toNat hp he ha, Bool.toNat_true]
  omega

/-- A barrier word without reserved bits is the barrier word of its fields. -/
theorem barrierWord_of_fields {w : W64} (barrier : w.getLsbD 63 = true) (reserved : w.extractLsb' 48 14 = 0#14) :
    w = barrierWord (w.getLsbD 62) (w.extractLsb' 32 16).toNat (w.extractLsb' 16 16).toNat (w.extractLsb' 0 16).toNat := by
  have := w.isLt
  rw [getLsbD_eq_iff, Bool.toNat_true] at barrier
  rw [extractLsb'_eq_zero] at reserved
  apply BitVec.eq_of_toNat_eq
  rw [barrierWord_toNat (BitVec.isLt _) (BitVec.isLt _) (BitVec.isLt _)]
  simp only [extractLsb'_toNat_div, getLsbD_toNat]
  omega

/-- R162, R168: the words that the home refuses. -/
theorem wordBad_iff {w : W64} {pa : Nat} : State.wordBad w pa = true ↔ Claim.refuses w pa := by
  unfold State.wordBad Claim.refuses
  cases w.getLsbD 63 <;> simp

/-- R164: an arrival of `n` at a barrier. -/
theorem arrival_barrierWord {ovr : Bool} {phase expect arrived : Nat} (hp : phase < 2 ^ 16) (he : expect < 2 ^ 16) (ha : arrived < 2 ^ 16) (n : Nat) :
    arrival (barrierWord ovr phase expect arrived) n = if (expect ≤ arrived + n ∧ 0 < n) ∨ expect = 0
      then (barrierWord (ovr || decide (expect < arrived + n)) ((phase + 1) % 2 ^ 16) expect 0, 2 ^ 31 + phase)
      else (barrierWord ovr phase expect (arrived + n), phase) := by
  obtain ⟨hArrived, hExpect, hPhase, -, hOvr, -⟩ := barrierWord_fields (ovr := ovr) hp he ha
  simp only [arrival, hArrived, hExpect, hPhase, hOvr]
  split
  case isTrue ends =>
    refine Prod.ext (congrArg (BitVec.ofNat 64) ?_) rfl
    have bit : (if ovr then 2 ^ 62 else if expect < arrived + n then 2 ^ 62 else 0) = 2 ^ 62 * (ovr || decide (expect < arrived + n)).toNat := by
      cases ovr <;> simp [Bool.toNat, Bool.cond_decide]
    rw [bit]
    omega
  case isFalse goesOn =>
    refine Prod.ext ?_ rfl
    simp only [barrierWord, ← BitVec.ofNat_add, Nat.add_assoc]

/-! ## The word at its home -/

/-- From `s` to `u` the 8-byte word at `pa` has become `x`, and every other byte at a home is as before. -/
def WordBecomes (s u : State) (pa : Nat) (x : W64) : Prop := Claim.homeWord64 u pa = x ∧ ∀ a, a < pa ∨ pa + 8 ≤ a → homeByte u a = homeByte s a

section
variable {s : State} {pa : Nat} (device : s.paKind (128 * (pa / 128)) = .device) (outside : s.dbgOwner (pa / 128) = none)

include device outside

/-- R93: a read of a word of device memory fills its line, and finds what the home holds. -/
theorem homeWord_device (c : Nat) : homeWord s pa c = (s.fillDev (pa / 128) c, Claim.homeWord64 s pa) := by
  obtain ⟨v, found, -, data⟩ := find_fillDev s (pa / 128) c
  simp [homeWord, State.homeReadN, State.homeRead, outside, fillHome_device s _ c device, State.homeLine, found, data, Claim.homeWord64]

/-- R95: a write of the word, after such a fill, changes its eight bytes. -/
theorem homeWriteN_becomes (inUse : s.pageRetired (128 * (pa / 128)) = false) (wf : Memory.wf s.mem = true) (aligned : pa % 8 = 0) (c : Nat) {v : Nat} {x : W64}
    (value : BitVec.ofNat 64 v = x) : WordBecomes s ((s.fillDev (pa / 128) c).homeWriteN pa 8 c v) pa x := by
  subst value
  have fits : pa % 128 + 8 ≤ 128 := by omega
  have retired : (s.fillDev (pa / 128) c).pageRetired (128 * (pa / 128)) = false := by unfold State.fillDev; split <;> exact inUse
  have device' := paKind_device device (s.fillDev (pa / 128) c)
  have outside' := (dbgOwner_fillDev s (pa / 128) c (pa / 128)).trans outside
  have wf' : Memory.wf (s.fillDev (pa / 128) c).mem = true := by rwa [mem_fillDev]
  refine ⟨?_, fun a ha => ?_⟩
  · obtain ⟨line, -, -⟩ := homeWrite_spec (s.fillDev (pa / 128) c) (pa / 128) c (LineOps.mask (pa % 128) 8) (LineOps.set 0#1024 (pa % 128) 8 v)
      device' outside' retired wf'
    rw [Claim.homeWord64, State.homeWriteN, line, if_pos rfl, LineOps.get_merge_set _ _ _ fits]
    exact BitVec.eq_of_toNat_eq (by simp)
  · obtain ⟨others, -, -, -⟩ := homeWriteN_spec (s.fillDev (pa / 128) c) pa 8 c v device' outside' retired wf' fits
    rw [homeByte, others a ha, devLine_fillDev, homeByte]

end

/-- R93: a fill changes no byte at a home. -/
theorem homeByte_fillDev (s : State) (l c a : Nat) : homeByte (s.fillDev l c) a = homeByte s a := by rw [homeByte, devLine_fillDev, homeByte]

/-! ## CNTDEC -/

section
variable {s : State} {c pa n : Nat} {va : W64} (device : s.paKind (128 * (pa / 128)) = .device) (outside : s.dbgOwner (pa / 128) = none)
  (inUse : s.pageRetired (128 * (pa / 128)) = false) (wf : Memory.wf s.mem = true) (aligned : pa % 8 = 0)

include device outside

/-- R168: a word that the home refuses stays as it is. -/
theorem decrement_refuses (bad : Claim.refuses (Claim.homeWord64 s pa) pa) :
    (decrement s c va pa n).ok = false ∧ ∀ a, homeByte (decrement s c va pa n).s a = homeByte s a := by
  rw [decrement, homeWord_device device outside]
  dsimp only
  rw [if_pos (wordBad_iff.2 bad)]
  exact ⟨rfl, homeByte_fillDev s _ c⟩

include inUse wf aligned

/-- R164: a barrier counts the arrival. -/
theorem decrement_barrier (good : ¬ Claim.refuses (Claim.homeWord64 s pa) pa) (barrier : (Claim.homeWord64 s pa).getLsbD 63 = true) :
    (decrement s c va pa n).ok = true ∧ (decrement s c va pa n).val = (arrival (Claim.homeWord64 s pa) n).2
    ∧ WordBecomes s (decrement s c va pa n).s pa (arrival (Claim.homeWord64 s pa) n).1 := by
  rw [decrement, homeWord_device device outside]
  dsimp only
  rw [if_neg (mt wordBad_iff.1 good), if_pos barrier]
  exact ⟨rfl, rfl, homeWriteN_becomes device outside inUse wf aligned c (by simp)⟩

/-- R163: a counter that does not fire goes down by `n`, or to zero with UF. -/
theorem decrement_counter {uf t : Bool} {count : Nat} (small : count < 2 ^ 32) (word : Claim.homeWord64 s pa = counterWord uf t count)
    (good : ¬ Claim.refuses (Claim.homeWord64 s pa) pa) (silent : t = false ∨ n < count ∨ count = 0 ∨ n = 0) :
    (decrement s c va pa n).ok = true ∧ WordBecomes s (decrement s c va pa n).s pa (counterWord (uf || decide (count < n)) t (count - n)) := by
  obtain ⟨hCount, hUf, hT, noBarrier, -⟩ := counterWord_fields (uf := uf) (t := t) small
  rw [decrement, homeWord_device device outside]
  dsimp only
  rw [if_neg (mt wordBad_iff.1 good)]
  simp only [word, hCount, hUf, hT, noBarrier, counterWord_toNat small, Bool.false_eq_true, if_false]
  rcases Nat.eq_zero_or_pos n with rfl | pos
  case inl => simp [WordBecomes, Claim.homeWord64, devLine_fillDev, homeByte_fillDev, ← word]
  case inr =>
    rw [if_neg pos.ne']
    by_cases within : n ≤ count
    · have noFire : (t && decide (n = count)) = false := by
        rw [Bool.and_eq_false_iff, decide_eq_false_iff_not]
        exact silent.imp_right (by omega)
      rw [if_pos within, noFire]
      refine ⟨rfl, homeWriteN_becomes device outside inUse wf aligned c (congrArg (BitVec.ofNat 64) ?_)⟩
      simp [Nat.not_lt.2 within]
      omega
    · have noFire : (t && decide (0 < count)) = false := by
        rw [Bool.and_eq_false_iff, decide_eq_false_iff_not]
        exact silent.imp_right (by omega)
      rw [if_neg within, noFire]
      refine ⟨rfl, homeWriteN_becomes device outside inUse wf aligned c (congrArg (BitVec.ofNat 64) ?_)⟩
      cases uf <;> simp [Nat.not_le.1 within] <;> omega

end

/-- Settles O36: a word that is refused, a counter and a barrier. -/
theorem counterAndBarrierWords : Obligations.CounterAndBarrierWords := by
  unfold Obligations.CounterAndBarrierWords
  intro s c pa n count arrived expect phase va w x r device outside inUse wf aligned _ hw hr hx hcount harrived hexpect hphase
  subst hr hx
  refine ⟨fun bad => ?refused, fun good counter silent => ?counter, fun good barrier => ?barrier⟩
  case refused => exact decrement_refuses device outside (hw ▸ bad)
  case counter =>
    have reserved : w.extractLsb' 32 29 = 0#29 := by
      by_contra h
      exact good (.inr ⟨counter, .inl h⟩)
    have small : count < 2 ^ 32 := hcount ▸ BitVec.isLt _
    have word : w = counterWord (w.getLsbD 61) (w.getLsbD 62) count := hcount ▸ counterWord_of_fields counter reserved
    obtain ⟨ok, becomes, others⟩ := decrement_counter (c := c) (va := va) device outside inUse wf aligned small (hw.symm.trans word) (hw ▸ good) silent
    obtain ⟨hCount, hUf, hT, hB, hReserved⟩ := counterWord_fields (uf := w.getLsbD 61 || decide (count < n)) (t := w.getLsbD 62)
      (Nat.lt_of_le_of_lt (Nat.sub_le count n) small)
    rw [becomes]
    exact ⟨ok, hCount, hUf, hT, hB, hReserved, others⟩
  case barrier =>
    have reserved : w.extractLsb' 48 14 = 0#14 := by
      by_contra h
      exact good (.inl ⟨barrier, h⟩)
    have ha : arrived < 2 ^ 16 := harrived ▸ BitVec.isLt _
    have he : expect < 2 ^ 16 := hexpect ▸ BitVec.isLt _
    have hp : phase < 2 ^ 16 := hphase ▸ BitVec.isLt _
    have word : w = barrierWord (w.getLsbD 62) phase expect arrived := by
      rw [hphase, hexpect, harrived]
      exact barrierWord_of_fields barrier reserved
    obtain ⟨ok, val, becomes, others⟩ := decrement_barrier (c := c) (va := va) (n := n) device outside inUse wf aligned (hw ▸ good) (hw ▸ barrier)
    have arrive := arrival_barrierWord (ovr := w.getLsbD 62) hp he ha n
    rw [← word] at arrive
    rw [becomes, val, ← hw, arrive]
    split
    case isTrue ends =>
      obtain ⟨hArrived, hExpect, hPhase, hReserved, hOvr, hB⟩ := barrierWord_fields (ovr := w.getLsbD 62 || decide (expect < arrived + n))
        (Nat.mod_lt (phase + 1) (Nat.two_pow_pos 16)) he (Nat.two_pow_pos 16)
      exact ⟨ok, hB, hExpect, hReserved, ⟨hArrived, hPhase, hOvr, rfl⟩, others⟩
    case isFalse goesOn =>
      obtain ⟨hArrived, hExpect, hPhase, hReserved, hOvr, hB⟩ := barrierWord_fields (ovr := w.getLsbD 62) hp he (arrived := arrived + n) (by omega)
      exact ⟨ok, hB, hExpect, hReserved, ⟨hArrived, hPhase, hOvr, rfl⟩, others⟩

end Sys2Proof.Machine
end

section
/-! SUPPORT. A store as it is performed (R148, R150, R154, R277): no refusal meets it, what follows it changes no stored byte, and its own bytes are the data's. -/

namespace Sys2Proof.Machine

/-! ## What is stored -/

theorem Stored.homeByte_eq {s u : State} (h : Stored s u) (a : Nat) : homeByte u a = homeByte s a := by rw [homeByte, h.devLine, homeByte]

theorem Stored.coreByte_eq {s u : State} (h : Stored s u) (c a : Nat) : coreByte u c a = coreByte s c a := by
  rw [coreByte, l1Find, h.core, h.devLine, coreByte, l1Find]

/-- R150: the end of a store: SETB counts down and the operation is outstanding no longer. -/
def storeEnds (s : State) (o : Op) : State := sweepThread ((countDown s o.tid o.setb).dropOp o.id) o.tid

theorem storeEnds_stored (s : State) (o : Op) : Stored s (storeEnds s o) :=
  ((countDown_stored s o.tid o.setb).trans (v := (countDown s o.tid o.setb).dropOp o.id) ⟨rfl, rfl, rfl, rfl, rfl⟩).trans (sweepThread_stored _ _)

/-- R3: the bytes of a store's data are those of its `n` lowest bytes. -/
theorem byte_of_mod {i n : Nat} (h : i < n) (v : Nat) : v % 2 ^ (8 * n) / 256 ^ i % 256 = v / 256 ^ i % 256 := by
  obtain ⟨k, rfl⟩ := Nat.exists_eq_add_of_lt h
  rw [show 2 ^ (8 * (i + k + 1)) = 256 ^ i * (256 * 256 ^ k) by rw [Nat.pow_mul, ← Nat.pow_succ', ← Nat.pow_add, Nat.add_assoc],
    Nat.mod_mul_right_div_self, Nat.mod_mul_right_mod]

/-! ## No refusal at the home -/

section
variable {s : State} {o : Op} {pa n v : Nat} (device : s.paKind (128 * (pa / 128)) = .device) (outside : s.dbgOwner (pa / 128) = none)
  (inUse : s.pageRetired (128 * (pa / 128)) = false) (admitted : s.dbgRefuses o.ctx pa n true = false)

/-- R81: the addresses of device memory. -/
theorem paKind_device_iff : s.paKind pa = .device ↔ pa < 0x00C000000000 := by
  unfold State.paKind
  by_cases h : pa < 0x00C000000000
  · simp [h]
  · simp only [h, if_false, iff_false]
    repeat' split
    all_goals exact PaKind.noConfusion

/-- R81: an address is device memory where its line is. -/
theorem paKind_of_line (device : s.paKind (128 * (pa / 128)) = .device) : s.paKind pa = .device := by
  rw [paKind_device_iff] at device ⊢
  omega

/-- R99: a page holds whole lines. -/
theorem pageRetired_of_line (inUse : s.pageRetired (128 * (pa / 128)) = false) : s.pageRetired pa = false := by
  have page : 128 * (pa / 128) / 65536 = pa / 65536 := by omega
  rwa [State.pageRetired, page] at inUse

include device outside inUse admitted

/-- R399: a store that the debug windows do not refuse, to device memory on a page in use, is refused by none (log entry 52). -/
theorem accessLate_home : accessLate s o (.home pa) n (some v) = none := by
  simp [accessLate, lateFault, windowLate, homeFault_device (paKind_of_line device) (pageRetired_of_line inUse), admitted, State.dbgValueRefused, outside]

theorem accessLate_l1 : accessLate s o (.l1 pa) n (some v) = none := by
  simp [accessLate, lateFault, windowLate, homeFault_device (paKind_of_line device) (pageRetired_of_line inUse), pageRetired_of_line inUse, admitted,
    State.dbgValueRefused, outside]

end

/-! ## Stores are performed -/

section
variable {id : Nat} {o : Op} {t : Thread} {tg : Target} {n : Nat} {hint : Hint} {data : BitVec 128} {s : State}

/-- R150: a due store that no refusal meets is written to its target, goes home where it has been overtaken, and ends. -/
theorem exec_storePerformed (due : Claim.StoreDue s id o t tg n hint data) (allowed : accessLate s o tg n (some (data.toNat % 2 ^ (8 * n))) = none) :
    exec (.storePerformed id) s = .next (storeEnds (pushedOut (writeTarget s t tg n (data.toNat % 2 ^ (8 * n)) hint) t o tg) o) := by
  obtain ⟨tg0, kind, rfl⟩ := due.kind
  exact (storesPerformed id o t s due.op due.thread due.order).1 tg0 n hint data kind due.free allowed

/-- An operation on a word of the line. -/
def onWord (line : Nat) (k : OpKind) : Bool :=
  match k with
  | .word w => w.pa / 128 == line
  | _ => false

/-- R157, R271: a store that no later operation of its thread has overtaken stays in the L1. -/
theorem pushedOut_ordered {u : State} {pa : Nat} (same : SameOps s u)
    (ordered : ∀ p ∈ s.ops, p.tid = t.id → o.id < p.id → ∀ w, p.kind = .word w → w.pa / 128 ≠ pa / 128) : pushedOut u t o (.l1 pa) = u := by
  have noneLater : u.ops.any (fun p => p.tid == t.id && decide (o.id < p.id) && onWord (pa / 128) p.kind) = false := by
    rw [same.any (fun id tid k => tid == t.id && decide (o.id < id) && onWord (pa / 128) k), List.any_eq_false]
    intro p hp overtakes
    simp only [Bool.and_eq_true, beq_iff_eq, decide_eq_true_eq] at overtakes
    obtain ⟨⟨own, later⟩, word⟩ := overtakes
    unfold onWord at word
    split at word
    case h_1 w kind => exact ordered p hp own later w kind (by simpa using word)
    case h_2 => exact absurd word Bool.false_ne_true
  exact if_neg (ne_true_of_eq_false noneLater)

/-- R148, R150: a store of ordinary device memory. -/
theorem ordinaryStore_bytes {pa : Nat} (due : Claim.StoreDue s id o t (.l1 pa) n hint data) (fits : pa % 128 + n ≤ 128)
    (device : s.paKind (128 * (pa / 128)) = .device) (outside : s.dbgOwner (pa / 128) = none) (inUse : s.pageRetired (128 * (pa / 128)) = false)
    (admitted : s.dbgRefuses o.ctx pa n true = false)
    (ordered : ∀ p ∈ s.ops, p.tid = t.id → o.id < p.id → ∀ w, p.kind = .word w → w.pa / 128 ≠ pa / 128) :
    ∃ u, exec (.storePerformed id) s = .next u
      ∧ (∀ a, a < pa ∨ pa + n ≤ a → coreByte u t.core a = coreByte s t.core a)
      ∧ (∀ i < n, coreByte u t.core (pa + i) = data.toNat / 256 ^ i % 256)
      ∧ ((∀ k, l1Find s t.core (pa / 128) = some k → k.ctx = t.ctx) → ∀ a, (a < pa ∨ pa + n ≤ a ∨ hint ≠ .stream ∨ l1Find s t.core (pa / 128) ≠ none) →
          homeByte u a = homeByte s a)
      ∧ (∀ d, d ≠ t.core → (u.core d).l1 = (s.core d).l1) ∧ ∀ d, (u.core d).glen = (s.core d).glen := by
  obtain ⟨others, own, home, cores, glens, ops, -, -⟩ :=
    l1Store_spec s t.core t.ctx pa n (data.toNat % 2 ^ (8 * n)) hint device outside inUse due.mem due.here fits
  refine ⟨_, exec_storePerformed due (accessLate_l1 device outside inUse admitted), ?_⟩
  rw [pushedOut_ordered (u := writeTarget s t (.l1 pa) n (data.toNat % 2 ^ (8 * n)) hint) ops ordered]
  have ends := storeEnds_stored (writeTarget s t (.l1 pa) n (data.toNat % 2 ^ (8 * n)) hint) o
  refine ⟨fun a ha => (ends.coreByte_eq _ a).trans (others a ha), fun i hi => ?_, fun same a ha => (ends.homeByte_eq a).trans (home same a ha),
    fun d hd => ?_, fun d => ?_⟩
  · rw [ends.coreByte_eq, ← byte_of_mod hi]
    exact own i hi
  · rw [ends.core]
    exact congrArg Core.l1 (cores d hd)
  · rw [ends.core]
    exact glens d

/-- R277: the times of a coupled store leave what is stored. -/
def coupledTimes (s : State) (tid pa : Nat) : State := (s.timedWrite tid (pa / 128)).releaseAt (pa / 128) (s.threadTime tid)

theorem coupledTimes_stored (s : State) (tid pa : Nat) : Stored s (coupledTimes s tid pa) := (timedWrite_stored s tid _).trans (releaseAt_stored _ _ _)

theorem coupledTimes_pages (s : State) (tid pa : Nat) : (coupledTimes s tid pa).dbgOwner = s.dbgOwner ∧ (coupledTimes s tid pa).pageRetired = s.pageRetired := by
  unfold coupledTimes State.releaseAt
  dsimp only
  split <;> exact ⟨rfl, rfl⟩

/-- R150, R277: a store of coupled memory. -/
theorem coupledStore_bytes {pa : Nat} (due : Claim.StoreDue s id o t (.home pa) n hint data) (fits : pa % 128 + n ≤ 128)
    (device : s.paKind (128 * (pa / 128)) = .device) (outside : s.dbgOwner (pa / 128) = none) (inUse : s.pageRetired (128 * (pa / 128)) = false)
    (admitted : s.dbgRefuses o.ctx pa n true = false) (leased : ∀ k, l1Find s t.core (pa / 128) = some k → k.lease ≠ none) :
    ∃ u, exec (.storePerformed id) s = .next u
      ∧ (∀ a, a < pa ∨ pa + n ≤ a → homeByte u a = homeByte s a)
      ∧ (∀ i < n, homeByte u (pa + i) = data.toNat / 256 ^ i % 256)
      ∧ ∀ d, u.core d = s.core d := by
  have timed := coupledTimes_stored s t.id pa
  obtain ⟨owner, pages⟩ := coupledTimes_pages s t.id pa
  obtain ⟨others, own, -, cores⟩ := homeWriteN_spec (coupledTimes s t.id pa) pa n t.ctx (data.toNat % 2 ^ (8 * n)) (paKind_device device _)
    ((congrFun owner _).trans outside) ((congrFun pages _).trans inUse) (timed.mem ▸ due.mem) fits
  have noFlush : writeTarget s t (.home pa) n (data.toNat % 2 ^ (8 * n)) hint
      = (coupledTimes s t.id pa).homeWriteN pa n t.ctx (data.toNat % 2 ^ (8 * n)) := by
    simp only [writeTarget, coupledStore]
    split
    case h_1 l found => rw [if_neg (by simpa using leased l found), coupledTimes]
    case h_2 => rfl
  refine ⟨_, exec_storePerformed due (accessLate_home device outside inUse admitted), ?_⟩
  rw [noFlush]
  have ends := storeEnds_stored ((coupledTimes s t.id pa).homeWriteN pa n t.ctx (data.toNat % 2 ^ (8 * n))) o
  refine ⟨fun a ha => ?_, fun i hi => ?_, fun d => ?_⟩
  · exact (ends.homeByte_eq a).trans ((others a ha).trans (timed.homeByte_eq a))
  · rw [← byte_of_mod hi]
    exact (ends.homeByte_eq _).trans (own i hi)
  · exact (ends.core d).trans ((congrArg (fun l => l.getD d Core.reset) cores).trans (timed.core d))

/-- R113: a write to the Glen of a core: its bytes there, and nothing else of a core or at a home. -/
theorem glenWriteN_spec {core off v : Nat} (here : core < s.cores.length) (wf : Memory.wf (s.core core).glen = true) :
    (∀ a, a < off ∨ off + n ≤ a → Memory.read ((glenWriteN s core off n v).core core).glen a = Memory.read (s.core core).glen a)
    ∧ (∀ i < n, Memory.read ((glenWriteN s core off n v).core core).glen (off + i) = BitVec.ofNat 8 (v / 256 ^ i))
    ∧ (∀ a, homeByte (glenWriteN s core off n v) a = homeByte s a) ∧ (∀ d, ((glenWriteN s core off n v).core d).l1 = (s.core d).l1)
    ∧ ∀ d, d ≠ core → ((glenWriteN s core off n v).core d).glen = (s.core d).glen := by
  have written := State.core_updCore s core (fun k => { k with glen := Memory.writeN k.glen off (leBytes v n) }) here
  have other {d : Nat} (hd : d ≠ core) := State.core_updCore_ne s core d (fun k => { k with glen := Memory.writeN k.glen off (leBytes v n) }) hd.symm
  rw [glenWriteN]
  refine ⟨fun a ha => ?_, fun i hi => ?_, fun a => rfl, fun d => ?_, fun d hd => congrArg Core.glen (other hd)⟩
  · rw [written]
    exact Memory.read_writeN_outside _ wf (by rwa [leBytes_length])
  · rw [written]
    refine (Memory.read_writeN_inside _ wf i (by rwa [leBytes_length])).trans ?_
    simp [leBytes]
  · rcases eq_or_ne d core with rfl | hd
    · rw [written]
    · rw [other hd]

/-- R154: a store of the stash. -/
theorem stashStore_bytes {core off : Nat} (due : Claim.StoreDue s id o t (.glen core off) n hint data) (here : core < s.cores.length)
    (wf : Memory.wf (s.core core).glen = true) :
    ∃ u, exec (.storePerformed id) s = .next u
      ∧ (∀ a, a < off ∨ off + n ≤ a → Memory.read (u.core core).glen a = Memory.read (s.core core).glen a)
      ∧ (∀ i < n, Memory.read (u.core core).glen (off + i) = BitVec.ofNat 8 (data.toNat / 256 ^ i))
      ∧ (∀ a, homeByte u a = homeByte s a) ∧ (∀ d, (u.core d).l1 = (s.core d).l1) ∧ ∀ d, d ≠ core → (u.core d).glen = (s.core d).glen := by
  obtain ⟨others, own, home, l1, glens⟩ := glenWriteN_spec (off := off) (n := n) (v := data.toNat % 2 ^ (8 * n)) here wf
  have ends := storeEnds_stored (glenWriteN s core off n (data.toNat % 2 ^ (8 * n))) o
  refine ⟨_, exec_storePerformed due rfl, ?_⟩
  simp only [pushedOut, writeTarget, ends.core, ends.homeByte_eq]
  refine ⟨others, fun i hi => (own i hi).trans (BitVec.eq_of_toNat_eq ?_), home, l1, glens⟩
  simpa using byte_of_mod hi data.toNat

end

/-- Settles O57: a store of ordinary memory, of coupled memory and of the stash. -/
theorem storedBytes : Obligations.StoredBytes := by
  unfold Obligations.StoredBytes
  intro id o t tg n hint data s due
  refine ⟨fun pa target => ?ordinary, fun pa target => ?coupled, fun core off target => ?stash⟩
  all_goals subst target
  case ordinary => exact ordinaryStore_bytes due
  case coupled => exact coupledStore_bytes due
  case stash => exact stashStore_bytes due

end Sys2Proof.Machine
end

section
/-! SUPPORT. The words of the CEL group (R188 to R196): those that bind a value, and DROP, KEEP and FREE, which change the binding of SA in every executing lane or in
none (R190); the limits of their IMM16 (R191, R192); and the records of the device at reset. -/

namespace Sys2Proof.Machine

/-- Settles O2: each of the words is a `fixedWord` of its operands and results, and such a word issues. -/
theorem cellValueWords : Obligations.CellValueWords := by
  unfold Obligations.CellValueWords
  intro i w r s g word ready
  exact (exec_of_cellValueWord word).trans (fixedWord_ready Config.latA r ready)

/-! ## A word that changes bindings, where it may and where it may not -/

section
variable {h : Hd} {a : VName} {ok : Binding → Bool} {f : Thread → Binding → Thread} {s : State} {g : Grp}

/-- R190: a lane fails where its name is unbound, or bound in a way that the word may not change. -/
theorem bindFails_eq {fails : Option Binding → Bool} (unbound : fails none = true) (refused : ∀ b, fails (some b) = !ok b) :
    bindFails a ok = fun l => fails (lookupName l.t a.val) := by
  funext l
  unfold bindFails
  cases lookupName l.t a.val with
  | none => exact unbound.symm
  | some b => exact (refused b).symm

theorem filter_bindFails_bound {ls : List Lane} (all : Claim.bound ls a.val (fun b => ok b = true)) : ls.filter (bindFails a ok) = [] := by
  rw [List.filter_eq_nil_iff]
  intro l hl
  obtain ⟨b, found, good⟩ := all l hl
  simp [bindFails, found, good]

/-- R190: where no lane fails, the binding is changed in each. -/
theorem bindingWord_changes (ready : Ready { h := h } s g) (all : Claim.bound (lanesRead { h := h } s g) a.val (fun b => ok b = true)) :
    bindingWord h a ok f s = .next (finishWord (Claim.rebind a.val f (lanesRead { h := h } s g) (afterReads { h := h } s g)) g h) := by
  rw [bindingWord, actWord_ready _ ready, filter_bindFails_bound all, onBinding_eq]
  rfl

/-- R190: where a lane fails, the word takes EXHAUST with the failing lanes. -/
theorem bindingWord_exhausts (ready : Ready { h := h } s g) (fails : (lanesRead { h := h } s g).filter (bindFails a ok) ≠ []) :
    bindingWord h a ok f s = .next (wordTrap (afterReads { h := h } s g) g 0x04 3 (BitVec.ofNat 64 a.val)
      (((lanesRead { h := h } s g).filter (bindFails a ok)).map (fun l => l.t.id)) (replaysOf (lanesRead { h := h } s g))) := by
  rw [bindingWord, actWord_ready _ ready]
  exact congrArg Host.Outcome.next (if_pos (by simpa using fails))

end

theorem bound_mono {ls : List Lane} {n : Nat} {p q : Binding → Prop} (all : Claim.bound ls n p) (le : ∀ b, p b → q b) : Claim.bound ls n q := by
  intro l hl
  obtain ⟨b, found, hb⟩ := all l hl
  exact ⟨b, found, le b hb⟩

theorem dropCancelsReads : Claim.DropCancelsReads := by
  unfold Claim.DropCancelsReads
  intro h a n s g ready all
  exact bindingWord_changes ready (bound_mono all (fun b hb => by simpa [BitVec.le_def] using hb))

theorem keepAddsReads : Claim.KeepAddsReads := by
  unfold Claim.KeepAddsReads
  intro h a n s g ready all
  exact bindingWord_changes ready (bound_mono all (fun b hb => by simpa using hb))

theorem freeReleases : Claim.FreeReleases := by
  unfold Claim.FreeReleases
  intro h a s g ready all
  exact bindingWord_changes ready (bound_mono all (fun b hb => by simpa using hb))

/-- R190 to R193: each of the three words is a `bindingWord`, which refuses the bindings on which the word takes EXHAUST. -/
theorem exec_of_exhausts {i : Instr} {h : Hd} {a : VName} {fails : Option Binding → Bool} (word : Claim.exhausts i = some (h, a, fails)) :
    ∃ ok f, (∀ s, exec i s = bindingWord h a ok f s) ∧ fails none = true ∧ ∀ b, fails (some b) = !ok b := by
  unfold Claim.exhausts at word
  split at word <;> cases word
  case h_1 n => exact ⟨_, _, fun s => rfl, rfl, fun b => by simp [bne, ← decide_not]⟩
  case h_2 n => exact ⟨_, _, fun s => rfl, rfl, fun b => by simp [bne, ← decide_not]⟩
  case h_3 => exact ⟨_, _, fun s => rfl, rfl, fun b => rfl⟩

end Sys2Proof.Machine

namespace Sys2Proof

/-! ## The limits of IMM16 -/

/-- R63: a word is ILLOP. -/
def Dec.Illop {α : Type} (m : Except DecodeError α) : Prop := ∃ k, m = .error (.illop k)

/-- R63: a check whose error is ILLOP: a word that fails it is ILLOP, and so is one that passes it and is ILLOP after it. -/
theorem Dec.Illop.check {α : Type} {c : Bool} {k : Nat} {f : Unit → Except DecodeError α} (rest : c = true → Dec.Illop (f ())) :
    Dec.Illop (Dec.need c (.illop k) >>= f) := by
  cases c with
  | false => exact ⟨k, rfl⟩
  | true => exact rest rfl

theorem Dec.Illop.formI {α : Type} {w : Fields} {f : Unit → Except DecodeError α} (rest : Dec.Illop (f ())) : Dec.Illop (Dec.formI w >>= f) := by
  rw [Dec.formI, bind_assoc]
  exact Dec.Illop.check (fun _ => Dec.Illop.check (fun _ => rest))

/-- R191: DROP admits IMM16 up to 14; the checks before it are ILLOP as well. -/
theorem drop_illop {w : Fields} (above : 14 < w.imm.toNat) : Dec.Illop (Dec.cel w 1) := by
  refine Dec.Illop.formI (Dec.Illop.check fun _ => Dec.Illop.check fun _ => Dec.Illop.check fun _ => Dec.Illop.check fun limit => ?_)
  exact absurd (of_decide_eq_true limit) (Nat.not_le.2 above)

/-- R192: KEEP admits IMM16 from 1 to 14. -/
theorem keep_illop {w : Fields} (outside : w.imm = 0#16 ∨ 14 < w.imm.toNat) : Dec.Illop (Dec.cel w 2) := by
  refine Dec.Illop.formI (Dec.Illop.check fun _ => Dec.Illop.check fun _ => Dec.Illop.check fun _ => Dec.Illop.check fun limit => ?_)
  obtain ⟨low, high⟩ : 1 ≤ w.imm.toNat ∧ w.imm.toNat ≤ 14 := by simpa using limit
  rcases outside with zero | above
  · rw [zero] at low
    exact absurd low (by decide)
  · exact absurd high (Nat.not_le.2 above)

theorem Fields.imm_unpack (x : W64) : (Fields.unpack x).imm = x.extractLsb' 0 16 := by
  unfold Fields.imm Fields.unpack
  apply BitVec.eq_of_getLsbD_eq
  intro j hj
  simp [hj]

open Machine

theorem bindingWordsExhaust : Claim.BindingWordsExhaust := by
  unfold Claim.BindingWordsExhaust
  refine ⟨fun i h a fails bad s g word ready hbad some => ?_, fun x outside => ?_⟩
  · obtain ⟨ok, f, runs, unbound, refused⟩ := exec_of_exhausts word
    rw [← bindFails_eq unbound refused] at hbad
    subst hbad
    exact (runs s).trans (bindingWord_exhausts ready some)
  · rw [← Fields.imm_unpack] at outside
    rcases outside with ⟨opc, above⟩ | ⟨opc, outside⟩
    · rw [decode, cel_fields 1 (by decide) (Fields.unpack x) opc]
      exact drop_illop above
    · rw [decode, cel_fields 2 (by decide) (Fields.unpack x) opc]
      exact keep_illop outside

/-- Settles O21: the three words where every lane admits the change, the lanes that fail, and the limits of IMM16. -/
theorem bindingCounts : Obligations.BindingCounts := ⟨dropCancelsReads, keepAddsReads, freeReleases, bindingWordsExhaust⟩

namespace Machine

/-! ## The records at reset -/

theorem reset_core (c : Nat) : State.reset.core c = Core.reset :=
  List.getElem?_getD_replicate_default_eq Core.reset Config.cores c

theorem reset_ctx (c : Nat) : State.reset.ctx c = Context.reset :=
  List.getElem?_getD_replicate_default_eq Context.reset Config.contexts c

theorem reset_frw (n : Nat) : State.reset.frw.getD n Frw.reset = Frw.reset :=
  List.getElem?_getD_replicate_default_eq Frw.reset 16 n

theorem reset_power {d : Nat} (die : d < 8) : State.reset.power[d]? = some { req := 0, st := 0, goal := none, next := none } :=
  List.getElem?_replicate_of_lt die

/-- Settles O51: every window, core and context stands at its record's reset value, and each record's fields are read off. -/
theorem resetValues : Obligations.ResetValues := by
  unfold Obligations.ResetValues
  refine ⟨rfl, rfl, rfl, rfl, fun n _ => ?windows, fun d die => ?power, fun c => ?cores, fun c _ => ?contexts⟩
  case windows =>
    rw [reset_frw]
    exact ⟨rfl, rfl, rfl, rfl, rfl, rfl, rfl⟩
  case power => exact ⟨_, reset_power die, rfl, rfl⟩
  case cores =>
    rw [reset_core]
    exact ⟨rfl, rfl, rfl, rfl⟩
  case contexts => exact ⟨reset_ctx c, rfl, rfl, rfl, rfl, rfl, rfl, rfl, rfl, rfl, rfl, rfl, rfl, rfl⟩

end Machine

end Sys2Proof
end

section
/-! SUPPORT. The words of the INT, BIT, PRD, FLT, CVT and XLN groups of a fixed latency (R69): each is a `fixedWord` of its operands and results, and such a word
issues; V2P, which binds the predicates of each lane by itself (R209). -/

namespace Sys2Proof.Machine

/-- Settles O1: each word of the group is a `fixedWord` of the group's latency, and such a word issues. -/
theorem crossLaneWords : Obligations.CrossLaneWords :=
  fun _ _ r s _ word ready => (exec_of_crossWord word s).trans (fixedWord_ready Config.latX r ready)

theorem integerWords : Claim.IntegerWords :=
  fun _ _ r s _ word ready => (exec_of_intWord word s).trans (fixedWord_ready Config.latA r ready)

theorem bitWords : Claim.BitWords :=
  fun _ _ r s _ word ready => (exec_of_bitWord word s).trans (fixedWord_ready Config.latA r ready)

theorem predicateWords : Claim.PredicateWords :=
  fun _ _ r s _ word ready => (exec_of_predWord word s).trans (fixedWord_ready Config.latA r ready)

theorem floatWords : Claim.FloatWords :=
  fun _ _ r s _ word ready => (exec_of_floatWord word s).trans (fixedWord_ready Config.latA r ready)

theorem conversionWords : Claim.ConversionWords :=
  fun _ _ r s _ word ready => (exec_of_convWord word s).trans (fixedWord_ready Config.latA r ready)

/-- R209: what V2P does for the lanes that it has read: one binding of a fixed latency for each lane. -/
def v2pAct (h : Hd) (g : Grp) (ls : List Lane) (s : State) : State :=
  finishWord (ls.foldl (fun s l =>
    let ps := (List.range 7).filter (fun i => (l.v 1).getLsbD i)
    bindFixed s g { Dest.none with preds := ps } Config.latA [(l, { vals := [], preds := ps.map (fun i => (l.v 0).getLsbD i), cvt := false })]) s) g h

theorem v2pWritesPredicates : Claim.V2pWritesPredicates := by
  unfold Claim.V2pWritesPredicates
  intro h a m w s g operands ready
  subst operands
  cases m with
  | reg r => exact actWord_ready (v2pAct h) ready
  | imm v => exact actWord_ready (v2pAct h) ready

/-- Settles O20: the words of one binding issue as such, and V2P acts lane by lane. -/
theorem predicateFloatAndConversionWords : Obligations.PredicateFloatAndConversionWords :=
  ⟨predicateWords, floatWords, conversionWords, v2pWritesPredicates⟩

end Sys2Proof.Machine
end

section
/-! SUPPORT. The results of the INT group (R201 to R204) as exact integers modulo 2^w (R29): the elements of a word-wide operation, the results that the type holds
exactly, the words of one value with their carries, and the sums over elements. -/

namespace Sys2Proof.Machine

/-! ## Operations on every element (R201) -/

theorem ElemTy.inIB_of_inI {t : ElemTy} (type : t.inI = true) : t.inIB = true := by simp [ElemTy.inIB, type]

/-- The type has a pattern that stands for the integer. -/
def ElemTy.Represents (t : ElemTy) (z : Int) : Prop := asInt (ElemTy.signed t) t.bits (wrapNat t.bits z) = z

theorem ElemTy.Represents.min {t : ElemTy} {x y : Int} (hx : ElemTy.Represents t x) (hy : ElemTy.Represents t y) : ElemTy.Represents t (min x y) := by
  rcases min_choice x y with h | h <;> rw [h] <;> assumption

theorem ElemTy.Represents.max {t : ElemTy} {x y : Int} (hx : ElemTy.Represents t x) (hy : ElemTy.Represents t y) : ElemTy.Represents t (max x y) := by
  rcases max_choice x y with h | h <;> rw [h] <;> assumption

section
variable {t : ElemTy} {i : Nat} (type : t.inI = true)
include type

theorem ElemTy.represents_intElem (x : W64) : ElemTy.Represents t (intElem t i x) := by
  have width := (inI_dims (ElemTy.inIB_of_inI type)).1
  exact asInt_wrap _ _ _ width (intElem_range t i x width)

variable (elem : i < ElemTy.elems t)
include elem

/-- Each of `map1`, `map2` and `map3` packs the patterns of its integer results. -/
theorem elemAt_packed (z : Nat → Int) :
    elemAt t.bits i (packElems t.bits ((List.range (ElemTy.elems t)).map (fun i => wrapNat t.bits (z i)))) = wrapNat t.bits (z i) :=
  elem_map t i _ (ElemTy.inIB_of_inI type) elem (fun _ => wrapNat_lt ..)

theorem elemAt_map1 (f : Int → Int) (a : W64) : (elemAt t.bits i (map1 t f a) : Int) = f (intElem t i a) % 2 ^ t.bits := by
  rw [map1, elemAt_packed type elem (fun i => f (intElem t i a)), wrapNat_cast]

theorem elemAt_map2 (f : Int → Int → Int) (a b : W64) :
    (elemAt t.bits i (map2 t f a b) : Int) = f (intElem t i a) (intElem t i b) % 2 ^ t.bits := by
  rw [map2, elemAt_packed type elem (fun i => f (intElem t i a) (intElem t i b)), wrapNat_cast]

theorem elemAt_map3 (f : Int → Int → Int → Int) (a b c : W64) :
    (elemAt t.bits i (map3 t f a b c) : Int) = f (intElem t i a) (intElem t i b) (intElem t i c) % 2 ^ t.bits := by
  rw [map3, elemAt_packed type elem (fun i => f (intElem t i a) (intElem t i b) (intElem t i c)), wrapNat_cast]

/-- A result that the type represents is the element itself. -/
theorem intElem_map2 {f : Int → Int → Int} {a b : W64} (held : ElemTy.Represents t (f (intElem t i a) (intElem t i b))) :
    intElem t i (map2 t f a b) = f (intElem t i a) (intElem t i b) := by
  rw [intElem, map2, elemAt_packed type elem (fun i => f (intElem t i a) (intElem t i b))]
  exact held

theorem intElem_map3 {f : Int → Int → Int → Int} {a b c : W64} (held : ElemTy.Represents t (f (intElem t i a) (intElem t i b) (intElem t i c))) :
    intElem t i (map3 t f a b c) = f (intElem t i a) (intElem t i b) (intElem t i c) := by
  rw [intElem, map3, elemAt_packed type elem (fun i => f (intElem t i a) (intElem t i b) (intElem t i c))]
  exact held

end

/-! ## The words of one value (R201, R202) -/

/-- R201: IMADW extends its first cells by TY. -/
theorem imadw_toNat (t : ElemTy) (a b c : W64) :
    ((imadw t a b c).toNat : Int) = ((if ElemTy.signed t then (a.extractLsb' 0 32).toInt else (a.extractLsb' 0 32).toNat)
      * (if ElemTy.signed t then (b.extractLsb' 0 32).toInt else (b.extractLsb' 0 32).toNat) + (c.toNat : Int)) % 2 ^ 64 := by
  rw [← asInt_low, ← asInt_low]
  exact toNat_wrap 64 _ (Nat.le_refl 64)

theorem mod_add_carry {m s : Nat} (two : s < 2 * m) : s % m + m * (decide (m ≤ s)).toNat = s := by
  by_cases carry : m ≤ s
  · rw [Nat.mod_eq_sub_mod carry, Nat.mod_eq_of_lt (by omega)]
    simp [carry]
  · rw [Nat.mod_eq_of_lt (by omega)]
    simp [carry]

theorem emod_sub_borrow {m d : Int} (low : -m ≤ d) (high : d < m) : d % m - m * (decide (d < 0)).toNat = d := by
  by_cases borrow : d < 0
  · rw [← Int.add_emod_right, Int.emod_eq_of_lt (by omega) (by omega)]
    simp [borrow]
  · rw [Int.emod_eq_of_lt (by omega) high]
    simp [borrow]

theorem ElemTy.bits_le (t : ElemTy) : t.bits ≤ 64 := by cases t <;> decide

/-- A number of at most 64 bits fits a word. -/
theorem toNat_ofNat_of_lt {w n : Nat} (width : w ≤ 64) (lt : n < 2 ^ w) : (BitVec.ofNat 64 n).toNat = n :=
  Nat.mod_eq_of_lt (Nat.lt_of_lt_of_le lt (Nat.pow_le_pow_right (by decide) width))

/-- R202: the sum, with the carry-out as its bit w. -/
theorem iaddc_sum (t : ElemTy) (a b : W64) (p : Bool) :
    (iaddc t a b p).1.toNat + 2 ^ t.bits * (iaddc t a b p).2.toNat = elemAt t.bits 0 a + elemAt t.bits 0 b + p.toNat
    ∧ (iaddc t a b p).1.toNat < 2 ^ t.bits := by
  have ha := elemAt_lt t.bits 0 a
  have hb := elemAt_lt t.bits 0 b
  have hp := p.toNat_le
  have lt : (elemAt t.bits 0 a + elemAt t.bits 0 b + p.toNat) % 2 ^ t.bits < 2 ^ t.bits := Nat.mod_lt _ (Nat.two_pow_pos _)
  simp only [iaddc, toNat_ofNat_of_lt (ElemTy.bits_le t) lt]
  exact ⟨mod_add_carry (by omega), lt⟩

/-- R202: the difference, with the borrow-out of weight −2^w. -/
theorem isubb_difference (t : ElemTy) (a b : W64) (p : Bool) :
    ((isubb t a b p).1.toNat : Int) - 2 ^ t.bits * (isubb t a b p).2.toNat = (elemAt t.bits 0 a : Int) - elemAt t.bits 0 b - p.toNat
    ∧ (isubb t a b p).1.toNat < 2 ^ t.bits := by
  have ha : (elemAt t.bits 0 a : Int) < 2 ^ t.bits := by exact_mod_cast elemAt_lt t.bits 0 a
  have hb : (elemAt t.bits 0 b : Int) < 2 ^ t.bits := by exact_mod_cast elemAt_lt t.bits 0 b
  have hp := p.toNat_le
  simp only [isubb, toNat_ofNat_of_lt (ElemTy.bits_le t) (wrapNat_lt ..), wrapNat_cast]
  exact ⟨emod_sub_borrow (by omega) (by omega), wrapNat_lt ..⟩

/-! ## Sums over the elements (R201, R203) -/

theorem isad_toNat (t : ElemTy) (a b c : W64) :
    ((isad t a b c).toNat : Int) = ((elemAt 32 0 c : Int) + ((List.range (ElemTy.elems t)).map (fun i => ((intElem t i a - intElem t i b).natAbs : Int))).sum) % 2 ^ 32 := by
  simp only [isad]
  rw [sum_foldl, Nat.zero_add, toNat_ofNat_of_lt (w := 32) (by decide) (Nat.mod_lt _ (by decide))]
  push_cast
  simp [Function.comp_def]

/-- R203: a dot product accumulated onto a cell; the sign of the cell is lost modulo 2^32. -/
theorem accumulate_toNat (x : Nat) (z : Int) : ((BitVec.ofNat 64 (wrapNat 32 (asInt true 32 x + z))).toNat : Int) = ((x : Int) + z) % 2 ^ 32 := by
  rw [toNat_wrap 32 _ (by decide), asInt_mod]

theorem idot4_toNat (sa sb : Bool) (a b c : W64) :
    ((idot4 sa sb a b c).toNat : Int) = ((elemAt 32 0 c : Int) + ((List.range 4).map (fun i => asInt sa 8 (elemAt 8 i a) * asInt sb 8 (elemAt 8 i b))).sum) % 2 ^ 32 := by
  rw [idot4, sum_foldlZ, zero_add, accumulate_toNat]

/-- R203, R30: a signed nibble is an i4s code, in which 0x8 is 0. -/
theorem nib_eq (s : Bool) (v : Nat) : nib s v = if s && v == 8 then 0 else asInt s 4 v := by
  cases s <;> simp [nib, i4sVal, asInt]

theorem idot8_toNat (sa sb : Bool) (a b c : W64) :
    ((idot8 sa sb a b c).1.toNat : Int) = ((elemAt 32 0 c : Int) + ((List.range 8).map (fun i =>
        (if sa && elemAt 4 i a == 8 then 0 else asInt sa 4 (elemAt 4 i a)) * (if sb && elemAt 4 i b == 8 then 0 else asInt sb 4 (elemAt 4 i b)))).sum) % 2 ^ 32 := by
  simp only [idot8, ← nib_eq]
  rw [sum_foldlZ, zero_add, accumulate_toNat]

theorem idot8_mark (sa sb : Bool) (a b c : W64) :
    (idot8 sa sb a b c).2 = true ↔ ∃ i < 8, (sa = true ∧ elemAt 4 i a = 8) ∨ (sb = true ∧ elemAt 4 i b = 8) := by
  simp [idot8]

/-! ## The statement -/

theorem integerResults : Claim.IntegerResults := by
  unfold Claim.IntegerResults
  refine ⟨fun t a b c i type elem => ?elements, fun t a b c _ => imadw_toNat t a b c, fun t a b p _ => ?carries, fun t a b c _ => isad_toNat t a b c,
    fun sa sb a b c => ⟨idot4_toNat sa sb a b c, idot8_toNat sa sb a b c, idot8_mark sa sb a b c⟩⟩
  case elements =>
    have ha := ElemTy.represents_intElem (i := i) type a
    have hb := ElemTy.represents_intElem (i := i) type b
    have hc := ElemTy.represents_intElem (i := i) type c
    exact ⟨elemAt_map2 type elem _ a b, elemAt_map2 type elem _ a b, elemAt_map2 type elem _ a b, elemAt_map2 type elem _ a b,
      elemAt_map3 type elem _ a b c, elemAt_map1 type elem _ a, elemAt_map1 type elem _ a,
      intElem_map2 type elem (ha.min hb), intElem_map2 type elem (ha.max hb), intElem_map3 type elem ((ha.max hb).min hc)⟩
  case carries =>
    obtain ⟨sum, sumLt⟩ := iaddc_sum t a b p
    obtain ⟨difference, differenceLt⟩ := isubb_difference t a b p
    exact ⟨sum, sumLt, difference, differenceLt⟩

/-- Settles O18: each word is a `fixedWord`, and its elements are the exact ones modulo 2^w. -/
theorem integerGroup : Obligations.IntegerGroup := ⟨integerWords, integerResults⟩

end Sys2Proof.Machine
end

section
/-! SUPPORT. The results of the BIT group bit by bit (R206): LOP3 as the entry of its table that the three bits name, the shifts of each element, the funnel shift,
counts and reversal over the list of bits, bit fields, and PERM. -/

namespace Sys2Proof.Machine

/-! ## LOP3 -/

/-- Entry `i` of LOP3's table: the positions whose bits of a, b and c are the bits of `i`, where the table has a 1. -/
def lopEntry (lut : BitVec 8) (a b c : W64) (i : Nat) : W64 :=
  (if i &&& 4 != 0 then a else ~~~ a) &&& (if i &&& 2 != 0 then b else ~~~ b) &&& (if i &&& 1 != 0 then c else ~~~ c)
    &&& (if lut.getLsbD i then BitVec.allOnes 64 else 0#64)

theorem lop3_eq_entries (t : ElemTy) (lut : BitVec 8) (a b c : W64) :
    lop3 t lut a b c = clip t (lopEntry lut a b c 0 ||| lopEntry lut a b c 1 ||| lopEntry lut a b c 2 ||| lopEntry lut a b c 3
      ||| lopEntry lut a b c 4 ||| lopEntry lut a b c 5 ||| lopEntry lut a b c 6 ||| lopEntry lut a b c 7) := rfl

theorem getLsbD_lopEntry (lut : BitVec 8) (a b c : W64) (i : Nat) {j : Nat} (hj : j < 64) :
    (lopEntry lut a b c i).getLsbD j = ((a.getLsbD j == (i &&& 4 != 0)) && (b.getLsbD j == (i &&& 2 != 0)) && (c.getLsbD j == (i &&& 1 != 0)) && lut.getLsbD i) := by
  have chosen (q : Bool) (x : W64) : (if q then x else ~~~ x).getLsbD j = (x.getLsbD j == q) := by cases q <;> simp [hj]
  have masked (q : Bool) : (if q then BitVec.allOnes 64 else 0#64).getLsbD j = q := by cases q <;> simp [hj, -BitVec.reduceAllOnes]
  simp only [lopEntry, BitVec.getLsbD_and, chosen, masked]

theorem lop3_getLsbD {t : ElemTy} (type : t.inB = true) (lut : BitVec 8) (a b c : W64) (j : Nat) :
    (lop3 t lut a b c).getLsbD j = (decide (j < t.bits) && lut.getLsbD (4 * (a.getLsbD j).toNat + 2 * (b.getLsbD j).toNat + (c.getLsbD j).toNat)) := by
  rw [lop3_eq_entries, clip_bit _ _ _ type]
  by_cases hj : j < t.bits
  · simp only [BitVec.getLsbD_or, getLsbD_lopEntry lut a b c _ (Nat.lt_of_lt_of_le hj (ElemTy.bits_le t))]
    -- one row of the table for each value of the three bits
    cases a.getLsbD j <;> cases b.getLsbD j <;> cases c.getLsbD j <;> simp
  · simp [hj]

/-! ## Shifts of every element: the model caps an amount at the width, beyond which no bit of the operand is left -/

section
variable {t : ElemTy} {i : Nat} (type : t.inIB = true) (elem : i < ElemTy.elems t)
include type elem

/-- Element `i` of a shift, from the elements of the operand and the amount. -/
theorem elemAt_shiftMap (f : Nat → Nat → Nat) (a s : W64) :
    elemAt t.bits i (shiftMap t f a s) = f (elemAt t.bits i a) (elemAt t.bits i s) % 2 ^ t.bits := by
  obtain ⟨width, inside⟩ := inI_dims type
  rw [shiftMap, elemAt_pack _ _ _ width (inside i elem)]
  simp [List.getD_eq_getElem?_getD, elem]

theorem shl_testBit (a s : W64) {j : Nat} (hj : j < t.bits) :
    (elemAt t.bits i (shl t a s)).testBit j = (decide (elemAt t.bits i s ≤ j) && (elemAt t.bits i a).testBit (j - elemAt t.bits i s)) := by
  rw [shl, elemAt_shiftMap type elem, Nat.testBit_mod_two_pow, Nat.testBit_mul_two_pow]
  by_cases far : t.bits ≤ elemAt t.bits i s
  · simp [Nat.min_eq_right far, hj, Nat.not_le.2 hj, Nat.not_le.2 (Nat.lt_of_lt_of_le hj far)]
  · simp [Nat.min_eq_left (Nat.le_of_not_le far), hj]

theorem shr_testBit (a s : W64) {j : Nat} (hj : j < t.bits) :
    (elemAt t.bits i (shr t a s)).testBit j = (elemAt t.bits i a).testBit (j + elemAt t.bits i s) := by
  rw [shr, elemAt_shiftMap type elem, Nat.testBit_mod_two_pow, Nat.testBit_div_two_pow]
  by_cases far : t.bits ≤ elemAt t.bits i s
  · rw [Nat.min_eq_right far, elemAt_bit, elemAt_bit]
    simp [show ¬ j + t.bits < t.bits by omega, show ¬ j + elemAt t.bits i s < t.bits by omega]
  · simp [Nat.min_eq_left (Nat.le_of_not_le far), hj]

end

/-- The sign bit of a w-bit pattern. -/
theorem sign_testBit {w v : Nat} (width : 0 < w) (pattern : v < 2 ^ w) : v.testBit (w - 1) = decide (2 ^ (w - 1) ≤ v) := by
  have msb := BitVec.msb_eq_decide (BitVec.ofNat w v)
  rwa [BitVec.msb_eq_getLsbD_last, BitVec.getLsbD_ofNat, BitVec.toNat_ofNat, Nat.mod_eq_of_lt pattern, decide_eq_true (Nat.sub_lt width Nat.one_pos), Bool.true_and] at msb

theorem wrapNat_natCast (w n : Nat) : wrapNat w n = n % 2 ^ w := by
  have cast := wrapNat_cast w n
  exact_mod_cast cast

theorem wrapNat_add_two_pow (w : Nat) (z : Int) : wrapNat w (z + 2 ^ w) = wrapNat w z := by
  rw [wrapNat, Int.add_emod_right, wrapNat]

/-- A negative number shifted right by `m`: ones above the bits of the pattern. -/
theorem wrapNat_negative_div (v m k : Nat) :
    wrapNat (m + k) (((v : Int) - 2 ^ (m + k)) / 2 ^ m) = (2 ^ k * (2 ^ m - 1) + v / 2 ^ m) % 2 ^ (m + k) := by
  have value : ((v : Int) - 2 ^ (m + k)) / 2 ^ m + 2 ^ (m + k) = (2 ^ k * (2 ^ m - 1) + v / 2 ^ m : Nat) := by
    rw [pow_add, Int.sub_mul_ediv_left _ _ (by positivity)]
    push_cast [Nat.one_le_two_pow]
    ring
  rw [← wrapNat_add_two_pow, value, wrapNat_natCast]

/-- The bits of an arithmetic shift to the right of a w-bit pattern: the pattern's bits, and its sign above them. -/
theorem wrapNat_asInt_div_testBit {signed : Bool} {w v m j : Nat} (pattern : v < 2 ^ w) (hm : m ≤ w) (hj : j < w) :
    (wrapNat w (asInt signed w v / 2 ^ m)).testBit j = if j + m < w then v.testBit (j + m) else signed && v.testBit (w - 1) := by
  obtain ⟨k, rfl⟩ := Nat.exists_eq_add_of_le hm
  rw [sign_testBit (by omega) pattern, asInt]
  by_cases negative : (signed && decide (2 ^ (m + k - 1) ≤ v)) = true
  · rw [if_pos negative, wrapNat_negative_div, negative, Nat.testBit_mod_two_pow, decide_eq_true hj, Bool.true_and,
      Nat.testBit_two_pow_mul_add _ (Nat.div_lt_of_lt_mul (by rwa [← Nat.pow_add])), Nat.testBit_div_two_pow, Nat.testBit_two_pow_sub_one]
    by_cases low : j < k
    · rw [if_pos low, if_pos (by omega)]
    · rw [if_neg low, if_neg (by omega), decide_eq_true (by omega)]
  · have shifted : wrapNat (m + k) ((v : Int) / 2 ^ m) = v / 2 ^ m % 2 ^ (m + k) := by
      exact_mod_cast wrapNat_natCast (m + k) (v / 2 ^ m)
    rw [if_neg negative, shifted, Bool.eq_false_iff.2 negative, Nat.testBit_mod_two_pow, decide_eq_true hj, Bool.true_and, Nat.testBit_div_two_pow]
    split
    · rfl
    · exact Nat.testBit_lt_two_pow (Nat.lt_of_lt_of_le pattern (Nat.pow_le_pow_right (by decide) (by omega)))

/-- The number of a rotation: its high part moves to the low end. -/
theorem rotate_testBit {w v k j : Nat} (pattern : v < 2 ^ w) (hk : k < w) (hj : j < w) :
    (v * 2 ^ k + v / 2 ^ (w - k)).testBit ((j + k) % w) = v.testBit j := by
  have low : v / 2 ^ (w - k) < 2 ^ k := by
    rw [Nat.div_lt_iff_lt_mul (Nat.two_pow_pos _), ← Nat.pow_add]
    simpa [Nat.add_sub_cancel' (Nat.le_of_lt hk)] using pattern
  rw [Nat.mul_comm, Nat.testBit_two_pow_mul_add _ low]
  by_cases round : j + k < w
  · rw [Nat.mod_eq_of_lt round, if_neg (by omega), Nat.add_sub_cancel]
  · have turned : (j + k) % w = j + k - w := by rw [Nat.mod_eq_sub_mod (by omega), Nat.mod_eq_of_lt (by omega)]
    rw [turned, if_pos (by omega), Nat.testBit_div_two_pow]
    congr 1
    omega

section
variable {t : ElemTy} {i : Nat} (type : t.inIB = true) (elem : i < ElemTy.elems t)
include type elem

theorem sar_testBit (a s : W64) {j : Nat} (hj : j < t.bits) :
    (elemAt t.bits i (sar t a s)).testBit j = if j + elemAt t.bits i s < t.bits then (elemAt t.bits i a).testBit (j + elemAt t.bits i s)
      else (ElemTy.signed t || t == .b32) && (elemAt t.bits i a).testBit (t.bits - 1) := by
  rw [sar, elemAt_shiftMap type elem, Nat.mod_eq_of_lt (wrapNat_lt ..), wrapNat_asInt_div_testBit (elemAt_lt ..) (Nat.min_le_right ..) hj, Bool.or_comm]
  by_cases far : t.bits ≤ elemAt t.bits i s
  · rw [Nat.min_eq_right far, if_neg (by omega), if_neg (by omega)]
  · rw [Nat.min_eq_left (Nat.le_of_not_le far)]

theorem rotl_testBit (a s : W64) {j : Nat} (hj : j < t.bits) :
    (elemAt t.bits i (rotl t a s)).testBit ((j + elemAt t.bits i s) % t.bits) = (elemAt t.bits i a).testBit j := by
  have width : 0 < t.bits := (inI_dims type).1
  rw [rotl, elemAt_shiftMap type elem, Nat.testBit_mod_two_pow, decide_eq_true (Nat.mod_lt _ width), Bool.true_and, ← Nat.add_mod_mod,
    rotate_testBit (elemAt_lt ..) (Nat.mod_lt _ width) hj]

end

/-! ## The funnel shift -/

/-- The 64 bits of two cells as one number. -/
theorem cells_toNat (hi lo : W64) : elemAt 32 0 hi * 2 ^ 32 + elemAt 32 0 lo = (hi.extractLsb' 0 32 ++ lo.extractLsb' 0 32).toNat := by
  rw [elemAt_extract, elemAt_extract, BitVec.toNat_append, ← Nat.shiftLeft_add_eq_or_of_lt (BitVec.isLt _), Nat.shiftLeft_eq]

theorem getLsbD_ofNat_mod {w j : Nat} (n : Nat) (width : w ≤ 64) (hj : j < w) : (BitVec.ofNat 64 (n % 2 ^ w)).getLsbD j = n.testBit j := by
  rw [BitVec.getLsbD_ofNat, Nat.testBit_mod_two_pow, decide_eq_true (Nat.lt_of_lt_of_le hj width), decide_eq_true hj, Bool.true_and, Bool.true_and]

theorem fshf_getLsbD (clamp : Bool) (hi lo amt : W64) {j n : Nat} {x : W64} (cells : x = hi.extractLsb' 0 32 ++ lo.extractLsb' 0 32)
    (amount : n = (if clamp then min (elemAt 32 0 amt) 32 else elemAt 32 0 amt % 32)) (hj : j < 32) :
    (fshf clamp false hi lo amt).getLsbD j = (x <<< n).getLsbD (32 + j) ∧ (fshf clamp true hi lo amt).getLsbD j = (x >>> n).getLsbD j := by
  simp only [fshf, cells_toNat, ← cells, ← amount, Bool.false_eq_true, if_false, if_true, getLsbD_ofNat_mod _ (show 32 ≤ 64 by decide) hj,
    Nat.testBit_div_two_pow, Nat.testBit_mul_two_pow, BitVec.testBit_toNat, BitVec.getLsbD_shiftLeft, BitVec.getLsbD_ushiftRight,
    Nat.add_comm j, ← decide_not, Nat.not_lt, show 32 + j < 64 by omega, decide_true, Bool.true_and, and_self]

/-! ## Counts and reversal -/

theorem bitsOf_reverse (w : Nat) (a : W64) : (bitsOf w a).reverse = (List.range w).map (fun j => a.getLsbD (w - 1 - j)) := bits_reverse w _

/-- A count of a type's bits is at most 64 and fits a cell. -/
theorem count_toNat {t : ElemTy} {n : Nat} (atMost : n ≤ t.bits) : (BitVec.ofNat 64 n).toNat = n :=
  toNat_ofNat_of_lt (w := 7) (by decide) (Nat.lt_of_le_of_lt (Nat.le_trans atMost (ElemTy.bits_le t)) (by decide))

theorem popc_toNat (t : ElemTy) (a : W64) : (popc t a).toNat = ((List.range t.bits).filter (fun j => a.getLsbD j)).length := by
  have number : popc t a = BitVec.ofNat 64 ((List.range t.bits).filter (fun j => a.getLsbD j)).length := by
    rw [popc, bitsOf, List.filter_map, List.length_map]
    rfl
  have atMost : ((List.range t.bits).filter (fun j => a.getLsbD j)).length ≤ t.bits := by
    simpa using List.length_filter_le (fun j => a.getLsbD j) (List.range t.bits)
  rw [number, count_toNat atMost]

/-- The number of leading entries of a list of bits that are 0. -/
theorem zeros_toNat (f : Nat → Bool) (t : ElemTy) :
    ∃ k ≤ t.bits, (BitVec.ofNat 64 (((List.range t.bits).map f).takeWhile (fun b => !b)).length).toNat = k ∧ (∀ j < k, f j = false) ∧ (k < t.bits → f k = true) := by
  obtain ⟨k, atMost, count, zeros, one⟩ := takeWhile_spec f t.bits
  refine ⟨k, atMost, ?_, zeros, one⟩
  rw [count, count_toNat atMost]

theorem ctz_toNat (t : ElemTy) (a : W64) :
    ∃ k ≤ t.bits, (ctz t a).toNat = k ∧ (∀ j < k, a.getLsbD j = false) ∧ (k < t.bits → a.getLsbD k = true) := zeros_toNat _ t

theorem clz_toNat (t : ElemTy) (a : W64) :
    ∃ k ≤ t.bits, (clz t a).toNat = k ∧ (∀ j < k, a.getLsbD (t.bits - 1 - j) = false) ∧ (k < t.bits → a.getLsbD (t.bits - 1 - k) = true) := by
  rw [clz, bitsOf_reverse]
  exact zeros_toNat _ t

/-- A word of given bits. -/
theorem getLsbD_ofBits_range {w : Nat} (width : w ≤ 64) (f : Nat → Bool) (j : Nat) : (ofBits ((List.range w).map f)).getLsbD j = (decide (j < w) && f j) := by
  rw [ofBits, BitVec.getLsbD_ofNat, ofBits_nat, List.getD_eq_getElem?_getD]
  by_cases hj : j < w
  · simp [hj, Nat.lt_of_lt_of_le hj width]
  · simp [hj]

theorem brev_getLsbD (t : ElemTy) (a : W64) (j : Nat) : (brev t a).getLsbD j = (decide (j < t.bits) && a.getLsbD (t.bits - 1 - j)) := by
  rw [brev, bitsOf_reverse, getLsbD_ofBits_range (ElemTy.bits_le t)]

/-! ## Bit fields -/

theorem bfx_getLsbD (t : ElemTy) (a pl : W64) {j pos len : Nat} (hpos : pos = (pl.extractLsb' 0 8).toNat) (hlen : len = (pl.extractLsb' 8 8).toNat) (hj : j < t.bits) :
    (bfx t a pl).getLsbD j = (if j < len then (if pos + j < t.bits then a.getLsbD (pos + j) else ElemTy.signed t && a.getLsbD (t.bits - 1))
      else ElemTy.signed t && decide (0 < len) && (bfx t a pl).getLsbD (j - 1)) := by
  have position : elemAt 8 0 pl = pos := (elemAt_extract 8 0 pl).trans hpos.symm
  have length : elemAt 8 1 pl = len := (elemAt_extract 8 1 pl).trans hlen.symm
  simp only [bfx, position, length, getLsbD_ofBits_range (ElemTy.bits_le t), hj, decide_true, Bool.true_and, show j - 1 < t.bits by omega]
  by_cases field : j < len
  · simp only [if_pos field]
  · simp only [if_neg field]
    by_cases edge : j - 1 < len
    · rw [if_pos edge, show pos + len - 1 = pos + (j - 1) by omega]
    · rw [if_neg edge]
      cases ElemTy.signed t <;> simp

theorem bfi_getLsbD (t : ElemTy) (a pl c : W64) {j pos len : Nat} (hpos : pos = (pl.extractLsb' 0 8).toNat) (hlen : len = (pl.extractLsb' 8 8).toNat) (hj : j < t.bits) :
    (bfi t a pl c).getLsbD j = (if pos ≤ j ∧ j < pos + len then c.getLsbD (j - pos) else a.getLsbD j) := by
  have position : elemAt 8 0 pl = pos := (elemAt_extract 8 0 pl).trans hpos.symm
  have length : elemAt 8 1 pl = len := (elemAt_extract 8 1 pl).trans hlen.symm
  simp only [bfi, position, length, getLsbD_ofBits_range (ElemTy.bits_le t), hj, decide_true, Bool.true_and, Bool.and_eq_true, decide_eq_true_eq]

/-! ## PERM -/

/-- Byte `k` of the two cells of PERM. -/
def permByte (a b : W64) (k : Nat) : Nat := if k < 4 then elemAt 8 k a else elemAt 8 (k - 4) b

theorem elemAt_perm (a b c : W64) {i : Nat} (hi : i < 4) :
    elemAt 8 i (perm a b c) = (if 8 ≤ elemAt 4 i c then (if 128 ≤ permByte a b (elemAt 4 i c % 8) then 255 else 0) else permByte a b (elemAt 4 i c % 8)) % 2 ^ 8 := by
  rw [perm, elemAt_pack _ _ _ (by decide) (by omega), List.getD_eq_getElem?_getD, List.getElem?_map, List.getElem?_range hi]
  rfl

theorem permByte_lt (a b : W64) (k : Nat) : permByte a b k < 2 ^ 8 := by
  unfold permByte
  split <;> exact elemAt_lt ..

theorem permByte_testBit (a b : W64) {k j : Nat} (hk : k < 8) (hj : j < 8) :
    (permByte a b k).testBit j = (b.extractLsb' 0 32 ++ a.extractLsb' 0 32).getLsbD (8 * k + j) := by
  rw [permByte, BitVec.getLsbD_append]
  by_cases low : k < 4
  · rw [if_pos low, if_pos (by omega), elemAt_bit, BitVec.getLsbD_extractLsb', decide_eq_true hj, decide_eq_true (by omega), Nat.zero_add]
  · rw [if_neg low, if_neg (by omega), elemAt_bit, BitVec.getLsbD_extractLsb', decide_eq_true hj, decide_eq_true (by omega), Nat.zero_add]
    congr 2
    omega

theorem perm_getLsbD (a b c : W64) {i k q : Nat} {x : W64} (cells : x = b.extractLsb' 0 32 ++ a.extractLsb' 0 32) (hi : i < 4) (hk : k < 8)
    (selector : q = (c.extractLsb' (4 * i) 4).toNat) : (perm a b c).getLsbD (8 * i + k) = (if q < 8 then x.getLsbD (8 * q + k) else x.getLsbD (8 * (q - 8) + 7)) := by
  have nibble : elemAt 4 i c = q := (elemAt_extract 4 i c).trans selector.symm
  have below : q < 2 ^ 4 := nibble ▸ elemAt_lt 4 i c
  have bit : (perm a b c).getLsbD (8 * i + k) = (elemAt 8 i (perm a b c)).testBit k := by rw [elemAt_bit, decide_eq_true hk, Bool.true_and]
  rw [bit, elemAt_perm a b c hi, nibble, Nat.testBit_mod_two_pow, decide_eq_true hk, Bool.true_and, cells]
  by_cases plain : q < 8
  · rw [if_neg (by omega), if_pos plain, Nat.mod_eq_of_lt plain, permByte_testBit a b plain hk]
  · have sign : (permByte a b (q - 8)).testBit 7 = decide (128 ≤ permByte a b (q - 8)) := sign_testBit (w := 8) (by decide) (permByte_lt a b (q - 8))
    rw [if_pos (by omega), if_neg plain, show q % 8 = q - 8 by omega, ← permByte_testBit a b (by omega) (by decide), sign]
    by_cases negative : 128 ≤ permByte a b (q - 8)
    · rw [if_pos negative, decide_eq_true negative, show 255 = 2 ^ 8 - 1 from rfl, Nat.testBit_two_pow_sub_one, decide_eq_true hk]
    · rw [if_neg negative, decide_eq_false negative, Nat.zero_testBit]

/-! ## The statement -/

theorem bitResults : Claim.BitResults := by
  unfold Claim.BitResults
  refine ⟨fun t lut a b c j type => lop3_getLsbD type lut a b c j, fun t a s i j x n type elem hj operand amount => ?shifts,
    fun clamp hi lo amt j n x cells amount hj => fshf_getLsbD clamp hi lo amt cells amount hj,
    fun t a _ => ⟨popc_toNat t a, clz_toNat t a, ctz_toNat t a, brev_getLsbD t a⟩,
    fun t a pl j pos len _ hpos hlen hj => bfx_getLsbD t a pl hpos hlen hj, fun t a pl c j pos len _ hpos hlen hj => bfi_getLsbD t a pl c hpos hlen hj,
    fun a b c i k q x cells hi hk selector => perm_getLsbD a b c cells hi hk selector⟩
  case shifts =>
    subst operand amount
    exact ⟨shl_testBit type elem a s hj, shr_testBit type elem a s hj, sar_testBit type elem a s hj, rotl_testBit type elem a s hj⟩

/-- Settles O19: each word is a `fixedWord`, and its results have the bits of the rule's table. -/
theorem bitGroup : Obligations.BitGroup := ⟨bitWords, bitResults⟩

end Sys2Proof.Machine
end

section
/-! SUPPORT. The words of the SFU group (R231, R232): the operations of a word of a variable latency whose values may change the state, lane by lane; and QBLK and DQBLK
(R228), which check each lane before they issue. -/

namespace Sys2Proof.Machine

/-! ## The operations of a word of a variable latency (R71) -/

/-- The operations of the lanes in their order, and the state that their values leave: each lane's value is taken in the state that the lanes before it left. -/
def valueOps (f : State → Lane → W64 × State) : List Lane → State → List (Lane × NewOp) × State
  | [], s => ([], s)
  | l :: ls, s => ((l, { kind := .value (f s l).1, va := 0#64 }) :: (valueOps f ls (f s l).2).1, (valueOps f ls (f s l).2).2)

section
variable {f : State → Lane → W64 × State}

theorem foldl_eq_valueOps (ls : List Lane) (ops : List (Lane × NewOp)) (s : State) :
    ls.foldl (fun (acc : List (Lane × NewOp) × State) l => (acc.1 ++ [(l, ({ kind := .value (f acc.2 l).1, va := 0#64 } : NewOp))], (f acc.2 l).2)) (ops, s)
      = (ops ++ (valueOps f ls s).1, (valueOps f ls s).2) := by
  induction ls generalizing ops s with
  | nil => simp [valueOps]
  | cons l ls ih => simp [valueOps, ih]

/-- A word of a variable latency that can issue, whatever its values do to the state. -/
theorem variableWord_of_valueOps {w : Spec} {s u : State} {g : Grp} {ops : List (Lane × NewOp)} (ready : Ready w s g)
    (made : valueOps f (lanesRead w s g) (afterReads w s g) = (ops, u)) :
    variableWord w (fun u _ l => f u l) s = .next (finishWord (issueOps u g w ops) g w.h) := by
  refine (withGrp_some _ ready.group).trans (congrArg Host.Outcome.next ?_)
  rw [prepare_ready ready]
  dsimp only
  rw [foldl_eq_valueOps, made, List.nil_append]

theorem valueOps_lanes (ls : List Lane) (s : State) : (valueOps f ls s).1.map Prod.fst = ls := by
  induction ls generalizing s with
  | nil => rfl
  | cons l ls ih => exact congrArg (l :: ·) (ih (f s l).2)

/-- What a lane's value satisfies in every state, each operation's value satisfies. -/
theorem valueOps_values {P : Lane → W64 → Prop} (value : ∀ s l, P l (f s l).1) (ls : List Lane) (s : State) :
    ∀ p ∈ (valueOps f ls s).1, ∃ v, p.2.kind = .value v ∧ P p.1 v := by
  induction ls generalizing s with
  | nil => exact List.forall_mem_nil _
  | cons l ls ih => exact List.forall_mem_cons.2 ⟨⟨(f s l).1, rfl, value s l⟩, ih (f s l).2⟩

/-- Values that use up free values at most leave every other field. -/
theorem valueOps_freeCtr (uses : ∀ s l, ∃ n, (f s l).2 = { s with freeCtr := n }) (ls : List Lane) (s : State) :
    ∃ n, (valueOps f ls s).2 = { s with freeCtr := n } := by
  induction ls generalizing s with
  | nil => exact ⟨s.freeCtr, rfl⟩
  | cons l ls ih =>
    obtain ⟨m, first⟩ := uses s l
    obtain ⟨n, rest⟩ := ih (f s l).2
    exact ⟨n, rest.trans (by rw [first])⟩

end

/-- Values that no lane's effect on the state changes are those of the first state. -/
theorem valueOps_eq_map {v : State → Lane → W64} {act : State → Lane → State} (kept : ∀ s k l, v (act s k) l = v s l) (ls : List Lane) (s : State) :
    valueOps (fun u l => (v u l, act u l)) ls s = (ls.map (fun l => (l, { kind := .value (v s l), va := 0#64 })), ls.foldl act s) := by
  induction ls generalizing s with
  | nil => rfl
  | cons l ls ih => simp only [valueOps, ih, kept, List.map_cons, List.foldl_cons]

/-! ## EXP2, LOG2, SINPI, COSPI and TANH (R231) -/

/-- R231: a lane's value: the result that the interval decides, else the next free value (log entry 19). -/
def sfuLane (f : Nat → Option Nat) (s : State) (l : Lane) : W64 × State :=
  match f (elemAt 32 0 (l.v 0)) with
  | some v => (BitVec.ofNat 64 v, s)
  | none => (lowCell s.free.1, s.free.2)

theorem sfuLane_decided {f : Nat → Option Nat} (s : State) (l : Lane) : ∀ x, f (elemAt 32 0 (l.v 0)) = some x → (sfuLane f s l).1 = BitVec.ofNat 64 x := by
  intro x decided
  rw [sfuLane, decided]

theorem sfuLane_freeCtr {f : Nat → Option Nat} (s : State) (l : Lane) : ∃ n, (sfuLane f s l).2 = { s with freeCtr := n } := by
  unfold sfuLane
  cases f (elemAt 32 0 (l.v 0)) with
  | some x => exact ⟨s.freeCtr, rfl⟩
  | none => exact ⟨s.freeCtr + 1, rfl⟩

/-- R231: each of the five words is a word of a variable latency with these values. -/
theorem exec_of_sfuFun {i : Instr} {h : Hd} {d : Dst} {a : Src} {f : Nat → Option Nat} (word : Claim.sfuFun i = some (h, d, a, f)) (s : State) :
    exec i s = variableWord (Claim.sfuSpec h d a) (fun u _ l => sfuLane f u l) s := by
  unfold Claim.sfuFun at word
  split at word <;> cases word <;> rfl

theorem approximateFunctions : Claim.ApproximateFunctions := by
  unfold Claim.ApproximateFunctions
  intro i h d a f s g word ready
  obtain ⟨n, left⟩ := valueOps_freeCtr (f := sfuLane f) sfuLane_freeCtr (lanesRead (Claim.sfuSpec h d a) s g) (afterReads (Claim.sfuSpec h d a) s g)
  exact ⟨_, n, (exec_of_sfuFun word s).trans (variableWord_of_valueOps ready (Prod.ext rfl left)), valueOps_lanes _ _,
    valueOps_values (P := fun l v => ∀ x, f (elemAt 32 0 (l.v 0)) = some x → v = BitVec.ofNat 64 x) sfuLane_decided _ _⟩

/-! ## RND and RNDF (R232) -/

/-- R232: the draw of a lane: it depends on the state by the seed of its context alone. -/
def laneDraw (s : State) (l : Lane) : W32 := Sfu.draw (s.ctx l.t.ctx).seed l.t.lane l.t.draw

/-- R232: a word whose value is made of each lane's draw issues one draw of each executing lane, and raises its counter. -/
theorem drawWord_ready {h : Hd} {d : Dst} {s : State} {g : Grp} (out : W32 → W32) (ready : Ready (Claim.drawSpec h d) s g) :
    variableWord (Claim.drawSpec h d) (fun u _ l => ((out (drawLane u l).1).zeroExtend 64, (drawLane u l).2)) s
      = .next (finishWord (issueOps (Claim.drawn (lanesRead (Claim.drawSpec h d) s g) (afterReads (Claim.drawSpec h d) s g)) g (Claim.drawSpec h d)
          ((lanesRead (Claim.drawSpec h d) s g).map (fun l => (l, { kind := .value ((out (laneDraw s l)).zeroExtend 64), va := 0#64 })))) g h) := by
  have seed : ∀ l, laneDraw (afterReads (Claim.drawSpec h d) s g) l = laneDraw s l := fun l => by
    rw [laneDraw, afterReads_seed _ s g ready.group, ← laneDraw]
  have draws := valueOps_eq_map (v := fun u l => (out (laneDraw u l)).zeroExtend 64) (act := fun u l => (drawLane u l).2)
    (fun _ _ _ => rfl) (lanesRead (Claim.drawSpec h d) s g) (afterReads (Claim.drawSpec h d) s g)
  simp only [seed] at draws
  exact variableWord_of_valueOps ready draws

theorem randomDraws : Claim.RandomDraws := by
  unfold Claim.RandomDraws
  intro h d s g ready
  exact ⟨⟨_, drawWord_ready id ready, rfl⟩, ⟨_, drawWord_ready Sfu.unitF32 ready, rfl⟩⟩

/-- Settles O22: the words of the intervals, whose values use up free values at most, and the draws, whose values no other draw changes. -/
theorem sfuWords : Obligations.SfuWords := ⟨approximateFunctions, randomDraws⟩

/-! ## QBLK and DQBLK (R228) -/

/-- R228: the shape of a block conversion: the checks of each lane, then one operation of each lane, made from the lane and its checks, and the bytes that are watched. -/
def blockWord (w : Spec) (chk : State → Lane → List LaneRes) (op : Lane → List LaneRes → NewOp) (touch : Lane → List Touch) (s : State) : Out :=
  withGrp s (fun g => match prepare w g s with
    | .done u => u
    | .go ls u => checkLanes s u g (ls.map (fun l => (l, chk u l)))
        (finishWord (watchHits (issueOps u g w ((ls.map (fun l => (l, chk u l))).map (fun p => (p.1, op p.1 p.2)))) g (ls.map (fun l => (l.t, touch l)))) g w.h))

theorem blockWord_passes {w : Spec} {chk : State → Lane → List LaneRes} (op : Lane → List LaneRes → NewOp) (touch : Lane → List Touch) {s : State} {g : Grp}
    (ready : Ready w s g) (pass : ∀ l ∈ lanesRead w s g, ∀ r ∈ chk (afterReads w s g) l, ∃ T, r = .ok T) :
    blockWord w chk op touch s = .next (finishWord (watchHits (issueOps (afterReads w s g) g w
      ((lanesRead w s g).map (fun l => (l, op l (chk (afterReads w s g) l))))) g ((lanesRead w s g).map (fun l => (l.t, touch l)))) g w.h) := by
  refine (withGrp_some _ ready.group).trans (congrArg Host.Outcome.next ?_)
  rw [prepare_ready ready]
  dsimp only
  rw [checkLanes_ok _ (List.forall_mem_map.2 pass), List.map_map]
  rfl

/-- The operation of a lane of QBLK: the elements and the slot stand where the checks found them. -/
def qblkNewOp (t : ElemTy) (wm : Fin 8) (r : Rnd) (l : Lane) (rs : List LaneRes) : NewOp :=
  { kind := .qblk (glenSpot rs 0) (glenSpot rs 1) t (wm.val + 1) r (elemAt 32 0 (l.v 2)), va := lowCell (l.v 1) }

/-- The operation of a lane of DQBLK. -/
def dqblkNewOp (t : ElemTy) (wm : Fin 8) (r : Rnd) (l : Lane) (rs : List LaneRes) : NewOp :=
  { kind := .dqblk (glenSpot rs 0) t (wm.val + 1) r (elemAt 32 0 (l.v 1)), va := lowCell (l.v 0) }

theorem exec_qblk (h : Hd) (t : ElemTy) (r : Rnd) (d : Dst) (a b c : Src) (wm : Fin 8) :
    ∃ touch, ∀ s, exec (.qblk h t r d a b c wm) s
      = blockWord { h := h, srcs := [.src a false, .src b false, .src c false], dst := Dest.ofDst d false, a := Dest.binds d, b := true }
          (fun u l => qblkChecks u t (wm.val + 1) l) (qblkNewOp t wm r) touch s := ⟨_, fun _ => rfl⟩

theorem exec_dqblk (h : Hd) (t : ElemTy) (r : Rnd) (d : Dst) (a b : Src) (wm : Fin 8) :
    ∃ touch, ∀ s, exec (.dqblk h t r d a b wm) s
      = blockWord { h := h, srcs := [.src a false, .src b false], dst := Dest.ofDst d false, a := true }
          (fun u l => dqblkChecks u (wm.val + 1) l) (dqblkNewOp t wm r) touch s := ⟨_, fun _ => rfl⟩

/-- Settles O15: each of the two words is a block word, and every lane's checks pass. -/
theorem blockConversionsIssue : Obligations.BlockConversionsIssue := by
  unfold Obligations.BlockConversionsIssue
  intro h t r d s g wm
  refine ⟨fun a b c w operands ready pass => ?qblk, fun a b w operands ready pass => ?dqblk⟩
  all_goals subst operands
  case qblk =>
    obtain ⟨touch, shape⟩ := exec_qblk h t r d a b c wm
    exact ⟨_, (shape s).trans (blockWord_passes (qblkNewOp t wm r) touch ready pass)⟩
  case dqblk =>
    obtain ⟨touch, shape⟩ := exec_dqblk h t r d a b wm
    exact ⟨_, (shape s).trans (blockWord_passes (dqblkNewOp t wm r) touch ready pass)⟩

end Sys2Proof.Machine
end

section
/-! SUPPORT. The matrix array (R240 to R260): what a command word and a word on a stopped loop answer where their checks pass, and what each event of the array answers
where it takes place. -/

namespace Sys2Proof.Machine

/-! ## Command words (R240, R254 to R260) -/

/-- R372: an aligned address passes the ALIGN check. -/
theorem alignFault_aligned {a : W64} {n : Nat} (aligned : a.toNat % n = 0) : alignFault a n = none := if_pos aligned

/-- R372: an operand within its limits passes the PROT check. -/
theorem limitFault_within {ok : Bool} (within : ok = true) : limitFault ok = none := if_pos within

theorem rowsOk_within {m : Nat} (least : 1 ≤ m) (most : m ≤ 64) : rowsOk m = true := by simp [rowsOk, least, most]

/-- R256: a loop word within its limits, with each address that it uses aligned, passes MLOOP's checks. -/
theorem mloopFault_within {ty : ElemTy} {l : Lane} (panels : LoopWord.asrc (word32 (l.v 2)) = 0 → (l.v 0).toNat % 16 = 0)
    (tiles : LoopWord.wsrc (word32 (l.v 2)) = 1 ∨ LoopWord.wsrc (word32 (l.v 2)) = 2 → (l.v 1).toNat % 256 = 0)
    (limits : LoopWord.ok (word32 (l.v 2)) ty = true) : mloopFault ty l = none := by
  have a : (if LoopWord.asrc (word32 (l.v 2)) = 0 then alignFault (l.v 0) 16 else none) = none :=
    ite_eq_right_iff.2 fun used => alignFault_aligned (panels used)
  have b : (if LoopWord.wsrc (word32 (l.v 2)) = 1 ∨ LoopWord.wsrc (word32 (l.v 2)) = 2 then alignFault (l.v 1) 256 else none) = none :=
    ite_eq_right_iff.2 fun used => alignFault_aligned (tiles used)
  simp only [mloopFault, a, b, limitFault_within limits]

/-- R258: an aligned address and a row count from 1 to 64 pass the checks of MACCLD and MACCST. -/
theorem accFault_within {l : Lane} (aligned : (l.v 0).toNat % 16 = 0) (least : 1 ≤ elemAt 32 0 (l.v 1)) (most : elemAt 32 0 (l.v 1) ≤ 64) :
    accFault l = none := by
  simp only [accFault, alignFault_aligned aligned, limitFault_within (rowsOk_within least most)]

/-- R259: an aligned address and stride, with a row count from 1 to 64, pass MDRAIN's checks. -/
theorem drainFault_within {l : Lane} (aligned : (l.v 0).toNat % 16 = 0) (stride : elemAt 32 0 (l.v 1) % 16 = 0) (least : 1 ≤ elemAt 32 0 (l.v 2))
    (most : elemAt 32 0 (l.v 2) ≤ 64) : drainFault l = none := by
  simp [drainFault, aligned, stride, limitFault_within (rowsOk_within least most)]

/-- R260: an aligned bias address and an epilogue word within its limits pass MEPI's checks. -/
theorem mepiFault_within {l : Lane} (aligned : (l.v 2).toNat % 16 = 0) (limits : epiOk (word32 (l.v 0)) = true) : mepiFault l = none := by
  simp only [mepiFault, alignFault_aligned aligned, limitFault_within limits]

/-- Settles O16: each word of the forms is a `pushWord`, whose check passes in every row where the operands keep the word's limits. -/
theorem matrixCommandsQueue : Obligations.MatrixCommandsQueue := by
  unfold Obligations.MatrixCommandsQueue
  intro i w ok k s g form ready limits
  cases i <;> cases form
  case mwld => exact pushWord_ready ready fun l hl => alignFault_aligned (limits l hl)
  case mwswap => exact pushWord_ready ready fun _ _ => rfl
  case mloop =>
    refine pushWord_ready ready fun l hl => ?_
    obtain ⟨panels, tiles, word⟩ := limits l hl
    exact mloopFault_within panels tiles word
  case maccld | maccst =>
    refine pushWord_ready ready fun l hl => ?_
    obtain ⟨aligned, least, most⟩ := limits l hl
    exact accFault_within aligned least most
  case mdrain =>
    refine pushWord_ready ready fun l hl => ?_
    obtain ⟨aligned, stride, least, most⟩ := limits l hl
    exact drainFault_within aligned stride least most
  case mepi =>
    refine pushWord_ready ready fun l hl => ?_
    obtain ⟨aligned, word⟩ := limits l hl
    exact mepiFault_within aligned word
  case mzero => exact pushWord_ready ready fun _ _ => rfl

/-! ## The stopped loop (R250, R257) -/

/-- Settles O17: each of the two words acts on the row's stopped loop as a `stoppedWord`. -/
theorem stoppedLoopWords : Obligations.StoppedLoopWords := by
  unfold Obligations.StoppedLoopWords
  intro h w s g l x operands ready row own lead
  exact ⟨stoppedWord_ready (act := fun u core _ => resumeLoop u core) operands ready row own lead,
    stoppedWord_ready (act := abortLoop) operands ready row own lead⟩

/-! ## Commands begin and end (R241, R242, R244) -/

/-- R241: nothing holds back a command of a running context that the table of R241 lets begin and whose pushers wait for no order. -/
theorem not_heldBack {s : State} {core : Nat} {c : MtxCmd} (runs : engineRuns s c.ctx = true) (may : mayBegin (arrayOf s core) c = true)
    (order : ∀ p ∈ c.pushers, acquiring s p.1 c.id = false) :
    (!engineRuns s c.ctx || !mayBegin (arrayOf s core) c || c.pushers.any (fun p => acquiring s p.1 c.id)) = false := by
  have unordered : c.pushers.any (fun p => acquiring s p.1 c.id) = false := by simpa [List.any_eq_false] using order
  rw [runs, may, unordered]
  rfl

theorem commandsBeginAndEnd : Claim.CommandsBeginAndEnd := by
  unfold Claim.CommandsBeginAndEnd
  refine ⟨?begins, ?completes, ?finishes⟩
  case begins =>
    intro core c rest s u queue runs may order hu
    have free := not_heldBack runs may order
    subst hu
    refine ⟨fun act a b word stride kind => ?loop, fun ty wm glen base kind place => ?load, fun v kind effect => ?other⟩
    case loop => exact happens_some (r := commandBegins s core) (by simp [commandBegins, queue, free, kind])
    case load =>
      obtain rfl | ⟨p, inGlen⟩ := place
      · exact happens_some (r := commandBegins s core) (by simp [commandBegins, queue, free, kind])
      · exact happens_some (r := commandBegins s core) (by simp [commandBegins, queue, free, kind, inGlen])
    case other =>
      simp only [List.mem_cons, List.not_mem_nil, or_false] at kind
      obtain (kind | kind) | ⟨x, m, kind | kind⟩ | ⟨x, y, m, kind⟩ | ⟨x, y, z, kind⟩ := kind
      all_goals exact happens_some (r := commandBegins s core) (by simp [commandBegins, queue, free, kind, effect])
  case completes =>
    intro core c e s first
    exact happens_some (r := commandCompletes s core) (by simp [commandCompletes, first])
  case finishes =>
    intro core l s noFlight finished
    exact happens_some (r := commandCompletes s core) (by simp [commandCompletes, noFlight, finished])

/-! ## Steps, drains and failures (R243 to R247, R249) -/

theorem loopsStep : Claim.LoopsStep := by
  unfold Claim.LoopsStep
  refine ⟨?tile, ?step, ?drain, ?load, ?loop⟩
  case tile =>
    intro core c l lines s u fetched
    exact happens_some (r := tileDone s core) (by simp [tileDone, fetched])
  case step =>
    intro core l act addr b word stride rows s u v running kind goes runs more tile room panel hv
    subst hv
    exact happens_some (r := stepLoop s core) (by simp [stepLoop, running, kind, goes, runs, Nat.not_le.2 more, tile, room, panel])
  case drain =>
    intro core l s running due
    have someDue : l.drain.filter (fun d => decide (d.1 ≤ s.clk)) ≠ [] := by simpa [List.filter_eq_nil_iff] using due
    exact happens_some (r := drainDue s core) (by simp only [drainDue, running, List.isEmpty_iff, someDue, if_false])
  case load =>
    intro core c f s failed
    exact happens_some (r := engineFails s core) (by simp [engineFails, failed])
  case loop =>
    intro core l f s u noFetch failed
    exact happens_some (r := engineFails s core) (by simp [engineFails, noFetch, failed])

/-- Settles O39: the commands as they begin and end, and the tiles, steps, drains and failures. -/
theorem matrixEvents : Obligations.MatrixEvents := ⟨commandsBeginAndEnd, loopsStep⟩

end Sys2Proof.Machine
end

section
/-! SUPPORT. NOP, the transfers, EXIT, WAITF and the team words (R308 to R319): what each answers where it can issue, the faults of targets and teams, and the frame of the
words that only move their group. -/

namespace Sys2Proof.Machine

/-! ## Transfers (R309) -/

/-- R309: a transfer sends each executing thread to its target and every other to the next clause in memory. -/
theorem transfer_eq (s : State) (g : Grp) (h : Hd) (ls : List Lane) (tgt : Lane → W64) :
    transfer s g h ls tgt = finishWith s g h (Claim.nextPc ls tgt g.clause.fall) := by
  unfold transfer Claim.nextPc
  congr 1
  funext id
  cases ls.find? (fun l => l.t.id == id) <;> rfl

/-- R309: no check refuses a good target. -/
theorem targetFault_good {x : W64} (good : Claim.goodTarget x) : targetFault x = none := by
  obtain ⟨aligned, form⟩ := good
  simp [targetFault, aligned, form]

/-- R309: a target with one of bits 2 to 0 set takes ALIGN, sub-code 2. -/
theorem targetFault_misaligned {x : W64} (misaligned : x.extractLsb' 0 3 ≠ 0#3) : targetFault x = some (0, 0x05, 2, x) :=
  if_pos (bne_iff_ne.2 misaligned)

/-- R308: NOP goes on at the next word. -/
theorem exec_nop {h : Hd} {s : State} {g : Grp} (ready : Ready { h := h } s g) :
    exec (.nop h) s = .next (finishWord (afterReads { h := h } s g) g h) := actWord_ready _ ready

/-- R309: BRA. -/
theorem exec_bra {h : Hd} {off : BitVec 16} {s : State} {g : Grp} (ready : Ready { h := h } s g) :
    exec (.bra h off) s = .next (finishWith (afterReads { h := h } s g) g h
      (Claim.nextPc (lanesRead { h := h } s g) (fun _ => g.pc + 8#64 * off.signExtend 64) g.clause.fall)) :=
  (actWord_ready _ ready).trans (congrArg Host.Outcome.next (transfer_eq ..))

/-- R309: BRX and RET are one transfer to the value of SA. -/
theorem exec_jump {h : Hd} {a : Src} {i : Instr} (hi : i ∈ [Instr.brx h a, Instr.ret h a]) : exec i = jumpWord h a := by
  simp only [List.mem_cons, List.not_mem_nil, or_false] at hi
  obtain rfl | rfl := hi <;> rfl

/-- R309: BRX and RET to good targets. -/
theorem jumpWord_good {h : Hd} {a : Src} {s : State} {g : Grp} {w : Spec} (hw : w = { h := h, srcs := [.src a true] }) (ready : Ready w s g)
    (good : ∀ l ∈ lanesRead w s g, Claim.goodTarget (l.v 0)) :
    jumpWord h a s = .next (finishWith (afterReads w s g) g h (Claim.nextPc (lanesRead w s g) (fun l => l.v 0) g.clause.fall)) := by
  subst hw
  rw [jumpWord, actWord_ready _ ready, checked_ok _ (fun l hl => targetFault_good (good l hl)), transfer_eq]

/-- R309: CALL binds the return address and goes on at its target. -/
theorem exec_call {h : Hd} {d : VName} {k : BitVec 4} {off : BitVec 16} {s : State} {g : Grp} {w : Spec} (hw : w = Claim.linkSpec h [] d k) (ready : Ready w s g) :
    exec (.call h d k off) s = .next (finishWith (Claim.linked w s g) g h
      (Claim.nextPc (lanesRead w s g) (fun _ => g.pc + 8#64 * off.signExtend 64) g.clause.fall)) := by
  subst hw
  exact (actWord_ready _ ready).trans (congrArg Host.Outcome.next (transfer_eq ..))

/-- R309: CALLX to good targets binds the return address. -/
theorem exec_callx_good {h : Hd} {d : VName} {k : BitVec 4} {a : Src} {s : State} {g : Grp} {w : Spec} (hw : w = Claim.linkSpec h [.src a true] d k) (ready : Ready w s g)
    (good : ∀ l ∈ lanesRead w s g, Claim.goodTarget (l.v 0)) :
    exec (.callx h d k a) s = .next (finishWith (Claim.linked w s g) g h (Claim.nextPc (lanesRead w s g) (fun l => l.v 0) g.clause.fall)) := by
  subst hw
  refine (actWord_ready _ ready).trans (congrArg Host.Outcome.next ?_)
  rw [checked_ok _ (fun l hl => targetFault_good (good l hl)), transfer_eq]
  rfl

theorem transfers : Claim.Transfers := by
  unfold Claim.Transfers
  exact fun h s g => ⟨fun ready => ⟨exec_nop ready, fun off => exec_bra ready⟩,
    fun a w hw ready good i hi => (congrFun (exec_jump hi) s).trans (jumpWord_good hw ready good)⟩

theorem calls : Claim.Calls := by
  unfold Claim.Calls
  exact fun h d k s g => ⟨fun off w hw ready => exec_call hw ready, fun a w hw ready good => exec_callx_good hw ready good⟩

/-- Settles O23: the transfers, without and with a return address. -/
theorem transferWords : Obligations.TransferWords := ⟨transfers, calls⟩

/-- Settles O4: every executing lane fails the first check of its target, so the fault is reported for all of them before anything is bound. -/
theorem misalignedTargetTraps : Obligations.MisalignedTargetTraps := by
  unfold Obligations.MisalignedTargetTraps
  intro h a s g w l ls ready lanes misaligned i word
  have fault : ∀ x ∈ l :: ls, targetFault (x.v 0) = some (0, 0x05, 2, x.v 0) := fun x hx => targetFault_misaligned (misaligned x hx)
  obtain ⟨rfl, hi⟩ | ⟨d, k, rfl, rfl⟩ := word
  · rw [exec_jump hi, jumpWord, actWord_ready _ ready, lanes, checked_all _ (by decide) fault]
  · refine (actWord_ready _ ready).trans (congrArg Host.Outcome.next ?_)
    dsimp only [Claim.linkSpec] at lanes ⊢
    rw [lanes, checked_all _ (by decide) fault]

/-- Settles O5: no executing thread runs a rung, so EXIT's one check passes. -/
theorem exitEnds : Obligations.ExitEnds := by
  unfold Obligations.ExitEnds
  intro h s g ready noRung
  refine (actWord_ready _ ready).trans (congrArg Host.Outcome.next (checked_ok _ (fun l hl => ?_)))
  rw [noRung l hl]
  rfl

/-! ## The frame of the control words -/

/-- R69, R309: binding the return address changes bindings of the group's threads only. -/
theorem linked_issued {w : Spec} {s : State} {g : Grp} (hg : s.grp = some g) : Issued .fixed g.entry.members (namesOf w g) s (Claim.linked w s g) := by
  refine ((afterReads_issued hg).mono (List.Subset.refl _) (by simp [namesOf])).trans (bindFixed_issued _ _ _ _ _ (List.forall_mem_map.2 (fun l hl => ?_)) (fun x hx => ?_))
  · obtain ⟨t, ht, same⟩ := lanesRead_id hl
    rw [same]
    exact (grp_member hg (executing_sub ht)).2
  · exact List.mem_append_right _ (List.mem_map_of_mem hx)

theorem linked_table (w : Spec) (s : State) (g : Grp) : SameTable s (Claim.linked w s g) := (readLanes_table s w _).trans (bindFixed_table _ _ _ _ _)

/-- R309: the frame of a transfer that binds nothing. -/
theorem transfer_frame {w : Spec} {s : State} {g : Grp} (hg : s.grp = some g) (h : Hd) (nx : Nat → W64) :
    Issued .fixed g.entry.members (namesOf w g) s (finishWith (afterReads w s g) g h nx) :=
  finishWith_frame h nx hg ((afterReads_issued hg).mono (List.Subset.refl _) (by simp [namesOf])) (readLanes_table s w _)

/-- R309: the frame of a transfer with a return address. -/
theorem link_frame {w : Spec} {s : State} {g : Grp} (hg : s.grp = some g) (h : Hd) (nx : Nat → W64) :
    Issued .fixed g.entry.members (namesOf w g) s (finishWith (Claim.linked w s g) g h nx) :=
  finishWith_frame h nx hg (linked_issued hg) (linked_table w s g)

/-- A word without operands names nothing. -/
theorem namesOf_noOperands (h : Hd) (g : Grp) : namesOf { h := h } g = [] := by
  simp [namesOf, namesRead, Spec.of, valNames, Dest.none]

/-- Settles O56: each word answers its group's reads, its binding of the return address if it has one, and the end of its word or clause. -/
theorem controlWordFrame : Obligations.ControlWordFrame := by
  unfold Obligations.ControlWordFrame
  intro h s g
  refine ⟨fun ready i word => ?plain, fun a w hw ready good i hi => ?jump, fun d k w => ⟨fun off hw ready => ?call, fun a hw ready good => ?callx⟩⟩
  case plain =>
    rw [← namesOf_noOperands h g]
    obtain rfl | ⟨off, rfl⟩ | ⟨m, rfl, trusted, zero⟩ := word
    · exact ⟨_, exec_nop ready, reads_frame ready.group h⟩
    · exact ⟨_, exec_bra ready, transfer_frame ready.group h _⟩
    · obtain ⟨⟨goesOn, -⟩, -⟩ := waitfWaits h m s g ready
      exact ⟨_, goesOn trusted zero, reads_frame ready.group h⟩
  case jump => exact ⟨_, (congrFun (exec_jump hi) s).trans (jumpWord_good hw ready good), transfer_frame ready.group h _⟩
  case call => exact ⟨_, exec_call hw ready, link_frame ready.group h _⟩
  case callx => exact ⟨_, exec_callx_good hw ready good, link_frame ready.group h _⟩

/-! ## Teams (R315 to R319) -/

/-- R315, R316: the check of a team word of a member, or of no member, as the word asks for. -/
theorem teamFault_none {sub : Nat} {member : Bool} {l : Lane} (id : Claim.teamId l ≤ 63) (other : l.t.teams.getLsbD (Claim.teamId l) ≠ member) :
    teamFault sub member l = none := by
  unfold Claim.teamId at id other
  simp [teamFault, Nat.not_lt.2 id, other]

/-- R315, R316: membership that the word refuses takes TEAM. -/
theorem teamFault_team {sub : Nat} {member : Bool} {l : Lane} (id : Claim.teamId l ≤ 63) (refused : l.t.teams.getLsbD (Claim.teamId l) = member) :
    teamFault sub member l = some (1, 0x0F, sub, lowCell (l.v 0)) := by
  unfold Claim.teamId at id refused
  simp [teamFault, Nat.not_lt.2 id, refused]

/-- R319: an id above 63 takes PROT. -/
theorem teamFault_id {sub : Nat} {member : Bool} {l : Lane} (above : 63 < Claim.teamId l) : teamFault sub member l = some (0, 0x07, 5, 0#64) :=
  if_pos (decide_eq_true above)

/-- R315: TJOIN, once its operands are read. -/
theorem exec_tjoin {h : Hd} {id : SrcI} {s : State} {g : Grp} (ready : Ready (Claim.idSpec h id) s g) :
    exec (.tjoin h id) s = .next (checked (afterReads (Claim.idSpec h id) s g) g (lanesRead (Claim.idSpec h id) s g) (teamFault 1 true)
      (finishWord ((lanesRead (Claim.idSpec h id) s g).foldl (fun s l => joinTeam s l.t (Claim.teamId l)) (afterReads (Claim.idSpec h id) s g)) g h)) :=
  actWord_ready _ ready

/-- R315: TLEAVE, once its operands are read. -/
theorem exec_tleave {h : Hd} {id : SrcI} {s : State} {g : Grp} (ready : Ready (Claim.idSpec h id) s g) :
    exec (.tleave h id) s = .next (checked (afterReads (Claim.idSpec h id) s g) g (lanesRead (Claim.idSpec h id) s g) (teamFault 2 false)
      (finishWord ((lanesRead (Claim.idSpec h id) s g).foldl (fun s l => leaveTeam s l.t (Claim.teamId l)) (afterReads (Claim.idSpec h id) s g)) g h)) :=
  actWord_ready _ ready

/-- R316: TBAR that has not issued, once its operands are read. -/
theorem exec_tbar {h : Hd} {id : SrcI} {s : State} {g : Grp} (ready : Ready (Claim.idSpec h id) s g) (first : g.run.issued = false) :
    exec (.tbar h id) s = .next (checked (afterReads (Claim.idSpec h id) s g) g (lanesRead (Claim.idSpec h id) s g) (teamFault 3 false)
      (arrivals s (afterReads (Claim.idSpec h id) s g) g (lanesRead (Claim.idSpec h id) s g)
        (barrierWait ((lanesRead (Claim.idSpec h id) s g).foldl (fun s l => arriveTeam s l.t (Claim.teamId l)) (afterReads (Claim.idSpec h id) s g)) g h))) := by
  refine (withGrp_some _ ready.group).trans (congrArg Host.Outcome.next ?_)
  rw [first, show ({ h := h, srcs := [Opnd.index id] } : Spec) = Claim.idSpec h id from rfl, prepare_ready ready]
  rfl

/-- R317: GBAR that has not issued. -/
theorem exec_gbar {h : Hd} {s : State} {g : Grp} (ready : Ready { h := h } s g) (first : g.run.issued = false) :
    exec (.gbar h) s = .next (arrivals s (afterReads { h := h } s g) g (lanesRead { h := h } s g)
      (barrierWait ((lanesRead { h := h } s g).foldl (fun s l => arriveGang s l.t) (afterReads { h := h } s g)) g h)) := by
  refine (withGrp_some _ ready.group).trans (congrArg Host.Outcome.next ?_)
  rw [first, prepare_ready ready]
  rfl

/-- R318: an arrival whose accesses are performed takes place. -/
theorem arrivals_released {s0 s k : State} {g : Grp} {ls : List Lane} (performed : ∀ l ∈ ls, s.released l.t = true) : arrivals s0 s g ls k = k :=
  if_pos (List.all_eq_true.2 performed)

/-- R318: until then the group waits with its pipe released. -/
theorem arrivals_waits {s0 s k : State} {g : Grp} {ls : List Lane} (pending : ∃ l ∈ ls, s.released l.t = false) :
    arrivals s0 s g ls k = stallFree s0 g 7 0#64 := by
  obtain ⟨l, hl, out⟩ := pending
  exact if_neg (fun all => by simp [List.all_eq_true.1 all l hl] at out)

theorem teamsJoinAndLeave : Claim.TeamsJoinAndLeave := by
  unfold Claim.TeamsJoinAndLeave
  intro h id s g ready ids
  refine ⟨fun outside => ?_, fun inside => ?_⟩
  · rw [exec_tjoin ready, checked_ok _ (fun l hl => teamFault_none (ids l hl) (by simp [outside l hl]))]
  · rw [exec_tleave ready, checked_ok _ (fun l hl => teamFault_none (ids l hl) (by simp [inside l hl]))]

theorem barriersArrive : Claim.BarriersArrive := by
  unfold Claim.BarriersArrive
  intro h id s g
  refine ⟨fun ready first members => ?team, fun ready first => ?gang, fun hg issued left => ?released⟩
  case team =>
    rw [exec_tbar ready first, checked_ok _ (fun l hl => teamFault_none (members l hl).1 (by simp [(members l hl).2]))]
    exact ⟨fun performed => congrArg Host.Outcome.next (arrivals_released performed), fun pending => congrArg Host.Outcome.next (arrivals_waits pending)⟩
  case gang =>
    rw [exec_gbar ready first]
    exact ⟨fun performed => congrArg Host.Outcome.next (arrivals_released performed), fun pending => congrArg Host.Outcome.next (arrivals_waits pending)⟩
  case released =>
    exact ⟨(withGrp_some _ hg).trans (congrArg Host.Outcome.next ((if_pos issued).trans (barrierWait_done left))),
      (withGrp_some _ hg).trans (congrArg Host.Outcome.next ((if_pos issued).trans (barrierWait_done left)))⟩

/-- Settles O25: the words that join and leave, and the barriers. -/
theorem teamWords : Obligations.TeamWords := ⟨teamsJoinAndLeave, barriersArrive⟩

/-- Settles O6: every executing lane fails the same check, so the fault is reported for all of them. -/
theorem teamFaults : Obligations.TeamFaults := by
  unfold Obligations.TeamFaults
  intro h id s g l ls ready first lanes
  refine ⟨fun inside => ?joins, fun outside => ⟨?leaves, ?arrives⟩, fun above i hi => ?ids⟩
  case joins => rw [exec_tjoin ready, lanes, checked_all _ (by decide) (fun x hx => teamFault_team (inside x hx).1 (inside x hx).2)]
  case leaves => rw [exec_tleave ready, lanes, checked_all _ (by decide) (fun x hx => teamFault_team (outside x hx).1 (outside x hx).2)]
  case arrives => rw [exec_tbar ready first, lanes, checked_all _ (by decide) (fun x hx => teamFault_team (outside x hx).1 (outside x hx).2)]
  case ids =>
    simp only [List.mem_cons, List.not_mem_nil, or_false] at hi
    obtain rfl | rfl | rfl := hi
    · rw [exec_tjoin ready, lanes, checked_all _ (by decide) (fun x hx => teamFault_id (above x hx))]
    · rw [exec_tleave ready, lanes, checked_all _ (by decide) (fun x hx => teamFault_id (above x hx))]
    · rw [exec_tbar ready first, lanes, checked_all _ (by decide) (fun x hx => teamFault_id (above x hx))]

end Sys2Proof.Machine
end

section
/-! SUPPORT. The words of the SYS group (R381, R384, R388 to R390, R395) where they can issue, and the taking of a fault (R372, R374, R386): what it does with one member. -/

namespace Sys2Proof.Machine

/-! ## System registers (R384, R389) -/

theorem sysPrivileged_iff {i : Nat} : sysPrivileged i = true ↔ Claim.privileged i := by
  simp [sysPrivileged, Claim.privileged, or_assoc]

/-- R389: no check refuses a register of the map that the context may write, with an address where the register holds one. -/
theorem sysFault_none {s : State} {l : Lane} (listed : elemAt 32 0 (l.v 1) ≤ 0x1B) (may : Claim.privileged (elemAt 32 0 (l.v 1)) → s.priv l.t.ctx = true)
    (address : elemAt 32 0 (l.v 1) = 0x19 ∨ elemAt 32 0 (l.v 1) = 0x1A → (l.v 0).extractLsb' 48 16 = 0#16 ∧ (l.v 0).extractLsb' 0 3 = 0#3) :
    sysFault s l = none := by
  have privileged : (sysPrivileged (elemAt 32 0 (l.v 1)) && !s.priv l.t.ctx) = false := by
    rw [Bool.and_eq_false_imp]
    exact fun p => by rw [may (sysPrivileged_iff.1 p)]; rfl
  have form : ((elemAt 32 0 (l.v 1) == 0x19 || elemAt 32 0 (l.v 1) == 0x1A) &&
      ((l.v 0).extractLsb' 48 16 != 0#16 || (l.v 0).extractLsb' 0 3 != 0#3)) = false := by
    rw [Bool.and_eq_false_imp]
    intro holds
    obtain ⟨high, low⟩ := address (by simpa using holds)
    simp [high, low]
  dsimp only [sysFault]
  rw [if_neg (Nat.not_lt.2 listed), privileged, form]
  rfl

/-- R384, R389: a privileged register of a context without PRIV takes PROT, sub-code 7. -/
theorem sysFault_privileged {s : State} {l : Lane} (privileged : Claim.privileged (elemAt 32 0 (l.v 1))) (without : s.priv l.t.ctx = false) :
    sysFault s l = some (0, 0x07, 7, 0#64) := by
  have listed : ¬ 0x1B < elemAt 32 0 (l.v 1) := by unfold Claim.privileged at privileged; omega
  dsimp only [sysFault]
  rw [if_neg listed, sysPrivileged_iff.2 privileged, without]
  rfl

/-- R389: SYSWR, once its operands are read, where no lane waits for a conversion. -/
theorem exec_syswr {h : Hd} {wide : Bool} {a : Src} {i : SrcI} {s : State} {g : Grp} {w : Spec} (hw : w = Claim.syswrSpec h wide a i) (ready : Ready w s g)
    (free : Claim.noConversion (lanesRead w s g) 1) :
    exec (.syswr h wide a i) s = .next (checked (afterReads w s g) g (lanesRead w s g) (sysFault (afterReads w s g))
      (finishWord ((lanesRead w s g).foldl (fun s l => sysWrite s l.t (elemAt 32 0 (l.v 1)) (Claim.written wide l)) (afterReads w s g)) g h)) := by
  subst hw
  refine (withGrp_some _ ready.group).trans (congrArg Host.Outcome.next ?_)
  rw [show ({ h := h, srcs := [.src a wide, Opnd.index i] } : Spec) = Claim.syswrSpec h wide a i from rfl, prepare_ready ready]
  dsimp only
  rw [convWaits_false free]
  rfl

/-- Settles O8: no check of SYSWR fails. -/
theorem systemRegisterWrites : Obligations.SystemRegisterWrites := by
  unfold Obligations.SystemRegisterWrites
  intro h wide a i s g w hw ready may free
  rw [exec_syswr hw ready free, checked_ok _ (fun l hl => ?_)]
  obtain ⟨listed, privileged, address⟩ := may l hl
  exact sysFault_none listed (fun p => (afterReads_priv w s g ready.group _).trans (privileged p)) address

/-- Settles O9: every executing lane fails the same check. A privileged register is not FMTRSV, so no lane waits. -/
theorem privilegedWriteTraps : Obligations.PrivilegedWriteTraps := by
  unfold Obligations.PrivilegedWriteTraps
  intro h wide a i s g w l ls hw ready lanes privileged
  have free : Claim.noConversion (lanesRead w s g) 1 := by
    intro x hx fmtrsv
    have notFmtrsv := (privileged x (lanes ▸ hx)).1
    unfold Claim.privileged at notFmtrsv
    omega
  rw [exec_syswr hw ready free, lanes, checked_all _ (by decide) (fun x hx =>
    sysFault_privileged (privileged x hx).1 ((afterReads_priv w s g ready.group _).trans (privileged x hx).2))]

/-! ## ICINV (R390) -/

/-- Settles O11: the cache of the group's core is emptied, or filtered by the ranges of the executing lanes. -/
theorem instructionCacheInvalidates : Obligations.InstructionCacheInvalidates := by
  unfold Obligations.InstructionCacheInvalidates
  refine fun h s g => ⟨fun ready lanes => ?whole, fun a b w hw ready => ?range⟩
  case whole =>
    refine (actWord_ready _ ready).trans (congrArg Host.Outcome.next ?_)
    dsimp only
    rw [if_neg (fun none => lanes (List.isEmpty_iff.1 none))]
  case range =>
    subst hw
    exact actWord_ready _ ready

/-! ## BKPT, TRAP and ERET (R381, R388, R395) -/

theorem breakpointStops : Claim.BreakpointStops := by
  unfold Claim.BreakpointStops
  refine fun h tag s g ready => ⟨fun active => ?_, fun inactive => ?_⟩
  · refine (actWord_ready _ ready).trans (congrArg Host.Outcome.next ?_)
    dsimp only
    rw [if_pos active]
  · refine (actWord_ready _ ready).trans (congrArg Host.Outcome.next ?_)
    dsimp only
    rw [inactive]
    rfl

/-- R52: the next word of a clause stands 8 bytes on. -/
theorem next_pc (c : Clause) : c.next.pc = c.pc + 8#64 := by
  simp only [Clause.pc, Clause.at', Clause.next, BitVec.add_assoc]
  congr 1
  rw [show 8 * (c.idx + 1 + 1) = 8 * (c.idx + 1) + 8 by omega, BitVec.ofNat_add]

theorem trapTraps : Claim.TrapTraps := by
  unfold Claim.TrapTraps
  intro h code s g ready
  refine (actWord_ready _ ready).trans (congrArg Host.Outcome.next ?_)
  have last : g.clause.isLast = true ↔ g.clause.words.length ≤ g.clause.idx + 1 := decide_eq_true_iff
  dsimp only [Claim.trapFault, Claim.laneIds]
  simp only [last, next_pc]
  rfl

theorem eretReturns : Claim.EretReturns := by
  unfold Claim.EretReturns
  refine fun h s g ready => ⟨fun handler => ?returns, fun l ls lanes outside => ?traps⟩
  case returns =>
    exact (actWord_ready _ ready).trans (congrArg Host.Outcome.next (checked_ok _ (fun l hl => if_pos (handler l hl))))
  case traps =>
    refine (actWord_ready _ ready).trans (congrArg Host.Outcome.next ?_)
    dsimp only
    rw [lanes]
    exact checked_all (st := 0) (v := fun _ => 0#64) _ (Nat.zero_le _) (fun x hx => by rw [outside x hx]; rfl)

/-- Settles O26: the three words that stop, trap and return. -/
theorem trapWords : Obligations.TrapWords := ⟨breakpointStops, trapTraps, eretReturns⟩

/-! ## Taking a fault (R372, R374) -/

/-- R374: a member that goes to the handler has TH set and enters the table at TRAPVEC. -/
theorem trapGoes_enters {s : State} {f : Flt} {id : Nat} {t : Thread} (ht : s.thread id = some t) (runs : t.exited = false) (outside : t.trap.th = false)
    (spares : f.kills = false) (traps : f.fails = false) (vector : (s.ctx t.ctx).trapvec ≠ 0#64) :
    trapGoes s f id = enterTable (s.updThread id (fun t => { t with trap := { t.trap with th := true } })) id (s.ctx t.ctx).trapvec := by
  simp [trapGoes, ht, runs, outside, spares, traps, vector]

/-- Settles O13: R374's branches in order. -/
theorem faultFailsTask : Obligations.FaultFailsTask := by
  unfold Obligations.FaultFailsTask
  intro s f id t ht fails
  simp only [trapGoes, ht]
  cases t.exited with
  | true => rfl
  | false =>
    rw [if_neg Bool.false_ne_true, if_neg Bool.false_ne_true]
    obtain handler | ⟨spares, ends⟩ := fails
    · exact if_pos handler
    · have disposition : (f.fails || (s.ctx t.ctx).trapvec == 0#64) = true := by simpa using ends
      rw [spares, disposition, if_neg Bool.false_ne_true, if_pos rfl, ite_self]

/-- R295: a thread at a header. -/
def Thread.standing (pc : W64) (t : Thread) : Thread := { t with pc := pc, resume := none }

/-- R374: a thread in its handler. -/
def Thread.inHandler (t : Thread) : Thread := { t with trap := { t.trap with th := true } }

/-- R295: a thread that enters the table stands at its PC. -/
theorem enterTable_thread {s : State} {id : Nat} {t : Thread} {pc : W64} {issued : Option Nat} (ht : s.thread id = some t) :
    (enterTable s id pc issued).thread id = some (t.standing pc) := by
  have stands := State.thread_updThread_self (Thread.standing pc) (fun _ => rfl) ht
  simp only [enterTable, ht]
  split <;> exact stands

/-- An entry of the table after its update. -/
theorem updEntry_entry {s : State} {core : Nat} {e : Entry} (f : Entry → Entry) (he : e ∈ (s.core core).entries) (inRange : core < s.cores.length) :
    f e ∈ ((s.updEntry core e.uid f).core core).entries := by
  rw [State.updEntry, State.core_updCore _ _ _ inRange]
  exact List.mem_map.2 ⟨e, he, if_pos rfl⟩

/-- R295: a new entry has the threads that it is made for, at their header. -/
theorem newEntry_entry {s : State} {core ctx : Nat} {pc : W64} {ms : List Nat} {above : Option Nat} {ready yield : Nat} {issued : Option Nat}
    (inRange : core < s.cores.length) : ∃ e ∈ ((newEntry s core ctx pc ms above ready yield issued).core core).entries, e.members = ms ∧ e.pc = pc := by
  dsimp only [newEntry]
  rw [State.core_updCore s.fresh.2 core _ inRange]
  exact ⟨_, List.mem_append_right _ (List.mem_singleton_self _), rfl, rfl⟩

/-- R295: some entry at its PC has it as a member: one that it joins, or one of its own. -/
theorem enterTable_entry {s : State} {id : Nat} {t : Thread} {pc : W64} {issued : Option Nat} (ht : s.thread id = some t) (inRange : t.core < s.cores.length) :
    ∃ e ∈ ((enterTable s id pc issued).core t.core).entries, id ∈ e.members ∧ e.pc = pc := by
  simp only [enterTable, ht]
  split
  case h_1 e found =>
    have admits := List.find?_some found
    simp only [Bool.and_eq_true, beq_iff_eq] at admits
    obtain ⟨⟨⟨⟨⟨-, place⟩, -⟩, -⟩, -⟩, -⟩ := admits
    exact ⟨_, updEntry_entry _ (List.mem_of_find?_eq_some found) inRange, List.mem_append_right _ (List.mem_singleton_self _), place⟩
  case h_2 =>
    obtain ⟨e, he, members, place⟩ := newEntry_entry (s := s.updThread id (Thread.standing pc)) (core := t.core) (ctx := t.ctx) (pc := pc) (ms := [id]) (above := none)
      (ready := 0) (yield := 0) (issued := issued) inRange
    exact ⟨e, he, members ▸ List.mem_singleton_self _, place⟩

/-- R374, R386: the state before a fault's one member goes: its trap registers are set, and it has left its entry. -/
def beforeHandler (s : State) (core : Nat) (t : Thread) (f : Flt) : State := leaveTable (s.updThread t.id (trapThread f (maskOf [t]) none)) core t.id

theorem beforeHandler_thread {s : State} {core : Nat} {t : Thread} {f : Flt} (ht : s.thread t.id = some t) :
    (beforeHandler s core t f).thread t.id = some (trapThread f (maskOf [t]) none t) := State.thread_updThread_self _ (fun _ => rfl) ht

/-- R374: a fault of one member, named in its mask, that traps. -/
theorem takeTrap_single {s : State} {core : Nat} {t : Thread} {f : Flt} (ht : s.thread t.id = some t) (runs : t.exited = false) (outside : t.trap.th = false)
    (spares : f.kills = false) (traps : f.fails = false) (vector : (s.ctx t.ctx).trapvec ≠ 0#64) (mask : f.mask = [t.id]) :
    takeTrap s core [t] f [] = enterTable ((beforeHandler s core t f).updThread t.id Thread.inHandler) t.id (s.ctx t.ctx).trapvec := by
  have members : [t].filter (fun t => f.mask.contains t.id) = [t] := by simp [mask]
  have goes := trapGoes_enters (beforeHandler_thread (core := core) (f := f) ht) runs outside spares traps vector
  unfold takeTrap
  rw [members]
  exact goes

/-- Settles O12: the registers are those that `trapThread` sets, and the thread enters the table with them. -/
theorem trapEntry : Obligations.TrapEntry := by
  unfold Obligations.TrapEntry
  intro s core t f ht runs outside spares traps vector mask inRange
  rw [takeTrap_single ht runs outside spares traps vector mask]
  have handler := State.thread_updThread_self Thread.inHandler (fun _ => rfl) (beforeHandler_thread (core := core) (f := f) ht)
  have named : f.mask.contains t.id = true := by simp [mask]
  have cores : (beforeHandler s core t f).cores.length = s.cores.length := State.cores_length_updCore ..
  exact ⟨_, enterTable_thread handler, rfl, rfl, rfl, rfl, named, rfl, rfl, rfl, rfl, rfl, rfl, rfl, rfl, rfl,
    enterTable_entry (t := (trapThread f (maskOf [t]) none t).inHandler) handler (cores ▸ inRange)⟩

end Sys2Proof.Machine
end

section
/-! SUPPORT. The ladder instructions that submit, escalate and resolve (R365 to R367), the events of the task engines (R331 to R334, R338 to R340) and those of the ladder
units (R351 to R360, R448): what the operation of each answers where it takes place. -/

namespace Sys2Proof.Machine

/-! ## LSTART, LESC and LRES -/

theorem ladderStarts : Claim.LadderStarts := by
  unfold Claim.LadderStarts
  intro h a b s g w T U hw ready accessible
  subst hw
  have checks : (lanesRead { h := h, srcs := [.src a true, .src b true], b := true } s g).map (fun l => (l,
      [laneGlobal (afterReads { h := h, srcs := [.src a true, .src b true], b := true } s g) l.t.core l.t (wordAcc (l.v 0) 320 128),
        objCheck (afterReads { h := h, srcs := [.src a true, .src b true], b := true } s g) l]))
      = (lanesRead { h := h, srcs := [.src a true, .src b true], b := true } s g).map (fun l => (l, [.ok (T l), .ok (U l)])) :=
    List.map_congr_left (fun l hl => by rw [objCheck, (accessible l hl).1, (accessible l hl).2])
  refine (withGrp_some _ ready.group).trans (congrArg Host.Outcome.next ?_)
  dsimp only
  rw [prepare_ready ready]
  dsimp only
  rw [checks, checkLanes_ok]
  refine List.forall_mem_map.2 (fun l _ r hr => ?_)
  simp only [List.mem_cons, List.not_mem_nil, or_false] at hr
  obtain rfl | rfl := hr
  · exact ⟨_, rfl⟩
  · exact ⟨_, rfl⟩

theorem ladderWordsEnd : Claim.LadderWordsEnd := by
  unfold Claim.LadderWordsEnd
  refine fun h a s g => ⟨fun sb w hw ready flags => ?escalates, fun w hw ready => ?resolves⟩
  case escalates =>
    subst hw
    refine (withGrp_some _ ready.group).trans (congrArg Host.Outcome.next ?_)
    dsimp only
    rw [prepare_ready ready]
    exact checked_ok _ (fun l hl => by rw [flags l hl]; rfl)
  case resolves =>
    subst hw
    refine (withGrp_some _ ready.group).trans (congrArg Host.Outcome.next ?_)
    dsimp only
    rw [prepare_ready ready]

/-- Settles O29: the word that starts a ladder, and the words that end a rung's thread. -/
theorem ladderWords : Obligations.LadderWords := ⟨ladderStarts, ladderWordsEnd⟩

/-! ## Tasks are dispatched, placed and retired -/

theorem State.task_id {s : State} {i : Nat} {k : Task} (h : s.task i = some k) : k.id = i := by simpa using List.find?_some h

/-- R332, R333: the dispatch of an ordinary task, by the least reason that its checks give. -/
theorem dispatch_eq {s : State} {task : Nat} {k : Task} (ht : s.task task = some k) (next : dispatchable s k = true) (ordinary : k.lobj = none) :
    dispatch s task = some (
      let u := writeUsed (readsRefused (s.updCtx k.ctx (fun c => { c with dispatched := true })) 3 k.ctx (dispatchChecks s k).refusedReads) k (dispatchChecks s k).used
      if leastReason (dispatchChecks s k).reasons = 0 then takeForwards (u.updTask task (fun x =>
        { x with used := (dispatchChecks s k).used.getD 0#64, grec := (dispatchChecks s k).grec, dispatched := true })) k
      else refuseTask u k 3 (leastReason (dispatchChecks s k).reasons)) := by
  simp only [dispatch, ht, next, ordinary, Bool.not_true, Option.isSome_none, Bool.or_self, Bool.false_eq_true, if_false]
  cases leastReason (dispatchChecks s k).reasons <;> rfl

theorem tasksRun : Claim.TasksRun := by
  unfold Claim.TasksRun
  refine ⟨fun task k s u ht next ordinary hu => ⟨fun good => ?taken, fun bad => ?refused⟩, ?placed, ?retired⟩
  case taken =>
    subst hu
    exact happens_some ((dispatch_eq ht next ordinary).trans (congrArg some (if_pos good)))
  case refused =>
    subst hu
    exact happens_some ((dispatch_eq ht next ordinary).trans (congrArg some (if_neg bad)))
  case placed =>
    intro task base rpc k g slots s u ht record hrpc dispatched ordinary runs good left state block seats die hu
    subst hu hrpc
    refine happens_some (r := placement s task base) ?_
    simp [placement, ht, record, dispatched, ordinary, runs, good, Nat.not_le.2 left, Nat.not_lt.2 state, block, seats, die]
  case retired =>
    intro gang g s u hg rests hu
    subst hu
    exact happens_some (r := retirement s gang) (by simp [retirement, hg, rests])

/-! ## The edge -/

/-- R339: phase 1 acts on the region that CURSOR names; one that needs nothing more leads to the next. -/
theorem edgeStep_eq {s : State} {task : Nat} {k : Task} (ht : s.task task = some k) (state : k.state = 4) (runs : engineRuns s k.ctx = true) (phase : k.cursor.ph = 1) :
    edgeStep s task = match k.regions[k.cursor.rix]? with
      | none => some (edgeFrom s k k.cursor.rix)
      | some r =>
        if !r.edges || decide (r.bytes ≤ k.cursor.off) then some (edgeFrom s k (k.cursor.rix + 1))
        else match translateDirect s k.ctx (BitVec.ofNat 64 (r.base + k.cursor.off)) { r := false, w := false, x := false } with
          | .ok pa => if s.viewBusy pa then none else some (edgeNext (edgeLine s k r (pa / 128)) k r)
          | _ => some (edgeNext s k r) := by
  simp only [edgeStep, ht, state, runs, phase] <;> rfl

/-- R339: phase 2 acts on the successor that CURSOR names. -/
theorem successorStep_eq {s : State} {task : Nat} {k : Task} (ht : s.task task = some k) (state : k.state = 4) (runs : engineRuns s k.ctx = true)
    (phase : k.cursor.ph = 2) (left : k.cursor.six < successors k) :
    successorStep s task = match k.succl with
      | some l => some (if k.cursor.six + 1 < successors k then setCursor (decrementSuccessor s k l k.cursor.six) task 2 0 (k.cursor.six + 1) 0
          else setCursor (decrementSuccessor s k l k.cursor.six) task 3 0 0 0)
      | none => match readList s k with
        | .ok l => some (s.updTask task (fun k => { k with succl := some l }))
        | .error (code, sub, a) => some (setCursor (s.logRefused 3 k.ctx 0 true a code sub 0#64) task 3 0 0 0) := by
  simp only [successorStep, ht, state, runs, phase, decide_eq_true_eq, Nat.not_le.2 left, if_false] <;> rfl

/-- R339: phase 3 writes the signal that the record names, if it names one. -/
theorem signalStep_eq {s u1 u2 u3 : State} {task : Nat} {k : Task} {ctl siga sigv : Nat} (ht : s.task task = some k) (state : k.state = 4)
    (runs : engineRuns s k.ctx = true) (phase : k.cursor.ph = 3) (hctl : unitRead s k.ctx (k.recAddr + 0x18#64) 8 = .ok (u1, ctl))
    (hsiga : unitRead s k.ctx (k.recAddr + 0x40#64) 8 = .ok (u2, siga)) (hsigv : unitRead s k.ctx (k.recAddr + 0x48#64) 8 = .ok (u3, sigv)) :
    signalStep s task = if BitVec.ofNat 64 (bitsAt siga 47 3 * 8) = 0#64 then some (endTask s k 5)
      else match unitWord s k.ctx (BitVec.ofNat 64 (bitsAt siga 47 3 * 8)) sigv s.startClock with
        | (s, none) => some (endTask (if bitsAt ctl 31 24 = 0 then s else s.notify (bitsAt ctl 31 24) k.ctx) k 5)
        | (s, some (code, sub, a)) => some (endTask (s.logRefused 3 k.ctx 0 true a code sub 0#64) k 5) := by
  simp only [signalStep, ht, state, runs, phase, hctl, hsiga, hsigv] <;> rfl

theorem edgesRun : Claim.EdgesRun := by
  unfold Claim.EdgesRun
  refine fun task k s ht state runs => ⟨fun phase => ⟨fun past => ?allRegions, fun r hr spent => ?nextRegion, fun r pa hr edges inside place free => ?line⟩,
    fun phase => ⟨fun spent => ?allSuccessors, fun l left unread list => ?list, fun l left list => ?successor⟩,
    fun phase u1 u2 u3 v ctl siga sigv va hctl hsiga hsigv hva => ⟨fun noSignal => ?noSignal, fun signal written => ?written, fun code sub a signal refused => ?refused⟩⟩
  case allRegions => exact happens_some ((edgeStep_eq ht state runs phase).trans (by rw [past]))
  case nextRegion =>
    have noMore : (!r.edges || decide (r.bytes ≤ k.cursor.off)) = true := by simpa using spent
    exact happens_some ((edgeStep_eq ht state runs phase).trans (by rw [hr]; exact if_pos noMore))
  case line =>
    have more : (!r.edges || decide (r.bytes ≤ k.cursor.off)) = false := by simp [edges, inside]
    refine happens_some ((edgeStep_eq ht state runs phase).trans ?_)
    simp only [hr, more, place, free, edgeNext, State.task_id ht, Bool.false_eq_true, if_false]
  case allSuccessors => exact happens_some (r := successorStep s task) (by simp [successorStep, ht, state, phase, runs, spent])
  case list => exact happens_some ((successorStep_eq ht state runs phase left).trans (by rw [unread, list]))
  case successor => exact happens_some ((successorStep_eq ht state runs phase left).trans (by rw [list]))
  case noSignal =>
    subst hva
    exact happens_some ((signalStep_eq ht state runs phase hctl hsiga hsigv).trans (if_pos noSignal))
  case written =>
    subst hva
    exact happens_some ((signalStep_eq ht state runs phase hctl hsiga hsigv).trans (by rw [if_neg signal, written]))
  case refused =>
    subst hva
    exact happens_some ((signalStep_eq ht state runs phase hctl hsiga hsigv).trans (by rw [if_neg signal, refused]))

/-- Settles O40: the tasks as they run, and their edges. -/
theorem taskEvents : Obligations.TaskEvents := ⟨tasksRun, edgesRun⟩

/-! ## Ladders are dispatched -/

/-- R351: USED receives the entry of rung 0. -/
theorem entry_of_rungs {l : Ladder} {r : RungState} {rs : List RungState} (rungs : l.rungs = r :: rs) : l.entry = r.entry := by simp [Ladder.entry, rungs]

theorem laddersDispatch : Claim.LaddersDispatch := by
  unfold Claim.LaddersDispatch
  intro task k s u ht next ladder hu
  have isLadder : k.lobj.isNone = false := by simpa [Option.isSome_iff_ne_none] using ladder
  subst hu
  refine ⟨fun l r rs v w good object rungs hv zeroed => ?taken, fun l bad object => ?record, fun e fs object => ?object⟩
  case taken =>
    subst hv
    refine happens_some (r := startLadder s task) ?_
    rw [← entry_of_rungs rungs] at zeroed
    simp only [startLadder, ht, next, isLadder, good, object, zeroed]
    simp
  case record =>
    exact happens_some (r := startLadder s task) (by simp [startLadder, ht, next, isLadder, bad, object])
  case object =>
    exact happens_some (r := startLadder s task) (by simp [startLadder, ht, next, isLadder, object])

/-! ## Ladders run -/

theorem laddersRun : Claim.LaddersRun := by
  unfold Claim.LaddersRun
  intro task k l s ht ladder
  refine ⟨?arrives, ?starves, ?placed, ?result, ?watermark, ?writeFails, ?watermarkFails⟩
  case arrives =>
    intro wr n rung j cells tid u r write tried rungs
    refine happens_some (r := ladderArrives s task wr) ?_
    unfold Claim.arrived at rungs ⊢
    simp only [ladderArrives, ht, ladder, write, tried, rungs]
  case starves =>
    intro rung r p ps hr notFirst good running resident some few pending aged
    refine happens_some (r := Machine.starves s task rung) ?_
    simp [Machine.starves, ht, ladder, hr, notFirst, good, running, resident, some, Nat.not_le.2 few, pending, aged]
  case placed =>
    intro core d due r slots u due hr runs good state block seats die hu
    subst hu
    exact happens_some (r := rungPlacement s task core) (by simp [rungPlacement, ht, ladder, due, hr, runs, good, Nat.not_lt.2 state, block, seats, die])
  case result =>
    intro wr n item v tid u write tried
    exact happens_some (r := resultWrites s task wr) (by simp only [resultWrites, ht, ladder, write, tried])
  case watermark =>
    intro u tried
    exact happens_some (r := watermarkWrites s task) (by simp only [watermarkWrites, ht, ladder, tried])
  case writeFails =>
    intro wr w code sub a u write tried
    exact happens_some (r := ladderWriteFails s task wr) (by simp only [ladderWriteFails, ht, ladder, write, tried])
  case watermarkFails =>
    intro wr code sub a u noWrite tried
    exact happens_some (r := ladderWriteFails s task wr) (by simp only [ladderWriteFails, ht, ladder, noWrite, tried])

/-- Settles O41: the ladders as they are dispatched, and as they run. -/
theorem ladderEvents : Obligations.LadderEvents := ⟨laddersDispatch, laddersRun⟩

end Sys2Proof.Machine
end

section
/-! SUPPORT. The events and the host's commands of contexts (R307, R342, R377 to R380, R422), and the events of debugging (R399 to R403, R407): what the operation of each
answers where it takes place. -/

namespace Sys2Proof.Machine

/-! ## Contexts are saved -/

/-- R307: nothing keeps a thread of a context that is pre-empted from stopping. -/
theorem notchStops_eq {s : State} {tid k : Nat} {t : Thread} (ht : s.thread tid = some t) (preempted : (s.ctx t.ctx).preempt = some k) (runs : t.exited = false)
    (bound : t.parked = false) (moving : t.stopped = false) (noHalt : t.halted = none) (noVictim : t.victimOf = none) :
    notchStops s tid = if atNotch s t then some ((detach s tid).updThread tid (fun t => { t with stopped := true, blocked := none, heldFor := 0 }))
      else if atWait s t then some ((detach s tid).updThread tid (fun t => { t with parked := true, blocked := none, heldFor := 0, streamWait := [] })) else none := by
  simp [notchStops, ht, preempted, runs, bound, moving, noHalt, noVictim]

theorem contextsSaved : Claim.ContextsSaved := by
  unfold Claim.ContextsSaved
  refine ⟨fun tid k t s ht preempted runs bound moving noHalt noVictim => ⟨fun notch => ?notch, fun noNotch wait => ?wait⟩, fun c s rest => ?save,
    fun c k s preempted limit expired => ?limit, ?slice⟩
  case notch => exact happens_some ((notchStops_eq ht preempted runs bound moving noHalt noVictim).trans (if_pos notch))
  case wait =>
    exact happens_some ((notchStops_eq ht preempted runs bound moving noHalt noVictim).trans (by rw [noNotch, wait]; rfl))
  case save => exact happens_some (r := saveContext s c) (by rw [saveContext, rest]; rfl)
  case limit =>
    have finite : (s.ctx c).notchlim.toNat ≠ 0 := fun zero => limit (BitVec.eq_of_toNat_eq zero)
    exact happens_some (r := notchlimExpires s c) (by simp [notchlimExpires, preempted, finite, expired])
  case slice =>
    intro c d n s hn resident settled idle finite elapsed hd other waits
    subst hn
    have someWaits : (List.range Config.contexts).any (fun d => d != c && waitsForSeats s d) = true :=
      List.any_eq_true.2 ⟨d, List.mem_range.2 hd, by simp [other, waits]⟩
    exact happens_some (r := sliceExpires s c) (by simp [-BitVec.extractLsb'_toNat, sliceExpires, someWaits, resident, settled, idle, finite, elapsed])

/-! ## The host's commands -/

theorem contextCommands : Claim.ContextCommands := by
  unfold Claim.ContextCommands
  refine fun c s hc ready => ⟨fun idle => ⟨fun free => ?create, fun resident => ?preempt, fun saved u hu => ?restore, fun there => ?tlbinv, fun ended => ?destroy⟩,
    fun low high => ?terminate, ?lost⟩
  case create => exact congrArg Host.Outcome.next (hostCommand_ready hc ready idle (by simp [free]))
  case preempt => exact congrArg Host.Outcome.next (hostCommand_ready hc ready idle (by simp [resident]))
  case restore =>
    subst hu
    exact congrArg Host.Outcome.next (hostCommand_ready hc ready idle (by simp [saved]))
  case tlbinv => exact congrArg Host.Outcome.next (hostCommand_ready hc ready idle there)
  case destroy => exact congrArg Host.Outcome.next (hostCommand_ready hc ready idle ended)
  case terminate =>
    have live : alive s c = true := by simp [alive, low, high]
    refine congrArg Host.Outcome.next (show terminateCmd s c = _ from ?_)
    rw [terminateCmd, if_neg (Nat.not_le.2 hc), whenReady, if_pos ready, if_pos live]
  case lost =>
    refine congrArg Host.Outcome.next ?_
    rw [if_neg (Nat.not_le.2 hc), whenReady, if_pos ready]

/-! ## CREATE -/

/-- R422: a context as CREATE leaves it: what the host has written stays, and `q` and `n` stand for where firmware puts the queue table and the quota. -/
def Context.created (q : W64) (n clk : Nat) (x : Context) : Context :=
  { Context.reset with
    cfg := x.cfg, root := x.root, digt := x.digt, dbg := x.dbg, keys := x.keys, slice := x.slice, lost := x.lost
    qtab := q &&& 0xFFFFFFFFFFF00#64, quotaId := n, st := 1, sliceAt := clk }

/-- R422: CREATE of a context whose quota can be locked. -/
theorem createContext_eq {s : State} {c : Nat} (inUse : s.ident.state ≠ 3) (fits : quotaFits s c = true) :
    createContext s c = (clearCode (clearTlb s.free.2.free.2 c) c).updCtx c (Context.created s.free.1 s.free.2.free.1.toNat s.clk) := by
  simp only [createContext, inUse, fits, Bool.not_true, Bool.or_false, decide_false, Bool.false_eq_true, if_false]
  rfl

/-- R105: no core keeps a translation of the context. -/
theorem clearTlb_tlb (s : State) (c k : Nat) : ∀ e ∈ ((clearTlb s c).core k).tlb, e.ctx ≠ c := by
  intro e he
  simp only [clearTlb, State.core, List.getD_eq_getElem?_getD, List.getElem?_map] at he
  cases core : s.cores[k]? with
  | none => simp [core, Core.reset] at he
  | some x =>
    simp only [core, Option.map_some, Option.getD_some, List.mem_filter, bne_iff_ne] at he
    exact he.2

/-- R105: no walk of the context is left. -/
theorem clearTlb_walks (s : State) (c : Nat) : ∀ w ∈ (clearTlb s c).walks, w.ctx ≠ c := by
  intro w hw
  simpa using (List.mem_filter.1 hw).2

/-- R422: what an earlier context left in the instruction caches does not concern the translations. -/
theorem clearCode_tlb (s : State) (c k : Nat) : ((clearCode s c).core k).tlb = (s.core k).tlb := by
  simp only [clearCode, State.core, List.getD_eq_getElem?_getD, List.getElem?_map]
  cases s.cores[k]? <;> rfl

theorem createResets : Claim.CreateResets := by
  unfold Claim.CreateResets
  intro c s x inUse fits inRange hx
  rw [createContext_eq inUse fits] at hx ⊢
  obtain rfl := hx.trans (State.ctx_updCtx _ c (Context.created s.free.1 s.free.2.free.1.toNat s.clk) inRange)
  refine ⟨rfl, rfl, rfl, rfl, rfl, rfl, rfl, rfl, rfl, rfl, rfl, rfl, rfl, rfl, rfl, rfl, rfl, rfl, rfl, rfl, rfl, rfl, rfl, fun k => ?_, clearTlb_walks _ c, fun d other => ?_⟩
  · rw [State.updCtx_core, clearCode_tlb]
    exact clearTlb_tlb _ c k
  · rw [State.ctx_updCtx_ne _ _ _ _ (Ne.symm other)]
    rfl

/-- Settles O42: the events, the commands, and what CREATE resets. -/
theorem contextEvents : Obligations.ContextEvents := ⟨contextsSaved, contextCommands, createResets⟩

/-! ## Debugging -/

/-- R403: a halted thread of a resident context whose record holds the command, and whose bindings have room, takes it. -/
theorem takeCmd_fits {s : State} {c core slot lane cmd : Nat} {r : BitVec 8 × BitVec 16} {t : Thread} {e : Edit}
    (seat : s.threads.find? (fun t => t.ctx == c && !t.exited && t.core == core && t.slot == slot && t.lane == lane) = some t) (halted : t.halted = some r)
    (edit : t.edit = some e) (command : e.cmd = cmd) (resident : (s.ctx c).st = 1) (bound : t.parked = false)
    (fits : refusal s t (((editedNames e).map (fun p => p.2.cells)).sum - (t.names.map (fun p => p.2.cells)).sum) = none) :
    takeCmd s c core slot lane cmd = some (
      let u := s.updThread t.id (fun t => { t with
        halted := none, edit := none, names := editedNames e, preds := e.preds, draw := e.draw, pc := e.pc, resume := none, passHdr := true
        stops := if cmd = 2 then t.stops ||| 0x10#8 else t.stops })
      enterTable (u.dbgTouch c (recordOff u t)) t.id e.pc) := by
  simp [takeCmd, seat, halted, edit, command, resident, bound, fits]

/-- R399: an access of an agent that may reach the window, by the page, the shutters and what stands at its offset. -/
theorem windowAccess_admitted {s : State} {agent c off : Nat} (write : Bool) (v : W64) (active : grantActive s c = true) (inside : off < s.dbgSpan c)
    (aligned : off % 8 = 0) (may : agent < hostAgent → agent = debuggerOf s c) :
    windowAccess s agent c off write v =
      if s.pageRetired (s.dbgBase c + off) then some (windowFault s c (s.dbgBase c + off) (0x0C, 3))
      else if s.dbgShut c off then some (windowRefused s c off)
      else if !State.dbgHeld off then match s.homeFault (s.dbgBase c + off) with
        | some f => some (windowFault s c (s.dbgBase c + off) f)
        | none => if write then some (s.agentWriteN (s.dbgBase c + off) 8 c v.toNat)
          else some { (s.homeReadN (s.dbgBase c + off) 8 c).1 with lastRead := BitVec.ofNat 128 (s.homeReadN (s.dbgBase c + off) 8 c).2 }
      else if write then match s.dbgWrite c off v.toNat with
        | some u => some (u.dbgTouch c off)
        | none => some (windowRefused s c off)
      else match s.dbgRead c off with
        | some x => some { s with lastRead := BitVec.ofNat 128 x }
        | none => some (windowRefused s c off) := by
  have ours : (decide (agent < hostAgent) && agent != debuggerOf s c) = false := by
    rw [Bool.and_eq_false_imp]
    exact fun context => by simpa using may (of_decide_eq_true context)
  have reaches : (!grantActive s c || decide (s.dbgSpan c ≤ off) || off % 8 != 0) = false := by simp [active, Nat.not_le.2 inside, aligned]
  unfold windowAccess
  rw [reaches, ours, if_neg Bool.false_ne_true, if_neg Bool.false_ne_true]
  dsimp only
  cases s.homeFault (s.dbgBase c + off) <;> rfl

/-- R407: a sample that is due, of the group that follows the last one sampled. -/
theorem takesSample_due {s : State} {c core : Nat} (active : grantActive s c = true) (on : sampleOn s c = true) (low : firstObserved s c ≤ core)
    (high : core < firstObserved s c + observedCores s c) (due : (sampleState (s.core core) c).2 + samplePeriod s c ≤ s.clk) :
    takesSample s c core = match sampleNext s core c (sampleState (s.core core) c).1 with
      | none => some (s.updCore core (Claim.sampled c (sampleState (s.core core) c).1 s.clk))
      | some e =>
        let u := dbgRecord s c (recordWords s 2 (sampleClass s core e).1 (((s.members e).head?.map Thread.lastOrd).getD 0#16)
          ((e.run.map (fun r => r.clause.pc)).getD e.pc) core (((s.members e).head?.map Thread.slot).getD 0) (sampleClass s core e).2 (maskOf (s.members e)).1)
        some (u.updCore core (Claim.sampled c (sampleKey e) u.clk)) := by
  have waits : (!grantActive s c || !sampleOn s c || decide (core < firstObserved s c) || decide (firstObserved s c + observedCores s c ≤ core)
      || decide (s.clk < (sampleState (s.core core) c).2 + samplePeriod s c)) = false := by
    simp [active, on, Nat.not_lt.2 low, Nat.not_le.2 high, Nat.not_lt.2 due]
  unfold takesSample
  dsimp only
  rw [waits, if_neg Bool.false_ne_true]
  cases sampleNext s core c (sampleState (s.core core) c).1 with
  | none => rfl
  | some e =>
    dsimp only
    generalize sampleClass s core e = stall
    cases e.run <;> rfl

/-- Settles O45: each event where its rule lets it take place, and what is refused at the window. -/
theorem debugEvents : Obligations.DebugEvents := by
  unfold Obligations.DebugEvents
  refine fun c s => ⟨fun on active => ?haltall, ?command, ?access, fun core active on low high due => ⟨fun nothing => ?noGroup, fun e u next hu => ?group⟩⟩
  case haltall => exact happens_some (r := setHaltAll s c on) (by rw [setHaltAll, active]; rfl)
  case command =>
    intro core slot lane r t e u seat halted edit resident bound fits
    refine ⟨fun run hu => ?_, fun step hu => ?_⟩
    · subst hu
      exact happens_some (takeCmd_fits seat halted edit run resident bound fits)
    · subst hu
      exact happens_some (takeCmd_fits seat halted edit step resident bound fits)
  case access =>
    intro agent off v active inside aligned may
    have admitted := fun on => windowAccess_admitted on v active inside aligned may
    refine ⟨fun retired on => ?_, fun inUse => ⟨fun shut on => ?_, fun opened held => ⟨fun x read => ?_, fun u written => ?_, fun noWrite => ?_⟩,
      fun opened memory code sub fault on => ?_, fun opened memory noFault => ⟨?_, ?_⟩⟩⟩
    · exact happens_some ((admitted on).trans (if_pos retired))
    · exact happens_some ((admitted on).trans (by rw [inUse, shut]; rfl))
    · exact happens_some ((admitted false).trans (by rw [inUse, opened, held, read]; rfl))
    · exact happens_some ((admitted true).trans (by rw [inUse, opened, held, written]; rfl))
    · exact happens_some ((admitted true).trans (by rw [inUse, opened, held, noWrite]; rfl))
    · exact happens_some ((admitted on).trans (by rw [inUse, opened, memory, fault]; rfl))
    · exact happens_some ((admitted true).trans (by rw [inUse, opened, memory, noFault]; rfl))
    · exact happens_some ((admitted false).trans (by rw [inUse, opened, memory, noFault]; rfl))
  case noGroup => exact happens_some ((takesSample_due active on low high due).trans (by rw [nothing]))
  case group =>
    subst hu
    exact happens_some ((takesSample_due active on low high due).trans (by rw [next]))

end Sys2Proof.Machine
end

section
/-! SUPPORT. A write of the device leaves the contexts at the stages of their life (R422): what it changes of a context is the debug unit's registers and the verified
lists. A lemma `f_stages` says so of `f`. -/

namespace Sys2Proof.Machine

/-! ## The stages of the contexts -/

/-- The stage of each context, in order. -/
def State.stages (s : State) : List Nat := s.contexts.map Context.st

theorem State.ctx_st (s : State) (c : Nat) : (s.ctx c).st = s.stages.getD c 0 := by
  simp only [State.ctx, State.stages, List.getD_eq_getElem?_getD, List.getElem?_map]
  cases s.contexts[c]? <;> rfl

theorem State.stages_of_contexts {s u : State} (h : u.contexts = s.contexts) : u.stages = s.stages := congrArg (List.map Context.st) h

theorem State.updCtx_stages (s : State) (c : Nat) (f : Context → Context) : (s.updCtx c f).stages = s.stages.set c (f (s.ctx c)).st := List.map_set

theorem State.stages_set_ctx (s : State) (c : Nat) : s.stages.set c (s.ctx c).st = s.stages := by
  rw [State.ctx_st]
  refine List.ext_getElem (by simp) fun i _ hi => ?_
  by_cases same : c = i
  · simp [same, hi]
  · rw [List.getElem_set_ne same]

@[simp] theorem ite_stages (c : Prop) [Decidable c] (s u : State) : (if c then s else u).stages = if c then s.stages else u.stages := apply_ite State.stages c s u

@[simp] theorem foldl_stages {α : Type} (l : List α) (f : State → α → State) (s : State) (h : ∀ s a, (f s a).stages = s.stages) :
    (l.foldl f s).stages = s.stages :=
  List.foldlRecOn l f (motive := fun u : State => u.stages = s.stages) rfl fun u hu a _ => (h u a).trans hu

@[simp] theorem State.updThread_stages (s : State) (i : Nat) (f : Thread → Thread) : (s.updThread i f).stages = s.stages := by rfl

@[simp] theorem State.updTask_stages (s : State) (i : Nat) (f : Task → Task) : (s.updTask i f).stages = s.stages := by rfl

@[simp] theorem State.updOp_stages (s : State) (i : Nat) (f : Op → Op) : (s.updOp i f).stages = s.stages := by rfl

@[simp] theorem State.logRefused_stages (s : State) (a c k : Nat) (va : Bool) (ad : W64) (co su : Nat) (la : W64) :
    (s.logRefused a c k va ad co su la).stages = s.stages := stages_of_contexts (by simp)

/-! ## Waiters of a line -/

@[simp] theorem State.peerRead_stages (s : State) (n : Nat) : (s.peerRead n).1.stages = s.stages := by rw [peerRead_free]; rfl

@[simp] theorem State.stampWrite_stages (s : State) (line : Nat) : (s.stampWrite line).stages = s.stages := by rfl

@[simp] theorem State.timedWrite_stages (s : State) (tid line : Nat) : (s.timedWrite tid line).stages = s.stages := by rfl

@[simp] theorem State.wordDone_stages (s : State) (o : Op) (w : WordReq) (v : Nat) : (s.wordDone o w v).stages = s.stages := by simp [State.wordDone]

@[simp] theorem State.accessRefused_stages (s : State) (o : Op) (tid code sub : Nat) (va addr : W64) :
    (s.accessRefused o tid code sub va addr).stages = s.stages := by simp [State.accessRefused]

@[simp] theorem State.wordRefused_stages (s : State) (o : Op) (v : Nat) : (s.wordRefused o v).stages = s.stages := by simp [State.wordRefused]

@[simp] theorem State.wordTest_stages (s : State) (o : Op) (w : WordReq) (d : Line) (early : Bool) : (s.wordTest o w d early).stages = s.stages := by
  unfold State.wordTest
  split <;> simp

@[simp] theorem State.peerAnswer_stages (s : State) (w : PeerWait) (v : Nat) : (s.peerAnswer w v).stages = s.stages := by rfl

@[simp] theorem State.peerRefused_stages (s : State) (c pa code sub : Nat) : (s.peerRefused c pa code sub).stages = s.stages :=
  State.logRefused_stages ..

@[simp] theorem State.peerTest_stages (s : State) (w : PeerWait) (d : Line) (early : Bool) : (s.peerTest w d early).stages = s.stages := by
  unfold State.peerTest
  split <;> simp

@[simp] theorem State.waitShut_stages (s : State) (o : Op) (w : WordReq) : (s.waitShut o w).stages = s.stages := by simp [State.waitShut]

@[simp] theorem State.peerShut_stages (s : State) (w : PeerWait) : (s.peerShut w).stages = s.stages := by simp [State.peerShut]

@[simp] theorem State.retest_stages (s : State) (line : Nat) (d : Line) : (s.retest line d).stages = s.stages := by
  unfold State.retest
  refine (foldl_stages _ _ _ fun s w => ?_).trans (foldl_stages _ _ _ fun s o => ?_)
  · split <;> simp
  · split <;> simp

/-! ## The Vale and the views -/

@[simp] theorem State.stackWrite_stages (s : State) (line : Nat) (d : Line) : (s.stackWrite line d).stages = s.stages :=
  stages_of_contexts (by simp only [State.stackWrite])

@[simp] theorem State.setVale_stages (s : State) (v : ValeLine) : (s.setVale v).stages = s.stages := by rfl

@[simp] theorem State.dropVale_stages (s : State) (line : Nat) : (s.dropVale line).stages = s.stages := by rfl

@[simp] theorem State.fillDev_stages (s : State) (line ctx : Nat) : (s.fillDev line ctx).stages = s.stages := by
  unfold State.fillDev
  split <;> simp

@[simp] theorem State.cleanDev_stages (s : State) (line : Nat) : (s.cleanDev line).stages = s.stages := by
  unfold State.cleanDev
  split <;> simp

@[simp] theorem State.unverify_stages (s : State) (line : Nat) (m : LineMask) : (s.unverify line m).stages = s.stages := by
  simp only [State.unverify, State.stages, List.map_map]
  rfl

@[simp] theorem State.writeDev_stages (s : State) (line ctx : Nat) (m : LineMask) (d : Line) : (s.writeDev line ctx m d).stages = s.stages := by
  unfold State.writeDev
  dsimp only
  (repeat' split) <;> simp

@[simp] theorem State.devWriteBytes_stages (s : State) (ctx pa : Nat) (l : List Byte) : (s.devWriteBytes ctx pa l).stages = s.stages := by
  simp [State.devWriteBytes]

@[simp] theorem State.planeWrite_stages (s : State) (ctx pa : Nat) (l : List Byte) : (s.planeWrite ctx pa l).stages = s.stages := by
  unfold State.planeWrite
  split <;> simp

@[simp] theorem State.colSplit_stages (s : State) (n line ctx : Nat) (d : Line) : (s.colSplit n line ctx d).stages = s.stages := by
  simp [State.colSplit]

@[simp] theorem State.markRsv_stages (s : State) (n die : Nat) : (s.markRsv n die).stages = s.stages := by rfl

@[simp] theorem State.fillViewOne_stages (s : State) (n line ctx : Nat) : (s.fillViewOne n line ctx).stages = s.stages := by
  unfold State.fillViewOne
  split <;> simp

@[simp] theorem State.fillView_stages (s : State) (n line ctx : Nat) : (s.fillView n line ctx).stages = s.stages := by simp [State.fillView]

@[simp] theorem State.cleanLine_stages (s : State) (line : Nat) : (s.cleanLine line).stages = s.stages := by
  unfold State.cleanLine
  (repeat' split) <;> simp

@[simp] theorem State.flushView_stages (s : State) (n : Nat) : (s.flushView n).stages = s.stages :=
  foldl_stages _ _ _ fun s l => by simp

@[simp] theorem State.settleView_stages (s : State) (pa : Nat) : (s.settleView pa).stages = s.stages := by
  unfold State.settleView
  split <;> simp

@[simp] theorem State.fillHome_stages (s : State) (line ctx : Nat) : (s.fillHome line ctx).stages = s.stages := by
  unfold State.fillHome
  split <;> simp

@[simp] theorem State.memWrite_stages (s : State) (line ctx : Nat) (m : LineMask) (d : Line) : (s.memWrite line ctx m d).stages = s.stages := by
  unfold State.memWrite
  dsimp only
  rw [State.retest_stages, State.setVale_stages, State.unverify_stages, State.fillHome_stages]
  split <;> simp

/-! ## The debug window and the homes -/

/-- R398: the control words of a debug window are not the stage of its context. -/
theorem controlWrite_st {x y : Context} {off v : Nat} (h : State.controlWrite x off v = some y) : y.st = x.st := by
  unfold State.controlWrite at h
  grind

theorem State.dbgWrite_stages {s u : State} {c off v : Nat} (h : s.dbgWrite c off v = some u) : u.stages = s.stages := by
  unfold State.dbgWrite at h
  dsimp only at h
  split at h
  · cases h
  · split at h
    · obtain ⟨x, hx, rfl⟩ := Option.map_eq_some_iff.mp h
      have same : (s.setCtx c x).stages = s.stages.set c x.st := List.map_set
      rw [same, controlWrite_st hx, stages_set_ctx]
    · split at h
      · cases h
      · split at h
        · cases h
        · obtain ⟨e, -, rfl⟩ := Option.map_eq_some_iff.mp h
          rfl

@[simp] theorem State.dbgStore_stages (s : State) (c line : Nat) (m : LineMask) (d : Line) : (s.dbgStore c line m d).stages = s.stages := by
  refine foldl_stages _ _ _ fun s i => ?_
  split
  next written => exact dbgWrite_stages written
  next => exact logRefused_stages ..

@[simp] theorem State.homeWrite_stages (s : State) (line ctx : Nat) (m : LineMask) (d : Line) : (s.homeWrite line ctx m d).stages = s.stages := by
  unfold State.homeWrite
  dsimp only
  (repeat' split) <;> simp

@[simp] theorem State.agentWriteN_stages (s : State) (pa n ctx v : Nat) : (s.agentWriteN pa n ctx v).stages = s.stages := by
  simp [State.agentWriteN, State.homeWriteN]

/-! ## The writes of the units -/

theorem afterFlush_stages {s u : State} {pa : Nat} {va : W64} (h : afterFlush s pa va = .ok u) : u.stages = s.stages := by
  unfold afterFlush at h
  grind [State.settleView_stages]

theorem unitWrite_stages {s u : State} {c : Nat} {va : W64} {n v : Nat} (h : unitWrite s c va n v = .ok u) : u.stages = s.stages := by
  unfold unitWrite at h
  grind [afterFlush_stages, State.agentWriteN_stages]

@[simp] theorem recWrite_stages (s : State) (c : Nat) (va : W64) (n v : Nat) : (recWrite s c va n v).stages = s.stages := by
  unfold recWrite
  split
  next written => exact unitWrite_stages written
  next => simp

@[simp] theorem publish_stages (s : State) (task : Nat) : (publish s task).stages = s.stages := by
  unfold publish
  split <;> simp

/-! ## The end of a context -/

/-- R342, R422: a context that is terminated stands at FAILED, and the others stay as they are. -/
theorem terminate_stages (s : State) (c code : Nat) : (terminate s c code).stages = s.stages.set c 5 := by
  unfold terminate
  dsimp only
  rw [State.updCtx_stages]
  exact congrArg (List.set · c 5) (foldl_stages _ _ s fun s k => by simp)

/-- R422: a context that is destroyed is free, and the others stay as they are. -/
theorem destroyContext_stages {s : State} {c : Nat} (ended : (s.ctx c).st = 5) : (destroyContext s c).stages = s.stages.set c 0 := by
  unfold destroyContext
  rw [ended, if_neg (by decide)]
  dsimp only
  rw [State.updCtx_stages]
  refine congrArg (List.set · c 0) ?_
  split <;> rfl

end Sys2Proof.Machine
end

section
/-! SUPPORT. The events of security (R428 to R431). -/

namespace Sys2Proof.Machine

/-! ## RETIRE -/

/-- R431: a context that is alive is terminated, and one that has ended is freed. -/
def retireContext (s : State) (c : Nat) : State :=
  let s := if alive s c then terminate s c 0 else s
  if (s.ctx c).st = 5 then destroyContext s c else s

theorem lcRetires_eq (s : State) : lcRetires s = setIdent ((List.range Config.contexts).foldl retireContext s) (fun x =>
    { wipeKeys x with state := 3, retiredFuse := true, debugPort := false, lcres := 1 }) := rfl

theorem alive_iff {s : State} {c : Nat} : alive s c = true ↔ 1 ≤ (s.ctx c).st ∧ (s.ctx c).st ≤ 4 := by simp [alive]

/-- R342: a context that is alive stands at FAILED once it is terminated. -/
theorem terminate_st {s : State} {c : Nat} (code : Nat) (live : alive s c = true) : ((terminate s c code).ctx c).st = 5 := by
  have inRange : c < s.stages.length := by
    by_contra outside
    have free : (s.ctx c).st = 0 := by simp [State.ctx_st, List.getD_eq_getElem?_getD, List.getElem?_eq_none (Nat.le_of_not_lt outside)]
    have := (alive_iff.1 live).1
    omega
  simp [State.ctx_st, terminate_stages, List.getD_eq_getElem?_getD, inRange]

/-- R431: a context in use is free afterwards, and nothing else changes its stage. -/
theorem retireContext_stages (s : State) (c : Nat) :
    (retireContext s c).stages = if alive s c = true ∨ (s.ctx c).st = 5 then s.stages.set c 0 else s.stages := by
  unfold retireContext
  by_cases live : alive s c = true
  · simp [live, terminate_st 0 live, destroyContext_stages, terminate_stages]
  · by_cases ended : (s.ctx c).st = 5
    · simp [live, ended, destroyContext_stages]
    · simp [live, ended]

theorem retireContext_st {s : State} {c : Nat} (known : (s.ctx c).st ≤ 5) : ((retireContext s c).ctx c).st = 0 := by
  rw [State.ctx_st, retireContext_stages]
  split
  next used =>
    rw [List.getD_eq_getElem?_getD, List.getElem?_set_self']
    cases s.stages[c]? <;> rfl
  next unused =>
    rw [← State.ctx_st]
    rw [alive_iff] at unused
    omega

theorem retireContext_st_ne {s : State} {c d : Nat} (other : c ≠ d) : ((retireContext s c).ctx d).st = (s.ctx d).st := by
  rw [State.ctx_st, State.ctx_st, retireContext_stages]
  split
  next => simp [List.getD_eq_getElem?_getD, other]
  next => rfl

/-- R431: each context of the list is free in the end. -/
theorem foldl_retireContext_st (l : List Nat) {s : State} {d : Nat} (known : (s.ctx d).st ≤ 5) (h : d ∈ l ∨ (s.ctx d).st = 0) :
    ((l.foldl retireContext s).ctx d).st = 0 := by
  induction l generalizing s with
  | nil => exact h.resolve_left List.not_mem_nil
  | cons c l ih =>
    by_cases same : c = d
    · subst same
      have free := retireContext_st known
      exact ih (by omega) (.inr free)
    · have kept := retireContext_st_ne (s := s) same
      refine ih (kept ▸ known) (h.imp (fun mem => ?_) kept.trans)
      exact (List.mem_cons.1 mem).resolve_left (Ne.symm same)

theorem setIdent_ctx (s : State) (f : Identity → Identity) (c : Nat) : (setIdent s f).ctx c = s.ctx c := rfl

theorem lcRetires_st (s : State) {c : Nat} (inRange : c < Config.contexts) (known : (s.ctx c).st ≤ 5) : ((lcRetires s).ctx c).st = 0 := by
  rw [lcRetires_eq, setIdent_ctx]
  exact foldl_retireContext_st _ known (.inl (List.mem_range.2 inRange))

/-! ## KMAP -/

/-- R430: the entry of granule `g` after one write. -/
theorem find_setKmap (k : List (Nat × BitVec 8)) (n g : Nat) (b : BitVec 8) :
    (((setKmap k n b).find? (fun p => p.1 == g)).map Prod.snd).getD 0#8 =
      if n = g then b else ((k.find? (fun p => p.1 == g)).map Prod.snd).getD 0#8 := by
  have rest : (k.filter (fun p => p.1 != n)).find? (fun p => p.1 == g) = if n = g then none else k.find? (fun p => p.1 == g) := by
    rw [List.find?_filter]
    split
    next same => simp [same]
    next other => exact congrArg (List.find? · k) (funext fun p => by grind)
  by_cases zero : b = 0#8
  · rw [setKmap, if_pos zero, rest, zero]
    split <;> rfl
  · rw [setKmap, if_neg zero, List.find?_append, rest]
    split
    next same => simp [same]
    next other => simp [other]

/-- R430: one entry of a word of entries is written. -/
def kmapPut (i : Nat) (v : W64) (s : State) (k : Nat) : State :=
  setIdent s (fun x => { x with kmap := setKmap x.kmap (8 * i + k) (v.extractLsb' (8 * k) 8 &&& 0xBF#8) })

/-- R430: a word of entries of granules with no page in use is written entry by entry. -/
theorem keyWrite_kmap {s : State} {i : Nat} (v : W64) (hi : i < 96) (unused : ∀ k < 8, granuleLive s (8 * i + k) = false) :
    keyWrite s (0x2000 + 8 * i) v = (List.range 8).foldl (kmapPut i v) s := by
  rw [keyWrite, if_pos (Nat.le_add_right ..)]
  refine List.foldl_ext _ _ _ fun u k hk => ?_
  have hk := List.mem_range.1 hk
  have byte : BitVec.ofNat 8 (v.toNat / 256 ^ k) = v.extractLsb' (8 * k) 8 := by
    refine BitVec.eq_of_toNat_eq ?_
    simp [Nat.shiftRight_eq_div_pow, Nat.pow_mul]
  simp only [Nat.add_sub_cancel_left]
  rw [if_neg (by omega), unused k hk, byte]
  rfl

/-- R430: what the entries of a word leave unchanged, and what they write. -/
theorem foldl_kmapPut (i : Nat) (v : W64) (n : Nat) (s : State) :
    let u := (List.range n).foldl (kmapPut i v) s
    u = { s with ident := { s.ident with kmap := u.ident.kmap } }
      ∧ ∀ g, Claim.kmapEntry u g = if 8 * i ≤ g ∧ g < 8 * i + n then v.extractLsb' (8 * (g - 8 * i)) 8 &&& 0xBF#8 else Claim.kmapEntry s g := by
  induction n with
  | zero => exact ⟨rfl, fun g => by rw [if_neg (by omega)]; rfl⟩
  | succ n ih =>
    simp only [List.range_succ, List.foldl_append, List.foldl_cons, List.foldl_nil] at ih ⊢
    obtain ⟨kept, entries⟩ := ih
    generalize (List.range n).foldl (kmapPut i v) s = u at kept entries ⊢
    refine ⟨by rw [kept]; rfl, fun g => ?_⟩
    have put : Claim.kmapEntry (kmapPut i v u n) g = if 8 * i + n = g then v.extractLsb' (8 * n) 8 &&& 0xBF#8 else Claim.kmapEntry u g :=
      find_setKmap ..
    rw [put, entries]
    by_cases last : 8 * i + n = g
    · subst last
      simp
    · rw [if_neg last]
      exact if_congr (by omega) rfl rfl

theorem identityEvents : Claim.IdentityEvents := by
  unfold Claim.IdentityEvents
  refine fun s => ⟨⟨perst s, rfl, ?perst⟩, fun recov => ?go, fun i v hi unused => ?kmap, fun secured free => ?opens,
    ⟨lcRetires s, rfl, rfl, rfl, rfl, rfl, rfl, fun c inRange known => lcRetires_st s inRange known⟩, rfl, fun busy => ?sign⟩
  case perst =>
    unfold perst
    have stage : (((if s.ident.retiredFuse then 3 else 1 : Nat)) : Byte) = if s.ident.retiredFuse then 3#8 else 1#8 := by
      cases s.ident.retiredFuse <;> rfl
    cases Config.firmwareGood with
    | true => exact ⟨rfl, rfl, rfl, rfl, rfl, stage, rfl, rfl⟩
    | false => exact ⟨rfl, rfl, rfl, rfl, rfl, stage, rfl, rfl⟩
  case go =>
    refine congrArg Host.Outcome.next (show bootGo s = _ from ?_)
    rw [bootGo, recov, Bool.true_and]
  case kmap =>
    refine ⟨(List.range 8).foldl (kmapPut i v) s, congrArg Host.Outcome.next ?_, (foldl_kmapPut i v 8 s).1, fun g _ => (foldl_kmapPut i v 8 s).2 g⟩
    have offset : (keyOffset (0x2000 + 8 * i) && (0x2000 + 8 * i) % 8 == 0) = true := by
      simp only [keyOffset, Bool.and_eq_true, Bool.or_eq_true, decide_eq_true_eq, beq_iff_eq]
      omega
    rw [if_pos offset, keyWrite_kmap v hi unused]
  case opens =>
    refine congrArg Host.Outcome.next (show lcOpens s = _ from ?_)
    have allFree : s.contexts.all (fun c => c.st == 0) = true := by simpa using free
    rw [lcOpens, secured, allFree]
    rfl
  case sign => exact happens_some (r := signed s) (by rw [signed, busy]; rfl)

end Sys2Proof.Machine
end

section
/-! SUPPORT. The events of power (R432). -/

namespace Sys2Proof.Machine

/-- R432: a request of a die with no transition in progress starts one. -/
theorem powerRequest_idle {s : State} {die r : Nat} {p : Power} (hp : s.power[die]? = some p) (idle : p.goal = none) :
    powerRequest s die r = powerStart { s with power := s.power.set die { p with req := r, next := none } } die r := by
  simp [powerRequest, hp, idle]

/-- R432: a transition that is due, that no seat holds back and that no later request waits for, is reached. -/
theorem powerReached_due {s : State} {die g t : Nat} {p : Power} (hp : s.power[die]? = some p) (goal : p.goal = some (g, t)) (due : t ≤ s.clk)
    (seats : 2 ≤ g → seatedOn s die = []) (last : p.next = none) :
    powerReached s die = some (
      let u := if 2 ≤ g then dieSleeps s die g else s
      { u with power := u.power.set die { p with st := g, goal := none, next := none } }) := by
  have waits : (decide (s.clk < t) || (decide (2 ≤ g) && !(seatedOn s die).isEmpty)) = false := by
    rw [Bool.or_eq_false_iff, Bool.and_eq_false_imp]
    exact ⟨decide_eq_false (Nat.not_lt.2 due), fun low => by rw [seats (of_decide_eq_true low)]; rfl⟩
  simp [powerReached, hp, goal, waits, last]

theorem powerEvents : Claim.PowerEvents := by
  unfold Claim.PowerEvents
  refine fun die p s hp => ⟨fun hd ready idle e he => ?request, fun g t u goal due seats hu last => ?reached⟩
  case request =>
    have started : ∀ r, hostPower s die r = powerStart { s with power := s.power.set die { p with req := r, next := none } } die r := fun r => by
      rw [hostPower, if_pos hd, whenReady, if_pos ready, powerRequest_idle hp idle]
    simp only [List.mem_cons, List.not_mem_nil, or_false] at he
    obtain rfl | rfl | rfl | rfl := he
    · exact congrArg Host.Outcome.next (started 0)
    · exact congrArg Host.Outcome.next (started 1)
    · exact congrArg Host.Outcome.next (started 2)
    · exact congrArg Host.Outcome.next (started 3)
  case reached =>
    subst hu
    exact happens_some (powerReached_due hp goal due seats last)

/-- Settles O44: identity (R428 to R431), with RETIRE by the stages of the contexts and KMAP entry by entry, and power (R432). -/
theorem securityAndPowerEvents : Obligations.SecurityAndPowerEvents := ⟨identityEvents, powerEvents⟩

end Sys2Proof.Machine
end
